-- ==== Sys2Proof/Word.lean ====
section
/-! DEFINITION. The byte of the part's links, and the 32-bit ceiling at which the spec's counters and totals stop. -/

namespace Sys2Proof

/-- One byte on a link (R160). -/
abbrev Byte := BitVec 8

/-- 4 294 967 295: where the shop seconds counter and the kJ totals stop (R2, 00_scope.md). -/
def u32Max : Nat := 4294967295

end Sys2Proof
end

