-- ==== Sys2Proof/Syntax.lean ====
section
/-! DEFINITION. The commands of the part: one constructor per row of spec/opcode_table.json, with its operands. -/

namespace Sys2Proof

/-- Furnace A or B; also the output, the deck and the dip unit of that letter. -/
inductive Furnace where
  | a
  | b
  deriving DecidableEq, Repr

/-- The three station ports (R140). -/
inductive Port where
  | a
  | b
  | p
  deriving DecidableEq, Repr

/-- The three cooling circuits (R102). -/
inductive Circuit where
  | coilA
  | coilB
  | cabinet
  deriving DecidableEq, Repr

/-- The eleven analog channels, in the order of R88. -/
inductive Chan where
  | coilAOut
  | coilBOut
  | cabOut
  | loopPress
  | coilAFlow
  | coilBFlow
  | cabFlow
  | leakA
  | leakB
  | dipA
  | dipB
  deriving DecidableEq, Repr

/-- The direct input lines as they stand when a reset is taken (R65, R119). -/
structure ResetLines where
  /-- MAIN_BREAKER_CLOSED is active. -/
  breakerClosed : Bool
  /-- MAIN_PUMP_RUN is active. -/
  mainPumpRun : Bool
  /-- STANDBY_RUN is active. -/
  standbyRun : Bool
  /-- The COMMISSION strap is fitted. -/
  commission : Bool
  deriving DecidableEq, Repr

/-- Bytes that have come from the station of a port (R141). -/
structure StationBytes where
  port : Port
  bytes : List Byte
  deriving DecidableEq, Repr

/-- What a stage frame carries between its LEN and its check (R162). -/
structure StageFrame where
  kind : Byte
  body : List Byte
  deriving DecidableEq, Repr

/-- How a settings save ended (R158). -/
inductive SaveResult where
  /-- The whole block was written and acknowledged. -/
  | saved
  /-- Some part of the write was not acknowledged; the flag says whether a part had been written by then. -/
  | failed (partWritten : Bool)
  deriving DecidableEq, Repr

/-- The commands. A request (R142) carries the port it arrives on, its tag and its body bytes (R161). -/
inductive Instr where
  -- resets and the settings memory
  | coldStart (lines : ResetLines)
  | warmRestart (lines : ResetLines)
  | settingsLoadEnd (acknowledged : Bool)
  | saveEnd (result : SaveResult)
  | channelIdleExpiry
  -- requests
  | openHeat (port : Port) (tag : Byte) (body : List Byte)
  | addCharge (port : Port) (tag : Byte) (body : List Byte)
  | setMeltPower (port : Port) (tag : Byte) (body : List Byte)
  | setHoldTarget (port : Port) (tag : Byte) (body : List Byte)
  | setChemistry (port : Port) (tag : Byte) (body : List Byte)
  | closeHeat (port : Port) (tag : Byte) (body : List Byte)
  | restate (port : Port) (tag : Byte) (body : List Byte)
  | furnaceOn (port : Port) (tag : Byte) (body : List Byte)
  | tapOpen (port : Port) (tag : Byte) (body : List Byte)
  | tripReset (port : Port) (tag : Byte) (body : List Byte)
  | resume (port : Port) (tag : Byte) (body : List Byte)
  | linkRestart (port : Port) (tag : Byte) (body : List Byte)
  | pumpReturn (port : Port) (tag : Byte) (body : List Byte)
  | postTap (port : Port) (tag : Byte) (body : List Byte)
  | cancelTap (port : Port) (tag : Byte) (body : List Byte)
  | tapWeight (port : Port) (tag : Byte) (body : List Byte)
  | bank (port : Port) (tag : Byte) (body : List Byte)
  | wake (port : Port) (tag : Byte) (body : List Byte)
  | readSetting (port : Port) (tag : Byte) (body : List Byte)
  | writeSetting (port : Port) (tag : Byte) (body : List Byte)
  | saveSettings (port : Port) (tag : Byte) (body : List Byte)
  | releaseChannel (port : Port) (tag : Byte) (body : List Byte)
  | queryFurnace (port : Port) (tag : Byte) (body : List Byte)
  | readLog (port : Port) (tag : Byte) (body : List Byte)
  | queryQueue (port : Port) (tag : Byte) (body : List Byte)
  | queryProtection (port : Port) (tag : Byte) (body : List Byte)
  | queryChannels (port : Port) (tag : Byte) (body : List Byte)
  | queryAllotment (port : Port) (tag : Byte) (body : List Byte)
  | queryShop (port : Port) (tag : Byte) (body : List Byte)
  | readNotices (port : Port) (tag : Byte) (body : List Byte)
  | ackNotices (port : Port) (tag : Byte) (body : List Byte)
  | setNoticeEnables (port : Port) (tag : Byte) (body : List Byte)
  | unknownRequestKind (port : Port) (kind tag : Byte) (body : List Byte)
  -- port events
  /-- the bytes are those of the frame, its check as received among them -/
  | requestFrameDiscarded (frame : StationBytes)
  /-- the bytes are those of the frame that came before the gap -/
  | stationByteGap (gathered : StationBytes)
  | answerSent (port : Port)
  | attnGapEnd (port : Port)
  -- the stage link
  | report (deliveredA : BitVec 16) (statusA : Byte) (deliveredB : BitVec 16) (statusB : Byte)
  | unknownKindFrame (frame : StageFrame)
  | stageCheckErrorFrame
  | stageByteGap
  | reportDeadlineExpiry
  | refreshTimerExpiry
  | setpointCompleted
  | tripFrameEnd
  | abortedSetpointEnd (firstCheckByteGone : Bool)
  -- allotment and the seconds
  | pulsePeriodStart (output : Furnace)
  | pulseOffPhase (output : Furnace)
  | shedChange (active : Bool)
  | estimatorSecond (furnace : Furnace)
  | readinessSecond
  | entryLapse (requestId : Nat)
  -- the shop
  | mainBreakerClosedChange (closed : Bool)
  | deckOffPress (deck : Furnace)
  | deckOffRelease (deck : Furnace)
  | deckOffHold (deck : Furnace)
  | breakerStuckExpiry
  -- the scanner
  | sweepUnit
  | waterConversionEnd (channel : Chan) (code : BitVec 12)
  | channelStale (channel : Chan)
  | dipSample (unit : Furnace) (code : BitVec 12)
  | lanceContact (unit : Furnace)
  | lanceLift (unit : Furnace)
  | dipTimerExpiry (unit : Furnace)
  -- protection
  | watchTimerExpiry (circuit : Circuit)
  | derateTimerExpiry (circuit : Circuit)
  | recoveryTimerExpiry (circuit : Circuit)
  | mainPumpRunChange (active : Bool)
  | standbyRunChange (active : Bool)
  | pressureTimerExpiry
  | settleTimerExpiry
  -- tilt and the tap timers
  | tiltChange (furnace : Furnace) (home forward : Bool)
  | tapConfirmExpiry
  | permitUseExpiry
  | tapMaxExpiry
  | weightWaitExpiry
  -- the last rows of the table
  | stationBadLengthByte (port : Port) (len : Byte)
  | mainSupplyLoss
  deriving DecidableEq, Repr

end Sys2Proof
end

