-- ==== Sys2Proof/Config.lean ====
section
/-! DEFINITION. The fixed numbers of the part: the defaults of the settings, the sizes of its lists, and the limits of
the timers whose limit is no setting. The spec leaves no value free, so no constant here is without a body. -/

namespace Sys2Proof.Config

/-- The default of every setting, in setting-number order from 1 to 65 (R152); named values by the codes of R160. -/
def settingDefaults : List Nat :=
  [6000, 4500, 4500, 450, 450, 6000, 2000, 600, 300, 60] ++
  [8000, 8000, 1500, 1500, 75, 75, 180, 180, 820, 1170] ++
  [1250, 1350, 1200, 1500, 1420, 1420, 40, 8, 60, 600] ++
  [1300, 1250, 380, 120, 300, 90, 550, 450, 650, 550] ++
  [100, 250, 250, 2, 60, 10, 8, 90, 10, 300] ++
  [120, 0, 0, 1] ++ [1, 1, 1, 1, 1, 1, 1, 1, 1, 1, 1]

/-- Most charge entries in a heat (R3). -/
def chargeMax : Nat := 12
/-- Most tap records in a heat's tap list (R4). -/
def tapMax : Nat := 16
/-- Most summaries in the closed-heat log (R21). -/
def logMax : Nat := 32
/-- Most entries in the tap queue (R120). -/
def queueMax : Nat := 8

/-- Report deadline, 2.5 s (R82). -/
def reportDeadlineMs : Nat := 2500
/-- Babble: three REPORT-kind frames within less than 1 s (R83). -/
def babbleMs : Nat := 1000
/-- Refresh timer of the SETPOINT frame (R76). -/
def refreshMs : Nat := 500
/-- Pulse period (R57). -/
def pulsePeriodMs : Nat := 10000
/-- Deck Off hold (R72). -/
def deckHoldMs : Nat := 3000
/-- Stuck timer of the breaker output (R73). -/
def stuckMs : Nat := 2000
/-- A water channel goes STALE (R90). -/
def staleMs : Nat := 500
/-- Sweep unit (R92). -/
def sweepMs : Nat := 5
/-- Dip timer (R99). -/
def dipMs : Nat := 8000
/-- Pressure timer (R112, R114). -/
def pressureMs : Nat := 1000
/-- ATTN gap (R150). -/
def gapMs : Nat := 1
/-- Settings channel idle timer (R155). -/
def channelIdleMs : Nat := 20000

end Sys2Proof.Config
end

