-- ==== Sys2Proof/Machine/Layout.lean ====
section
/-! DEFINITION. Byte order and the frame check (R160). -/

namespace Sys2Proof.Machine

/-- A one-byte field. -/
def be1 (n : Nat) : List Byte := [BitVec.ofNat 8 n]

/-- A two-byte field, most significant byte first (R160). -/
def be2 (n : Nat) : List Byte := [BitVec.ofNat 8 (n / 256), BitVec.ofNat 8 n]

/-- A four-byte field, most significant byte first (R160). -/
def be4 (n : Nat) : List Byte := be2 (n / 65536) ++ be2 n

/-- A signed four-byte field, two's complement (R160). -/
def be4i (z : Int) : List Byte := be4 (BitVec.ofInt 32 z).toNat

/-- A flag or line level: 1 when set, on or active, else 0 (R161). -/
def flagByte (b : Bool) : List Byte := [if b then 1 else 0]

/-- The value of a field of any width, most significant byte first (R160). -/
def readBE (bytes : List Byte) : Nat := bytes.foldl (fun acc b => acc * 256 + b.toNat) 0

/-- An optional item that the heat body does not hold: a flags byte with presence at bit 0, then the item, sent as 0
when absent (R161). -/
def optBytes (width : Nat) : Option (List Byte) → List Byte
  | some bytes => 1 :: bytes
  | none => 0 :: List.replicate width 0

/-- A list: a one-byte count, then its items (R161). -/
def listBytes (items : List (List Byte)) : List Byte := be1 items.length ++ items.flatten

/-- One left shift of the check register, with the polynomial's low sixteen bits XORed in when a 1 falls out (R160). -/
def crcShift (reg : BitVec 16) : BitVec 16 :=
  if reg.msb then (reg <<< 1) ^^^ 0x1021#16 else reg <<< 1

/-- `n` shifts of the check register. -/
def crcShifts : Nat → BitVec 16 → BitVec 16
  | 0, reg => reg
  | n + 1, reg => crcShifts n (crcShift reg)

/-- One covered byte: XORed into the upper eight bits, then eight shifts (R160). -/
def crcByte (reg : BitVec 16) (b : Byte) : BitVec 16 :=
  crcShifts 8 (reg ^^^ (b ++ 0#8))

/-- The frame check of a sequence of bytes (R160). -/
def crc16 (bytes : List Byte) : BitVec 16 := bytes.foldl crcByte 0xFFFF#16

/-- The two check bytes, high byte first (R160). -/
def checkBytes (bytes : List Byte) : List Byte := be2 (crc16 bytes).toNat

/-- The 130 bytes of a settings block: each value in 16 bits, in setting-number order (R160). -/
def settingsBytes (values : List Nat) : List Byte := (values.map be2).flatten

end Sys2Proof.Machine
end

