-- ==== Sys2Proof/Machine/State.lean ====
section
/-! DEFINITION. The state of the part, block by block (00_scope.md, Blocks of the part), and the state after reset. -/

namespace Sys2Proof.Machine

/-! ### One value for each furnace, port or circuit -/

/-- A value for furnace A and one for furnace B. -/
structure PerFurnace (α : Type) where
  a : α
  b : α
  deriving DecidableEq, Repr

/-- A value for each of the three ports. -/
structure PerPort (α : Type) where
  a : α
  b : α
  p : α
  deriving DecidableEq, Repr

/-- A value for each of the three circuits. -/
structure PerCircuit (α : Type) where
  coilA : α
  coilB : α
  cabinet : α
  deriving DecidableEq, Repr

/-- A value for each of the eleven channels (R88). -/
structure PerChan (α : Type) where
  coilAOut : α
  coilBOut : α
  cabOut : α
  loopPress : α
  coilAFlow : α
  coilBFlow : α
  cabFlow : α
  leakA : α
  leakB : α
  dipA : α
  dipB : α
  deriving DecidableEq, Repr

/-! ### The Heat Table (R1 to R6, R21) -/

/-- The five materials of a charge entry (R3). -/
inductive Material where
  | returns
  | steel
  | pig
  | alloy
  | heel
  deriving DecidableEq, Repr

/-- The five states of an open heat (R1). -/
inductive HeatState where
  | melting
  | superheat
  | holding
  | tapReady
  | tapping
  deriving DecidableEq, Repr

/-- Chemistry of a heat (R2, R16). -/
inductive Chemistry where
  | pending
  | approved
  | rejected
  deriving DecidableEq, Repr

/-- Why a heat closed (R21). -/
inductive CloseReason where
  | closed
  | emptied
  | lost
  deriving DecidableEq, Repr

/-- A charge entry (R3). -/
structure ChargeEntry where
  material : Material
  /-- kg -/
  mass : Nat
  /-- shop second -/
  addedAt : Nat
  deriving DecidableEq, Repr

/-- A tap record (R4). -/
structure TapRecord where
  ordinal : Nat
  ladle : Nat
  requestId : Nat
  grantedAt : Nat
  forwardAt : Option Nat
  homeAt : Option Nat
  /-- kg -/
  poured : Nat
  estimateAtForward : Option Nat
  interrupted : Bool
  weightTimeout : Bool
  clamped : Bool
  deriving DecidableEq, Repr

/-- A dip result as it is kept: temperature and shop second (R2). -/
structure Dip where
  temp : Nat
  second : Nat
  deriving DecidableEq, Repr

/-- The open heat record (R2). Its furnace is the slot it stands in. -/
structure Heat where
  number : Nat
  state : HeatState
  charges : List ChargeEntry
  /-- total melt requirement, kJ -/
  totalMelt : Nat
  /-- remaining energy to liquidus, kJ -/
  remaining : Nat
  /-- restate adjustment, kg -/
  restateAdj : Int
  taps : List TapRecord
  openTap : Option TapRecord
  /-- kg, held and recomputed (R5) -/
  bathMass : Nat
  /-- °C, absent is ESTIMATE_ABSENT -/
  estimate : Option Nat
  /-- J -/
  accumulator : Int
  lastDip : Option Dip
  holdTarget : Nat
  chemistry : Chemistry
  freeze : Bool
  massUncertain : Bool
  /-- kJ -/
  delivered : Nat
  /-- kJ -/
  useful : Nat
  classStamp : Nat
  openedAt : Nat
  deriving DecidableEq, Repr

/-- The three conditions of a slot (R1). -/
inductive Slot where
  | empty
  | unknown
  | heat (h : Heat)
  deriving DecidableEq, Repr

/-- A furnace slot with what stands beside it (R1, R26). -/
structure FurnaceSlot where
  slot : Slot
  /-- the estimator stamp -/
  stamp : Nat
  stopped : Bool
  /-- delivered power of the last valid REPORT since the last estimator second (R26) -/
  reported : Option Nat
  deriving DecidableEq, Repr

/-- A summary of a closed heat (R21). -/
structure Summary where
  number : Nat
  furnace : Furnace
  openedAt : Nat
  closedAt : Nat
  charged : Nat
  tapped : Nat
  tapCount : Nat
  delivered : Nat
  useful : Nat
  finalEstimate : Option Nat
  lastDip : Option Dip
  heelOut : Nat
  reason : CloseReason
  deriving DecidableEq, Repr

/-- The Heat Table. -/
structure HeatTable where
  slots : PerFurnace FurnaceSlot
  /-- the closed-heat log, oldest first -/
  log : List Summary
  nextNumber : Nat
  deriving DecidableEq, Repr

/-! ### The Power Allotment Unit (R43, R44) -/

/-- Class of demand (R7, R45). -/
inductive DemandClass where
  | none
  | hold
  | melt
  deriving DecidableEq, Repr

/-- The limiting factors, in the order of R48, and BUDGET (R56). -/
inductive Factor where
  | request
  | outputMax
  | cooling
  | stage
  | link
  | tilt
  | permit
  | shop
  | stopped
  | budget
  deriving DecidableEq, Repr

/-- How an output is run (R54). -/
inductive Mode where
  | off
  | cont
  | pulse
  deriving DecidableEq, Repr

/-- The pulse phase (R57). -/
inductive Phase where
  | off
  | on
  deriving DecidableEq, Repr

/-- The allotment record of an output (R43). -/
structure AllotRec where
  meltRequest : Nat
  request : Nat
  cls : DemandClass
  cap : Nat
  factor : Factor
  grant : Nat
  reserve : Nat
  mode : Mode
  /-- duty in force, tenths -/
  duty : Option Nat
  waitingDuty : Option Nat
  command : Nat
  phase : Option Phase
  /-- the pulse timer: ms since the period start -/
  period : Option Nat
  deriving DecidableEq, Repr

/-- The Power Allotment Unit: the two records and the budget record. -/
structure Allotment where
  out : PerFurnace AllotRec
  /-- the debounced SHED state -/
  shed : Bool
  ceiling : Nat
  /-- the budget W -/
  budget : Nat
  /-- output P of the latest computation (R53) -/
  priority : Furnace
  deriving DecidableEq, Repr

/-! ### The Shop State Controller (R64, R71, R73) -/

/-- The shop states (R64). -/
inductive ShopState where
  | supplyOff
  | held
  | run
  | banked
  deriving DecidableEq, Repr

/-- Why the shop state changed (R64). -/
inductive ShopCause where
  | reset
  | breakerOpen
  | breakerClosed
  | resume
  | bank
  | wake
  | postTap
  | floor
  deriving DecidableEq, Repr

/-- The hold-reason set (R64). -/
structure HoldReasons where
  coldStart : Bool
  afterLoss : Bool
  commission : Bool
  settingsDefault : Bool
  deriving DecidableEq, Repr

/-- A Deck Off monitor (R71): debounced level, hold timer in ms, and whether this press has been a hold (R72). -/
structure DeckOff where
  level : Bool
  timer : Option Nat
  held : Bool
  deriving DecidableEq, Repr

/-- The Shop State Controller. -/
structure Shop where
  state : ShopState
  reasons : HoldReasons
  /-- the COMMISSION strap as sampled at the reset -/
  strap : Bool
  decks : PerFurnace DeckOff
  /-- the BREAKER_TRIP line -/
  breakerTrip : Bool
  stuckTimer : Option Nat
  /-- BREAKER_STUCK stands -/
  stuck : Bool
  deriving DecidableEq, Repr

/-! ### The Stage Link Controller (R75) -/

/-- The link states (R75). -/
inductive LinkState where
  | down
  | up
  | lost
  | fault
  deriving DecidableEq, Repr

/-- Why the link state changed (R86). -/
inductive LinkCause where
  | report
  | timeout
  | babble
  | unknownKind
  | restart
  deriving DecidableEq, Repr

/-- The status the stage reports for an output (R75). -/
inductive OutputStatus where
  | ready
  | running
  | fault
  deriving DecidableEq, Repr

/-- One output of a REPORT. -/
structure ReportOutput where
  delivered : Nat
  status : OutputStatus
  deriving DecidableEq, Repr

/-- The last report (R75), with the millisecond count at which it was taken. -/
structure LastReport where
  out : PerFurnace ReportOutput
  takenAt : Nat
  deriving DecidableEq, Repr

/-- One output of the held pair (R75). -/
structure HeldOutput where
  command : Nat
  mode : Mode
  phase : Option Phase
  deriving DecidableEq, Repr

/-- A SETPOINT on the wire: the values it carries (R76), whether the link has been UP since it began (R76), and
whether a trip has been taken while it was on the wire (R79). -/
structure SetpointFrame where
  out : PerFurnace HeldOutput
  upSinceBegun : Bool
  tripTaken : Bool
  deriving DecidableEq, Repr

/-- The transmitter (R75). -/
inductive Transmitter where
  | idle
  | sendingSetpoint (frame : SetpointFrame)
  | sendingTrip (mask : PerFurnace Bool)
  deriving DecidableEq, Repr

/-- The Stage Link Controller. -/
structure Stage where
  link : LinkState
  last : Option LastReport
  /-- the report deadline: ms counted while running -/
  deadline : Option Nat
  /-- the babble record: arrival times of the last counted frames, oldest first, at most two -/
  babble : List Nat
  held : PerFurnace HeldOutput
  sent : PerFurnace Bool
  tripHold : PerFurnace Bool
  transmitter : Transmitter
  pendingSetpoint : Bool
  pendingTrip : PerFurnace Bool
  /-- the refresh timer, ms -/
  refresh : Nat
  /-- when the last SETPOINT completed (R86) -/
  lastSetpointAt : Option Nat
  /-- the bytes of the stage frame that went out last (R162) -/
  wire : List Byte
  /-- the bytes of the frame coming in from the stage (R162); empty between commands (log 34) -/
  assembly : List Byte
  deriving DecidableEq, Repr

/-! ### The Measurement Scanner (R88, R92, R94) -/

/-- Status of a channel (R88). -/
inductive ChanStatus where
  | valid
  | broken
  | stale
  | off
  deriving DecidableEq, Repr

/-- A channel record (R88). -/
structure ChannelRec where
  status : ChanStatus
  value : Option Nat
  /-- time of last update, ms -/
  updatedAt : Option Nat
  deriving DecidableEq, Repr

/-- State of a dip unit (R94). -/
inductive DipState where
  | idle
  | sampling
  | waitRelease
  deriving DecidableEq, Repr

/-- Why a dip failed (R99). -/
inductive DipFailure where
  | openTip
  | lifted
  | noPlateau
  | heatClosed
  | scanRestart
  | outOfService
  | noHeat
  deriving DecidableEq, Repr

/-- A dip unit (R94). -/
structure DipUnit where
  state : DipState
  /-- the debounced lance level -/
  level : Bool
  startedAt : Nat
  /-- the 8 s dip timer, ms -/
  timer : Option Nat
  samples : Nat
  openCount : Nat
  /-- the plateau window, oldest first -/
  window : List Nat
  deriving DecidableEq, Repr

/-- The Measurement Scanner. -/
structure Scanner where
  chans : PerChan ChannelRec
  running : Bool
  unitCount : Nat
  lastOrdinary : Option Chan
  sweepTimer : Option Nat
  /-- the model's own: the channels the unit in progress has still to reach, in order (R92, log 15) -/
  plan : List Chan
  dips : PerFurnace DipUnit
  deriving DecidableEq, Repr

/-! ### Water and Lining Protection (R102, R112) -/

/-- Circuit states (R102). -/
inductive CircuitState where
  | init
  | normal
  | watch
  | derate
  | trip
  deriving DecidableEq, Repr

/-- Trip causes (R102). -/
inductive TripCause where
  | flow
  | temp
  | leak
  | derateExpiry
  | latch
  | loop
  deriving DecidableEq, Repr

/-- A timer is stopped, running or held (R102). -/
inductive TimerMode where
  | stopped
  | running
  | held
  deriving DecidableEq, Repr

/-- A circuit timer with the time it has counted (R102). -/
structure Timer where
  mode : TimerMode
  ms : Nat
  deriving DecidableEq, Repr

/-- A circuit record (R102), with the leak warning of R110. -/
structure CircuitRec where
  state : CircuitState
  hard : Bool
  soft : Bool
  watch : Timer
  derate : Timer
  recovery : Timer
  cause : Option TripCause
  enteredAt : Nat
  latch : Bool
  leakWarning : Bool
  deriving DecidableEq, Repr

/-- Loop states (R112). -/
inductive LoopState where
  | main
  | changeover
  | standby
  | loopFail
  deriving DecidableEq, Repr

/-- Causes of a change of loop state (R112 to R115, R119). -/
inductive LoopCause where
  | pumpStop
  | pressure
  | settled
  | settleFail
  | standbyStop
  | pumpReturn
  | reset
  deriving DecidableEq, Repr

/-- The loop record (R112); it holds no loop state until the load ends (R119). -/
structure LoopRec where
  state : Option LoopState
  standbyLatch : Bool
  settle : Option Nat
  pressure : Option Nat
  cause : LoopCause
  changedAt : Nat
  deriving DecidableEq, Repr

/-- Water and Lining Protection. -/
structure Protection where
  circuits : PerCircuit CircuitRec
  loop : LoopRec
  /-- per port, the furnace whose circuit the LEAK_WARN notice carries (R110) -/
  leakCarried : PerPort (Option Furnace)
  deriving DecidableEq, Repr

/-! ### Outcomes (R161) -/

/-- Outcomes of a request (00_scope.md, Outcomes of requests). -/
inductive ReqOutcome where
  | done
  | doneClamped
  | pending
  | retry
  | refused
  deriving DecidableEq, Repr

/-- Reasons of RETRY and REFUSED (R161). -/
inductive Reason where
  | loading
  | saving
  | channelHeld
  | permitBusy
  | busy
  | badKind
  | badLength
  | notPermitted
  | wrongState
  | listFull
  | queueFull
  | duplicateLadle
  | noSuchEntry
  | overCapacity
  | tooLate
  | notReady
  | stageNoConfirm
  | cancelled
  | withdrawn
  | conditionPresent
  | notOwner
  deriving DecidableEq, Repr

/-! ### The Tap Coordinator (R120, R124, R129) -/

/-- The furnaces that may serve an entry (R120). -/
inductive Preference where
  | a
  | b
  | either
  deriving DecidableEq, Repr

/-- An entry of the tap queue (R120); `assigned` is absent while it is WAITING. -/
structure Entry where
  id : Nat
  ladle : Nat
  wanted : Nat
  low : Nat
  high : Nat
  preference : Preference
  /-- seconds after posting -/
  deadline : Option Nat
  assigned : Option Furnace
  postedAt : Nat
  deriving DecidableEq, Repr

/-- State of a permit (R124). -/
inductive PermitState where
  | pending
  | granted
  deriving DecidableEq, Repr

/-- A weight taken, and whether it was clamped (R133). -/
structure Weight where
  mass : Nat
  clamped : Bool
  deriving DecidableEq, Repr

/-- The permit (R124). Timers count ms; a stopped timer is absent. -/
structure Permit where
  state : PermitState
  furnace : Furnace
  requestId : Nat
  pendingAt : Nat
  confirm : Option Nat
  grantedAt : Option Nat
  use : Option Nat
  forwardAt : Option Nat
  homeAt : Option Nat
  tap : Option Nat
  weightWait : Option Nat
  weight : Option Weight
  /-- TAP_LONG has been posted for this permit (R132) -/
  longPosted : Bool
  deriving DecidableEq, Repr

/-- The tilt of a furnace (R129). -/
inductive Tilt where
  | home
  | back
  | forward
  | invalid
  deriving DecidableEq, Repr

/-- A tilt monitor: the debounced levels, known once both lines have held a level (R129). -/
structure TiltMonitor where
  known : Bool
  home : Bool
  forward : Bool
  deriving DecidableEq, Repr

/-- What an UNPERMITTED_TILT notice says (R130). -/
structure TiltDetail where
  furnace : Furnace
  tilt : Tilt
  permitHeld : Bool
  deriving DecidableEq, Repr

/-- The Tap Coordinator. -/
structure Tap where
  /-- the tap queue, oldest first -/
  queue : List Entry
  nextId : Nat
  permit : Option Permit
  lastEnded : Option Nat
  /-- the kept resolution of each deck (R128) -/
  kept : PerFurnace (Option Reason)
  tilt : PerFurnace TiltMonitor
  /-- UNPERMITTED_TILT stands for the furnace -/
  unpermitted : PerFurnace Bool
  /-- per port, what the UNPERMITTED_TILT notice carries while the condition stands -/
  tiltCarried : PerPort (Option TiltDetail)
  /-- the model's own: an event of this step asks for matching (R122); clear between steps -/
  matchDue : Bool
  deriving DecidableEq, Repr

/-! ### The Station Ports (R140, R145) -/

/-- Why SETTINGS is posted (R154, R157, R158). -/
inductive SettingsCause where
  | written
  | loaded
  | defaults
  | saved
  | saveFailed
  deriving DecidableEq, Repr

/-- The twenty notice kinds (R145). -/
inductive NoticeKind where
  | tapCall
  | permitResolved
  | permitWithdrawn
  | tapDone
  | tapLong
  | entryExpired
  | readyChanged
  | heatClosed
  | freeze
  | dipResult
  | dipFailed
  | cooling
  | pumpChangeover
  | leakWarn
  | link
  | shopState
  | deckOff
  | unpermittedTilt
  | breakerStuck
  | settings
  deriving DecidableEq, Repr

/-- The detail of a posting, kind by kind (R161). -/
inductive Detail where
  | tapCall (f : Furnace) (heat id ladle wanted estimate : Nat)
  /-- resolution: none is GRANTED -/
  | permitResolved (resolution : Option Reason) (f : Furnace) (heat id ladle : Nat)
  | permitWithdrawn (f : Furnace) (heat id ladle : Nat)
  | tapDone (f : Furnace) (heat id ladle poured : Nat) (weightTimeout clamped : Bool) (bathMass : Nat)
  | tapLong (f : Furnace) (heat id seconds : Nat)
  | entryExpired (id ladle : Nat)
  | readyChanged (f : Furnace) (heat : Nat) (state : HeatState)
  | heatClosed (f : Furnace) (heat : Nat) (reason : CloseReason)
  | freeze (f : Furnace) (heat : Nat)
  | dipResult (f : Furnace) (heat result samples second : Nat)
  | dipFailed (f : Furnace) (heat : Nat) (reason : DipFailure) (samples : Nat)
  | cooling (states : PerCircuit CircuitState) (causes : PerCircuit (Option TripCause))
  | pumpChangeover (state : LoopState) (cause : LoopCause) (latch : Bool)
  /-- the circuit is the coil circuit of the furnace -/
  | leakWarn (f : Furnace) (leak : Nat)
  | link (state : LinkState) (cause : LinkCause)
  | shopState (state : ShopState) (reasons : HoldReasons) (cause : ShopCause)
  | deckOff (f : Furnace) (hold : Bool)
  | unpermittedTilt (detail : TiltDetail)
  | breakerStuck
  | settings (cause : SettingsCause) (port : Option Port) (number value count : Nat)
  deriving DecidableEq, Repr

/-- A pending entry of a notice record (R145). -/
structure Notice where
  detail : Detail
  serial : Nat
  deriving DecidableEq, Repr

/-- A request frame (R161). -/
structure Frame where
  kind : Byte
  tag : Byte
  body : List Byte
  deriving DecidableEq, Repr

/-- The outcome, reason and body of an answer (R142). -/
structure Reply where
  outcome : ReqOutcome
  reason : Option Reason
  body : List Byte
  deriving DecidableEq, Repr

/-- A port record (R140). -/
structure PortRec where
  assembly : List Byte
  inHand : Option Frame
  /-- the answer going out for the request in hand -/
  answer : Option Reply
  buffer : Option Frame
  /-- the notice record, oldest serial first, one entry a kind at most -/
  notices : List Notice
  nextSerial : Nat
  /-- bit n - 1 is the enable of notice kind code n -/
  enables : BitVec 20
  gap : Option Nat
  deriving DecidableEq, Repr

/-! ### The Settings Manager (R152, R155, R157) -/

/-- The memory interface (R157, R158). -/
inductive MemInterface where
  | loading
  | idle
  | saving
  deriving DecidableEq, Repr

/-- The settings block in the serial memory (R157 to R160). -/
structure StoredBlock where
  /-- the 65 values, in setting-number order -/
  values : List Nat
  check : BitVec 16
  /-- a save was cut off or failed part way -/
  partWritten : Bool
  deriving DecidableEq, Repr

/-- The Settings Manager. -/
structure SettingsManager where
  /-- the working settings, in setting-number order -/
  working : List Nat
  owner : Option Port
  idle : Option Nat
  memory : MemInterface
  block : StoredBlock
  deriving DecidableEq, Repr

/-! ### Time and lines -/

/-- Shop seconds and milliseconds. -/
structure Clock where
  shopSeconds : Nat
  /-- ms into the present shop second -/
  subMs : Nat
  /-- ms since the last reset -/
  ms : Nat
  /-- the model's own: an estimator second of this shop second is owed (R25) -/
  estDue : PerFurnace Bool
  /-- the model's own: the readiness evaluation of this shop second is owed (R11) -/
  readyDue : Bool
  deriving DecidableEq, Repr

/-- The input lines the part follows without debounce (R66, R112). -/
structure Lines where
  breakerClosed : Bool
  mainPumpRun : Bool
  standbyRun : Bool
  deriving DecidableEq, Repr

/-! ### The whole part -/

/-- The state of the part. -/
structure State where
  /-- the commands waiting, first in, first out -/
  pending : List Instr
  /-- the main supply is present -/
  powered : Bool
  clock : Clock
  lines : Lines
  heat : HeatTable
  allot : Allotment
  shop : Shop
  stage : Stage
  scan : Scanner
  prot : Protection
  tap : Tap
  ports : PerPort PortRec
  sett : SettingsManager
  deriving DecidableEq, Repr

/-- Reasons to stop the machine: the spec describes none, so none is raised. -/
inductive Fault where
  deriving DecidableEq, Repr

/-- Reasons to refuse a command. -/
inductive Refusal where
  /-- Raised by no arm of exec: every command has its meaning. Stopping would be safe. -/
  | notModelled (mnemonic : String)
  deriving DecidableEq, Repr

/-! ### Reset values -/

/-- No output named: a mask, a set of holds, a set of flags, all clear. -/
def noFurnace : PerFurnace Bool := ⟨false, false⟩

/-- R63. -/
def AllotRec.reset : AllotRec :=
  { meltRequest := 0, request := 0, cls := .none, cap := 0, factor := .link, grant := 0, reserve := 0,
    mode := .off, duty := none, waitingDuty := none, command := 0, phase := none, period := none }

/-- R63 and R44: SHED is taken as active; the budget stands at the default SHED_CEILING (log 5). -/
def Allotment.reset : Allotment :=
  { out := ⟨AllotRec.reset, AllotRec.reset⟩, shed := true, ceiling := 2000, budget := 2000, priority := .a }

/-- R71: the debounced level is taken as inactive. -/
def DeckOff.reset : DeckOff := { level := false, timer := none, held := false }

/-- R65 and R73. -/
def Shop.reset (cold : Bool) (l : ResetLines) : Shop :=
  { state := if l.breakerClosed then .held else .supplyOff,
    reasons := { coldStart := cold, afterLoss := false, commission := l.commission, settingsDefault := false },
    strap := l.commission, decks := ⟨DeckOff.reset, DeckOff.reset⟩, breakerTrip := false, stuckTimer := none,
    stuck := false }

/-- A held output of 0 and OFF (R75). -/
def HeldOutput.off : HeldOutput := { command := 0, mode := .off, phase := none }

/-- R75. -/
def Stage.reset : Stage :=
  { link := .down, last := none, deadline := none, babble := [], held := ⟨HeldOutput.off, HeldOutput.off⟩,
    sent := noFurnace, tripHold := noFurnace, transmitter := .idle, pendingSetpoint := true,
    pendingTrip := noFurnace, refresh := 0, lastSetpointAt := none, wire := [], assembly := [] }

/-- R101. -/
def ChannelRec.reset : ChannelRec := { status := .stale, value := none, updatedAt := none }

/-- R94 and R101: the lance level is taken as active. -/
def DipUnit.reset : DipUnit :=
  { state := .waitRelease, level := true, startedAt := 0, timer := none, samples := 0, openCount := 0, window := [] }

/-- R101. -/
def Scanner.reset : Scanner :=
  { chans := ⟨ChannelRec.reset, ChannelRec.reset, ChannelRec.reset, ChannelRec.reset, ChannelRec.reset,
      ChannelRec.reset, ChannelRec.reset, ChannelRec.reset, ChannelRec.reset, ChannelRec.reset, ChannelRec.reset⟩,
    running := false, unitCount := 1, lastOrdinary := none, sweepTimer := none, plan := [],
    dips := ⟨DipUnit.reset, DipUnit.reset⟩ }

/-- A circuit's timer after a reset: stopped (R119); the time it then shows as counted is 0 (log 4). -/
def Timer.reset : Timer := { mode := .stopped, ms := 0 }

/-- R119: INIT, with the trip latch as kept, entered at the present shop second. -/
def CircuitRec.reset (latch : Bool) (now : Nat) : CircuitRec :=
  { state := .init, hard := false, soft := false, watch := Timer.reset, derate := Timer.reset, recovery := Timer.reset,
    cause := none, enteredAt := now, latch := latch, leakWarning := false }

/-- R119. The loop has no state until the settings load ends, and the spec gives no cause and no shop second of its last
change for that time: RESET and the shop second of the reset stand there (log 4). -/
def Protection.reset (latches : PerCircuit Bool) (standbyLatch : Bool) (now : Nat) : Protection :=
  { circuits := ⟨CircuitRec.reset latches.coilA now, CircuitRec.reset latches.coilB now,
      CircuitRec.reset latches.cabinet now⟩,
    loop := { state := none, standbyLatch := standbyLatch, settle := none, pressure := none, cause := .reset,
              changedAt := now },
    leakCarried := ⟨none, none, none⟩ }

/-- R129: until both lines have held a level the tilt is BACK. -/
def TiltMonitor.reset : TiltMonitor := { known := false, home := false, forward := false }

/-- R139. -/
def Tap.reset : Tap :=
  { queue := [], nextId := 1, permit := none, lastEnded := none, kept := ⟨none, none⟩,
    tilt := ⟨TiltMonitor.reset, TiltMonitor.reset⟩, unpermitted := noFurnace, tiltCarried := ⟨none, none, none⟩,
    matchDue := false }

/-- R151: every enable is on. -/
def PortRec.reset : PortRec :=
  { assembly := [], inHand := none, answer := none, buffer := none, notices := [], nextSerial := 1,
    enables := BitVec.allOnes 20, gap := none }

/-- A whole block of the given values with its check (R160). -/
def StoredBlock.whole (values : List Nat) : StoredBlock :=
  { values := values, check := crc16 (settingsBytes values), partWritten := false }

/-- R155 and R157: LOADING, no owner; the working copy stands at the defaults until the load fills it (log 5). -/
def SettingsManager.reset (block : StoredBlock) : SettingsManager :=
  { working := Config.settingDefaults, owner := none, idle := none, memory := .loading, block := block }

/-- R23: the slot of a furnace after a cold start. -/
def FurnaceSlot.reset : FurnaceSlot := { slot := .unknown, stamp := 0, stopped := false, reported := none }

/-- R23 and R6. -/
def HeatTable.reset : HeatTable := { slots := ⟨FurnaceSlot.reset, FurnaceSlot.reset⟩, log := [], nextNumber := 1 }

/-- No latch set. -/
def noLatch : PerCircuit Bool := ⟨false, false, false⟩

/-- The clock after a reset: the millisecond count starts anew, the shop seconds are as given (R88, 00_scope.md). -/
def Clock.reset (shopSeconds subMs : Nat) : Clock :=
  { shopSeconds := shopSeconds, subMs := subMs, ms := 0, estDue := noFurnace, readyDue := false }

/-- The state a cold start leaves, with the input lines, the waiting commands and the settings memory as given. -/
def State.cold (l : ResetLines) (queue : List Instr) (block : StoredBlock) : State :=
  { pending := queue, powered := true, clock := Clock.reset 0 0,
    lines := { breakerClosed := l.breakerClosed, mainPumpRun := l.mainPumpRun, standbyRun := l.standbyRun },
    heat := HeatTable.reset, allot := Allotment.reset, shop := Shop.reset true l, stage := Stage.reset,
    scan := Scanner.reset, prot := Protection.reset noLatch false 0, tap := Tap.reset,
    ports := ⟨PortRec.reset, PortRec.reset, PortRec.reset⟩, sett := SettingsManager.reset block }

/-- The part right after its first cold start: every input line inactive, no command waiting, and the settings memory
holding the block of defaults it is programmed with at manufacture (log 4, log 6). -/
def State.reset : State :=
  State.cold { breakerClosed := false, mainPumpRun := false, standbyRun := false, commission := false } []
    (StoredBlock.whole Config.settingDefaults)

end Sys2Proof.Machine
end

