-- ==== Sys2Proof/Machine/Codes.lean ====
section
/-! DEFINITION. The codes of named values on the wire (R160, R161). -/

namespace Sys2Proof.Machine

/-- furnace: A 0, B 1 -/
def furnaceCode : Furnace → Nat
  | .a => 0
  | .b => 1

/-- port: A 0, B 1, P 2 -/
def portCode : Port → Nat
  | .a => 0
  | .b => 1
  | .p => 2

/-- heat states among the slot states: MELTING 2, SUPERHEAT 3, HOLDING 4, TAP_READY 5, TAPPING 6 -/
def heatStateCode : HeatState → Nat
  | .melting => 2
  | .superheat => 3
  | .holding => 4
  | .tapReady => 5
  | .tapping => 6

/-- slot state: EMPTY 0, UNKNOWN 1, else the heat's state -/
def slotCode : Slot → Nat
  | .empty => 0
  | .unknown => 1
  | .heat h => heatStateCode h.state

/-- material: RETURNS 1, STEEL 2, PIG 3, ALLOY 4, HEEL 5 -/
def materialCode : Material → Nat
  | .returns => 1
  | .steel => 2
  | .pig => 3
  | .alloy => 4
  | .heel => 5

/-- chemistry: PENDING 0, APPROVED 1, REJECTED 2 -/
def chemistryCode : Chemistry → Nat
  | .pending => 0
  | .approved => 1
  | .rejected => 2

/-- circuit: COIL_A 0, COIL_B 1, CABINET 2 -/
def circuitCode : Circuit → Nat
  | .coilA => 0
  | .coilB => 1
  | .cabinet => 2

/-- circuit state: INIT 0, NORMAL 1, WATCH 2, DERATE 3, TRIP 4 -/
def circuitStateCode : CircuitState → Nat
  | .init => 0
  | .normal => 1
  | .watch => 2
  | .derate => 3
  | .trip => 4

/-- trip cause: none 0, FLOW 1, TEMP 2, LEAK 3, DERATE_EXPIRY 4, LATCH 5, LOOP 6 -/
def tripCauseCode : Option TripCause → Nat
  | none => 0
  | some .flow => 1
  | some .temp => 2
  | some .leak => 3
  | some .derateExpiry => 4
  | some .latch => 5
  | some .loop => 6

/-- loop state: MAIN 0, CHANGEOVER 1, STANDBY 2, LOOP_FAIL 3 -/
def loopStateCode : LoopState → Nat
  | .main => 0
  | .changeover => 1
  | .standby => 2
  | .loopFail => 3

/-- loop cause: PUMP_STOP 0, PRESSURE 1, SETTLED 2, SETTLE_FAIL 3, STANDBY_STOP 4, RETURN 5, RESET 6 -/
def loopCauseCode : LoopCause → Nat
  | .pumpStop => 0
  | .pressure => 1
  | .settled => 2
  | .settleFail => 3
  | .standbyStop => 4
  | .pumpReturn => 5
  | .reset => 6

/-- shop state: SUPPLY_OFF 0, HELD 1, RUN 2, BANKED 3 -/
def shopStateCode : ShopState → Nat
  | .supplyOff => 0
  | .held => 1
  | .run => 2
  | .banked => 3

/-- shop cause: RESET 0, BREAKER_OPEN 1, BREAKER_CLOSED 2, RESUME 3, BANK 4, WAKE 5, POST_TAP 6, FLOOR 7 -/
def shopCauseCode : ShopCause → Nat
  | .reset => 0
  | .breakerOpen => 1
  | .breakerClosed => 2
  | .resume => 3
  | .bank => 4
  | .wake => 5
  | .postTap => 6
  | .floor => 7

/-- hold reasons: COLD_START bit 0, AFTER_LOSS bit 1, COMMISSION bit 2, SETTINGS_DEFAULT bit 3 -/
def holdReasonsCode (r : HoldReasons) : Nat :=
  r.coldStart.toNat + 2 * r.afterLoss.toNat + 4 * r.commission.toNat + 8 * r.settingsDefault.toNat

/-- link state: DOWN 0, UP 1, LOST 2, FAULT 3 -/
def linkStateCode : LinkState → Nat
  | .down => 0
  | .up => 1
  | .lost => 2
  | .fault => 3

/-- link cause: REPORT 1, TIMEOUT 2, BABBLE 3, UNKNOWN_KIND 4, RESTART 5 -/
def linkCauseCode : LinkCause → Nat
  | .report => 1
  | .timeout => 2
  | .babble => 3
  | .unknownKind => 4
  | .restart => 5

/-- preference: A 0, B 1, EITHER 2 -/
def preferenceCode : Preference → Nat
  | .a => 0
  | .b => 1
  | .either => 2

/-- tilt: HOME 0, BACK 1, FORWARD 2, INVALID 3 -/
def tiltCode : Tilt → Nat
  | .home => 0
  | .back => 1
  | .forward => 2
  | .invalid => 3

/-- close reason: CLOSED 0, EMPTIED 1, LOST 2 -/
def closeReasonCode : CloseReason → Nat
  | .closed => 0
  | .emptied => 1
  | .lost => 2

/-- dip failure: OPEN 0, LIFTED 1, NO_PLATEAU 2, HEAT_CLOSED 3, SCAN_RESTART 4, OUT_OF_SERVICE 5, NO_HEAT 6 -/
def dipFailureCode : DipFailure → Nat
  | .openTip => 0
  | .lifted => 1
  | .noPlateau => 2
  | .heatClosed => 3
  | .scanRestart => 4
  | .outOfService => 5
  | .noHeat => 6

/-- settings cause: WRITTEN 0, LOADED 1, DEFAULTS 2, SAVED 3, SAVE_FAILED 4 -/
def settingsCauseCode : SettingsCause → Nat
  | .written => 0
  | .loaded => 1
  | .defaults => 2
  | .saved => 3
  | .saveFailed => 4

/-- class: NONE 0, HOLD 1, MELT 2 -/
def classCode : DemandClass → Nat
  | .none => 0
  | .hold => 1
  | .melt => 2

/-- limiting factor: REQUEST 0, OUTPUT_MAX 1, COOLING 2, STAGE 3, LINK 4, TILT 5, PERMIT 6, SHOP 7, STOPPED 8, BUDGET 9 -/
def factorCode : Factor → Nat
  | .request => 0
  | .outputMax => 1
  | .cooling => 2
  | .stage => 3
  | .link => 4
  | .tilt => 5
  | .permit => 6
  | .shop => 7
  | .stopped => 8
  | .budget => 9

/-- allotment mode: OFF 0, CONT 1, PULSE 2 -/
def modeCode : Mode → Nat
  | .off => 0
  | .cont => 1
  | .pulse => 2

/-- pulse phase: OFF 0, ON 1 -/
def phaseCode : Phase → Nat
  | .off => 0
  | .on => 1

/-- output status: READY 0, RUNNING 1, FAULT 2 -/
def statusCode : OutputStatus → Nat
  | .ready => 0
  | .running => 1
  | .fault => 2

/-- The status a status byte names; any other byte is out of range (R162). -/
def statusOf (b : Byte) : Option OutputStatus :=
  if b = 0 then some .ready else if b = 1 then some .running else if b = 2 then some .fault else none

/-- channel status: VALID 0, BROKEN 1, STALE 2, OFF 3 -/
def chanStatusCode : ChanStatus → Nat
  | .valid => 0
  | .broken => 1
  | .stale => 2
  | .off => 3

/-- dip unit state: IDLE 0, SAMPLING 1, WAIT_RELEASE 2 -/
def dipStateCode : DipState → Nat
  | .idle => 0
  | .sampling => 1
  | .waitRelease => 2

/-- timer: stopped 0, running 1, held 2 -/
def timerModeCode : TimerMode → Nat
  | .stopped => 0
  | .running => 1
  | .held => 2

/-- permit state: PENDING 0, GRANTED 1 -/
def permitStateCode : PermitState → Nat
  | .pending => 0
  | .granted => 1

/-- OUTCOME: DONE 0, DONE_CLAMPED 1, PENDING 2, RETRY 3, REFUSED 4 (R161) -/
def outcomeCode : ReqOutcome → Nat
  | .done => 0
  | .doneClamped => 1
  | .pending => 2
  | .retry => 3
  | .refused => 4

/-- REASON codes (R161). -/
def reasonCode : Reason → Nat
  | .loading => 1
  | .saving => 2
  | .channelHeld => 3
  | .permitBusy => 4
  | .busy => 5
  | .badKind => 16
  | .badLength => 17
  | .notPermitted => 18
  | .wrongState => 19
  | .listFull => 20
  | .queueFull => 21
  | .duplicateLadle => 22
  | .noSuchEntry => 23
  | .overCapacity => 24
  | .tooLate => 25
  | .notReady => 26
  | .stageNoConfirm => 27
  | .cancelled => 28
  | .withdrawn => 29
  | .conditionPresent => 30
  | .notOwner => 31

/-- Notice kind codes, in the order of the table of R145. -/
def NoticeKind.code : NoticeKind → Nat
  | .tapCall => 1
  | .permitResolved => 2
  | .permitWithdrawn => 3
  | .tapDone => 4
  | .tapLong => 5
  | .entryExpired => 6
  | .readyChanged => 7
  | .heatClosed => 8
  | .freeze => 9
  | .dipResult => 10
  | .dipFailed => 11
  | .cooling => 12
  | .pumpChangeover => 13
  | .leakWarn => 14
  | .link => 15
  | .shopState => 16
  | .deckOff => 17
  | .unpermittedTilt => 18
  | .breakerStuck => 19
  | .settings => 20

/-- The notice kind a code names (R148). -/
def NoticeKind.ofCode : Nat → Option NoticeKind
  | 1 => some .tapCall
  | 2 => some .permitResolved
  | 3 => some .permitWithdrawn
  | 4 => some .tapDone
  | 5 => some .tapLong
  | 6 => some .entryExpired
  | 7 => some .readyChanged
  | 8 => some .heatClosed
  | 9 => some .freeze
  | 10 => some .dipResult
  | 11 => some .dipFailed
  | 12 => some .cooling
  | 13 => some .pumpChangeover
  | 14 => some .leakWarn
  | 15 => some .link
  | 16 => some .shopState
  | 17 => some .deckOff
  | 18 => some .unpermittedTilt
  | 19 => some .breakerStuck
  | 20 => some .settings
  | _ => none

/-- The kind of a detail. -/
def Detail.kind : Detail → NoticeKind
  | .tapCall _ _ _ _ _ _ => .tapCall
  | .permitResolved _ _ _ _ _ => .permitResolved
  | .permitWithdrawn _ _ _ _ => .permitWithdrawn
  | .tapDone _ _ _ _ _ _ _ _ => .tapDone
  | .tapLong _ _ _ _ => .tapLong
  | .entryExpired _ _ => .entryExpired
  | .readyChanged _ _ _ => .readyChanged
  | .heatClosed _ _ _ => .heatClosed
  | .freeze _ _ => .freeze
  | .dipResult _ _ _ _ _ => .dipResult
  | .dipFailed _ _ _ _ => .dipFailed
  | .cooling _ _ => .cooling
  | .pumpChangeover _ _ _ => .pumpChangeover
  | .leakWarn _ _ => .leakWarn
  | .link _ _ => .link
  | .shopState _ _ _ => .shopState
  | .deckOff _ _ => .deckOff
  | .unpermittedTilt _ => .unpermittedTilt
  | .breakerStuck => .breakerStuck
  | .settings _ _ _ _ _ => .settings

/-- The flags byte of a tap record (R161). -/
def tapFlags (interrupted weightTimeout clamped forward home estimate : Bool) : Nat :=
  interrupted.toNat + 2 * weightTimeout.toNat + 4 * clamped.toNat + 16 * forward.toNat + 32 * home.toNat
    + 64 * estimate.toNat

/-- The detail bytes of a posting (R161). The tap flags of TAP_DONE are bits 0 to 2 of the tap record's flags byte, the
presence bits 4 to 6 sent as 0 (log 13). -/
def Detail.bytes : Detail → List Byte
  | .tapCall f heat id ladle wanted estimate =>
    be1 (furnaceCode f) ++ be2 heat ++ be1 id ++ be1 ladle ++ be2 wanted ++ be2 estimate
  | .permitResolved resolution f heat id ladle =>
    be1 ((resolution.map reasonCode).getD 0) ++ be1 (furnaceCode f) ++ be2 heat ++ be1 id ++ be1 ladle
  | .permitWithdrawn f heat id ladle => be1 (furnaceCode f) ++ be2 heat ++ be1 id ++ be1 ladle
  | .tapDone f heat id ladle poured weightTimeout clamped bathMass =>
    be1 (furnaceCode f) ++ be2 heat ++ be1 id ++ be1 ladle ++ be2 poured
      ++ be1 (tapFlags false weightTimeout clamped false false false) ++ be2 bathMass
  | .tapLong f heat id seconds => be1 (furnaceCode f) ++ be2 heat ++ be1 id ++ be4 seconds
  | .entryExpired id ladle => be1 id ++ be1 ladle
  | .readyChanged f heat state => be1 (furnaceCode f) ++ be2 heat ++ be1 (heatStateCode state)
  | .heatClosed f heat reason => be1 (furnaceCode f) ++ be2 heat ++ be1 (closeReasonCode reason)
  | .freeze f heat => be1 (furnaceCode f) ++ be2 heat
  | .dipResult f heat result samples second =>
    be1 (furnaceCode f) ++ be2 heat ++ be2 result ++ be1 samples ++ be4 second
  | .dipFailed f heat reason samples =>
    be1 (furnaceCode f) ++ be2 heat ++ be1 (dipFailureCode reason) ++ be1 samples
  | .cooling states causes =>
    be1 (circuitStateCode states.coilA) ++ be1 (circuitStateCode states.coilB)
      ++ be1 (circuitStateCode states.cabinet) ++ be1 (tripCauseCode causes.coilA)
      ++ be1 (tripCauseCode causes.coilB) ++ be1 (tripCauseCode causes.cabinet)
  | .pumpChangeover state cause latch =>
    be1 (loopStateCode state) ++ be1 (loopCauseCode cause) ++ flagByte latch
  | .leakWarn f leak => be1 (furnaceCode f) ++ be1 (furnaceCode f) ++ be2 leak
  | .link state cause => be1 (linkStateCode state) ++ be1 (linkCauseCode cause)
  | .shopState state reasons cause =>
    be1 (shopStateCode state) ++ be1 (holdReasonsCode reasons) ++ be1 (shopCauseCode cause)
  | .deckOff f hold => be1 (furnaceCode f) ++ flagByte hold
  | .unpermittedTilt d => be1 (furnaceCode d.furnace) ++ be1 (tiltCode d.tilt) ++ flagByte d.permitHeld
  | .breakerStuck => []
  | .settings cause port number value count =>
    be1 (settingsCauseCode cause) ++ be1 ((port.map portCode).getD 0) ++ be1 number ++ be2 value ++ be1 count

/-- A notice entry on the wire: kind code, serial, detail length, detail (R161). -/
def Notice.bytes (n : Notice) : List Byte :=
  be1 n.detail.kind.code ++ be2 n.serial ++ be1 n.detail.bytes.length ++ n.detail.bytes

/-- The bytes of a request frame (R161). -/
def Frame.bytes (f : Frame) : List Byte :=
  let covered := be1 (f.body.length + 2) ++ [f.kind, f.tag] ++ f.body
  0xA5#8 :: covered ++ checkBytes covered

/-- The bytes of the answer frame to a request (R161): KIND and TAG are the request's. -/
def Reply.bytes (kind tag : Byte) (r : Reply) : List Byte :=
  let covered := be2 (r.body.length + 4)
    ++ [kind, tag] ++ be1 (outcomeCode r.outcome) ++ be1 ((r.reason.map reasonCode).getD 0) ++ r.body
  0xA5#8 :: covered ++ checkBytes covered

/-- The mode byte of a SETPOINT: mode in bits 0 and 1, in PULSE mode bit 2 set for the ON phase (R162). -/
def modeByte (o : HeldOutput) : Nat :=
  modeCode o.mode + (if o.mode = .pulse ∧ o.phase = some .on then 4 else 0)

/-- LEN, KIND and BODY of a SETPOINT frame (R162). -/
def setpointCovered (out : PerFurnace HeldOutput) : List Byte :=
  be1 7 ++ be1 1 ++ be2 out.a.command ++ be1 (modeByte out.a) ++ be2 out.b.command ++ be1 (modeByte out.b)

/-- A SETPOINT frame with a correct check (R162). -/
def setpointBytes (out : PerFurnace HeldOutput) : List Byte :=
  0x5A#8 :: setpointCovered out ++ checkBytes (setpointCovered out)

/-- An aborted SETPOINT frame: every check byte not yet sent goes out inverted (R79, R162). -/
def abortedBytes (out : PerFurnace HeldOutput) (firstCheckByteGone : Bool) : List Byte :=
  let check := checkBytes (setpointCovered out)
  let sent := if firstCheckByteGone then 1 else 0
  0x5A#8 :: setpointCovered out ++ check.take sent ++ (check.drop sent).map (fun b => ~~~b)

/-- The mask of a TRIP frame: A bit 0, B bit 1 (R162). -/
def maskCode (mask : PerFurnace Bool) : Nat := mask.a.toNat + 2 * mask.b.toNat

/-- A TRIP frame (R162). -/
def tripBytes (mask : PerFurnace Bool) : List Byte :=
  let covered := be1 2 ++ be1 2 ++ be1 (maskCode mask)
  0x5A#8 :: covered ++ checkBytes covered

end Sys2Proof.Machine
end

