-- ==== Sys2Proof/Machine/Ops.lean ====
section
/-! DEFINITION. Shared operations: access to the per-furnace, per-port, per-circuit and per-channel values, arithmetic
of the conventions (00_scope.md), settings by name, and the posting of notices (R145). -/

namespace Sys2Proof.Machine

/-! ### Access -/

/-- The value of one furnace. -/
def PerFurnace.get {α : Type} (x : PerFurnace α) : Furnace → α
  | .a => x.a
  | .b => x.b

/-- The value of one furnace replaced. -/
def PerFurnace.set {α : Type} (x : PerFurnace α) (f : Furnace) (v : α) : PerFurnace α :=
  match f with
  | .a => { x with a := v }
  | .b => { x with b := v }

/-- Both values passed through a function. -/
def PerFurnace.map {α β : Type} (x : PerFurnace α) (g : α → β) : PerFurnace β := ⟨g x.a, g x.b⟩

/-- The value of one port. -/
def PerPort.get {α : Type} (x : PerPort α) : Port → α
  | .a => x.a
  | .b => x.b
  | .p => x.p

/-- The value of one port replaced. -/
def PerPort.set {α : Type} (x : PerPort α) (q : Port) (v : α) : PerPort α :=
  match q with
  | .a => { x with a := v }
  | .b => { x with b := v }
  | .p => { x with p := v }

/-- Every port's value passed through a function that sees the port. -/
def PerPort.mapPort {α β : Type} (x : PerPort α) (g : Port → α → β) : PerPort β := ⟨g .a x.a, g .b x.b, g .p x.p⟩

/-- The value of one circuit. -/
def PerCircuit.get {α : Type} (x : PerCircuit α) : Circuit → α
  | .coilA => x.coilA
  | .coilB => x.coilB
  | .cabinet => x.cabinet

/-- The value of one circuit replaced. -/
def PerCircuit.set {α : Type} (x : PerCircuit α) (c : Circuit) (v : α) : PerCircuit α :=
  match c with
  | .coilA => { x with coilA := v }
  | .coilB => { x with coilB := v }
  | .cabinet => { x with cabinet := v }

/-- Every circuit's value passed through a function. -/
def PerCircuit.map {α β : Type} (x : PerCircuit α) (g : α → β) : PerCircuit β := ⟨g x.coilA, g x.coilB, g x.cabinet⟩

/-- The value of one channel. -/
def PerChan.get {α : Type} (x : PerChan α) : Chan → α
  | .coilAOut => x.coilAOut
  | .coilBOut => x.coilBOut
  | .cabOut => x.cabOut
  | .loopPress => x.loopPress
  | .coilAFlow => x.coilAFlow
  | .coilBFlow => x.coilBFlow
  | .cabFlow => x.cabFlow
  | .leakA => x.leakA
  | .leakB => x.leakB
  | .dipA => x.dipA
  | .dipB => x.dipB

/-- The value of one channel replaced. -/
def PerChan.set {α : Type} (x : PerChan α) (c : Chan) (v : α) : PerChan α :=
  match c with
  | .coilAOut => { x with coilAOut := v }
  | .coilBOut => { x with coilBOut := v }
  | .cabOut => { x with cabOut := v }
  | .loopPress => { x with loopPress := v }
  | .coilAFlow => { x with coilAFlow := v }
  | .coilBFlow => { x with coilBFlow := v }
  | .cabFlow => { x with cabFlow := v }
  | .leakA => { x with leakA := v }
  | .leakB => { x with leakB := v }
  | .dipA => { x with dipA := v }
  | .dipB => { x with dipB := v }

/-- Every channel's value passed through a function that sees the channel. -/
def PerChan.mapChan {α β : Type} (x : PerChan α) (g : Chan → α → β) : PerChan β :=
  ⟨g .coilAOut x.coilAOut, g .coilBOut x.coilBOut, g .cabOut x.cabOut, g .loopPress x.loopPress,
    g .coilAFlow x.coilAFlow, g .coilBFlow x.coilBFlow, g .cabFlow x.cabFlow, g .leakA x.leakA, g .leakB x.leakB,
    g .dipA x.dipA, g .dipB x.dipB⟩

/-- The eleven channels in channel order (R88). -/
def allChans : List Chan :=
  [.coilAOut, .coilBOut, .cabOut, .loopPress, .coilAFlow, .coilBFlow, .cabFlow, .leakA, .leakB, .dipA, .dipB]

/-- The number of a channel (R88). -/
def chanNumber : Chan → Nat
  | .coilAOut => 0
  | .coilBOut => 1
  | .cabOut => 2
  | .loopPress => 3
  | .coilAFlow => 4
  | .coilBFlow => 5
  | .cabFlow => 6
  | .leakA => 7
  | .leakB => 8
  | .dipA => 9
  | .dipB => 10

/-- The other furnace. -/
def otherFurnace : Furnace → Furnace
  | .a => .b
  | .b => .a

/-- The port of a furnace's deck (R140). -/
def deckPort : Furnace → Port
  | .a => .a
  | .b => .b

/-- The furnace of a deck port; port P has none (R140). -/
def portFurnace : Port → Option Furnace
  | .a => some .a
  | .b => some .b
  | .p => none

/-- The coil circuit of a furnace (R102). -/
def coilOf : Furnace → Circuit
  | .a => .coilA
  | .b => .coilB

/-- The outputs a circuit affects (R102). -/
def circuitMask : Circuit → PerFurnace Bool
  | .coilA => ⟨true, false⟩
  | .coilB => ⟨false, true⟩
  | .cabinet => ⟨true, true⟩

/-- The outlet, flow and leak channels of a circuit (R102). -/
def outletChan : Circuit → Chan
  | .coilA => .coilAOut
  | .coilB => .coilBOut
  | .cabinet => .cabOut

/-- The flow channel of a circuit (R102). -/
def flowChan : Circuit → Chan
  | .coilA => .coilAFlow
  | .coilB => .coilBFlow
  | .cabinet => .cabFlow

/-- The leak channel of a coil circuit; CABINET has none (R102). -/
def leakChan : Circuit → Option Chan
  | .coilA => some .leakA
  | .coilB => some .leakB
  | .cabinet => none

/-- The channels of a circuit (R102). -/
def circuitChans (c : Circuit) : List Chan := [outletChan c, flowChan c] ++ (leakChan c).toList

/-- The dip channel of a dip unit (R88). -/
def dipChan : Furnace → Chan
  | .a => .dipA
  | .b => .dipB

/-! ### Arithmetic of the conventions -/

/-- A power rounded down to a multiple of 10 kW (00_scope.md, Rounding). -/
def floor10 (n : Nat) : Nat := n / 10 * 10

/-- A value brought into a range: above the top it goes to the top, below the bottom to the bottom (R153). -/
def clampTo (lo hi n : Nat) : Nat := if hi < n then hi else if n < lo then lo else n

/-- A sum that stops at 4 294 967 295 (R2). -/
def capU32 (n : Nat) : Nat := min n u32Max

/-! ### Settings by name (R152) -/

/-- The value of a setting number, 1 to 65. -/
def setting (s : State) (n : Nat) : Nat := s.sett.working.getD (n - 1) 0

/-- Of two consecutive setting numbers, the one of a furnace. -/
def forFurnace (base : Nat) : Furnace → Nat
  | .a => base
  | .b => base + 1

/-- Of two consecutive setting numbers, the coil's or the cabinet's. -/
def forCircuit (base : Nat) : Circuit → Nat
  | .cabinet => base + 1
  | _ => base

def supplyRating (s : State) : Nat := setting s 1
def outputMax (s : State) (f : Furnace) : Nat := setting s (forFurnace 2 f)
def minCont (s : State) (f : Furnace) : Nat := setting s (forFurnace 4 f)
def demandCeiling (s : State) : Nat := setting s 6
def shedCeiling (s : State) : Nat := setting s 7
def bankCap (s : State) : Nat := setting s 8
def tapCap (s : State) : Nat := setting s 9
def deratePct (s : State) : Nat := setting s 10
def capacity (s : State) (f : Furnace) : Nat := setting s (forFurnace 11 f)
def heelMin (s : State) (f : Furnace) : Nat := setting s (forFurnace 13 f)
def effPct (s : State) (f : Furnace) : Nat := setting s (forFurnace 15 f)
def lossKw (s : State) (f : Furnace) : Nat := setting s (forFurnace 17 f)
def cp (s : State) : Nat := setting s 19
def liquidus (s : State) : Nat := setting s 20
def holdTargetSetting (s : State) (f : Furnace) : Nat := setting s (forFurnace 25 f)
def returnBand (s : State) : Nat := setting s 27
def holdGain (s : State) : Nat := setting s 28
def freezeMargin (s : State) : Nat := setting s 29
def dipMaxAge (s : State) : Nat := setting s 30
def bankTarget (s : State) : Nat := setting s 31
def bankFloor (s : State) : Nat := setting s 32
def flowLow (s : State) (c : Circuit) : Nat := setting s (forCircuit 33 c)
def flowTrip (s : State) (c : Circuit) : Nat := setting s (forCircuit 35 c)
def tempHigh (s : State) (c : Circuit) : Nat := setting s (forCircuit 37 c)
def tempTrip (s : State) (c : Circuit) : Nat := setting s (forCircuit 39 c)
def leakWarnLimit (s : State) : Nat := setting s 41
def leakTripLimit (s : State) : Nat := setting s 42
def pressLow (s : State) : Nat := setting s 43
def watchTime (s : State) : Nat := setting s 44
def derateTime (s : State) : Nat := setting s 45
def recoverTime (s : State) : Nat := setting s 46
def standbySettle (s : State) : Nat := setting s 47
def permitUseTime (s : State) : Nat := setting s 48
def tapConfirmTime (s : State) : Nat := setting s 49
def tapMaxTime (s : State) : Nat := setting s 50
def weightWaitTime (s : State) : Nat := setting s 51
/-- AFTER_LOSS is AUTO (code 1). -/
def afterLossAuto (s : State) : Bool := setting s 52 == 1
def wakeOnPost (s : State) : Bool := setting s 53 == 1
def wakeOnFloor (s : State) : Bool := setting s 54 == 1
/-- The in-service flag of a channel (R91). -/
def inService (s : State) (c : Chan) : Bool := setting s (55 + chanNumber c) == 1

/-- The melting energy of a material in kJ/kg; HEEL adds none (R3). -/
def meltEnergy (s : State) : Material → Nat
  | .returns => setting s 21
  | .steel => setting s 22
  | .pig => setting s 23
  | .alloy => setting s 24
  | .heel => 0

/-! ### Reading the state -/

/-- The current shop second. -/
def now (s : State) : Nat := s.clock.shopSeconds

/-- The settings load after a reset has not ended (R142, R157). -/
def loading (s : State) : Bool := s.sett.memory == .loading

/-- The slot of a furnace. -/
def slotOf (s : State) (f : Furnace) : Slot := (s.heat.slots.get f).slot

/-- The open heat of a furnace, if there is one. -/
def heatOf (s : State) (f : Furnace) : Option Heat :=
  match slotOf s f with
  | .heat h => some h
  | _ => none

/-- The number of the heat open in a furnace, 0 for none (R99). -/
def heatNumber (s : State) (f : Furnace) : Nat := ((heatOf s f).map Heat.number).getD 0

/-! ### Writing the state -/

/-- A furnace slot's whole record replaced. -/
def setFurnaceSlot (f : Furnace) (x : FurnaceSlot) (s : State) : State :=
  { s with heat := { s.heat with slots := s.heat.slots.set f x } }

/-- The slot of a furnace replaced; stamp, STOPPED and reported power stay. -/
def setSlot (f : Furnace) (x : Slot) (s : State) : State :=
  setFurnaceSlot f { s.heat.slots.get f with slot := x } s

/-- The melt request of an output replaced. -/
def setMeltRequest (f : Furnace) (n : Nat) (s : State) : State :=
  { s with allot := { s.allot with out := s.allot.out.set f { s.allot.out.get f with meltRequest := n } } }

/-- A circuit record replaced. -/
def setCircuitRec (c : Circuit) (r : CircuitRec) (s : State) : State :=
  { s with prot := { s.prot with circuits := s.prot.circuits.set c r } }

/-- A channel record replaced. -/
def setChannel (c : Chan) (r : ChannelRec) (s : State) : State :=
  { s with scan := { s.scan with chans := s.scan.chans.set c r } }

/-- A dip unit replaced. -/
def setDip (f : Furnace) (d : DipUnit) (s : State) : State :=
  { s with scan := { s.scan with dips := s.scan.dips.set f d } }

/-- A port record replaced. -/
def setPort (q : Port) (r : PortRec) (s : State) : State := { s with ports := s.ports.set q r }

/-! ### Notices (R145) -/

/-- Whether a notice of this detail goes to a port: the table of R145. -/
def Detail.addressedTo (q : Port) : Detail → Bool
  | .tapCall f _ _ _ _ _ => q == .p || q == deckPort f
  | .permitResolved _ f _ _ _ => q == deckPort f
  | .permitWithdrawn f _ _ _ => q == .p || q == deckPort f
  | .tapDone f _ _ _ _ _ _ _ => q == .p || q == deckPort f
  | .tapLong f _ _ _ => q == .p || q == deckPort f
  | .entryExpired _ _ => q == .p
  | .readyChanged f _ _ => q == .p || q == deckPort f
  | .heatClosed f _ _ => q == .p || q == deckPort f
  | .freeze f _ => q == deckPort f
  | .dipResult f _ _ _ _ => q == deckPort f
  | .dipFailed f _ _ _ => q == deckPort f
  | .cooling _ _ => true
  | .pumpChangeover _ _ _ => true
  | .leakWarn _ _ => true
  | .link _ _ => true
  | .shopState _ _ _ => true
  | .deckOff _ _ => true
  | .unpermittedTilt _ => true
  | .breakerStuck => true
  | .settings _ _ _ _ _ => true

/-- The serial after a serial: 65 535 is followed by 1 (R145). -/
def nextSerialAfter (n : Nat) : Nat := if 65535 ≤ n then 1 else n + 1

/-- A posting taken by one port: an entry of the kind is added or replaced, with the next serial (R145). -/
def PortRec.post (d : Detail) (r : PortRec) : PortRec :=
  { r with
    notices := r.notices.filter (fun n => n.detail.kind != d.kind) ++ [{ detail := d, serial := r.nextSerial }]
    nextSerial := nextSerialAfter r.nextSerial }

/-- A notice posted to every port it is addressed to (R145). -/
def post (d : Detail) (s : State) : State :=
  { s with ports := s.ports.mapPort (fun q r => if d.addressedTo q then r.post d else r) }

/-- A notice posted to one port only: a level kind posted again after its acknowledgement (R148, R140). -/
def postTo (q : Port) (d : Detail) (s : State) : State := setPort q ((s.ports.get q).post d) s

end Sys2Proof.Machine
end

