-- ==== Sys2Proof/Machine/Operands.lean ====
section
/-! DEFINITION. Reading request bodies: the request kinds, the body lengths they allow, and the codes a body names
(R160, R161). -/

namespace Sys2Proof.Machine

/-- The 32 request kinds (R143, R161). -/
inductive RequestKind where
  | openHeat
  | addCharge
  | setMeltPower
  | setHoldTarget
  | setChemistry
  | closeHeat
  | restate
  | furnaceOn
  | tapOpen
  | tripReset
  | resume
  | linkRestart
  | pumpReturn
  | postTap
  | cancelTap
  | tapWeight
  | bank
  | wake
  | readSetting
  | writeSetting
  | saveSettings
  | releaseChannel
  | queryFurnace
  | queryQueue
  | queryProtection
  | queryChannels
  | queryAllotment
  | queryShop
  | readLog
  | readNotices
  | ackNotices
  | setNoticeEnables
  deriving DecidableEq, Repr

/-- KIND codes of the requests (R161). -/
def RequestKind.code : RequestKind → Nat
  | .openHeat => 0x01
  | .addCharge => 0x02
  | .setMeltPower => 0x03
  | .setHoldTarget => 0x04
  | .setChemistry => 0x05
  | .closeHeat => 0x06
  | .restate => 0x07
  | .furnaceOn => 0x08
  | .tapOpen => 0x09
  | .tripReset => 0x0A
  | .resume => 0x0B
  | .linkRestart => 0x0C
  | .pumpReturn => 0x0D
  | .postTap => 0x0E
  | .cancelTap => 0x0F
  | .tapWeight => 0x10
  | .bank => 0x11
  | .wake => 0x12
  | .readSetting => 0x13
  | .writeSetting => 0x14
  | .saveSettings => 0x15
  | .releaseChannel => 0x16
  | .queryFurnace => 0x17
  | .queryQueue => 0x18
  | .queryProtection => 0x19
  | .queryChannels => 0x1A
  | .queryAllotment => 0x1B
  | .queryShop => 0x1C
  | .readLog => 0x1D
  | .readNotices => 0x1E
  | .ackNotices => 0x1F
  | .setNoticeEnables => 0x20

/-- The request kind a KIND byte names, if it is one of the 32 (R142, R161). -/
def RequestKind.ofCode : Nat → Option RequestKind
  | 0x01 => some .openHeat
  | 0x02 => some .addCharge
  | 0x03 => some .setMeltPower
  | 0x04 => some .setHoldTarget
  | 0x05 => some .setChemistry
  | 0x06 => some .closeHeat
  | 0x07 => some .restate
  | 0x08 => some .furnaceOn
  | 0x09 => some .tapOpen
  | 0x0A => some .tripReset
  | 0x0B => some .resume
  | 0x0C => some .linkRestart
  | 0x0D => some .pumpReturn
  | 0x0E => some .postTap
  | 0x0F => some .cancelTap
  | 0x10 => some .tapWeight
  | 0x11 => some .bank
  | 0x12 => some .wake
  | 0x13 => some .readSetting
  | 0x14 => some .writeSetting
  | 0x15 => some .saveSettings
  | 0x16 => some .releaseChannel
  | 0x17 => some .queryFurnace
  | 0x18 => some .queryQueue
  | 0x19 => some .queryProtection
  | 0x1A => some .queryChannels
  | 0x1B => some .queryAllotment
  | 0x1C => some .queryShop
  | 0x1D => some .readLog
  | 0x1E => some .readNotices
  | 0x1F => some .ackNotices
  | 0x20 => some .setNoticeEnables
  | _ => none

/-- The body lengths a kind allows (R161). -/
def RequestKind.lengthOk : RequestKind → Nat → Bool
  | .openHeat, n => n == 3
  | .addCharge, n => n == 3
  | .setMeltPower, n => n == 2
  | .setHoldTarget, n => n == 2
  | .setChemistry, n => n == 1
  | .restate, n => n == 2
  | .tripReset, n => n == 1
  | .postTap, n => n == 8 || n == 10
  | .cancelTap, n => n == 1
  | .tapWeight, n => n == 3
  | .readSetting, n => n == 1
  | .writeSetting, n => n == 3
  | .queryFurnace, n => n == 1
  | .readLog, n => n == 2
  | .ackNotices, n => decide (3 ≤ n) && decide (n ≤ 48) && n % 3 == 0
  | .setNoticeEnables, n => n == 3
  | .closeHeat, n | .furnaceOn, n | .tapOpen, n | .resume, n | .linkRestart, n | .pumpReturn, n | .bank, n
  | .wake, n | .saveSettings, n | .releaseChannel, n | .queryQueue, n | .queryProtection, n
  | .queryChannels, n | .queryAllotment, n | .queryShop, n | .readNotices, n => n == 0

/-- A field of a body: its offset and width in bytes, most significant byte first (R160). -/
def field (body : List Byte) (offset width : Nat) : Nat := readBE ((body.drop offset).take width)

/-- The material a station may name by a code (R3): HEEL and codes of no material are none of them. -/
def materialOf : Nat → Option Material
  | 1 => some .returns
  | 2 => some .steel
  | 3 => some .pig
  | 4 => some .alloy
  | _ => none

/-- The chemistry a code names (R16). -/
def chemistryOf : Nat → Option Chemistry
  | 0 => some .pending
  | 1 => some .approved
  | 2 => some .rejected
  | _ => none

/-- The circuit a code names (R111). -/
def circuitNamed : Nat → Option Circuit
  | 0 => some .coilA
  | 1 => some .coilB
  | 2 => some .cabinet
  | _ => none

/-- The furnace a code names (R144). -/
def furnaceNamed : Nat → Option Furnace
  | 0 => some .a
  | 1 => some .b
  | _ => none

/-- The preference a code names (R121). -/
def preferenceNamed : Nat → Option Preference
  | 0 => some .a
  | 1 => some .b
  | 2 => some .either
  | _ => none

/-- The kinds and serials of an ACK-NOTICES body, three bytes each (R161). -/
def ackPairs : List Byte → List (Nat × Nat)
  | k :: hi :: lo :: rest => (k.toNat, hi.toNat * 256 + lo.toNat) :: ackPairs rest
  | _ => []

/-! ### Permissions (R143) -/

/-- A port of a deck station. -/
def isDeckPort : Port → Bool
  | .p => false
  | _ => true

/-- A TRIP-RESET from a port may name its own furnace's coil circuit, CABINET, or no circuit at all, which its owner
refuses (R143). -/
def mayReset (q : Port) (circuit : Nat) : Bool :=
  match q, circuitNamed circuit with
  | .p, _ => false
  | .a, some .coilB => false
  | .b, some .coilA => false
  | _, _ => true

/-- The permission table (R143). -/
def permitted : RequestKind → Port → List Byte → Bool
  | .tripReset, q, body => mayReset q (field body 0 1)
  | .openHeat, q, _ | .addCharge, q, _ | .setMeltPower, q, _ | .setHoldTarget, q, _ | .setChemistry, q, _
  | .closeHeat, q, _ | .restate, q, _ | .furnaceOn, q, _ | .tapOpen, q, _ | .resume, q, _ | .linkRestart, q, _
  | .pumpReturn, q, _ => isDeckPort q
  | .postTap, q, _ | .cancelTap, q, _ | .tapWeight, q, _ => !isDeckPort q
  | .bank, _, _ | .wake, _, _ | .readSetting, _, _ | .writeSetting, _, _ | .saveSettings, _, _
  | .releaseChannel, _, _ | .queryFurnace, _, _ | .queryQueue, _, _ | .queryProtection, _, _
  | .queryChannels, _, _ | .queryAllotment, _, _ | .queryShop, _, _ | .readLog, _, _ | .readNotices, _, _
  | .ackNotices, _, _ | .setNoticeEnables, _, _ => true

/-! ### Replies (R142, R161) -/

/-- DONE with a body. -/
def replyDone (body : List Byte) : Reply := { outcome := .done, reason := none, body := body }

/-- DONE, or DONE_CLAMPED when a value was changed, with a body. -/
def replyTaken (clamped : Bool) (body : List Byte) : Reply :=
  { outcome := if clamped then .doneClamped else .done, reason := none, body := body }

/-- PENDING. -/
def replyPending : Reply := { outcome := .pending, reason := none, body := [] }

/-- RETRY with a reason. -/
def replyRetry (r : Reason) : Reply := { outcome := .retry, reason := some r, body := [] }

/-- REFUSED with a reason. -/
def replyRefused (r : Reason) : Reply := { outcome := .refused, reason := some r, body := [] }

/-- REFUSED(CONDITION_PRESENT) with the conditions found (R161): HARD, SOFT, loop in LOOP_FAIL, MAIN_PUMP_RUN active,
pressure good. -/
def replyConditions (hard soft loopFail mainRun good : Bool) : Reply :=
  { outcome := .refused, reason := some .conditionPresent,
    body := be1 (hard.toNat + 2 * soft.toNat + 4 * loopFail.toNat + 8 * mainRun.toNat + 16 * good.toNat) }

end Sys2Proof.Machine
end

