-- ==== Sys2Proof/Machine/Flags.lean ====
section
/-! DEFINITION. Conditions, flags and output lines worked out from the state: classes, readiness, FREEZE, circuit
conditions, tilt, the enable lines and ATTN. -/

namespace Sys2Proof.Machine

/-! ### Heats -/

/-- SUPERHEAT, HOLDING, TAP_READY and TAPPING are the liquid states. -/
def isLiquid : HeatState → Bool
  | .melting => false
  | _ => true

/-- The class of a heat (R7). -/
def heatClass (h : Heat) : DemandClass :=
  match h.state with
  | .melting => .melt
  | .superheat => if h.estimate.isSome then .melt else .hold
  | .holding | .tapReady | .tapping => .hold

/-- The class of an output: NONE without a heat (R45). -/
def slotClass (s : State) (f : Furnace) : DemandClass :=
  match heatOf s f with
  | some h => heatClass h
  | none => .none

/-- The target in force (R10). -/
def targetInForce (s : State) (h : Heat) : Nat :=
  if s.shop.state = .banked then bankTarget s else h.holdTarget

/-- FREEZE as an estimate gives it: set at or below LIQUIDUS + FREEZE_MARGIN; with no estimate it is clear (R32). -/
def freezeOf (s : State) : Option Nat → Bool
  | some e => e ≤ liquidus s + freezeMargin s
  | none => false

/-- The mass charged to a heat. -/
def chargedMass (h : Heat) : Nat := (h.charges.map ChargeEntry.mass).sum

/-- The mass tapped from a heat. -/
def tappedMass (h : Heat) : Nat := (h.taps.map TapRecord.poured).sum

/-! ### Tilt and permit (R129, R124) -/

/-- The tilt state of a monitor (R129). -/
def TiltMonitor.tilt (m : TiltMonitor) : Tilt :=
  if m.known then
    match m.home, m.forward with
    | true, false => .home
    | false, true => .forward
    | false, false => .back
    | true, true => .invalid
  else .back

/-- The tilt state of a furnace. -/
def tiltOf (s : State) (f : Furnace) : Tilt := (s.tap.tilt.get f).tilt

/-- A granted permit is held for the furnace. -/
def grantedFor (s : State) (f : Furnace) : Bool :=
  match s.tap.permit with
  | some p => p.state == .granted && p.furnace == f
  | none => false

/-- A pending permit is held for the furnace. -/
def pendingFor (s : State) (f : Furnace) : Bool :=
  match s.tap.permit with
  | some p => p.state == .pending && p.furnace == f
  | none => false

/-- The UNPERMITTED_TILT condition of a furnace (R130). -/
def unpermittedCond (s : State) (f : Furnace) : Bool :=
  match tiltOf s f with
  | .forward => !grantedFor s f
  | .invalid => true
  | _ => false

/-! ### Circuits and the loop (R103, R110, R112) -/

/-- The circuit record of a circuit. -/
def circuitOf (s : State) (c : Circuit) : CircuitRec := s.prot.circuits.get c

/-- The channel record of a channel. -/
def chanOf (s : State) (c : Chan) : ChannelRec := s.scan.chans.get c

/-- A VALID reading, if the channel has one (R88). -/
def validReading (r : ChannelRec) : Option Nat := if r.status = .valid then r.value else none

/-- A VALID reading below a limit. -/
def readsBelow (s : State) (c : Chan) (limit : Nat) : Bool :=
  match validReading (chanOf s c) with
  | some v => v < limit
  | none => false

/-- A VALID reading above a limit. -/
def readsAbove (s : State) (c : Chan) (limit : Nat) : Bool :=
  match validReading (chanOf s c) with
  | some v => limit < v
  | none => false

/-- A VALID leak reading of a circuit above a limit; CABINET has no leak channel. -/
def leakAbove (s : State) (c : Circuit) (limit : Nat) : Bool :=
  match leakChan c with
  | some ch => readsAbove s ch limit
  | none => false

/-- The reading that gives HARD, first of FLOW, TEMP and LEAK (R103, R108). -/
def hardCause (s : State) (c : Circuit) : Option TripCause :=
  if readsBelow s (flowChan c) (flowTrip s c) then some .flow
  else if readsAbove s (outletChan c) (tempTrip s c) then some .temp
  else if leakAbove s c (leakTripLimit s) then some .leak
  else none

/-- SOFT (R103). -/
def softCond (s : State) (c : Circuit) : Bool :=
  readsBelow s (flowChan c) (flowLow s c)
    || readsAbove s (outletChan c) (tempHigh s c)
    || (circuitChans c).any (fun ch => (chanOf s ch).status == .broken || (chanOf s ch).status == .stale)
    || ((chanOf s (outletChan c)).status == .off && (chanOf s (flowChan c)).status == .off)

/-- Every channel of the circuit in service is VALID (R105, R111). -/
def allValid (s : State) (c : Circuit) : Bool :=
  (circuitChans c).all (fun ch => (chanOf s ch).status == .valid || (chanOf s ch).status == .off)

/-- The leak warning (R110). -/
def leakWarningCond (s : State) (c : Circuit) : Bool := leakAbove s c (leakWarnLimit s)

/-- The pressure is low (R112). -/
def pressureLow (s : State) : Bool := readsBelow s .loopPress (pressLow s)

/-- The pressure is good: VALID and at or above PRESS_LOW, or the channel is OFF (R112). -/
def pressureGood (s : State) : Bool :=
  match validReading (chanOf s .loopPress) with
  | some v => pressLow s ≤ v
  | none => (chanOf s .loopPress).status == .off

/-- The loop is in CHANGEOVER, which holds the circuit timers (R113). -/
def inChangeover (s : State) : Bool := s.prot.loop.state == some .changeover

/-- A standing cause of BREAKER_TRIP: the CABINET circuit in TRIP, or the loop in LOOP_FAIL (R73). -/
def standingCause (s : State) : Bool :=
  s.prot.circuits.cabinet.state == .trip || s.prot.loop.state == some .loopFail

/-- A circuit neither INIT nor TRIP (R11). -/
def circuitInOrder (s : State) (c : Circuit) : Bool :=
  (circuitOf s c).state != .init && (circuitOf s c).state != .trip

/-! ### Readiness (R11) -/

/-- The last dip is at most DIP_MAX_AGE old (R11). -/
def dipFresh (s : State) (h : Heat) : Bool :=
  match h.lastDip with
  | some d => now s - d.second ≤ dipMaxAge s
  | none => false

/-- Every readiness condition of R11 for the heat of a furnace. -/
def readyCond (s : State) (f : Furnace) (h : Heat) : Bool :=
  h.chemistry == .approved && h.estimate.isSome && !h.freeze && !h.massUncertain && dipFresh s h
    && decide (heelMin s f < h.bathMass) && decide (h.taps.length < Config.tapMax)
    && circuitInOrder s (coilOf f) && circuitInOrder s .cabinet
    && s.shop.state == .run && tiltOf s f == .home

/-! ### Output lines -/

/-- OUTPUT_ENABLE of an output: high while every condition of R85 holds. -/
def State.outputEnable (s : State) (f : Furnace) : Bool :=
  s.stage.link == .up && decide (0 < (s.stage.held.get f).command) && !(s.stage.tripHold.get f)
    && s.stage.sent.get f

/-- The STANDBY_START line follows the latch (R112). -/
def State.standbyStart (s : State) : Bool := s.prot.loop.standbyLatch

/-- The notice kind's enable of a port (R149). -/
def PortRec.enabled (r : PortRec) (k : NoticeKind) : Bool := r.enables.getLsbD (k.code - 1)

/-- ATTN of a port record: active while a notice of an enabled kind is pending, but not in the gap (R150). -/
def PortRec.attn (r : PortRec) : Bool :=
  r.gap.isNone && r.notices.any (fun n => r.enabled n.detail.kind)

/-- The ATTN line of a port (R150). -/
def State.attn (s : State) (q : Port) : Bool := (s.ports.get q).attn

end Sys2Proof.Machine
end

