-- ==== Sys2Proof/Machine/Link.lean ====
section
/-! DEFINITION. The Stage Link Controller: what it sends, trips, and changes of the link state (R75 to R86). -/

namespace Sys2Proof.Machine

/-- What a SETPOINT carries for an output: 0 and OFF under a trip hold, else the held pair (R76). -/
def Stage.carried (st : Stage) (f : Furnace) : HeldOutput :=
  if st.tripHold.get f then HeldOutput.off else st.held.get f

/-- The idle transmitter begins the next frame: a pending trip mask before a pending SETPOINT (R77). -/
def Stage.kick (st : Stage) : Stage :=
  match st.transmitter with
  | .idle =>
    if st.pendingTrip.a || st.pendingTrip.b then
      { st with transmitter := .sendingTrip st.pendingTrip, pendingTrip := noFurnace }
    else if st.pendingSetpoint then
      { st with
        transmitter := .sendingSetpoint
          { out := ⟨st.carried .a, st.carried .b⟩, upSinceBegun := st.link == .up, tripTaken := false }
        pendingSetpoint := false
        refresh := 0 }
    else st
  | _ => st

/-- The transmitter of the part begins the next frame when it is idle (R77). -/
def kick (s : State) : State := { s with stage := s.stage.kick }

/-- A new pair from the Power Allotment Unit: it replaces the held pair, releases the trip hold of every output whose
mode is OFF (R78), and makes a SETPOINT pending (R76). -/
def Stage.takePair (st : Stage) (pair : PerFurnace HeldOutput) : Stage :=
  { st with
    held := pair
    tripHold := ⟨st.tripHold.a && pair.a.mode != .off, st.tripHold.b && pair.b.mode != .off⟩
    pendingSetpoint := true }

/-- The hand-over of R60. -/
def handOver (pair : PerFurnace HeldOutput) (s : State) : State := kick { s with stage := s.stage.takePair pair }

/-- A SETPOINT on the wire when a trip is taken is marked for the abort rule (R79). -/
def Transmitter.markTrip : Transmitter → Transmitter
  | .sendingSetpoint fr => .sendingSetpoint { fr with tripTaken := true }
  | t => t

/-- A trip with a mask of outputs (R78): trip holds for outputs whose held mode is not OFF, the mask made pending, and
a SETPOINT on the wire marked for the abort rule. The enable lines fall with the trip hold (R85). -/
def Stage.takeTrip (st : Stage) (mask : PerFurnace Bool) : Stage :=
  { st with
    tripHold := ⟨st.tripHold.a || (mask.a && st.held.a.mode != .off), st.tripHold.b || (mask.b && st.held.b.mode != .off)⟩
    pendingTrip := ⟨st.pendingTrip.a || mask.a, st.pendingTrip.b || mask.b⟩
    transmitter := st.transmitter.markTrip }

/-- A trip handed to the Stage Link Controller (R78). -/
def takeTrip (mask : PerFurnace Bool) (s : State) : State := kick { s with stage := s.stage.takeTrip mask }

/-- A SETPOINT on the wire has not had the link UP since it began (R76). -/
def Transmitter.linkLeft : Transmitter → Transmitter
  | .sendingSetpoint fr => .sendingSetpoint { fr with upSinceBegun := false }
  | t => t

/-- The link state changes, and LINK is posted (R86). -/
def setLink (l : LinkState) (cause : LinkCause) (s : State) : State :=
  post (.link l cause) { s with stage := { s.stage with link := l } }

/-- What leaving UP does in the Controller: the deadline stops and both sent flags are cleared (R82, R83). -/
def Stage.leaveUp (st : Stage) : Stage :=
  { st with deadline := none, sent := noFurnace, transmitter := st.transmitter.linkLeft }

/-- At completion of a SETPOINT each sent flag is set if the frame carried a command above 0 and the link has been UP
since the frame began, and cleared otherwise (R76). -/
def Stage.completeSetpoint (st : Stage) (fr : SetpointFrame) (ms : Nat) : Stage :=
  { st with
    transmitter := .idle
    sent := fr.out.map (fun o => fr.upSinceBegun && decide (0 < o.command))
    lastSetpointAt := some ms
    wire := setpointBytes fr.out }

end Sys2Proof.Machine
end

