-- ==== Sys2Proof/Machine/Allot.lean ====
section
/-! DEFINITION. The Power Allotment Unit: hold demand, bounds, grants, and the computation of R59 with its hand-over. -/

namespace Sys2Proof.Machine

/-- The hold demand of a liquid heat (R40). -/
def holdDemand (s : State) (f : Furnace) (h : Heat) : Nat :=
  let base : Int := (lossKw s f * 100 / effPct s f : Nat)
  let correction : Int :=
    match h.estimate with
    | some e => (holdGain s : Int) * ((targetInForce s h : Int) - (e : Int))
    | none => 0
  floor10 (min (base + correction).toNat (outputMax s f))

/-- The request of an output (R45). -/
def requestOf (s : State) (f : Furnace) : Nat :=
  match heatOf s f with
  | none => 0
  | some h =>
    match heatClass h with
    | .melt => (s.allot.out.get f).meltRequest
    | _ => if h.state = .tapping then min (holdDemand s f h) (floor10 (tapCap s)) else holdDemand s f h

/-- The COOLING bound (R49). -/
def coolingBound (s : State) (f : Furnace) : List (Factor × Nat) :=
  let coil := (circuitOf s (coilOf f)).state
  let cab := (circuitOf s .cabinet).state
  if coil = .init ∨ coil = .trip ∨ cab = .init ∨ cab = .trip then [(.cooling, 0)]
  else if coil = .derate ∨ cab = .derate then [(.cooling, floor10 (outputMax s f * deratePct s / 100))]
  else []

/-- The STAGE bound (R49). -/
def stageBound (s : State) (f : Furnace) : List (Factor × Nat) :=
  match s.stage.last with
  | some r => if (r.out.get f).status = .fault then [(.stage, 0)] else []
  | none => []

/-- The LINK bound (R49). -/
def linkBound (s : State) : List (Factor × Nat) := if s.stage.link = .up then [] else [(.link, 0)]

/-- The TILT bound (R50). -/
def tiltBound (s : State) (f : Furnace) : List (Factor × Nat) :=
  match tiltOf s f with
  | .home => []
  | .back => [(.tilt, floor10 (tapCap s))]
  | .forward | .invalid => if grantedFor s f then [] else [(.tilt, 0)]

/-- The heat of a furnace is TAPPING. -/
def isTapping (s : State) (f : Furnace) : Bool :=
  match heatOf s f with
  | some h => h.state == .tapping
  | none => false

/-- The PERMIT bound (R50). -/
def permitBound (s : State) (f : Furnace) : List (Factor × Nat) :=
  if pendingFor s f || isTapping s f then [(.permit, floor10 (tapCap s))] else []

/-- The SHOP bound (R51). -/
def shopBound (s : State) (f : Furnace) : List (Factor × Nat) :=
  match s.shop.state with
  | .supplyOff | .held => [(.shop, 0)]
  | .banked => if slotClass s f = .melt then [(.shop, 0)] else [(.shop, floor10 (bankCap s))]
  | .run => []

/-- The STOPPED bound (R51). -/
def stoppedBound (s : State) (f : Furnace) : List (Factor × Nat) :=
  if (s.heat.slots.get f).stopped then [(.stopped, 0)] else []

/-- The bounds that apply after REQUEST and OUTPUT_MAX, in the order of R48. -/
def conditionalBounds (s : State) (f : Furnace) : List (Factor × Nat) :=
  coolingBound s f ++ stageBound s f ++ linkBound s ++ tiltBound s f ++ permitBound s f ++ shopBound s f
    ++ stoppedBound s f

/-- The smallest of a bound and further bounds. -/
def minBound (first : Nat) (rest : List (Factor × Nat)) : Nat := rest.foldl (fun m b => min m b.2) first

/-- The first bound whose value equals a number (R48). -/
def factorAt (n : Nat) : List (Factor × Nat) → Factor
  | [] => .request
  | b :: rest => if b.2 = n then b.1 else factorAt n rest

/-- What an output brings to the grant. -/
structure Claim where
  request : Nat
  cls : DemandClass
  /-- floor10 of OUTPUT_MAX -/
  outMax : Nat
  bounds : List (Factor × Nat)
  minCont : Nat
  deriving DecidableEq, Repr

/-- The claim of an output as its inputs stand. -/
def claimOf (s : State) (f : Furnace) : Claim :=
  { request := requestOf s f, cls := slotClass s f, outMax := floor10 (outputMax s f),
    bounds := conditionalBounds s f, minCont := minCont s f }

/-- The pulse ceiling: the smallest bound other than REQUEST (R52). -/
def Claim.pulseCeiling (c : Claim) : Nat := minBound c.outMax c.bounds

/-- The cap: the smallest bound (R48). -/
def Claim.cap (c : Claim) : Nat := min c.request c.pulseCeiling

/-- The factor of the cap (R48). -/
def Claim.capFactor (c : Claim) : Factor :=
  factorAt c.cap ((.request, c.request) :: (.outputMax, c.outMax) :: c.bounds)

/-- What a claim is granted from an available budget. -/
structure Share where
  grant : Nat
  mode : Mode
  reserve : Nat
  /-- the duty worked out, in PULSE mode -/
  duty : Nat
  deriving DecidableEq, Repr

/-- The grant (R54, R55). -/
def Claim.share (c : Claim) (available : Nat) : Share :=
  let g := min c.cap available
  if g = 0 then { grant := g, mode := .off, reserve := 0, duty := 0 }
  else if c.minCont ≤ g then { grant := g, mode := .cont, reserve := g, duty := 0 }
  else if c.minCont ≤ available ∧ c.minCont ≤ c.pulseCeiling ∧ 1 ≤ 10 * g / c.minCont then
    { grant := g, mode := .pulse, reserve := c.minCont, duty := 10 * g / c.minCont }
  else { grant := g, mode := .off, reserve := 0, duty := 0 }

/-- The limiting factor after the grant: the cases of R56 in the order of its text. Where a cap above the available budget
meets a grant and a pulse ceiling below MIN_CONT, two of them apply, and that BUDGET is shown is the model's reading
(log 16). -/
def Claim.limitingFactor (c : Claim) (available : Nat) : Factor :=
  let g := min c.cap available
  if available < c.cap then .budget
  else if 0 < g ∧ g < c.minCont ∧ c.minCont ≤ c.pulseCeiling ∧ available < c.minCont then .budget
  else if 0 < g ∧ g < c.minCont ∧ c.pulseCeiling < c.minCont then
    factorAt c.pulseCeiling ((.outputMax, c.outMax) :: c.bounds)
  else c.capFactor

/-- The record a computation leaves (R57, R58): a mode change takes effect at once; a new duty of an output that stays
in PULSE mode waits; MIN_CONT of an output that stays in PULSE mode takes effect at once. -/
def AllotRec.update (old : AllotRec) (c : Claim) (available : Nat) : AllotRec :=
  let sh := c.share available
  let base : AllotRec :=
    { meltRequest := old.meltRequest, request := c.request, cls := c.cls, cap := c.cap,
      factor := c.limitingFactor available, grant := sh.grant, reserve := sh.reserve, mode := sh.mode,
      duty := none, waitingDuty := none, command := 0, phase := none, period := none }
  match sh.mode with
  | .off => base
  | .cont => { base with command := sh.grant }
  | .pulse =>
    if old.mode = .pulse then
      { base with
        duty := old.duty
        waitingDuty := if old.duty = some sh.duty then none else some sh.duty
        command := if old.phase = some .on then c.minCont else 0
        phase := old.phase
        period := old.period }
    else
      { base with duty := some sh.duty, command := c.minCont, phase := some .on, period := some 0 }

/-- Rank of the classes: HOLD above MELT above NONE (R53). -/
def classRank : DemandClass → Nat
  | .hold => 2
  | .melt => 1
  | .none => 0

/-- The class entry stamp of a furnace's heat; 0 without one. -/
def stampOf (s : State) (f : Furnace) : Nat := ((heatOf s f).map Heat.classStamp).getD 0

/-- The priority output (R53). -/
def priorityOutput (s : State) : Furnace :=
  let ra := classRank (slotClass s .a)
  let rb := classRank (slotClass s .b)
  if rb < ra then .a
  else if ra < rb then .b
  else if ra = 0 then .a
  else if stampOf s .b < stampOf s .a then .b
  else .a

/-- The active ceiling (R44). -/
def activeCeiling (s : State) : Nat := if s.allot.shed then shedCeiling s else demandCeiling s

/-- The budget W (R44). -/
def budgetW (s : State) : Nat := floor10 (min (supplyRating s) (activeCeiling s))

/-- The active ceiling and the budget W set anew (R44). -/
def setBudget (s : State) : State := { s with allot := { s.allot with ceiling := activeCeiling s, budget := budgetW s } }

/-- The whole computation of the allotment (R59): both outputs from the inputs as they stand. -/
def computed (s : State) : Allotment :=
  let w := budgetW s
  let p := priorityOutput s
  let q := otherFurnace p
  let recP := (s.allot.out.get p).update (claimOf s p) w
  let recQ := (s.allot.out.get q).update (claimOf s q) (w - recP.reserve)
  { s.allot with out := (s.allot.out.set p recP).set q recQ, ceiling := activeCeiling s, budget := w, priority := p }

/-- The pair of commands, modes and phases of two records (R60). -/
def pairOf (out : PerFurnace AllotRec) : PerFurnace HeldOutput :=
  out.map (fun r => { command := r.command, mode := r.mode, phase := r.phase })

/-- New allotment records; when a command, mode or phase has changed the pair is handed over (R60). -/
def putAllotment (x : Allotment) (s : State) : State :=
  let s' := { s with allot := x }
  if pairOf x.out = pairOf s.allot.out then s' else handOver (pairOf x.out) s'

/-- The computation of R59; none is made while the settings are being loaded (R63). -/
def allocate (s : State) : State := if loading s then s else putAllotment (computed s) s

/-- A pulse period starts (R57): the waiting duty comes into force, the phase becomes ON and the command MIN_CONT. -/
def AllotRec.startPeriod (r : AllotRec) (minCont : Nat) : AllotRec :=
  { r with
    duty := r.waitingDuty.or r.duty
    waitingDuty := none
    phase := some .on
    command := minCont
    period := some 0 }

/-- The ON phase ends (R57). -/
def AllotRec.endOnPhase (r : AllotRec) : AllotRec := { r with phase := some .off, command := 0 }

/-- One output's record replaced by the pulse timer, and the pair handed over (R57, R60). -/
def putPulse (f : Furnace) (r : AllotRec) (s : State) : State :=
  putAllotment { s.allot with out := s.allot.out.set f r } s

end Sys2Proof.Machine
end

