-- ==== Sys2Proof/Machine/TapQueue.lean ====
section
/-! DEFINITION. The tap queue and the pending permit: entries, matching, refusals (R120 to R128, R136). -/

namespace Sys2Proof.Machine

/-- The queue replaced. -/
def setQueue (q : List Entry) (s : State) : State := { s with tap := { s.tap with queue := q } }

/-- The permit record replaced. -/
def setPermit (p : Option Permit) (s : State) : State := { s with tap := { s.tap with permit := p } }

/-- An event of R122 asks for matching; it runs at the end of the step (log 10). -/
def askMatching (s : State) : State := { s with tap := { s.tap with matchDue := true } }

/-- The kept resolution of a deck replaced (R128). -/
def setKept (f : Furnace) (r : Option Reason) (s : State) : State :=
  { s with tap := { s.tap with kept := s.tap.kept.set f r } }

/-- The entry of a request id. -/
def entryOf (s : State) (id : Nat) : Option Entry := s.tap.queue.find? (fun e => e.id == id)

/-- The ladle number of the entry of a request id, 0 for none. -/
def ladleOf (s : State) (id : Nat) : Nat := ((entryOf s id).map Entry.ladle).getD 0

/-- The entry ASSIGNED to a furnace. -/
def assignedTo (s : State) (f : Furnace) : Option Entry :=
  s.tap.queue.find? (fun e => e.assigned == some f)

/-- An entry whose deadline has passed (R136). -/
def Entry.lapsed (e : Entry) (second : Nat) : Bool :=
  match e.deadline with
  | some d => e.postedAt + d ≤ second
  | none => false

/-- The entry of a request id removed; the entries behind it keep their order (R120). -/
def removeEntry (id : Nat) (s : State) : State :=
  askMatching (setQueue (s.tap.queue.filter (fun e => e.id != id)) s)

/-- The entry of a request id removed with ENTRY_EXPIRED (R136). -/
def expireEntry (e : Entry) (s : State) : State := post (.entryExpired e.id e.ladle) (removeEntry e.id s)

/-- The entry of a request id made WAITING in its place (R123). -/
def makeWaiting (id : Nat) (s : State) : State :=
  askMatching (setQueue (s.tap.queue.map (fun e => if e.id = id then { e with assigned := none } else e)) s)

/-- An entry whose permit has ended returns to WAITING, or is removed when its deadline has passed (R127, R131, R136). -/
def returnEntry (id : Nat) (s : State) : State :=
  match entryOf s id with
  | some e => if e.lapsed (now s) then expireEntry e s else makeWaiting id s
  | none => s

/-- A pending permit refused (R127): the permit ends, PERMIT_RESOLVED goes to the deck, the refusal is kept for the
deck (R128), and the entry is removed or returns to WAITING. -/
def refusePermit (p : Permit) (r : Reason) (remove : Bool) (s : State) : State :=
  let resolved := post (.permitResolved (some r) p.furnace (heatNumber s p.furnace) p.requestId (ladleOf s p.requestId)) s
  let ended := askMatching (setKept p.furnace (some r) (setPermit none resolved))
  if remove then removeEntry p.requestId ended else returnEntry p.requestId ended

/-- The permit that is PENDING for a furnace. -/
def pendingPermit (s : State) (f : Furnace) : Option Permit :=
  match s.tap.permit with
  | some p => if p.state = .pending ∧ p.furnace = f then some p else none
  | none => none

/-- The work of the queue tied to a furnace's heat ends (R11, R17, R123, R127): a pending TAP-OPEN resolves with the
reason, or an ASSIGNED entry without a permit returns to WAITING. -/
def endAssignment (f : Furnace) (r : Reason) (s : State) : State :=
  match pendingPermit s f with
  | some p => refusePermit p r false s
  | none =>
    match s.tap.permit with
    | some _ => s
    | none =>
      match assignedTo s f with
      | some e => makeWaiting e.id s
      | none => s

/-- A heat has left TAP_READY other than for TAPPING: its readiness has changed (R122) and its work in the queue ends
(R11, R123, R127). -/
def leaveReady (f : Furnace) (r : Reason) (s : State) : State := askMatching (endAssignment f r s)

/-- Whether a furnace qualifies for an entry (R122). -/
def qualifies (s : State) (e : Entry) (f : Furnace) : Bool :=
  match heatOf s f with
  | none => false
  | some h =>
    h.state == .tapReady
      && (e.preference == .either || e.preference == (match f with | .a => Preference.a | .b => Preference.b))
      && decide (heelMin s f + e.wanted ≤ h.bathMass)
      && (match h.estimate with
          | some t => decide (e.low ≤ t) && decide (t ≤ e.high)
          | none => false)

/-- The bath mass of a furnace's heat, 0 without one. -/
def bathMassOf (s : State) (f : Furnace) : Nat := ((heatOf s f).map Heat.bathMass).getD 0

/-- The furnace an entry is assigned to: the one that qualifies; of two, the larger bath mass, and A when equal (R122). -/
def chooseFurnace (s : State) (e : Entry) : Option Furnace :=
  match qualifies s e .a, qualifies s e .b with
  | true, true => if bathMassOf s .a < bathMassOf s .b then some .b else some .a
  | true, false => some .a
  | false, true => some .b
  | false, false => none

/-- An entry is ASSIGNED and TAP_CALL posted (R123); the deck's kept resolution is removed (R128). -/
def assignEntry (e : Entry) (f : Furnace) (s : State) : State :=
  let estimate := ((heatOf s f).bind Heat.estimate).getD 0
  post (.tapCall f (heatNumber s f) e.id e.ladle e.wanted estimate)
    (setKept f none
      (setQueue (s.tap.queue.map (fun x => if x.id = e.id then { x with assigned := some f } else x)) s))

/-- Matching (R122): nothing while an entry is ASSIGNED; else the oldest WAITING entry is tested. -/
def runMatching (s : State) : State :=
  if s.tap.queue.any (fun e => e.assigned.isSome) then s
  else
    match s.tap.queue.head? with
    | none => s
    | some e =>
      match chooseFurnace s e with
      | some f => assignEntry e f s
      | none => s

/-- Matching, when an event of the step asked for it. -/
def matchIfDue (s : State) : State :=
  if s.tap.matchDue then runMatching { s with tap := { s.tap with matchDue := false } } else s

/-! ### The UNPERMITTED_TILT notice (R130) -/

/-- The detail of UNPERMITTED_TILT for a furnace (R130). -/
def tiltDetail (s : State) (f : Furnace) : TiltDetail :=
  { furnace := f, tilt := tiltOf s f, permitHeld := grantedFor s f }

/-- What the notice at a port carries next: the furnace whose condition has just arisen, B where both have (log 12); else
the furnace it carried while that condition stands; else the other furnace if its condition stands (R110, R130). -/
def carriedNext (old cond : PerFurnace Bool) (carried : Option Furnace) : Option Furnace :=
  if cond.b && !old.b then some .b
  else if cond.a && !old.a then some .a
  else
    match carried with
    | some f => if cond.get f then some f else if cond.get (otherFurnace f) then some (otherFurnace f) else none
    | none => none

/-- The UNPERMITTED_TILT notice of one port brought up to date: posted when a condition arises, when the notice goes over
to the other furnace, and when the detail it carries has changed (R130). -/
def tiltNoticeAt (q : Port) (old cond : PerFurnace Bool) (s : State) : State :=
  let before := s.tap.tiltCarried.get q
  let after := (carriedNext old cond (before.map TiltDetail.furnace)).map (tiltDetail s)
  let s' := { s with tap := { s.tap with tiltCarried := s.tap.tiltCarried.set q after } }
  match after with
  | some d => if before = some d ∧ old.get d.furnace = true then s' else postTo q (.unpermittedTilt d) s'
  | none => s'

/-- The UNPERMITTED_TILT condition evaluated for both furnaces (R130). -/
def evalTilt (s : State) : State :=
  let old := s.tap.unpermitted
  let cond : PerFurnace Bool := ⟨unpermittedCond s .a, unpermittedCond s .b⟩
  let s' := { s with tap := { s.tap with unpermitted := cond } }
  tiltNoticeAt .p old cond (tiltNoticeAt .b old cond (tiltNoticeAt .a old cond s'))

end Sys2Proof.Machine
end

