-- ==== Sys2Proof/Machine/Heats.lean ====
section
/-! DEFINITION. The Heat Table: heat arithmetic (R27 to R41), the evaluations of R10, R11 and R32, opening and closing
heats (R6, R8, R17 to R21), and the settling of a step. -/

namespace Sys2Proof.Machine

/-! ### Arithmetic on one heat -/

/-- The step of a heat: bath mass times CP, J per °C (R30). -/
def stepOf (s : State) (h : Heat) : Int := (h.bathMass : Int) * (cp s : Int)

/-- An estimate and accumulator passed through the clamps of R31. -/
def clampEstimate (s : State) (estimate accumulator : Int) : Nat × Int :=
  if estimate < (liquidus s : Int) then (liquidus s, 0)
  else if 1700 < estimate then (1700, 0)
  else (estimate.toNat, accumulator)

/-- The division of R30 with the clamps of R31, for a net energy in kJ. A heat with ESTIMATE_ABSENT or a bath mass
below 100 kg keeps estimate and accumulator. -/
def advanceEstimate (s : State) (net : Int) (h : Heat) : Heat :=
  match h.estimate with
  | none => h
  | some e =>
    if h.bathMass < 100 then h
    else
      let sum := h.accumulator + net * 1000
      let q := sum.tdiv (stepOf s h)
      let r := clampEstimate s ((e : Int) + q) (sum - q * stepOf s h)
      { h with estimate := some r.1, accumulator := r.2 }

/-- FREEZE evaluated (R32): it follows the estimate, and is clear without one. -/
def evalFreeze (s : State) (h : Heat) : Heat := { h with freeze := freezeOf s h.estimate }

/-- The net energy of a second, kJ (R27). -/
def netEnergy (s : State) (f : Furnace) (d : Nat) : Int := ((d * effPct s f / 100 : Nat) : Int) - (lossKw s f : Int)

/-- The energy totals of a second (R27). -/
def addEnergy (s : State) (f : Furnace) (d : Nat) (h : Heat) : Heat :=
  { h with
    delivered := capU32 (h.delivered + d)
    useful := capU32 (h.useful + d * effPct s f / 100) }

/-- The third step of an estimator second for a MELTING heat (R28), with the crossing of R29. -/
def meltSecond (s : State) (net : Int) (h : Heat) : Heat :=
  if (h.remaining : Int) ≤ net then
    evalFreeze s (advanceEstimate s 0
      { h with
        remaining := 0
        state := .superheat
        estimate := some (liquidus s)
        accumulator := (net - (h.remaining : Int)) * 1000 })
  else
    { h with
      remaining := min h.totalMelt ((h.remaining : Int) - net).toNat
      estimate := none
      accumulator := 0 }

/-- The third and fourth steps of an estimator second (R28 to R32). FREEZE is evaluated when an estimate is there. -/
def secondOf (s : State) (f : Furnace) (d : Nat) (h : Heat) : Heat :=
  let h1 := addEnergy s f d h
  let net := netEnergy s f d
  if h1.state = .melting then meltSecond s net h1
  else if h1.estimate.isSome ∧ ¬ h1.bathMass < 100 then evalFreeze s (advanceEstimate s net h1)
  else h1

/-- The accumulator scaled to a new bath mass, truncated toward zero (R34). -/
def scaleAccumulator (acc : Int) (oldMass newMass : Nat) : Int := (acc * (newMass : Int)).tdiv (oldMass : Int)

/-- The warm-restart catch-up of one heat over a gap in seconds (R37). -/
def catchUpHeat (s : State) (f : Furnace) (gap : Nat) (h : Heat) : Heat :=
  if h.state = .melting then
    { h with remaining := min h.totalMelt (h.remaining + lossKw s f * gap) }
  else if h.estimate.isSome ∧ ¬ h.bathMass < 100 then
    evalFreeze s (advanceEstimate s (-((lossKw s f * gap : Nat) : Int)) h)
  else h

/-- A dip result set as estimate and last dip (R38, R39). -/
def takeDip (s : State) (t : Nat) (h : Heat) : Heat :=
  evalFreeze s
    { h with
      estimate := some (clampEstimate s t 0).1
      accumulator := 0
      lastDip := some { temp := t, second := now s } }

/-- A dip result applied to a heat (R38, R39). -/
def applyDip (s : State) (t : Nat) (h : Heat) : Heat :=
  if h.state = .melting then
    if liquidus s ≤ t then takeDip s t { h with remaining := 0, state := .superheat }
    else { h with lastDip := some { temp := t, second := now s } }
  else takeDip s t h

/-- The bath's credit above liquidus, in joules, not below 0 (R35); 0 for a MELTING heat or without an estimate (R36). -/
def creditOf (s : State) (h : Heat) : Nat :=
  if h.state = .melting then 0
  else
    match h.estimate with
    | some e => (((e : Int) - (liquidus s : Int)) * (h.bathMass : Int) * (cp s : Int) + h.accumulator).toNat
    | none => 0

/-- The state a covered charge leaves: HOLDING for HOLDING or TAP_READY, SUPERHEAT for SUPERHEAT (R14). -/
def coveredState : HeatState → HeatState
  | .tapReady => .holding
  | st => st

/-- A charge of a mass and material taken into a heat (R14, R35, R36). -/
def chargeHeat (s : State) (m : Material) (mass : Nat) (h : Heat) : Heat :=
  let energy := mass * meltEnergy s m
  let need := energy * 1000
  let credit := creditOf s h
  let newMass := h.bathMass + mass
  let total := capU32 (h.totalMelt + energy)
  let base : Heat :=
    { h with
      charges := h.charges ++ [{ material := m, mass := mass, addedAt := now s }]
      bathMass := newMass
      totalMelt := total
      chemistry := .pending }
  if h.state = .melting then { base with remaining := min total (h.remaining + energy), accumulator := 0 }
  else if h.estimate.isSome ∧ need ≤ credit then
    let left := credit - need
    let q := left / (newMass * cp s)
    evalFreeze s
      { base with
        state := coveredState h.state
        estimate := some (liquidus s + q)
        accumulator := ((left - q * (newMass * cp s) : Nat) : Int)
        remaining := 0 }
  else
    { base with
      state := .melting
      remaining := min total ((need - credit + 999) / 1000)
      estimate := none
      accumulator := 0
      freeze := false }

/-! ### The evaluations -/

/-- The liquid-state evaluation of one heat (R10). -/
def liquidEval (s : State) (h : Heat) : Heat :=
  match h.estimate with
  | none => h
  | some e =>
    match h.state with
    | .superheat => if targetInForce s h ≤ e then { h with state := .holding } else h
    | .holding | .tapReady => if e + returnBand s < targetInForce s h then { h with state := .superheat } else h
    | .melting | .tapping => h

/-- The class entry stamp is set when the class has changed (R7). -/
def restamp (second : Nat) (old new : Heat) : Heat :=
  if heatClass old = heatClass new then new else { new with classStamp := second }

/-- The open heat of a furnace replaced. -/
def setHeat (f : Furnace) (h : Heat) (s : State) : State := setSlot f (.heat h) s

/-- What follows a change of a furnace's heat from `old` to `new`: FREEZE newly set posts its notice (R32), and a heat
that has left TAP_READY ends its work in the queue (R11). -/
def afterRevision (f : Furnace) (old new : Heat) (s : State) : State :=
  let s1 := if new.freeze && !old.freeze then post (.freeze f new.number) s else s
  if old.state = .tapReady ∧ new.state ≠ .tapReady then leaveReady f .notReady s1 else s1

/-- The heat of a furnace changed by `g`, then evaluated by R10, with the class entry stamp of R7 and the effects of
leaving TAP_READY. -/
def reviseHeat (f : Furnace) (g : Heat → Heat) (s : State) : State :=
  match heatOf s f with
  | none => s
  | some h =>
    let new := restamp (now s) h (liquidEval s (g h))
    afterRevision f h new (setHeat f new s)

/-- The liquid-state evaluation of a furnace's heat (R10). -/
def evalLiquid (f : Furnace) (s : State) : State := reviseHeat f id s

/-- The readiness evaluation of a furnace's heat (R11). -/
def evalReady (f : Furnace) (s : State) : State :=
  match heatOf s f with
  | none => s
  | some h =>
    if h.state = .holding ∧ readyCond s f h = true then
      askMatching (post (.readyChanged f h.number .tapReady) (setHeat f { h with state := .tapReady } s))
    else if h.state = .tapReady ∧ readyCond s f h = false then
      leaveReady f .notReady (post (.readyChanged f h.number .holding) (setHeat f { h with state := .holding } s))
    else s

/-- R10 and then R11 on the heat of a furnace. -/
def evalHeat (f : Furnace) (s : State) : State := evalReady f (evalLiquid f s)

/-- R10 and R11 on both heats. -/
def evalHeats (s : State) : State := evalHeat .b (evalHeat .a s)

/-! ### The shop state -/

/-- The shop state changes, and SHOP_STATE is posted (R64). -/
def setShop (st : ShopState) (cause : ShopCause) (s : State) : State :=
  post (.shopState st s.shop.reasons cause) { s with shop := { s.shop with state := st } }

/-- A liquid heat with an estimate at or below BANK_FLOOR (R70). -/
def atFloor (s : State) (f : Furnace) : Bool :=
  match heatOf s f with
  | some h =>
    isLiquid h.state && (match h.estimate with
      | some e => decide (e ≤ bankFloor s)
      | none => false)
  | none => false

/-- The floor wake (R70): a BANKED deck returns to RUN, and R69 applies. -/
def floorWake (s : State) : State :=
  if s.shop.state = .banked ∧ wakeOnFloor s = true ∧ (atFloor s .a || atFloor s .b) = true then
    evalHeats (setShop .run .floor s)
  else s

/-! ### The settling of a step -/

/-- Matching (R122), the UNPERMITTED_TILT evaluation (R130) and the allotment computation (R59). -/
def coordinate (s : State) : State := allocate (evalTilt (matchIfDue s))

/-- What follows a change that no heat's evaluation reads, but the queue, the tilt notice or the allotment may. -/
def recompute (s : State) : State := if loading s then s else coordinate s

/-- What follows a change of one furnace's heat or of what only that furnace's readiness reads. Before the settings
load has ended no evaluation is made (R63, R104, R157). -/
def settleHeat (f : Furnace) (s : State) : State :=
  if loading s then s else coordinate (floorWake (evalHeat f s))

/-- What follows a change that both furnaces read. -/
def settleAll (s : State) : State :=
  if loading s then s else coordinate (floorWake (evalHeats s))

/-- What follows a change that the furnaces named read; nothing when none is named. -/
def settleNamed (m : PerFurnace Bool) (s : State) : State :=
  match m.a, m.b with
  | false, false => s
  | true, false => settleHeat .a s
  | false, true => settleHeat .b s
  | true, true => settleAll s

/-! ### Heat numbers, opening and closing -/

/-- The heat number after a number: 9999 is followed by 1 (R6). -/
def numberAfter (n : Nat) : Nat := if 9999 ≤ n then 1 else n + 1

/-- The first number not in use from a number on; at most 33 are in use (R6). -/
def freeNumber (used : List Nat) : Nat → Nat → Nat
  | 0, n => n
  | fuel + 1, n => if used.contains n then freeNumber used fuel (numberAfter n) else n

/-- The heat numbers in use: the heat open in the other slot and every summary in the log (R6). -/
def usedNumbers (f : Furnace) (s : State) : List Nat :=
  ((heatOf s (otherFurnace f)).map Heat.number).toList ++ s.heat.log.map Summary.number

/-- The number a heat opening in a furnace takes (R6). -/
def takeNumber (f : Furnace) (s : State) : Nat := freeNumber (usedNumbers f s) 33 s.heat.nextNumber

/-- A heat opened in a furnace: the number taken is stepped past (R6). -/
def openHeat (f : Furnace) (h : Heat) (s : State) : State :=
  let s1 := setHeat f h s
  { s1 with heat := { s1.heat with nextNumber := numberAfter h.number } }

/-- The estimator stamp of a furnace set to the current shop second (R8, R19, R25, R37): no estimator second of this
shop second is owed any longer. -/
def stampFurnace (f : Furnace) (s : State) : State :=
  let s1 := setFurnaceSlot f { s.heat.slots.get f with stamp := now s } s
  { s1 with clock := { s1.clock with estDue := s1.clock.estDue.set f false } }

/-- A heat as it is opened, with one charge entry (R8, R19). -/
def freshHeat (s : State) (f : Furnace) (st : HeatState) (m : Material) (mass energy : Nat) : Heat :=
  { number := takeNumber f s, state := st, charges := [{ material := m, mass := mass, addedAt := now s }],
    totalMelt := energy, remaining := energy, restateAdj := 0, taps := [], openTap := none, bathMass := mass,
    estimate := none, accumulator := 0, lastDip := none, holdTarget := holdTargetSetting s f,
    chemistry := .pending, freeze := false, massUncertain := false, delivered := 0, useful := 0,
    classStamp := now s, openedAt := now s }

/-- The summary of a closing heat (R21). -/
def summaryOf (s : State) (f : Furnace) (h : Heat) (reason : CloseReason) : Summary :=
  { number := h.number, furnace := f, openedAt := h.openedAt, closedAt := now s, charged := chargedMass h,
    tapped := tappedMass h, tapCount := h.taps.length, delivered := h.delivered, useful := h.useful,
    finalEstimate := h.estimate, lastDip := h.lastDip,
    heelOut := if reason = .closed then h.bathMass else 0, reason := reason }

/-- A summary appended; the oldest is dropped when 32 are held (R21). -/
def appendLog (x : Summary) (log : List Summary) : List Summary :=
  (log ++ [x]).drop (log.length + 1 - Config.logMax)

/-- The summary written to the closed-heat log (R21). -/
def writeSummary (f : Furnace) (h : Heat) (reason : CloseReason) (s : State) : State :=
  { s with heat := { s.heat with log := appendLog (summaryOf s f h reason) s.heat.log } }

/-- A dip that is SAMPLING ends without a result (R99): its timer stops, its samples are discarded, and DIP_FAILED
goes to the deck. -/
def failDip (f : Furnace) (reason : DipFailure) (next : DipState) (s : State) : State :=
  let d := s.scan.dips.get f
  post (.dipFailed f (heatNumber s f) reason d.samples)
    (setDip f { d with state := next, timer := none, window := [] } s)

/-- The dip of a furnace ends when it is SAMPLING, to WAIT_RELEASE (R99). -/
def endDip (f : Furnace) (reason : DipFailure) (s : State) : State :=
  if (s.scan.dips.get f).state = .sampling then failDip f reason .waitRelease s else s

/-- The heat of a furnace closes (R13, R17, R20): its summary is written, its outstanding work and its dip end, the
melt request becomes 0 (R47), HEAT_CLOSED is posted, and the slot becomes EMPTY. -/
def closeHeat (f : Furnace) (h : Heat) (reason : CloseReason) (s : State) : State :=
  let s1 := writeSummary f h reason s
  let s2 := endAssignment f .cancelled s1
  let s3 := if h.state = .tapReady then askMatching s2 else s2
  let s4 := setMeltRequest f 0 (endDip f .heatClosed s3)
  setSlot f .empty (post (.heatClosed f h.number reason) s4)

/-- The successor of a closed heat (R18), before R10 runs on it. -/
def successorOf (s : State) (f : Furnace) (h : Heat) : Heat :=
  { h with
    number := takeNumber f s
    state := coveredState h.state
    charges := [{ material := .heel, mass := h.bathMass, addedAt := now s }]
    totalMelt := if h.state = .melting then h.remaining else 0
    remaining := if h.state = .melting then h.remaining else 0
    restateAdj := 0
    taps := []
    openTap := none
    chemistry := .pending
    delivered := 0
    useful := 0
    classStamp := now s
    openedAt := now s }

end Sys2Proof.Machine
end

