-- ==== Sys2Proof/Machine/TapRun.lean ====
section
/-! DEFINITION. The permit from grant to completion, and the tilt (R12, R13, R126 to R134). -/

namespace Sys2Proof.Machine

/-- The open tap created at a grant (R4, R12). -/
def newTap (s : State) (h : Heat) (ladle id : Nat) : TapRecord :=
  { ordinal := h.taps.length + 1, ladle := ladle, requestId := id, grantedAt := now s, forwardAt := none,
    homeAt := none, poured := 0, estimateAtForward := none, interrupted := false, weightTimeout := false,
    clamped := false }

/-- The open heat of a furnace changed without any evaluation. -/
def editHeat (f : Furnace) (g : Heat → Heat) (s : State) : State :=
  match heatOf s f with
  | some h => setHeat f (g h) s
  | none => s

/-- The pending permit is granted (R126): the heat becomes TAPPING with its open tap (R12), and PERMIT_RESOLVED with
GRANTED goes to the deck. -/
def grantPermit (p : Permit) (s : State) : State :=
  let ladle := ladleOf s p.requestId
  let s1 := setPermit (some { p with state := .granted, confirm := none, grantedAt := some (now s), use := some 0 }) s
  let s2 := editHeat p.furnace (fun h => { h with state := .tapping, openTap := some (newTap s h ladle p.requestId) }) s1
  post (.permitResolved none p.furnace (heatNumber s p.furnace) p.requestId ladle) s2

/-- A grant event of R126 reaches the permit record: a pending permit is granted. -/
def grantIfPending (s : State) : State :=
  match s.tap.permit with
  | some p => if p.state = .pending then grantPermit p s else s
  | none => s

/-- The granted permit is withdrawn (R131): the open tap is discarded, the heat becomes HOLDING, PERMIT_WITHDRAWN is
posted, the withdrawal is kept for the deck, and the entry returns. -/
def withdrawPermit (p : Permit) (s : State) : State :=
  let s1 := editHeat p.furnace (fun h => { h with state := .holding, openTap := none }) s
  let s2 := post (.permitWithdrawn p.furnace (heatNumber s p.furnace) p.requestId (ladleOf s p.requestId)) s1
  let s3 := askMatching (setKept p.furnace (some .withdrawn) (setPermit none s2))
  settleHeat p.furnace (returnEntry p.requestId s3)

/-- The tap record a completion appends (R13, R134). -/
def finishedTap (t : TapRecord) (mass : Nat) (clamped timeout : Bool) : TapRecord :=
  { t with poured := mass, clamped := clamped, weightTimeout := timeout }

/-- The heat after a completed tap (R13, R34): record appended, bath mass lowered, accumulator scaled unless the bath
mass is 0, MASS_UNCERTAIN set by a flag, HOLDING. -/
def completeHeat (mass : Nat) (clamped timeout : Bool) (h : Heat) : Heat :=
  let newMass := h.bathMass - mass
  { h with
    state := .holding
    taps := h.taps ++ (h.openTap.map (fun t => finishedTap t mass clamped timeout)).toList
    openTap := none
    bathMass := newMass
    accumulator := if newMass = 0 then h.accumulator else scaleAccumulator h.accumulator h.bathMass newMass
    massUncertain := h.massUncertain || clamped || timeout }

/-- The Heat Table takes a completed tap: the heat goes on, or closes as EMPTIED when its bath mass is 0 (R13). -/
def heatTakesTap (f : Furnace) (mass : Nat) (clamped timeout : Bool) (s : State) : State :=
  match heatOf s f with
  | none => s
  | some h =>
    let done := completeHeat mass clamped timeout h
    let s1 := setHeat f done s
    if done.bathMass = 0 then closeHeat f done .emptied s1 else s1

/-- The tap completes (R134). -/
def completeTap (p : Permit) (mass : Nat) (clamped timeout : Bool) (s : State) : State :=
  let number := heatNumber s p.furnace
  let ladle := ladleOf s p.requestId
  let s1 := heatTakesTap p.furnace mass clamped timeout s
  let s2 := removeEntry p.requestId s1
  let s3 := setPermit none s2
  let s4 := { s3 with tap := { s3.tap with lastEnded := some p.requestId } }
  settleHeat p.furnace
    (post (.tapDone p.furnace number p.requestId ladle mass timeout clamped (bathMassOf s4 p.furnace)) s4)

/-- The first FORWARD or INVALID tilt under a granted permit (R131): forward-at is recorded and copied into the open
tap with the estimate (R12), the use timer stops and the tap timer starts. -/
def startPour (p : Permit) (s : State) : State :=
  editHeat p.furnace
    (fun h => { h with openTap := h.openTap.map (fun t =>
      { t with forwardAt := some (now s), estimateAtForward := h.estimate }) })
    (setPermit (some { p with forwardAt := some (now s), use := none, tap := some 0 }) s)

/-- The tilt comes HOME with forward-at recorded (R132): home-at is recorded and copied into the open tap, and the
tap completes with a stored weight, or the weight timer starts. -/
def comeHome (p : Permit) (s : State) : State :=
  let p1 := { p with homeAt := some (now s) }
  let s1 := editHeat p.furnace
    (fun h => { h with openTap := h.openTap.map (fun t => { t with homeAt := some (now s) }) })
    (setPermit (some p1) s)
  match p.weight with
  | some w => completeTap p1 w.mass w.clamped false s1
  | none => setPermit (some { p1 with weightWait := some 0 }) s1

/-- A change of tilt under a granted permit of the furnace (R131, R132). An INVALID tilt is supervised as FORWARD
(R130). -/
def permitSeesTilt (f : Furnace) (t : Tilt) (s : State) : State :=
  match s.tap.permit with
  | none => s
  | some p =>
    if p.state = .granted ∧ p.furnace = f then
      match t with
      | .forward | .invalid =>
        if p.forwardAt.isNone then startPour p s else setPermit (some { p with weightWait := none }) s
      | .back => setPermit (some { p with weightWait := none }) s
      | .home => if p.forwardAt.isSome then comeHome p s else s
    else s

/-! ### The tap timers (R127, R131, R132) -/

/-- The confirm timer reaches TAP_CONFIRM_TIME: the pending permit is refused STAGE_NO_CONFIRM (R127). -/
def confirmExpires (s : State) : State :=
  match s.tap.permit with
  | some p => if p.state = .pending ∧ p.confirm.isSome = true then recompute (refusePermit p .stageNoConfirm false s) else s
  | none => s

/-- The use timer reaches PERMIT_USE_TIME with no forward-at recorded: the permit is withdrawn (R131). -/
def useExpires (s : State) : State :=
  match s.tap.permit with
  | some p => if p.state = .granted ∧ p.use.isSome = true ∧ p.forwardAt = none then withdrawPermit p s else s
  | none => s

/-- The tap timer reaches TAP_MAX_TIME: TAP_LONG is posted, once a permit (R132). -/
def tapMaxExpires (s : State) : State :=
  match s.tap.permit with
  | some p =>
    if p.state = .granted ∧ p.tap.isSome = true ∧ p.longPosted = false then
      post (.tapLong p.furnace (heatNumber s p.furnace) p.requestId (now s - p.forwardAt.getD (now s)))
        (setPermit (some { p with longPosted := true }) s)
    else s
  | none => s

/-- The weight timer reaches WEIGHT_WAIT: the tap completes with 0 and WEIGHT_TIMEOUT (R132, R134). -/
def weightWaitExpires (s : State) : State :=
  match s.tap.permit with
  | some p => if p.state = .granted ∧ p.weightWait.isSome = true then completeTap p 0 false true s else s
  | none => s

end Sys2Proof.Machine
end

