-- ==== Sys2Proof/Machine/Protect.lean ====
section
/-! DEFINITION. Water and Lining Protection (R102 to R119) and the breaker output (R73). -/

namespace Sys2Proof.Machine

/-! ### The breaker output -/

/-- BREAKER_TRIP asserted for a cause: with the breaker closed and the output not yet asserted, the output and the
stuck timer start (R73). -/
def assertBreaker (s : State) : State :=
  if s.lines.breakerClosed = true ∧ s.shop.breakerTrip = false then
    { s with shop := { s.shop with breakerTrip := true, stuckTimer := some 0 } }
  else s

/-! ### Conditions and the leak warning -/

/-- The leak warnings that stand. -/
def leakStands (s : State) : PerFurnace Bool :=
  ⟨(circuitOf s .coilA).leakWarning, (circuitOf s .coilB).leakWarning⟩

/-- The detail of LEAK_WARN for the coil circuit of a furnace: the value read at the posting (R110). -/
def leakDetail (s : State) (f : Furnace) : Detail :=
  .leakWarn f (((leakChan (coilOf f)).bind (fun ch => (chanOf s ch).value)).getD 0)

/-- The LEAK_WARN notice of one port brought up to date: posted when a warning appears, and when the notice goes over to
the other circuit (R110). -/
def leakNoticeAt (q : Port) (old cond : PerFurnace Bool) (s : State) : State :=
  let before := s.prot.leakCarried.get q
  let after := carriedNext old cond before
  let s1 := { s with prot := { s.prot with leakCarried := s.prot.leakCarried.set q after } }
  match after with
  | some f => if before = some f ∧ old.get f = true then s1 else postTo q (leakDetail s1 f) s1
  | none => s1

/-- The conditions of a circuit formed from its channels as they stand (R103), with the leak warning (R110). -/
def formConditions (c : Circuit) (s : State) : State :=
  let old := leakStands s
  let r := circuitOf s c
  let s1 := setCircuitRec c
    { r with hard := (hardCause s c).isSome, soft := softCond s c, leakWarning := leakWarningCond s c } s
  let cond := leakStands s1
  leakNoticeAt .p old cond (leakNoticeAt .b old cond (leakNoticeAt .a old cond s1))

/-! ### The circuit state machine -/

/-- The COOLING detail (R116): the states, and the trip cause of each circuit in TRIP. -/
def coolingDetail (s : State) : Detail :=
  .cooling (s.prot.circuits.map CircuitRec.state)
    (s.prot.circuits.map (fun r => if r.state = .trip then r.cause else none))

/-- A timer started from 0: running, or held while the loop is in CHANGEOVER (R113). -/
def startTimer (s : State) : Timer := { mode := if inChangeover s then .held else .running, ms := 0 }

/-- A timer stopped: it counts no more, and the time it has counted stands until it next starts (R102). -/
def Timer.stop (t : Timer) : Timer := { t with mode := .stopped }

/-- A timer that runs on from the time it was held at, or stays held while the loop is in CHANGEOVER (R107, R113). -/
def runOn (s : State) (t : Timer) : Timer := { t with mode := if inChangeover s then .held else .running }

/-- A running timer at or past a limit in seconds. -/
def Timer.due (t : Timer) (limit : Nat) : Bool := t.mode == .running && decide (limit * 1000 ≤ t.ms)

/-- The three timers of a circuit stopped. -/
def CircuitRec.stopTimers (r : CircuitRec) : CircuitRec :=
  { r with watch := r.watch.stop, derate := r.derate.stop, recovery := r.recovery.stop }

/-- A circuit enters a state with a record; COOLING is posted (R116). -/
def enterState (c : Circuit) (r : CircuitRec) (s : State) : State :=
  let s1 := setCircuitRec c { r with enteredAt := now s } s
  post (coolingDetail s1) s1

/-- A circuit enters NORMAL: its timers are stopped (R105, R106, R107). -/
def enterNormal (c : Circuit) (s : State) : State :=
  enterState c
    { (circuitOf s c).stopTimers with state := .normal } s

/-- A circuit enters WATCH (R105, R106). -/
def enterWatch (c : Circuit) (s : State) : State :=
  enterState c { circuitOf s c with state := .watch, watch := startTimer s } s

/-- A circuit enters DERATE (R106). -/
def enterDerate (c : Circuit) (s : State) : State :=
  enterState c
    { (circuitOf s c).stopTimers with state := .derate, derate := startTimer s } s

/-- A circuit enters TRIP with a cause (R108, R109): the latch is set, the timers stop, the trip goes to the Stage Link
Controller, and CABINET is a standing cause of BREAKER_TRIP. R78 and R109 let the trip and the allotment's pair of the same
change reach the Stage Link Controller in either order: that the trip is taken here, before the allotment has computed,
is the model's choice (log 33). -/
def tripCircuit (c : Circuit) (cause : TripCause) (s : State) : State :=
  let tripped := takeTrip (circuitMask c)
    (setCircuitRec c
      { (circuitOf s c).stopTimers with state := .trip, cause := some cause, enteredAt := now s, latch := true } s)
  let s1 := if c = .cabinet then assertBreaker tripped else tripped
  post (coolingDetail s1) s1

/-- SOFT returns in DERATE (R107): the recovery timer stops and the derate timer runs on from the time it was held at. One
already at or past DERATE_TIME expires as soon as it runs again (R117). -/
def softReturns (c : Circuit) (s : State) : State :=
  let r := circuitOf s c
  let derate := runOn s r.derate
  if derate.due (derateTime s) then tripCircuit c .derateExpiry s
  else setCircuitRec c { r with recovery := r.recovery.stop, derate := derate } s

/-- One evaluation of the state machine of a circuit on its conditions (R105 to R108). -/
def advanceCircuit (c : Circuit) (s : State) : State :=
  let r := circuitOf s c
  match r.state with
  | .trip => s
  | .init =>
    if r.latch then tripCircuit c .latch s
    else
      match hardCause s c with
      | some cause => tripCircuit c cause s
      | none =>
        if allValid s c then (if r.soft then enterWatch c s else enterNormal c s) else s
  | .normal =>
    match hardCause s c with
    | some cause => tripCircuit c cause s
    | none => if r.soft then enterWatch c s else s
  | .watch =>
    match hardCause s c with
    | some cause => tripCircuit c cause s
    | none => if r.soft then s else enterNormal c s
  | .derate =>
    match hardCause s c with
    | some cause => tripCircuit c cause s
    | none =>
      if r.soft = false ∧ r.recovery.mode = .stopped then
        setCircuitRec c { r with recovery := startTimer s, derate := { r.derate with mode := .held } } s
      else if r.soft = true ∧ r.recovery.mode ≠ .stopped then softReturns c s
      else s

/-- A circuit forms its conditions again and evaluates its state machine (R104); not before the settings load has
ended. -/
def evalCircuit (c : Circuit) (s : State) : State :=
  if loading s then s else advanceCircuit c (formConditions c s)

/-- The three circuits evaluated, COIL_A first and CABINET last (log 31). -/
def evalCircuits (s : State) : State := evalCircuit .cabinet (evalCircuit .coilB (evalCircuit .coilA s))

/-- The watch timer of a circuit reaches WATCH_TIME (R106). -/
def watchExpires (c : Circuit) (s : State) : State :=
  if (circuitOf s c).state = .watch ∧ (circuitOf s c).watch.mode = .running then
    enterDerate c (formConditions c s)
  else s

/-- The derate timer of a circuit reaches DERATE_TIME (R107). -/
def derateExpires (c : Circuit) (s : State) : State :=
  if (circuitOf s c).state = .derate ∧ (circuitOf s c).derate.mode = .running then
    tripCircuit c .derateExpiry (formConditions c s)
  else s

/-- The recovery timer of a circuit reaches RECOVER_TIME (R107). -/
def recoveryExpires (c : Circuit) (s : State) : State :=
  if (circuitOf s c).state = .derate ∧ (circuitOf s c).recovery.mode = .running then
    enterNormal c (formConditions c s)
  else s

/-- A running timer of a circuit whose counted time is at or past its limit expires at once (R113, R117). -/
def expireOverdue (c : Circuit) (s : State) : State :=
  let r := circuitOf s c
  if r.state = .watch ∧ r.watch.due (watchTime s) = true then watchExpires c s
  else if r.state = .derate ∧ r.derate.due (derateTime s) = true then derateExpires c s
  else if r.state = .derate ∧ r.recovery.due (recoverTime s) = true then recoveryExpires c s
  else s

/-- Overdue timers of the three circuits, COIL_A first and CABINET last (log 31). -/
def expireAllOverdue (s : State) : State := expireOverdue .cabinet (expireOverdue .coilB (expireOverdue .coilA s))

/-! ### The loop -/

/-- A running timer held (R113). -/
def Timer.hold (t : Timer) : Timer := if t.mode = .running then { t with mode := .held } else t

/-- A held timer running again (R113). -/
def Timer.release (t : Timer) : Timer := if t.mode = .held then { t with mode := .running } else t

/-- The timers of a circuit held at the entry to CHANGEOVER (R113). -/
def CircuitRec.holdTimers (r : CircuitRec) : CircuitRec :=
  { r with watch := r.watch.hold, derate := r.derate.hold, recovery := r.recovery.hold }

/-- The timers of a circuit released at the entry to STANDBY (R113): the derate timer stays held while the recovery
timer runs (R107). -/
def CircuitRec.releaseTimers (r : CircuitRec) : CircuitRec :=
  { r with
    watch := r.watch.release
    recovery := r.recovery.release
    derate := if r.recovery.mode = .stopped then r.derate.release else r.derate }

/-- Every circuit record passed through a function. -/
def mapCircuits (g : CircuitRec → CircuitRec) (s : State) : State :=
  { s with prot := { s.prot with circuits := s.prot.circuits.map g } }

/-- The loop state changes, and PUMP_CHANGEOVER is posted (R112, R116): the pressure timer stops, the settle timer
runs in CHANGEOVER only, and the latch is as given. -/
def setLoop (st : LoopState) (cause : LoopCause) (latch : Bool) (s : State) : State :=
  post (.pumpChangeover st cause latch)
    { s with prot :=
      { s.prot with loop :=
        { state := some st, standbyLatch := latch, settle := if st = .changeover then some 0 else none,
          pressure := none, cause := cause, changedAt := now s } } }

/-- The loop enters CHANGEOVER (R112, R113). -/
def enterChangeover (cause : LoopCause) (s : State) : State :=
  evalCircuits (mapCircuits CircuitRec.holdTimers (setLoop .changeover cause true s))

/-- A circuit not already in TRIP enters it with the cause LOOP (R114). -/
def tripForLoop (c : Circuit) (s : State) : State :=
  if (circuitOf s c).state = .trip then s else tripCircuit c .loop s

/-- The loop enters LOOP_FAIL (R114). R114 has the circuits trip together; that COIL_A hands its trip over first, then
COIL_B, then CABINET, is the model's choice (log 31). -/
def enterLoopFail (cause : LoopCause) (s : State) : State :=
  assertBreaker
    (tripForLoop .cabinet (tripForLoop .coilB (tripForLoop .coilA
      (setLoop .loopFail cause s.prot.loop.standbyLatch s))))

/-- The loop enters STANDBY at settle end (R113). -/
def enterStandby (s : State) : State :=
  expireAllOverdue
    (evalCircuits (mapCircuits CircuitRec.releaseTimers (setLoop .standby .settled s.prot.loop.standbyLatch s)))

/-- The loop returns to its main pump (R115). -/
def returnToMain (s : State) : State := evalCircuits (setLoop .main .pumpReturn false s)

/-- The settle timer reaches STANDBY_SETTLE, and the loop is judged (R113). -/
def settleExpires (s : State) : State :=
  if inChangeover s = true ∧ s.prot.loop.settle.isSome = true then
    if s.lines.standbyRun = true ∧ pressureGood s = true then enterStandby s else enterLoopFail .settleFail s
  else s

/-- The pressure timer reaches 1 s (R112, R114). -/
def pressureExpires (s : State) : State :=
  if s.prot.loop.pressure.isSome then
    match s.prot.loop.state with
    | some .main => enterChangeover .pressure s
    | some .standby => enterLoopFail .pressure s
    | _ => s
  else s

/-- The pressure judged at an update of channel 3 or a write of PRESS_LOW (R112, R117): in MAIN and STANDBY a low
pressure starts the timer when it is stopped, and any other stops it. -/
def judgePressure (s : State) : State :=
  let l := s.prot.loop
  let next : Option Nat :=
    match l.state with
    | some .main | some .standby => if pressureLow s then (if l.pressure.isSome then l.pressure else some 0) else none
    | _ => l.pressure
  { s with prot := { s.prot with loop := { l with pressure := next } } }

/-- The loop state derived when the settings load ends (R119). -/
def derivedLoop (s : State) : LoopState :=
  if s.prot.loop.standbyLatch = true ∧ s.lines.standbyRun = true then .standby
  else if s.lines.mainPumpRun = true then .main
  else .changeover

/-- The loop derived at the end of the settings load, with PUMP_CHANGEOVER(RESET) (R119). -/
def deriveLoop (s : State) : State :=
  match derivedLoop s with
  | .changeover => enterChangeover .reset s
  | .standby => evalCircuits (setLoop .standby .reset true s)
  | st => evalCircuits (setLoop st .reset false s)

/-! ### Updates handed on -/

/-- The circuit that reads a channel (R88). -/
def chanCircuit : Chan → Option Circuit
  | .coilAOut | .coilAFlow | .leakA => some .coilA
  | .coilBOut | .coilBFlow | .leakB => some .coilB
  | .cabOut | .cabFlow => some .cabinet
  | .loopPress | .dipA | .dipB => none

/-- An update of a water channel's record handed to its reader (R89). -/
def handUpdate (ch : Chan) (s : State) : State :=
  match chanCircuit ch with
  | some c => evalCircuit c s
  | none => if ch = .loopPress then judgePressure s else s

/-- The furnaces whose readiness and power read a circuit whose state has changed (R109). -/
def furnacesConcerned (before after : State) : PerFurnace Bool :=
  let differs := fun c => decide ((circuitOf before c).state ≠ (circuitOf after c).state)
  ⟨differs .coilA || differs .cabinet, differs .coilB || differs .cabinet⟩

/-- A step of protection with what follows from the circuits it has changed (R109). The trips have been taken when the
allotment's pair follows, in the order that log 33 chooses. -/
def protect (g : State → State) (s : State) : State := settleNamed (furnacesConcerned s (g s)) (g s)

end Sys2Proof.Machine
end

