-- ==== Sys2Proof/Machine/Scan.lean ====
section
/-! DEFINITION. The Measurement Scanner: conversions, the sweep, the dip units (R88 to R101). -/

namespace Sys2Proof.Machine

/-- The span of a water channel (R88). -/
def chanSpan : Chan → Nat
  | .coilAOut | .coilBOut | .cabOut => 1200
  | .loopPress | .coilAFlow | .coilBFlow => 1000
  | .cabFlow | .leakA | .leakB => 500
  | .dipA | .dipB => 1800

/-- The value of a code within the trusted range (R89). -/
def scaleCode (c : Chan) (k : Nat) : Nat := min ((k - 683) * chanSpan c / 2730) (chanSpan c)

/-- The record a conversion of a water channel leaves (R89). -/
def convertWater (c : Chan) (k ms : Nat) (r : ChannelRec) : ChannelRec :=
  if k < 614 ∨ 3515 < k then { r with status := .broken, updatedAt := some ms }
  else { status := .valid, value := some (scaleCode c k), updatedAt := some ms }

/-- The ordinary channels, in rotation order (R92). -/
def ordinaryChans : List Chan := [.coilAFlow, .coilBFlow, .cabFlow, .leakA, .leakB]

/-- The rotation as it goes on from the channel converted last (R92). -/
def rotationAfter : Option Chan → List Chan
  | some .coilAFlow => [.coilBFlow, .cabFlow, .leakA, .leakB, .coilAFlow]
  | some .coilBFlow => [.cabFlow, .leakA, .leakB, .coilAFlow, .coilBFlow]
  | some .cabFlow => [.leakA, .leakB, .coilAFlow, .coilBFlow, .cabFlow]
  | some .leakA => [.leakB, .coilAFlow, .coilBFlow, .cabFlow, .leakA]
  | _ => ordinaryChans

/-- The ordinary channel of the next unit: the next in service (R92). -/
def nextOrdinary (s : State) : Option Chan := (rotationAfter s.scan.lastOrdinary).find? (inService s)

/-- The channels a unit reaches, in order (R92): the priority burst, one ordinary channel, and on the tenth unit both dip
channels, each passed over when its dip unit is not SAMPLING as it is reached (log 15). -/
def unitPlan (s : State) (count : Nat) : List Chan :=
  [Chan.coilAOut, .coilBOut, .cabOut, .loopPress].filter (inService s)
    ++ (nextOrdinary s).toList
    ++ (if count = 10 then [Chan.dipA, Chan.dipB] else [])

/-- A channel the unit in progress converts when it reaches it (R89, R91, R92): it is not OFF, and a dip channel's unit
is SAMPLING. -/
def convertible (s : State) (ch : Chan) : Bool :=
  (chanOf s ch).status != .off
    && (match ch with
        | .dipA => s.scan.dips.a.state == .sampling
        | .dipB => s.scan.dips.b.state == .sampling
        | _ => true)

/-- The conversion of the unit in progress that ends next (R92, log 15). A place in front of it has been passed; a dip that
starts puts none back (`dropPassed`), and a flag that changes restarts the sweep (R93). -/
def dueConversion (s : State) : Option Chan := s.scan.plan.find? (convertible s)

/-- A unit begins (R92). -/
def beginUnit (count : Nat) (s : State) : State :=
  { s with scan := { s.scan with unitCount := count, plan := unitPlan s count, sweepTimer := some 0 } }

/-- The sweep restarts (R93): the unit in progress is abandoned and a new one begins at channel 0 with count 1 and the
rotation at channel 4. -/
def restartSweep (s : State) : State :=
  beginUnit 1 { s with scan := { s.scan with running := true, lastOrdinary := none } }

/-- The channels of a unit behind one of them. -/
def planAfter (c : Chan) (plan : List Chan) : List Chan := (plan.dropWhile (fun x => x != c)).drop 1

/-- A conversion has ended: the unit goes on behind it, and an ordinary channel is the one converted last (R92). -/
def noteConversion (c : Chan) (s : State) : State :=
  { s with scan :=
    { s.scan with
      plan := planAfter c s.scan.plan
      lastOrdinary := if ordinaryChans.contains c then some c else s.scan.lastOrdinary } }

/-- A dip result handed to the Heat Table (R97): applied to an open heat with DIP_RESULT, or discarded with
DIP_FAILED(NO_HEAT). R97 has DIP_RESULT follow the application, and gives it no place among the other notices of the step:
that its serial comes after those of the application (FREEZE, and what leaving TAP_READY by R10 posts) and before those of
the R11 evaluation that follows (READY_CHANGED, PERMIT_RESOLVED, and on to SHOP_STATE and TAP_CALL) is the model's choice
(log 32). -/
def handResult (f : Furnace) (t samples : Nat) (s : State) : State :=
  match heatOf s f with
  | some h =>
    settleHeat f (post (.dipResult f h.number t samples (now s)) (reviseHeat f (applyDip s t) s))
  | none => post (.dipFailed f 0 .noHeat samples) s

/-- The highest of a list. -/
def highest (l : List Nat) : Nat := l.foldl max 0

/-- The lowest of a list; 0 for an empty one. -/
def lowest : List Nat → Nat
  | [] => 0
  | x :: rest => rest.foldl min x

/-- The plateau of R96: 20 values within 4 °C. -/
def plateau (w : List Nat) : Bool := w.length == 20 && decide (highest w - lowest w ≤ 4)

/-- A sample that is OPEN (R95). -/
def openSample (f : Furnace) (d : DipUnit) (s : State) : State :=
  let openCount := if d.samples < 4 then d.openCount + 1 else d.openCount
  let d1 := { d with samples := d.samples + 1, openCount := openCount, window := [] }
  if d1.samples = 4 ∧ d1.openCount = 4 then failDip f .openTip .waitRelease (setDip f d1 s) else setDip f d1 s

/-- A sample with a value (R96). A dip that ends with a result keeps its window, also when the Heat Table then discards
the result with DIP_FAILED(NO_HEAT): whether R99's "every failure" takes that case in is left open (log 20). -/
def goodSample (f : Furnace) (v : Nat) (d : DipUnit) (s : State) : State :=
  let grown := d.window ++ [v]
  let window := grown.drop (grown.length - 20)
  let d1 := { d with samples := d.samples + 1, window := window }
  if plateau window then
    handResult f (window.sum / 20) d1.samples (setDip f { d1 with state := .waitRelease, timer := none } s)
  else setDip f d1 s

/-- A dip sample (R95): the dip channel's record first, then the unit. -/
def takeSample (f : Furnace) (k : Nat) (s : State) : State :=
  let r := chanOf s (dipChan f)
  let d := s.scan.dips.get f
  if 4072 ≤ k then
    openSample f d (setChannel (dipChan f) { r with status := .broken, updatedAt := some s.clock.ms } s)
  else
    let v := k * 1800 / 4095
    goodSample f v d (setChannel (dipChan f) { status := .valid, value := some v, updatedAt := some s.clock.ms } s)

/-- The places that the unit in progress has reached and passed without a conversion leave its plan for good (R92). R92
does not say whether a unit still stands at a dip channel's place when that dip ends (a lift, its timer, a closing) before
the sample: DESIGN CHOICE (log 15), the place is passed at once, so that dip channel B is due next where its dip unit is
SAMPLING, and where it is not, its place is passed too: a contact B right after a lift A in the tenth unit is not sampled in
that unit. -/
def dropPassed (s : State) : State :=
  { s with scan := { s.scan with plan := s.scan.plan.dropWhile (fun ch => !convertible s ch) } }

/-- A dip starts (R94). A unit in progress that has passed the place of the dip channel does not come back to it (R92,
log 15). -/
def startDip (f : Furnace) (s : State) : State :=
  setDip f
    { state := .sampling, level := true, startedAt := s.clock.ms, timer := some 0, samples := 0, openCount := 0,
      window := [] } (dropPassed s)

end Sys2Proof.Machine
end

