-- ==== Sys2Proof/Machine/Settings.lean ====
section
/-! DEFINITION. The Settings Manager: ranges, writes with their dependents, what each block takes up, the settings
channel, and the settings load (R152 to R159). -/

namespace Sys2Proof.Machine

/-! ### Ranges (R152) -/

/-- The value of a setting number in a working copy. -/
def valueIn (w : List Nat) (n : Nat) : Nat := w.getD (n - 1) 0

/-- The bath masses of the open heats, 0 without one; CAPACITY is at least these (R152). -/
def bathMasses (s : State) : PerFurnace Nat := ⟨bathMassOf s .a, bathMassOf s .b⟩

/-- The range of a setting as the other settings stand (R152). With `loading` a bound given by a setting later in the
table is not applied (R157). A named value has the codes 0 and 1 (R160). -/
def rangeOf (w : List Nat) (bath : PerFurnace Nat) (loading : Bool) (n : Nat) : Nat × Nat :=
  let v := valueIn w
  match n with
  | 1 => (500, 8000)
  | 2 | 3 => (100, v 1)
  | 4 => (0, floor10 (v 2 / 4))
  | 5 => (0, floor10 (v 3 / 4))
  | 6 | 7 => (0, v 1)
  | 8 | 9 => (0, min (v 2) (v 3))
  | 10 => (10, 90)
  | 11 => (max 1000 bath.a, 20000)
  | 12 => (max 1000 bath.b, 20000)
  | 13 => (0, v 11 / 2)
  | 14 => (0, v 12 / 2)
  | 15 | 16 => (40, 95)
  | 17 | 18 => (0, 1000)
  | 19 => (600, 1000)
  | 20 => (1100, 1450)
  | 21 | 22 | 23 | 24 => (800, 2000)
  | 25 | 26 | 31 => (v 20 + 50, 1600)
  | 27 => (10, 100)
  | 28 => (0, 50)
  | 29 => (20, 200)
  | 30 => (60, 1800)
  | 32 => (v 20 + 20, v 31 - 10)
  | 33 => (if loading then 10 else max 10 (v 35 + 10), 1000)
  | 34 => (if loading then 10 else max 10 (v 36 + 10), 500)
  | 35 => (0, v 33 - 10)
  | 36 => (0, v 34 - 10)
  | 37 => (0, if loading then 1190 else min 1190 (v 39 - 10))
  | 38 => (0, if loading then 1190 else min 1190 (v 40 - 10))
  | 39 => (v 37 + 10, 1200)
  | 40 => (v 38 + 10, 1200)
  | 41 => (0, if loading then 490 else min 490 (v 42 - 10))
  | 42 => (v 41 + 10, 500)
  | 43 => (0, 1000)
  | 44 => (1, 10)
  | 45 => (10, 300)
  | 46 => (5, 60)
  | 47 => (2, 20)
  | 48 => (30, 300)
  | 49 => (5, 30)
  | 50 => (60, 900)
  | 51 => (30, 600)
  | _ => (0, 1)

/-- The settings that must be a multiple of 10 (R152). -/
def isTens (n : Nat) : Bool := n == 1 || n == 4 || n == 5 || n == 17 || n == 18

/-- A value brought into a setting's range, then taken down to a multiple of 10 where the setting must be one (R153). -/
def fitSetting (w : List Nat) (bath : PerFurnace Nat) (loading : Bool) (n value : Nat) : Nat :=
  let r := rangeOf w bath loading n
  let x := clampTo r.1 r.2 value
  if isTens n then floor10 x else x

/-- A setting number of the table. -/
def isSetting (n : Nat) : Bool := decide (1 ≤ n) && decide (n ≤ 65)

/-- A value a WRITE-SETTING may carry for a setting: one of the named values where it has them (R153). -/
def acceptsValue (n value : Nat) : Bool := decide (n < 52) || decide (value ≤ 1)

/-! ### Writing (R153, R154) -/

/-- The settings whose range can move with another's value, in an order in which each follows those it depends on. -/
def dependents : List Nat := [2, 3, 6, 7, 4, 5, 8, 9, 13, 14, 25, 26, 31, 32]

/-- A setting number's value replaced. -/
def putValue (w : List Nat) (n value : Nat) : List Nat := w.set (n - 1) value

/-- The working copy after a write of one setting: the value stored, then every dependent brought into its range. -/
def writeWorking (w : List Nat) (bath : PerFurnace Nat) (n value : Nat) : List Nat :=
  (dependents.filter (fun m => m != n)).foldl
    (fun x m => putValue x m (fitSetting x bath false m (valueIn x m)))
    (putValue w n (fitSetting w bath false n value))

/-- The setting numbers 1 to 65. -/
def settingNumbers : List Nat := (List.range 65).map (fun k => k + 1)

/-- The settings other than the one named that a write has changed. -/
def changedDependents (old new : List Nat) (n : Nat) : List Nat :=
  settingNumbers.filter (fun m => m != n && valueIn old m != valueIn new m)

/-- A setting among those given has changed. -/
def anyChanged (old new : List Nat) (ns : List Nat) : Bool := ns.any (fun n => valueIn old n != valueIn new n)

/-! ### Taking a write up -/

/-- The melt request lowered to floor10 of OUTPUT_MAX (R47). -/
def lowerMeltRequest (f : Furnace) (s : State) : State :=
  setMeltRequest f (min (s.allot.out.get f).meltRequest (floor10 (outputMax s f))) s

/-- An open heat fitted to a new CP, LIQUIDUS or FREEZE_MARGIN (R15, R41); the settings in `s` are the new ones. -/
def refitHeat (s : State) (oldCp : Nat) (h : Heat) : Heat :=
  let h1 := if oldCp = cp s then h else { h with accumulator := scaleAccumulator h.accumulator oldCp (cp s) }
  let h2 : Heat :=
    match h1.estimate with
    | some e => if e < liquidus s then { h1 with estimate := some (liquidus s), accumulator := 0 } else h1
    | none => h1
  let h3 := { h2 with holdTarget := max h2.holdTarget (liquidus s + 50) }
  if h3.estimate.isSome then evalFreeze s h3 else h3

/-- The record of a channel whose in-service flag has changed (R91). -/
def flagRecord (on : Bool) : ChannelRec :=
  { status := if on then .stale else .off, value := none, updatedAt := none }

/-- The in-service flags taken up: the channels whose flag a write has changed, each handed to its reader (R91). -/
def takeFlags (changed : List Chan) (s : State) : State :=
  changed.foldl (fun x ch => handUpdate ch (setChannel ch (flagRecord (inService x ch)) x)) s

/-- A dip that is SAMPLING ends SCAN_RESTART (R93, R99). -/
def endDipsForRestart (s : State) : State := endDip .b .scanRestart (endDip .a .scanRestart s)

/-- The scanner takes up changed in-service flags (R91, R93): the records, each handed to its reader, then the restart of the
sweep and the dips it ends. No rule orders the hand-over and the end of the dips: that the LEAK_WARN and COOLING of the
circuit that reads the channel take their serials before the DIP_FAILED of the dips is the model's choice (log 32). -/
def scannerTakesUp (old new : List Nat) (s : State) : State :=
  let changed := allChans.filter (fun ch => valueIn old (55 + chanNumber ch) != valueIn new (55 + chanNumber ch))
  if changed.isEmpty then s else endDipsForRestart (restartSweep (takeFlags changed s))

/-- The circuits that use a changed threshold or protection time are evaluated, and their overdue timers expire (R117). -/
def circuitTakesUp (old new : List Nat) (c : Circuit) (s : State) : State :=
  let uses := match c with
    | .cabinet => [34, 36, 38, 40, 44, 45, 46]
    | _ => [33, 35, 37, 39, 41, 42, 44, 45, 46]
  if anyChanged old new uses then expireOverdue c (evalCircuit c s) else s

/-- The loop takes up PRESS_LOW and STANDBY_SETTLE (R117). -/
def loopTakesUp (old new : List Nat) (s : State) : State :=
  let s1 := if anyChanged old new [43] then judgePressure s else s
  if anyChanged old new [47] ∧ standbySettle s1 * 1000 ≤ s1.prot.loop.settle.getD 0 then settleExpires s1 else s1

/-- Protection takes a write up (R117). -/
def protectionTakesUp (old new : List Nat) (s : State) : State :=
  loopTakesUp old new
    (circuitTakesUp old new .cabinet (circuitTakesUp old new .coilB (circuitTakesUp old new .coilA s)))

/-- A running timer of the permit at or past a limit in seconds. -/
def overdue (t : Option Nat) (limit : Nat) : Bool :=
  match t with
  | some ms => decide (limit * 1000 ≤ ms)
  | none => false

/-- The tap timers take a write up: one already at or past its new limit expires at once (R137). -/
def tapTakesUp (old new : List Nat) (s : State) : State :=
  match s.tap.permit with
  | none => s
  | some p =>
    if anyChanged old new [49] ∧ overdue p.confirm (tapConfirmTime s) then confirmExpires s
    else if anyChanged old new [48] ∧ overdue p.use (permitUseTime s) then useExpires s
    else if anyChanged old new [50] ∧ overdue p.tap (tapMaxTime s) then tapMaxExpires s
    else if anyChanged old new [51] ∧ overdue p.weightWait (weightWaitTime s) then weightWaitExpires s
    else s

/-- The working copy replaced. -/
def setWorking (w : List Nat) (s : State) : State := { s with sett := { s.sett with working := w } }

/-- A write that has changed at least one value, taken up by every block (R154, R137). -/
def takeUpWrite (q : Port) (n : Nat) (new : List Nat) (s : State) : State :=
  let old := s.sett.working
  let s1 := setWorking new s
  let s2 := post (.settings .written (some q) n (valueIn new n) (changedDependents old new n).length) s1
  let s3 := lowerMeltRequest .b (lowerMeltRequest .a s2)
  let s4 := reviseHeat .b (refitHeat s3 (valueIn old 19)) (reviseHeat .a (refitHeat s3 (valueIn old 19)) s3)
  let s5 := protectionTakesUp old new (scannerTakesUp old new s4)
  settleAll (askMatching (tapTakesUp old new s5))

/-- A write taken (R153, R154): one that changes no value starts nothing. -/
def writeSettingValue (q : Port) (n value : Nat) (s : State) : State :=
  let new := writeWorking s.sett.working (bathMasses s) n value
  if new = s.sett.working then s else takeUpWrite q n new s

/-! ### The settings channel (R155) -/

/-- A settings request from the owner restarts the idle timer, whatever its outcome. -/
def touchChannel (q : Port) (s : State) : State :=
  if s.sett.owner = some q then { s with sett := { s.sett with idle := some 0 } } else s

/-- The port takes the channel when it is NONE. -/
def takeChannel (q : Port) (s : State) : State :=
  if s.sett.owner = none then { s with sett := { s.sett with owner := some q, idle := some 0 } } else s

/-- The channel is owned by another port. -/
def heldByOther (q : Port) (s : State) : Bool :=
  match s.sett.owner with
  | some o => o != q
  | none => false

/-- The channel becomes NONE and its timer stops. -/
def freeChannel (s : State) : State := { s with sett := { s.sett with owner := none, idle := none } }

/-! ### The settings load (R157) -/

/-- A good block: read whole, not part written, and its check correct. -/
def goodBlock (acknowledged : Bool) (b : StoredBlock) : Bool :=
  acknowledged && !b.partWritten && b.check == crc16 (settingsBytes b.values)

/-- The values of a good block taken in table order, each clamped as the values before it stand (R157); a named value whose
stored code is above 1 is clamped to 1 like a number (log 17). -/
def loadValues (values : List Nat) (bath : PerFurnace Nat) : List Nat :=
  settingNumbers.foldl (fun w n => putValue w n (fitSetting w bath true n (valueIn values n))) Config.settingDefaults

/-- The number of values clamped (R157), a named value's stored code above 1 counted among them (log 17). -/
def clampedCount (values loaded : List Nat) : Nat :=
  (settingNumbers.filter (fun n => valueIn values n != valueIn loaded n)).length

/-- CAPACITY raised to the bath masses of the open heats (R157). -/
def raiseCapacities (bath : PerFurnace Nat) (w : List Nat) : List Nat :=
  putValue (putValue w 11 (max (valueIn w 11) bath.a)) 12 (max (valueIn w 12) bath.b)

/-- An open heat fitted to the settings as loaded (R157). -/
def fitHeat (s : State) (h : Heat) : Heat :=
  let h1 : Heat :=
    match h.estimate with
    | some e => if e < liquidus s then { h with estimate := some (liquidus s), accumulator := 0 } else h
    | none => h
  let h2 := { h1 with holdTarget := max h1.holdTarget (liquidus s + 50) }
  let h3 := if 100 ≤ h2.bathMass ∧ stepOf s h2 ≤ (h2.accumulator.natAbs : Int) then { h2 with accumulator := 0 } else h2
  if h3.estimate.isSome then evalFreeze s h3 else h3

/-- The catch-up of a furnace's heat (R37), with R10 and the stamps. A reset has cleared TAP_READY (R24), so no work in
the queue hangs on it, and FREEZE is posted afterwards (R42). -/
def catchUp (f : Furnace) (s : State) : State :=
  match heatOf s f with
  | none => s
  | some h =>
    let caught := catchUpHeat s f (now s - (s.heat.slots.get f).stamp) h
    stampFurnace f (setHeat f (restamp (now s) h (liquidEval s caught)) s)

/-- The FREEZE notice of a heat whose flag is set at the end of the load (R42). -/
def postFreeze (f : Furnace) (s : State) : State :=
  match heatOf s f with
  | some h => if h.freeze then post (.freeze f h.number) s else s
  | none => s

/-- The working copy filled from a good block, or from the defaults, with its SETTINGS notice (R157). -/
def fillWorking (good : Bool) (s : State) : State :=
  let bath := bathMasses s
  if good then
    let loaded := loadValues s.sett.block.values bath
    post (.settings .loaded none 0 0 (clampedCount s.sett.block.values loaded))
      (setWorking (raiseCapacities bath loaded) s)
  else post (.settings .defaults none 0 0 0) (setWorking (raiseCapacities bath Config.settingDefaults) s)

/-- The hold-reason set completed and the shop state derived when the load ends (R65). -/
def completeReasons (good : Bool) (s : State) : State :=
  let reasons : HoldReasons :=
    { s.shop.reasons with
      settingsDefault := !good
      afterLoss := !s.shop.reasons.coldStart && !afterLossAuto s }
  let held := reasons.coldStart || reasons.afterLoss || reasons.commission || reasons.settingsDefault
  let st : ShopState := if s.lines.breakerClosed then (if held then .held else .run) else .supplyOff
  setShop st .reset { s with shop := { s.shop with reasons := reasons } }

/-- The dip units set from their lance levels when the load ends (R101). -/
def setDipFromLevel (d : DipUnit) : DipUnit := { d with state := if d.level then .waitRelease else .idle }

/-- The scanner at the end of the load (R91, R93, R101). -/
def startScanner (s : State) : State :=
  let chans := s.scan.chans.mapChan (fun ch r => if inService s ch then r else flagRecord false)
  restartSweep { s with scan := { s.scan with chans := chans, dips := s.scan.dips.map setDipFromLevel } }

/-- The memory interface becomes IDLE. -/
def memoryIdle (s : State) : State := { s with sett := { s.sett with memory := .idle } }

/-- The end of the settings load (R157): the working copy, the heats fitted to it, and the end handed to every block
that waits for it. -/
def finishLoad (good : Bool) (s : State) : State :=
  let s1 := fillWorking good s
  let s2 := editHeat .b (fitHeat s1) (editHeat .a (fitHeat s1) s1)
  let s3 := completeReasons good (memoryIdle s2)
  let s4 := postFreeze .b (postFreeze .a (catchUp .b (catchUp .a s3)))
  settleAll (deriveLoop (evalCircuits (startScanner s4)))

end Sys2Proof.Machine
end

