-- ==== Sys2Proof/Machine/Answers.lean ====
section
/-! DEFINITION. The bodies of the read requests' answers (R22, R62, R74, R86, R100, R118, R138, R144, R147, R161). -/

namespace Sys2Proof.Machine

/-! ### Small items -/

/-- An optional one-byte item. -/
def opt1 (x : Option Nat) : List Byte := optBytes 1 (x.map be1)

/-- An optional two-byte item. -/
def opt2 (x : Option Nat) : List Byte := optBytes 2 (x.map be2)

/-- An optional four-byte item. -/
def opt4 (x : Option Nat) : List Byte := optBytes 4 (x.map be4)

/-- The twenty enables as three bytes (R161). -/
def enablesBytes (e : BitVec 20) : List Byte := be1 (e.toNat / 65536) ++ be2 e.toNat

/-- The time since a millisecond count. -/
def since (s : State) (t : Nat) : Nat := s.clock.ms - t

/-! ### QUERY-FURNACE (R144, R161) -/

/-- A charge entry on the wire: 7 bytes. -/
def chargeBytes (c : ChargeEntry) : List Byte := be1 (materialCode c.material) ++ be2 c.mass ++ be4 c.addedAt

/-- A tap record on the wire: 20 bytes. -/
def tapBytes (t : TapRecord) : List Byte :=
  be1 t.ordinal ++ be1 t.ladle ++ be1 t.requestId
    ++ be1 (tapFlags t.interrupted t.weightTimeout t.clamped t.forwardAt.isSome t.homeAt.isSome t.estimateAtForward.isSome)
    ++ be4 t.grantedAt ++ be4 (t.forwardAt.getD 0) ++ be4 (t.homeAt.getD 0) ++ be2 t.poured
    ++ be2 (t.estimateAtForward.getD 0)

/-- The flags byte of the heat body. -/
def heatFlags (h : Heat) : Nat :=
  h.freeze.toNat + 2 * h.massUncertain.toNat + 4 * h.estimate.isSome.toNat + 8 * h.lastDip.isSome.toNat
    + 16 * (isLiquid h.state).toNat

/-- The part of the heat body that follows slot state and STOPPED. -/
def heatFields (s : State) (f : Furnace) (h : Heat) : List Byte :=
  be2 h.number ++ be4 h.openedAt ++ be4 h.classStamp ++ be4 h.totalMelt ++ be4 h.remaining ++ be4i h.restateAdj
    ++ be2 h.bathMass ++ be2 (h.estimate.getD 0) ++ be4i h.accumulator
    ++ be2 ((h.lastDip.map Dip.temp).getD 0) ++ be4 ((h.lastDip.map Dip.second).getD 0)
    ++ be2 h.holdTarget ++ be1 (chemistryCode h.chemistry) ++ be1 (heatFlags h)
    ++ be4 h.delivered ++ be4 h.useful
    ++ be2 (if isLiquid h.state then holdDemand s f h else 0)
    ++ be1 h.charges.length ++ be1 h.taps.length ++ flagByte h.openTap.isSome
    ++ (h.charges.map chargeBytes).flatten ++ ((h.taps ++ h.openTap.toList).map tapBytes).flatten

/-- The heat body of a QUERY-FURNACE answer (R161). -/
def furnaceBody (s : State) (f : Furnace) : List Byte :=
  be1 (furnaceCode f) ++ be1 (slotCode (slotOf s f)) ++ flagByte (s.heat.slots.get f).stopped
    ++ (match heatOf s f with
        | some h => heatFields s f h
        | none => [])

/-! ### READ-LOG (R22) -/

/-- The summary body of a READ-LOG answer, with the number of the next newer summary (R161). -/
def summaryBody (x : Summary) (next : Nat) : List Byte :=
  be2 x.number ++ be1 (furnaceCode x.furnace) ++ be1 (closeReasonCode x.reason)
    ++ be1 (x.finalEstimate.isSome.toNat + 2 * x.lastDip.isSome.toNat) ++ be1 x.tapCount
    ++ be4 x.openedAt ++ be4 x.closedAt ++ be4 x.charged ++ be4 x.tapped ++ be2 x.heelOut
    ++ be4 x.delivered ++ be4 x.useful ++ be2 (x.finalEstimate.getD 0)
    ++ be2 ((x.lastDip.map Dip.temp).getD 0) ++ be4 ((x.lastDip.map Dip.second).getD 0) ++ be2 next

/-- The log from the summary named on: from the oldest for 0 (R22). -/
def logFrom (log : List Summary) (number : Nat) : List Summary :=
  if number = 0 then log else log.dropWhile (fun x => x.number != number)

/-! ### QUERY-QUEUE (R138) -/

/-- A queue entry with all its fields in the order of R120, then the seconds that remain to its deadline, an optional
item of its own (R138, log 13). -/
def entryBytes (s : State) (e : Entry) : List Byte :=
  be1 e.id ++ be1 e.ladle ++ be2 e.wanted ++ be2 e.low ++ be2 e.high ++ be1 (preferenceCode e.preference)
    ++ opt4 e.deadline ++ be1 e.assigned.isSome.toNat ++ opt1 (e.assigned.map furnaceCode) ++ be4 e.postedAt
    ++ opt4 (e.deadline.map (fun d => e.postedAt + d - now s))

/-- A permit timer's counted time in whole seconds, the unit of R124. -/
def timedSeconds (t : Option Nat) : Option Nat := t.map (fun ms => ms / 1000)

/-- The permit with each timer's counted time, in seconds (R124). Granted-at, forward-at and home-at and the timers are
each an optional item with a flags byte of its own (log 13). -/
def permitBytes (p : Permit) : List Byte :=
  be1 (permitStateCode p.state) ++ be1 (furnaceCode p.furnace) ++ be1 p.requestId ++ be4 p.pendingAt
    ++ opt4 (timedSeconds p.confirm) ++ opt4 p.grantedAt ++ opt4 (timedSeconds p.use) ++ opt4 p.forwardAt
    ++ opt4 p.homeAt ++ opt4 (timedSeconds p.tap) ++ opt4 (timedSeconds p.weightWait)
    ++ optBytes 3 (p.weight.map (fun w => be2 w.mass ++ flagByte w.clamped))

/-- The tilt state, the debounced levels, and UNPERMITTED_TILT of a furnace. R161 does not say whether items that a rule
names together are sent all for A and then all for B, or each for A and then for B: all of a furnace's together is the
model's choice (log 13). -/
def tiltBytes (s : State) (f : Furnace) : List Byte :=
  be1 (tiltCode (tiltOf s f)) ++ flagByte (s.tap.tilt.get f).home ++ flagByte (s.tap.tilt.get f).forward
    ++ flagByte (s.tap.unpermitted.get f)

/-- The QUERY-QUEUE body (R138). -/
def queueBody (s : State) : List Byte :=
  listBytes (s.tap.queue.map (entryBytes s)) ++ be1 s.tap.nextId ++ optBytes 46 (s.tap.permit.map permitBytes)
    ++ opt1 s.tap.lastEnded ++ opt1 (s.tap.kept.a.map reasonCode) ++ opt1 (s.tap.kept.b.map reasonCode)
    ++ tiltBytes s .a ++ tiltBytes s .b

/-! ### QUERY-PROTECTION (R118) -/

/-- A timer: stopped, running or held, with the time counted. -/
def timerBytes (t : Timer) : List Byte := be1 (timerModeCode t.mode) ++ be4 t.ms

/-- A circuit record (R118). The trip cause, which R118 gives when in TRIP, is one byte with the code none 0 of R160
outside TRIP, and no optional item with a flags byte of its own (log 13). -/
def circuitBytes (s : State) (c : Circuit) : List Byte :=
  let r := circuitOf s c
  be1 (circuitStateCode r.state) ++ flagByte r.hard ++ flagByte r.soft
    ++ (if c = .cabinet then [] else flagByte r.leakWarning)
    ++ timerBytes r.watch ++ timerBytes r.derate ++ timerBytes r.recovery
    ++ be1 (tripCauseCode (if r.state = .trip then r.cause else none)) ++ be4 r.enteredAt ++ flagByte r.latch

/-- The pressure code: neither 0, low 1, good 2 (R160). -/
def pressureCode (s : State) : Nat := if pressureLow s then 1 else if pressureGood s then 2 else 0

/-- The QUERY-PROTECTION body (R118). The loop's settle timer and pressure timer are each an optional four-byte item with
a flags byte of its own, absent while the timer does not run (log 13). -/
def protectionBody (s : State) : List Byte :=
  let l := s.prot.loop
  circuitBytes s .coilA ++ circuitBytes s .coilB ++ circuitBytes s .cabinet
    ++ be1 ((l.state.map loopStateCode).getD 0) ++ be1 (loopCauseCode l.cause) ++ be4 l.changedAt
    ++ flagByte l.standbyLatch ++ opt4 l.settle ++ opt4 l.pressure
    ++ flagByte s.lines.mainPumpRun ++ flagByte s.lines.standbyRun ++ flagByte s.standbyStart ++ be1 (pressureCode s)

/-! ### QUERY-CHANNELS (R100) -/

/-- A channel record. -/
def channelBytes (s : State) (ch : Chan) : List Byte :=
  let r := chanOf s ch
  be1 (chanStatusCode r.status) ++ opt2 r.value ++ opt4 (r.updatedAt.map (since s))

/-- A dip unit, its items together. The lowest and the highest of the window are optional items, absent for an empty
window (log 13). -/
def dipBytes (s : State) (f : Furnace) : List Byte :=
  let d := s.scan.dips.get f
  let held := !d.window.isEmpty
  be1 (dipStateCode d.state) ++ flagByte d.level
    ++ opt4 (if d.state = .sampling then some (since s d.startedAt) else none)
    ++ be1 d.samples ++ be1 d.openCount ++ be1 d.window.length
    ++ opt2 (if held then some (lowest d.window) else none) ++ opt2 (if held then some (highest d.window) else none)

/-- The QUERY-CHANNELS body (R100). The ordinary channel converted last is an optional item, absent after a reset or a
restart until one has been converted (log 13). -/
def channelsBody (s : State) : List Byte :=
  (allChans.map (channelBytes s)).flatten ++ be1 s.scan.unitCount ++ opt1 (s.scan.lastOrdinary.map chanNumber)
    ++ flagByte s.scan.running ++ dipBytes s .a ++ dipBytes s .b

/-! ### QUERY-ALLOTMENT (R62, R86) -/

/-- An allotment record, its items together (log 13). -/
def allotBytes (s : State) (f : Furnace) : List Byte :=
  let r := s.allot.out.get f
  be2 r.meltRequest ++ be2 r.request ++ be1 (classCode r.cls) ++ be2 r.cap ++ be1 (factorCode r.factor)
    ++ be2 r.grant ++ be2 r.reserve ++ be1 (modeCode r.mode) ++ opt1 r.duty ++ opt1 r.waitingDuty ++ be2 r.command
    ++ opt1 (r.phase.map phaseCode) ++ opt4 r.period

/-- One output of the last report, with the time since it was taken, its items together (log 13). -/
def reportBytes (s : State) (f : Furnace) : List Byte :=
  optBytes 7 (s.stage.last.map (fun r =>
    be2 (r.out.get f).delivered ++ be1 (statusCode (r.out.get f).status) ++ be4 (since s r.takenAt)))

/-- One output of the held pair, its items together (log 13). -/
def heldBytes (s : State) (f : Furnace) : List Byte :=
  let o := s.stage.held.get f
  be2 o.command ++ be1 (modeCode o.mode) ++ opt1 (o.phase.map phaseCode)

/-- The trip hold and the enable line of an output. That A's two items precede B's two, and not the two trip holds the two
enable lines, is the model's choice (log 13): R86 names the items together, and R161 does not say which of the two is
meant. -/
def holdBytes (s : State) (f : Furnace) : List Byte :=
  flagByte (s.stage.tripHold.get f) ++ flagByte (s.outputEnable f)

/-- The QUERY-ALLOTMENT body: the items of R62, then those of R86. The time since the last completed SETPOINT is sent as
an optional item, absent until one has completed, which R86 does not say (log 13). Where R62 and R86
name several items for each output together, all of A's are sent and then all of B's, which R161 leaves open (log 13). -/
def allotmentBody (s : State) : List Byte :=
  allotBytes s .a ++ allotBytes s .b
    ++ flagByte s.heat.slots.a.stopped ++ flagByte s.heat.slots.b.stopped ++ be1 (furnaceCode s.allot.priority)
    ++ flagByte s.allot.shed ++ be2 s.allot.ceiling ++ be2 s.allot.budget
    ++ be1 (linkStateCode s.stage.link) ++ reportBytes s .a ++ reportBytes s .b ++ heldBytes s .a ++ heldBytes s .b
    ++ holdBytes s .a ++ holdBytes s .b ++ be1 (maskCode s.stage.pendingTrip)
    ++ opt4 (s.stage.lastSetpointAt.map (since s))

/-! ### QUERY-SHOP (R74) -/

/-- A Deck Off monitor: the level and, while it is active, the hold timer, together for each deck (log 13). -/
def deckBytes (d : DeckOff) : List Byte := flagByte d.level ++ opt4 (if d.level then d.timer else none)

/-- The QUERY-SHOP body (R74). -/
def shopBody (s : State) : List Byte :=
  be1 (shopStateCode s.shop.state) ++ be1 (holdReasonsCode s.shop.reasons) ++ flagByte (!loading s)
    ++ be1 (setting s 52) ++ be1 (setting s 53) ++ be1 (setting s 54) ++ flagByte s.shop.strap
    ++ deckBytes s.shop.decks.a ++ deckBytes s.shop.decks.b
    ++ flagByte s.heat.slots.a.stopped ++ flagByte s.heat.slots.b.stopped
    ++ flagByte s.shop.breakerTrip ++ flagByte s.lines.breakerClosed ++ flagByte s.shop.stuck ++ flagByte s.allot.shed

/-! ### READ-NOTICES (R147) -/

/-- The READ-NOTICES body: the enables, then every pending entry, oldest serial first (R147, R161). -/
def noticesBody (r : PortRec) : List Byte := enablesBytes r.enables ++ listBytes (r.notices.map Notice.bytes)

end Sys2Proof.Machine
end

