-- ==== Sys2Proof/Machine/Requests.lean ====
section
/-! DEFINITION. What the owning block does with each request kind (R142, case 5), one definition a kind. -/

namespace Sys2Proof.Machine

/-- A deck request acts on the furnace of the port it arrives on (R143). -/
def onDeck (q : Port) (g : Furnace → State → State × Reply) (s : State) : State × Reply :=
  match portFurnace q with
  | some f => g f s
  | none => (s, replyRefused .notPermitted)

/-- A request that changes nothing. -/
def refuse (r : Reason) (s : State) : State × Reply := (s, replyRefused r)

/-! ### Heat and furnace -/

/-- A mass given by a station below 50 kg is raised to 50 kg (R3). -/
def raiseMass (mass : Nat) : Nat := max 50 mass

/-- OPEN-HEAT taken in an EMPTY slot (R8). -/
def openTaken (f : Furnace) (m : Material) (mass : Nat) (s : State) : State × Reply :=
  let stored := raiseMass mass
  if capacity s f < stored then refuse .overCapacity s
  else
    let h := freshHeat s f .melting m stored (stored * meltEnergy s m)
    (settleHeat f (stampFurnace f (openHeat f h s)), replyTaken (stored != mass) (be2 h.number ++ be2 stored))

/-- OPEN-HEAT (R8). -/
def handleOpenHeat (q : Port) (body : List Byte) : State → State × Reply :=
  onDeck q fun f s =>
    match slotOf s f with
    | .empty =>
      match materialOf (field body 0 1) with
      | some m => openTaken f m (field body 1 2) s
      | none => refuse .badKind s
    | _ => refuse .wrongState s

/-- The state of a furnace's heat as an answer carries it. -/
def stateByte (s : State) (f : Furnace) : List Byte := be1 (slotCode (slotOf s f))

/-- ADD-CHARGE taken (R14): a TAP_READY heat that the charge leaves liquid moves to HOLDING (R11, log 14). -/
def chargeTaken (f : Furnace) (h : Heat) (m : Material) (mass : Nat) (s : State) : State × Reply :=
  let stored := raiseMass mass
  if capacity s f < h.bathMass + stored then refuse .overCapacity s
  else
    let charged := chargeHeat s m stored h
    let s1 :=
      if h.state = .tapReady ∧ charged.state = .holding then post (.readyChanged f h.number .holding) s else s
    let s2 := settleHeat f (reviseHeat f (chargeHeat s m stored) s1)
    (s2, replyTaken (stored != mass) (be2 stored ++ be2 (bathMassOf s2 f) ++ stateByte s2 f))

/-- ADD-CHARGE (R14). -/
def handleAddCharge (q : Port) (body : List Byte) : State → State × Reply :=
  onDeck q fun f s =>
    match heatOf s f with
    | none => refuse .wrongState s
    | some h =>
      if h.state = .tapping then refuse .wrongState s
      else
        match materialOf (field body 0 1) with
        | none => refuse .badKind s
        | some m =>
          if Config.chargeMax ≤ h.charges.length then refuse .listFull s else chargeTaken f h m (field body 1 2) s

/-- SET-MELT-POWER (R46). -/
def handleSetMeltPower (q : Port) (body : List Byte) : State → State × Reply :=
  onDeck q fun f s =>
    match heatOf s f with
    | none => refuse .wrongState s
    | some _ =>
      let sent := field body 0 2
      let stored := min (floor10 sent) (floor10 (outputMax s f))
      (recompute (setMeltRequest f stored s),
        replyTaken (stored != sent) (if stored = sent then [] else be2 stored))

/-- SET-HOLD-TARGET (R15). While the shop is not BANKED the new target is the target in force, R10 runs on it, and the hold
demand is computed again from it (R40), so that the next estimator second and every later one finds the demand following it
(log 26). -/
def handleSetHoldTarget (q : Port) (body : List Byte) : State → State × Reply :=
  onDeck q fun f s =>
    match heatOf s f with
    | none => refuse .wrongState s
    | some _ =>
      let sent := field body 0 2
      let stored := clampTo (liquidus s + 50) 1600 sent
      (settleHeat f (reviseHeat f (fun h => { h with holdTarget := stored }) s),
        replyTaken (stored != sent) (if stored = sent then [] else be2 stored))

/-- SET-CHEMISTRY (R16). -/
def handleSetChemistry (q : Port) (body : List Byte) : State → State × Reply :=
  onDeck q fun f s =>
    match heatOf s f with
    | none => refuse .wrongState s
    | some _ =>
      match chemistryOf (field body 0 1) with
      | none => refuse .badKind s
      | some c => (settleHeat f (editHeat f (fun h => { h with chemistry := c }) s), replyDone [])

/-- CLOSE-HEAT taken (R17, R18): the successor opens on a bath mass above 0. -/
def closeTaken (f : Furnace) (h : Heat) (s : State) : State × Reply :=
  let s1 := closeHeat f h .closed s
  if h.bathMass = 0 then (settleHeat f s1, replyDone (be2 h.number ++ be2 0))
  else
    let next := successorOf s1 f h
    (settleHeat f (evalLiquid f (openHeat f next s1)), replyDone (be2 h.number ++ be2 next.number))

/-- CLOSE-HEAT (R17). -/
def handleCloseHeat (q : Port) (_body : List Byte) : State → State × Reply :=
  onDeck q fun f s =>
    match heatOf s f with
    | none => refuse .wrongState s
    | some h => if h.state = .tapping then refuse .wrongState s else closeTaken f h s

/-- RESTATE of an UNKNOWN slot (R19). -/
def restateUnknown (f : Furnace) (mass : Nat) (s : State) : State × Reply :=
  let stored := min mass (capacity s f)
  let clamped : List Byte := if stored = mass then [] else be2 stored
  if stored = 0 then (settleHeat f (setSlot f .empty s), replyTaken (stored != mass) (clamped ++ be2 0))
  else
    let h := freshHeat s f .superheat .heel stored 0
    (settleHeat f (stampFurnace f (openHeat f h s)), replyTaken (stored != mass) (clamped ++ be2 h.number))

/-- A liquid heat restated to a bath mass above 0 (R20, R34). -/
def restateHeat (mass : Nat) (h : Heat) : Heat :=
  { h with
    restateAdj := (mass : Int) - (chargedMass h : Int) + (tappedMass h : Int)
    bathMass := mass
    accumulator := scaleAccumulator h.accumulator h.bathMass mass
    massUncertain := false }

/-- RESTATE of a liquid heat (R20). -/
def restateLiquid (f : Furnace) (h : Heat) (mass : Nat) (s : State) : State × Reply :=
  let stored := min mass (capacity s f)
  let s1 := if stored = 0 then closeHeat f h .lost s else setHeat f (restateHeat stored h) s
  (settleHeat f s1, replyTaken (stored != mass) (be2 stored))

/-- RESTATE (R19, R20). -/
def handleRestate (q : Port) (body : List Byte) : State → State × Reply :=
  onDeck q fun f s =>
    match slotOf s f with
    | .empty => refuse .wrongState s
    | .unknown => restateUnknown f (field body 0 2) s
    | .heat h =>
      if h.state = .melting ∨ h.state = .tapping then refuse .wrongState s
      else restateLiquid f h (field body 0 2) s

/-- The STOPPED flag of a furnace slot replaced. -/
def setStopped (f : Furnace) (b : Bool) (s : State) : State :=
  setFurnaceSlot f { s.heat.slots.get f with stopped := b } s

/-- FURNACE-ON (R61). -/
def handleFurnaceOn (q : Port) (_body : List Byte) : State → State × Reply :=
  onDeck q fun f s => (recompute (setStopped f false s), replyDone [])

/-- A pending permit recorded (R125): both kept resolutions are removed. -/
def recordPending (f : Furnace) (e : Entry) (s : State) : State :=
  setKept .a none (setKept .b none
    (setPermit
      (some { state := .pending, furnace := f, requestId := e.id, pendingAt := now s, confirm := some 0,
              grantedAt := none, use := none, forwardAt := none, homeAt := none, tap := none, weightWait := none,
              weight := none, longPosted := false }) s))

/-- TAP-OPEN (R125, R128). -/
def handleTapOpen (q : Port) (_body : List Byte) : State → State × Reply :=
  onDeck q fun f s =>
    match s.tap.permit with
    | some p =>
      if p.furnace = f then
        match p.state with
        | .pending => (s, replyPending)
        | .granted => (s, replyDone [])
      else (s, replyRetry .permitBusy)
    | none =>
      match s.tap.kept.get f with
      | some r => (setKept f none s, replyRefused r)
      | none =>
        match assignedTo s f with
        | some e => (recompute (recordPending f e s), replyPending)
        | none => refuse .notReady s

/-! ### Deck-wide -/

/-- TRIP-RESET taken (R111). -/
def resetTaken (c : Circuit) (s : State) : State :=
  enterNormal c (setCircuitRec c { circuitOf s c with latch := false, cause := none } s)

/-- TRIP-RESET (R111). Of the CONDITION_PRESENT byte the bits it does not name, MAIN_PUMP_RUN and the pressure, are sent
as 0 (log 13). -/
def handleTripReset (_q : Port) (body : List Byte) (s : State) : State × Reply :=
  match circuitNamed (field body 0 1) with
  | none => refuse .badKind s
  | some c =>
    let hard := (hardCause s c).isSome
    let soft := softCond s c
    let loopFail := s.prot.loop.state == some .loopFail
    if (circuitOf s c).state ≠ .trip then refuse .wrongState s
    else if allValid s c = true ∧ hard = false ∧ soft = false ∧ loopFail = false then
      (protect (resetTaken c) s, replyDone [])
    else (s, replyConditions hard soft loopFail false false)

/-- No hold reason. -/
def noReasons : HoldReasons := { coldStart := false, afterLoss := false, commission := false, settingsDefault := false }

/-- RESUME (R67): the answer carries the set as it stood. -/
def handleResume (_q : Port) (_body : List Byte) (s : State) : State × Reply :=
  if s.shop.state = .held then
    (settleAll (setShop .run .resume { s with shop := { s.shop with reasons := noReasons } }),
      replyDone (be1 (holdReasonsCode s.shop.reasons)))
  else refuse .wrongState s

/-- LINK-RESTART (R84). -/
def handleLinkRestart (_q : Port) (_body : List Byte) (s : State) : State × Reply :=
  if s.stage.link = .fault then
    (recompute (setLink .down .restart { s with stage := { s.stage with babble := [] } }), replyDone [])
  else refuse .wrongState s

/-- PUMP-RETURN (R115). Of the CONDITION_PRESENT byte the bits it does not name, HARD, SOFT and LOOP_FAIL, are sent as 0,
in LOOP_FAIL too (log 13). -/
def handlePumpReturn (_q : Port) (_body : List Byte) (s : State) : State × Reply :=
  let main := s.lines.mainPumpRun
  let good := pressureGood s
  match s.prot.loop.state with
  | some .standby =>
    if main then (protect returnToMain s, replyDone []) else (s, replyConditions false false false main good)
  | some .loopFail =>
    if main && good then (protect returnToMain s, replyDone []) else (s, replyConditions false false false main good)
  | _ => refuse .wrongState s

/-! ### Pour Line -/

/-- A window brought into range (R121). -/
def clampWindow (low high : Nat) : Nat × Nat :=
  let lo := clampTo 1250 1600 low
  let hi := clampTo 1250 1600 high
  if lo + 10 ≤ hi then (lo, hi) else if lo + 10 ≤ 1600 then (lo, lo + 10) else (1590, 1600)

/-- The request id after an id: 255 is followed by 1 (R121). -/
def idAfter (n : Nat) : Nat := if 255 ≤ n then 1 else n + 1

/-- The first id not to be avoided from an id on; at most 9 are avoided (R121). -/
def freeId (avoid : List Nat) : Nat → Nat → Nat
  | 0, n => n
  | fuel + 1, n => if avoid.contains n then freeId avoid fuel (idAfter n) else n

/-- The request id a new entry takes (R121). -/
def takeId (s : State) : Nat := freeId (s.tap.queue.map Entry.id ++ s.tap.lastEnded.toList) 9 s.tap.nextId

/-- The entry a POST-TAP stores, its values brought into range (R121). -/
def newEntry (s : State) (pref : Preference) (body : List Byte) : Entry :=
  let window := clampWindow (field body 3 2) (field body 5 2)
  { id := takeId s, ladle := field body 0 1, wanted := clampTo 100 3000 (field body 1 2), low := window.1,
    high := window.2, preference := pref,
    deadline := if body.length = 10 then some (clampTo 60 3600 (field body 8 2)) else none,
    assigned := none, postedAt := now s }

/-- A value of the request was changed (R121). -/
def entryClamped (e : Entry) (body : List Byte) : Bool :=
  e.wanted != field body 1 2 || e.low != field body 3 2 || e.high != field body 5 2
    || (match e.deadline with
        | some d => d != field body 8 2
        | none => false)

/-- The entry appended, and its id stepped past (R121). -/
def appendEntry (e : Entry) (s : State) : State :=
  askMatching { s with tap := { s.tap with queue := s.tap.queue ++ [e], nextId := idAfter e.id } }

/-- POST-TAP as a wake cause (R70). -/
def wakeOnPostTap (s : State) : State :=
  if s.shop.state = .banked ∧ wakeOnPost s = true then settleAll (setShop .run .postTap s) else recompute s

/-- The stored values an answer to POST-TAP carries, after the request id. -/
def storedBytes (e : Entry) : List Byte := be1 e.id ++ be2 e.wanted ++ be2 e.low ++ be2 e.high ++ opt4 e.deadline

/-- POST-TAP (R121). -/
def handlePostTap (_q : Port) (body : List Byte) (s : State) : State × Reply :=
  let ladle := field body 0 1
  match preferenceNamed (field body 7 1) with
  | none => refuse .badKind s
  | some pref =>
    if ladle < 1 ∨ 63 < ladle then refuse .badKind s
    else if s.tap.queue.any (fun e => e.ladle == ladle) then refuse .duplicateLadle s
    else if Config.queueMax ≤ s.tap.queue.length then refuse .queueFull s
    else
      let e := newEntry s pref body
      (wakeOnPostTap (appendEntry e s), replyTaken (entryClamped e body) (storedBytes e))

/-- The permit that carries a request id. -/
def permitOfEntry (s : State) (id : Nat) : Option Permit :=
  match s.tap.permit with
  | some p => if p.requestId = id then some p else none
  | none => none

/-- CANCEL-TAP (R135). -/
def handleCancelTap (_q : Port) (body : List Byte) (s : State) : State × Reply :=
  let id := field body 0 1
  match entryOf s id with
  | none => refuse .noSuchEntry s
  | some _ =>
    match permitOfEntry s id with
    | none => (recompute (removeEntry id s), replyDone [])
    | some p =>
      match p.state with
      | .pending => (recompute (refusePermit p .cancelled true s), replyDone [])
      | .granted => refuse .tooLate s

/-- A weight stored under a granted permit with forward-at recorded; with the tilt HOME the tap completes before the
answer, which then carries the new bath mass (R133). -/
def weightTaken (p : Permit) (mass : Nat) (s : State) : State × Reply :=
  let bath := bathMassOf s p.furnace
  let w : Weight := { mass := min mass bath, clamped := decide (bath < mass) }
  let p1 := { p with weight := some w }
  let s1 := setPermit (some p1) s
  let stored : List Byte := if w.clamped then be2 w.mass else []
  if tiltOf s p.furnace = .home then
    let s2 := completeTap p1 w.mass w.clamped false s1
    (s2, replyTaken w.clamped (stored ++ be2 (bathMassOf s2 p.furnace)))
  else (s1, replyTaken w.clamped stored)

/-- TAP-WEIGHT (R133). -/
def handleTapWeight (_q : Port) (body : List Byte) (s : State) : State × Reply :=
  let id := field body 0 1
  match s.tap.permit with
  | some p =>
    if p.state = .granted ∧ p.requestId = id then
      if p.forwardAt.isSome then weightTaken p (field body 1 2) s else refuse .wrongState s
    else if s.tap.lastEnded = some id then refuse .tooLate s
    else if (entryOf s id).isSome then refuse .wrongState s
    else refuse .noSuchEntry s
  | none =>
    if s.tap.lastEnded = some id then refuse .tooLate s
    else if (entryOf s id).isSome then refuse .wrongState s
    else refuse .noSuchEntry s

/-! ### Shop -/

/-- BANK (R68). -/
def handleBank (_q : Port) (_body : List Byte) (s : State) : State × Reply :=
  match s.shop.state with
  | .run => if s.tap.permit.isSome then refuse .wrongState s else (settleAll (setShop .banked .bank s), replyDone [])
  | .banked => (s, replyDone [])
  | .held | .supplyOff => refuse .wrongState s

/-- WAKE (R70). -/
def handleWake (_q : Port) (_body : List Byte) (s : State) : State × Reply :=
  match s.shop.state with
  | .banked => (settleAll (setShop .run .wake s), replyDone [])
  | .run => (s, replyDone [])
  | .held | .supplyOff => refuse .wrongState s

/-! ### Settings -/

/-- READ-SETTING (R156). -/
def handleReadSetting (q : Port) (body : List Byte) (s : State) : State × Reply :=
  let n := field body 0 1
  if isSetting n then
    let r := rangeOf s.sett.working (bathMasses s) false n
    (touchChannel q s,
      replyDone (be2 (setting s n) ++ be2 r.1 ++ be2 r.2 ++ be2 (valueIn Config.settingDefaults n)))
  else (touchChannel q s, replyRefused .badKind)

/-- The list of other settings a write has changed, each with its new value (R153). R161 gives no width for a setting number
in a list: that an entry is the number in one byte and then the value in two is the model's choice (log 13). -/
def changedBytes (old new : List Nat) (n : Nat) : List Byte :=
  listBytes ((changedDependents old new n).map (fun m => be1 m ++ be2 (valueIn new m)))

/-- A WRITE-SETTING taken (R153). -/
def writeTaken (q : Port) (n value : Nat) (s : State) : State × Reply :=
  let new := writeWorking s.sett.working (bathMasses s) n value
  let stored := valueIn new n
  (writeSettingValue q n value (takeChannel q s),
    replyTaken (stored != value) ((if stored = value then [] else be2 stored) ++ changedBytes s.sett.working new n))

/-- WRITE-SETTING (R153, R155). -/
def handleWriteSetting (q : Port) (body : List Byte) (s : State) : State × Reply :=
  let n := field body 0 1
  let value := field body 1 2
  let s1 := touchChannel q s
  if isSetting n = false ∨ acceptsValue n value = false then (s1, replyRefused .badKind)
  else if s.sett.memory = .saving then (s1, replyRetry .saving)
  else if heldByOther q s then (s1, replyRetry .channelHeld)
  else writeTaken q n value s1

/-- SAVE-SETTINGS (R158). -/
def handleSaveSettings (q : Port) (_body : List Byte) (s : State) : State × Reply :=
  let s1 := touchChannel q s
  if s.sett.memory = .saving then (s1, replyRetry .saving)
  else if heldByOther q s then (s1, replyRetry .channelHeld)
  else
    let s2 := takeChannel q s1
    ({ s2 with sett := { s2.sett with memory := .saving } }, replyDone [])

/-- RELEASE-CHANNEL (R155). -/
def handleReleaseChannel (q : Port) (_body : List Byte) (s : State) : State × Reply :=
  if s.sett.owner = some q then (freeChannel s, replyDone []) else refuse .notOwner s

/-! ### Reads -/

/-- QUERY-FURNACE (R144). -/
def handleQueryFurnace (_q : Port) (body : List Byte) (s : State) : State × Reply :=
  match furnaceNamed (field body 0 1) with
  | some f => (s, replyDone (furnaceBody s f))
  | none => refuse .badKind s

/-- READ-LOG (R22). -/
def handleReadLog (_q : Port) (body : List Byte) (s : State) : State × Reply :=
  match logFrom s.heat.log (field body 0 2) with
  | x :: newer => (s, replyDone (summaryBody x ((newer.head?.map Summary.number).getD 0)))
  | [] => refuse .noSuchEntry s

/-- QUERY-QUEUE (R138). -/
def handleQueryQueue (_q : Port) (_body : List Byte) (s : State) : State × Reply := (s, replyDone (queueBody s))

/-- QUERY-PROTECTION (R118). -/
def handleQueryProtection (_q : Port) (_body : List Byte) (s : State) : State × Reply :=
  (s, replyDone (protectionBody s))

/-- QUERY-CHANNELS (R100). -/
def handleQueryChannels (_q : Port) (_body : List Byte) (s : State) : State × Reply := (s, replyDone (channelsBody s))

/-- QUERY-ALLOTMENT (R62, R86). -/
def handleQueryAllotment (_q : Port) (_body : List Byte) (s : State) : State × Reply :=
  (s, replyDone (allotmentBody s))

/-- QUERY-SHOP (R74). -/
def handleQueryShop (_q : Port) (_body : List Byte) (s : State) : State × Reply := (s, replyDone (shopBody s))

/-! ### Notices -/

/-- READ-NOTICES (R147). -/
def handleReadNotices (q : Port) (_body : List Byte) (s : State) : State × Reply :=
  (s, replyDone (noticesBody (s.ports.get q)))

/-- An acknowledgement of one kind (R148): the serial pending for the kind, and whether it is cleared. -/
def pendingSerial (r : PortRec) (k : NoticeKind) : Option Nat :=
  (r.notices.find? (fun n => n.detail.kind == k)).map Notice.serial

/-- The entry of a kind cleared. -/
def PortRec.clear (k : NoticeKind) (r : PortRec) : PortRec :=
  { r with notices := r.notices.filter (fun n => n.detail.kind != k) }

/-- The furnace a level notice about two furnaces carries when it is posted again: the other one when both stand (R110,
R130). -/
def otherStanding (cond : PerFurnace Bool) (carried : Option Furnace) : Option Furnace :=
  match cond.a, cond.b with
  | true, true => some (match carried with
      | some f => otherFurnace f
      | none => .b)
  | true, false => some .a
  | false, true => some .b
  | false, false => none

/-- FREEZE posted again to a deck whose heat has the flag (R32, R146). -/
def repostFreeze (q : Port) (s : State) : State :=
  match (portFurnace q).bind (heatOf s) with
  | some h => if h.freeze then postTo q (.freeze (if q = .b then .b else .a) h.number) s else s
  | none => s

/-- COOLING posted again while any circuit is not NORMAL (R116). -/
def repostCooling (q : Port) (s : State) : State :=
  if s.prot.circuits.coilA.state = .normal ∧ s.prot.circuits.coilB.state = .normal
      ∧ s.prot.circuits.cabinet.state = .normal then s
  else postTo q (coolingDetail s) s

/-- LEAK_WARN posted again while a warning stands (R110). -/
def repostLeak (q : Port) (s : State) : State :=
  match otherStanding (leakStands s) (s.prot.leakCarried.get q) with
  | some f =>
    postTo q (leakDetail s f)
      { s with prot := { s.prot with leakCarried := s.prot.leakCarried.set q (some f) } }
  | none => s

/-- UNPERMITTED_TILT posted again while the condition stands (R130). -/
def repostTilt (q : Port) (s : State) : State :=
  match otherStanding s.tap.unpermitted ((s.tap.tiltCarried.get q).map TiltDetail.furnace) with
  | some f =>
    postTo q (.unpermittedTilt (tiltDetail s f))
      { s with tap := { s.tap with tiltCarried := s.tap.tiltCarried.set q (some (tiltDetail s f)) } }
  | none => s

/-- BREAKER_STUCK posted again while it stands (R73). -/
def repostStuck (q : Port) (s : State) : State := if s.shop.stuck then postTo q .breakerStuck s else s

/-- A level kind cleared while its condition holds is posted again at once (R146, R148). -/
def repostKind (q : Port) (k : NoticeKind) (s : State) : State :=
  match k with
  | .freeze => repostFreeze q s
  | .cooling => repostCooling q s
  | .leakWarn => repostLeak q s
  | .unpermittedTilt => repostTilt q s
  | .breakerStuck => repostStuck q s
  | .tapCall | .permitResolved | .permitWithdrawn | .tapDone | .tapLong | .entryExpired | .readyChanged
  | .heatClosed | .dipResult | .dipFailed | .pumpChangeover | .link | .shopState | .deckOff | .settings => s

/-- The clearing of the kinds named, in order (R148): the record, the kinds kept, and the kinds cleared. R148 and R161 give
the entries of the list of kinds kept no order: that they stand in the order in which the request names them is the model's
choice (log 30). A kind named twice is treated at each naming on the record the earlier one left (log 30). -/
def clearKinds (r : PortRec) : List (NoticeKind × Nat) → PortRec × List NoticeKind × List NoticeKind
  | [] => (r, [], [])
  | (k, serial) :: rest =>
    match pendingSerial r k with
    | none => clearKinds r rest
    | some present =>
      if serial = 0 ∨ serial = present then
        let x := clearKinds (r.clear k) rest
        (x.1, x.2.1, k :: x.2.2)
      else
        let x := clearKinds r rest
        (x.1, k :: x.2.1, x.2.2)

/-- The kinds of a list that are pending at a port, each with its serial, as an answer lists them (R148). -/
def kindBytes (r : PortRec) (kinds : List NoticeKind) : List Byte :=
  listBytes (kinds.filterMap (fun k => (pendingSerial r k).map (fun n => be1 k.code ++ be2 n)))

/-- ACK-NOTICES taken (R148): the clearing, the level kinds posted again in the order in which the request names them
(log 30), and the gap of R150. The answer lists the kinds kept and then those posted again (log 13), each list in the order
in which the request names its kinds, which R148 and R161 leave open (log 30). -/
def ackTaken (q : Port) (kinds : List (NoticeKind × Nat)) (s : State) : State × Reply :=
  let x := clearKinds (s.ports.get q) kinds
  let s1 := x.2.2.foldl (fun t k => repostKind q k t) (setPort q x.1 s)
  let r := s1.ports.get q
  (setPort q { r with gap := some 0 } s1, replyDone (kindBytes r x.2.1 ++ kindBytes r x.2.2))

/-- The kinds and serials named, when every code is a notice kind's. -/
def ackNamed (body : List Byte) : Option (List (NoticeKind × Nat)) :=
  (ackPairs body).mapM (fun p => (NoticeKind.ofCode p.1).map (fun k => (k, p.2)))

/-- ACK-NOTICES (R148). R148 gives a code that is no notice kind REFUSED(BAD_KIND) and a gap that runs RETRY(BUSY), and no
order for a request with both: that BAD_KIND is answered is the model's choice (log 30). -/
def handleAckNotices (q : Port) (body : List Byte) (s : State) : State × Reply :=
  match ackNamed body with
  | none => refuse .badKind s
  | some kinds => if (s.ports.get q).gap.isSome then (s, replyRetry .busy) else ackTaken q kinds s

/-- SET-NOTICE-ENABLES (R149). The four spare bits of the three bytes are ignored, and answered as 0 (log 30). -/
def handleSetNoticeEnables (q : Port) (body : List Byte) (s : State) : State × Reply :=
  let enables := BitVec.ofNat 20 (field body 0 3)
  (setPort q { s.ports.get q with enables := enables } s, replyDone (enablesBytes enables))

end Sys2Proof.Machine
end

