-- ==== Sys2Proof/Machine/Ports.lean ====
section
/-! DEFINITION. The Station Ports: taking a request (R142), frames assembled from their bytes and answers going out
(R141), and the meaning of each request command. -/

namespace Sys2Proof.Machine

/-! ### Taking a request -/

/-- The owning block's handling of a request (R142, case 5; R143 names the owners). -/
def handle (k : RequestKind) (q : Port) (body : List Byte) (s : State) : State × Reply :=
  match k with
  | .openHeat => handleOpenHeat q body s
  | .addCharge => handleAddCharge q body s
  | .setMeltPower => handleSetMeltPower q body s
  | .setHoldTarget => handleSetHoldTarget q body s
  | .setChemistry => handleSetChemistry q body s
  | .closeHeat => handleCloseHeat q body s
  | .restate => handleRestate q body s
  | .furnaceOn => handleFurnaceOn q body s
  | .tapOpen => handleTapOpen q body s
  | .tripReset => handleTripReset q body s
  | .resume => handleResume q body s
  | .linkRestart => handleLinkRestart q body s
  | .pumpReturn => handlePumpReturn q body s
  | .postTap => handlePostTap q body s
  | .cancelTap => handleCancelTap q body s
  | .tapWeight => handleTapWeight q body s
  | .bank => handleBank q body s
  | .wake => handleWake q body s
  | .readSetting => handleReadSetting q body s
  | .writeSetting => handleWriteSetting q body s
  | .saveSettings => handleSaveSettings q body s
  | .releaseChannel => handleReleaseChannel q body s
  | .queryFurnace => handleQueryFurnace q body s
  | .queryQueue => handleQueryQueue q body s
  | .queryProtection => handleQueryProtection q body s
  | .queryChannels => handleQueryChannels q body s
  | .queryAllotment => handleQueryAllotment q body s
  | .queryShop => handleQueryShop q body s
  | .readLog => handleReadLog q body s
  | .readNotices => handleReadNotices q body s
  | .ackNotices => handleAckNotices q body s
  | .setNoticeEnables => handleSetNoticeEnables q body s

/-- The answer to a request and the state it leaves: the first of the five cases of R142 that applies. -/
def answerTo (q : Port) (fr : Frame) (s : State) : State × Reply :=
  if loading s then (s, replyRetry .loading)
  else
    match RequestKind.ofCode fr.kind.toNat with
    | none => refuse .badKind s
    | some k =>
      if k.lengthOk fr.body.length = false then refuse .badLength s
      else if permitted k q fr.body = false then refuse .notPermitted s
      else handle k q fr.body s

/-- A frame becomes the request in hand and is taken; its answer goes out (R141, R142). -/
def take (q : Port) (fr : Frame) (s : State) : State :=
  let x := answerTo q fr s
  setPort q { x.1.ports.get q with inHand := some fr, answer := some x.2 } x.1

/-- A complete frame with a correct check arrives on a port (R141): taken, put in the buffer, or discarded. -/
def arrive (q : Port) (fr : Frame) (s : State) : State :=
  let r := { s.ports.get q with assembly := [] }
  let s1 := setPort q r s
  match r.inHand with
  | none => take q fr s1
  | some _ =>
    match r.buffer with
    | none => setPort q { r with buffer := some fr } s1
    | some _ => s1

/-- The assembly of a port emptied (R141). -/
def dropAssembly (q : Port) (s : State) : State := setPort q { s.ports.get q with assembly := [] } s

/-! ### Assembling a request frame -/

/-- A length byte that a request frame can carry (R161). -/
def lenCarried (len : Byte) : Bool := 2 ≤ len.toNat && len.toNat ≤ 50

/-- An assembly after one more byte: while it is empty the start byte starts a frame and any other byte is dropped; a LEN
that no frame can carry empties it; a later byte is added (R141, R161, R162). -/
def gatherFrom (start : Byte) (carried : Byte → Bool) (assembly : List Byte) (b : Byte) : List Byte :=
  match assembly with
  | [] => if b = start then [b] else []
  | [first] => if carried b then [first, b] else []
  | gathered => gathered ++ [b]

/-- The assembly of a port after one more byte (R141, R161). -/
def gatherByte (assembly : List Byte) (b : Byte) : List Byte := gatherFrom 0xA5#8 lenCarried assembly b

/-- The assembly is as long as its length byte says: start byte, LEN, that many bytes, two check bytes (R141, R161). -/
def assembled : List Byte → Bool
  | _ :: len :: rest => rest.length == len.toNat + 2
  | _ => false

/-- The last two bytes of a complete frame are the check over LEN through the last byte of BODY (R161). -/
def checkCorrect (bytes : List Byte) : Bool :=
  bytes.drop (bytes.length - 2) == checkBytes ((bytes.drop 1).take (bytes.length - 3))

/-- The frame that a complete assembly holds (R161). -/
def frameOf (bytes : List Byte) : Frame :=
  { kind := bytes.getD 2 0, tag := bytes.getD 3 0, body := (bytes.drop 4).take (bytes.length - 6) }

/-- One byte from a station (R141): gathered, and at the end of a frame the frame arrives, or is discarded when its check
fails. -/
def receiveByte (q : Port) (b : Byte) (s : State) : State :=
  let bytes := gatherByte (s.ports.get q).assembly b
  if assembled bytes then (if checkCorrect bytes then arrive q (frameOf bytes) s else dropAssembly q s)
  else setPort q { s.ports.get q with assembly := bytes } s

/-- The bytes of a station, one after the other. -/
def receiveBytes (q : Port) (bytes : List Byte) (s : State) : State := bytes.foldl (fun x b => receiveByte q b x) s

/-- A request frame comes in byte by byte, from an empty assembly, since no command leaves one begun (log 3). No frame
carries a body above 48 bytes (R161) and no well-formed command has one: such a body is handed on whole. -/
def receiveFrame (q : Port) (fr : Frame) (s : State) : State :=
  if fr.body.length ≤ 48 then receiveBytes q fr.bytes (dropAssembly q s) else arrive q fr s

/-- Bytes gathered in a port's assembly from an empty one, with no frame complete among them. -/
def gather (q : Port) (bytes : List Byte) (s : State) : State :=
  setPort q { s.ports.get q with assembly := bytes.foldl gatherByte [] } s

/-- The port has no room for a further frame: one is in hand and one in the buffer (R141). -/
def portFull (q : Port) (s : State) : Bool := (s.ports.get q).inHand.isSome && (s.ports.get q).buffer.isSome

/-- A complete frame that is discarded: its check fails, or the port has no room (R141). Bytes that make no such frame are
not this command's, and nothing happens (log 3). -/
def discardFrame (q : Port) (bytes : List Byte) (s : State) : State :=
  let x := gather q bytes s
  let gathered := (x.ports.get q).assembly
  if assembled gathered && (!checkCorrect gathered || portFull q x) then dropAssembly q x else s

/-- A gap within a frame (R141): what had been gathered is dropped. -/
def gapAfter (q : Port) (bytes : List Byte) (s : State) : State := dropAssembly q (gather q bytes s)

/-- A start byte, then a length byte (R141): one that no request frame can carry empties the assembly. Any other is not
this command's, and nothing happens (log 3). -/
def badLength (q : Port) (len : Byte) (s : State) : State := if lenCarried len then s else gather q [0xA5#8, len] s

/-! ### The end of an answer -/

/-- The last byte of a port's answer has gone out (R141). -/
def answerGone (q : Port) (s : State) : State :=
  let r := s.ports.get q
  match r.inHand with
  | none => s
  | some _ =>
    let s1 := setPort q { r with inHand := none, answer := none, buffer := none } s
    match r.buffer with
    | none => s1
    | some fr => take q fr s1

/-- The gap timer of a port reaches 1 ms (R150). -/
def endGap (q : Port) (s : State) : State := setPort q { s.ports.get q with gap := none } s

/-! ### The outcome of a command -/

/-- A command goes on to a next state; with the main supply absent it does nothing (log 7). -/
def live (g : State → State) (s : State) : Host.Outcome State Fault Refusal := .next (if s.powered then g s else s)

/-- The frame of a request kind with a tag and a body. -/
def requestFrame (k : RequestKind) (tag : Byte) (body : List Byte) : Frame :=
  { kind := BitVec.ofNat 8 k.code, tag := tag, body := body }

/-- A request frame of a kind comes in. -/
def request (k : RequestKind) (q : Port) (tag : Byte) (body : List Byte) (s : State) :
    Host.Outcome State Fault Refusal := live (receiveFrame q (requestFrame k tag body)) s

/-! ### The request commands -/

/-- OPEN-HEAT arrives (R8). -/
def execOpenHeat (q : Port) (tag : Byte) (body : List Byte) (s : State) : Host.Outcome State Fault Refusal :=
  request .openHeat q tag body s

/-- ADD-CHARGE arrives (R14). -/
def execAddCharge (q : Port) (tag : Byte) (body : List Byte) (s : State) : Host.Outcome State Fault Refusal :=
  request .addCharge q tag body s

/-- SET-MELT-POWER arrives (R46). -/
def execSetMeltPower (q : Port) (tag : Byte) (body : List Byte) (s : State) : Host.Outcome State Fault Refusal :=
  request .setMeltPower q tag body s

/-- SET-HOLD-TARGET arrives (R15). -/
def execSetHoldTarget (q : Port) (tag : Byte) (body : List Byte) (s : State) : Host.Outcome State Fault Refusal :=
  request .setHoldTarget q tag body s

/-- SET-CHEMISTRY arrives (R16). -/
def execSetChemistry (q : Port) (tag : Byte) (body : List Byte) (s : State) : Host.Outcome State Fault Refusal :=
  request .setChemistry q tag body s

/-- CLOSE-HEAT arrives (R17). -/
def execCloseHeat (q : Port) (tag : Byte) (body : List Byte) (s : State) : Host.Outcome State Fault Refusal :=
  request .closeHeat q tag body s

/-- RESTATE arrives (R19, R20). -/
def execRestate (q : Port) (tag : Byte) (body : List Byte) (s : State) : Host.Outcome State Fault Refusal :=
  request .restate q tag body s

/-- FURNACE-ON arrives (R61). -/
def execFurnaceOn (q : Port) (tag : Byte) (body : List Byte) (s : State) : Host.Outcome State Fault Refusal :=
  request .furnaceOn q tag body s

/-- TAP-OPEN arrives (R125). -/
def execTapOpen (q : Port) (tag : Byte) (body : List Byte) (s : State) : Host.Outcome State Fault Refusal :=
  request .tapOpen q tag body s

/-- TRIP-RESET arrives (R111). -/
def execTripReset (q : Port) (tag : Byte) (body : List Byte) (s : State) : Host.Outcome State Fault Refusal :=
  request .tripReset q tag body s

/-- RESUME arrives (R67). -/
def execResume (q : Port) (tag : Byte) (body : List Byte) (s : State) : Host.Outcome State Fault Refusal :=
  request .resume q tag body s

/-- LINK-RESTART arrives (R84). -/
def execLinkRestart (q : Port) (tag : Byte) (body : List Byte) (s : State) : Host.Outcome State Fault Refusal :=
  request .linkRestart q tag body s

/-- PUMP-RETURN arrives (R115). -/
def execPumpReturn (q : Port) (tag : Byte) (body : List Byte) (s : State) : Host.Outcome State Fault Refusal :=
  request .pumpReturn q tag body s

/-- POST-TAP arrives (R121). -/
def execPostTap (q : Port) (tag : Byte) (body : List Byte) (s : State) : Host.Outcome State Fault Refusal :=
  request .postTap q tag body s

/-- CANCEL-TAP arrives (R135). -/
def execCancelTap (q : Port) (tag : Byte) (body : List Byte) (s : State) : Host.Outcome State Fault Refusal :=
  request .cancelTap q tag body s

/-- TAP-WEIGHT arrives (R133). -/
def execTapWeight (q : Port) (tag : Byte) (body : List Byte) (s : State) : Host.Outcome State Fault Refusal :=
  request .tapWeight q tag body s

/-- BANK arrives (R68). -/
def execBank (q : Port) (tag : Byte) (body : List Byte) (s : State) : Host.Outcome State Fault Refusal :=
  request .bank q tag body s

/-- WAKE arrives (R70). -/
def execWake (q : Port) (tag : Byte) (body : List Byte) (s : State) : Host.Outcome State Fault Refusal :=
  request .wake q tag body s

/-- READ-SETTING arrives (R156). -/
def execReadSetting (q : Port) (tag : Byte) (body : List Byte) (s : State) : Host.Outcome State Fault Refusal :=
  request .readSetting q tag body s

/-- WRITE-SETTING arrives (R153). -/
def execWriteSetting (q : Port) (tag : Byte) (body : List Byte) (s : State) : Host.Outcome State Fault Refusal :=
  request .writeSetting q tag body s

/-- SAVE-SETTINGS arrives (R158). -/
def execSaveSettings (q : Port) (tag : Byte) (body : List Byte) (s : State) : Host.Outcome State Fault Refusal :=
  request .saveSettings q tag body s

/-- RELEASE-CHANNEL arrives (R155). -/
def execReleaseChannel (q : Port) (tag : Byte) (body : List Byte) (s : State) : Host.Outcome State Fault Refusal :=
  request .releaseChannel q tag body s

/-- QUERY-FURNACE arrives (R144). -/
def execQueryFurnace (q : Port) (tag : Byte) (body : List Byte) (s : State) : Host.Outcome State Fault Refusal :=
  request .queryFurnace q tag body s

/-- READ-LOG arrives (R22). -/
def execReadLog (q : Port) (tag : Byte) (body : List Byte) (s : State) : Host.Outcome State Fault Refusal :=
  request .readLog q tag body s

/-- QUERY-QUEUE arrives (R138). -/
def execQueryQueue (q : Port) (tag : Byte) (body : List Byte) (s : State) : Host.Outcome State Fault Refusal :=
  request .queryQueue q tag body s

/-- QUERY-PROTECTION arrives (R118). -/
def execQueryProtection (q : Port) (tag : Byte) (body : List Byte) (s : State) : Host.Outcome State Fault Refusal :=
  request .queryProtection q tag body s

/-- QUERY-CHANNELS arrives (R100). -/
def execQueryChannels (q : Port) (tag : Byte) (body : List Byte) (s : State) : Host.Outcome State Fault Refusal :=
  request .queryChannels q tag body s

/-- QUERY-ALLOTMENT arrives (R62). -/
def execQueryAllotment (q : Port) (tag : Byte) (body : List Byte) (s : State) : Host.Outcome State Fault Refusal :=
  request .queryAllotment q tag body s

/-- QUERY-SHOP arrives (R74). -/
def execQueryShop (q : Port) (tag : Byte) (body : List Byte) (s : State) : Host.Outcome State Fault Refusal :=
  request .queryShop q tag body s

/-- READ-NOTICES arrives (R147). -/
def execReadNotices (q : Port) (tag : Byte) (body : List Byte) (s : State) : Host.Outcome State Fault Refusal :=
  request .readNotices q tag body s

/-- ACK-NOTICES arrives (R148). -/
def execAckNotices (q : Port) (tag : Byte) (body : List Byte) (s : State) : Host.Outcome State Fault Refusal :=
  request .ackNotices q tag body s

/-- SET-NOTICE-ENABLES arrives (R149). -/
def execSetNoticeEnables (q : Port) (tag : Byte) (body : List Byte) (s : State) : Host.Outcome State Fault Refusal :=
  request .setNoticeEnables q tag body s

/-- A request frame whose kind code is none of the 32 arrives (R142). -/
def execUnknownRequestKind (q : Port) (kind tag : Byte) (body : List Byte) (s : State) :
    Host.Outcome State Fault Refusal := live (receiveFrame q { kind := kind, tag := tag, body := body }) s

/-! ### Port events -/

/-- A complete frame is discarded: its check failed, or the buffer was full (R141). -/
def execRequestFrameDiscarded (frame : StationBytes) (s : State) : Host.Outcome State Fault Refusal :=
  live (discardFrame frame.port frame.bytes) s

/-- A gap of more than 20 ms within a frame empties the assembly (R141). -/
def execStationByteGap (gathered : StationBytes) (s : State) : Host.Outcome State Fault Refusal :=
  live (gapAfter gathered.port gathered.bytes) s

/-- A length byte that no request frame can carry empties the assembly (R141, R161). -/
def execStationBadLengthByte (q : Port) (len : Byte) (s : State) : Host.Outcome State Fault Refusal :=
  live (badLength q len) s

/-- The last byte of an answer has gone out (R141). -/
def execAnswerSent (q : Port) (s : State) : Host.Outcome State Fault Refusal := live (answerGone q) s

/-- The gap after an ACK-NOTICES ends (R150). -/
def execAttnGapEnd (q : Port) (s : State) : Host.Outcome State Fault Refusal := live (endGap q) s

end Sys2Proof.Machine
end

