-- ==== Sys2Proof/WellFormed.lean ====
section
/-! DEFINITION. Which commands the part's surroundings can give it: operand limits the spec states for the command itself. -/

namespace Sys2Proof

/-- Channels 0 to 8, the water channels (R88). -/
def Chan.isWater : Chan → Bool
  | .dipA | .dipB => false
  | _ => true

/-- A station frame's BODY has 0..48 bytes (R161). -/
def bodyFits (body : List Byte) : Bool := body.length ≤ 48

/-- A length byte that a request frame can carry (R161). -/
def lenFits (len : Byte) : Bool := 2 ≤ len.toNat && len.toNat ≤ 50

/-- As many bytes as a whole request frame has: the start byte, LEN, as many bytes as LEN says, two check bytes (R161). -/
def wholeFrame : List Byte → Bool
  | start :: len :: rest => start == 0xA5 && lenFits len && rest.length == len.toNat + 2
  | _ => false

/-- The first bytes of a request frame, fewer than it has (R161). -/
def frameBegun : List Byte → Bool
  | [] => false
  | [start] => start == 0xA5
  | start :: len :: rest => start == 0xA5 && lenFits len && rest.length < len.toNat + 2

/-- A length byte that a stage frame can carry (R162). -/
def stageLenFits (len : Byte) : Bool := 1 ≤ len.toNat && len.toNat ≤ 16

/-- As many bytes as a whole stage frame has: the start byte, LEN, as many bytes as LEN says, two check bytes (R162). -/
def wholeStageFrame : List Byte → Bool
  | start :: len :: rest => start == 0x5A && stageLenFits len && rest.length == len.toNat + 2
  | _ => false

/-- The first bytes of a stage frame, fewer than it has (R162). -/
def stageFrameBegun : List Byte → Bool
  | [] => false
  | [start] => start == 0x5A
  | start :: len :: rest => start == 0x5A && stageLenFits len && rest.length < len.toNat + 2

/-- The operand limits of a command. Requests: a body a frame can carry (R161). UNKNOWN_REQUEST_KIND: a kind code
that is none of the 32 (R142). REQUEST_FRAME_DISCARDED: a complete frame, and STATION_BYTE_GAP: one begun and not complete
(R141). STATION_BAD_LENGTH_BYTE: a LEN outside 2..50 (R161). UNKNOWN_KIND_FRAME: a KIND other
than 0x81 and a body a stage frame can carry (R162). WATER_CONVERSION_END and CHANNEL_STALE: a water channel (R89, R90).
ENTRY_LAPSE: a request id 1..255 (R120). -/
def Instr.wellFormed : Instr → Bool
  | .coldStart _ | .warmRestart _ | .settingsLoadEnd _ | .saveEnd _ | .channelIdleExpiry => true
  | .openHeat _ _ body | .addCharge _ _ body | .setMeltPower _ _ body | .setHoldTarget _ _ body
  | .setChemistry _ _ body | .closeHeat _ _ body | .restate _ _ body | .furnaceOn _ _ body
  | .tapOpen _ _ body | .tripReset _ _ body | .resume _ _ body | .linkRestart _ _ body
  | .pumpReturn _ _ body | .postTap _ _ body | .cancelTap _ _ body | .tapWeight _ _ body
  | .bank _ _ body | .wake _ _ body | .readSetting _ _ body | .writeSetting _ _ body
  | .saveSettings _ _ body | .releaseChannel _ _ body | .queryFurnace _ _ body | .readLog _ _ body
  | .queryQueue _ _ body | .queryProtection _ _ body | .queryChannels _ _ body
  | .queryAllotment _ _ body | .queryShop _ _ body | .readNotices _ _ body | .ackNotices _ _ body
  | .setNoticeEnables _ _ body => bodyFits body
  | .unknownRequestKind _ kind _ body => bodyFits body && (kind == 0 || 0x20 < kind.toNat)
  | .requestFrameDiscarded frame => wholeFrame frame.bytes
  | .stationByteGap gathered => frameBegun gathered.bytes
  | .answerSent _ | .attnGapEnd _ => true
  | .report _ _ _ _ => true
  | .unknownKindFrame frame => frame.kind != 0x81 && decide (frame.body.length ≤ 15)
  | .stageCheckErrorFrame | .stageByteGap => true
  | .reportDeadlineExpiry | .refreshTimerExpiry
  | .setpointCompleted | .tripFrameEnd | .abortedSetpointEnd _ => true
  | .pulsePeriodStart _ | .pulseOffPhase _ | .shedChange _ | .estimatorSecond _
  | .readinessSecond => true
  | .entryLapse requestId => 1 ≤ requestId && requestId ≤ 255
  | .mainBreakerClosedChange _ | .deckOffPress _ | .deckOffRelease _ | .deckOffHold _
  | .breakerStuckExpiry | .sweepUnit => true
  | .waterConversionEnd channel _ | .channelStale channel => channel.isWater
  | .dipSample _ _ | .lanceContact _ | .lanceLift _ | .dipTimerExpiry _ => true
  | .watchTimerExpiry _ | .derateTimerExpiry _ | .recoveryTimerExpiry _ | .mainPumpRunChange _
  | .standbyRunChange _ | .pressureTimerExpiry | .settleTimerExpiry => true
  | .tiltChange _ _ _ | .tapConfirmExpiry | .permitUseExpiry | .tapMaxExpiry
  | .weightWaitExpiry => true
  | .stationBadLengthByte _ len => !lenFits len
  | .mainSupplyLoss => true

end Sys2Proof
end

