-- ==== Sys2Proof/Machine/PlantEvents.lean ====
section
/-! DEFINITION. Events of the plant's lines, the scanner, the protection timers and the tap timers (R66, R71 to R73, R89
to R99, R106 to R114, R127 to R132). -/

namespace Sys2Proof.Machine

/-! ### The breaker and the Deck Off lines -/

/-- MAIN_BREAKER_CLOSED goes inactive (R66, R73). -/
def breakerOpens (s : State) : State :=
  let s1 := { s with
    lines := { s.lines with breakerClosed := false }
    shop := { s.shop with breakerTrip := false, stuckTimer := none, stuck := false } }
  if s.shop.state = .supplyOff then s1 else settleAll (setShop .supplyOff .breakerOpen s1)

/-- A reason holds the deck (R64). -/
def anyReason (r : HoldReasons) : Bool := r.coldStart || r.afterLoss || r.commission || r.settingsDefault

/-- MAIN_BREAKER_CLOSED goes active (R66); with a standing cause BREAKER_TRIP is asserted at once (R73). -/
def breakerCloses (s : State) : State :=
  let s1 := { s with lines := { s.lines with breakerClosed := true } }
  let s2 :=
    if s.shop.state = .supplyOff then
      setShop (if anyReason s.shop.reasons || loading s then .held else .run) .breakerClosed s1
    else s1
  settleAll (if standingCause s then assertBreaker s2 else s2)

/-- The breaker feedback line changes (R66). -/
def breakerChanges (closed : Bool) (s : State) : State :=
  if s.lines.breakerClosed = closed then s else if closed then breakerCloses s else breakerOpens s

/-- A Deck Off monitor replaced. -/
def setDeckOff (f : Furnace) (d : DeckOff) (s : State) : State :=
  { s with shop := { s.shop with decks := s.shop.decks.set f d } }

/-- A press is recognised (R71). -/
def deckPressed (f : Furnace) (s : State) : State :=
  if (s.shop.decks.get f).level then s
  else
    let s1 := setDeckOff f { level := true, timer := some 0, held := false } s
    let s2 := if s.lines.breakerClosed then setStopped f true s1 else s1
    recompute (post (.deckOff f false) s2)

/-- The debounced Deck Off level becomes inactive (R71). -/
def deckReleased (f : Furnace) (s : State) : State :=
  setDeckOff f { s.shop.decks.get f with level := false, timer := none } s

/-- The hold timer reaches 3 s with the line still active (R72). -/
def deckHeld (f : Furnace) (s : State) : State :=
  let d := s.shop.decks.get f
  if d.level = true ∧ d.timer.isSome = true ∧ d.held = false then
    let s1 := setDeckOff f { d with held := true } s
    let s2 := if s.lines.breakerClosed then takeTrip ⟨true, true⟩ (assertBreaker s1) else s1
    post (.deckOff f true) s2
  else s

/-- The stuck timer expires with the breaker still closed (R73). -/
def stuckExpires (s : State) : State :=
  if s.shop.stuckTimer.isSome = true ∧ s.lines.breakerClosed = true then
    post .breakerStuck { s with shop := { s.shop with stuckTimer := none, stuck := true } }
  else s

/-- The breaker feedback line changes. -/
def execMainBreakerClosedChange (closed : Bool) (s : State) : Host.Outcome State Fault Refusal :=
  live (breakerChanges closed) s

/-- A Deck Off line's debounced level becomes active. -/
def execDeckOffPress (f : Furnace) (s : State) : Host.Outcome State Fault Refusal := live (deckPressed f) s

/-- A Deck Off line's debounced level becomes inactive. -/
def execDeckOffRelease (f : Furnace) (s : State) : Host.Outcome State Fault Refusal := live (deckReleased f) s

/-- A Deck Off hold. -/
def execDeckOffHold (f : Furnace) (s : State) : Host.Outcome State Fault Refusal := live (deckHeld f) s

/-- The stuck timer expires. -/
def execBreakerStuckExpiry (s : State) : Host.Outcome State Fault Refusal := live stuckExpires s

/-! ### The scanner -/

/-- The unit count after a count: 10 is followed by 1 (R92). -/
def unitAfter (n : Nat) : Nat := if 10 ≤ n then 1 else n + 1

/-- The sweep timer begins a unit (R92). -/
def unitBegins (s : State) : State := if s.scan.running then beginUnit (unitAfter s.scan.unitCount) s else s

/-- A conversion of a water channel ends (R89): it is the one the unit in progress reaches next (R92). Any other, one of a
unit that a restart has abandoned among them (R93), updates no record, and no unit runs before the sweep starts. -/
def conversionEnds (ch : Chan) (code : BitVec 12) (s : State) : State :=
  if s.scan.running = true ∧ ch.isWater = true ∧ dueConversion s = some ch then
    protect
      (fun t => handUpdate ch
        (setChannel ch (convertWater ch code.toNat t.clock.ms (chanOf t ch)) (noteConversion ch t))) s
  else s

/-- A water channel becomes STALE (R90). -/
def channelGoesStale (ch : Chan) (s : State) : State :=
  if ch.isWater = true ∧ ((chanOf s ch).status = .valid ∨ (chanOf s ch).status = .broken) then
    protect (fun t => handUpdate ch (setChannel ch { chanOf t ch with status := .stale } t)) s
  else s

/-- A dip sample conversion ends (R95): it is the one the unit in progress reaches next, in a tenth unit and with the dip
unit SAMPLING (R92); any other is not taken (R93). -/
def sampleEnds (f : Furnace) (code : BitVec 12) (s : State) : State :=
  if s.scan.running = true ∧ dueConversion s = some (dipChan f) then takeSample f code.toNat (noteConversion (dipChan f) s) else s

/-- The debounced level of a lance line replaced. -/
def setLance (f : Furnace) (level : Bool) (s : State) : State :=
  setDip f { s.scan.dips.get f with level := level } s

/-- A lance contact with the dip channel OFF (R94, R99). It starts no dip and has taken no sample. Whether R99, "in every
failure the samples already taken are discarded", also empties the plateau window that an earlier dip has left, the spec
leaves open: that the window and the counts of the earlier dip stand is the model's choice (log 20). -/
def dipOutOfService (f : Furnace) (s : State) : State :=
  post (.dipFailed f (heatNumber s f) .outOfService 0) (setDip f { s.scan.dips.get f with state := .waitRelease } s)

/-- The lance line's debounced level becomes active (R94); before the settings load has ended it starts no dip (R101). -/
def lanceDown (f : Furnace) (s : State) : State :=
  let d := s.scan.dips.get f
  if d.level then s
  else
    let s1 := setLance f true s
    if loading s then s1
    else if d.state = .idle then (if (chanOf s (dipChan f)).status = .off then dipOutOfService f s1 else startDip f s1)
    else s1

/-- The lance line's debounced level becomes inactive (R98). -/
def lanceUp (f : Furnace) (s : State) : State :=
  let s1 := setLance f false s
  match (s.scan.dips.get f).state with
  | .idle => s1
  | .sampling => failDip f .lifted .idle s1
  | .waitRelease => setDip f { s1.scan.dips.get f with state := .idle } s1

/-- The dip timer reaches 8 s (R99). -/
def dipExpires (f : Furnace) (s : State) : State := endDip f .noPlateau s

/-- A unit of the sweep begins. -/
def execSweepUnit (s : State) : Host.Outcome State Fault Refusal := live unitBegins s

/-- A water channel conversion ends. -/
def execWaterConversionEnd (ch : Chan) (code : BitVec 12) (s : State) : Host.Outcome State Fault Refusal :=
  live (conversionEnds ch code) s

/-- A water channel goes stale. -/
def execChannelStale (ch : Chan) (s : State) : Host.Outcome State Fault Refusal := live (channelGoesStale ch) s

/-- A dip sample ends. -/
def execDipSample (f : Furnace) (code : BitVec 12) (s : State) : Host.Outcome State Fault Refusal :=
  live (sampleEnds f code) s

/-- A lance makes contact. -/
def execLanceContact (f : Furnace) (s : State) : Host.Outcome State Fault Refusal := live (lanceDown f) s

/-- A lance is lifted. -/
def execLanceLift (f : Furnace) (s : State) : Host.Outcome State Fault Refusal := live (lanceUp f) s

/-- A dip timer expires. -/
def execDipTimerExpiry (f : Furnace) (s : State) : Host.Outcome State Fault Refusal := live (dipExpires f) s

/-! ### Protection -/

/-- MAIN_PUMP_RUN changes (R112); the line is not acted on before the settings load has ended (R119). -/
def mainPumpChanges (active : Bool) (s : State) : State :=
  let s1 := { s with lines := { s.lines with mainPumpRun := active } }
  if s.lines.mainPumpRun = true ∧ active = false ∧ s.prot.loop.state = some .main then
    protect (enterChangeover .pumpStop) s1
  else s1

/-- STANDBY_RUN changes (R114). -/
def standbyChanges (active : Bool) (s : State) : State :=
  let s1 := { s with lines := { s.lines with standbyRun := active } }
  if s.lines.standbyRun = true ∧ active = false ∧ s.prot.loop.state = some .standby then
    protect (enterLoopFail .standbyStop) s1
  else s1

/-- A circuit's watch timer expires. -/
def execWatchTimerExpiry (c : Circuit) (s : State) : Host.Outcome State Fault Refusal := live (protect (watchExpires c)) s

/-- A circuit's derate timer expires. -/
def execDerateTimerExpiry (c : Circuit) (s : State) : Host.Outcome State Fault Refusal :=
  live (protect (derateExpires c)) s

/-- A circuit's recovery timer expires. -/
def execRecoveryTimerExpiry (c : Circuit) (s : State) : Host.Outcome State Fault Refusal :=
  live (protect (recoveryExpires c)) s

/-- The main pump run line changes. -/
def execMainPumpRunChange (active : Bool) (s : State) : Host.Outcome State Fault Refusal := live (mainPumpChanges active) s

/-- The standby pump run line changes. -/
def execStandbyRunChange (active : Bool) (s : State) : Host.Outcome State Fault Refusal := live (standbyChanges active) s

/-- The pressure timer expires. -/
def execPressureTimerExpiry (s : State) : Host.Outcome State Fault Refusal := live (protect pressureExpires) s

/-- The settle timer expires. -/
def execSettleTimerExpiry (s : State) : Host.Outcome State Fault Refusal := live (protect settleExpires) s

/-! ### Tilt and the tap timers -/

/-- The debounced tilt switches of a furnace hold new levels (R129). -/
def tiltChanges (f : Furnace) (home forward : Bool) (s : State) : State :=
  let s1 := { s with tap := { s.tap with tilt := s.tap.tilt.set f { known := true, home := home, forward := forward } } }
  if loading s = true ∨ tiltOf s f = tiltOf s1 f then s1 else settleHeat f (permitSeesTilt f (tiltOf s1 f) s1)

/-- The tilt of a furnace changes. -/
def execTiltChange (f : Furnace) (home forward : Bool) (s : State) : Host.Outcome State Fault Refusal :=
  live (tiltChanges f home forward) s

/-- The confirm timer expires. -/
def execTapConfirmExpiry (s : State) : Host.Outcome State Fault Refusal := live confirmExpires s

/-- The use timer expires. -/
def execPermitUseExpiry (s : State) : Host.Outcome State Fault Refusal := live useExpires s

/-- The tap timer expires. -/
def execTapMaxExpiry (s : State) : Host.Outcome State Fault Refusal := live tapMaxExpires s

/-- The weight timer expires. -/
def execWeightWaitExpiry (s : State) : Host.Outcome State Fault Refusal := live weightWaitExpires s

end Sys2Proof.Machine
end

