-- ==== Sys2Proof/Machine/Resets.lean ====
section
/-! DEFINITION. Resets, the loss of the main supply, and the settings memory (R23, R24, R63, R65, R75, R101, R119, R139,
R151, R155 to R159). -/

namespace Sys2Proof.Machine

/-! ### Resets -/

/-- A reset or a loss of supply that comes during a save leaves the block part written (R159). -/
def cutOffSave (sett : SettingsManager) : StoredBlock :=
  if sett.memory = .saving then { sett.block with partWritten := true } else sett.block

/-- The volatile part of a furnace slot cleared (R24, R26). -/
def clearVolatileSlot (x : FurnaceSlot) : FurnaceSlot := { x with stopped := false, reported := none }

/-- The open tap of an interrupted heat appended to the tap list (R24). -/
def interruptTap (h : Heat) : Heat :=
  { h with
    state := .holding
    taps := h.taps ++ (h.openTap.map (fun t => { t with interrupted := true, poured := 0 })).toList
    openTap := none
    massUncertain := true }

/-- An open heat at a warm restart (R24). -/
def warmHeat (h : Heat) : Heat :=
  match h.state with
  | .tapping => interruptTap h
  | .tapReady => { h with state := .holding }
  | .melting | .superheat | .holding => h

/-- The slot of a furnace at a warm restart (R24). -/
def warmSlot (x : FurnaceSlot) : FurnaceSlot :=
  match x.slot with
  | .heat h => { clearVolatileSlot x with slot := .heat (warmHeat h) }
  | _ => clearVolatileSlot x

/-- The trip latches, kept in the retained domain. -/
def latchesOf (s : State) : PerCircuit Bool := s.prot.circuits.map CircuitRec.latch

/-- Every volatile block at its reset values, the retained domain kept with its slots passed through `g`. -/
def volatileReset (l : ResetLines) (g : FurnaceSlot → FurnaceSlot) (s : State) : State :=
  { pending := s.pending, powered := true, clock := Clock.reset s.clock.shopSeconds s.clock.subMs,
    lines := { breakerClosed := l.breakerClosed, mainPumpRun := l.mainPumpRun, standbyRun := l.standbyRun },
    heat := { s.heat with slots := s.heat.slots.map g }, allot := Allotment.reset, shop := Shop.reset false l,
    stage := Stage.reset, scan := Scanner.reset,
    prot := Protection.reset (latchesOf s) s.prot.loop.standbyLatch s.clock.shopSeconds, tap := Tap.reset,
    ports := ⟨PortRec.reset, PortRec.reset, PortRec.reset⟩, sett := SettingsManager.reset (cutOffSave s.sett) }

/-- The lines as they stand, with the strap as it was sampled. -/
def linesNow (s : State) : ResetLines :=
  { breakerClosed := s.lines.breakerClosed, mainPumpRun := s.lines.mainPumpRun, standbyRun := s.lines.standbyRun,
    commission := s.shop.strap }

/-- The main supply fails (R37, R159): volatile state is lost, a frame or a save on its way is cut off, and the
retained domain keeps counting shop seconds. -/
def loseSupply (s : State) : State := { volatileReset (linesNow s) clearVolatileSlot s with powered := false }

/-- A cold start (R23). -/
def execColdStart (l : ResetLines) (s : State) : Host.Outcome State Fault Refusal :=
  .next (State.cold l s.pending (cutOffSave s.sett))

/-- A warm restart (R24). -/
def execWarmRestart (l : ResetLines) (s : State) : Host.Outcome State Fault Refusal :=
  .next (volatileReset l warmSlot s)

/-- The main supply fails. -/
def execMainSupplyLoss (s : State) : Host.Outcome State Fault Refusal := live loseSupply s

/-! ### The settings memory -/

/-- The settings load ends (R157); once ended, it ends no more until the next reset. -/
def endLoad (acknowledged : Bool) (s : State) : State :=
  if loading s then finishLoad (goodBlock acknowledged s.sett.block) s else s

/-- A save ends (R158). -/
def endSave (r : SaveResult) (s : State) : State :=
  if s.sett.memory = .saving then
    match r with
    | .saved =>
      post (.settings .saved none 0 0 0)
        { s with sett := { s.sett with memory := .idle, block := StoredBlock.whole s.sett.working } }
    | .failed part =>
      post (.settings .saveFailed none 0 0 0)
        { s with sett :=
          { s.sett with
            memory := .idle
            block := { s.sett.block with partWritten := s.sett.block.partWritten || part } } }
  else s

/-- The settings channel idle timer reaches 20 s (R155). -/
def idleExpires (s : State) : State :=
  if s.sett.owner.isSome = true ∧ s.sett.idle.isSome = true then freeChannel s else s

/-- The settings block read ends, acknowledged throughout or not (R157). -/
def execSettingsLoadEnd (acknowledged : Bool) (s : State) : Host.Outcome State Fault Refusal :=
  live (endLoad acknowledged) s

/-- A settings save ends (R158). -/
def execSaveEnd (r : SaveResult) (s : State) : Host.Outcome State Fault Refusal := live (endSave r) s

/-- The idle timer of the settings channel expires (R155). -/
def execChannelIdleExpiry (s : State) : Host.Outcome State Fault Refusal := live idleExpires s

end Sys2Proof.Machine
end

