-- ==== Sys2Proof/Machine/StageEvents.lean ====
section
/-! DEFINITION. What the stage sends, the transmitter's events, the pulse timers, SHED and the seconds (R25, R44, R57,
R76 to R87). -/

namespace Sys2Proof.Machine

/-! ### Frames from the stage -/

/-- The babble test: the record holds two arrival times and the earlier is less than 1 s ago (R83). -/
def babbles (s : State) : Bool :=
  match s.stage.babble with
  | t :: _ :: _ => decide (s.clock.ms - t < Config.babbleMs)
  | _ => false

/-- The babble record after a frame counted now: the last two arrival times (R83). -/
def babbleAfter (record : List Nat) (ms : Nat) : List Nat := (record ++ [ms]).drop (record.length - 1)

/-- The link goes to FAULT (R83). -/
def enterFault (cause : LinkCause) (s : State) : State :=
  let wasUp := s.stage.link == .up
  let stage := if wasUp then s.stage.leaveUp else s.stage
  let s1 := setLink .fault cause { s with stage := { stage with deadline := none, babble := [] } }
  recompute (if wasUp then grantIfPending s1 else s1)

/-- The receiver discards every frame while the settings load runs and in FAULT (R75, R80). -/
def receiverClosed (s : State) : Bool := loading s || s.stage.link == .fault

/-- The contents of a REPORT within range (R80, R162). -/
def reportContents (deliveredA : BitVec 16) (statusA : Byte) (deliveredB : BitVec 16) (statusB : Byte) :
    Option (PerFurnace ReportOutput) :=
  match statusOf statusA, statusOf statusB with
  | some sa, some sb =>
    if deliveredA.toNat ≤ 9999 ∧ deliveredB.toNat ≤ 9999 then
      some ⟨{ delivered := deliveredA.toNat, status := sa }, { delivered := deliveredB.toNat, status := sb }⟩
    else none
  | _, _ => none

/-- The delivered power handed to the Heat Table (R26, R81). -/
def handDelivered (f : Furnace) (kw : Nat) (s : State) : State :=
  setFurnaceSlot f { s.heat.slots.get f with reported := some kw } s

/-- The confirmation test of a pending permit against a report (R87), with the grant (R126). -/
def confirmTap (out : PerFurnace ReportOutput) (s : State) : State :=
  match s.tap.permit with
  | some p =>
    if p.state = .pending ∧ (out.get p.furnace).delivered ≤ tapCap s + 50 then grantPermit p s else s
  | none => s

/-- A valid REPORT taken (R81). -/
def takeReport (out : PerFurnace ReportOutput) (s : State) : State :=
  let s1 := { s with stage := { s.stage with last := some { out := out, takenAt := s.clock.ms }, deadline := some 0 } }
  let s2 := if s.stage.link = .up then s1 else setLink .up .report s1
  let s3 := handDelivered .b out.b.delivered (handDelivered .a out.a.delivered s2)
  recompute (confirmTap out s3)

/-- A REPORT frame with a correct check (R80, R81, R83): counted for babble, then taken when its contents are valid. -/
def receiveReport (contents : Option (PerFurnace ReportOutput)) (s : State) : State :=
  if receiverClosed s then s
  else if babbles s then enterFault .babble s
  else
    let s1 := { s with stage := { s.stage with babble := babbleAfter s.stage.babble s.clock.ms } }
    match contents with
    | some out => takeReport out s1
    | none => s1

/-- A frame of unknown kind (R80, R83). -/
def receiveUnknownKind (s : State) : State := if receiverClosed s then s else enterFault .unknownKind s

/-! ### Assembling a stage frame -/

/-- A stage frame of a kind and a body (R162): the start byte, LEN, which counts KIND and BODY, these, and the check. -/
def stageFrameBytes (kind : Byte) (body : List Byte) : List Byte :=
  let covered := be1 (body.length + 1) ++ kind :: body
  0x5A#8 :: covered ++ checkBytes covered

/-- The body of a REPORT: delivered A 2, status A 1, delivered B 2, status B 1 (R162). -/
def reportBody (deliveredA : BitVec 16) (statusA : Byte) (deliveredB : BitVec 16) (statusB : Byte) : List Byte :=
  be2 deliveredA.toNat ++ [statusA] ++ be2 deliveredB.toNat ++ [statusB]

/-- The contents that the body of a REPORT carries, within range (R80, R162). -/
def reportOf (body : List Byte) : Option (PerFurnace ReportOutput) :=
  reportContents (BitVec.ofNat 16 (field body 0 2)) (body.getD 2 0) (BitVec.ofNat 16 (field body 3 2)) (body.getD 5 0)

/-- A length byte that a stage frame can carry (R162). -/
def stageLenCarried (len : Byte) : Bool := 1 ≤ len.toNat && len.toNat ≤ 16

/-- The assembly of the stage receiver after one more byte (R162). -/
def gatherStageByte (assembly : List Byte) (b : Byte) : List Byte := gatherFrom 0x5A#8 stageLenCarried assembly b

/-- The stage receiver's assembly set. -/
def setStageAssembly (bytes : List Byte) (s : State) : State := { s with stage := { s.stage with assembly := bytes } }

/-- KIND of a complete stage frame (R162). -/
def stageKind (bytes : List Byte) : Byte := bytes.getD 2 0

/-- BODY of a complete stage frame (R162). -/
def stageBody (bytes : List Byte) : List Byte := (bytes.drop 3).take (bytes.length - 5)

/-- A complete stage frame has a check error: its check does not match, or it is a REPORT whose LEN is not 7 (R80, R162). -/
def stageCheckFails (bytes : List Byte) : Bool :=
  !checkCorrect bytes || stageKind bytes == 0x81#8 && (stageBody bytes).length != 6

/-- The receiver sorts a complete frame (R80, R162): a check error is discarded, a REPORT is received, and any other kind is
unknown. -/
def sortStageFrame (bytes : List Byte) (s : State) : State :=
  if stageCheckFails bytes then s
  else if stageKind bytes = 0x81#8 then receiveReport (reportOf (stageBody bytes)) s
  else receiveUnknownKind s

/-- One byte from the stage (R162): gathered, and at the end of a frame the frame is sorted. -/
def receiveStageByte (b : Byte) (s : State) : State :=
  let bytes := gatherStageByte s.stage.assembly b
  if assembled bytes then sortStageFrame bytes (setStageAssembly [] s) else setStageAssembly bytes s

/-- The bytes of the stage, one after the other. -/
def receiveStageBytes (bytes : List Byte) (s : State) : State := bytes.foldl (fun x b => receiveStageByte b x) s

/-- A stage frame comes in byte by byte, from an empty assembly, since no command leaves one begun (log 34). No frame
carries a body above 15 bytes (R162) and no well-formed command has one: such a frame is handed on whole. -/
def receiveStageFrame (kind : Byte) (body : List Byte) (s : State) : State :=
  if body.length ≤ 15 then receiveStageBytes (stageFrameBytes kind body) (setStageAssembly [] s)
  else receiveUnknownKind (setStageAssembly [] s)

/-- A check error: the frame that was coming in is dropped and counts for nothing (R80, R162). Whichever bytes show the
error, the receiver comes to this state, so the command need not name them (log 34). -/
def discardStage (s : State) : State := setStageAssembly [] s

/-- A REPORT frame arrives, byte by byte (R162). -/
def execReport (deliveredA : BitVec 16) (statusA : Byte) (deliveredB : BitVec 16) (statusB : Byte) (s : State) :
    Host.Outcome State Fault Refusal :=
  live (receiveStageFrame 0x81#8 (reportBody deliveredA statusA deliveredB statusB)) s

/-- A stage frame of unknown kind arrives, byte by byte (R162). -/
def execUnknownKindFrame (frame : StageFrame) (s : State) : Host.Outcome State Fault Refusal :=
  live (receiveStageFrame frame.kind frame.body) s

/-- A stage frame with a check error is discarded: it counts for nothing (R80). -/
def execStageCheckErrorFrame (s : State) : Host.Outcome State Fault Refusal :=
  live discardStage s

/-- A gap of more than 5 ms within a stage frame is a check error (R162): the frame counts for nothing (R80). -/
def execStageByteGap (s : State) : Host.Outcome State Fault Refusal :=
  live discardStage s

/-! ### The report deadline -/

/-- The report deadline reaches 2.5 s in UP (R82). -/
def deadlineExpires (s : State) : State :=
  if s.stage.link = .up ∧ s.stage.deadline.isSome = true then
    recompute (grantIfPending (setLink .lost .timeout { s with stage := s.stage.leaveUp }))
  else s

/-- The report deadline expires. -/
def execReportDeadlineExpiry (s : State) : Host.Outcome State Fault Refusal := live deadlineExpires s

/-! ### The transmitter -/

/-- The refresh timer reaches 500 ms: a SETPOINT becomes pending (R76). -/
def refreshExpires (s : State) : State := kick { s with stage := { s.stage with pendingSetpoint := true } }

/-- The SETPOINT on the wire completes, and the next frame begins (R76, R77). An idle transmitter with a frame pending
has begun it (R77). -/
def setpointCompletes (s : State) : State :=
  match (kick s).stage.transmitter with
  | .sendingSetpoint fr => kick { kick s with stage := (kick s).stage.completeSetpoint fr s.clock.ms }
  | _ => s

/-- The TRIP frame on the wire ends, and a SETPOINT becomes pending (R76, R77). -/
def tripFrameEnds (s : State) : State :=
  match s.stage.transmitter with
  | .sendingTrip mask =>
    kick { s with stage :=
      { s.stage with transmitter := .idle, pendingSetpoint := true, wire := tripBytes mask } }
  | _ => s

/-- The aborted SETPOINT ends with an inverted check, and the TRIP frame begins (R79). -/
def abortedSetpointEnds (firstCheckByteGone : Bool) (s : State) : State :=
  match s.stage.transmitter with
  | .sendingSetpoint fr =>
    if fr.tripTaken then
      kick { s with stage :=
        { s.stage with transmitter := .idle, wire := abortedBytes fr.out firstCheckByteGone } }
    else s
  | _ => s

/-- The refresh timer expires. -/
def execRefreshTimerExpiry (s : State) : Host.Outcome State Fault Refusal := live refreshExpires s

/-- A SETPOINT's last byte has gone out with a correct check. -/
def execSetpointCompleted (s : State) : Host.Outcome State Fault Refusal := live setpointCompletes s

/-- A TRIP frame ends. -/
def execTripFrameEnd (s : State) : Host.Outcome State Fault Refusal := live tripFrameEnds s

/-- An aborted SETPOINT ends. -/
def execAbortedSetpointEnd (firstCheckByteGone : Bool) (s : State) : Host.Outcome State Fault Refusal :=
  live (abortedSetpointEnds firstCheckByteGone) s

/-! ### The allotment's own events -/

/-- The pulse timer of an output reaches 10 s (R57). -/
def periodStarts (f : Furnace) (s : State) : State :=
  if (s.allot.out.get f).mode = .pulse then putPulse f ((s.allot.out.get f).startPeriod (minCont s f)) s else s

/-- The pulse timer of an output reaches the duty in force (R57). -/
def onPhaseEnds (f : Furnace) (s : State) : State :=
  if (s.allot.out.get f).mode = .pulse ∧ (s.allot.out.get f).phase = some .on then
    putPulse f (s.allot.out.get f).endOnPhase s
  else s

/-- The debounced SHED state changes (R44): the active ceiling and W are set anew, while the settings are being loaded
too, when no computation is made (R63). -/
def setShed (active : Bool) (s : State) : State :=
  recompute (setBudget { s with allot := { s.allot with shed := active } })

/-- A pulse period starts. -/
def execPulsePeriodStart (f : Furnace) (s : State) : Host.Outcome State Fault Refusal := live (periodStarts f) s

/-- The ON phase of a pulse period ends. -/
def execPulseOffPhase (f : Furnace) (s : State) : Host.Outcome State Fault Refusal := live (onPhaseEnds f) s

/-- The SHED line has held a new level for 100 ms. -/
def execShedChange (active : Bool) (s : State) : Host.Outcome State Fault Refusal := live (setShed active) s

/-! ### The seconds -/

/-- The delivered power of an estimator second (R26). -/
def deliveredPower (s : State) (f : Furnace) : Nat :=
  if s.stage.link = .up ∧ s.outputEnable f = true then ((s.heat.slots.get f).reported).getD 0 else 0

/-- The stamp and the record of reported power after an estimator second (R25, R26). -/
def closeSecond (f : Furnace) (s : State) : State :=
  stampFurnace f (setFurnaceSlot f { s.heat.slots.get f with reported := none } s)

/-- An estimator second that hands something on (R33): the state, the estimate or FREEZE has changed. -/
def secondMoves (before after : Option Heat) : Bool :=
  decide (before.map Heat.state ≠ after.map Heat.state) || decide (before.map Heat.estimate ≠ after.map Heat.estimate)
    || decide (before.map Heat.freeze ≠ after.map Heat.freeze)

/-- The estimator second of a furnace whose slot carries an open heat (R25 to R33). -/
def estimatorSecond (f : Furnace) (s : State) : State :=
  match heatOf s f with
  | none => { s with clock := { s.clock with estDue := s.clock.estDue.set f false } }
  | some _ =>
    let s1 := closeSecond f (reviseHeat f (secondOf s f (deliveredPower s f)) s)
    if secondMoves (heatOf s f) (heatOf s1 f) then settleHeat f s1 else s1

/-- An estimator second; none is made while the settings are being loaded (R25). -/
def secondPasses (f : Furnace) (s : State) : State := if loading s then s else estimatorSecond f s

/-- The readiness evaluation made once at every shop second (R11). -/
def readinessSecond (s : State) : State :=
  let s1 := { s with clock := { s.clock with readyDue := false } }
  if loading s then s1 else coordinate (evalReady .b (evalReady .a s1))

/-- A queue entry's deadline passes (R136): one not under a permit is removed. -/
def entryLapses (id : Nat) (s : State) : State :=
  match entryOf s id with
  | none => s
  | some e =>
    if e.deadline.isSome = true ∧ (permitOfEntry s id).isNone = true then recompute (expireEntry e s) else s

/-- An estimator second of a furnace. -/
def execEstimatorSecond (f : Furnace) (s : State) : Host.Outcome State Fault Refusal := live (secondPasses f) s

/-- The readiness evaluation of a shop second. -/
def execReadinessSecond (s : State) : Host.Outcome State Fault Refusal := live readinessSecond s

/-- A queue entry lapses. -/
def execEntryLapse (id : Nat) (s : State) : Host.Outcome State Fault Refusal := live (entryLapses id) s

end Sys2Proof.Machine
end

