-- ==== Sys2Proof/Machine/Dispatch.lean ====
section
/-! DEFINITION. One arm for each command: its meaning. -/

namespace Sys2Proof.Machine

/-- The effect of a command on everything but the queue. -/
def exec (i : Instr) (s : State) : Host.Outcome State Fault Refusal :=
  match i with
  | .coldStart lines => Sys2Proof.Machine.execColdStart lines s
  | .warmRestart lines => Sys2Proof.Machine.execWarmRestart lines s
  | .settingsLoadEnd acknowledged => Sys2Proof.Machine.execSettingsLoadEnd acknowledged s
  | .saveEnd result => Sys2Proof.Machine.execSaveEnd result s
  | .channelIdleExpiry => Sys2Proof.Machine.execChannelIdleExpiry s
  | .openHeat port tag body => Sys2Proof.Machine.execOpenHeat port tag body s
  | .addCharge port tag body => Sys2Proof.Machine.execAddCharge port tag body s
  | .setMeltPower port tag body => Sys2Proof.Machine.execSetMeltPower port tag body s
  | .setHoldTarget port tag body => Sys2Proof.Machine.execSetHoldTarget port tag body s
  | .setChemistry port tag body => Sys2Proof.Machine.execSetChemistry port tag body s
  | .closeHeat port tag body => Sys2Proof.Machine.execCloseHeat port tag body s
  | .restate port tag body => Sys2Proof.Machine.execRestate port tag body s
  | .furnaceOn port tag body => Sys2Proof.Machine.execFurnaceOn port tag body s
  | .tapOpen port tag body => Sys2Proof.Machine.execTapOpen port tag body s
  | .tripReset port tag body => Sys2Proof.Machine.execTripReset port tag body s
  | .resume port tag body => Sys2Proof.Machine.execResume port tag body s
  | .linkRestart port tag body => Sys2Proof.Machine.execLinkRestart port tag body s
  | .pumpReturn port tag body => Sys2Proof.Machine.execPumpReturn port tag body s
  | .postTap port tag body => Sys2Proof.Machine.execPostTap port tag body s
  | .cancelTap port tag body => Sys2Proof.Machine.execCancelTap port tag body s
  | .tapWeight port tag body => Sys2Proof.Machine.execTapWeight port tag body s
  | .bank port tag body => Sys2Proof.Machine.execBank port tag body s
  | .wake port tag body => Sys2Proof.Machine.execWake port tag body s
  | .readSetting port tag body => Sys2Proof.Machine.execReadSetting port tag body s
  | .writeSetting port tag body => Sys2Proof.Machine.execWriteSetting port tag body s
  | .saveSettings port tag body => Sys2Proof.Machine.execSaveSettings port tag body s
  | .releaseChannel port tag body => Sys2Proof.Machine.execReleaseChannel port tag body s
  | .queryFurnace port tag body => Sys2Proof.Machine.execQueryFurnace port tag body s
  | .readLog port tag body => Sys2Proof.Machine.execReadLog port tag body s
  | .queryQueue port tag body => Sys2Proof.Machine.execQueryQueue port tag body s
  | .queryProtection port tag body => Sys2Proof.Machine.execQueryProtection port tag body s
  | .queryChannels port tag body => Sys2Proof.Machine.execQueryChannels port tag body s
  | .queryAllotment port tag body => Sys2Proof.Machine.execQueryAllotment port tag body s
  | .queryShop port tag body => Sys2Proof.Machine.execQueryShop port tag body s
  | .readNotices port tag body => Sys2Proof.Machine.execReadNotices port tag body s
  | .ackNotices port tag body => Sys2Proof.Machine.execAckNotices port tag body s
  | .setNoticeEnables port tag body => Sys2Proof.Machine.execSetNoticeEnables port tag body s
  | .unknownRequestKind port kind tag body => Sys2Proof.Machine.execUnknownRequestKind port kind tag body s
  | .requestFrameDiscarded frame => Sys2Proof.Machine.execRequestFrameDiscarded frame s
  | .stationByteGap gathered => Sys2Proof.Machine.execStationByteGap gathered s
  | .answerSent port => Sys2Proof.Machine.execAnswerSent port s
  | .attnGapEnd port => Sys2Proof.Machine.execAttnGapEnd port s
  | .report deliveredA statusA deliveredB statusB => Sys2Proof.Machine.execReport deliveredA statusA deliveredB statusB s
  | .unknownKindFrame frame => Sys2Proof.Machine.execUnknownKindFrame frame s
  | .stageCheckErrorFrame => Sys2Proof.Machine.execStageCheckErrorFrame s
  | .stageByteGap => Sys2Proof.Machine.execStageByteGap s
  | .reportDeadlineExpiry => Sys2Proof.Machine.execReportDeadlineExpiry s
  | .refreshTimerExpiry => Sys2Proof.Machine.execRefreshTimerExpiry s
  | .setpointCompleted => Sys2Proof.Machine.execSetpointCompleted s
  | .tripFrameEnd => Sys2Proof.Machine.execTripFrameEnd s
  | .abortedSetpointEnd firstCheckByteGone => Sys2Proof.Machine.execAbortedSetpointEnd firstCheckByteGone s
  | .pulsePeriodStart output => Sys2Proof.Machine.execPulsePeriodStart output s
  | .pulseOffPhase output => Sys2Proof.Machine.execPulseOffPhase output s
  | .shedChange active => Sys2Proof.Machine.execShedChange active s
  | .estimatorSecond furnace => Sys2Proof.Machine.execEstimatorSecond furnace s
  | .readinessSecond => Sys2Proof.Machine.execReadinessSecond s
  | .entryLapse requestId => Sys2Proof.Machine.execEntryLapse requestId s
  | .mainBreakerClosedChange closed => Sys2Proof.Machine.execMainBreakerClosedChange closed s
  | .deckOffPress deck => Sys2Proof.Machine.execDeckOffPress deck s
  | .deckOffRelease deck => Sys2Proof.Machine.execDeckOffRelease deck s
  | .deckOffHold deck => Sys2Proof.Machine.execDeckOffHold deck s
  | .breakerStuckExpiry => Sys2Proof.Machine.execBreakerStuckExpiry s
  | .sweepUnit => Sys2Proof.Machine.execSweepUnit s
  | .waterConversionEnd channel code => Sys2Proof.Machine.execWaterConversionEnd channel code s
  | .channelStale channel => Sys2Proof.Machine.execChannelStale channel s
  | .dipSample unit code => Sys2Proof.Machine.execDipSample unit code s
  | .lanceContact unit => Sys2Proof.Machine.execLanceContact unit s
  | .lanceLift unit => Sys2Proof.Machine.execLanceLift unit s
  | .dipTimerExpiry unit => Sys2Proof.Machine.execDipTimerExpiry unit s
  | .watchTimerExpiry circuit => Sys2Proof.Machine.execWatchTimerExpiry circuit s
  | .derateTimerExpiry circuit => Sys2Proof.Machine.execDerateTimerExpiry circuit s
  | .recoveryTimerExpiry circuit => Sys2Proof.Machine.execRecoveryTimerExpiry circuit s
  | .mainPumpRunChange active => Sys2Proof.Machine.execMainPumpRunChange active s
  | .standbyRunChange active => Sys2Proof.Machine.execStandbyRunChange active s
  | .pressureTimerExpiry => Sys2Proof.Machine.execPressureTimerExpiry s
  | .settleTimerExpiry => Sys2Proof.Machine.execSettleTimerExpiry s
  | .tiltChange furnace home forward => Sys2Proof.Machine.execTiltChange furnace home forward s
  | .tapConfirmExpiry => Sys2Proof.Machine.execTapConfirmExpiry s
  | .permitUseExpiry => Sys2Proof.Machine.execPermitUseExpiry s
  | .tapMaxExpiry => Sys2Proof.Machine.execTapMaxExpiry s
  | .weightWaitExpiry => Sys2Proof.Machine.execWeightWaitExpiry s
  | .stationBadLengthByte port len => Sys2Proof.Machine.execStationBadLengthByte port len s
  | .mainSupplyLoss => Sys2Proof.Machine.execMainSupplyLoss s

end Sys2Proof.Machine
end

