-- ==== Sys2Proof/Machine/Step.lean ====
section
/-! DEFINITION. The step: the command at the front of the queue, or, on an empty queue, time: the next event the part's
own timers owe, else one millisecond (log 1). -/

namespace Sys2Proof.Machine

/-! ### Time -/

/-- A running timer counts one millisecond. -/
def tickOpt (t : Option Nat) : Option Nat := t.map (fun n => n + 1)

/-- A circuit timer counts while it runs (R102). -/
def Timer.tick (t : Timer) : Timer := if t.mode = .running then { t with ms := t.ms + 1 } else t

/-- The timers of a circuit. -/
def CircuitRec.tick (r : CircuitRec) : CircuitRec :=
  { r with watch := r.watch.tick, derate := r.derate.tick, recovery := r.recovery.tick }

/-- Shop seconds and milliseconds; the seconds counter stops at 4 294 967 295 (00_scope.md). A new second owes each
furnace its estimator second and the readiness evaluation once the settings load has ended (R11, R25). -/
def tickClock (s : State) : State :=
  let c := s.clock
  if 999 ≤ c.subMs then
    let owed := s.powered && !loading s
    { s with clock :=
      { shopSeconds := capU32 (c.shopSeconds + 1), subMs := 0, ms := c.ms + 1,
        estDue := ⟨c.estDue.a || owed, c.estDue.b || owed⟩, readyDue := c.readyDue || owed } }
  else { s with clock := { c with subMs := c.subMs + 1, ms := c.ms + 1 } }

/-- The pulse timers (R57). -/
def tickAllotment (a : Allotment) : Allotment :=
  { a with out := a.out.map (fun r => { r with period := tickOpt r.period }) }

/-- The Deck Off hold timers and the stuck timer (R71, R73). -/
def tickShop (x : Shop) : Shop :=
  { x with decks := x.decks.map (fun d => { d with timer := tickOpt d.timer }), stuckTimer := tickOpt x.stuckTimer }

/-- The report deadline and the refresh timer, which stands at 500 ms at most (R75). -/
def tickStage (x : Stage) : Stage :=
  { x with deadline := tickOpt x.deadline, refresh := min Config.refreshMs (x.refresh + 1) }

/-- The sweep timer and the dip timers (R92, R94). -/
def tickScanner (x : Scanner) : Scanner :=
  { x with sweepTimer := tickOpt x.sweepTimer, dips := x.dips.map (fun d => { d with timer := tickOpt d.timer }) }

/-- The circuit timers and the loop's timers (R102, R112). -/
def tickProtection (x : Protection) : Protection :=
  { x with
    circuits := x.circuits.map CircuitRec.tick
    loop := { x.loop with settle := tickOpt x.loop.settle, pressure := tickOpt x.loop.pressure } }

/-- The permit's timers (R124). -/
def Permit.tick (p : Permit) : Permit :=
  { p with
    confirm := tickOpt p.confirm, use := tickOpt p.use, tap := tickOpt p.tap, weightWait := tickOpt p.weightWait }

/-- The gap timers (R150). -/
def tickPorts (x : PerPort PortRec) : PerPort PortRec := x.mapPort (fun _ r => { r with gap := tickOpt r.gap })

/-- One millisecond of the powered part's volatile timers. -/
def tickBlocks (s : State) : State :=
  { s with
    allot := tickAllotment s.allot
    shop := tickShop s.shop
    stage := tickStage s.stage
    scan := tickScanner s.scan
    prot := tickProtection s.prot
    tap := { s.tap with permit := s.tap.permit.map Permit.tick }
    ports := tickPorts s.ports
    sett := { s.sett with idle := tickOpt s.sett.idle } }

/-- One millisecond passes. With the main supply absent only the retained clock goes on. An idle transmitter with a
frame pending has begun it (R77). -/
def tick (s : State) : State := if s.powered then tickBlocks (tickClock (kick s)) else tickClock s

/-! ### The events that time owes -/

/-- A timer in ms that has reached a limit. -/
def reached (t : Option Nat) (limit : Nat) : Bool :=
  match t with
  | some n => decide (limit ≤ n)
  | none => false

/-- A command, when a condition holds. -/
def owedIf (b : Bool) (c : Instr) : List Instr := if b then [c] else []

/-- The transmitter's and the ports' timers. -/
def owedLink (s : State) : List Instr :=
  owedIf (decide (Config.refreshMs ≤ s.stage.refresh) && !s.stage.pendingSetpoint) .refreshTimerExpiry
    ++ owedIf (s.stage.link == .up && reached s.stage.deadline Config.reportDeadlineMs) .reportDeadlineExpiry
    ++ owedIf (reached s.ports.a.gap Config.gapMs) (.attnGapEnd .a)
    ++ owedIf (reached s.ports.b.gap Config.gapMs) (.attnGapEnd .b)
    ++ owedIf (reached s.ports.p.gap Config.gapMs) (.attnGapEnd .p)
    ++ owedIf (s.sett.owner.isSome && reached s.sett.idle Config.channelIdleMs) .channelIdleExpiry

/-- The scanner's timers: the sweep, stale channels, dips. -/
def owedScan (s : State) : List Instr :=
  owedIf (s.scan.running && reached s.scan.sweepTimer Config.sweepMs) .sweepUnit
    ++ ((allChans.filter (fun ch =>
        ch.isWater && ((chanOf s ch).status == .valid || (chanOf s ch).status == .broken)
          && (match (chanOf s ch).updatedAt with
              | some t => decide (t + Config.staleMs ≤ s.clock.ms)
              | none => false))).map Instr.channelStale)
    ++ owedIf (s.scan.dips.a.state == .sampling && reached s.scan.dips.a.timer Config.dipMs) (.dipTimerExpiry .a)
    ++ owedIf (s.scan.dips.b.state == .sampling && reached s.scan.dips.b.timer Config.dipMs) (.dipTimerExpiry .b)

/-- The timers of one circuit. -/
def owedCircuit (s : State) (c : Circuit) : List Instr :=
  let r := circuitOf s c
  owedIf (r.state == .watch && r.watch.due (watchTime s)) (.watchTimerExpiry c)
    ++ owedIf (r.state == .derate && r.derate.due (derateTime s)) (.derateTimerExpiry c)
    ++ owedIf (r.state == .derate && r.recovery.due (recoverTime s)) (.recoveryTimerExpiry c)

/-- The protection timers. -/
def owedProtection (s : State) : List Instr :=
  owedCircuit s .coilA ++ owedCircuit s .coilB ++ owedCircuit s .cabinet
    ++ owedIf ((s.prot.loop.state == some .main || s.prot.loop.state == some .standby)
        && reached s.prot.loop.pressure Config.pressureMs) .pressureTimerExpiry
    ++ owedIf (inChangeover s && reached s.prot.loop.settle (standbySettle s * 1000)) .settleTimerExpiry

/-- The Deck Off hold timer of a deck. -/
def owedDeck (s : State) (f : Furnace) : List Instr :=
  let d := s.shop.decks.get f
  owedIf (d.level && !d.held && reached d.timer Config.deckHoldMs) (.deckOffHold f)

/-- The Deck Off and stuck timers. -/
def owedShop (s : State) : List Instr :=
  owedDeck s .a ++ owedDeck s .b
    ++ owedIf (s.lines.breakerClosed && reached s.shop.stuckTimer Config.stuckMs) .breakerStuckExpiry

/-- The permit's timers. -/
def owedPermit (s : State) : List Instr :=
  match s.tap.permit with
  | none => []
  | some p =>
    owedIf (p.state == .pending && reached p.confirm (tapConfirmTime s * 1000)) .tapConfirmExpiry
      ++ owedIf (p.state == .granted && p.forwardAt.isNone && reached p.use (permitUseTime s * 1000)) .permitUseExpiry
      ++ owedIf (p.state == .granted && !p.longPosted && reached p.tap (tapMaxTime s * 1000)) .tapMaxExpiry
      ++ owedIf (p.state == .granted && reached p.weightWait (weightWaitTime s * 1000)) .weightWaitExpiry

/-- Entries whose deadline has passed and that are not under a permit (R136). -/
def owedLapses (s : State) : List Instr :=
  (s.tap.queue.filter (fun e => e.lapsed (now s) && (permitOfEntry s e.id).isNone)).map (fun e => .entryLapse e.id)

/-- The pulse timer of an output: the period start, and the end of the ON phase at the duty in force (R57). -/
def owedPulse (s : State) (f : Furnace) : List Instr :=
  let r := s.allot.out.get f
  owedIf (r.mode == .pulse && reached r.period Config.pulsePeriodMs) (.pulsePeriodStart f)
    ++ owedIf (r.mode == .pulse && r.phase == some .on && reached r.period (r.duty.getD 10 * 1000)) (.pulseOffPhase f)

/-- The seconds. -/
def owedSeconds (s : State) : List Instr :=
  owedIf s.clock.estDue.a (.estimatorSecond .a) ++ owedIf s.clock.estDue.b (.estimatorSecond .b)
    ++ owedIf s.clock.readyDue .readinessSecond

/-- The events that the part's own timers owe, in the order the model takes them (log 1). -/
def owed (s : State) : List Instr :=
  if s.powered then
    owedLink s ++ owedScan s ++ owedProtection s ++ owedShop s ++ owedPermit s ++ owedLapses s ++ owedPulse s .a
      ++ owedPulse s .b ++ owedSeconds s
  else []

/-- What the part does with no command waiting: the first event owed, else a millisecond passes. -/
def idle (s : State) : Host.Outcome State Fault Refusal :=
  match owed s with
  | c :: _ => exec c s
  | [] => .next (tick s)

/-- The state with another queue. -/
def State.withQueue (q : List Instr) (s : State) : State := { s with pending := q }

/-- A step: the command at the front of the queue on the queue's rest; on an empty queue, time. -/
def step (s : State) : Host.Outcome State Fault Refusal :=
  match s.pending with
  | c :: rest => exec c (s.withQueue rest)
  | [] => idle s

/-- The command a word spells put at the front of the queue. No row of the table gives bits, so no word spells one. -/
def State.withFetchWord (s : State) (nbits w : Nat) : State :=
  match decodeTableWord nbits w with
  | some c => s.withQueue (c :: s.pending)
  | none => s

end Sys2Proof.Machine
end

