-- ==== Sys2Proof/Safety.lean ====
section
/-! DEFINITION. The laws a state obeys, each kept by every step, and the words the statements are made of. -/

namespace Sys2Proof.Machine

/-! ### The allotment from its inputs (R40, R44, R45, R48 to R58) -/

/-- The hold demand of a heat, kW (R40). -/
def holdAsked (s : State) (f : Furnace) (h : Heat) : Nat :=
  let target := if s.shop.state = .banked then bankTarget s else h.holdTarget
  let base : Int := (lossKw s f * 100 / effPct s f : Nat)
  let correction : Int :=
    match h.estimate with
    | some e => (holdGain s : Int) * ((target : Int) - (e : Int))
    | none => 0
  min (base + correction).toNat (outputMax s f) / 10 * 10

/-- The request of an output: the table of R45. -/
def asked (s : State) (f : Furnace) : Nat :=
  match heatOf s f with
  | none => 0
  | some h =>
    match h.state, h.estimate with
    | .melting, _ | .superheat, some _ => (s.allot.out.get f).meltRequest
    | .tapping, _ => min (holdAsked s f h) (tapCap s / 10 * 10)
    | .superheat, none | .holding, _ | .tapReady, _ => holdAsked s f h

/-- The class of an output: the table of R45. -/
def askingClass (s : State) (f : Furnace) : DemandClass :=
  match heatOf s f with
  | none => .none
  | some h =>
    match h.state, h.estimate with
    | .melting, _ | .superheat, some _ => .melt
    | .superheat, none | .holding, _ | .tapReady, _ | .tapping, _ => .hold

/-- A bound, when its condition holds. -/
def boundIf (p : Prop) [Decidable p] (x : Factor) (value : Nat) : List (Factor × Nat) := if p then [(x, value)] else []

/-- The bounds that apply to an output beside its request, in the order of R48, each at its value (R48 to R51). -/
def boundsOn (s : State) (f : Furnace) : List (Factor × Nat) :=
  let coil := (circuitOf s (coilOf f)).state
  let cabinet := (circuitOf s .cabinet).state
  let out := coil = .init ∨ coil = .trip ∨ cabinet = .init ∨ cabinet = .trip
  let tilt := tiltOf s f
  let shop := s.shop.state
  [(.outputMax, outputMax s f / 10 * 10)]
    ++ boundIf out .cooling 0
    ++ boundIf (¬ out ∧ (coil = .derate ∨ cabinet = .derate)) .cooling (outputMax s f * deratePct s / 100 / 10 * 10)
    ++ boundIf (s.stage.last.any (fun r => (r.out.get f).status == .fault) = true) .stage 0
    ++ boundIf (s.stage.link ≠ .up) .link 0
    ++ boundIf (tilt = .back) .tilt (tapCap s / 10 * 10)
    ++ boundIf ((tilt = .forward ∨ tilt = .invalid) ∧ grantedFor s f = false) .tilt 0
    ++ boundIf (pendingFor s f = true ∨ (heatOf s f).any (fun h => h.state == .tapping) = true) .permit
        (tapCap s / 10 * 10)
    ++ boundIf (shop = .supplyOff ∨ shop = .held ∨ shop = .banked ∧ askingClass s f = .melt) .shop 0
    ++ boundIf (shop = .banked ∧ askingClass s f ≠ .melt) .shop (bankCap s / 10 * 10)
    ++ boundIf ((s.heat.slots.get f).stopped = true) .stopped 0

/-- The smallest value of a list of bounds. -/
def smallest : List (Factor × Nat) → Nat
  | [] => 0
  | b :: rest => (rest.map Prod.snd).foldl min b.2

/-- The name of the first bound with a value (R48). -/
def firstWith (n : Nat) (bounds : List (Factor × Nat)) : Factor :=
  ((bounds.find? (fun b => b.2 == n)).map Prod.fst).getD .request

/-- The limiting factor of an output with a cap, a grant and an available budget (R48, R56). R56's cases are tried in the
order of its text, so that a cap above the available budget shows BUDGET also where the grant and the pulse ceiling are
below MIN_CONT: that overlap is the model's reading (log 16). -/
def limitedBy (s : State) (f : Furnace) (cap grant available : Nat) : Factor :=
  let bounds := boundsOn s f
  let low := 0 < grant ∧ grant < minCont s f
  if available < cap then .budget
  else if low ∧ minCont s f ≤ smallest bounds ∧ available < minCont s f then .budget
  else if low ∧ smallest bounds < minCont s f then firstWith (smallest bounds) bounds
  else firstWith cap ((.request, asked s f) :: bounds)

/-- The allotment record of an output as its inputs and an available budget give it (R45, R48, R52, R54, R56 to R58). -/
def OutputRule (s : State) (f : Furnace) (available : Nat) : Prop :=
  let r := s.allot.out.get f
  let least := minCont s f
  let ceiling := smallest (boundsOn s f)
  let duty := 10 * r.grant / least
  r.request = asked s f ∧ r.cls = askingClass s f ∧ r.cap = min (asked s f) ceiling ∧ r.grant = min r.cap available
    ∧ r.factor = limitedBy s f r.cap r.grant available
    ∧ (r.mode = .cont ↔ 0 < r.grant ∧ least ≤ r.grant)
    ∧ (r.mode = .pulse ↔ 0 < r.grant ∧ r.grant < least ∧ least ≤ available ∧ least ≤ ceiling ∧ 1 ≤ duty)
    ∧ (r.mode = .off → r.reserve = 0 ∧ r.command = 0)
    ∧ (r.mode = .cont → r.reserve = r.grant ∧ r.command = r.grant)
    ∧ (r.mode = .pulse →
        r.reserve = least ∧ r.command = (if r.phase = some .on then least else 0)
          ∧ r.waitingDuty = (if r.duty = some duty then none else some duty))
    ∧ (r.mode ≠ .pulse → r.duty = none ∧ r.waitingDuty = none ∧ r.phase = none ∧ r.period = none)

/-- The priority output: the higher class, then the earlier class entry stamp, then A (R53). -/
def PriorityRule (s : State) : Prop :=
  let p := s.allot.priority
  let rank := classRank (askingClass s p)
  let other := classRank (askingClass s (otherFurnace p))
  other < rank
    ∨ other = rank ∧ 0 < rank ∧ stampOf s p < stampOf s (otherFurnace p)
    ∨ other = rank ∧ (rank = 0 ∨ stampOf s p = stampOf s (otherFurnace p)) ∧ p = .a

/-- The ceiling in force and the budget W (R44). -/
def BudgetRule (s : State) : Prop :=
  s.allot.ceiling = (if s.allot.shed = true then shedCeiling s else demandCeiling s)
    ∧ s.allot.budget = min (supplyRating s) s.allot.ceiling / 10 * 10

/-- The allotment as its inputs give it: the priority output from the whole budget, the other from what the reserve
leaves (R53 to R55). -/
def AllotmentRule (s : State) : Prop :=
  let p := s.allot.priority
  PriorityRule s ∧ OutputRule s p s.allot.budget
    ∧ OutputRule s (otherFurnace p) (s.allot.budget - (s.allot.out.get p).reserve)

/-- The allotment is as the inputs give it as they stand (R44, R59); before the settings load has ended its records stand
at their reset values (R63). -/
def AllotmentCurrent (s : State) : Prop :=
  BudgetRule s
    ∧ if loading s = true then s.allot.out = ⟨AllotRec.reset, AllotRec.reset⟩ else AllotmentRule s

/-! ### Power (R52, R55, R60) -/

/-- An output in PULSE mode has its duty, its phase and its period, and no duty outside 1..9 (R43, R54, R57). -/
def PulseRule (r : AllotRec) : Prop :=
  (r.mode = .pulse → (∃ d ∈ r.duty, 1 ≤ d ∧ d ≤ 9) ∧ r.phase.isSome = true ∧ r.period.isSome = true)
    ∧ ∀ d ∈ r.waitingDuty, 1 ≤ d ∧ d ≤ 9

/-- An output that has come into PULSE mode has started a period, from 0 and in the ON phase, with a duty (R57, R58). -/
def PulseEntered (x y : AllotRec) : Prop :=
  y.mode = .pulse → x.mode ≠ .pulse → y.phase = some .on ∧ y.period = some 0 ∧ y.duty.isSome = true

/-- One computation starts a period where it enters PULSE mode, with the new duty in force and none waiting; where it
stays there the period, the phase and the duty in force stand (R58). -/
def PulseComputed (x y : AllotRec) : Prop :=
  PulseEntered x y
    ∧ (y.mode = .pulse →
        if x.mode = .pulse then y.duty = x.duty ∧ y.phase = x.phase ∧ y.period = x.period else y.waitingDuty = none)

/-- The held pair of the Stage Link Controller is the pair of the allotment records (R60). -/
def PairHandedOver (s : State) : Prop := s.stage.held = pairOf s.allot.out

/-- The power law: the allotment is current, its pair handed over, and an output in PULSE mode has its period. -/
def PowerLaw (s : State) : Prop := AllotmentCurrent s ∧ PairHandedOver s ∧ ∀ f, PulseRule (s.allot.out.get f)

/-- What an output takes from the budget: MIN_CONT in both phases of PULSE mode, else the command (R55). -/
def drawOf (s : State) (f : Furnace) : Nat :=
  if (s.allot.out.get f).mode = .pulse then minCont s f else (s.allot.out.get f).command

/-- One of the conditions of R52 under which an output's command is 0. -/
def MustBeOff (s : State) (f : Furnace) : Prop :=
  (circuitOf s (coilOf f)).state = .init ∨ (circuitOf s (coilOf f)).state = .trip
    ∨ (circuitOf s .cabinet).state = .init ∨ (circuitOf s .cabinet).state = .trip
    ∨ s.stage.link ≠ .up
    ∨ (∃ r, s.stage.last = some r ∧ (r.out.get f).status = .fault)
    ∨ s.shop.state = .supplyOff ∨ s.shop.state = .held
    ∨ slotOf s f = .empty ∨ slotOf s f = .unknown ∨ (s.heat.slots.get f).stopped = true
    ∨ (tiltOf s f = .forward ∧ grantedFor s f = false)

/-- A circuit of an output is in DERATE (R49). -/
def Derated (s : State) (f : Furnace) : Prop :=
  (circuitOf s (coilOf f)).state = .derate ∨ (circuitOf s .cabinet).state = .derate

/-! ### The stage link (R75, R76, R82) -/

/-- A SETPOINT on the wire has had the link UP since it began. -/
def Transmitter.upSinceBegun : Transmitter → Bool
  | .sendingSetpoint fr => fr.upSinceBegun
  | _ => false

/-- The report deadline runs exactly while the link is UP, a link that is not UP has no sent flag and no SETPOINT on the
wire that could set one, and the receiver's assembly is empty between commands (log 34). -/
def StageLaw (s : State) : Prop :=
  (s.stage.deadline.isSome = true ↔ s.stage.link = .up) ∧ s.stage.assembly = []
    ∧ (s.stage.link ≠ .up → s.stage.sent = noFurnace ∧ s.stage.transmitter.upSinceBegun = false)

/-! ### The tap queue and the permit (R120, R124) -/

/-- The ids of the queue's entries. -/
def queueIds (s : State) : List Nat := s.tap.queue.map Entry.id

/-- The heat of a furnace is TAP_READY. -/
def isTapReady (s : State) (f : Furnace) : Bool :=
  match heatOf s f with
  | some h => h.state == .tapReady
  | none => false

/-- The queue holds at most 8 entries, no two with one ladle number or one request id, none with the id of the last
ended permit, and at most one ASSIGNED (R120). -/
def QueueLaw (s : State) : Prop :=
  s.tap.queue.length ≤ Config.queueMax
    ∧ (s.tap.queue.map Entry.ladle).Nodup ∧ (queueIds s).Nodup
    ∧ (∀ n ∈ s.tap.lastEnded, n ∉ queueIds s)
    ∧ (∀ n ∈ queueIds s, 1 ≤ n ∧ n ≤ 255) ∧ 1 ≤ s.tap.nextId ∧ s.tap.nextId ≤ 255
    ∧ (s.tap.queue.filter (fun e => e.assigned.isSome)).length ≤ 1

/-- The permit and the heat of a furnace agree (R123, R124): a heat is TAPPING exactly while its furnace holds the
granted permit, and it is TAP_READY while its permit is pending or its entry is ASSIGNED without a permit. -/
def PermitLawOf (s : State) (f : Furnace) : Prop :=
  (s.powered = true → (isTapping s f = true ↔ grantedFor s f = true))
    ∧ (pendingFor s f = true → isTapReady s f = true)
    ∧ (s.tap.permit = none → (assignedTo s f).isSome = true → isTapReady s f = true)

/-- The tap law: the queue law, a permit that stands on the ASSIGNED entry of its furnace and holds no weight while it is
pending (R133), the two furnaces, and an empty queue while the settings are being loaded (R139). -/
def TapLaw (s : State) : Prop :=
  QueueLaw s
    ∧ (∀ p ∈ s.tap.permit, ∃ e ∈ s.tap.queue, e.id = p.requestId ∧ e.assigned = some p.furnace)
    ∧ (∀ p ∈ s.tap.permit, p.state = .pending → p.weight = none)
    ∧ PermitLawOf s .a ∧ PermitLawOf s .b
    ∧ (loading s = true → s.tap.queue = [] ∧ s.tap.permit = none)

/-! ### Masses (R5) -/

/-- The bath mass of a heat is its charge masses plus its restate adjustment minus its poured masses (R5). -/
def HeatMassLaw (h : Heat) : Prop :=
  (h.bathMass : Int) = (chargedMass h : Int) + h.restateAdj - (tappedMass h : Int)

/-- The mass law of a furnace; a TAPPING heat has its open tap (R4). -/
def MassLawOf (s : State) (f : Furnace) : Prop :=
  ∀ h ∈ heatOf s f, HeatMassLaw h ∧ (h.state = .tapping → h.openTap.isSome = true)

/-- The mass law, with the tap law and the clamp of R133 that it rests on. -/
def MassLaw (s : State) : Prop :=
  TapLaw s ∧ MassLawOf s .a ∧ MassLawOf s .b
    ∧ (∀ p ∈ s.tap.permit, ∀ w ∈ p.weight, w.mass ≤ bathMassOf s p.furnace)

/-! ### The unit in progress (R92) -/

/-- The unit in progress converts a channel when it reaches it: a channel that is OFF is passed over, and a dip channel
whose dip unit is not SAMPLING (R91, R92). -/
def UnitReaches (s : State) (ch : Chan) : Prop :=
  (chanOf s ch).status ≠ .off ∧ (ch = .dipA → s.scan.dips.a.state = .sampling)
    ∧ (ch = .dipB → s.scan.dips.b.state = .sampling)

/-- A unit's plan as it stands once the places that the unit in progress has passed are gone. -/
def PlanReached (s : State) (plan : List Chan) : Prop :=
  ∃ n, plan = s.scan.plan.drop n ∧ (∀ x ∈ s.scan.plan.take n, ¬ UnitReaches s x) ∧ ∀ x ∈ plan.head?, UnitReaches s x

/-- A conversion is the one that the unit in progress ends next, with further channels of the unit behind it. -/
def DueNext (s : State) (ch : Chan) (behind : List Chan) : Prop :=
  ∃ n < s.scan.plan.length,
    s.scan.plan.drop n = ch :: behind ∧ UnitReaches s ch ∧ ∀ x ∈ s.scan.plan.take n, ¬ UnitReaches s x

/-! ### Protection (R102, R108, R112 to R114, R119) -/

/-- No timer of a circuit runs. -/
def NoTimerRuns (r : CircuitRec) : Prop :=
  r.watch.mode ≠ .running ∧ r.derate.mode ≠ .running ∧ r.recovery.mode ≠ .running

/-- Every timer of a circuit is stopped, and none is held (R108). -/
def TimersStopped (r : CircuitRec) : Prop :=
  r.watch.mode = .stopped ∧ r.derate.mode = .stopped ∧ r.recovery.mode = .stopped

/-- A record with its three timers stopped, each with the time it has counted (R102). -/
def timersHalted (r : CircuitRec) : CircuitRec :=
  { r with
    watch := { r.watch with mode := .stopped }, derate := { r.derate with mode := .stopped }
    recovery := { r.recovery with mode := .stopped } }

/-- The timers of one record stand stopped in the other, each with the time it has counted (R102). -/
def TimersHalted (r r' : CircuitRec) : Prop :=
  r'.watch = (timersHalted r).watch ∧ r'.derate = (timersHalted r).derate ∧ r'.recovery = (timersHalted r).recovery

/-- A circuit record: a tripped circuit is latched, the trip cause is present in TRIP alone, and in TRIP the three timers
are stopped (R102, R108). -/
def CircuitLaw (r : CircuitRec) : Prop :=
  (r.state = .trip → r.latch = true ∧ TimersStopped r) ∧ (r.cause.isSome = true ↔ r.state = .trip)

/-- The protection law: every circuit's own law; in LOOP_FAIL every circuit is in TRIP; the settle timer runs in
CHANGEOVER alone, and no circuit timer runs there; the loop has no state, and every circuit is in INIT, exactly until
the settings load ends. -/
def ProtectionLaw (s : State) : Prop :=
  CircuitLaw s.prot.circuits.coilA ∧ CircuitLaw s.prot.circuits.coilB ∧ CircuitLaw s.prot.circuits.cabinet
    ∧ (s.prot.loop.state = some .loopFail →
        s.prot.circuits.coilA.state = .trip ∧ s.prot.circuits.coilB.state = .trip
          ∧ s.prot.circuits.cabinet.state = .trip)
    ∧ (s.prot.loop.settle.isSome = true ↔ s.prot.loop.state = some .changeover)
    ∧ (s.prot.loop.state = some .changeover →
        NoTimerRuns s.prot.circuits.coilA ∧ NoTimerRuns s.prot.circuits.coilB ∧ NoTimerRuns s.prot.circuits.cabinet)
    ∧ (s.prot.loop.state = none ↔ loading s = true)
    ∧ (loading s = true →
        s.prot.circuits.coilA.state = .init ∧ s.prot.circuits.coilB.state = .init
          ∧ s.prot.circuits.cabinet.state = .init)

/-! ### The shop (R64, R66, R73) -/

/-- The deck is held back (R64). -/
def HeldBack (s : State) : Prop := anyReason s.shop.reasons = true ∨ loading s = true

/-- The shop law: the table of R64, and a BREAKER_TRIP that stands only while the breaker is closed, with its stuck
timer and BREAKER_STUCK only while it stands (R73). -/
def ShopLaw (s : State) : Prop :=
  (s.shop.state = .supplyOff ↔ s.lines.breakerClosed = false)
    ∧ (s.shop.state = .held ↔ s.lines.breakerClosed = true ∧ HeldBack s)
    ∧ (s.shop.breakerTrip = true → s.lines.breakerClosed = true)
    ∧ (s.shop.stuckTimer.isSome = true ∨ s.shop.stuck = true → s.shop.breakerTrip = true)

/-! ### Notices (R145) -/

/-- A port's notice record holds at most one entry a kind, its next serial lies in 1..65 535 (R140, R145), and its assembly
is empty between commands (log 3). -/
def PortLaw (r : PortRec) : Prop :=
  (r.notices.map (fun n => n.detail.kind)).Nodup ∧ 1 ≤ r.nextSerial ∧ r.nextSerial ≤ 65535 ∧ r.assembly = []

/-- The notice law. -/
def NoticeLaw (s : State) : Prop := PortLaw s.ports.a ∧ PortLaw s.ports.b ∧ PortLaw s.ports.p

/-! ### Settings (R152, R154) -/

/-- A setting's value lies in its range as the other settings stand, and is a multiple of 10 where it must be. CAPACITY
is judged without an open heat. -/
def SettingInRange (w : List Nat) (n : Nat) : Prop :=
  (rangeOf w ⟨0, 0⟩ false n).1 ≤ valueIn w n ∧ valueIn w n ≤ (rangeOf w ⟨0, 0⟩ false n).2
    ∧ (isTens n = true → valueIn w n % 10 = 0)

/-- Every setting of a working copy lies in its range. -/
def WorkingInRange (w : List Nat) : Prop := w.length = 65 ∧ ∀ n, 1 ≤ n → n ≤ 65 → SettingInRange w n

/-- The settings law: every setting in its range, the channel's idle timer running exactly while the channel has an owner
(R155), and no bath above the CAPACITY of its furnace, above 20 000 kg while the settings are being loaded (R8, R14, R20,
R152). -/
def SettingsLaw (s : State) : Prop :=
  WorkingInRange s.sett.working ∧ (s.sett.owner = none ↔ s.sett.idle = none)
    ∧ ∀ f, bathMassOf s f ≤ (if loading s = true then 20000 else capacity s f)

/-! ### Requests -/

/-- A port is ready to take a request: the part runs, the settings load has ended, and no request is in hand. -/
def Ready (q : Port) (s : State) : Prop :=
  s.powered = true ∧ loading s = false ∧ (s.ports.get q).inHand = none

/-- A naming of ACK-NOTICES clears an entry: of the kind named, with the serial named, or with 0 named (R148). -/
def namingClears (x : Nat × Nat) (n : Notice) : Bool := x.1 == n.detail.kind.code && (x.2 == 0 || x.2 == n.serial)

/-- The kinds that the namings of an ACK-NOTICES find pending with a serial other than the one named, in their order, each
on the record that the earlier ones have left (R148, log 30). -/
def kindsKept : List (Nat × Nat) → List Notice → List Nat
  | [], _ => []
  | x :: rest, record =>
    (if record.any (fun n => x.1 == n.detail.kind.code && !namingClears x n) then [x.1] else [])
      ++ kindsKept rest (record.filter (fun n => !namingClears x n))

/-- The kinds that the namings clear, in their order, each on the record that the earlier ones have left (R148, log 30). -/
def kindsCleared : List (Nat × Nat) → List Notice → List Nat
  | [], _ => []
  | x :: rest, record =>
    (if record.any (namingClears x) then [x.1] else [])
      ++ kindsCleared rest (record.filter (fun n => !namingClears x n))

/-- The kinds of a list that stand in a record, each as its code and its serial there, behind their count (R148, R161,
log 13). -/
def kindsListed (record : List Notice) (kinds : List Nat) : List Byte :=
  listBytes (kinds.filterMap (fun k =>
    (record.find? (fun n => n.detail.kind.code == k)).map (fun n => be1 k ++ be2 n.serial)))

/-- The port's answer to the request in hand. -/
def Answers (q : Port) (outcome : ReqOutcome) (reason : Option Reason) (body : List Byte) (s : State) : Prop :=
  (s.ports.get q).answer = some { outcome := outcome, reason := reason, body := body }

/-- The state with a port's request in hand and answer set, and its assembly emptied. -/
def withAnswer (q : Port) (fr : Frame) (r : Reply) (s : State) : State :=
  setPort q { s.ports.get q with assembly := [], inHand := some fr, answer := some r } s

/-- DONE, or DONE_CLAMPED when a value was changed. -/
def takenAs (clamped : Bool) : ReqOutcome := if clamped then .doneClamped else .done

/-! ### The Heat Table's lists (R3, R6, R21) -/

/-- The heat numbers in use: those of the open heats and of the closed-heat log. -/
def numbersInUse (s : State) : List Nat :=
  ((heatOf s .a).map Heat.number).toList ++ ((heatOf s .b).map Heat.number).toList ++ s.heat.log.map Summary.number

/-- The table law: at most 32 summaries, heat numbers pairwise distinct, at most 12 charge entries in a heat. -/
def TableLaw (s : State) : Prop :=
  s.heat.log.length ≤ Config.logMax ∧ (numbersInUse s).Nodup
    ∧ ∀ f, ∀ h ∈ heatOf s f, h.charges.length ≤ Config.chargeMax

/-! ### Notices -/

/-- A notice of this detail is pending at every port it is addressed to. -/
def Noticed (d : Detail) (s : State) : Prop :=
  ∀ q, d.addressedTo q = true → ∃ n ∈ (s.ports.get q).notices, n.detail = d

/-- A port record in which at most notices of the kinds given have been posted (R145): the notices of other kinds stand,
and no kind has gone. -/
def PortNoted (kinds : List NoticeKind) (x y : PortRec) : Prop :=
  y = { x with notices := y.notices, nextSerial := y.nextSerial }
    ∧ y.notices.filter (fun n => !kinds.contains n.detail.kind) = x.notices.filter (fun n => !kinds.contains n.detail.kind)
    ∧ ∀ n ∈ x.notices, ∃ m ∈ y.notices, m.detail.kind = n.detail.kind

/-- At most notices of the kinds given have been posted at the ports. -/
def PortsNoted (kinds : List NoticeKind) (s t : State) : Prop :=
  ∀ q, PortNoted kinds (s.ports.get q) (t.ports.get q)

/-- The notice kinds that matching and the tilt evaluation can post. -/
def matchKinds : List NoticeKind := [.tapCall, .unpermittedTilt]

/-- The notice kinds that the end of a pending permit can post (R127, R136). -/
def refusalKinds : List NoticeKind := [.permitResolved, .entryExpired]

/-- The notice kinds that the evaluations of the heats and what follows them can post while the permit stands. -/
def followKinds : List NoticeKind := [.readyChanged, .shopState] ++ matchKinds

/-- The notice kinds that the evaluations of the heats and what follows them can post. -/
def settleKinds : List NoticeKind := followKinds ++ refusalKinds

/-- The notice kinds that a step of protection can post. -/
def protectKinds : List NoticeKind := [.cooling, .leakWarn, .pumpChangeover] ++ settleKinds

/-! ### What an evaluation may change, and what it leaves -/

/-- The moves of R10 and R11: MELTING and TAPPING stand, and SUPERHEAT is left and entered only with an estimate. -/
def StateMoved (h : Heat) (dest : HeatState) : Prop :=
  match h.state with
  | .melting => dest = .melting
  | .tapping => dest = .tapping
  | .superheat => dest = .superheat ∨ (dest = .holding ∨ dest = .tapReady) ∧ h.estimate.isSome = true
  | .holding | .tapReady => dest = .holding ∨ dest = .tapReady ∨ dest = .superheat ∧ h.estimate.isSome = true

/-- A heat after evaluations in a shop second: its state has moved by R10 and R11 at most, and the class entry stamp, set
by a change of class, is the heat's or that second (R7). -/
def HeatMoved (second : Nat) (h h' : Heat) : Prop :=
  h' = { h with state := h'.state, classStamp := h'.classStamp } ∧ StateMoved h h'.state
    ∧ (h'.classStamp = h.classStamp ∨ h'.classStamp = second)
    ∧ (heatClass h' ≠ heatClass h → h'.classStamp = second)

/-- A furnace slot that evaluations have passed over. -/
def SlotEvaluated (second : Nat) (x y : FurnaceSlot) : Prop :=
  y = { x with slot := y.slot }
    ∧ match x.slot with
      | .heat h => ∃ h', y.slot = .heat h' ∧ HeatMoved second h h'
      | other => y.slot = other

/-- A heat whose class stands has its class entry stamp (R7). -/
def ClassKept (f : Furnace) (s t : State) : Prop :=
  ∀ h ∈ heatOf s f, ∀ h' ∈ heatOf t f, heatClass h' = heatClass h → h'.classStamp = h.classStamp

/-- The READY_CHANGED that R11 posts for a furnace whose heat has become TAP_READY, or has left TAP_READY for HOLDING. -/
def readyPosting (f : Furnace) (s t : State) : Option Detail :=
  match heatOf s f, heatOf t f with
  | some h, some h' =>
    if h.state ≠ .tapReady ∧ h'.state = .tapReady then some (.readyChanged f h.number .tapReady)
    else if h.state = .tapReady ∧ h'.state = .holding then some (.readyChanged f h.number .holding)
    else none
  | _, _ => none

/-- READY_CHANGED is pending for every such move at its deck, and at the Pour Line for the last of them. The spec orders
no two furnaces: that A is evaluated before B, and so the Pour Line's notice is that of B, is the model's choice
(log 10). -/
def ReadyPosted (s t : State) : Prop :=
  ∀ f, ∀ d ∈ readyPosting f s t,
    (∃ n ∈ (t.ports.get (deckPort f)).notices, n.detail = d)
      ∧ (f = .b ∨ readyPosting .b s t = none → ∃ n ∈ t.ports.p.notices, n.detail = d)

/-- A Stage Link Controller to which at most a pair has been handed over, and whose transmitter may have begun a frame. -/
def StageHanded (x y : Stage) : Prop :=
  y = { x with
    held := y.held, tripHold := y.tripHold, transmitter := y.transmitter, pendingSetpoint := y.pendingSetpoint,
    pendingTrip := y.pendingTrip, refresh := y.refresh }

/-- An allotment computed again: the melt requests and SHED stand, and the pulse periods go on or start (R58). -/
def AllotmentComputed (x y : Allotment) : Prop :=
  y.shed = x.shed
    ∧ ∀ f, (y.out.get f).meltRequest = (x.out.get f).meltRequest ∧ PulseComputed (x.out.get f) (y.out.get f)

/-! ### Matching and the tilt notice -/

/-- The entries of a queue, whatever their assignment. -/
def entriesOf (q : List Entry) : List Entry := q.map (fun e => { e with assigned := none })

/-- A furnace qualifies for an entry (R122). -/
def ServesEntry (s : State) (e : Entry) (f : Furnace) : Prop :=
  ∃ h ∈ heatOf s f,
    h.state = .tapReady ∧ (e.preference = .either ∨ e.preference = (if f = .a then .a else .b))
      ∧ heelMin s f + e.wanted ≤ h.bathMass ∧ ∃ t ∈ h.estimate, e.low ≤ t ∧ t ≤ e.high

/-- A furnace is the one an entry goes to: it qualifies, and where both do it holds the larger bath, or is A (R122). -/
def TakesEntry (s : State) (e : Entry) (f : Furnace) : Prop :=
  ServesEntry s e f
    ∧ (ServesEntry s e (otherFurnace f) →
        bathMassOf s (otherFurnace f) < bathMassOf s f ∨ bathMassOf s (otherFurnace f) = bathMassOf s f ∧ f = .a)

/-- The TAP_CALL of an assignment (R123). -/
def tapCallOf (s : State) (e : Entry) (f : Furnace) : Detail :=
  .tapCall f (heatNumber s f) e.id e.ladle e.wanted (((heatOf s f).bind Heat.estimate).getD 0)

/-- Every entry ASSIGNED in `t` stood so in `s`, and no permit has ended on it, or it is the oldest entry, matched with
TAP_CALL: an entry whose permit has ended is WAITING, and its next assignment is a new one (R122, R123, R127, R131). -/
def AssignedFrom (s t : State) : Prop :=
  ∀ e ∈ t.tap.queue, ∀ f ∈ e.assigned,
    (e ∈ s.tap.queue ∧ ∀ p ∈ s.tap.permit, p.requestId = e.id → t.tap.permit.isSome = true)
      ∨ ∃ x ∈ t.tap.queue.head?, x.id = e.id ∧ x.assigned = some f ∧ TakesEntry t x f ∧ Noticed (tapCallOf t x f) t

/-- Matching has run (R122): an entry is ASSIGNED, or no furnace qualifies for the oldest entry. -/
def Matched (t : State) : Prop :=
  (∃ e ∈ t.tap.queue, e.assigned.isSome = true) ∨ ∀ e ∈ t.tap.queue.head?, ∀ f, ¬ ServesEntry t e f

/-- Between two states lies an event of R122 that can follow from the evaluations or from the end of a heat: a heat's
readiness has changed (R11), an ASSIGNED entry has returned to WAITING or left the queue, or the permit has ended. -/
def MatchingEvent (s t : State) : Prop :=
  (∃ f, isTapReady t f ≠ isTapReady s f) ∨ (∃ e ∈ s.tap.queue, e.assigned.isSome = true ∧ e ∉ t.tap.queue)
    ∨ s.tap.permit.isSome = true ∧ t.tap.permit = none

/-- Matching has run where an event of R122 asked for it (R122, R123, R127, R131). -/
def MatchingFollows (s t : State) : Prop := MatchingEvent s t → Matched t

/-- The kept resolution of a deck stands, or an assignment has removed it (R128). -/
def KeptMatched (f : Furnace) (x y : Tap) : Prop :=
  y.kept.get f = x.kept.get f ∨ y.kept.get f = none ∧ ∃ e ∈ y.queue, e.assigned = some f

/-- A Tap Coordinator that has run matching and evaluated UNPERMITTED_TILT. -/
def TapMatched (x y : Tap) : Prop :=
  y = { x with
      queue := y.queue, kept := y.kept, unpermitted := y.unpermitted, tiltCarried := y.tiltCarried,
      matchDue := y.matchDue }
    ∧ entriesOf y.queue = entriesOf x.queue ∧ ∀ f, KeptMatched f x y

/-- The entries of a queue after the entry of an ended permit has returned: WAITING in its place, or removed when its
deadline has passed (R127, R131, R136). -/
def entriesReturned (id second : Nat) (q : List Entry) : List Entry :=
  match q.find? (fun e => e.id == id) with
  | some e =>
    if e.lapsed second then q.filter (fun x => x.id != id)
    else q.map (fun x => if x.id = id then { x with assigned := none } else x)
  | none => q

/-- A Tap Coordinator after evaluations: the permit and the entries stand, unless the permit was pending and has been
refused, its entry returned and its refusal kept for the deck (R11, R127, R128). -/
def TapEvaluated (second : Nat) (x y : Tap) : Prop :=
  y.nextId = x.nextId ∧ y.lastEnded = x.lastEnded ∧ y.tilt = x.tilt
    ∧ ((y.permit = x.permit ∧ entriesOf y.queue = entriesOf x.queue ∧ ∀ f, KeptMatched f x y)
      ∨ ∃ p, x.permit = some p ∧ p.state = .pending ∧ y.permit = none
        ∧ entriesOf y.queue = entriesReturned p.requestId second (entriesOf x.queue)
        ∧ ∀ f, KeptMatched f x y
            ∨ p.furnace = f ∧ (y.kept.get f = some .notReady ∨ y.kept.get f = some .cancelled))

/-- ENTRY_EXPIRED is pending for an entry that has returned past its deadline (R136). -/
def ReturnPosted (id : Nat) (s t : State) : Prop :=
  ∀ e ∈ entryOf s id, e.lapsed s.clock.shopSeconds = true → Noticed (.entryExpired e.id e.ladle) t

/-- The refusal of a pending permit is told: PERMIT_RESOLVED with the reason and the heat number, and ENTRY_EXPIRED where
its entry has lapsed (R127, R136). -/
def RefusalPosted (p : Permit) (r : Reason) (number : Nat) (s t : State) : Prop :=
  Noticed (.permitResolved (some r) p.furnace number p.requestId (ladleOf s p.requestId)) t
    ∧ ReturnPosted p.requestId s t

/-- A refusal is kept for its deck, or an assignment has removed it (R128). -/
def RefusalKept (f : Furnace) (r : Reason) (y : Tap) : Prop :=
  y.kept.get f = some r ∨ y.kept.get f = none ∧ ∃ e ∈ y.queue, e.assigned = some f

/-- What evaluations tell of the permit (R11, R17, R127): one that they have ended is resolved NOT_READY with its heat, or
CANCELLED where a heat has closed; while the permit stands neither PERMIT_RESOLVED nor ENTRY_EXPIRED is posted, but for the
further kinds. -/
def RefusalTold (further : List NoticeKind) (s t : State) : Prop :=
  (∀ p ∈ s.tap.permit, p.state = .pending → t.tap.permit = none →
      ∃ r number, RefusalKept p.furnace r t.tap
        ∧ (r = .notReady ∧ number = heatNumber s p.furnace ∨ .heatClosed ∈ further ∧ r = .cancelled)
        ∧ RefusalPosted p r number s t)
    ∧ (t.tap.permit = s.tap.permit → PortsNoted (further ++ followKinds) s t)

/-- The UNPERMITTED_TILT condition of a furnace (R130). -/
def UnpermittedTilt (s : State) (f : Furnace) : Prop :=
  tiltOf s f = .forward ∧ grantedFor s f = false ∨ tiltOf s f = .invalid

/-- UNPERMITTED_TILT with a detail is pending at a port. -/
def TiltPending (q : Port) (d : TiltDetail) (t : State) : Prop :=
  ∃ n ∈ (t.ports.get q).notices, n.detail = .unpermittedTilt d

/-- Which furnace a level notice of both furnaces carries next at a port, from the conditions before and after (R110,
R130): one whose condition has arisen, of two that arose together that of B (log 12); else the one it carried, while that
condition stands; else the other furnace while its condition stands, else none. -/
def CarriesNext (was stands : PerFurnace Bool) (before after : Option Furnace) : Prop :=
  let arisen : Furnace → Prop := fun f => was.get f = false ∧ stands.get f = true
  (arisen .b → after = some .b) ∧ (arisen .a → ¬ arisen .b → after = some .a)
    ∧ (¬ arisen .a → ¬ arisen .b →
        (before = none → after = none)
        ∧ ∀ f ∈ before,
            (stands.get f = true → after = some f)
            ∧ (stands.get f = false → stands.get (otherFurnace f) = true → after = some (otherFurnace f))
            ∧ (stands.get f = false → stands.get (otherFurnace f) = false → after = none))

/-- UNPERMITTED_TILT has been evaluated (R130): at each port the notice carries the furnace that it must carry next, with
the tilt and the permit as they stand, and it is posted where its condition has arisen, where it goes over to the other
furnace and where its detail has changed. -/
def TiltNoticed (s t : State) : Prop :=
  (∀ f, t.tap.unpermitted.get f = true ↔ UnpermittedTilt t f)
    ∧ ∀ q,
        CarriesNext s.tap.unpermitted t.tap.unpermitted ((s.tap.tiltCarried.get q).map TiltDetail.furnace)
          ((t.tap.tiltCarried.get q).map TiltDetail.furnace)
        ∧ ∀ d ∈ t.tap.tiltCarried.get q,
            d = { furnace := d.furnace, tilt := tiltOf t d.furnace, permitHeld := grantedFor t d.furnace }
              ∧ UnpermittedTilt t d.furnace
              ∧ (s.tap.tiltCarried.get q ≠ some d ∨ s.tap.unpermitted.get d.furnace = false → TiltPending q d t)

/-- The state after matching, the tilt evaluation and the allotment computation on a state: nothing else has changed but
notices of the further kinds, and the allotment is current. -/
def Coordinated (further : List NoticeKind) (s t : State) : Prop :=
  t = { s with allot := t.allot, stage := t.stage, tap := t.tap, ports := t.ports }
    ∧ AllotmentComputed s.allot t.allot ∧ StageHanded s.stage t.stage ∧ TapMatched s.tap t.tap ∧ AssignedFrom s t
    ∧ PortsNoted (further ++ matchKinds) s t ∧ TiltNoticed s t ∧ AllotmentCurrent t

/-- The floor cause of R70, where it is enabled: a liquid heat with an estimate at or below BANK_FLOOR. -/
def FloorReached (s : State) : Prop :=
  wakeOnFloor s = true ∧ ∃ f, ∃ h ∈ heatOf s f, h.state ≠ .melting ∧ ∃ e ∈ h.estimate, e ≤ bankFloor s

/-- The shop state stands, or the floor cause has woken a banked deck. -/
def ShopWoken (s t : State) : Prop :=
  t.shop = s.shop ∨ (s.shop.state = .banked ∧ FloorReached s ∧ t.shop = { s.shop with state := .run })

/-- A banked deck with the floor cause has returned to RUN, and SHOP_STATE tells it with cause FLOOR (R64, R70). -/
def FloorFollows (s t : State) : Prop :=
  s.shop.state = .banked → FloorReached s →
    t.shop.state = .run ∧ Noticed (.shopState .run s.shop.reasons .floor) t

/-- The state after the evaluations of the heats and what follows them: nothing else has changed but notices of the
further kinds. -/
def Settled (further : List NoticeKind) (s t : State) : Prop :=
  t = { s with heat := t.heat, allot := t.allot, shop := t.shop, stage := t.stage, tap := t.tap, ports := t.ports }
    ∧ t.heat = { s.heat with slots := t.heat.slots }
    ∧ (∀ f, SlotEvaluated s.clock.shopSeconds (s.heat.slots.get f) (t.heat.slots.get f))
    ∧ ShopWoken s t ∧ AllotmentComputed s.allot t.allot ∧ StageHanded s.stage t.stage
    ∧ TapEvaluated s.clock.shopSeconds s.tap t.tap ∧ AssignedFrom s t ∧ PortsNoted (further ++ settleKinds) s t
    ∧ RefusalTold further s t

/-- Readiness as R11 gives it. -/
def ReadinessCurrent (f : Furnace) (s : State) : Prop :=
  ∀ h ∈ heatOf s f,
    (h.state = .tapReady → readyCond s f h = true) ∧ (h.state = .holding → readyCond s f h = false)

/-- SUPERHEAT and HOLDING as R10 gives them, for a heat with an estimate. -/
def LiquidCurrent (f : Furnace) (s : State) : Prop :=
  ∀ h ∈ heatOf s f, ∀ e ∈ h.estimate,
    (h.state = .superheat → e < targetInForce s h)
      ∧ (h.state = .holding ∨ h.state = .tapReady → targetInForce s h ≤ e + returnBand s)

/-- The heat of a furnace stands as its evaluations give it. -/
def EvaluatedNow (f : Furnace) (s : State) : Prop := ReadinessCurrent f s ∧ LiquidCurrent f s

/-- The state after a change of one furnace's heat has been followed up: its evaluations have run, matching too where they
ask for it, the tilt and the allotment are current, and the floor cause has been taken; unless it woke the deck, the other
slot is as it was, a stamp has changed only with its class, and READY_CHANGED is posted. -/
def SettledFor (further : List NoticeKind) (f : Furnace) (s t : State) : Prop :=
  Settled further s t ∧ EvaluatedNow f t ∧ AllotmentCurrent t ∧ TiltNoticed s t ∧ FloorFollows s t ∧ MatchingFollows s t
    ∧ (t.shop = s.shop →
        t.heat.slots.get (otherFurnace f) = s.heat.slots.get (otherFurnace f) ∧ ClassKept f s t ∧ ReadyPosted s t)

/-- The state after a change that both furnaces read has been followed up. -/
def SettledAll (further : List NoticeKind) (s t : State) : Prop :=
  Settled further s t ∧ EvaluatedNow .a t ∧ EvaluatedNow .b t ∧ AllotmentCurrent t ∧ TiltNoticed s t ∧ FloorFollows s t
    ∧ MatchingFollows s t ∧ (t.shop = s.shop → ClassKept .a s t ∧ ClassKept .b s t ∧ ReadyPosted s t)

/-! ### States spelled out, for the statements -/

/-- The command that a request kind arrives as. -/
def commandOf : RequestKind → Port → Byte → List Byte → Instr
  | .openHeat, q, tag, body => .openHeat q tag body
  | .addCharge, q, tag, body => .addCharge q tag body
  | .setMeltPower, q, tag, body => .setMeltPower q tag body
  | .setHoldTarget, q, tag, body => .setHoldTarget q tag body
  | .setChemistry, q, tag, body => .setChemistry q tag body
  | .closeHeat, q, tag, body => .closeHeat q tag body
  | .restate, q, tag, body => .restate q tag body
  | .furnaceOn, q, tag, body => .furnaceOn q tag body
  | .tapOpen, q, tag, body => .tapOpen q tag body
  | .tripReset, q, tag, body => .tripReset q tag body
  | .resume, q, tag, body => .resume q tag body
  | .linkRestart, q, tag, body => .linkRestart q tag body
  | .pumpReturn, q, tag, body => .pumpReturn q tag body
  | .postTap, q, tag, body => .postTap q tag body
  | .cancelTap, q, tag, body => .cancelTap q tag body
  | .tapWeight, q, tag, body => .tapWeight q tag body
  | .bank, q, tag, body => .bank q tag body
  | .wake, q, tag, body => .wake q tag body
  | .readSetting, q, tag, body => .readSetting q tag body
  | .writeSetting, q, tag, body => .writeSetting q tag body
  | .saveSettings, q, tag, body => .saveSettings q tag body
  | .releaseChannel, q, tag, body => .releaseChannel q tag body
  | .queryFurnace, q, tag, body => .queryFurnace q tag body
  | .queryQueue, q, tag, body => .queryQueue q tag body
  | .queryProtection, q, tag, body => .queryProtection q tag body
  | .queryChannels, q, tag, body => .queryChannels q tag body
  | .queryAllotment, q, tag, body => .queryAllotment q tag body
  | .queryShop, q, tag, body => .queryShop q tag body
  | .readLog, q, tag, body => .readLog q tag body
  | .readNotices, q, tag, body => .readNotices q tag body
  | .ackNotices, q, tag, body => .ackNotices q tag body
  | .setNoticeEnables, q, tag, body => .setNoticeEnables q tag body

/-- The state with a request kind's request in hand at a port and its answer going out. -/
def answered (k : RequestKind) (q : Port) (tag : Byte) (body : List Byte) (r : Reply) (s : State) : State :=
  withAnswer q (requestFrame k tag body) r s

/-- The slot of a furnace set and its estimator stamp set to the current shop second; no estimator second of this shop
second is owed. -/
def openedState (f : Furnace) (h : Heat) (s : State) : State :=
  { s with
    heat :=
      { s.heat with
        slots := s.heat.slots.set f { s.heat.slots.get f with slot := .heat h, stamp := now s }
        nextNumber := numberAfter h.number }
    clock := { s.clock with estDue := s.clock.estDue.set f false } }

/-- The summary of a heat, field by field (R21). -/
def summaryAs (f : Furnace) (h : Heat) (reason : CloseReason) (heelOut : Nat) (s : State) : Summary :=
  { number := h.number, furnace := f, openedAt := h.openedAt, closedAt := s.clock.shopSeconds,
    charged := (h.charges.map ChargeEntry.mass).sum, tapped := (h.taps.map TapRecord.poured).sum,
    tapCount := h.taps.length, delivered := h.delivered, useful := h.useful, finalEstimate := h.estimate,
    lastDip := h.lastDip, heelOut := heelOut, reason := reason }

/-- A dip unit after a heat's closing or a restart of the sweep: a dip that was SAMPLING has ended (R99). -/
def dipEnded (d : DipUnit) : DipUnit :=
  if d.state = .sampling then { d with state := .waitRelease, timer := none, window := [] } else d

/-- The state with a heat's closing written in: the summary in the log, the slot as given, the melt request 0, and the
dip ended (R17, R21, R47, R99). -/
def closedState (f : Furnace) (x : Summary) (slot : Slot) (nextNumber : Nat) (s : State) : State :=
  { s with
    heat :=
      { slots := s.heat.slots.set f { s.heat.slots.get f with slot := slot }
        log := appendLog x s.heat.log
        nextNumber := nextNumber }
    allot := { s.allot with out := s.allot.out.set f { s.allot.out.get f with meltRequest := 0 } }
    scan := { s.scan with dips := s.scan.dips.set f (dipEnded (s.scan.dips.get f)) } }

/-- The closing of a heat is told: HEAT_CLOSED with its reason, and DIP_FAILED for a dip that it has ended (R17, R99). -/
def ClosingPosted (f : Furnace) (number : Nat) (reason : CloseReason) (s t : State) : Prop :=
  let d := s.scan.dips.get f
  Noticed (.heatClosed f number reason) t
    ∧ (d.state = .sampling → Noticed (.dipFailed f number .heatClosed d.samples) t)

/-- The work of the queue tied to the heat of a furnace has ended with a resolution (R17, R127, R128): a pending
permit for the furnace is gone, its refusal told and kept for the deck; without a permit no entry stays assigned to the
furnace. Matching has run on what that leaves, so that the other furnace may take the entry (R122, R123, R127). -/
def WorkEnded (f : Furnace) (r : Reason) (s t : State) : Prop :=
  (∀ p ∈ s.tap.permit, p.state = .pending → p.furnace = f →
      t.tap.permit = none ∧ t.tap.kept.get f = some r ∧ RefusalPosted p r (heatNumber s f) s t ∧ Matched t)
    ∧ (TapLaw s → s.tap.permit = none → assignedTo t f = none ∧ ((assignedTo s f).isSome = true → Matched t))

/-- The state with a pending permit granted (R126, R12): the permit, and the heat in TAPPING with its open tap. -/
def grantedState (p : Permit) (h : Heat) (s : State) : State :=
  let tap : TapRecord :=
    { ordinal := h.taps.length + 1, ladle := ladleOf s p.requestId, requestId := p.requestId,
      grantedAt := s.clock.shopSeconds, forwardAt := none, homeAt := none, poured := 0, estimateAtForward := none,
      interrupted := false, weightTimeout := false, clamped := false }
  let granted : Permit :=
    { p with state := .granted, confirm := none, grantedAt := some s.clock.shopSeconds, use := some 0 }
  let slot : FurnaceSlot :=
    { s.heat.slots.get p.furnace with slot := .heat { h with state := .tapping, openTap := some tap } }
  { s with
    tap := { s.tap with permit := some granted }
    heat := { s.heat with slots := s.heat.slots.set p.furnace slot } }

/-- The heat of a furnace after a completed tap (R13, R34). -/
def pouredHeat (mass : Nat) (clamped timeout : Bool) (h : Heat) : Heat :=
  let left := h.bathMass - mass
  { h with
    state := .holding
    taps := h.taps ++
      (h.openTap.map (fun t => { t with poured := mass, clamped := clamped, weightTimeout := timeout })).toList
    openTap := none
    bathMass := left
    accumulator :=
      if left = 0 then h.accumulator else (h.accumulator * (left : Int)).tdiv (h.bathMass : Int)
    massUncertain := h.massUncertain || clamped || timeout }

/-- The state with a tap's completion written in (R13, R134): the tap record, the entry removed, no permit, its id as
the last ended permit; a heat left without metal has closed as EMPTIED. -/
def completedState (p : Permit) (h : Heat) (mass : Nat) (clamped timeout : Bool) (s : State) : State :=
  let done := pouredHeat mass clamped timeout h
  let s1 :=
    if done.bathMass = 0 then
      closedState p.furnace (summaryAs p.furnace done .emptied 0 s) .empty s.heat.nextNumber s
    else setHeat p.furnace done s
  { s1 with tap :=
    { s1.tap with
      queue := s1.tap.queue.filter (fun e => e.id != p.requestId), permit := none, lastEnded := some p.requestId } }

/-- The TAP_DONE notice of a completion (R134). -/
def tapDoneOf (p : Permit) (h : Heat) (mass : Nat) (clamped timeout : Bool) (s : State) : Detail :=
  .tapDone p.furnace h.number p.requestId (ladleOf s p.requestId) mass timeout clamped (h.bathMass - mass)

/-- A tap has completed, from the state with the completion written in, `u`: the heat is followed up, matching has run,
TAP_DONE is posted, and the closing as EMPTIED where no metal is left (R13, R99, R134). -/
def TapCompleted (p : Permit) (h : Heat) (mass : Nat) (clamped timeout : Bool) (s u t : State) : Prop :=
  SettledFor [.heatClosed, .dipFailed, .tapDone] p.furnace u t ∧ Matched t
    ∧ Noticed (tapDoneOf p h mass clamped timeout s) t
    ∧ (h.bathMass - mass = 0 → ClosingPosted p.furnace h.number .emptied s t)

/-- The Tap Coordinator with a permit ended and its entry returned, what ended it kept for the deck (R127, R128, R131). -/
def tapEnded (p : Permit) (r : Reason) (s : State) : Tap :=
  { s.tap with
    queue := entriesReturned p.requestId s.clock.shopSeconds s.tap.queue
    permit := none
    kept := s.tap.kept.set p.furnace (some r) }

/-- What the link's departure leads to (R82, R83, R126): the state with the departure written in, `u`, followed up; a
permit that was pending when the link left UP is granted. -/
def LinkLeft (u s t : State) : Prop :=
  ((s.stage.link ≠ .up ∨ ∀ p ∈ s.tap.permit, p.state ≠ .pending) → Coordinated [.link] u t)
    ∧ (∀ p ∈ s.tap.permit, ∀ h ∈ heatOf s p.furnace, s.stage.link = .up → p.state = .pending →
        Coordinated [.link, .permitResolved] (grantedState p h u) t
          ∧ Noticed (.permitResolved none p.furnace h.number p.requestId (ladleOf s p.requestId)) t)
    ∧ ∀ f, State.outputEnable t f = false

/-- The notice kinds that a step of protection posts before its follow-up. -/
def circuitKinds : List NoticeKind := [.cooling, .leakWarn, .pumpChangeover]

/-- An output that the held pair has OFF has no command there; the power law gives it (R52, R60). -/
def OffDrawsNothing (s : State) : Prop := ∀ f, (s.stage.held.get f).mode = .off → (s.stage.held.get f).command = 0

/-- The enable lines of a tripped circuit's outputs are down; where the circuit was tripped before, if they were (R78,
R109). -/
def TripsTaken (s t : State) : Prop :=
  OffDrawsNothing s → ∀ c f, (circuitMask c).get f = true → (circuitOf t c).state = .trip →
    ((circuitOf s c).state = .trip → State.outputEnable s f = false) → State.outputEnable t f = false

/-- An output that is OFF draws nothing, and a tripped circuit has the enable lines of its outputs down; the power law
gives both (R52, R60, R85). -/
def TripsHeldDown (s : State) : Prop :=
  OffDrawsNothing s
    ∧ ∀ c f, (circuitMask c).get f = true → (circuitOf s c).state = .trip → State.outputEnable s f = false

/-- A step of protection before its follow-up: circuits, loop, breaker output, trips and notices; a tripped circuit stays
tripped with its cause, no enable line rises, and those of a circuit that trips fall. -/
def ProtOnly (s t : State) : Prop :=
  t = { s with shop := t.shop, stage := t.stage, prot := t.prot, ports := t.ports }
    ∧ t.shop = { s.shop with breakerTrip := t.shop.breakerTrip, stuckTimer := t.shop.stuckTimer }
    ∧ StageHanded s.stage t.stage ∧ t.stage.held = s.stage.held ∧ PortsNoted circuitKinds s t
    ∧ (∀ f, State.outputEnable s f = false → State.outputEnable t f = false) ∧ TripsTaken s t
    ∧ ∀ c, (circuitOf s c).state = .trip →
        (circuitOf t c).state = .trip ∧ (circuitOf t c).cause = (circuitOf s c).cause

/-- What a step of protection leaves as it was, and what follows the circuits it has changed: their enable lines, and the
evaluations, matching and the floor cause for their furnaces (R70, R109, R122). -/
def ProtFrame (s t : State) : Prop :=
  t = { s with
      heat := t.heat, allot := t.allot, shop := t.shop, stage := t.stage, prot := t.prot, tap := t.tap,
      ports := t.ports }
    ∧ t.heat = { s.heat with slots := t.heat.slots }
    ∧ (∀ f, SlotEvaluated s.clock.shopSeconds (s.heat.slots.get f) (t.heat.slots.get f))
    ∧ StageHanded s.stage t.stage ∧ AllotmentComputed s.allot t.allot
    ∧ TapEvaluated s.clock.shopSeconds s.tap t.tap ∧ AssignedFrom s t ∧ PortsNoted protectKinds s t
    ∧ t.shop.reasons = s.shop.reasons ∧ t.shop.strap = s.shop.strap ∧ t.shop.decks = s.shop.decks
    ∧ (t.shop.state = s.shop.state ∨ s.shop.state = .banked ∧ FloorReached s ∧ t.shop.state = .run) ∧ TripsTaken s t
    ∧ (t.shop.state = s.shop.state → ClassKept .a s t ∧ ClassKept .b s t ∧ ReadyPosted s t)
    ∧ (∀ c, (circuitOf s c).state = .trip →
        (circuitOf t c).state = .trip ∧ (circuitOf t c).cause = (circuitOf s c).cause)
    ∧ (loading s = false → ∀ f, ∀ c, c = coilOf f ∨ c = .cabinet → (circuitOf t c).state ≠ (circuitOf s c).state →
        EvaluatedNow f t ∧ AllotmentCurrent t ∧ TiltNoticed s t ∧ FloorFollows s t)
    ∧ MatchingFollows s t ∧ RefusalTold circuitKinds s t

/-- BREAKER_TRIP has been asserted for a cause, if the breaker is closed (R73). -/
def BreakerAsserted (s t : State) : Prop :=
  s.lines.breakerClosed = true →
    t.shop.breakerTrip = true ∧ (s.shop.breakerTrip = false → t.shop.stuckTimer = some 0)

/-- The loop has entered LOOP_FAIL with a cause: every circuit is tripped, both enable lines are down, and BREAKER_TRIP is
asserted; the leak warnings and what LEAK_WARN carries stand (R109, R110, R114). -/
def LoopFailed (cause : LoopCause) (s t : State) : Prop :=
  t.prot.loop =
      { state := some .loopFail, standbyLatch := s.prot.loop.standbyLatch, settle := none, pressure := none,
        cause := cause, changedAt := s.clock.shopSeconds }
    ∧ t.prot.leakCarried = s.prot.leakCarried ∧ (∀ c, (circuitOf t c).leakWarning = (circuitOf s c).leakWarning)
    ∧ (∀ c, (circuitOf t c).state = .trip
        ∧ ((circuitOf s c).state ≠ .trip →
            (circuitOf t c).cause = some .loop ∧ (circuitOf t c).latch = true
              ∧ TimersHalted (circuitOf s c) (circuitOf t c)))
    ∧ (TripsHeldDown s → ∀ f, State.outputEnable t f = false)
    ∧ BreakerAsserted s t
    ∧ Noticed (.pumpChangeover .loopFail cause s.prot.loop.standbyLatch) t

/-! ### Protection: an evaluation, a timer, a reading of the pressure (R103 to R113, R117) -/

/-- A timer that runs has counted to a limit in ms. -/
def CountedTo (limit : Nat) (t : Option Nat) : Prop := ∃ n ∈ t, limit ≤ n

/-- A timer started from 0, or run on: held while the loop is in CHANGEOVER (R113). -/
def clockMode (s : State) : TimerMode := if inChangeover s then .held else .running

/-- A running timer of a circuit has counted to a limit in seconds. -/
def RunsOut (t : Timer) (limit : Nat) : Prop := t.mode = .running ∧ limit * 1000 ≤ t.ms

/-- A circuit has entered TRIP with a cause (R108, R109): latched, its timers stopped with what they have
counted (R102), the enable lines of its outputs down, a trip of CABINET a cause of BREAKER_TRIP, COOLING posted. -/
def CircuitTripped (c : Circuit) (cause : TripCause) (s t : State) : Prop :=
  let r := circuitOf t c
  r.state = .trip ∧ r.cause = some cause ∧ r.latch = true ∧ TimersHalted (circuitOf s c) r
    ∧ (OffDrawsNothing s → ∀ f, (circuitMask c).get f = true → State.outputEnable t f = false)
    ∧ (c = .cabinet → BreakerAsserted s t)
    ∧ Noticed (coolingDetail t) t

/-- The leak warnings that stand, furnace by furnace (R110). -/
def leakWarned (s : State) : PerFurnace Bool :=
  ⟨s.prot.circuits.coilA.leakWarning, s.prot.circuits.coilB.leakWarning⟩

/-- LEAK_WARN has been brought up to date (R110): at each port the notice carries the circuit that it must carry next, and
it is posted, with the leak value then read, where that warning has appeared and where it goes over to the other circuit. -/
def LeakNoticed (s t : State) : Prop :=
  ∀ q,
    CarriesNext (leakWarned s) (leakWarned t) (s.prot.leakCarried.get q) (t.prot.leakCarried.get q)
    ∧ ∀ f ∈ t.prot.leakCarried.get q, s.prot.leakCarried.get q ≠ some f ∨ (leakWarned s).get f = false →
        ∃ n ∈ (t.ports.get q).notices,
          n.detail = .leakWarn f (((chanOf s (if f = .a then .leakA else .leakB)).value).getD 0)

/-- A circuit has formed its conditions from its channels as they stand in `s`, and has made one evaluation on them (R103 to
R108, R110, R113, R116, R117); the other circuits and the loop stand. -/
def CircuitJudged (c : Circuit) (s t : State) : Prop :=
  let r := circuitOf s c
  let r' := circuitOf t c
  let hard := hardCause s c
  let soft := softCond s c
  let clock := clockMode s
  let overdue := clock = .running ∧ derateTime s * 1000 ≤ r.derate.ms
  r'.hard = hard.isSome ∧ r'.soft = soft ∧ r'.leakWarning = leakWarningCond s c
    ∧ (∀ other, other ≠ c → circuitOf t other = circuitOf s other) ∧ t.prot.loop = s.prot.loop
    ∧ (r'.state ≠ r.state → r'.enteredAt = s.clock.shopSeconds ∧ Noticed (coolingDetail t) t)
    ∧ (r'.state = .normal → r.state ≠ .normal → TimersHalted r r')
    ∧ (r.state = .trip → r'.state = .trip ∧ r'.cause = r.cause ∧ r'.latch = r.latch)
    ∧ (r.state = .init → r.latch = true → CircuitTripped c .latch s t)
    ∧ (∀ cause ∈ hard, r.state ≠ .trip → ¬ (r.state = .init ∧ r.latch = true) → CircuitTripped c cause s t)
    ∧ (∀ f, c = coilOf f → r.leakWarning = false → r'.leakWarning = true →
        ∃ v ∈ validReading (chanOf s (if f = .a then .leakA else .leakB)), Noticed (.leakWarn f v) t)
    ∧ LeakNoticed s t
    ∧ (hard = none → r.state = .init → r.latch = false →
        r'.state = (if allValid s c then (if soft then .watch else .normal) else .init)
          ∧ (r'.state = .watch → r'.watch = { mode := clock, ms := 0 }))
    ∧ (hard = none → r.state = .normal →
        r'.state = (if soft then .watch else .normal) ∧ (soft = true → r'.watch = { mode := clock, ms := 0 }))
    ∧ (hard = none → r.state = .watch →
        r'.state = (if soft then .watch else .normal) ∧ (soft = true → r'.watch = r.watch))
    ∧ (hard = none → r.state = .derate →
        (soft = true → r.recovery.mode ≠ .stopped → overdue → CircuitTripped c .derateExpiry s t)
        ∧ (¬ (soft = true ∧ r.recovery.mode ≠ .stopped ∧ overdue) → r'.state = .derate)
        ∧ (soft = false → r.recovery.mode = .stopped →
            r'.recovery = { mode := clock, ms := 0 } ∧ r'.derate = { r.derate with mode := .held })
        ∧ (soft = true → r.recovery.mode ≠ .stopped → ¬ overdue →
            r'.recovery = (timersHalted r).recovery ∧ r'.derate = { r.derate with mode := clock })
        ∧ (soft = true → r.recovery.mode = .stopped → r'.recovery = r.recovery ∧ r'.derate = r.derate)
        ∧ (soft = false → r.recovery.mode ≠ .stopped → r'.recovery = r.recovery ∧ r'.derate = r.derate))

/-- A circuit has moved to a record, with its conditions formed again and the present second as that of its entry (R104);
the other circuits and the loop stand, LEAK_WARN follows the warnings (R110), and COOLING is posted (R116). -/
def CircuitMoved (c : Circuit) (g : CircuitRec → CircuitRec) (s t : State) : Prop :=
  t.prot.circuits = s.prot.circuits.set c
      (g
        { circuitOf s c with
          hard := (hardCause s c).isSome, soft := softCond s c, leakWarning := leakWarningCond s c
          enteredAt := s.clock.shopSeconds })
    ∧ t.prot.loop = s.prot.loop ∧ LeakNoticed s t ∧ Noticed (coolingDetail t) t

/-- A watch timer has expired: DERATE (R106). -/
def WatchExpired (c : Circuit) (s t : State) : Prop :=
  CircuitMoved c (fun r =>
    { timersHalted r with state := .derate, derate := { mode := clockMode s, ms := 0 } }) s t

/-- A derate timer has expired: TRIP (R107, R108). -/
def DerateExpired (c : Circuit) (s t : State) : Prop :=
  CircuitMoved c (fun r =>
      { timersHalted r with state := .trip, cause := some .derateExpiry, latch := true }) s t
    ∧ CircuitTripped c .derateExpiry s t

/-- A recovery timer has expired: NORMAL (R107). -/
def RecoveryExpired (c : Circuit) (s t : State) : Prop :=
  CircuitMoved c (fun r => { timersHalted r with state := .normal }) s t

/-- The pressure has been judged on channel 3 as it stands in `s` (R112, R117): in MAIN and STANDBY a low pressure keeps the
pressure timer running, or starts it from 0, and any other stops it. -/
def PressureJudged (s t : State) : Prop :=
  let l := s.prot.loop
  let timer :=
    if l.state = some .main ∨ l.state = some .standby then (if pressureLow s then some (l.pressure.getD 0) else none)
    else l.pressure
  t.prot = { s.prot with loop := { l with pressure := timer } }

/-- A running timer of a circuit that is at or past its limit has expired; without one nothing has happened (R113,
R117). -/
def OverdueExpired (c : Circuit) (s t : State) : Prop :=
  let r := circuitOf s c
  let watch := r.state = .watch ∧ RunsOut r.watch (watchTime s)
  let derate := r.state = .derate ∧ RunsOut r.derate (derateTime s)
  let recovery := r.state = .derate ∧ RunsOut r.recovery (recoverTime s)
  (watch → ProtOnly s t ∧ WatchExpired c s t) ∧ (derate → ProtOnly s t ∧ DerateExpired c s t)
    ∧ (recovery → ¬ derate → ProtOnly s t ∧ RecoveryExpired c s t)
    ∧ (¬ watch → ¬ derate → ¬ recovery → t = s)

/-! ### Protection: the loop (R112 to R115) -/

/-- The three circuits have been evaluated one after another, COIL_A first and CABINET last (log 31); not before the
settings load has ended (R104). -/
def CircuitsJudged (s t : State) : Prop :=
  (loading s = true → t.prot = s.prot)
    ∧ (loading s = false → ∃ a b, ProtOnly s a ∧ CircuitJudged .coilA s a ∧ ProtOnly a b ∧ CircuitJudged .coilB a b
        ∧ ProtOnly b t ∧ CircuitJudged .cabinet b t)

/-- The overdue timers of the three circuits have expired, COIL_A's first and CABINET's last (log 31). -/
def AllOverdueExpired (s t : State) : Prop :=
  ∃ a b, OverdueExpired .coilA s a ∧ OverdueExpired .coilB a b ∧ OverdueExpired .cabinet b t

/-- What a step of protection has left in `u` stands in `t`, which follows it up. -/
def FollowedUp (u t : State) : Prop :=
  t.prot = u.prot ∧ t.shop.breakerTrip = u.shop.breakerTrip ∧ t.shop.stuckTimer = u.shop.stuckTimer
    ∧ PortsNoted settleKinds u t

/-- A state with the loop record and every circuit record changed. -/
def loopMoved (loop : LoopRec) (g : CircuitRec → CircuitRec) (s : State) : State :=
  { s with prot := { s.prot with loop := loop, circuits := s.prot.circuits.map g } }

/-- The timers of a circuit that run held, each with the time it has counted (R113). -/
def timersHeld (r : CircuitRec) : CircuitRec :=
  let hold : Timer → Timer := fun x => if x.mode = .running then { x with mode := .held } else x
  { r with watch := hold r.watch, derate := hold r.derate, recovery := hold r.recovery }

/-- The held timers of a circuit running on from the time they were held at (R113); the derate timer stays held beside a
recovery timer that runs (R107). -/
def timersRunOn (r : CircuitRec) : CircuitRec :=
  let on : Timer → Timer := fun x => if x.mode = .held then { x with mode := .running } else x
  { r with
    watch := on r.watch, recovery := on r.recovery
    derate := if r.recovery.mode = .stopped then on r.derate else r.derate }

/-- The loop has entered CHANGEOVER with a cause (R112, R113): every timer that ran is held with its counted time, and the
circuits are evaluated. -/
def LoopChangedOver (cause : LoopCause) (s t : State) : Prop :=
  let loop : LoopRec :=
    { state := some .changeover, standbyLatch := true, settle := some 0, pressure := none, cause := cause,
      changedAt := s.clock.shopSeconds }
  t.prot.loop = loop ∧ State.standbyStart t = true ∧ Noticed (.pumpChangeover .changeover cause true) t
    ∧ (∀ c, NoTimerRuns (circuitOf t c))
    ∧ ∃ u, CircuitsJudged (loopMoved loop timersHeld s) u ∧ FollowedUp u t

/-- The loop has been judged at the end of the settle timer (R113, R114): in STANDBY every held timer runs on, the circuits
are evaluated, and a timer that is past its limit expires at once. -/
def SettleJudged (s t : State) : Prop :=
  let good := s.lines.standbyRun = true ∧ pressureGood s = true
  let loop : LoopRec :=
    { state := some .standby, standbyLatch := s.prot.loop.standbyLatch, settle := none, pressure := none
      cause := .settled, changedAt := s.clock.shopSeconds }
  (good →
      t.prot.loop = loop ∧ Noticed (.pumpChangeover .standby .settled s.prot.loop.standbyLatch) t
        ∧ (∀ c, (circuitOf t c).watch.mode ≠ .held ∧ (circuitOf t c).recovery.mode ≠ .held)
        ∧ ∃ u v, CircuitsJudged (loopMoved loop timersRunOn s) u ∧ AllOverdueExpired u v ∧ FollowedUp v t)
    ∧ (¬ good → LoopFailed .settleFail s t)

/-- The loop has returned to its main pump (R115): the latch is clear, and the circuits are evaluated. -/
def LoopReturned (s t : State) : Prop :=
  let loop : LoopRec :=
    { state := some .main, standbyLatch := false, settle := none, pressure := none, cause := .pumpReturn,
      changedAt := s.clock.shopSeconds }
  t.prot.loop = loop ∧ State.standbyStart t = false ∧ Noticed (.pumpChangeover .main .pumpReturn false) t
    ∧ ∃ u, CircuitsJudged (loopMoved loop id s) u ∧ FollowedUp u t

/-! ### The permit's timers (R126, R127, R131, R132, R134) -/

/-- The confirm timer of a pending permit has expired: refused STAGE_NO_CONFIRM (R127, R136). -/
def ConfirmExpired (p : Permit) (h : Heat) (s t : State) : Prop :=
  Coordinated [.permitResolved, .entryExpired] { s with tap := tapEnded p .stageNoConfirm s } t ∧ Matched t
    ∧ RefusalPosted p .stageNoConfirm h.number s t

/-- The use timer of a granted permit has expired before the pour: withdrawn (R131, R136). -/
def UseExpired (p : Permit) (h : Heat) (s t : State) : Prop :=
  SettledFor [.permitWithdrawn, .entryExpired] p.furnace
      (setHeat p.furnace { h with state := .holding, openTap := none } { s with tap := tapEnded p .withdrawn s }) t
    ∧ Matched t
    ∧ Noticed (.permitWithdrawn p.furnace h.number p.requestId (ladleOf s p.requestId)) t
    ∧ ReturnPosted p.requestId s t

/-- The tap timer has expired: TAP_LONG, once (R132). -/
def TapMaxExpired (p : Permit) (h : Heat) (forward : Nat) (s t : State) : Prop :=
  t = { s with tap := { s.tap with permit := some { p with longPosted := true } }, ports := t.ports }
    ∧ PortsNoted [.tapLong] s t
    ∧ Noticed (.tapLong p.furnace h.number p.requestId (s.clock.shopSeconds - forward)) t

/-- The weight timer has expired: the tap completes with mass 0 and WEIGHT_TIMEOUT (R132, R134). -/
def WeightWaitExpired (p : Permit) (h : Heat) (s t : State) : Prop :=
  TapCompleted p h 0 false true s (completedState p h 0 false true s) t

/-! ### A settings write taken up (R154) -/

/-- A heat brought to the settings of a state (R15, R31, R32, R41, R157): an estimate below LIQUIDUS is set to it with an
accumulator of 0, a hold target below LIQUIDUS + 50 is raised to that, and FREEZE follows the estimate; otherwise it
takes the accumulator given. -/
def broughtTo (s : State) (accumulator : Int) (h : Heat) : Heat :=
  { h with
    estimate := h.estimate.map (max (liquidus s))
    accumulator := if h.estimate.any (fun e => decide (e < liquidus s)) then 0 else accumulator
    holdTarget := max (liquidus s + 50) h.holdTarget
    freeze :=
      match h.estimate with
      | some e => decide (max (liquidus s) e ≤ liquidus s + freezeMargin s)
      | none => h.freeze }

/-- A heat with a sum of energy in J divided by its step, from an estimate (R30), with the clamps of R31 and FREEZE as R32
gives it. -/
def dividedFrom (s : State) (estimate : Nat) (sum : Int) (h : Heat) : Heat :=
  let step : Int := (h.bathMass : Int) * (cp s : Int)
  let raw : Int := (estimate : Int) + sum.tdiv step
  let reached := if raw < (liquidus s : Int) then liquidus s else if 1700 < raw then 1700 else raw.toNat
  { h with
    estimate := some reached
    accumulator := if raw < (liquidus s : Int) ∨ 1700 < raw then 0 else sum - sum.tdiv step * step
    freeze := decide (reached ≤ liquidus s + freezeMargin s) }

/-- The state with a write of the working copy in the heats (R15, R41) and in the melt requests (R47), before any
evaluation; the accumulators are scaled from the old CP. -/
def refittedState (oldCp : Nat) (s : State) : State :=
  let accumulator : Heat → Int := fun h =>
    if cp s = oldCp then h.accumulator else (h.accumulator * (cp s : Int)).tdiv (oldCp : Int)
  let slot : Furnace → FurnaceSlot := fun f =>
    match heatOf s f with
    | some h => { s.heat.slots.get f with slot := .heat (broughtTo s (accumulator h) h) }
    | none => s.heat.slots.get f
  let out : Furnace → AllotRec := fun f =>
    { s.allot.out.get f with meltRequest := min (s.allot.out.get f).meltRequest (outputMax s f / 10 * 10) }
  { s with
    heat := { s.heat with slots := ⟨slot .a, slot .b⟩ }
    allot := { s.allot with out := ⟨out .a, out .b⟩ } }

/-- A setting that a write has changed. -/
def SettingChanged (old new : List Nat) (n : Nat) : Prop := valueIn old n ≠ valueIn new n

/-- The sweep has restarted by a settings write (R93): the unit in progress is abandoned for one of count 1 from channel 0,
and every dip that was SAMPLING has failed SCAN_RESTART. -/
def SweepRestarted (s t : State) : Prop :=
  t = { s with
      scan :=
        { s.scan with
          running := true, unitCount := 1, lastOrdinary := none, sweepTimer := some 0
          plan :=
            [Chan.coilAOut, .coilBOut, .cabOut, .loopPress].filter (inService s)
              ++ (ordinaryChans.find? (inService s)).toList
          dips := s.scan.dips.map dipEnded }
      ports := t.ports }
    ∧ PortsNoted [.dipFailed] s t
    ∧ ∀ f, (s.scan.dips.get f).state = .sampling →
        Noticed (.dipFailed f (heatNumber s f) .scanRestart (s.scan.dips.get f).samples) t

/-- An update of a water channel's record has been handed to its reader (R88, R89, R104, R112). -/
def HandedToReader (ch : Chan) (s t : State) : Prop :=
  (loading s = false → ∀ c ∈ chanCircuit ch, CircuitJudged c s t) ∧ (ch = .loopPress → PressureJudged s t)

/-- The scanner has taken a write up (R91, R93): the channel whose in-service flag has changed is marked and handed to its
reader, and the sweep restarts; without such a channel nothing has happened. -/
def FlagsTakenUp (old new : List Nat) (s t : State) : Prop :=
  let changed : Chan → Prop := fun ch => SettingChanged old new (55 + chanNumber ch)
  ((∀ ch ∈ allChans, ¬ changed ch) → t = s)
    ∧ ∀ ch ∈ allChans, changed ch →
        let mark : ChannelRec :=
          { status := if valueIn new (55 + chanNumber ch) = 1 then .stale else .off, value := none, updatedAt := none }
        let marked : State := { s with scan := { s.scan with chans := s.scan.chans.set ch mark } }
        ∃ u, ProtOnly marked u ∧ HandedToReader ch marked u
          ∧ (chanCircuit ch = none → u = { marked with prot := u.prot } ∧ (ch ≠ .loopPress → u = marked))
          ∧ SweepRestarted u t

/-- The settings that a circuit works to: thresholds and times (R103, R106, R107, R117). -/
def circuitSettings : Circuit → List Nat
  | .cabinet => [34, 36, 38, 40, 44, 45, 46]
  | _ => [33, 35, 37, 39, 41, 42, 44, 45, 46]

/-- A circuit has taken a write up (R117): one that works to a changed setting is evaluated, and its overdue timer expires;
another stands. -/
def CircuitTakenUp (old new : List Nat) (c : Circuit) (s t : State) : Prop :=
  let uses := ∃ n ∈ circuitSettings c, SettingChanged old new n
  (uses → ∃ u, ProtOnly s u ∧ CircuitJudged c s u ∧ OverdueExpired c u t) ∧ (¬ uses → t = s)

/-- The loop has taken a write up (R117): PRESS_LOW judges the pressure anew, and a settle timer at or past
STANDBY_SETTLE expires. -/
def LoopTakenUp (old new : List Nat) (s t : State) : Prop :=
  let expires := SettingChanged old new 47 ∧ inChangeover s = true ∧ CountedTo (standbySettle s * 1000) s.prot.loop.settle
  (SettingChanged old new 43 → t = { s with prot := t.prot } ∧ PressureJudged s t)
    ∧ (expires → ¬ SettingChanged old new 43 → ProtOnly s t ∧ SettleJudged s t)
    ∧ (¬ SettingChanged old new 43 → ¬ expires → t = s)

/-- Protection has taken a write up (R117), circuit by circuit and then the loop (log 31). -/
def ProtectionTakenUp (old new : List Nat) (s t : State) : Prop :=
  ∃ a b c, CircuitTakenUp old new .coilA s a ∧ CircuitTakenUp old new .coilB a b ∧ CircuitTakenUp old new .cabinet b c
    ∧ LoopTakenUp old new c t

/-- The permit's timers have taken a write up (R137): a running timer whose limit has changed and that is at or past it
expires at once, and otherwise nothing has happened: so also where forward-at stands already (R131), or TAP_LONG has been
posted already, once a permit (R132). -/
def TapTimersTakenUp (old new : List Nat) (s t : State) : Prop :=
  let runsOut : Nat → Option Nat → Prop := fun n timer =>
    SettingChanged old new n ∧ CountedTo (valueIn new n * 1000) timer
  (∀ p ∈ s.tap.permit, ∀ h ∈ heatOf s p.furnace,
      (p.state = .pending → runsOut 49 p.confirm → ConfirmExpired p h s t)
      ∧ (p.state = .granted → p.forwardAt = none → runsOut 48 p.use → UseExpired p h s t)
      ∧ (∀ forward ∈ p.forwardAt, p.state = .granted → p.longPosted = false → runsOut 50 p.tap →
          TapMaxExpired p h forward s t)
      ∧ (p.state = .granted → runsOut 51 p.weightWait → WeightWaitExpired p h s t))
    ∧ ((∀ p ∈ s.tap.permit,
          ¬ (p.state = .pending ∧ runsOut 49 p.confirm) ∧ ¬ (p.state = .granted ∧ p.forwardAt = none ∧ runsOut 48 p.use)
            ∧ ¬ (p.state = .granted ∧ p.longPosted = false ∧ runsOut 50 p.tap)
            ∧ ¬ (p.state = .granted ∧ runsOut 51 p.weightWait)) →
        t = s)

/-- A write that has changed the working copy has been taken up by every block (R154), from the state with the new copy in
it: the melt requests and the heats are fitted to it and the heats evaluated, the scanner, the circuits, the loop and the
permit's timers follow, matching runs, and what a change of both heats leads to is followed up. -/
def WriteTakenUp (old : List Nat) (s t : State) : Prop :=
  let new := s.sett.working
  let fitted := refittedState (valueIn old 19) s
  ∃ u v w x, Settled [.settings, .freeze] fitted u ∧ u.shop = s.shop ∧ FlagsTakenUp old new u v
    ∧ ProtectionTakenUp old new v w ∧ TapTimersTakenUp old new w x ∧ SettledAll [] x t ∧ Matched t
    ∧ ∀ f, ∀ h ∈ heatOf s f, ∀ h' ∈ heatOf fitted f, h.freeze = false → h'.freeze = true → Noticed (.freeze f h.number) t

/-- What every reset leaves of the volatile blocks, with the lines as they stand (R63, R65, R71, R73, R75, R101, R119,
R139, R151, R155, R157). -/
def VolatileReset (l : ResetLines) (t : State) : Prop :=
  t.lines = { breakerClosed := l.breakerClosed, mainPumpRun := l.mainPumpRun, standbyRun := l.standbyRun }
    ∧ (∀ f, t.allot.out.get f =
        { meltRequest := 0, request := 0, cls := .none, cap := 0, factor := .link, grant := 0, reserve := 0,
          mode := .off, duty := none, waitingDuty := none, command := 0, phase := none, period := none })
    ∧ t.allot.shed = true
    ∧ t.shop.state = (if l.breakerClosed then .held else .supplyOff)
    ∧ t.shop.reasons.commission = l.commission
    ∧ t.shop.reasons.settingsDefault = false ∧ t.shop.reasons.afterLoss = false
    ∧ t.shop.breakerTrip = false ∧ t.shop.stuckTimer = none ∧ t.shop.stuck = false
    ∧ (∀ f, (t.shop.decks.get f).level = false ∧ (t.shop.decks.get f).timer = none)
    ∧ t.stage.link = .down ∧ t.stage.last = none ∧ t.stage.deadline = none ∧ t.stage.babble = []
    ∧ (∀ f, t.stage.held.get f = { command := 0, mode := .off, phase := none })
    ∧ t.stage.sent = noFurnace ∧ t.stage.tripHold = noFurnace ∧ t.stage.transmitter = .idle
    ∧ t.stage.pendingSetpoint = true ∧ t.stage.pendingTrip = noFurnace ∧ t.stage.refresh = 0 ∧ t.stage.assembly = []
    ∧ (∀ f, State.outputEnable t f = false)
    ∧ (∀ c, c ∈ allChans → chanOf t c = { status := .stale, value := none, updatedAt := none })
    ∧ t.scan.running = false ∧ t.scan.unitCount = 1 ∧ t.scan.lastOrdinary = none
    ∧ (∀ f, (t.scan.dips.get f).level = true ∧ (t.scan.dips.get f).timer = none
        ∧ (t.scan.dips.get f).samples = 0 ∧ (t.scan.dips.get f).openCount = 0 ∧ (t.scan.dips.get f).window = [])
    ∧ (∀ c, (circuitOf t c).state = .init ∧ NoTimerRuns (circuitOf t c) ∧ (circuitOf t c).hard = false
        ∧ (circuitOf t c).soft = false ∧ (circuitOf t c).leakWarning = false ∧ (circuitOf t c).cause = none)
    ∧ t.prot.loop.state = none ∧ t.prot.loop.settle = none ∧ t.prot.loop.pressure = none
    ∧ t.tap.queue = [] ∧ t.tap.nextId = 1 ∧ t.tap.permit = none ∧ t.tap.lastEnded = none
    ∧ (∀ f, t.tap.kept.get f = none ∧ tiltOf t f = .back)
    ∧ (∀ q, t.ports.get q =
        { assembly := [], inHand := none, answer := none, buffer := none, notices := [], nextSerial := 1,
          enables := BitVec.allOnes 20, gap := none })
    ∧ t.sett.owner = none ∧ t.sett.idle = none ∧ t.sett.memory = .loading ∧ t.clock.ms = 0

/-- What a reset makes of the block in the settings memory: a save on its way is cut off (R159). -/
def blockAfterReset (s : State) : StoredBlock :=
  if s.sett.memory = .saving then { s.sett.block with partWritten := true } else s.sett.block

/-! ### Time -/

/-- When time owes a command: the limit of each timer, in ms or by its setting. -/
def OwedWhen (s : State) : Instr → Prop
  | .refreshTimerExpiry => 500 ≤ s.stage.refresh ∧ s.stage.pendingSetpoint = false
  | .reportDeadlineExpiry => s.stage.link = .up ∧ CountedTo 2500 s.stage.deadline
  | .attnGapEnd q => CountedTo 1 (s.ports.get q).gap
  | .channelIdleExpiry => s.sett.owner ≠ none ∧ CountedTo 20000 s.sett.idle
  | .sweepUnit => s.scan.running = true ∧ CountedTo 5 s.scan.sweepTimer
  | .channelStale ch =>
    ch.isWater = true ∧ ((chanOf s ch).status = .valid ∨ (chanOf s ch).status = .broken)
      ∧ ∃ t ∈ (chanOf s ch).updatedAt, t + 500 ≤ s.clock.ms
  | .dipTimerExpiry f => (s.scan.dips.get f).state = .sampling ∧ CountedTo 8000 (s.scan.dips.get f).timer
  | .watchTimerExpiry c =>
    (circuitOf s c).state = .watch ∧ (circuitOf s c).watch.mode = .running
      ∧ watchTime s * 1000 ≤ (circuitOf s c).watch.ms
  | .derateTimerExpiry c =>
    (circuitOf s c).state = .derate ∧ (circuitOf s c).derate.mode = .running
      ∧ derateTime s * 1000 ≤ (circuitOf s c).derate.ms
  | .recoveryTimerExpiry c =>
    (circuitOf s c).state = .derate ∧ (circuitOf s c).recovery.mode = .running
      ∧ recoverTime s * 1000 ≤ (circuitOf s c).recovery.ms
  | .pressureTimerExpiry =>
    (s.prot.loop.state = some .main ∨ s.prot.loop.state = some .standby) ∧ CountedTo 1000 s.prot.loop.pressure
  | .settleTimerExpiry =>
    s.prot.loop.state = some .changeover ∧ CountedTo (standbySettle s * 1000) s.prot.loop.settle
  | .deckOffHold f =>
    (s.shop.decks.get f).level = true ∧ (s.shop.decks.get f).held = false ∧ CountedTo 3000 (s.shop.decks.get f).timer
  | .breakerStuckExpiry => s.lines.breakerClosed = true ∧ CountedTo 2000 s.shop.stuckTimer
  | .tapConfirmExpiry => ∃ p ∈ s.tap.permit, p.state = .pending ∧ CountedTo (tapConfirmTime s * 1000) p.confirm
  | .permitUseExpiry =>
    ∃ p ∈ s.tap.permit, p.state = .granted ∧ p.forwardAt = none ∧ CountedTo (permitUseTime s * 1000) p.use
  | .tapMaxExpiry =>
    ∃ p ∈ s.tap.permit, p.state = .granted ∧ p.longPosted = false ∧ CountedTo (tapMaxTime s * 1000) p.tap
  | .weightWaitExpiry => ∃ p ∈ s.tap.permit, p.state = .granted ∧ CountedTo (weightWaitTime s * 1000) p.weightWait
  | .entryLapse id =>
    (∀ p ∈ s.tap.permit, p.requestId ≠ id)
      ∧ ∃ e ∈ s.tap.queue, e.id = id ∧ ∃ d ∈ e.deadline, e.postedAt + d ≤ s.clock.shopSeconds
  | .pulsePeriodStart f => (s.allot.out.get f).mode = .pulse ∧ CountedTo 10000 (s.allot.out.get f).period
  | .pulseOffPhase f =>
    (s.allot.out.get f).mode = .pulse ∧ (s.allot.out.get f).phase = some .on
      ∧ CountedTo ((s.allot.out.get f).duty.getD 10 * 1000) (s.allot.out.get f).period
  | .estimatorSecond f => s.clock.estDue.get f = true
  | .readinessSecond => s.clock.readyDue = true
  | _ => False

/-- A timer that runs has counted one more millisecond. -/
def counted (t : Option Nat) : Option Nat := t.map (fun n => n + 1)

/-- A circuit timer that runs has counted one more millisecond; a held or stopped one stands (R102). -/
def circuitCounted (r : CircuitRec) : CircuitRec :=
  let count : Timer → Timer := fun t => if t.mode = .running then { t with ms := t.ms + 1 } else t
  { r with watch := count r.watch, derate := count r.derate, recovery := count r.recovery }

/-- The clock a millisecond later: after 1 000 of them a shop second, which owes the estimator seconds and the readiness
evaluation once the settings load has ended (R11, R25). -/
def clockCounted (working : Bool) (c : Clock) : Clock :=
  if c.subMs + 1 < 1000 then { c with subMs := c.subMs + 1, ms := c.ms + 1 }
  else
    { shopSeconds := min (c.shopSeconds + 1) 4294967295, subMs := 0, ms := c.ms + 1,
      estDue := ⟨c.estDue.a || working, c.estDue.b || working⟩, readyDue := c.readyDue || working }

/-- One millisecond has passed for the powered part: every timer that runs has counted it, an idle transmitter with a
frame pending has begun it (R77), and nothing else has changed. -/
def Counted (s t : State) : Prop :=
  t = { s with
    clock := clockCounted (!loading s) s.clock
    allot := { s.allot with out := s.allot.out.map (fun r => { r with period := counted r.period }) }
    shop :=
      { s.shop with
        decks := s.shop.decks.map (fun d => { d with timer := counted d.timer })
        stuckTimer := counted s.shop.stuckTimer }
    stage :=
      { s.stage.kick with deadline := counted s.stage.deadline, refresh := min 500 (s.stage.kick.refresh + 1) }
    scan :=
      { s.scan with
        sweepTimer := counted s.scan.sweepTimer
        dips := s.scan.dips.map (fun d => { d with timer := counted d.timer }) }
    prot :=
      { s.prot with
        circuits := s.prot.circuits.map circuitCounted
        loop :=
          { s.prot.loop with settle := counted s.prot.loop.settle, pressure := counted s.prot.loop.pressure } }
    tap :=
      { s.tap with
        permit := s.tap.permit.map (fun p =>
          { p with
            confirm := counted p.confirm, use := counted p.use, tap := counted p.tap
            weightWait := counted p.weightWait }) }
    ports := s.ports.mapPort (fun _ r => { r with gap := counted r.gap })
    sett := { s.sett with idle := counted s.sett.idle } }

end Sys2Proof.Machine
end

