-- ==== Sys2Proof/Certificates/Slice0/Obligations.lean ====
section
/-! DEFINITION. The statements for the provers. A request statement says the state the answer leaves through the frames of
Sys2Proof/Safety.lean: the state with the one change written in, then what the evaluations may change on it. Where both
furnaces' conditions behind UNPERMITTED_TILT or LEAK_WARN arise at once, the notice carries B in every one of them: the
model's reading, log 12 (`CarriesNext`). -/

open Sys2Proof Sys2Proof.Machine

/-! ### The queue, the ports and the requests in general -/

/-- A step takes the command at the front of the queue and runs it on the queue's rest. -/
def Obligations.StepTakesFrontCommand : Prop :=
  ∀ (c : Instr) (rest : List Instr) (s : State),
    step { s with pending := c :: rest } = exec c { s with pending := rest }

/-- On an empty queue the part's own timers run: the first event they owe, else one millisecond, which every running
timer counts (log 1); with the supply absent only the retained clock goes on (log 7). -/
def Obligations.EmptyQueueTakesTime : Prop :=
  ∀ (s : State),
    s.pending = [] →
      (match owed s with
        | c :: _ => step s = exec c s
        | [] => ∃ t, step s = .next t
            ∧ (s.powered = true → Counted s t)
            ∧ (s.powered = false → t = { s with clock := clockCounted false s.clock }))
      ∧ ∀ c, c ∈ owed s ↔ s.powered = true ∧ OwedWhen s c

/-- Every command goes on to a next state and leaves the queue; with the supply absent only the two resets do anything
(log 7). -/
def Obligations.EveryCommandAnswersNext : Prop :=
  ∀ (c : Instr) (s : State),
    ∃ t, exec c s = .next t ∧ t.pending = s.pending
      ∧ (s.powered = false →
          match c with
          | .coldStart _ | .warmRestart _ => t.powered = true
          | _ => t = s)

/-- R142: the first of the five cases answers a request, and in the first four nothing else changes. -/
def Obligations.RequestAnsweredByCases : Prop :=
  ∀ (k : RequestKind) (kind : Byte) (q : Port) (tag : Byte) (body : List Byte) (s : State),
    s.powered = true → (s.ports.get q).inHand = none →
      (loading s = true →
        exec (commandOf k q tag body) s = .next (answered k q tag body (replyRetry .loading) s)
          ∧ exec (.unknownRequestKind q kind tag body) s
            = .next (withAnswer q { kind := kind, tag := tag, body := body } (replyRetry .loading) s))
      ∧ (loading s = false → kind = 0 ∨ 0x20 < kind.toNat →
        exec (.unknownRequestKind q kind tag body) s
          = .next (withAnswer q { kind := kind, tag := tag, body := body } (replyRefused .badKind) s))
      ∧ (loading s = false → k.lengthOk body.length = false →
        exec (commandOf k q tag body) s = .next (answered k q tag body (replyRefused .badLength) s))
      ∧ (loading s = false → k.lengthOk body.length = true → permitted k q body = false →
        exec (commandOf k q tag body) s = .next (answered k q tag body (replyRefused .notPermitted) s))
      ∧ (loading s = false → k.lengthOk body.length = true → permitted k q body = true →
        ∃ t, exec (commandOf k q tag body) s = .next t
          ∧ (t.ports.get q).inHand = some (requestFrame k tag body)
          ∧ (t.ports.get q).answer = some (handle k q body (dropAssembly q s)).2)

/-- R141: a frame, also one of a kind that is no request's, that arrives with a request in hand goes into the empty
buffer, or is discarded. -/
def Obligations.RequestWhileInHandIsBuffered : Prop :=
  ∀ (k : RequestKind) (q : Port) (kind tag : Byte) (body : List Byte) (s : State),
    s.powered = true → (s.ports.get q).inHand.isSome = true →
      let buffered : Frame → State := fun fr => setPort q { s.ports.get q with assembly := [], buffer := some fr } s
      let discarded : State := setPort q { s.ports.get q with assembly := [] } s
      ((s.ports.get q).buffer = none →
        exec (commandOf k q tag body) s = .next (buffered (requestFrame k tag body))
          ∧ exec (.unknownRequestKind q kind tag body) s
            = .next (buffered { kind := kind, tag := tag, body := body }))
      ∧ ((s.ports.get q).buffer.isSome = true →
        exec (commandOf k q tag body) s = .next discarded
          ∧ exec (.unknownRequestKind q kind tag body) s = .next discarded)

/-- R141, R142, R150 and R161: the bytes of a request frame are assembled one by one and give the request; a frame whose
check fails, one for which there is no room, a gap and a bad length byte empty the assembly; the end of an answer takes
the buffered frame as it would be taken if it arrived then; the end of the gap lets ATTN follow the pending notices again.
That the assembly is empty between commands, and that a frame with a correct check and room is none that
REQUEST_FRAME_DISCARDED brings, is log 3. -/
def Obligations.PortEventsActOnTheirPort : Prop :=
  ∀ (q : Port) (len : Byte) (bytes : List Byte) (s : State),
    s.powered = true →
      let r := s.ports.get q
      let assembling : List Byte → State := fun b => setPort q { r with assembly := b } s
      let freed := setPort q { r with inHand := none, answer := none, buffer := none } s
      let correct := bytes.drop (bytes.length - 2) = checkBytes ((bytes.drop 1).take (bytes.length - 3))
      let full := r.inHand.isSome = true ∧ r.buffer.isSome = true
      (∀ (k : RequestKind) (kind tag : Byte) (body : List Byte), body.length ≤ 48 →
          let bytesOf : Byte → List Byte := fun kind =>
            let covered := BitVec.ofNat 8 (body.length + 2) :: kind :: tag :: body
            0xA5 :: covered ++ checkBytes covered
          exec (commandOf k q tag body) s
              = .next (receiveBytes q (bytesOf (BitVec.ofNat 8 k.code)) (assembling []))
            ∧ exec (.unknownRequestKind q kind tag body) s = .next (receiveBytes q (bytesOf kind) (assembling [])))
      ∧ (r.assembly = [] → receiveByte q len s = assembling (if len = 0xA5 then [len] else []))
      ∧ (r.assembly = [0xA5] →
          receiveByte q len s = assembling (if 2 ≤ len.toNat ∧ len.toNat ≤ 50 then [0xA5, len] else []))
      ∧ (frameBegun bytes = true → receiveBytes q bytes (assembling []) = assembling bytes)
      ∧ (wholeFrame bytes = true → ¬ correct → receiveBytes q bytes (assembling []) = assembling [])
      ∧ (wholeFrame bytes = true → ¬ correct ∨ full → exec (.requestFrameDiscarded ⟨q, bytes⟩) s = .next (assembling []))
      ∧ (wholeFrame bytes = true → correct → ¬ full → exec (.requestFrameDiscarded ⟨q, bytes⟩) s = .next s)
      ∧ (frameBegun bytes = true → exec (.stationByteGap ⟨q, bytes⟩) s = .next (assembling []))
      ∧ (len.toNat < 2 ∨ 50 < len.toNat → exec (.stationBadLengthByte q len) s = .next (assembling []))
      ∧ (∃ t, exec (.attnGapEnd q) s = .next t ∧ t = setPort q { s.ports.get q with gap := none } s
          ∧ State.attn t q = (s.ports.get q).notices.any (fun n => (s.ports.get q).enabled n.detail.kind))
      ∧ ((s.ports.get q).inHand = none → exec (.answerSent q) s = .next s)
      ∧ ((s.ports.get q).inHand.isSome = true → (s.ports.get q).buffer = none →
          exec (.answerSent q) s = .next (setPort q { s.ports.get q with inHand := none, answer := none } s))
      ∧ (∀ (k : RequestKind) (tag : Byte) (body : List Byte), (s.ports.get q).inHand.isSome = true →
          (s.ports.get q).assembly = [] → (s.ports.get q).buffer = some (requestFrame k tag body) →
          exec (.answerSent q) s = exec (commandOf k q tag body) freed)
      ∧ (∀ (kind tag : Byte) (body : List Byte), (s.ports.get q).inHand.isSome = true →
          (s.ports.get q).assembly = [] → (s.ports.get q).buffer = some { kind := kind, tag := tag, body := body } →
          exec (.answerSent q) s = exec (.unknownRequestKind q kind tag body) freed)
      ∧ (∀ fr ∈ (s.ports.get q).buffer, (s.ports.get q).inHand.isSome = true →
          ∃ t, exec (.answerSent q) s = .next t ∧ (t.ports.get q).inHand = some fr ∧ (t.ports.get q).buffer = none
            ∧ (t.ports.get q).answer = some (answerTo q fr freed).2)

/-! ### Heats -/

/-- R3, R8, R14 to R17, R19, R20, R46: the refusals of the heat requests leave all as it was. That SET-CHEMISTRY tests
the slot before the code is log 13. -/
def Obligations.HeatRequestsRefused : Prop :=
  ∀ (q : Port) (tag : Byte) (body : List Byte) (s : State),
    Ready q s → ∀ f ∈ portFurnace q,
      (body.length = 3 →
        (slotOf s f ≠ .empty →
          exec (.openHeat q tag body) s = .next (answered .openHeat q tag body (replyRefused .wrongState) s))
        ∧ (slotOf s f = .empty → ¬ (1 ≤ field body 0 1 ∧ field body 0 1 ≤ 4) →
          exec (.openHeat q tag body) s = .next (answered .openHeat q tag body (replyRefused .badKind) s))
        ∧ (slotOf s f = .empty → 1 ≤ field body 0 1 → field body 0 1 ≤ 4 →
            capacity s f < max 50 (field body 1 2) →
          exec (.openHeat q tag body) s = .next (answered .openHeat q tag body (replyRefused .overCapacity) s))
        ∧ (heatOf s f = none ∨ isTapping s f = true →
          exec (.addCharge q tag body) s = .next (answered .addCharge q tag body (replyRefused .wrongState) s))
        ∧ (∀ h ∈ heatOf s f, h.state ≠ .tapping →
          (¬ (1 ≤ field body 0 1 ∧ field body 0 1 ≤ 4) →
            exec (.addCharge q tag body) s = .next (answered .addCharge q tag body (replyRefused .badKind) s))
          ∧ (1 ≤ field body 0 1 → field body 0 1 ≤ 4 → 12 ≤ h.charges.length →
            exec (.addCharge q tag body) s = .next (answered .addCharge q tag body (replyRefused .listFull) s))
          ∧ (1 ≤ field body 0 1 → field body 0 1 ≤ 4 → h.charges.length < 12 →
              capacity s f < h.bathMass + max 50 (field body 1 2) →
            exec (.addCharge q tag body) s = .next (answered .addCharge q tag body (replyRefused .overCapacity) s))))
      ∧ (body.length = 2 →
        (heatOf s f = none →
          exec (.setMeltPower q tag body) s = .next (answered .setMeltPower q tag body (replyRefused .wrongState) s)
          ∧ exec (.setHoldTarget q tag body) s
            = .next (answered .setHoldTarget q tag body (replyRefused .wrongState) s))
        ∧ (slotOf s f = .empty ∨ (∃ h ∈ heatOf s f, h.state = .melting ∨ h.state = .tapping) →
          exec (.restate q tag body) s = .next (answered .restate q tag body (replyRefused .wrongState) s)))
      ∧ (body.length = 1 →
        (heatOf s f = none →
          exec (.setChemistry q tag body) s = .next (answered .setChemistry q tag body (replyRefused .wrongState) s))
        ∧ ((heatOf s f).isSome = true → 2 < field body 0 1 →
          exec (.setChemistry q tag body) s = .next (answered .setChemistry q tag body (replyRefused .badKind) s)))
      ∧ (body.length = 0 → heatOf s f = none ∨ isTapping s f = true →
        exec (.closeHeat q tag body) s = .next (answered .closeHeat q tag body (replyRefused .wrongState) s))

/-- R8: OPEN-HEAT in an EMPTY slot opens the heat with every field as R8 gives it. The order of the answer's items is
log 13. -/
def Obligations.OpenHeatOpens : Prop :=
  ∀ (q : Port) (tag : Byte) (body : List Byte) (s : State),
    Ready q s → ∀ f ∈ portFurnace q, ∀ m ∈ materialOf (field body 0 1),
      body.length = 3 → slotOf s f = .empty →
      let mass := max 50 (field body 1 2)
      let energy := mass * meltEnergy s m
      let h : Heat :=
        { number := takeNumber f s, state := .melting,
          charges := [{ material := m, mass := mass, addedAt := s.clock.shopSeconds }],
          totalMelt := energy, remaining := energy, restateAdj := 0, taps := [], openTap := none, bathMass := mass,
          estimate := none, accumulator := 0, lastDip := none, holdTarget := holdTargetSetting s f,
          chemistry := .pending, freeze := false, massUncertain := false, delivered := 0, useful := 0,
          classStamp := s.clock.shopSeconds, openedAt := s.clock.shopSeconds }
      mass ≤ capacity s f →
      ∃ t, exec (.openHeat q tag body) s = .next t
        ∧ SettledFor [] f
            (answered .openHeat q tag body
              { outcome := takenAs (decide (field body 1 2 < 50)), reason := none, body := be2 h.number ++ be2 mass }
              (openedState f h s)) t

/-- R7, R14, R32, R35, R36, R122, R127, R136: ADD-CHARGE adds the entry, the credit decides between a liquid heat and
MELTING, and the work of a TAP_READY heat in the queue ends NOT_READY, with matching run on what that leaves. The order
of the answer's items is log 13, and the READY_CHANGED of a covered charge is log 14. -/
def Obligations.AddChargeSettlesByCredit : Prop :=
  ∀ (q : Port) (tag : Byte) (body : List Byte) (s : State),
    Ready q s → ∀ f ∈ portFurnace q, ∀ h ∈ heatOf s f, ∀ m ∈ materialOf (field body 0 1),
      body.length = 3 → h.state ≠ .tapping → h.charges.length < 12 →
      let mass := max 50 (field body 1 2)
      let energy := mass * meltEnergy s m
      let total := min (h.totalMelt + energy) 4294967295
      let step := (h.bathMass + mass) * cp s
      let base : Heat :=
        { h with
          charges := h.charges ++ [{ material := m, mass := mass, addedAt := s.clock.shopSeconds }]
          bathMass := h.bathMass + mass, totalMelt := total, chemistry := .pending }
      let melting : Nat → Heat := fun left =>
        { base with
          state := .melting, remaining := min total left, estimate := none, accumulator := 0, freeze := false
          classStamp := if heatClass h = .melt then h.classStamp else s.clock.shopSeconds }
      let charged : Heat :=
        match h.state, h.estimate with
        | .melting, _ => { base with remaining := min total (h.remaining + energy), accumulator := 0 }
        | _, none => melting energy
        | _, some e =>
          let credit := (((e : Int) - (liquidus s : Int)) * (h.bathMass : Int) * (cp s : Int) + h.accumulator).toNat
          let left := credit - energy * 1000
          let estimate := liquidus s + left / step
          if energy * 1000 ≤ credit then
            { base with
              state := if h.state = .tapReady then .holding else h.state
              remaining := 0, estimate := some estimate
              accumulator := ((left - left / step * step : Nat) : Int)
              freeze := decide (estimate ≤ liquidus s + freezeMargin s) }
          else melting ((energy * 1000 - credit + 999) / 1000)
      h.bathMass + mass ≤ capacity s f →
      ∃ t, exec (.addCharge q tag body) s = .next t
        ∧ SettledFor [.freeze] f
            (answered .addCharge q tag body
              { outcome := takenAs (decide (field body 1 2 < 50)), reason := none,
                body := be2 mass ++ be2 (h.bathMass + mass) ++ be1 (slotCode (slotOf t f)) }
              (setHeat f charged s)) t
        ∧ isTapReady t f = false
        ∧ (h.state = .tapReady → charged.state = .holding → t.shop = s.shop →
            Noticed (.readyChanged f h.number .holding) t)
        ∧ (charged.freeze = true → h.freeze = false → Noticed (.freeze f h.number) t)
        ∧ (h.state = .tapReady → WorkEnded f .notReady s t) ∧ MatchingFollows s t

/-- R46, R161: SET-MELT-POWER. The bytes of its answer are log 13. -/
def Obligations.SetMeltPowerStoresRequest : Prop :=
  ∀ (q : Port) (tag : Byte) (body : List Byte) (s : State),
    Ready q s → body.length = 2 → ∀ f ∈ portFurnace q,
      let sent := field body 0 2
      let stored := min (floor10 sent) (floor10 (outputMax s f))
      (heatOf s f = none →
        exec (.setMeltPower q tag body) s = .next (answered .setMeltPower q tag body (replyRefused .wrongState) s))
      ∧ (∀ h ∈ heatOf s f,
        ∃ t, exec (.setMeltPower q tag body) s = .next t
          ∧ Coordinated []
              (answered .setMeltPower q tag body
                { outcome := takenAs (stored != sent), reason := none,
                  body := if stored = sent then [] else be2 stored }
                (setMeltRequest f stored s)) t
          ∧ (t.allot.out.get f).meltRequest = stored
          ∧ (t.heat.slots.get f).stopped = (s.heat.slots.get f).stopped
          ∧ (heatClass h = .hold → PowerLaw s →
              (t.allot.out.get f).command = (s.allot.out.get f).command))

/-- R15, R16, R40, R122, R161: SET-HOLD-TARGET and SET-CHEMISTRY store their value in the open heat, and the heat is
evaluated, with matching run where its readiness changes. The allotment follows the new target, and follows it after the
next estimator second; that it follows at the request already, by R40, is the model's reading of R15 (log 26). The bytes
that answer SET-HOLD-TARGET are log 13. -/
def Obligations.TargetAndChemistryStored : Prop :=
  ∀ (q : Port) (tag : Byte) (body : List Byte) (s : State),
    Ready q s → ∀ f ∈ portFurnace q, ∀ h ∈ heatOf s f,
      (body.length = 2 →
        let sent := field body 0 2
        let stored := if sent < liquidus s + 50 ∧ ¬ 1600 < sent then liquidus s + 50 else if 1600 < sent then 1600 else sent
        ∃ t, exec (.setHoldTarget q tag body) s = .next t
          ∧ SettledFor [] f
              (answered .setHoldTarget q tag body
                { outcome := takenAs (stored != sent), reason := none,
                  body := if stored = sent then [] else be2 stored }
                (setHeat f { h with holdTarget := stored } s)) t
          ∧ ∃ u, exec (.estimatorSecond f) t = .next u ∧ AllotmentCurrent u
              ∧ ∀ h' ∈ heatOf u f, h'.holdTarget = stored)
      ∧ (body.length = 1 → ∀ c ∈ chemistryOf (field body 0 1),
        ∃ t, exec (.setChemistry q tag body) s = .next t
          ∧ SettledFor [] f
              (answered .setChemistry q tag body (replyDone []) (setHeat f { h with chemistry := c } s)) t)

/-- R17, R18, R21, R47, R99, R122, R127, R136: CLOSE-HEAT closes the heat and opens its successor on the metal left;
matching runs on what the end of its work leaves. The order of the answer's items is log 13. -/
def Obligations.CloseHeatClosesAndSucceeds : Prop :=
  ∀ (q : Port) (tag : Byte) (body : List Byte) (s : State),
    Ready q s → body.length = 0 → ∀ f ∈ portFurnace q, ∀ h ∈ heatOf s f, h.state ≠ .tapping →
      let log := appendLog (summaryAs f h .closed h.bathMass s) s.heat.log
      let number := takeNumber f { s with heat := { s.heat with log := log } }
      let left := if h.state = .melting then h.remaining else 0
      let next : Heat :=
        { h with
          number := number
          state := if h.state = .tapReady then .holding else h.state
          charges := [{ material := .heel, mass := h.bathMass, addedAt := s.clock.shopSeconds }]
          totalMelt := left, remaining := left, restateAdj := 0, taps := [], openTap := none, chemistry := .pending
          delivered := 0, useful := 0, classStamp := s.clock.shopSeconds, openedAt := s.clock.shopSeconds }
      ∃ t, exec (.closeHeat q tag body) s = .next t
        ∧ (h.bathMass = 0 →
          SettledFor [.heatClosed, .dipFailed] f
            (answered .closeHeat q tag body (replyDone (be2 h.number ++ be2 0))
              (closedState f (summaryAs f h .closed 0 s) .empty s.heat.nextNumber s)) t)
        ∧ (0 < h.bathMass →
          SettledFor [.heatClosed, .dipFailed] f
            (answered .closeHeat q tag body (replyDone (be2 h.number ++ be2 number))
              (closedState f (summaryAs f h .closed h.bathMass s) (.heat next) (numberAfter number) s)) t)
        ∧ ClosingPosted f h.number .closed s t ∧ WorkEnded f .cancelled s t ∧ isTapReady t f = false
        ∧ MatchingFollows s t

/-- R19, R20, R99, R122, R127, R136: RESTATE declares an UNKNOWN slot or corrects the bath mass of a liquid heat; where it
closes the heat, matching runs on what the end of its work leaves. The order of the answer's items is log 13. -/
def Obligations.RestateDeclaresOrCorrects : Prop :=
  ∀ (q : Port) (tag : Byte) (body : List Byte) (s : State),
    Ready q s → body.length = 2 → ∀ f ∈ portFurnace q,
      let sent := field body 0 2
      let mass := min sent (capacity s f)
      let outcome := takenAs (mass != sent)
      let clamped : List Byte := if mass = sent then [] else be2 mass
      let opened : Heat :=
        { number := takeNumber f s, state := .superheat,
          charges := [{ material := .heel, mass := mass, addedAt := s.clock.shopSeconds }],
          totalMelt := 0, remaining := 0, restateAdj := 0, taps := [], openTap := none, bathMass := mass,
          estimate := none, accumulator := 0, lastDip := none, holdTarget := holdTargetSetting s f,
          chemistry := .pending, freeze := false, massUncertain := false, delivered := 0, useful := 0,
          classStamp := s.clock.shopSeconds, openedAt := s.clock.shopSeconds }
      (slotOf s f = .unknown → mass = 0 →
        ∃ t, exec (.restate q tag body) s = .next t
          ∧ SettledFor [] f
              (answered .restate q tag body { outcome := outcome, reason := none, body := clamped ++ be2 0 }
                (setSlot f .empty s)) t)
      ∧ (slotOf s f = .unknown → 0 < mass →
        ∃ t, exec (.restate q tag body) s = .next t
          ∧ SettledFor [] f
              (answered .restate q tag body
                { outcome := outcome, reason := none, body := clamped ++ be2 opened.number }
                (openedState f opened s)) t)
      ∧ (∀ h ∈ heatOf s f, h.state ≠ .melting → h.state ≠ .tapping →
        (0 < mass →
          ∃ t, exec (.restate q tag body) s = .next t
            ∧ SettledFor [] f
                (answered .restate q tag body { outcome := outcome, reason := none, body := be2 mass }
                  (setHeat f
                    { h with
                      restateAdj := (mass : Int) - ((h.charges.map ChargeEntry.mass).sum : Int)
                        + ((h.taps.map TapRecord.poured).sum : Int)
                      bathMass := mass
                      accumulator := (h.accumulator * (mass : Int)).tdiv (h.bathMass : Int)
                      massUncertain := false } s)) t)
        ∧ (mass = 0 →
          ∃ t, exec (.restate q tag body) s = .next t
            ∧ SettledFor [.heatClosed, .dipFailed] f
                (answered .restate q tag body { outcome := outcome, reason := none, body := be2 0 }
                  (closedState f (summaryAs f h .lost 0 s) .empty s.heat.nextNumber s)) t
            ∧ ClosingPosted f h.number .lost s t ∧ WorkEnded f .cancelled s t ∧ MatchingFollows s t))

/-! ### Allotment inputs, the tap queue and the permit -/

/-- R44, R61, R63: a change of SHED sets the ceiling and the budget anew, also while the settings are being loaded;
FURNACE-ON clears STOPPED; the allotment is computed again. -/
def Obligations.ShedAndFurnaceOnRecompute : Prop :=
  ∀ (q : Port) (tag : Byte) (body : List Byte) (active : Bool) (s : State),
    s.powered = true →
      let ceiling := if active then shedCeiling s else demandCeiling s
      (loading s = false →
        ∃ t, exec (.shedChange active) s = .next t
          ∧ Coordinated [] { s with allot := { s.allot with shed := active } } t
          ∧ t.allot.ceiling = ceiling ∧ t.allot.budget = min (supplyRating s) ceiling / 10 * 10)
      ∧ (loading s = true →
        exec (.shedChange active) s
          = .next
              { s with allot :=
                { s.allot with
                  shed := active, ceiling := ceiling, budget := min (supplyRating s) ceiling / 10 * 10 } })
      ∧ (Ready q s → body.length = 0 → ∀ f ∈ portFurnace q,
        ∃ t, exec (.furnaceOn q tag body) s = .next t
          ∧ Coordinated []
              (answered .furnaceOn q tag body (replyDone [])
                (setFurnaceSlot f { s.heat.slots.get f with stopped := false } s)) t)

/-- R125: TAP-OPEN is answered by the first of its cases. -/
def Obligations.TapOpenAnsweredByCases : Prop :=
  ∀ (q : Port) (tag : Byte) (body : List Byte) (s : State),
    Ready q s → body.length = 0 → ∀ f ∈ portFurnace q,
      (∀ p ∈ s.tap.permit,
        (p.furnace = f → p.state = .pending →
          exec (.tapOpen q tag body) s = .next (answered .tapOpen q tag body replyPending s))
        ∧ (p.furnace = f → p.state = .granted →
          exec (.tapOpen q tag body) s = .next (answered .tapOpen q tag body (replyDone []) s))
        ∧ (p.furnace ≠ f →
          exec (.tapOpen q tag body) s = .next (answered .tapOpen q tag body (replyRetry .permitBusy) s)))
      ∧ (s.tap.permit = none →
        (∀ r ∈ s.tap.kept.get f,
          exec (.tapOpen q tag body) s
            = .next (answered .tapOpen q tag body (replyRefused r)
                { s with tap := { s.tap with kept := s.tap.kept.set f none } }))
        ∧ (s.tap.kept.get f = none → ∀ e ∈ assignedTo s f,
          ∃ t, exec (.tapOpen q tag body) s = .next t
            ∧ Coordinated []
                (answered .tapOpen q tag body replyPending
                  { s with tap :=
                    { s.tap with
                      kept := ⟨none, none⟩
                      permit := some
                        { state := .pending, furnace := f, requestId := e.id, pendingAt := s.clock.shopSeconds,
                          confirm := some 0, grantedAt := none, use := none, forwardAt := none, homeAt := none,
                          tap := none, weightWait := none, weight := none, longPosted := false } } }) t
            ∧ t.tap.kept = ⟨none, none⟩)
        ∧ (s.tap.kept.get f = none → assignedTo s f = none →
          exec (.tapOpen q tag body) s = .next (answered .tapOpen q tag body (replyRefused .notReady) s)))

/-- R121, R70: POST-TAP appends its entry, brought into range, with a free request id, and may wake a banked deck. The
order of the answer's items is log 13. -/
def Obligations.PostTapAppendsEntry : Prop :=
  ∀ (q : Port) (tag : Byte) (body : List Byte) (s : State),
    Ready q s → q = .p → body.length = 8 ∨ body.length = 10 →
      let ladle := field body 0 1
      let bring : Nat → Nat → Nat → Nat := fun lo hi x => if hi < x then hi else if x < lo then lo else x
      let low := bring 1250 1600 (field body 3 2)
      let high := bring 1250 1600 (field body 5 2)
      let window : Nat × Nat :=
        if low + 10 ≤ high then (low, high) else if low + 10 ≤ 1600 then (low, low + 10) else (1590, 1600)
      let wanted := bring 100 3000 (field body 1 2)
      let deadline := if body.length = 10 then some (bring 60 3600 (field body 8 2)) else none
      let id := takeId s
      let refused : Reason → Prop := fun r =>
        exec (.postTap q tag body) s = .next (answered .postTap q tag body (replyRefused r) s)
      (ladle < 1 ∨ 63 < ladle ∨ 2 < field body 7 1 → refused .badKind)
      ∧ (1 ≤ ladle → ladle ≤ 63 → field body 7 1 ≤ 2 → (∃ e ∈ s.tap.queue, e.ladle = ladle) →
          refused .duplicateLadle)
      ∧ (1 ≤ ladle → ladle ≤ 63 → field body 7 1 ≤ 2 → (∀ e ∈ s.tap.queue, e.ladle ≠ ladle) →
          8 ≤ s.tap.queue.length → refused .queueFull)
      ∧ (1 ≤ ladle → ladle ≤ 63 → (∀ e ∈ s.tap.queue, e.ladle ≠ ladle) → s.tap.queue.length < 8 →
          ∀ pref ∈ preferenceNamed (field body 7 1),
          let e : Entry :=
            { id := id, ladle := ladle, wanted := wanted, low := window.1, high := window.2, preference := pref,
              deadline := deadline, assigned := none, postedAt := s.clock.shopSeconds }
          let same := wanted = field body 1 2 ∧ window = (field body 3 2, field body 5 2)
            ∧ (body.length = 10 → deadline = some (field body 8 2))
          let u := answered .postTap q tag body
            { outcome := if same then .done else .doneClamped, reason := none,
              body := be1 id ++ be2 wanted ++ be2 window.1 ++ be2 window.2 ++ opt4 deadline }
            { s with tap :=
              { s.tap with queue := s.tap.queue ++ [e], nextId := if id < 255 then id + 1 else 1 } }
          ∃ t, exec (.postTap q tag body) s = .next t
            ∧ id ∉ queueIds s ∧ s.tap.lastEnded ≠ some id ∧ Matched t
            ∧ (¬ (s.shop.state = .banked ∧ wakeOnPost s = true) → Coordinated [] u t)
            ∧ (s.shop.state = .banked → wakeOnPost s = true →
                SettledAll [] { u with shop := { s.shop with state := .run } } t
                  ∧ Noticed (.shopState .run s.shop.reasons .postTap) t))

/-- R135: CANCEL-TAP. -/
def Obligations.CancelTapWithdrawsEntry : Prop :=
  ∀ (q : Port) (tag : Byte) (body : List Byte) (s : State),
    Ready q s → q = .p → body.length = 1 →
      let id := field body 0 1
      let removed := s.tap.queue.filter (fun e => e.id != id)
      let done := answered .cancelTap q tag body (replyDone [])
      (entryOf s id = none →
        exec (.cancelTap q tag body) s = .next (answered .cancelTap q tag body (replyRefused .noSuchEntry) s))
      ∧ ((entryOf s id).isSome = true →
        ((∀ p ∈ s.tap.permit, p.requestId ≠ id) →
          ∃ t, exec (.cancelTap q tag body) s = .next t
            ∧ Coordinated [] (done { s with tap := { s.tap with queue := removed } }) t ∧ Matched t)
        ∧ (∀ p ∈ s.tap.permit, p.requestId = id →
          (p.state = .pending →
            let kept := s.tap.kept.set p.furnace (some .cancelled)
            ∃ t, exec (.cancelTap q tag body) s = .next t
              ∧ Coordinated [.permitResolved]
                  (done { s with tap := { s.tap with queue := removed, permit := none, kept := kept } }) t
              ∧ Matched t
              ∧ Noticed
                  (.permitResolved (some .cancelled) p.furnace (heatNumber s p.furnace) id (ladleOf s id)) t)
          ∧ (p.state = .granted →
            exec (.cancelTap q tag body) s = .next (answered .cancelTap q tag body (replyRefused .tooLate) s))))

/-- R13, R133, R134: TAP-WEIGHT stores the weight, and completes the tap when the furnace stands HOME. The order of the
answer's items is log 13. -/
def Obligations.TapWeightStoresOrCompletes : Prop :=
  ∀ (q : Port) (tag : Byte) (body : List Byte) (s : State),
    Ready q s → q = .p → body.length = 3 →
      let id := field body 0 1
      let sent := field body 1 2
      let refused : Reason → Prop := fun r =>
        exec (.tapWeight q tag body) s = .next (answered .tapWeight q tag body (replyRefused r) s)
      (∀ p ∈ s.tap.permit, p.state = .granted → p.requestId = id → p.forwardAt = none → refused .wrongState)
      ∧ ((∀ p ∈ s.tap.permit, p.state ≠ .granted ∨ p.requestId ≠ id) →
        (s.tap.lastEnded = some id → refused .tooLate)
        ∧ (s.tap.lastEnded ≠ some id → (entryOf s id).isSome = true → refused .wrongState)
        ∧ (s.tap.lastEnded ≠ some id → entryOf s id = none → refused .noSuchEntry))
      ∧ (∀ p ∈ s.tap.permit, p.state = .granted → p.requestId = id → p.forwardAt.isSome = true →
        ∀ h ∈ heatOf s p.furnace,
          let mass := min sent h.bathMass
          let clamped := decide (h.bathMass < sent)
          let stored : List Byte := if clamped then be2 mass else []
          let kept : Permit := { p with weight := some { mass := mass, clamped := clamped } }
          (tiltOf s p.furnace ≠ .home →
            exec (.tapWeight q tag body) s
              = .next (answered .tapWeight q tag body
                  { outcome := takenAs clamped, reason := none, body := stored }
                  { s with tap := { s.tap with permit := some kept } }))
          ∧ (tiltOf s p.furnace = .home →
            ∃ t, exec (.tapWeight q tag body) s = .next t
              ∧ TapCompleted kept h mass clamped false s
                  (answered .tapWeight q tag body
                    { outcome := takenAs clamped, reason := none, body := stored ++ be2 (h.bathMass - mass) }
                    (completedState kept h mass clamped false s)) t))

/-- R13, R126, R127, R131, R132, R134, R136: the four timers of the permit; the entry of a permit that ends returns to
WAITING, and a completion that leaves no metal closes the heat. -/
def Obligations.TapTimersEndThePermit : Prop :=
  ∀ (s : State),
    s.powered = true → loading s = false →
      (s.tap.permit = none →
        exec .tapConfirmExpiry s = .next s ∧ exec .permitUseExpiry s = .next s ∧ exec .tapMaxExpiry s = .next s
          ∧ exec .weightWaitExpiry s = .next s)
      ∧ (∀ p ∈ s.tap.permit, ∀ h ∈ heatOf s p.furnace,
        (p.state = .pending → p.confirm.isSome = true →
          ∃ t, exec .tapConfirmExpiry s = .next t ∧ ConfirmExpired p h s t)
        ∧ (p.state = .granted → p.use.isSome = true → p.forwardAt = none →
          ∃ t, exec .permitUseExpiry s = .next t ∧ UseExpired p h s t)
        ∧ (∀ forward ∈ p.forwardAt, p.state = .granted → p.tap.isSome = true → p.longPosted = false →
          ∃ t, exec .tapMaxExpiry s = .next t ∧ TapMaxExpired p h forward s t)
        ∧ (p.state = .granted → p.weightWait.isSome = true →
          ∃ t, exec .weightWaitExpiry s = .next t ∧ WeightWaitExpired p h s t))

/-- R13, R122, R129, R130, R131, R132, R134: a change of tilt starts the pour, records the return HOME, and completes a
weighed tap; UNPERMITTED_TILT is evaluated, and matching runs where the change asks for it. -/
def Obligations.TiltChangeSupervisesThePour : Prop :=
  ∀ (f : Furnace) (home forward : Bool) (s : State),
    s.powered = true →
      let u : State :=
        { s with tap := { s.tap with tilt := s.tap.tilt.set f { known := true, home := home, forward := forward } } }
      let second := s.clock.shopSeconds
      let inTap : (TapRecord → TapRecord) → Heat → Heat := fun g h => { h with openTap := h.openTap.map g }
      let withPermit : Permit → State := fun p => { u with tap := { u.tap with permit := some p } }
      tiltOf u f = (if home && !forward then .home else if forward && !home then .forward
          else if home then .invalid else .back)
      ∧ (loading s = true ∨ tiltOf u f = tiltOf s f → exec (.tiltChange f home forward) s = .next u)
      ∧ (loading s = false → tiltOf u f ≠ tiltOf s f →
        (grantedFor s f = false → ∃ t, exec (.tiltChange f home forward) s = .next t ∧ SettledFor [] f u t)
        ∧ (∀ p ∈ s.tap.permit, ∀ h ∈ heatOf s f, p.state = .granted → p.furnace = f →
          ∃ t, exec (.tiltChange f home forward) s = .next t
            ∧ (tiltOf u f = .forward ∨ tiltOf u f = .invalid → p.forwardAt = none →
              SettledFor [] f
                (setHeat f
                  (inTap (fun x => { x with forwardAt := some second, estimateAtForward := h.estimate }) h)
                  (withPermit { p with forwardAt := some second, use := none, tap := some 0 })) t)
            ∧ (tiltOf u f = .forward ∨ tiltOf u f = .invalid → p.forwardAt.isSome = true →
              SettledFor [] f (withPermit { p with weightWait := none }) t)
            ∧ (tiltOf u f = .back → SettledFor [] f (withPermit { p with weightWait := none }) t)
            ∧ (tiltOf u f = .home → p.forwardAt = none → SettledFor [] f u t)
            ∧ (tiltOf u f = .home → p.forwardAt.isSome = true →
              let returned := inTap (fun x => { x with homeAt := some second }) h
              match p.weight with
              | none =>
                SettledFor [] f
                  (setHeat f returned (withPermit { p with homeAt := some second, weightWait := some 0 })) t
              | some w =>
                TapCompleted p h w.mass w.clamped false s
                  (completedState { p with homeAt := some second } returned w.mass w.clamped false u) t)))

/-! ### Protection, the shop and the link on request -/

/-- R111, R161: TRIP-RESET. That the CONDITION_PRESENT byte sends the bits of the main pump and the pressure as 0 is
log 13. -/
def Obligations.TripResetNeedsClearReadings : Prop :=
  ∀ (q : Port) (tag : Byte) (body : List Byte) (s : State),
    Ready q s → body.length = 1 → q ≠ .p →
      (2 < field body 0 1 →
        exec (.tripReset q tag body) s = .next (answered .tripReset q tag body (replyRefused .badKind) s))
      ∧ (∀ c ∈ circuitNamed (field body 0 1), ¬ (q = .a ∧ c = .coilB) → ¬ (q = .b ∧ c = .coilA) →
        let hard := (hardCause s c).isSome
        let soft := softCond s c
        let failed := decide (s.prot.loop.state = some .loopFail)
        let clear := allValid s c = true ∧ hard = false ∧ soft = false ∧ failed = false
        let reset : CircuitRec :=
          { timersHalted (circuitOf s c) with
            state := .normal, cause := none, latch := false, enteredAt := s.clock.shopSeconds }
        let u := answered .tripReset q tag body (replyDone []) (setCircuitRec c reset s)
        ((circuitOf s c).state ≠ .trip →
          exec (.tripReset q tag body) s = .next (answered .tripReset q tag body (replyRefused .wrongState) s))
        ∧ ((circuitOf s c).state = .trip → ¬ clear →
          exec (.tripReset q tag body) s
            = .next (answered .tripReset q tag body (replyConditions hard soft failed false false) s))
        ∧ ((circuitOf s c).state = .trip → clear →
          ∃ t, exec (.tripReset q tag body) s = .next t
            ∧ (c = .cabinet → SettledAll [.cooling] u t)
            ∧ (∀ f, c = coilOf f → SettledFor [.cooling] f u t)
            ∧ Noticed (coolingDetail t) t))

/-- R67, R68, R69, R70, R161: RESUME, BANK and WAKE. The byte RESUME answers is log 13. -/
def Obligations.ShopRequestsChangeTheShop : Prop :=
  ∀ (q : Port) (tag : Byte) (body : List Byte) (s : State),
    Ready q s → body.length = 0 →
      let inState : ShopState → HoldReasons → State → State := fun st r x =>
        { x with shop := { s.shop with state := st, reasons := r } }
      let wrong : RequestKind → Prop := fun k =>
        exec (commandOf k q tag body) s = .next (answered k q tag body (replyRefused .wrongState) s)
      (q ≠ .p → s.shop.state = .held →
        ∃ t, exec (.resume q tag body) s = .next t
          ∧ SettledAll []
              (answered .resume q tag body (replyDone (be1 (holdReasonsCode s.shop.reasons)))
                (inState .run ⟨false, false, false, false⟩ s)) t
          ∧ t.shop.state = .run ∧ Noticed (.shopState .run ⟨false, false, false, false⟩ .resume) t)
      ∧ (q ≠ .p → s.shop.state ≠ .held → wrong .resume)
      ∧ (q = .p →
        exec (.resume q tag body) s = .next (answered .resume q tag body (replyRefused .notPermitted) s))
      ∧ (s.shop.state = .run → s.tap.permit = none →
        ∃ t, exec (.bank q tag body) s = .next t
          ∧ SettledAll [] (answered .bank q tag body (replyDone []) (inState .banked s.shop.reasons s)) t
          ∧ (t.shop.state = .banked → Noticed (.shopState .banked s.shop.reasons .bank) t)
          ∧ (t.shop.state = .run → Noticed (.shopState .run s.shop.reasons .floor) t))
      ∧ (s.shop.state = .run → s.tap.permit.isSome = true → wrong .bank)
      ∧ (s.shop.state = .banked →
        exec (.bank q tag body) s = .next (answered .bank q tag body (replyDone []) s))
      ∧ (s.shop.state = .held ∨ s.shop.state = .supplyOff → wrong .bank ∧ wrong .wake)
      ∧ (s.shop.state = .banked →
        ∃ t, exec (.wake q tag body) s = .next t
          ∧ SettledAll [] (answered .wake q tag body (replyDone []) (inState .run s.shop.reasons s)) t
          ∧ t.shop.state = .run ∧ Noticed (.shopState .run s.shop.reasons .wake) t)
      ∧ (s.shop.state = .run →
        exec (.wake q tag body) s = .next (answered .wake q tag body (replyDone []) s))

/-- R84: LINK-RESTART leaves FAULT for DOWN; the next valid REPORT brings the link UP and is the last report. -/
def Obligations.LinkRestartLeavesFault : Prop :=
  ∀ (q : Port) (tag : Byte) (body : List Byte) (deliveredA : BitVec 16) (statusA : Byte) (deliveredB : BitVec 16)
    (statusB : Byte) (s : State),
    Ready q s → body.length = 0 →
      (q ≠ .p → s.stage.link = .fault →
        ∃ t, exec (.linkRestart q tag body) s = .next t
          ∧ Coordinated [.link]
              (answered .linkRestart q tag body (replyDone [])
                { s with stage := { s.stage with link := .down, babble := [] } }) t
          ∧ t.stage.last = s.stage.last ∧ Noticed (.link .down .restart) t
          ∧ (deliveredA.toNat ≤ 9999 → deliveredB.toNat ≤ 9999 → ∀ ra ∈ statusOf statusA, ∀ rb ∈ statusOf statusB,
            ∃ u, exec (.report deliveredA statusA deliveredB statusB) t = .next u ∧ u.stage.link = .up
              ∧ u.stage.last = some
                  { out :=
                      ⟨{ delivered := deliveredA.toNat, status := ra }, { delivered := deliveredB.toNat, status := rb }⟩
                    takenAt := s.clock.ms }))
      ∧ (q ≠ .p → s.stage.link ≠ .fault →
        exec (.linkRestart q tag body) s = .next (answered .linkRestart q tag body (replyRefused .wrongState) s))
      ∧ (q = .p →
        exec (.linkRestart q tag body) s = .next (answered .linkRestart q tag body (replyRefused .notPermitted) s))

/-- R115, R161: PUMP-RETURN. That the CONDITION_PRESENT byte sends the bits of HARD, SOFT and LOOP_FAIL as 0, in LOOP_FAIL
too, is log 13. -/
def Obligations.PumpReturnNeedsTheMainPump : Prop :=
  ∀ (q : Port) (tag : Byte) (body : List Byte) (s : State),
    Ready q s → body.length = 0 → q ≠ .p →
      let main := s.lines.mainPumpRun
      let good := pressureGood s
      let st := s.prot.loop.state
      (st = some .standby ∧ main = true ∨ st = some .loopFail ∧ main = true ∧ good = true →
        ∃ t, exec (.pumpReturn q tag body) s = .next t
          ∧ ProtFrame (answered .pumpReturn q tag body (replyDone []) s) t
          ∧ LoopReturned (answered .pumpReturn q tag body (replyDone []) s) t)
      ∧ (st = some .standby ∧ main = false ∨ st = some .loopFail ∧ ¬ (main = true ∧ good = true) →
        exec (.pumpReturn q tag body) s
          = .next (answered .pumpReturn q tag body (replyConditions false false false main good) s))
      ∧ (st ≠ some .standby → st ≠ some .loopFail →
        exec (.pumpReturn q tag body) s = .next (answered .pumpReturn q tag body (replyRefused .wrongState) s))

/-! ### Settings, reads and notices -/

/-- R22, R62, R74, R86, R100, R118, R138, R144, R147, R155, R156: a read is answered from the state and changes nothing;
READ-SETTING restarts its owner's idle timer. The layout of the bodies is log 13. -/
def Obligations.ReadsChangeNothing : Prop :=
  ∀ (q : Port) (tag : Byte) (body : List Byte) (s : State),
    Ready q s →
      (body.length = 0 →
        exec (.queryQueue q tag body) s = .next (answered .queryQueue q tag body (replyDone (queueBody s)) s)
        ∧ exec (.queryProtection q tag body) s
          = .next (answered .queryProtection q tag body (replyDone (protectionBody s)) s)
        ∧ exec (.queryChannels q tag body) s
          = .next (answered .queryChannels q tag body (replyDone (channelsBody s)) s)
        ∧ exec (.queryAllotment q tag body) s
          = .next (answered .queryAllotment q tag body (replyDone (allotmentBody s)) s)
        ∧ exec (.queryShop q tag body) s = .next (answered .queryShop q tag body (replyDone (shopBody s)) s)
        ∧ exec (.readNotices q tag body) s
          = .next (answered .readNotices q tag body (replyDone (noticesBody (s.ports.get q))) s))
      ∧ (body.length = 1 →
        (∀ f ∈ furnaceNamed (field body 0 1),
          exec (.queryFurnace q tag body) s
            = .next (answered .queryFurnace q tag body (replyDone (furnaceBody s f)) s))
        ∧ (1 < field body 0 1 →
          exec (.queryFurnace q tag body) s = .next (answered .queryFurnace q tag body (replyRefused .badKind) s)))
      ∧ (body.length = 2 →
        (field body 0 2 = 0 → ∀ x ∈ s.heat.log.head?,
          exec (.readLog q tag body) s
            = .next (answered .readLog q tag body
                (replyDone (summaryBody x ((s.heat.log.tail.head?.map Summary.number).getD 0))) s))
        ∧ (field body 0 2 ≠ 0 → ∀ (older newer : List Summary) (x : Summary),
            s.heat.log = older ++ x :: newer → x.number = field body 0 2 →
            (∀ y ∈ older, y.number ≠ field body 0 2) →
          exec (.readLog q tag body) s
            = .next (answered .readLog q tag body
                (replyDone (summaryBody x ((newer.head?.map Summary.number).getD 0))) s))
        ∧ (s.heat.log = [] ∨ field body 0 2 ≠ 0 ∧ (∀ x ∈ s.heat.log, x.number ≠ field body 0 2) →
          exec (.readLog q tag body) s = .next (answered .readLog q tag body (replyRefused .noSuchEntry) s)))
      ∧ (body.length = 1 →
        let n := field body 0 1
        let touched : State :=
          if s.sett.owner = some q then { s with sett := { s.sett with idle := some 0 } } else s
        let range := rangeOf s.sett.working ⟨bathMassOf s .a, bathMassOf s .b⟩ false n
        (1 ≤ n → n ≤ 65 →
          exec (.readSetting q tag body) s
            = .next (answered .readSetting q tag body
                (replyDone (be2 (valueIn s.sett.working n) ++ be2 range.1 ++ be2 range.2
                  ++ be2 (valueIn Config.settingDefaults n))) touched))
        ∧ (n < 1 ∨ 65 < n →
          exec (.readSetting q tag body) s
            = .next (answered .readSetting q tag body (replyRefused .badKind) touched)))

/-- R15, R41, R47, R91, R93, R117, R137, R153, R154, R155: WRITE-SETTING stores its value in the range, takes the
channel, and is taken up at once by every block. The order of the answer's items is log 13; that both heats are evaluated
and the allotment current after every write is log 23; the order in which the blocks and the circuits take it up is log
10 and log 31. -/
def Obligations.WriteSettingStoresInRange : Prop :=
  ∀ (q : Port) (tag : Byte) (body : List Byte) (s : State),
    Ready q s → body.length = 3 → s.sett.working.length = 65 →
      let n := field body 0 1
      let value := field body 1 2
      let named := 1 ≤ n ∧ n ≤ 65 ∧ (52 ≤ n → value ≤ 1)
      let touched : State :=
        if s.sett.owner = some q then { s with sett := { s.sett with idle := some 0 } } else s
      let baths : PerFurnace Nat := ⟨bathMassOf s .a, bathMassOf s .b⟩
      let range := rangeOf s.sett.working baths false n
      let brought := if range.2 < value then range.2 else if value < range.1 then range.1 else value
      let stored := if isTens n then brought / 10 * 10 else brought
      let new := writeWorking s.sett.working baths n value
      let reply : Reply :=
        { outcome := takenAs (stored != value), reason := none,
          body := (if stored = value then [] else be2 stored) ++ changedBytes s.sett.working new n }
      let mine : SettingsManager := { s.sett with owner := some q, idle := some 0 }
      (¬ named →
        exec (.writeSetting q tag body) s
          = .next (answered .writeSetting q tag body (replyRefused .badKind) touched))
      ∧ (named → s.sett.memory = .saving →
        exec (.writeSetting q tag body) s
          = .next (answered .writeSetting q tag body (replyRetry .saving) touched))
      ∧ (named → s.sett.memory ≠ .saving → s.sett.owner ≠ none → s.sett.owner ≠ some q →
        exec (.writeSetting q tag body) s
          = .next (answered .writeSetting q tag body (replyRetry .channelHeld) s))
      ∧ (named → s.sett.memory ≠ .saving → s.sett.owner = none ∨ s.sett.owner = some q →
        valueIn new n = stored
        ∧ (new = s.sett.working →
          exec (.writeSetting q tag body) s = .next (answered .writeSetting q tag body reply { s with sett := mine }))
        ∧ (new ≠ s.sett.working →
          ∃ t, exec (.writeSetting q tag body) s = .next t
            ∧ WriteTakenUp s.sett.working
                (answered .writeSetting q tag body reply { s with sett := { mine with working := new } }) t
            ∧ t.sett = { mine with working := new }
            ∧ (t.ports.get q).answer = some reply
            ∧ (t.ports.get q).inHand = some (requestFrame .writeSetting tag body)
            ∧ Noticed (.settings .written (some q) n stored (changedDependents s.sett.working new n).length) t
            ∧ EvaluatedNow .a t ∧ EvaluatedNow .b t ∧ AllotmentCurrent t
            ∧ t.powered = s.powered ∧ t.clock = s.clock ∧ t.lines = s.lines ∧ t.stage.link = s.stage.link))

/-- R155, R158: SAVE-SETTINGS, RELEASE-CHANNEL, the end of a save, and the expiry of the channel's idle timer. The
part-written flag of the stored block is log 6. -/
def Obligations.SaveAndChannelEvents : Prop :=
  ∀ (q : Port) (tag : Byte) (body : List Byte) (part : Bool) (s : State),
    s.powered = true →
      (Ready q s → body.length = 0 →
        let touched : State :=
          if s.sett.owner = some q then { s with sett := { s.sett with idle := some 0 } } else s
        (s.sett.memory = .saving →
          exec (.saveSettings q tag body) s
            = .next (answered .saveSettings q tag body (replyRetry .saving) touched))
        ∧ (s.sett.memory ≠ .saving → s.sett.owner ≠ none → s.sett.owner ≠ some q →
          exec (.saveSettings q tag body) s
            = .next (answered .saveSettings q tag body (replyRetry .channelHeld) s))
        ∧ (s.sett.memory ≠ .saving → s.sett.owner = none ∨ s.sett.owner = some q →
          exec (.saveSettings q tag body) s
            = .next (answered .saveSettings q tag body (replyDone [])
                { s with sett := { s.sett with owner := some q, idle := some 0, memory := .saving } }))
        ∧ (s.sett.owner = some q →
          exec (.releaseChannel q tag body) s
            = .next (answered .releaseChannel q tag body (replyDone [])
                { s with sett := { s.sett with owner := none, idle := none } }))
        ∧ (s.sett.owner ≠ some q →
          exec (.releaseChannel q tag body) s
            = .next (answered .releaseChannel q tag body (replyRefused .notOwner) s)))
      ∧ (s.sett.memory = .saving →
        (∃ t, exec (.saveEnd .saved) s = .next t
          ∧ t = { s with
              sett :=
                { s.sett with
                  memory := .idle
                  block :=
                    { values := s.sett.working, check := crc16 (settingsBytes s.sett.working),
                      partWritten := false } }
              ports := t.ports }
          ∧ PortsNoted [.settings] s t ∧ Noticed (.settings .saved none 0 0 0) t)
        ∧ (∃ t, exec (.saveEnd (.failed part)) s = .next t
          ∧ t = { s with
              sett :=
                { s.sett with
                  memory := .idle
                  block := { s.sett.block with partWritten := s.sett.block.partWritten || part } }
              ports := t.ports }
          ∧ PortsNoted [.settings] s t ∧ Noticed (.settings .saveFailed none 0 0 0) t))
      ∧ (s.sett.memory ≠ .saving → exec (.saveEnd .saved) s = .next s ∧ exec (.saveEnd (.failed part)) s = .next s)
      ∧ (s.sett.owner ≠ none → s.sett.idle ≠ none →
        exec (.channelIdleExpiry) s = .next { s with sett := { s.sett with owner := none, idle := none } })
      ∧ (s.sett.owner = none → exec (.channelIdleExpiry) s = .next s)

/-- R110, R130, R146, R148, R150: ACK-NOTICES clears what the station has seen, keeps what is newer, posts a level kind
again whose condition holds, with what LEAK_WARN and UNPERMITTED_TILT then carry at the port, and starts the gap; its
answer is DONE with the kinds kept and the kinds posted again, each with its serial (R161). A kind named twice, the order
of the serials and of the entries of the two lists, and BAD_KIND before BUSY are log 30; that the two lists stand in that
order, each entry a kind byte and a two-byte serial, is log 13. -/
def Obligations.AckNoticesClearsWhatWasSeen : Prop :=
  ∀ (q : Port) (tag : Byte) (body : List Byte) (s : State),
    Ready q s → body.length % 3 = 0 → 3 ≤ body.length → body.length ≤ 48 →
      let pairs := ackPairs body
      let named : Notice → Bool := fun n =>
        pairs.any (fun x => x.1 == n.detail.kind.code && (x.2 == 0 || x.2 == n.serial))
      let cleared : NoticeKind → Bool := fun k => (s.ports.get q).notices.any (fun n => n.detail.kind == k && named n)
      let leak : Furnace → Bool := fun f => (circuitOf s (coilOf f)).leakWarning
      let stands : Detail → Prop := fun d =>
        match d with
        | .freeze f number => portFurnace q = some f ∧ ∃ h ∈ heatOf s f, h.freeze = true ∧ h.number = number
        | .cooling states causes =>
          (∃ c, (circuitOf s c).state ≠ .normal)
            ∧ ∀ c, states.get c = (circuitOf s c).state
              ∧ causes.get c = if (circuitOf s c).state = .trip then (circuitOf s c).cause else none
        | .leakWarn f value =>
          leak f = true ∧ (leak (otherFurnace f) = true → s.prot.leakCarried.get q ≠ some f)
            ∧ value = ((chanOf s (if f = .a then .leakA else .leakB)).value).getD 0
        | .unpermittedTilt d =>
          s.tap.unpermitted.get d.furnace = true
            ∧ (s.tap.unpermitted.get (otherFurnace d.furnace) = true →
                ∀ x ∈ s.tap.tiltCarried.get q, x.furnace ≠ d.furnace)
            ∧ d = { furnace := d.furnace, tilt := tiltOf s d.furnace, permitHeld := grantedFor s d.furnace }
        | .breakerStuck => s.shop.stuck = true
        | _ => False
      let levelHolds : NoticeKind → Prop := fun k =>
        match k with
        | .freeze => ∃ f ∈ portFurnace q, ∃ h ∈ heatOf s f, h.freeze = true
        | .cooling => ∃ c, (circuitOf s c).state ≠ .normal
        | .leakWarn => ∃ f, leak f = true
        | .unpermittedTilt => ∃ f, s.tap.unpermitted.get f = true
        | .breakerStuck => s.shop.stuck = true
        | _ => False
      ((∃ x ∈ pairs, x.1 < 1 ∨ 20 < x.1) →
        exec (.ackNotices q tag body) s = .next (answered .ackNotices q tag body (replyRefused .badKind) s))
      ∧ ((∀ x ∈ pairs, 1 ≤ x.1 ∧ x.1 ≤ 20) → (s.ports.get q).gap.isSome = true →
        exec (.ackNotices q tag body) s = .next (answered .ackNotices q tag body (replyRetry .busy) s))
      ∧ ((∀ x ∈ pairs, 1 ≤ x.1 ∧ x.1 ≤ 20) → (s.ports.get q).gap = none →
        ∃ t, exec (.ackNotices q tag body) s = .next t
          ∧ t = { s with
              ports := t.ports
              prot := { s.prot with leakCarried := t.prot.leakCarried }
              tap := { s.tap with tiltCarried := t.tap.tiltCarried } }
          ∧ (∀ other, other ≠ q →
              t.ports.get other = s.ports.get other ∧ t.prot.leakCarried.get other = s.prot.leakCarried.get other
                ∧ t.tap.tiltCarried.get other = s.tap.tiltCarried.get other)
          ∧ (cleared .leakWarn = false → t.prot.leakCarried.get q = s.prot.leakCarried.get q)
          ∧ (cleared .unpermittedTilt = false → t.tap.tiltCarried.get q = s.tap.tiltCarried.get q)
          ∧ (t.ports.get q).gap = some 0 ∧ State.attn t q = false
          ∧ (∃ r ∈ (t.ports.get q).answer, r.outcome = .done ∧ r.reason = none)
          ∧ (t.ports.get q).inHand = some (requestFrame .ackNotices tag body)
          ∧ (PortLaw (s.ports.get q) →
              Answers q .done none
                (kindsListed (t.ports.get q).notices (kindsKept pairs (s.ports.get q).notices)
                  ++ kindsListed (t.ports.get q).notices (kindsCleared pairs (s.ports.get q).notices)) t)
          ∧ (PortLaw (s.ports.get q) → ∀ n ∈ (s.ports.get q).notices,
              (named n = false → n ∈ (t.ports.get q).notices)
              ∧ (named n = true →
                (levelHolds n.detail.kind → ∃ m ∈ (t.ports.get q).notices, m.detail.kind = n.detail.kind)
                ∧ ∀ m ∈ (t.ports.get q).notices, m.detail.kind = n.detail.kind →
                    stands m.detail
                      ∧ (match m.detail with
                        | .leakWarn f _ => t.prot.leakCarried.get q = some f
                        | .unpermittedTilt d => t.tap.tiltCarried.get q = some d
                        | _ => True)
                      ∧ ∃ k < pairs.length, m.serial = Nat.repeat nextSerialAfter k (s.ports.get q).nextSerial)))

/-- R149, R150: SET-NOTICE-ENABLES stores the enables and answers them; ATTN follows at once. The spare bits of the body
are log 30. -/
def Obligations.NoticeEnablesStored : Prop :=
  ∀ (q : Port) (tag : Byte) (body : List Byte) (s : State),
    Ready q s → body.length = 3 →
      let enables : BitVec 20 := BitVec.ofNat 20 (field body 0 3)
      ∃ t, exec (.setNoticeEnables q tag body) s = .next t
        ∧ t = answered .setNoticeEnables q tag body
            (replyDone (be1 (enables.toNat / 65536) ++ be2 enables.toNat))
            (setPort q { s.ports.get q with enables := enables } s)
        ∧ State.attn t q = ((s.ports.get q).gap.isNone
            && (s.ports.get q).notices.any (fun n => enables.getLsbD (n.detail.kind.code - 1)))

/-! ### Resets and the settings load -/

/-- R23, R63, R65, R73, R75, R101, R119, R139, R151, R157, R159: what a cold start leaves. -/
def Obligations.ColdStartLeavesResetValues : Prop :=
  ∀ (l : ResetLines) (s : State),
      ∃ t, exec (.coldStart l) s = .next t
        ∧ VolatileReset l t
        ∧ t.heat =
            { slots :=
                ⟨{ slot := .unknown, stamp := 0, stopped := false, reported := none },
                  { slot := .unknown, stamp := 0, stopped := false, reported := none }⟩,
              log := [], nextNumber := 1 }
        ∧ t.shop.reasons.coldStart = true
        ∧ (∀ c, (circuitOf t c).latch = false) ∧ State.standbyStart t = false
        ∧ t.clock.shopSeconds = 0 ∧ t.sett.block = blockAfterReset s ∧ t.powered = true ∧ t.pending = s.pending

/-- R24, R26, R37, R63, R65, R75, R101, R119, R139, R151, R157, R159: a warm restart and a loss of the main supply keep
the retained domain. What a loss shows while the supply is absent is log 7. -/
def Obligations.WarmRestartKeepsRetainedDomain : Prop :=
  ∀ (l : ResetLines) (s : State),
      (∃ t, exec (.warmRestart l) s = .next t
        ∧ VolatileReset l t
        ∧ t.heat.log = s.heat.log ∧ t.heat.nextNumber = s.heat.nextNumber
        ∧ t.shop.reasons.coldStart = false
        ∧ (∀ c, (circuitOf t c).latch = (circuitOf s c).latch)
        ∧ State.standbyStart t = State.standbyStart s
        ∧ t.clock.shopSeconds = s.clock.shopSeconds ∧ t.sett.block = blockAfterReset s
        ∧ t.powered = true ∧ t.pending = s.pending
        ∧ (∀ f, (t.heat.slots.get f).stamp = (s.heat.slots.get f).stamp
          ∧ (t.heat.slots.get f).stopped = false ∧ (t.heat.slots.get f).reported = none
          ∧ (heatOf s f = none → slotOf t f = slotOf s f)
          ∧ (∀ h ∈ heatOf s f,
              (h.state ≠ .tapping →
                slotOf t f = .heat { h with state := if h.state = .tapReady then .holding else h.state })
              ∧ (h.state = .tapping → ∀ tap ∈ h.openTap,
                slotOf t f = .heat
                  { h with
                    state := .holding, openTap := none, massUncertain := true
                    taps := h.taps ++ [{ tap with interrupted := true, poured := 0 }] }))))
      ∧ (s.powered = true →
        ∃ t, exec .mainSupplyLoss s = .next t
          ∧ t.powered = false ∧ t.pending = s.pending
          ∧ t.heat.log = s.heat.log ∧ t.heat.nextNumber = s.heat.nextNumber
          ∧ (∀ f, slotOf t f = slotOf s f ∧ (t.heat.slots.get f).stamp = (s.heat.slots.get f).stamp)
          ∧ t.clock.shopSeconds = s.clock.shopSeconds
          ∧ (∀ c, (circuitOf t c).latch = (circuitOf s c).latch)
          ∧ State.standbyStart t = State.standbyStart s ∧ t.sett.block = blockAfterReset s
          ∧ ∀ f, State.outputEnable t f = false)

/-- R37, R42, R65, R93, R101, R119, R122, R139, R157: what the end of the settings load makes of the heats, and what it
hands to the blocks. The model's choices in it are the part-written flag that makes a block bad (log 6), a stored code
above 1 of a named value, clamped and counted like a number (log 17), and the notice of furnace B where both tilts are
found FORWARD or INVALID as the load ends (log 12). -/
def Obligations.SettingsLoadEndStartsTheBlocks : Prop :=
  ∀ (acknowledged : Bool) (s : State),
    s.powered = true →
      let good := acknowledged && !s.sett.block.partWritten
        && decide (s.sett.block.check = crc16 (settingsBytes s.sett.block.values))
      let baths : PerFurnace Nat := ⟨bathMassOf s .a, bathMassOf s .b⟩
      let loaded := loadValues s.sett.block.values baths
      let working := raiseCapacities baths (if good then loaded else Config.settingDefaults)
      let filled : State := { s with sett := { s.sett with working := working } }
      let second := s.clock.shopSeconds
      (loading s = false → exec (.settingsLoadEnd acknowledged) s = .next s)
      ∧ (loading s = true → ProtectionLaw s →
        ∃ t, exec (.settingsLoadEnd acknowledged) s = .next t
          ∧ t.sett = { s.sett with memory := .idle, working := working }
          ∧ Noticed (.settings (if good then .loaded else .defaults) none 0 0
              (if good then clampedCount s.sett.block.values loaded else 0)) t
          ∧ t.shop.reasons = { s.shop.reasons with
              settingsDefault := !good
              afterLoss := !s.shop.reasons.coldStart && decide (valueIn working 52 ≠ 1) }
          ∧ t.shop.state = (if s.lines.breakerClosed then (if anyReason t.shop.reasons then .held else .run)
              else .supplyOff)
          ∧ Noticed (.shopState t.shop.state t.shop.reasons .reset) t
          ∧ t.scan.running = true ∧ t.scan.unitCount = 1 ∧ t.scan.sweepTimer = some 0
          ∧ (∀ f, (t.scan.dips.get f).state = if (s.scan.dips.get f).level then .waitRelease else .idle)
          ∧ (∀ ch ∈ allChans, valueIn working (55 + chanNumber ch) ≠ 1 → (chanOf t ch).status = .off)
          ∧ (∀ c, (circuitOf s c).latch = true →
              (circuitOf t c).state = .trip ∧ (circuitOf t c).cause = some .latch)
          ∧ t.prot.loop.state = some
              (if s.prot.loop.standbyLatch = true ∧ s.lines.standbyRun = true then .standby
                else if s.lines.mainPumpRun = true then .main else .changeover)
          ∧ (State.standbyStart t = true ↔ t.prot.loop.state ≠ some .main)
          ∧ Noticed (.pumpChangeover (t.prot.loop.state.getD .main) .reset t.prot.loop.standbyLatch) t
          ∧ (∀ f, heatOf s f = none → t.heat.slots.get f = s.heat.slots.get f)
          ∧ (∀ f, ∀ h ∈ heatOf s f,
              let x := s.heat.slots.get f
              let kept :=
                if 100 ≤ h.bathMass ∧ h.bathMass * cp filled ≤ h.accumulator.natAbs then 0 else h.accumulator
              let fit := broughtTo filled kept h
              let lost := lossKw filled f * (second - x.stamp)
              let caught : Heat :=
                match h.state, fit.estimate with
                | .melting, _ => { fit with remaining := min h.totalMelt (h.remaining + lost) }
                | _, some e =>
                  if h.bathMass < 100 then fit else dividedFrom filled e (fit.accumulator - (lost : Int) * 1000) fit
                | _, none => fit
              SlotEvaluated second { x with slot := .heat caught, stamp := second } (t.heat.slots.get f)
                ∧ t.clock.estDue.get f = false
                ∧ (caught.freeze = true → Noticed (.freeze f h.number) t))
          ∧ EvaluatedNow .a t ∧ EvaluatedNow .b t ∧ AllotmentCurrent t ∧ TiltNoticed s t
          ∧ ((∃ f, isTapReady s f = false ∧ isTapReady t f = true) → Matched t)
          ∧ t.pending = s.pending ∧ t.lines = s.lines
          ∧ t.heat.log = s.heat.log ∧ t.heat.nextNumber = s.heat.nextNumber
          ∧ t.clock = { s.clock with estDue := t.clock.estDue })

/-! ### The stage link -/

/-- R80, R81, R87, R126, R162: a valid REPORT is the last report, brings the link UP, hands on the delivered powers, and
grants the pending permit it confirms. -/
def Obligations.ReportTakenInFull : Prop :=
  ∀ (deliveredA : BitVec 16) (statusA : Byte) (deliveredB : BitVec 16) (statusB : Byte) (s : State),
    s.powered = true → loading s = false → s.stage.link ≠ .fault → babbles s = false →
      deliveredA.toNat ≤ 9999 → deliveredB.toNat ≤ 9999 →
      ∀ ra ∈ statusOf statusA, ∀ rb ∈ statusOf statusB,
      let out : PerFurnace ReportOutput :=
        ⟨{ delivered := deliveredA.toNat, status := ra }, { delivered := deliveredB.toNat, status := rb }⟩
      let u : State :=
        { s with
          stage :=
            { s.stage with
              assembly := [], link := .up, deadline := some 0, babble := babbleAfter s.stage.babble s.clock.ms
              last := some { out := out, takenAt := s.clock.ms } }
          heat :=
            { s.heat with slots :=
              ⟨{ s.heat.slots.a with reported := some deliveredA.toNat },
                { s.heat.slots.b with reported := some deliveredB.toNat }⟩ } }
      ∃ t, exec (.report deliveredA statusA deliveredB statusB) s = .next t
        ∧ (s.stage.link ≠ .up → Noticed (.link .up .report) t)
        ∧ ((∀ p ∈ s.tap.permit, p.state = .pending → tapCap s + 50 < (out.get p.furnace).delivered) →
            Coordinated [.link] u t)
        ∧ (∀ p ∈ s.tap.permit, ∀ h ∈ heatOf s p.furnace, p.state = .pending →
            (out.get p.furnace).delivered ≤ tapCap s + 50 →
            Coordinated [.link, .permitResolved] (grantedState p h u) t
              ∧ Noticed (.permitResolved none p.furnace h.number p.requestId (ladleOf s p.requestId)) t)

/-- R82, R83, R86, R126: babble and a frame of unknown kind put the link into FAULT, the deadline puts it into LOST; both
enable lines are low, and a departure from UP grants a pending permit. -/
def Obligations.LinkLeavesForFaultOrLost : Prop :=
  ∀ (frame : StageFrame) (deliveredA : BitVec 16) (statusA : Byte) (deliveredB : BitVec 16) (statusB : Byte) (s : State),
    s.powered = true → loading s = false →
      let sent := if s.stage.link = .up then noFurnace else s.stage.sent
      let fault : State :=
        { s with stage :=
          { s.stage with assembly := [], link := .fault, deadline := none, babble := [], sent := sent } }
      let lost : State := { s with stage := { s.stage with link := .lost, deadline := none, sent := noFurnace } }
      (s.stage.link ≠ .fault → frame.kind ≠ 0x81 → frame.body.length ≤ 15 →
        ∃ t, exec (.unknownKindFrame frame) s = .next t
          ∧ Noticed (.link .fault .unknownKind) t ∧ LinkLeft fault s t)
      ∧ (s.stage.link ≠ .fault → babbles s = true →
        ∃ t, exec (.report deliveredA statusA deliveredB statusB) s = .next t
          ∧ Noticed (.link .fault .babble) t ∧ LinkLeft fault s t)
      ∧ (s.stage.link = .up → s.stage.deadline.isSome = true →
        ∃ t, exec (.reportDeadlineExpiry) s = .next t
          ∧ Noticed (.link .lost .timeout) t ∧ LinkLeft lost s t)
      ∧ (s.stage.link ≠ .up → exec (.reportDeadlineExpiry) s = .next s)

/-- R75, R80, R83, R162: the bytes of a stage frame are gathered one by one and give the frame, of 0x5A, a LEN of 1..16,
KIND, BODY and the check; bytes that start no frame, another LEN, a frame whose check fails, a REPORT whose LEN is not 7
and a gap count for nothing, as does every frame while the receiver is closed; a REPORT out of range counts for babble
alone. STAGE_CHECK_ERROR_FRAME answers what the receiver comes to by whichever bytes show the error. That the assembly is
empty between commands is log 34. -/
def Obligations.StageFramesDiscarded : Prop :=
  ∀ (b : Byte) (frame : StageFrame) (bytes : List Byte) (deliveredA : BitVec 16) (statusA : Byte) (deliveredB : BitVec 16)
    (statusB : Byte) (s : State),
    s.powered = true →
      let assembling : List Byte → State := fun x => { s with stage := { s.stage with assembly := x } }
      let framed : Byte → List Byte → List Byte := fun kind body =>
        let covered := BitVec.ofNat 8 (body.length + 1) :: kind :: body
        0x5A :: covered ++ checkBytes covered
      let report := be2 deliveredA.toNat ++ [statusA] ++ be2 deliveredB.toNat ++ [statusB]
      let correct := bytes.drop (bytes.length - 2) = checkBytes ((bytes.drop 1).take (bytes.length - 3))
      let checkError := ¬ correct ∨ bytes.getD 2 0 = 0x81 ∧ bytes.getD 1 0 ≠ 7
      (s.stage.assembly = [] → receiveStageByte b s = assembling (if b = 0x5A then [b] else []))
      ∧ (s.stage.assembly = [0x5A] →
          receiveStageByte b s = assembling (if 1 ≤ b.toNat ∧ b.toNat ≤ 16 then [0x5A, b] else []))
      ∧ (stageFrameBegun bytes = true → receiveStageBytes bytes (assembling []) = assembling bytes)
      ∧ (wholeStageFrame bytes = true → checkError → receiveStageBytes bytes (assembling []) = assembling [])
      ∧ exec (.report deliveredA statusA deliveredB statusB) s
          = .next (receiveStageBytes (framed 0x81 report) (assembling []))
      ∧ (frame.kind ≠ 0x81 → frame.body.length ≤ 15 →
          exec (.unknownKindFrame frame) s
            = .next (receiveStageBytes (framed frame.kind frame.body) (assembling [])))
      ∧ ((∀ x ∈ bytes, x ≠ 0x5A) → receiveStageBytes bytes (assembling []) = assembling [])
      ∧ exec (.stageCheckErrorFrame) s = .next (assembling [])
      ∧ exec (.stageByteGap) s = .next (assembling [])
      ∧ (loading s = true ∨ s.stage.link = .fault →
        (frame.kind ≠ 0x81 → frame.body.length ≤ 15 → exec (.unknownKindFrame frame) s = .next (assembling []))
        ∧ exec (.report deliveredA statusA deliveredB statusB) s = .next (assembling []))
      ∧ (loading s = false → s.stage.link ≠ .fault → babbles s = false →
        9999 < deliveredA.toNat ∨ 9999 < deliveredB.toNat ∨ 2 < statusA.toNat ∨ 2 < statusB.toNat →
        exec (.report deliveredA statusA deliveredB statusB) s
          = .next { s with stage :=
              { s.stage with assembly := [], babble := babbleAfter s.stage.babble s.clock.ms } })

/-- R76, R77, R79, R85: what the transmitter begins and what its frames leave. -/
def Obligations.TransmitterSendsItsFrames : Prop :=
  ∀ (gone : Bool) (s : State),
    s.powered = true →
      let st := s.stage
      let carried : Furnace → HeldOutput := fun f =>
        if st.tripHold.get f then { command := 0, mode := .off, phase := none } else st.held.get f
      let inStage : Stage → State := fun x => { s with stage := x }
      (st.transmitter = .idle → st.pendingTrip = noFurnace →
        exec (.refreshTimerExpiry) s
          = .next (inStage
              { st with
                transmitter := .sendingSetpoint
                  { out := ⟨carried .a, carried .b⟩, upSinceBegun := st.link == .up, tripTaken := false }
                pendingSetpoint := false, refresh := 0 }))
      ∧ (st.transmitter = .idle → st.pendingTrip ≠ noFurnace →
        exec (.refreshTimerExpiry) s
          = .next (inStage
              { st with
                transmitter := .sendingTrip st.pendingTrip, pendingTrip := noFurnace, pendingSetpoint := true }))
      ∧ (st.transmitter ≠ .idle →
        exec (.refreshTimerExpiry) s = .next (inStage { st with pendingSetpoint := true }))
      ∧ (match st.transmitter with
        | .sendingSetpoint fr =>
          (∃ t, exec (.setpointCompleted) s = .next t
            ∧ t = inStage (Stage.kick
                { st with
                  transmitter := .idle
                  sent := ⟨fr.upSinceBegun && decide (0 < fr.out.a.command),
                    fr.upSinceBegun && decide (0 < fr.out.b.command)⟩
                  lastSetpointAt := some s.clock.ms
                  wire := setpointBytes fr.out })
            ∧ ∀ f, State.outputEnable t f = (st.link == .up && decide (0 < (st.held.get f).command)
                && !(st.tripHold.get f) && fr.upSinceBegun && decide (0 < (fr.out.get f).command)))
          ∧ (fr.tripTaken = true →
            exec (.abortedSetpointEnd gone) s
              = .next (inStage (Stage.kick { st with transmitter := .idle, wire := abortedBytes fr.out gone })))
          ∧ (fr.tripTaken = false → exec (.abortedSetpointEnd gone) s = .next s)
          ∧ exec (.tripFrameEnd) s = .next s
        | .sendingTrip mask =>
          exec (.tripFrameEnd) s
            = .next (inStage (Stage.kick
                { st with transmitter := .idle, pendingSetpoint := true, wire := tripBytes mask }))
          ∧ exec (.setpointCompleted) s = .next s ∧ exec (.abortedSetpointEnd gone) s = .next s
        | .idle => exec (.tripFrameEnd) s = .next s ∧ exec (.abortedSetpointEnd gone) s = .next s)

/-- R57, R60: the pulse timer's period start and the end of the ON phase. -/
def Obligations.PulseTimerRunsThePhases : Prop :=
  ∀ (f : Furnace) (s : State),
    s.powered = true →
      let r := s.allot.out.get f
      let after : AllotRec → State → Prop := fun x t =>
        t = { s with allot := { s.allot with out := s.allot.out.set f x }, stage := t.stage }
          ∧ StageHanded s.stage t.stage ∧ (PairHandedOver s → PairHandedOver t)
      (r.mode = .pulse →
        (∃ t, exec (.pulsePeriodStart f) s = .next t
          ∧ after
              { r with
                duty := if r.waitingDuty.isSome then r.waitingDuty else r.duty
                waitingDuty := none, phase := some .on, command := minCont s f, period := some 0 } t)
        ∧ (r.phase = some .on →
          ∃ t, exec (.pulseOffPhase f) s = .next t
            ∧ after { r with phase := some .off, command := 0 } t
            ∧ (PowerLaw s → State.outputEnable t f = false)))
      ∧ (r.mode ≠ .pulse → exec (.pulsePeriodStart f) s = .next s ∧ exec (.pulseOffPhase f) s = .next s)

/-! ### The seconds -/

/-- R25 to R33, R122: the five steps of an estimator second; one that moves nothing hands nothing on. -/
def Obligations.EstimatorSecondAccounts : Prop :=
  ∀ (f : Furnace) (s : State),
    s.powered = true → loading s = false →
      let taken : State := { s with clock := { s.clock with estDue := s.clock.estDue.set f false } }
      (heatOf s f = none → exec (.estimatorSecond f) s = .next taken)
      ∧ (∀ h ∈ heatOf s f,
        let x := s.heat.slots.get f
        let d := if s.stage.link = .up ∧ State.outputEnable s f = true then x.reported.getD 0 else 0
        let useful := d * effPct s f / 100
        let net : Int := (useful : Int) - (lossKw s f : Int)
        let left : Int := (h.remaining : Int) - net
        let totals : Heat :=
          { h with delivered := min (h.delivered + d) 4294967295, useful := min (h.useful + useful) 4294967295 }
        let crossed : Heat := { totals with remaining := 0, state := .superheat }
        let after : Heat :=
          match h.state, h.estimate with
          | .melting, _ =>
            if left ≤ 0 then
              if h.bathMass < 100 then
                { crossed with estimate := some (liquidus s), accumulator := -left * 1000, freeze := true }
              else dividedFrom s (liquidus s) (-left * 1000) crossed
            else { totals with remaining := min h.totalMelt left.toNat, estimate := none, accumulator := 0 }
          | _, some e => if h.bathMass < 100 then totals else dividedFrom s e (h.accumulator + net * 1000) totals
          | _, none => totals
        let slot : FurnaceSlot :=
          { x with slot := .heat after, stamp := s.clock.shopSeconds, reported := none }
        let u : State := { taken with heat := { s.heat with slots := s.heat.slots.set f slot } }
        let quiet :=
          after.state = h.state ∧ after.estimate = h.estimate ∧ after.freeze = h.freeze ∧ LiquidCurrent f s
        ∃ t, exec (.estimatorSecond f) s = .next t
          ∧ (quiet → t = u)
          ∧ (¬ quiet → SettledFor [.freeze] f u t)
          ∧ (after.freeze = true → h.freeze = false → Noticed (.freeze f h.number) t))

/-- R11, R122, R136: the readiness evaluation of every second, with matching where a heat's readiness changes, and the
lapse of an entry that no permit is on. That heat A is evaluated before heat B is log 10. -/
def Obligations.SecondsJudgeReadinessAndDeadlines : Prop :=
  ∀ (id : Nat) (s : State),
    s.powered = true →
      (∃ t, exec (.readinessSecond) s = .next t
        ∧ (loading s = true → t = { s with clock := { s.clock with readyDue := false } })
        ∧ (loading s = false →
          let u : State := { s with clock := { s.clock with readyDue := false } }
          Settled [] u t ∧ t.shop = s.shop ∧ ReadinessCurrent .a t ∧ ReadinessCurrent .b t ∧ AllotmentCurrent t
            ∧ TiltNoticed u t ∧ ReadyPosted u t ∧ ClassKept .a u t ∧ ClassKept .b u t ∧ MatchingFollows u t
            ∧ ∀ f, ∀ h ∈ heatOf s f, ∀ h' ∈ heatOf t f, h.state = .superheat ↔ h'.state = .superheat))
      ∧ (entryOf s id = none → exec (.entryLapse id) s = .next s)
      ∧ (∀ e ∈ entryOf s id,
        ((∃ p ∈ s.tap.permit, p.requestId = id) ∨ e.deadline = none → exec (.entryLapse id) s = .next s)
        ∧ ((∀ p ∈ s.tap.permit, p.requestId ≠ id) → e.deadline.isSome = true → loading s = false →
          ∃ t, exec (.entryLapse id) s = .next t
            ∧ Coordinated [.entryExpired]
                { s with tap := { s.tap with queue := s.tap.queue.filter (fun x => x.id != id) } } t
            ∧ Noticed (.entryExpired id e.ladle) t ∧ Matched t))

/-! ### The breaker and the Deck Off lines -/

/-- R66, R73: the shop follows the breaker line, which also releases and re-arms BREAKER_TRIP. -/
def Obligations.ShopFollowsTheBreaker : Prop :=
  ∀ (closed : Bool) (s : State),
    s.powered = true →
      let opened : State :=
        { s with
          lines := { s.lines with breakerClosed := false }
          shop := { s.shop with state := .supplyOff, breakerTrip := false, stuckTimer := none, stuck := false } }
      let held := anyReason s.shop.reasons || loading s
      let standing := decide (s.prot.circuits.cabinet.state = .trip ∨ s.prot.loop.state = some .loopFail)
      let asserts := standing && !s.shop.breakerTrip
      let energised : State :=
        { s with
          lines := { s.lines with breakerClosed := true }
          shop :=
            { s.shop with
              state := if s.shop.state = .supplyOff then (if held then .held else .run) else s.shop.state
              breakerTrip := s.shop.breakerTrip || asserts
              stuckTimer := if asserts then some 0 else s.shop.stuckTimer } }
      (s.lines.breakerClosed = closed → exec (.mainBreakerClosedChange closed) s = .next s)
      ∧ (s.lines.breakerClosed = true → closed = false →
        ∃ t, exec (.mainBreakerClosedChange closed) s = .next t
          ∧ Settled [] opened t
          ∧ (s.shop.state ≠ .supplyOff → Noticed (.shopState .supplyOff s.shop.reasons .breakerOpen) t)
          ∧ (s.shop.state ≠ .supplyOff → loading s = false →
              SettledAll [] opened t ∧ isTapReady t .a = false ∧ isTapReady t .b = false))
      ∧ (s.lines.breakerClosed = false → closed = true →
        ∃ t, exec (.mainBreakerClosedChange closed) s = .next t
          ∧ Settled [] energised t
          ∧ (loading s = false → SettledAll [] energised t)
          ∧ (s.shop.state = .supplyOff → Noticed (.shopState energised.shop.state s.shop.reasons .breakerClosed) t))

/-- R71, R72, R73: a Deck Off press stops its furnace, a hold trips the breaker and both outputs, and a breaker that does
not open is reported. That a hold with BREAKER_TRIP standing hands the trip over again is log 25. -/
def Obligations.DeckOffStopsAndTrips : Prop :=
  ∀ (f : Furnace) (s : State),
    s.powered = true →
      let d := s.shop.decks.get f
      let closed := s.lines.breakerClosed
      let deckIs : DeckOff → State → State := fun x y => { y with shop := { y.shop with decks := y.shop.decks.set f x } }
      let stopped := deckIs { level := true, timer := some 0, held := false }
        (setFurnaceSlot f
          { s.heat.slots.get f with stopped := (s.heat.slots.get f).stopped || closed } s)
      let asserts := closed && !s.shop.breakerTrip
      (d.level = false →
        ∃ t, exec (.deckOffPress f) s = .next t
          ∧ Noticed (.deckOff f false) t
          ∧ (loading s = false → Coordinated [.deckOff] stopped t)
          ∧ (loading s = true → t = { stopped with ports := t.ports } ∧ PortsNoted [.deckOff] s t))
      ∧ (d.level = true → exec (.deckOffPress f) s = .next s)
      ∧ exec (.deckOffRelease f) s = .next (deckIs { d with level := false, timer := none } s)
      ∧ (d.level = true → d.timer.isSome = true → d.held = false →
        ∃ t, exec (.deckOffHold f) s = .next t
          ∧ Noticed (.deckOff f true) t ∧ PortsNoted [.deckOff] s t
          ∧ t = { s with
              shop :=
                { s.shop with
                  decks := s.shop.decks.set f { d with held := true }
                  breakerTrip := s.shop.breakerTrip || asserts
                  stuckTimer := if asserts then some 0 else s.shop.stuckTimer }
              stage := t.stage, ports := t.ports }
          ∧ (closed = false → t.stage = s.stage)
          ∧ (closed = true →
            StageHanded s.stage t.stage
            ∧ (∀ g, t.stage.tripHold.get g
                = (s.stage.tripHold.get g || (s.stage.held.get g).mode != .off))
            ∧ (s.stage.transmitter = .idle → t.stage.transmitter = .sendingTrip ⟨true, true⟩)
            ∧ (s.stage.transmitter ≠ .idle → t.stage.pendingTrip = ⟨true, true⟩)
            ∧ (PowerLaw s → ∀ g, State.outputEnable t g = false)))
      ∧ (d.level = false ∨ d.held = true → exec (.deckOffHold f) s = .next s)
      ∧ (s.shop.stuckTimer.isSome = true → closed = true →
        ∃ t, exec (.breakerStuckExpiry) s = .next t
          ∧ Noticed .breakerStuck t ∧ PortsNoted [.breakerStuck] s t
          ∧ t = { s with shop := { s.shop with stuckTimer := none, stuck := true }, ports := t.ports })
      ∧ (s.shop.stuckTimer = none → exec (.breakerStuckExpiry) s = .next s)

/-! ### The scanner -/

/-- R89, R90, R92, R104, R112: a unit of the sweep, the conversion of a water channel that the unit reaches next, and a
channel going STALE, each handed to its reader: channel 3 to the loop, and a channel going STALE to its circuit (for a
conversion, `ReadingsJudgeTheirCircuit` says the circuit). A conversion that is not due is log 15. -/
def Obligations.ScannerConvertsItsChannels : Prop :=
  ∀ (ch : Chan) (code : BitVec 12) (s : State),
    s.powered = true →
      let count := if s.scan.unitCount < 10 then s.scan.unitCount + 1 else 1
      let k := code.toNat
      let span := chanSpan ch
      let raw : Int := ((k : Int) - 683) * (span : Int) / 2730
      let converted : ChannelRec :=
        if k < 614 ∨ 3515 < k then { chanOf s ch with status := .broken, updatedAt := some s.clock.ms }
        else { status := .valid, value := some (min raw.toNat span), updatedAt := some s.clock.ms }
      let burst := [Chan.coilAOut, .coilBOut, .cabOut, .loopPress].filter (inService s)
      let ordinary := ((rotationAfter s.scan.lastOrdinary).find? (inService s)).toList
      let plan := burst ++ ordinary ++ if count = 10 then [Chan.dipA, .dipB] else []
      (s.scan.running = true →
        exec (.sweepUnit) s
          = .next
              { s with scan := { s.scan with unitCount := count, plan := plan, sweepTimer := some 0 } })
      ∧ (s.scan.running = false → exec (.sweepUnit) s = .next s)
      ∧ (∀ behind, s.scan.running = true → ch.isWater = true → DueNext s ch behind →
        let u : State :=
          { s with scan :=
            { s.scan with
              chans := s.scan.chans.set ch converted
              plan := behind
              lastOrdinary := if ordinaryChans.contains ch then some ch else s.scan.lastOrdinary } }
        ∃ t, exec (.waterConversionEnd ch code) s = .next t ∧ ProtFrame u t ∧ (ch = .loopPress → PressureJudged u t))
      ∧ (s.scan.running = false ∨ ch.isWater = false ∨ (∀ behind, ¬ DueNext s ch behind) →
        exec (.waterConversionEnd ch code) s = .next s)
      ∧ (ch.isWater = true → (chanOf s ch).status = .valid ∨ (chanOf s ch).status = .broken →
        let u : State :=
          { s with scan := { s.scan with chans := s.scan.chans.set ch { chanOf s ch with status := .stale } } }
        ∃ t, exec (.channelStale ch) s = .next t ∧ ProtFrame u t ∧ HandedToReader ch u t)
      ∧ ((chanOf s ch).status = .stale ∨ (chanOf s ch).status = .off → exec (.channelStale ch) s = .next s)

/-- R103 to R110, R116, R117, R122: a conversion handed to its circuit moves the circuit by the conditions as they then
stand; LEAK_WARN follows the warnings, and matching runs where the readiness of a heat changes with it. -/
def Obligations.ReadingsJudgeTheirCircuit : Prop :=
  ∀ (ch : Chan) (code : BitVec 12) (s : State),
    s.powered = true → loading s = false → s.scan.running = true →
      ∀ behind, DueNext s ch behind → ∀ c ∈ chanCircuit ch,
      ∃ t, exec (.waterConversionEnd ch code) s = .next t
        ∧ ProtFrame { s with scan := t.scan } t ∧ CircuitJudged c { s with scan := t.scan } t

/-- R7, R10, R32, R38, R39, R95, R96, R97, R122: a dip sample that the unit reaches next, the plateau test, and the
result's application. A sample that is not due is log 15. -/
def Obligations.DipSampleFindsThePlateau : Prop :=
  ∀ (f : Furnace) (code : BitVec 12) (s : State),
    s.powered = true → loading s = false →
      (s.scan.running = false ∨ (∀ behind, ¬ DueNext s (dipChan f) behind) → exec (.dipSample f code) s = .next s)
      ∧ ∀ behind, s.scan.running = true → DueNext s (dipChan f) behind →
      let k := code.toNat
      let d := s.scan.dips.get f
      let r := chanOf s (dipChan f)
      let scanned : ChannelRec → DipUnit → State := fun x y =>
        { s with scan :=
          { s.scan with
            plan := behind, chans := s.scan.chans.set (dipChan f) x
            dips := s.scan.dips.set f y } }
      let count := if d.samples < 4 then d.openCount + 1 else d.openCount
      let emptied : DipUnit := { d with samples := d.samples + 1, openCount := count, window := [] }
      let broken : ChannelRec := { r with status := .broken, updatedAt := some s.clock.ms }
      let v := k * 1800 / 4095
      let window := (d.window ++ [v]).drop (d.window.length + 1 - 20)
      let grown : DipUnit := { d with samples := d.samples + 1, window := window }
      let good : ChannelRec := { status := .valid, value := some v, updatedAt := some s.clock.ms }
      let found := window.length = 20 ∧ ∀ x ∈ window, ∀ y ∈ window, x ≤ y + 4
      let t := window.sum / 20
      let after := scanned good { grown with state := .waitRelease, timer := none }
      (4072 ≤ k →
        (¬ (d.samples = 3 ∧ count = 4) → exec (.dipSample f code) s = .next (scanned broken emptied))
        ∧ (d.samples = 3 → count = 4 →
          exec (.dipSample f code) s
            = .next (post (.dipFailed f (heatNumber s f) .openTip 4)
                (scanned broken { emptied with state := .waitRelease, timer := none }))))
      ∧ (k < 4072 →
        (¬ found → exec (.dipSample f code) s = .next (scanned good grown))
        ∧ (found → heatOf s f = none →
          exec (.dipSample f code) s = .next (post (.dipFailed f 0 .noHeat (d.samples + 1)) after))
        ∧ (found → ∀ h ∈ heatOf s f,
          let dipped : Heat := { h with lastDip := some { temp := t, second := s.clock.shopSeconds } }
          let estimate := if t < liquidus s then liquidus s else if 1700 < t then 1700 else t
          let target := if s.shop.state = .banked then bankTarget s else h.holdTarget
          let state : HeatState :=
            match h.state with
            | .melting | .superheat => if target ≤ estimate then .holding else .superheat
            | .holding | .tapReady => if estimate + returnBand s < target then .superheat else h.state
            | .tapping => .tapping
          let applied : Heat :=
            if h.state = .melting ∧ t < liquidus s then dipped
            else
              { dipped with
                state := state
                remaining := if h.state = .melting then 0 else h.remaining
                estimate := some estimate, accumulator := 0
                freeze := decide (estimate ≤ liquidus s + freezeMargin s)
                classStamp :=
                  if heatClass h = (if state = .superheat then .melt else .hold) then h.classStamp
                  else s.clock.shopSeconds }
          ∃ u, exec (.dipSample f code) s = .next u
            ∧ SettledFor [.freeze, .dipResult] f (setHeat f applied after) u
            ∧ (∃ n ∈ (u.ports.get (deckPort f)).notices,
                n.detail = .dipResult f h.number t (d.samples + 1) s.clock.shopSeconds)
            ∧ MatchingFollows s u
            ∧ (applied.freeze = true → h.freeze = false → Noticed (.freeze f h.number) u)))

/-- R92, R94, R98, R99, R101: the lance line starts and ends a dip, and the dip timer ends it. A dip that starts leaves
the unit in progress where it is: a place that the unit has passed is gone (log 15). -/
def Obligations.LanceAndTimerEndADip : Prop :=
  ∀ (f : Furnace) (s : State),
    s.powered = true →
      let d := s.scan.dips.get f
      let dipIs : DipUnit → State := fun x => { s with scan := { s.scan with dips := s.scan.dips.set f x } }
      let failed : DipFailure → Nat → State → State := fun reason samples x =>
        post (.dipFailed f (heatNumber s f) reason samples) x
      (d.level = true → exec (.lanceContact f) s = .next s)
      ∧ (d.level = false → loading s = true ∨ d.state ≠ .idle →
        exec (.lanceContact f) s = .next (dipIs { d with level := true }))
      ∧ (d.level = false → loading s = false → d.state = .idle →
        ((chanOf s (dipChan f)).status ≠ .off →
          ∃ t, exec (.lanceContact f) s = .next t
            ∧ t = { s with scan :=
                { s.scan with
                  plan := t.scan.plan
                  dips := s.scan.dips.set f
                    { state := .sampling, level := true, startedAt := s.clock.ms, timer := some 0, samples := 0,
                      openCount := 0, window := [] } } }
            ∧ PlanReached s t.scan.plan
            ∧ ∀ ch behind, DueNext s ch behind → DueNext t ch behind)
        ∧ ((chanOf s (dipChan f)).status = .off →
          exec (.lanceContact f) s
            = .next (failed .outOfService 0 (dipIs { d with level := true, state := .waitRelease }))))
      ∧ (d.state = .sampling →
        exec (.lanceLift f) s
          = .next (failed .lifted d.samples
              (dipIs { d with level := false, state := .idle, timer := none, window := [] }))
        ∧ exec (.dipTimerExpiry f) s
          = .next (failed .noPlateau d.samples (dipIs { d with state := .waitRelease, timer := none, window := [] })))
      ∧ (d.state ≠ .sampling →
        exec (.lanceLift f) s = .next (dipIs { d with level := false, state := .idle })
        ∧ exec (.dipTimerExpiry f) s = .next s)

/-! ### The protection timers and the pumps -/

/-- R106, R107, R108, R110, R122: the watch, derate and recovery timers of a circuit; LEAK_WARN follows the conditions
formed again, and matching runs where the readiness of a heat changes. -/
def Obligations.CircuitTimersMoveTheCircuit : Prop :=
  ∀ (c : Circuit) (s : State),
    s.powered = true →
      let r := circuitOf s c
      (r.state = .watch → r.watch.mode = .running →
        ∃ t, exec (.watchTimerExpiry c) s = .next t ∧ ProtFrame s t ∧ WatchExpired c s t)
      ∧ (¬ (r.state = .watch ∧ r.watch.mode = .running) → exec (.watchTimerExpiry c) s = .next s)
      ∧ (r.state = .derate → r.derate.mode = .running →
        ∃ t, exec (.derateTimerExpiry c) s = .next t ∧ ProtFrame s t ∧ DerateExpired c s t)
      ∧ (¬ (r.state = .derate ∧ r.derate.mode = .running) → exec (.derateTimerExpiry c) s = .next s)
      ∧ (r.state = .derate → r.recovery.mode = .running →
        ∃ t, exec (.recoveryTimerExpiry c) s = .next t ∧ ProtFrame s t ∧ RecoveryExpired c s t)
      ∧ (¬ (r.state = .derate ∧ r.recovery.mode = .running) → exec (.recoveryTimerExpiry c) s = .next s)

/-- R104, R109, R110, R112 to R114, R122: what moves the loop: the pump lines, the pressure timer and the settle timer.
CHANGEOVER holds every timer that ran with its counted time, STANDBY lets it run on and an overdue one expire, and
LOOP_FAIL takes both enable lines down and leaves the leak warnings. Matching runs where the readiness of a heat changes.
The order of the circuits is log 31. -/
def Obligations.LoopFollowsPumpsAndPressure : Prop :=
  ∀ (active : Bool) (s : State),
    s.powered = true →
      let st := s.prot.loop.state
      let mainIs : State := { s with lines := { s.lines with mainPumpRun := active } }
      let standbyIs : State := { s with lines := { s.lines with standbyRun := active } }
      let stops := fun (was : Bool) (state : LoopState) => was = true ∧ active = false ∧ st = some state
      (stops s.lines.mainPumpRun .main →
        ∃ t, exec (.mainPumpRunChange active) s = .next t
          ∧ ProtFrame mainIs t ∧ LoopChangedOver .pumpStop mainIs t)
      ∧ (¬ stops s.lines.mainPumpRun .main → exec (.mainPumpRunChange active) s = .next mainIs)
      ∧ (stops s.lines.standbyRun .standby →
        ∃ t, exec (.standbyRunChange active) s = .next t
          ∧ ProtFrame standbyIs t ∧ LoopFailed .standbyStop standbyIs t)
      ∧ (¬ stops s.lines.standbyRun .standby → exec (.standbyRunChange active) s = .next standbyIs)
      ∧ (s.prot.loop.pressure.isSome = true → st = some .main →
        ∃ t, exec (.pressureTimerExpiry) s = .next t ∧ ProtFrame s t ∧ LoopChangedOver .pressure s t)
      ∧ (s.prot.loop.pressure.isSome = true → st = some .standby →
        ∃ t, exec (.pressureTimerExpiry) s = .next t ∧ ProtFrame s t ∧ LoopFailed .pressure s t)
      ∧ (s.prot.loop.pressure = none ∨ (st ≠ some .main ∧ st ≠ some .standby) →
        exec (.pressureTimerExpiry) s = .next s)
      ∧ (st = some .changeover → s.prot.loop.settle.isSome = true →
        ∃ t, exec (.settleTimerExpiry) s = .next t ∧ ProtFrame s t ∧ SettleJudged s t)
      ∧ (st ≠ some .changeover → exec (.settleTimerExpiry) s = .next s)

/-! ### Invariants and what follows from them -/

/-- The state after reset obeys every law. -/
def Obligations.ResetMeetsEveryLaw : Prop :=
  PowerLaw State.reset ∧ StageLaw State.reset ∧ TapLaw State.reset ∧ MassLaw State.reset
    ∧ ProtectionLaw State.reset ∧ ShopLaw State.reset ∧ NoticeLaw State.reset ∧ TableLaw State.reset
    ∧ SettingsLaw State.reset

/-- R43, R57, R58, R59, R60: every step leaves the allotment current, its pair handed over and an output in PULSE mode
with its period, and an output that the step brings into PULSE mode starts its period from 0 in the ON phase. That one
computation puts the new duty in force is in the frames of the statements that make one (`AllotmentComputed`). That the
limiting factor is BUDGET where a cap above the available budget meets a grant and a pulse ceiling below MIN_CONT is the
model's reading of R56 (log 16). -/
def Obligations.StepKeepsPowerLaw : Prop :=
  ∀ (s t : State), PowerLaw s → step s = .next t →
    PowerLaw t ∧ ∀ f, PulseEntered (s.allot.out.get f) (t.allot.out.get f)

/-- R76, R82: every step keeps the report deadline to UP, and no sent flag without UP. -/
def Obligations.StepKeepsStageLaw : Prop :=
  ∀ (s t : State), StageLaw s → step s = .next t → StageLaw t

/-- R120, R123, R124, R133, R139: every step keeps the tap queue, the permit and the heats in agreement, and no weight
under a pending permit. -/
def Obligations.StepKeepsTapLaw : Prop :=
  ∀ (s t : State), TapLaw s → step s = .next t → TapLaw t

/-- R5: every step keeps the bath mass equal to charges plus restate adjustment minus poured masses. -/
def Obligations.StepKeepsMassLaw : Prop :=
  ∀ (s t : State), MassLaw s → step s = .next t → MassLaw t

/-- R102, R108, R112 to R114, R119: every step keeps a trip latched and caused, LOOP_FAIL tripped, and the timers held
in CHANGEOVER. -/
def Obligations.StepKeepsProtectionLaw : Prop :=
  ∀ (s t : State), ProtectionLaw s → step s = .next t → ProtectionLaw t

/-- R64, R66, R73: every step keeps the table of the shop states and BREAKER_TRIP to a closed breaker. -/
def Obligations.StepKeepsShopLaw : Prop :=
  ∀ (s t : State), ShopLaw s → step s = .next t → ShopLaw t

/-- R140, R145: every step keeps one notice a kind at most in every record, and every assembly empty, as the bytes of
a frame come in within one command (log 3). -/
def Obligations.StepKeepsNoticeLaw : Prop :=
  ∀ (s t : State), NoticeLaw s → step s = .next t → NoticeLaw t

/-- R3, R6, R21: every step keeps heat numbers distinct, the log at 32 summaries and a heat at 12 charges at most. -/
def Obligations.StepKeepsTableLaw : Prop :=
  ∀ (s t : State), TableLaw s → step s = .next t → TableLaw t

/-- R52: the command is 0 under each of the conditions listed, within the derated bound in DERATE, and within TAP_CAP
while the tilt is not HOME. -/
def Obligations.CommandsKeepTheBounds : Prop :=
  ∀ (f : Furnace) (s : State),
    PowerLaw s → TapLaw s → s.powered = true →
      (MustBeOff s f → (s.allot.out.get f).command = 0)
      ∧ (Derated s f → (s.allot.out.get f).command ≤ floor10 (outputMax s f * deratePct s / 100))
      ∧ (tiltOf s f ≠ .home → (s.allot.out.get f).command ≤ tapCap s)
      ∧ ((s.allot.out.get f).mode = .pulse → minCont s f ≤ Claim.pulseCeiling (claimOf s f))

/-- R55: the two commands never exceed the budget, a pulsed output counting MIN_CONT in both phases. -/
def Obligations.CommandsStayWithinBudget : Prop :=
  ∀ (s : State),
    PowerLaw s →
      drawOf s .a + drawOf s .b ≤ floor10 (min (supplyRating s) (activeCeiling s))
      ∧ ∀ f, (s.allot.out.get f).command ≤ drawOf s f

/-- R111, R141: a circuit leaves TRIP only by a TRIP-RESET that names it and is taken, as it arrives or from the buffer,
while its channels in service are VALID and neither condition holds, or by a reset. The commands are the well-formed ones,
so that a frame of an unknown kind carries none of the 32 kind codes (R142). -/
def Obligations.TripLeftOnlyByReset : Prop :=
  ∀ (c : Circuit) (i : Instr) (s : State),
    i.wellFormed = true → (circuitOf s c).state = .trip →
      let named : Port → List Byte → Prop := fun q body =>
        body.length = 1 ∧ circuitNamed (field body 0 1) = some c ∧ permitted .tripReset q body = true
      let clear := loading s = false ∧ allValid s c = true ∧ hardCause s c = none ∧ softCond s c = false
        ∧ s.prot.loop.state ≠ some .loopFail
      ∃ t, exec i s = .next t
        ∧ ((circuitOf t c).state ≠ .trip →
          match i with
          | .coldStart _ | .warmRestart _ | .mainSupplyLoss => True
          | .tripReset q _ body => (s.ports.get q).inHand = none ∧ named q body ∧ clear
          | .answerSent q =>
            (s.ports.get q).inHand.isSome = true
              ∧ (∃ tag body, (s.ports.get q).buffer = some (requestFrame .tripReset tag body) ∧ named q body) ∧ clear
          | _ => False)

/-- R152, R153, R154, R155, R157: every step keeps every setting in its range, the channel's owner and its idle timer
together, and every bath within its CAPACITY; a write keeps the ranges, and a loaded block is brought into them, a stored
code above 1 of a named value too (log 17). -/
def Obligations.SettingsStayInRange : Prop :=
  (∀ (s t : State), SettingsLaw s → step s = .next t → SettingsLaw t)
  ∧ ∀ (w values : List Nat) (baths : PerFurnace Nat) (n value : Nat),
    baths.a ≤ 20000 → baths.b ≤ 20000 →
      (WorkingInRange w → 1 ≤ n → n ≤ 65 → (52 ≤ n → value ≤ 1) → WorkingInRange (writeWorking w baths n value))
      ∧ WorkingInRange (raiseCapacities baths (loadValues values baths))
      ∧ WorkingInRange Config.settingDefaults
end

