-- ==== Sys2Proof/Laws/State.lean ====
section
/-! SUPPORT. One lemma per field per update of State: what each writing operation leaves and what it puts. -/

namespace Sys2Proof.Machine

@[simp] theorem setFurnaceSlot_pending (f : Furnace) (x : FurnaceSlot) (s : State) :
    (setFurnaceSlot f x s).pending = s.pending := rfl
@[simp] theorem setFurnaceSlot_powered (f : Furnace) (x : FurnaceSlot) (s : State) :
    (setFurnaceSlot f x s).powered = s.powered := rfl
@[simp] theorem setFurnaceSlot_clock (f : Furnace) (x : FurnaceSlot) (s : State) :
    (setFurnaceSlot f x s).clock = s.clock := rfl
@[simp] theorem setFurnaceSlot_lines (f : Furnace) (x : FurnaceSlot) (s : State) :
    (setFurnaceSlot f x s).lines = s.lines := rfl
@[simp] theorem setFurnaceSlot_heat (f : Furnace) (x : FurnaceSlot) (s : State) :
    (setFurnaceSlot f x s).heat = { s.heat with slots := s.heat.slots.set f x } := rfl
@[simp] theorem setFurnaceSlot_allot (f : Furnace) (x : FurnaceSlot) (s : State) :
    (setFurnaceSlot f x s).allot = s.allot := rfl
@[simp] theorem setFurnaceSlot_shop (f : Furnace) (x : FurnaceSlot) (s : State) :
    (setFurnaceSlot f x s).shop = s.shop := rfl
@[simp] theorem setFurnaceSlot_stage (f : Furnace) (x : FurnaceSlot) (s : State) :
    (setFurnaceSlot f x s).stage = s.stage := rfl
@[simp] theorem setFurnaceSlot_scan (f : Furnace) (x : FurnaceSlot) (s : State) :
    (setFurnaceSlot f x s).scan = s.scan := rfl
@[simp] theorem setFurnaceSlot_prot (f : Furnace) (x : FurnaceSlot) (s : State) :
    (setFurnaceSlot f x s).prot = s.prot := rfl
@[simp] theorem setFurnaceSlot_tap (f : Furnace) (x : FurnaceSlot) (s : State) :
    (setFurnaceSlot f x s).tap = s.tap := rfl
@[simp] theorem setFurnaceSlot_ports (f : Furnace) (x : FurnaceSlot) (s : State) :
    (setFurnaceSlot f x s).ports = s.ports := rfl
@[simp] theorem setFurnaceSlot_sett (f : Furnace) (x : FurnaceSlot) (s : State) :
    (setFurnaceSlot f x s).sett = s.sett := rfl

@[simp] theorem setSlot_pending (f : Furnace) (x : Slot) (s : State) : (setSlot f x s).pending = s.pending := rfl
@[simp] theorem setSlot_powered (f : Furnace) (x : Slot) (s : State) : (setSlot f x s).powered = s.powered := rfl
@[simp] theorem setSlot_clock (f : Furnace) (x : Slot) (s : State) : (setSlot f x s).clock = s.clock := rfl
@[simp] theorem setSlot_lines (f : Furnace) (x : Slot) (s : State) : (setSlot f x s).lines = s.lines := rfl
@[simp] theorem setSlot_heat (f : Furnace) (x : Slot) (s : State) :
    (setSlot f x s).heat = { s.heat with slots := s.heat.slots.set f { s.heat.slots.get f with slot := x } } := rfl
@[simp] theorem setSlot_allot (f : Furnace) (x : Slot) (s : State) : (setSlot f x s).allot = s.allot := rfl
@[simp] theorem setSlot_shop (f : Furnace) (x : Slot) (s : State) : (setSlot f x s).shop = s.shop := rfl
@[simp] theorem setSlot_stage (f : Furnace) (x : Slot) (s : State) : (setSlot f x s).stage = s.stage := rfl
@[simp] theorem setSlot_scan (f : Furnace) (x : Slot) (s : State) : (setSlot f x s).scan = s.scan := rfl
@[simp] theorem setSlot_prot (f : Furnace) (x : Slot) (s : State) : (setSlot f x s).prot = s.prot := rfl
@[simp] theorem setSlot_tap (f : Furnace) (x : Slot) (s : State) : (setSlot f x s).tap = s.tap := rfl
@[simp] theorem setSlot_ports (f : Furnace) (x : Slot) (s : State) : (setSlot f x s).ports = s.ports := rfl
@[simp] theorem setSlot_sett (f : Furnace) (x : Slot) (s : State) : (setSlot f x s).sett = s.sett := rfl

@[simp] theorem setHeat_pending (f : Furnace) (h : Heat) (s : State) : (setHeat f h s).pending = s.pending := rfl
@[simp] theorem setHeat_powered (f : Furnace) (h : Heat) (s : State) : (setHeat f h s).powered = s.powered := rfl
@[simp] theorem setHeat_clock (f : Furnace) (h : Heat) (s : State) : (setHeat f h s).clock = s.clock := rfl
@[simp] theorem setHeat_lines (f : Furnace) (h : Heat) (s : State) : (setHeat f h s).lines = s.lines := rfl
@[simp] theorem setHeat_heat (f : Furnace) (h : Heat) (s : State) :
    (setHeat f h s).heat = { s.heat with slots := s.heat.slots.set f { s.heat.slots.get f with slot := .heat h } } := rfl
@[simp] theorem setHeat_allot (f : Furnace) (h : Heat) (s : State) : (setHeat f h s).allot = s.allot := rfl
@[simp] theorem setHeat_shop (f : Furnace) (h : Heat) (s : State) : (setHeat f h s).shop = s.shop := rfl
@[simp] theorem setHeat_stage (f : Furnace) (h : Heat) (s : State) : (setHeat f h s).stage = s.stage := rfl
@[simp] theorem setHeat_scan (f : Furnace) (h : Heat) (s : State) : (setHeat f h s).scan = s.scan := rfl
@[simp] theorem setHeat_prot (f : Furnace) (h : Heat) (s : State) : (setHeat f h s).prot = s.prot := rfl
@[simp] theorem setHeat_tap (f : Furnace) (h : Heat) (s : State) : (setHeat f h s).tap = s.tap := rfl
@[simp] theorem setHeat_ports (f : Furnace) (h : Heat) (s : State) : (setHeat f h s).ports = s.ports := rfl
@[simp] theorem setHeat_sett (f : Furnace) (h : Heat) (s : State) : (setHeat f h s).sett = s.sett := rfl

@[simp] theorem setMeltRequest_pending (f : Furnace) (n : Nat) (s : State) :
    (setMeltRequest f n s).pending = s.pending := rfl
@[simp] theorem setMeltRequest_powered (f : Furnace) (n : Nat) (s : State) :
    (setMeltRequest f n s).powered = s.powered := rfl
@[simp] theorem setMeltRequest_clock (f : Furnace) (n : Nat) (s : State) :
    (setMeltRequest f n s).clock = s.clock := rfl
@[simp] theorem setMeltRequest_lines (f : Furnace) (n : Nat) (s : State) :
    (setMeltRequest f n s).lines = s.lines := rfl
@[simp] theorem setMeltRequest_heat (f : Furnace) (n : Nat) (s : State) : (setMeltRequest f n s).heat = s.heat := rfl
@[simp] theorem setMeltRequest_allot (f : Furnace) (n : Nat) (s : State) :
    (setMeltRequest f n s).allot = { s.allot with out := s.allot.out.set f { s.allot.out.get f with meltRequest := n } } := rfl
@[simp] theorem setMeltRequest_shop (f : Furnace) (n : Nat) (s : State) : (setMeltRequest f n s).shop = s.shop := rfl
@[simp] theorem setMeltRequest_stage (f : Furnace) (n : Nat) (s : State) :
    (setMeltRequest f n s).stage = s.stage := rfl
@[simp] theorem setMeltRequest_scan (f : Furnace) (n : Nat) (s : State) : (setMeltRequest f n s).scan = s.scan := rfl
@[simp] theorem setMeltRequest_prot (f : Furnace) (n : Nat) (s : State) : (setMeltRequest f n s).prot = s.prot := rfl
@[simp] theorem setMeltRequest_tap (f : Furnace) (n : Nat) (s : State) : (setMeltRequest f n s).tap = s.tap := rfl
@[simp] theorem setMeltRequest_ports (f : Furnace) (n : Nat) (s : State) :
    (setMeltRequest f n s).ports = s.ports := rfl
@[simp] theorem setMeltRequest_sett (f : Furnace) (n : Nat) (s : State) : (setMeltRequest f n s).sett = s.sett := rfl

@[simp] theorem setCircuitRec_pending (c : Circuit) (r : CircuitRec) (s : State) :
    (setCircuitRec c r s).pending = s.pending := rfl
@[simp] theorem setCircuitRec_powered (c : Circuit) (r : CircuitRec) (s : State) :
    (setCircuitRec c r s).powered = s.powered := rfl
@[simp] theorem setCircuitRec_clock (c : Circuit) (r : CircuitRec) (s : State) :
    (setCircuitRec c r s).clock = s.clock := rfl
@[simp] theorem setCircuitRec_lines (c : Circuit) (r : CircuitRec) (s : State) :
    (setCircuitRec c r s).lines = s.lines := rfl
@[simp] theorem setCircuitRec_heat (c : Circuit) (r : CircuitRec) (s : State) :
    (setCircuitRec c r s).heat = s.heat := rfl
@[simp] theorem setCircuitRec_allot (c : Circuit) (r : CircuitRec) (s : State) :
    (setCircuitRec c r s).allot = s.allot := rfl
@[simp] theorem setCircuitRec_shop (c : Circuit) (r : CircuitRec) (s : State) :
    (setCircuitRec c r s).shop = s.shop := rfl
@[simp] theorem setCircuitRec_stage (c : Circuit) (r : CircuitRec) (s : State) :
    (setCircuitRec c r s).stage = s.stage := rfl
@[simp] theorem setCircuitRec_scan (c : Circuit) (r : CircuitRec) (s : State) :
    (setCircuitRec c r s).scan = s.scan := rfl
@[simp] theorem setCircuitRec_prot (c : Circuit) (r : CircuitRec) (s : State) :
    (setCircuitRec c r s).prot = { s.prot with circuits := s.prot.circuits.set c r } := rfl
@[simp] theorem setCircuitRec_tap (c : Circuit) (r : CircuitRec) (s : State) :
    (setCircuitRec c r s).tap = s.tap := rfl
@[simp] theorem setCircuitRec_ports (c : Circuit) (r : CircuitRec) (s : State) :
    (setCircuitRec c r s).ports = s.ports := rfl
@[simp] theorem setCircuitRec_sett (c : Circuit) (r : CircuitRec) (s : State) :
    (setCircuitRec c r s).sett = s.sett := rfl

@[simp] theorem setChannel_pending (c : Chan) (r : ChannelRec) (s : State) :
    (setChannel c r s).pending = s.pending := rfl
@[simp] theorem setChannel_powered (c : Chan) (r : ChannelRec) (s : State) :
    (setChannel c r s).powered = s.powered := rfl
@[simp] theorem setChannel_clock (c : Chan) (r : ChannelRec) (s : State) : (setChannel c r s).clock = s.clock := rfl
@[simp] theorem setChannel_lines (c : Chan) (r : ChannelRec) (s : State) : (setChannel c r s).lines = s.lines := rfl
@[simp] theorem setChannel_heat (c : Chan) (r : ChannelRec) (s : State) : (setChannel c r s).heat = s.heat := rfl
@[simp] theorem setChannel_allot (c : Chan) (r : ChannelRec) (s : State) : (setChannel c r s).allot = s.allot := rfl
@[simp] theorem setChannel_shop (c : Chan) (r : ChannelRec) (s : State) : (setChannel c r s).shop = s.shop := rfl
@[simp] theorem setChannel_stage (c : Chan) (r : ChannelRec) (s : State) : (setChannel c r s).stage = s.stage := rfl
@[simp] theorem setChannel_scan (c : Chan) (r : ChannelRec) (s : State) :
    (setChannel c r s).scan = { s.scan with chans := s.scan.chans.set c r } := rfl
@[simp] theorem setChannel_prot (c : Chan) (r : ChannelRec) (s : State) : (setChannel c r s).prot = s.prot := rfl
@[simp] theorem setChannel_tap (c : Chan) (r : ChannelRec) (s : State) : (setChannel c r s).tap = s.tap := rfl
@[simp] theorem setChannel_ports (c : Chan) (r : ChannelRec) (s : State) : (setChannel c r s).ports = s.ports := rfl
@[simp] theorem setChannel_sett (c : Chan) (r : ChannelRec) (s : State) : (setChannel c r s).sett = s.sett := rfl

@[simp] theorem setDip_pending (f : Furnace) (d : DipUnit) (s : State) : (setDip f d s).pending = s.pending := rfl
@[simp] theorem setDip_powered (f : Furnace) (d : DipUnit) (s : State) : (setDip f d s).powered = s.powered := rfl
@[simp] theorem setDip_clock (f : Furnace) (d : DipUnit) (s : State) : (setDip f d s).clock = s.clock := rfl
@[simp] theorem setDip_lines (f : Furnace) (d : DipUnit) (s : State) : (setDip f d s).lines = s.lines := rfl
@[simp] theorem setDip_heat (f : Furnace) (d : DipUnit) (s : State) : (setDip f d s).heat = s.heat := rfl
@[simp] theorem setDip_allot (f : Furnace) (d : DipUnit) (s : State) : (setDip f d s).allot = s.allot := rfl
@[simp] theorem setDip_shop (f : Furnace) (d : DipUnit) (s : State) : (setDip f d s).shop = s.shop := rfl
@[simp] theorem setDip_stage (f : Furnace) (d : DipUnit) (s : State) : (setDip f d s).stage = s.stage := rfl
@[simp] theorem setDip_scan (f : Furnace) (d : DipUnit) (s : State) :
    (setDip f d s).scan = { s.scan with dips := s.scan.dips.set f d } := rfl
@[simp] theorem setDip_prot (f : Furnace) (d : DipUnit) (s : State) : (setDip f d s).prot = s.prot := rfl
@[simp] theorem setDip_tap (f : Furnace) (d : DipUnit) (s : State) : (setDip f d s).tap = s.tap := rfl
@[simp] theorem setDip_ports (f : Furnace) (d : DipUnit) (s : State) : (setDip f d s).ports = s.ports := rfl
@[simp] theorem setDip_sett (f : Furnace) (d : DipUnit) (s : State) : (setDip f d s).sett = s.sett := rfl

@[simp] theorem setPort_pending (q : Port) (r : PortRec) (s : State) : (setPort q r s).pending = s.pending := rfl
@[simp] theorem setPort_powered (q : Port) (r : PortRec) (s : State) : (setPort q r s).powered = s.powered := rfl
@[simp] theorem setPort_clock (q : Port) (r : PortRec) (s : State) : (setPort q r s).clock = s.clock := rfl
@[simp] theorem setPort_lines (q : Port) (r : PortRec) (s : State) : (setPort q r s).lines = s.lines := rfl
@[simp] theorem setPort_heat (q : Port) (r : PortRec) (s : State) : (setPort q r s).heat = s.heat := rfl
@[simp] theorem setPort_allot (q : Port) (r : PortRec) (s : State) : (setPort q r s).allot = s.allot := rfl
@[simp] theorem setPort_shop (q : Port) (r : PortRec) (s : State) : (setPort q r s).shop = s.shop := rfl
@[simp] theorem setPort_stage (q : Port) (r : PortRec) (s : State) : (setPort q r s).stage = s.stage := rfl
@[simp] theorem setPort_scan (q : Port) (r : PortRec) (s : State) : (setPort q r s).scan = s.scan := rfl
@[simp] theorem setPort_prot (q : Port) (r : PortRec) (s : State) : (setPort q r s).prot = s.prot := rfl
@[simp] theorem setPort_tap (q : Port) (r : PortRec) (s : State) : (setPort q r s).tap = s.tap := rfl
@[simp] theorem setPort_ports (q : Port) (r : PortRec) (s : State) : (setPort q r s).ports = s.ports.set q r := rfl
@[simp] theorem setPort_sett (q : Port) (r : PortRec) (s : State) : (setPort q r s).sett = s.sett := rfl

@[simp] theorem setQueue_pending (q : List Entry) (s : State) : (setQueue q s).pending = s.pending := rfl
@[simp] theorem setQueue_powered (q : List Entry) (s : State) : (setQueue q s).powered = s.powered := rfl
@[simp] theorem setQueue_clock (q : List Entry) (s : State) : (setQueue q s).clock = s.clock := rfl
@[simp] theorem setQueue_lines (q : List Entry) (s : State) : (setQueue q s).lines = s.lines := rfl
@[simp] theorem setQueue_heat (q : List Entry) (s : State) : (setQueue q s).heat = s.heat := rfl
@[simp] theorem setQueue_allot (q : List Entry) (s : State) : (setQueue q s).allot = s.allot := rfl
@[simp] theorem setQueue_shop (q : List Entry) (s : State) : (setQueue q s).shop = s.shop := rfl
@[simp] theorem setQueue_stage (q : List Entry) (s : State) : (setQueue q s).stage = s.stage := rfl
@[simp] theorem setQueue_scan (q : List Entry) (s : State) : (setQueue q s).scan = s.scan := rfl
@[simp] theorem setQueue_prot (q : List Entry) (s : State) : (setQueue q s).prot = s.prot := rfl
@[simp] theorem setQueue_tap (q : List Entry) (s : State) : (setQueue q s).tap = { s.tap with queue := q } := rfl
@[simp] theorem setQueue_ports (q : List Entry) (s : State) : (setQueue q s).ports = s.ports := rfl
@[simp] theorem setQueue_sett (q : List Entry) (s : State) : (setQueue q s).sett = s.sett := rfl

@[simp] theorem setPermit_pending (p : Option Permit) (s : State) : (setPermit p s).pending = s.pending := rfl
@[simp] theorem setPermit_powered (p : Option Permit) (s : State) : (setPermit p s).powered = s.powered := rfl
@[simp] theorem setPermit_clock (p : Option Permit) (s : State) : (setPermit p s).clock = s.clock := rfl
@[simp] theorem setPermit_lines (p : Option Permit) (s : State) : (setPermit p s).lines = s.lines := rfl
@[simp] theorem setPermit_heat (p : Option Permit) (s : State) : (setPermit p s).heat = s.heat := rfl
@[simp] theorem setPermit_allot (p : Option Permit) (s : State) : (setPermit p s).allot = s.allot := rfl
@[simp] theorem setPermit_shop (p : Option Permit) (s : State) : (setPermit p s).shop = s.shop := rfl
@[simp] theorem setPermit_stage (p : Option Permit) (s : State) : (setPermit p s).stage = s.stage := rfl
@[simp] theorem setPermit_scan (p : Option Permit) (s : State) : (setPermit p s).scan = s.scan := rfl
@[simp] theorem setPermit_prot (p : Option Permit) (s : State) : (setPermit p s).prot = s.prot := rfl
@[simp] theorem setPermit_tap (p : Option Permit) (s : State) :
    (setPermit p s).tap = { s.tap with permit := p } := rfl
@[simp] theorem setPermit_ports (p : Option Permit) (s : State) : (setPermit p s).ports = s.ports := rfl
@[simp] theorem setPermit_sett (p : Option Permit) (s : State) : (setPermit p s).sett = s.sett := rfl

@[simp] theorem askMatching_pending (s : State) : (askMatching s).pending = s.pending := rfl
@[simp] theorem askMatching_powered (s : State) : (askMatching s).powered = s.powered := rfl
@[simp] theorem askMatching_clock (s : State) : (askMatching s).clock = s.clock := rfl
@[simp] theorem askMatching_lines (s : State) : (askMatching s).lines = s.lines := rfl
@[simp] theorem askMatching_heat (s : State) : (askMatching s).heat = s.heat := rfl
@[simp] theorem askMatching_allot (s : State) : (askMatching s).allot = s.allot := rfl
@[simp] theorem askMatching_shop (s : State) : (askMatching s).shop = s.shop := rfl
@[simp] theorem askMatching_stage (s : State) : (askMatching s).stage = s.stage := rfl
@[simp] theorem askMatching_scan (s : State) : (askMatching s).scan = s.scan := rfl
@[simp] theorem askMatching_prot (s : State) : (askMatching s).prot = s.prot := rfl
@[simp] theorem askMatching_tap (s : State) : (askMatching s).tap = { s.tap with matchDue := true } := rfl
@[simp] theorem askMatching_ports (s : State) : (askMatching s).ports = s.ports := rfl
@[simp] theorem askMatching_sett (s : State) : (askMatching s).sett = s.sett := rfl

@[simp] theorem setKept_pending (f : Furnace) (r : Option Reason) (s : State) :
    (setKept f r s).pending = s.pending := rfl
@[simp] theorem setKept_powered (f : Furnace) (r : Option Reason) (s : State) :
    (setKept f r s).powered = s.powered := rfl
@[simp] theorem setKept_clock (f : Furnace) (r : Option Reason) (s : State) : (setKept f r s).clock = s.clock := rfl
@[simp] theorem setKept_lines (f : Furnace) (r : Option Reason) (s : State) : (setKept f r s).lines = s.lines := rfl
@[simp] theorem setKept_heat (f : Furnace) (r : Option Reason) (s : State) : (setKept f r s).heat = s.heat := rfl
@[simp] theorem setKept_allot (f : Furnace) (r : Option Reason) (s : State) : (setKept f r s).allot = s.allot := rfl
@[simp] theorem setKept_shop (f : Furnace) (r : Option Reason) (s : State) : (setKept f r s).shop = s.shop := rfl
@[simp] theorem setKept_stage (f : Furnace) (r : Option Reason) (s : State) : (setKept f r s).stage = s.stage := rfl
@[simp] theorem setKept_scan (f : Furnace) (r : Option Reason) (s : State) : (setKept f r s).scan = s.scan := rfl
@[simp] theorem setKept_prot (f : Furnace) (r : Option Reason) (s : State) : (setKept f r s).prot = s.prot := rfl
@[simp] theorem setKept_tap (f : Furnace) (r : Option Reason) (s : State) :
    (setKept f r s).tap = { s.tap with kept := s.tap.kept.set f r } := rfl
@[simp] theorem setKept_ports (f : Furnace) (r : Option Reason) (s : State) : (setKept f r s).ports = s.ports := rfl
@[simp] theorem setKept_sett (f : Furnace) (r : Option Reason) (s : State) : (setKept f r s).sett = s.sett := rfl

@[simp] theorem setWorking_pending (w : List Nat) (s : State) : (setWorking w s).pending = s.pending := rfl
@[simp] theorem setWorking_powered (w : List Nat) (s : State) : (setWorking w s).powered = s.powered := rfl
@[simp] theorem setWorking_clock (w : List Nat) (s : State) : (setWorking w s).clock = s.clock := rfl
@[simp] theorem setWorking_lines (w : List Nat) (s : State) : (setWorking w s).lines = s.lines := rfl
@[simp] theorem setWorking_heat (w : List Nat) (s : State) : (setWorking w s).heat = s.heat := rfl
@[simp] theorem setWorking_allot (w : List Nat) (s : State) : (setWorking w s).allot = s.allot := rfl
@[simp] theorem setWorking_shop (w : List Nat) (s : State) : (setWorking w s).shop = s.shop := rfl
@[simp] theorem setWorking_stage (w : List Nat) (s : State) : (setWorking w s).stage = s.stage := rfl
@[simp] theorem setWorking_scan (w : List Nat) (s : State) : (setWorking w s).scan = s.scan := rfl
@[simp] theorem setWorking_prot (w : List Nat) (s : State) : (setWorking w s).prot = s.prot := rfl
@[simp] theorem setWorking_tap (w : List Nat) (s : State) : (setWorking w s).tap = s.tap := rfl
@[simp] theorem setWorking_ports (w : List Nat) (s : State) : (setWorking w s).ports = s.ports := rfl
@[simp] theorem setWorking_sett (w : List Nat) (s : State) :
    (setWorking w s).sett = { s.sett with working := w } := rfl

@[simp] theorem setStopped_pending (f : Furnace) (b : Bool) (s : State) :
    (setStopped f b s).pending = s.pending := rfl
@[simp] theorem setStopped_powered (f : Furnace) (b : Bool) (s : State) :
    (setStopped f b s).powered = s.powered := rfl
@[simp] theorem setStopped_clock (f : Furnace) (b : Bool) (s : State) : (setStopped f b s).clock = s.clock := rfl
@[simp] theorem setStopped_lines (f : Furnace) (b : Bool) (s : State) : (setStopped f b s).lines = s.lines := rfl
@[simp] theorem setStopped_heat (f : Furnace) (b : Bool) (s : State) :
    (setStopped f b s).heat = { s.heat with slots := s.heat.slots.set f { s.heat.slots.get f with stopped := b } } := rfl
@[simp] theorem setStopped_allot (f : Furnace) (b : Bool) (s : State) : (setStopped f b s).allot = s.allot := rfl
@[simp] theorem setStopped_shop (f : Furnace) (b : Bool) (s : State) : (setStopped f b s).shop = s.shop := rfl
@[simp] theorem setStopped_stage (f : Furnace) (b : Bool) (s : State) : (setStopped f b s).stage = s.stage := rfl
@[simp] theorem setStopped_scan (f : Furnace) (b : Bool) (s : State) : (setStopped f b s).scan = s.scan := rfl
@[simp] theorem setStopped_prot (f : Furnace) (b : Bool) (s : State) : (setStopped f b s).prot = s.prot := rfl
@[simp] theorem setStopped_tap (f : Furnace) (b : Bool) (s : State) : (setStopped f b s).tap = s.tap := rfl
@[simp] theorem setStopped_ports (f : Furnace) (b : Bool) (s : State) : (setStopped f b s).ports = s.ports := rfl
@[simp] theorem setStopped_sett (f : Furnace) (b : Bool) (s : State) : (setStopped f b s).sett = s.sett := rfl

@[simp] theorem setDeckOff_pending (f : Furnace) (d : DeckOff) (s : State) :
    (setDeckOff f d s).pending = s.pending := rfl
@[simp] theorem setDeckOff_powered (f : Furnace) (d : DeckOff) (s : State) :
    (setDeckOff f d s).powered = s.powered := rfl
@[simp] theorem setDeckOff_clock (f : Furnace) (d : DeckOff) (s : State) : (setDeckOff f d s).clock = s.clock := rfl
@[simp] theorem setDeckOff_lines (f : Furnace) (d : DeckOff) (s : State) : (setDeckOff f d s).lines = s.lines := rfl
@[simp] theorem setDeckOff_heat (f : Furnace) (d : DeckOff) (s : State) : (setDeckOff f d s).heat = s.heat := rfl
@[simp] theorem setDeckOff_allot (f : Furnace) (d : DeckOff) (s : State) : (setDeckOff f d s).allot = s.allot := rfl
@[simp] theorem setDeckOff_shop (f : Furnace) (d : DeckOff) (s : State) :
    (setDeckOff f d s).shop = { s.shop with decks := s.shop.decks.set f d } := rfl
@[simp] theorem setDeckOff_stage (f : Furnace) (d : DeckOff) (s : State) : (setDeckOff f d s).stage = s.stage := rfl
@[simp] theorem setDeckOff_scan (f : Furnace) (d : DeckOff) (s : State) : (setDeckOff f d s).scan = s.scan := rfl
@[simp] theorem setDeckOff_prot (f : Furnace) (d : DeckOff) (s : State) : (setDeckOff f d s).prot = s.prot := rfl
@[simp] theorem setDeckOff_tap (f : Furnace) (d : DeckOff) (s : State) : (setDeckOff f d s).tap = s.tap := rfl
@[simp] theorem setDeckOff_ports (f : Furnace) (d : DeckOff) (s : State) : (setDeckOff f d s).ports = s.ports := rfl
@[simp] theorem setDeckOff_sett (f : Furnace) (d : DeckOff) (s : State) : (setDeckOff f d s).sett = s.sett := rfl

@[simp] theorem kick_pending (s : State) : (kick s).pending = s.pending := rfl
@[simp] theorem kick_powered (s : State) : (kick s).powered = s.powered := rfl
@[simp] theorem kick_clock (s : State) : (kick s).clock = s.clock := rfl
@[simp] theorem kick_lines (s : State) : (kick s).lines = s.lines := rfl
@[simp] theorem kick_heat (s : State) : (kick s).heat = s.heat := rfl
@[simp] theorem kick_allot (s : State) : (kick s).allot = s.allot := rfl
@[simp] theorem kick_shop (s : State) : (kick s).shop = s.shop := rfl
@[simp] theorem kick_stage (s : State) : (kick s).stage = s.stage.kick := rfl
@[simp] theorem kick_scan (s : State) : (kick s).scan = s.scan := rfl
@[simp] theorem kick_prot (s : State) : (kick s).prot = s.prot := rfl
@[simp] theorem kick_tap (s : State) : (kick s).tap = s.tap := rfl
@[simp] theorem kick_ports (s : State) : (kick s).ports = s.ports := rfl
@[simp] theorem kick_sett (s : State) : (kick s).sett = s.sett := rfl

@[simp] theorem post_pending (d : Detail) (s : State) : (post d s).pending = s.pending := rfl
@[simp] theorem post_powered (d : Detail) (s : State) : (post d s).powered = s.powered := rfl
@[simp] theorem post_clock (d : Detail) (s : State) : (post d s).clock = s.clock := rfl
@[simp] theorem post_lines (d : Detail) (s : State) : (post d s).lines = s.lines := rfl
@[simp] theorem post_heat (d : Detail) (s : State) : (post d s).heat = s.heat := rfl
@[simp] theorem post_allot (d : Detail) (s : State) : (post d s).allot = s.allot := rfl
@[simp] theorem post_shop (d : Detail) (s : State) : (post d s).shop = s.shop := rfl
@[simp] theorem post_stage (d : Detail) (s : State) : (post d s).stage = s.stage := rfl
@[simp] theorem post_scan (d : Detail) (s : State) : (post d s).scan = s.scan := rfl
@[simp] theorem post_prot (d : Detail) (s : State) : (post d s).prot = s.prot := rfl
@[simp] theorem post_tap (d : Detail) (s : State) : (post d s).tap = s.tap := rfl
@[simp] theorem post_ports (d : Detail) (s : State) :
    (post d s).ports = s.ports.mapPort (fun q r => if d.addressedTo q then r.post d else r) := rfl
@[simp] theorem post_sett (d : Detail) (s : State) : (post d s).sett = s.sett := rfl

@[simp] theorem postTo_pending (q : Port) (d : Detail) (s : State) : (postTo q d s).pending = s.pending := rfl
@[simp] theorem postTo_powered (q : Port) (d : Detail) (s : State) : (postTo q d s).powered = s.powered := rfl
@[simp] theorem postTo_clock (q : Port) (d : Detail) (s : State) : (postTo q d s).clock = s.clock := rfl
@[simp] theorem postTo_lines (q : Port) (d : Detail) (s : State) : (postTo q d s).lines = s.lines := rfl
@[simp] theorem postTo_heat (q : Port) (d : Detail) (s : State) : (postTo q d s).heat = s.heat := rfl
@[simp] theorem postTo_allot (q : Port) (d : Detail) (s : State) : (postTo q d s).allot = s.allot := rfl
@[simp] theorem postTo_shop (q : Port) (d : Detail) (s : State) : (postTo q d s).shop = s.shop := rfl
@[simp] theorem postTo_stage (q : Port) (d : Detail) (s : State) : (postTo q d s).stage = s.stage := rfl
@[simp] theorem postTo_scan (q : Port) (d : Detail) (s : State) : (postTo q d s).scan = s.scan := rfl
@[simp] theorem postTo_prot (q : Port) (d : Detail) (s : State) : (postTo q d s).prot = s.prot := rfl
@[simp] theorem postTo_tap (q : Port) (d : Detail) (s : State) : (postTo q d s).tap = s.tap := rfl
@[simp] theorem postTo_ports (q : Port) (d : Detail) (s : State) :
    (postTo q d s).ports = s.ports.set q ((s.ports.get q).post d) := rfl
@[simp] theorem postTo_sett (q : Port) (d : Detail) (s : State) : (postTo q d s).sett = s.sett := rfl

@[simp] theorem takeTrip_pending (mask : PerFurnace Bool) (s : State) : (takeTrip mask s).pending = s.pending := rfl
@[simp] theorem takeTrip_powered (mask : PerFurnace Bool) (s : State) : (takeTrip mask s).powered = s.powered := rfl
@[simp] theorem takeTrip_clock (mask : PerFurnace Bool) (s : State) : (takeTrip mask s).clock = s.clock := rfl
@[simp] theorem takeTrip_lines (mask : PerFurnace Bool) (s : State) : (takeTrip mask s).lines = s.lines := rfl
@[simp] theorem takeTrip_heat (mask : PerFurnace Bool) (s : State) : (takeTrip mask s).heat = s.heat := rfl
@[simp] theorem takeTrip_allot (mask : PerFurnace Bool) (s : State) : (takeTrip mask s).allot = s.allot := rfl
@[simp] theorem takeTrip_shop (mask : PerFurnace Bool) (s : State) : (takeTrip mask s).shop = s.shop := rfl
@[simp] theorem takeTrip_stage (mask : PerFurnace Bool) (s : State) :
    (takeTrip mask s).stage = (s.stage.takeTrip mask).kick := rfl
@[simp] theorem takeTrip_scan (mask : PerFurnace Bool) (s : State) : (takeTrip mask s).scan = s.scan := rfl
@[simp] theorem takeTrip_prot (mask : PerFurnace Bool) (s : State) : (takeTrip mask s).prot = s.prot := rfl
@[simp] theorem takeTrip_tap (mask : PerFurnace Bool) (s : State) : (takeTrip mask s).tap = s.tap := rfl
@[simp] theorem takeTrip_ports (mask : PerFurnace Bool) (s : State) : (takeTrip mask s).ports = s.ports := rfl
@[simp] theorem takeTrip_sett (mask : PerFurnace Bool) (s : State) : (takeTrip mask s).sett = s.sett := rfl

@[simp] theorem handOver_pending (pair : PerFurnace HeldOutput) (s : State) :
    (handOver pair s).pending = s.pending := rfl
@[simp] theorem handOver_powered (pair : PerFurnace HeldOutput) (s : State) :
    (handOver pair s).powered = s.powered := rfl
@[simp] theorem handOver_clock (pair : PerFurnace HeldOutput) (s : State) : (handOver pair s).clock = s.clock := rfl
@[simp] theorem handOver_lines (pair : PerFurnace HeldOutput) (s : State) : (handOver pair s).lines = s.lines := rfl
@[simp] theorem handOver_heat (pair : PerFurnace HeldOutput) (s : State) : (handOver pair s).heat = s.heat := rfl
@[simp] theorem handOver_allot (pair : PerFurnace HeldOutput) (s : State) : (handOver pair s).allot = s.allot := rfl
@[simp] theorem handOver_shop (pair : PerFurnace HeldOutput) (s : State) : (handOver pair s).shop = s.shop := rfl
@[simp] theorem handOver_stage (pair : PerFurnace HeldOutput) (s : State) :
    (handOver pair s).stage = (s.stage.takePair pair).kick := rfl
@[simp] theorem handOver_scan (pair : PerFurnace HeldOutput) (s : State) : (handOver pair s).scan = s.scan := rfl
@[simp] theorem handOver_prot (pair : PerFurnace HeldOutput) (s : State) : (handOver pair s).prot = s.prot := rfl
@[simp] theorem handOver_tap (pair : PerFurnace HeldOutput) (s : State) : (handOver pair s).tap = s.tap := rfl
@[simp] theorem handOver_ports (pair : PerFurnace HeldOutput) (s : State) : (handOver pair s).ports = s.ports := rfl
@[simp] theorem handOver_sett (pair : PerFurnace HeldOutput) (s : State) : (handOver pair s).sett = s.sett := rfl

@[simp] theorem withQueue_pending (q : List Instr) (s : State) : (State.withQueue q s).pending = q := rfl
@[simp] theorem withQueue_powered (q : List Instr) (s : State) : (State.withQueue q s).powered = s.powered := rfl
@[simp] theorem withQueue_clock (q : List Instr) (s : State) : (State.withQueue q s).clock = s.clock := rfl
@[simp] theorem withQueue_lines (q : List Instr) (s : State) : (State.withQueue q s).lines = s.lines := rfl
@[simp] theorem withQueue_heat (q : List Instr) (s : State) : (State.withQueue q s).heat = s.heat := rfl
@[simp] theorem withQueue_allot (q : List Instr) (s : State) : (State.withQueue q s).allot = s.allot := rfl
@[simp] theorem withQueue_shop (q : List Instr) (s : State) : (State.withQueue q s).shop = s.shop := rfl
@[simp] theorem withQueue_stage (q : List Instr) (s : State) : (State.withQueue q s).stage = s.stage := rfl
@[simp] theorem withQueue_scan (q : List Instr) (s : State) : (State.withQueue q s).scan = s.scan := rfl
@[simp] theorem withQueue_prot (q : List Instr) (s : State) : (State.withQueue q s).prot = s.prot := rfl
@[simp] theorem withQueue_tap (q : List Instr) (s : State) : (State.withQueue q s).tap = s.tap := rfl
@[simp] theorem withQueue_ports (q : List Instr) (s : State) : (State.withQueue q s).ports = s.ports := rfl
@[simp] theorem withQueue_sett (q : List Instr) (s : State) : (State.withQueue q s).sett = s.sett := rfl

@[simp] theorem memoryIdle_pending (s : State) : (memoryIdle s).pending = s.pending := rfl
@[simp] theorem memoryIdle_powered (s : State) : (memoryIdle s).powered = s.powered := rfl
@[simp] theorem memoryIdle_clock (s : State) : (memoryIdle s).clock = s.clock := rfl
@[simp] theorem memoryIdle_lines (s : State) : (memoryIdle s).lines = s.lines := rfl
@[simp] theorem memoryIdle_heat (s : State) : (memoryIdle s).heat = s.heat := rfl
@[simp] theorem memoryIdle_allot (s : State) : (memoryIdle s).allot = s.allot := rfl
@[simp] theorem memoryIdle_shop (s : State) : (memoryIdle s).shop = s.shop := rfl
@[simp] theorem memoryIdle_stage (s : State) : (memoryIdle s).stage = s.stage := rfl
@[simp] theorem memoryIdle_scan (s : State) : (memoryIdle s).scan = s.scan := rfl
@[simp] theorem memoryIdle_prot (s : State) : (memoryIdle s).prot = s.prot := rfl
@[simp] theorem memoryIdle_tap (s : State) : (memoryIdle s).tap = s.tap := rfl
@[simp] theorem memoryIdle_ports (s : State) : (memoryIdle s).ports = s.ports := rfl
@[simp] theorem memoryIdle_sett (s : State) : (memoryIdle s).sett = { s.sett with memory := .idle } := rfl

@[simp] theorem freeChannel_pending (s : State) : (freeChannel s).pending = s.pending := rfl
@[simp] theorem freeChannel_powered (s : State) : (freeChannel s).powered = s.powered := rfl
@[simp] theorem freeChannel_clock (s : State) : (freeChannel s).clock = s.clock := rfl
@[simp] theorem freeChannel_lines (s : State) : (freeChannel s).lines = s.lines := rfl
@[simp] theorem freeChannel_heat (s : State) : (freeChannel s).heat = s.heat := rfl
@[simp] theorem freeChannel_allot (s : State) : (freeChannel s).allot = s.allot := rfl
@[simp] theorem freeChannel_shop (s : State) : (freeChannel s).shop = s.shop := rfl
@[simp] theorem freeChannel_stage (s : State) : (freeChannel s).stage = s.stage := rfl
@[simp] theorem freeChannel_scan (s : State) : (freeChannel s).scan = s.scan := rfl
@[simp] theorem freeChannel_prot (s : State) : (freeChannel s).prot = s.prot := rfl
@[simp] theorem freeChannel_tap (s : State) : (freeChannel s).tap = s.tap := rfl
@[simp] theorem freeChannel_ports (s : State) : (freeChannel s).ports = s.ports := rfl
@[simp] theorem freeChannel_sett (s : State) :
    (freeChannel s).sett = { s.sett with owner := none, idle := none } := rfl

/-! ### The budget record and the unit in progress -/

@[simp] theorem setBudget_pending (s : State) : (setBudget s).pending = s.pending := rfl
@[simp] theorem setBudget_powered (s : State) : (setBudget s).powered = s.powered := rfl
@[simp] theorem setBudget_clock (s : State) : (setBudget s).clock = s.clock := rfl
@[simp] theorem setBudget_lines (s : State) : (setBudget s).lines = s.lines := rfl
@[simp] theorem setBudget_heat (s : State) : (setBudget s).heat = s.heat := rfl
@[simp] theorem setBudget_allot (s : State) :
    (setBudget s).allot = { s.allot with ceiling := activeCeiling s, budget := budgetW s } := rfl
@[simp] theorem setBudget_shop (s : State) : (setBudget s).shop = s.shop := rfl
@[simp] theorem setBudget_stage (s : State) : (setBudget s).stage = s.stage := rfl
@[simp] theorem setBudget_scan (s : State) : (setBudget s).scan = s.scan := rfl
@[simp] theorem setBudget_prot (s : State) : (setBudget s).prot = s.prot := rfl
@[simp] theorem setBudget_tap (s : State) : (setBudget s).tap = s.tap := rfl
@[simp] theorem setBudget_ports (s : State) : (setBudget s).ports = s.ports := rfl
@[simp] theorem setBudget_sett (s : State) : (setBudget s).sett = s.sett := rfl

@[simp] theorem beginUnit_pending (n : Nat) (s : State) : (beginUnit n s).pending = s.pending := rfl
@[simp] theorem beginUnit_powered (n : Nat) (s : State) : (beginUnit n s).powered = s.powered := rfl
@[simp] theorem beginUnit_clock (n : Nat) (s : State) : (beginUnit n s).clock = s.clock := rfl
@[simp] theorem beginUnit_lines (n : Nat) (s : State) : (beginUnit n s).lines = s.lines := rfl
@[simp] theorem beginUnit_heat (n : Nat) (s : State) : (beginUnit n s).heat = s.heat := rfl
@[simp] theorem beginUnit_allot (n : Nat) (s : State) : (beginUnit n s).allot = s.allot := rfl
@[simp] theorem beginUnit_shop (n : Nat) (s : State) : (beginUnit n s).shop = s.shop := rfl
@[simp] theorem beginUnit_stage (n : Nat) (s : State) : (beginUnit n s).stage = s.stage := rfl
@[simp] theorem beginUnit_scan (n : Nat) (s : State) :
    (beginUnit n s).scan = { s.scan with unitCount := n, plan := unitPlan s n, sweepTimer := some 0 } := rfl
@[simp] theorem beginUnit_prot (n : Nat) (s : State) : (beginUnit n s).prot = s.prot := rfl
@[simp] theorem beginUnit_tap (n : Nat) (s : State) : (beginUnit n s).tap = s.tap := rfl
@[simp] theorem beginUnit_ports (n : Nat) (s : State) : (beginUnit n s).ports = s.ports := rfl
@[simp] theorem beginUnit_sett (n : Nat) (s : State) : (beginUnit n s).sett = s.sett := rfl

@[simp] theorem noteConversion_pending (c : Chan) (s : State) : (noteConversion c s).pending = s.pending := rfl
@[simp] theorem noteConversion_powered (c : Chan) (s : State) : (noteConversion c s).powered = s.powered := rfl
@[simp] theorem noteConversion_clock (c : Chan) (s : State) : (noteConversion c s).clock = s.clock := rfl
@[simp] theorem noteConversion_lines (c : Chan) (s : State) : (noteConversion c s).lines = s.lines := rfl
@[simp] theorem noteConversion_heat (c : Chan) (s : State) : (noteConversion c s).heat = s.heat := rfl
@[simp] theorem noteConversion_allot (c : Chan) (s : State) : (noteConversion c s).allot = s.allot := rfl
@[simp] theorem noteConversion_shop (c : Chan) (s : State) : (noteConversion c s).shop = s.shop := rfl
@[simp] theorem noteConversion_stage (c : Chan) (s : State) : (noteConversion c s).stage = s.stage := rfl
@[simp] theorem noteConversion_scan (c : Chan) (s : State) :
    (noteConversion c s).scan = { s.scan with
      plan := planAfter c s.scan.plan
      lastOrdinary := if ordinaryChans.contains c then some c else s.scan.lastOrdinary } := rfl
@[simp] theorem noteConversion_prot (c : Chan) (s : State) : (noteConversion c s).prot = s.prot := rfl
@[simp] theorem noteConversion_tap (c : Chan) (s : State) : (noteConversion c s).tap = s.tap := rfl
@[simp] theorem noteConversion_ports (c : Chan) (s : State) : (noteConversion c s).ports = s.ports := rfl
@[simp] theorem noteConversion_sett (c : Chan) (s : State) : (noteConversion c s).sett = s.sett := rfl

@[simp] theorem dropPassed_pending (s : State) : (dropPassed s).pending = s.pending := rfl
@[simp] theorem dropPassed_powered (s : State) : (dropPassed s).powered = s.powered := rfl
@[simp] theorem dropPassed_clock (s : State) : (dropPassed s).clock = s.clock := rfl
@[simp] theorem dropPassed_lines (s : State) : (dropPassed s).lines = s.lines := rfl
@[simp] theorem dropPassed_heat (s : State) : (dropPassed s).heat = s.heat := rfl
@[simp] theorem dropPassed_allot (s : State) : (dropPassed s).allot = s.allot := rfl
@[simp] theorem dropPassed_shop (s : State) : (dropPassed s).shop = s.shop := rfl
@[simp] theorem dropPassed_stage (s : State) : (dropPassed s).stage = s.stage := rfl
@[simp] theorem dropPassed_scan (s : State) :
    (dropPassed s).scan = { s.scan with plan := s.scan.plan.dropWhile (fun ch => !convertible s ch) } := rfl
@[simp] theorem dropPassed_prot (s : State) : (dropPassed s).prot = s.prot := rfl
@[simp] theorem dropPassed_tap (s : State) : (dropPassed s).tap = s.tap := rfl
@[simp] theorem dropPassed_ports (s : State) : (dropPassed s).ports = s.ports := rfl
@[simp] theorem dropPassed_sett (s : State) : (dropPassed s).sett = s.sett := rfl

@[simp] theorem setStageAssembly_pending (bytes : List Byte) (s : State) :
    (setStageAssembly bytes s).pending = s.pending := rfl
@[simp] theorem setStageAssembly_powered (bytes : List Byte) (s : State) :
    (setStageAssembly bytes s).powered = s.powered := rfl
@[simp] theorem setStageAssembly_clock (bytes : List Byte) (s : State) :
    (setStageAssembly bytes s).clock = s.clock := rfl
@[simp] theorem setStageAssembly_lines (bytes : List Byte) (s : State) :
    (setStageAssembly bytes s).lines = s.lines := rfl
@[simp] theorem setStageAssembly_heat (bytes : List Byte) (s : State) :
    (setStageAssembly bytes s).heat = s.heat := rfl
@[simp] theorem setStageAssembly_allot (bytes : List Byte) (s : State) :
    (setStageAssembly bytes s).allot = s.allot := rfl
@[simp] theorem setStageAssembly_shop (bytes : List Byte) (s : State) :
    (setStageAssembly bytes s).shop = s.shop := rfl
@[simp] theorem setStageAssembly_stage (bytes : List Byte) (s : State) :
    (setStageAssembly bytes s).stage = { s.stage with assembly := bytes } := rfl
@[simp] theorem setStageAssembly_scan (bytes : List Byte) (s : State) :
    (setStageAssembly bytes s).scan = s.scan := rfl
@[simp] theorem setStageAssembly_prot (bytes : List Byte) (s : State) :
    (setStageAssembly bytes s).prot = s.prot := rfl
@[simp] theorem setStageAssembly_tap (bytes : List Byte) (s : State) :
    (setStageAssembly bytes s).tap = s.tap := rfl
@[simp] theorem setStageAssembly_ports (bytes : List Byte) (s : State) :
    (setStageAssembly bytes s).ports = s.ports := rfl
@[simp] theorem setStageAssembly_sett (bytes : List Byte) (s : State) :
    (setStageAssembly bytes s).sett = s.sett := rfl

end Sys2Proof.Machine
end

