-- ==== Sys2Proof/Laws/Access.lean ====
section
/-! SUPPORT. Reading back what was written: by furnace, port, circuit and channel. -/

namespace Sys2Proof.Machine

/-! ### One value for each furnace -/

@[simp] theorem PerFurnace.get_set_same {α : Type} (x : PerFurnace α) (f : Furnace) (v : α) : (x.set f v).get f = v := by
  cases f <;> rfl

theorem PerFurnace.get_set_other {α : Type} (x : PerFurnace α) {f g : Furnace} (v : α) (h : g ≠ f) :
    (x.set f v).get g = x.get g := by
  cases f <;> cases g <;> first | rfl | exact absurd rfl h

theorem PerFurnace.get_set {α : Type} (x : PerFurnace α) (f g : Furnace) (v : α) :
    (x.set f v).get g = if g = f then v else x.get g := by
  cases f <;> cases g <;> rfl

@[simp] theorem PerFurnace.get_set_otherFurnace {α : Type} (x : PerFurnace α) (f : Furnace) (v : α) :
    (x.set f v).get (otherFurnace f) = x.get (otherFurnace f) := by
  cases f <;> rfl

@[simp] theorem PerFurnace.set_get {α : Type} (x : PerFurnace α) (f : Furnace) : x.set f (x.get f) = x := by
  cases f <;> rfl

@[simp] theorem PerFurnace.set_set {α : Type} (x : PerFurnace α) (f : Furnace) (v w : α) :
    (x.set f v).set f w = x.set f w := by
  cases f <;> rfl

@[simp] theorem PerFurnace.get_map {α β : Type} (x : PerFurnace α) (g : α → β) (f : Furnace) :
    (x.map g).get f = g (x.get f) := by
  cases f <;> rfl

@[simp] theorem PerFurnace.get_mk {α : Type} (a b : α) (f : Furnace) :
    (PerFurnace.mk a b).get f = if f = .a then a else b := by
  cases f <;> rfl

theorem PerFurnace.ext_get {α : Type} {x y : PerFurnace α} (h : ∀ f, x.get f = y.get f) : x = y := by
  cases x; cases y
  have ha := h .a
  have hb := h .b
  simp only [PerFurnace.get] at ha hb
  rw [ha, hb]

@[simp] theorem otherFurnace_other (f : Furnace) : otherFurnace (otherFurnace f) = f := by cases f <;> rfl

theorem otherFurnace_ne (f : Furnace) : otherFurnace f ≠ f := by cases f <;> decide

/-- A furnace is one of two. -/
theorem furnace_cases (f g : Furnace) : g = f ∨ g = otherFurnace f := by cases f <;> cases g <;> decide

/-! ### One value for each port -/

@[simp] theorem PerPort.get_set_same {α : Type} (x : PerPort α) (q : Port) (v : α) : (x.set q v).get q = v := by
  cases q <;> rfl

theorem PerPort.get_set {α : Type} (x : PerPort α) (q r : Port) (v : α) :
    (x.set q v).get r = if r = q then v else x.get r := by
  cases q <;> cases r <;> rfl

theorem PerPort.get_set_other {α : Type} (x : PerPort α) {q r : Port} (v : α) (h : r ≠ q) :
    (x.set q v).get r = x.get r := by
  rw [PerPort.get_set, if_neg h]

@[simp] theorem PerPort.set_set {α : Type} (x : PerPort α) (q : Port) (v w : α) : (x.set q v).set q w = x.set q w := by
  cases q <;> rfl

@[simp] theorem PerPort.set_get {α : Type} (x : PerPort α) (q : Port) : x.set q (x.get q) = x := by
  cases q <;> rfl

@[simp] theorem PerPort.get_mapPort {α β : Type} (x : PerPort α) (g : Port → α → β) (q : Port) :
    (x.mapPort g).get q = g q (x.get q) := by
  cases q <;> rfl

theorem PerPort.ext_get {α : Type} {x y : PerPort α} (h : ∀ q, x.get q = y.get q) : x = y := by
  cases x; cases y
  have ha := h .a
  have hb := h .b
  have hp := h .p
  simp only [PerPort.get] at ha hb hp
  rw [ha, hb, hp]

/-! ### One value for each circuit and channel -/

@[simp] theorem PerCircuit.get_set_same {α : Type} (x : PerCircuit α) (c : Circuit) (v : α) : (x.set c v).get c = v := by
  cases c <;> rfl

theorem PerCircuit.get_set {α : Type} (x : PerCircuit α) (c d : Circuit) (v : α) :
    (x.set c v).get d = if d = c then v else x.get d := by
  cases c <;> cases d <;> rfl

@[simp] theorem PerCircuit.set_set {α : Type} (x : PerCircuit α) (c : Circuit) (v w : α) :
    (x.set c v).set c w = x.set c w := by
  cases c <;> rfl

@[simp] theorem PerCircuit.set_get {α : Type} (x : PerCircuit α) (c : Circuit) : x.set c (x.get c) = x := by
  cases c <;> rfl

@[simp] theorem PerCircuit.get_map {α β : Type} (x : PerCircuit α) (g : α → β) (c : Circuit) :
    (x.map g).get c = g (x.get c) := by
  cases c <;> rfl

@[simp] theorem PerChan.get_set_same {α : Type} (x : PerChan α) (c : Chan) (v : α) : (x.set c v).get c = v := by
  cases c <;> rfl

theorem PerChan.get_set {α : Type} (x : PerChan α) (c d : Chan) (v : α) :
    (x.set c v).get d = if d = c then v else x.get d := by
  cases c <;> cases d <;> rfl

@[simp] theorem PerChan.get_mapChan {α β : Type} (x : PerChan α) (g : Chan → α → β) (c : Chan) :
    (x.mapChan g).get c = g c (x.get c) := by
  cases c <;> rfl

/-! ### What the state's readers read after a write -/

@[simp] theorem slotOf_setSlot_same (f : Furnace) (x : Slot) (s : State) : slotOf (setSlot f x s) f = x := by
  simp [slotOf, setSlot, setFurnaceSlot]

theorem slotOf_setSlot_other {f g : Furnace} (x : Slot) (s : State) (h : g ≠ f) :
    slotOf (setSlot f x s) g = slotOf s g := by
  simp [slotOf, setSlot, setFurnaceSlot, PerFurnace.get_set_other _ _ h]

@[simp] theorem heatOf_setHeat_same (f : Furnace) (h : Heat) (s : State) : heatOf (setHeat f h s) f = some h := by
  simp [heatOf, setHeat]

theorem heatOf_setHeat_other {f g : Furnace} (h : Heat) (s : State) (ne : g ≠ f) :
    heatOf (setHeat f h s) g = heatOf s g := by
  simp [heatOf, setHeat, slotOf_setSlot_other _ _ ne]

theorem heatOf_some {s : State} {f : Furnace} {h : Heat} (e : heatOf s f = some h) : slotOf s f = .heat h := by
  unfold heatOf at e
  split at e
  · cases e
    assumption
  · cases e

@[simp] theorem ports_setPort_same (q : Port) (r : PortRec) (s : State) : (setPort q r s).ports.get q = r := by
  simp [setPort]

theorem ports_setPort_other {q r : Port} (x : PortRec) (s : State) (h : r ≠ q) :
    (setPort q x s).ports.get r = s.ports.get r := by
  simp [setPort, PerPort.get_set_other _ _ h]

@[simp] theorem circuitOf_setCircuitRec_same (c : Circuit) (r : CircuitRec) (s : State) :
    circuitOf (setCircuitRec c r s) c = r := by
  simp [circuitOf, setCircuitRec]

theorem circuitOf_setCircuitRec_other {c d : Circuit} (r : CircuitRec) (s : State) (h : d ≠ c) :
    circuitOf (setCircuitRec c r s) d = circuitOf s d := by
  simp [circuitOf, setCircuitRec, PerCircuit.get_set, h]

@[simp] theorem chanOf_setChannel_same (c : Chan) (r : ChannelRec) (s : State) : chanOf (setChannel c r s) c = r := by
  simp [chanOf, setChannel]

theorem chanOf_setChannel_other {c d : Chan} (r : ChannelRec) (s : State) (h : d ≠ c) :
    chanOf (setChannel c r s) d = chanOf s d := by
  simp [chanOf, setChannel, PerChan.get_set, h]

end Sys2Proof.Machine
end

