-- ==== Sys2Proof/Laws/Frames.lean ====
section
/-! SUPPORT. What the shared operations leave and what they give: the frames of Sys2Proof/Safety.lean compose; notices,
matching and the tilt evaluation. -/

namespace Sys2Proof.Machine

/-! ### Notices -/

theorem PortNoted.refl (kinds : List NoticeKind) (x : PortRec) : PortNoted kinds x x :=
  ⟨rfl, rfl, fun n hn => ⟨n, hn, rfl⟩⟩

theorem PortNoted.trans {kinds : List NoticeKind} {x y z : PortRec} (h : PortNoted kinds x y)
    (g : PortNoted kinds y z) : PortNoted kinds x z := by
  obtain ⟨h1, h2, h3⟩ := h
  obtain ⟨g1, g2, g3⟩ := g
  refine ⟨by rw [g1, h1], g2.trans h2, fun n hn => ?_⟩
  obtain ⟨m, hm, em⟩ := h3 n hn
  obtain ⟨l, hl, el⟩ := g3 m hm
  exact ⟨l, hl, el.trans em⟩

theorem PortNoted.mono {kinds more : List NoticeKind} {x y : PortRec} (h : PortNoted kinds x y)
    (sub : ∀ k ∈ kinds, k ∈ more) : PortNoted more x y := by
  obtain ⟨h1, h2, h3⟩ := h
  refine ⟨h1, ?_, h3⟩
  have narrow : ∀ l : List Notice, l.filter (fun n => !more.contains n.detail.kind)
      = (l.filter (fun n => !kinds.contains n.detail.kind)).filter (fun n => !more.contains n.detail.kind) := by
    intro l
    rw [List.filter_filter]
    apply List.filter_congr
    intro n _
    by_cases k : n.detail.kind ∈ kinds
    · simp [k, sub _ k]
    · simp [k]
  rw [narrow, h2, ← narrow]

/-- A notice of a kind that was not posted stays. -/
theorem PortNoted.mem {kinds : List NoticeKind} {x y : PortRec} (h : PortNoted kinds x y) {n : Notice}
    (hn : n ∈ x.notices) (out : n.detail.kind ∉ kinds) : n ∈ y.notices := by
  have here : n ∈ x.notices.filter (fun n => !kinds.contains n.detail.kind) := by simp [hn, out]
  rw [← h.2.1] at here
  exact (List.mem_filter.mp here).1

theorem PortRec.post_noted (d : Detail) (r : PortRec) : PortNoted [d.kind] r (r.post d) := by
  refine ⟨rfl, ?_, fun n hn => ?_⟩
  · simp only [PortRec.post, List.filter_append, List.filter_filter]
    have gone : [({ detail := d, serial := r.nextSerial } : Notice)].filter
        (fun n => !([d.kind].contains n.detail.kind)) = [] := by simp
    rw [gone, List.append_nil]
    apply List.filter_congr
    intro n _
    by_cases k : n.detail.kind = d.kind
    · simp [k]
    · simp [k]
  · by_cases k : n.detail.kind = d.kind
    · exact ⟨{ detail := d, serial := r.nextSerial }, by simp [PortRec.post], k.symm⟩
    · exact ⟨n, by simp [PortRec.post, hn, k], rfl⟩

theorem PortsNoted.refl (kinds : List NoticeKind) (s : State) : PortsNoted kinds s s := fun _ => PortNoted.refl _ _

theorem PortsNoted.trans {kinds : List NoticeKind} {s t u : State} (h : PortsNoted kinds s t)
    (g : PortsNoted kinds t u) : PortsNoted kinds s u := fun q => (h q).trans (g q)

theorem PortsNoted.mono {kinds more : List NoticeKind} {s t : State} (h : PortsNoted kinds s t)
    (sub : ∀ k ∈ kinds, k ∈ more) : PortsNoted more s t := fun q => (h q).mono sub

theorem PortsNoted.of_eq {kinds : List NoticeKind} {s t : State} (h : t.ports = s.ports) : PortsNoted kinds s t :=
  fun q => by rw [h]; exact PortNoted.refl _ _

theorem post_noted (d : Detail) (s : State) : PortsNoted [d.kind] s (post d s) := fun q => by
  simp only [post_ports, PerPort.get_mapPort]
  split
  · exact PortRec.post_noted d _
  · exact PortNoted.refl _ _

theorem postTo_noted (q : Port) (d : Detail) (s : State) : PortsNoted [d.kind] s (postTo q d s) := fun r => by
  unfold postTo
  by_cases h : r = q
  · subst h
    rw [ports_setPort_same]
    exact PortRec.post_noted d _
  · rw [ports_setPort_other _ _ h]
    exact PortNoted.refl _ _

theorem post_noted_of {d : Detail} {kinds : List NoticeKind} {s : State} (e : d.kind ∈ kinds) :
    PortsNoted kinds s (post d s) := (post_noted d s).mono (by simpa using e)

theorem postTo_noted_of {d : Detail} {kinds : List NoticeKind} {q : Port} {s : State} (e : d.kind ∈ kinds) :
    PortsNoted kinds s (postTo q d s) := (postTo_noted q d s).mono (by simpa using e)

theorem Noticed.keep {d : Detail} {kinds : List NoticeKind} {s t : State} (h : Noticed d s)
    (k : PortsNoted kinds s t) (out : d.kind ∉ kinds) : Noticed d t := fun q hq => by
  obtain ⟨n, hn, hd⟩ := h q hq
  exact ⟨n, (k q).mem hn (by rw [hd]; exact out), hd⟩

/-- A posted notice is pending at every port it goes to. -/
theorem post_noticed (d : Detail) (s : State) : Noticed d (post d s) := fun q hq => by
  refine ⟨{ detail := d, serial := (s.ports.get q).nextSerial }, ?_, rfl⟩
  simp [post_ports, PerPort.get_mapPort, hq, PortRec.post]

/-- A port that a notice does not go to is left alone. -/
theorem post_port_other {d : Detail} {q : Port} (s : State) (h : d.addressedTo q = false) :
    (post d s).ports.get q = s.ports.get q := by
  simp [post_ports, PerPort.get_mapPort, h]

/-! ### Slots that evaluations have passed over -/

theorem StateMoved.refl (h : Heat) : StateMoved h h.state := by
  unfold StateMoved
  cases hs : h.state <;> simp

theorem StateMoved.trans {a b : Heat} {dest : HeatState} (est : b.estimate = a.estimate) (h : StateMoved a b.state)
    (g : StateMoved b dest) : StateMoved a dest := by
  unfold StateMoved at *
  rw [est] at g
  cases ha : a.state <;> rw [ha] at h <;> dsimp only at h ⊢
  · rw [h] at g; exact g
  · rcases h with h | ⟨h | h, e⟩ <;> rw [h] at g <;> dsimp only at g
    · exact g
    · rcases g with g | g | ⟨g, -⟩ <;> simp [g, e]
    · rcases g with g | g | ⟨g, -⟩ <;> simp [g, e]
  · rcases h with h | h | ⟨h, e⟩ <;> rw [h] at g <;> dsimp only at g
    · exact g
    · exact g
    · rcases g with g | ⟨g | g, -⟩ <;> simp [g, e]
  · rcases h with h | h | ⟨h, e⟩ <;> rw [h] at g <;> dsimp only at g
    · exact g
    · exact g
    · rcases g with g | ⟨g | g, -⟩ <;> simp [g, e]
  · rw [h] at g; exact g

theorem HeatMoved.refl (second : Nat) (h : Heat) : HeatMoved second h h :=
  ⟨rfl, StateMoved.refl h, Or.inl rfl, fun n => absurd rfl n⟩

theorem HeatMoved.estimate {second : Nat} {h h' : Heat} (m : HeatMoved second h h') : h'.estimate = h.estimate := by
  rw [m.1]

theorem HeatMoved.trans {second : Nat} {a b c : Heat} (h : HeatMoved second a b) (g : HeatMoved second b c) :
    HeatMoved second a c := by
  have est := h.estimate
  obtain ⟨h1, h2, h3, h4⟩ := h
  obtain ⟨g1, g2, g3, g4⟩ := g
  refine ⟨by rw [g1, h1], h2.trans est g2, ?_, fun n => ?_⟩
  · rcases g3 with g3 | g3
    · rw [g3]; exact h3
    · exact Or.inr g3
  · by_cases k : heatClass c = heatClass b
    · rcases g3 with g3 | g3
      · rw [g3]; exact h4 (by rw [← k]; exact n)
      · exact g3
    · exact g4 k

theorem SlotEvaluated.refl (second : Nat) (x : FurnaceSlot) : SlotEvaluated second x x := by
  refine ⟨rfl, ?_⟩
  split
  · next h e => exact ⟨h, e, HeatMoved.refl _ h⟩
  · rfl

theorem SlotEvaluated.trans {second : Nat} {x y z : FurnaceSlot} (h : SlotEvaluated second x y)
    (g : SlotEvaluated second y z) : SlotEvaluated second x z := by
  obtain ⟨h1, h2⟩ := h
  obtain ⟨g1, g2⟩ := g
  refine ⟨by rw [g1, h1], ?_⟩
  split
  · next a e =>
    rw [e] at h2
    obtain ⟨b, eb, sb⟩ := h2
    rw [eb] at g2
    obtain ⟨c, ec, sc⟩ := g2
    exact ⟨c, ec, sb.trans sc⟩
  · next other ne =>
    split at h2
    · next a e => exact absurd e (ne a)
    · split at g2
      · next b e => exact absurd (h2.symm.trans e) (ne b)
      · rw [g2, h2]

/-- One slot's heat replaced by one that evaluations have moved. -/
theorem slotEvaluated_setHeat {second : Nat} {f : Furnace} {h h' : Heat} {s : State} (e : heatOf s f = some h)
    (moved : HeatMoved second h h') (g : Furnace) :
    SlotEvaluated second (s.heat.slots.get g) ((setHeat f h' s).heat.slots.get g) := by
  simp only [setHeat_heat, PerFurnace.get_set]
  by_cases fg : g = f
  · subst fg
    rw [if_pos rfl]
    refine ⟨rfl, ?_⟩
    have slot : (s.heat.slots.get g).slot = .heat h := heatOf_some e
    rw [slot]
    exact ⟨h', rfl, moved⟩
  · rw [if_neg fg]
    exact SlotEvaluated.refl _ _

/-! ### Stage, allotment and tap -/

theorem StageHanded.refl (x : Stage) : StageHanded x x := rfl

theorem StageHanded.trans {x y z : Stage} (h : StageHanded x y) (g : StageHanded y z) : StageHanded x z := by
  unfold StageHanded at *
  rw [g, h]

theorem StageHanded.link {x y : Stage} (h : StageHanded x y) : y.link = x.link := by rw [h]

theorem StageHanded.last {x y : Stage} (h : StageHanded x y) : y.last = x.last := by rw [h]

theorem StageHanded.sent {x y : Stage} (h : StageHanded x y) : y.sent = x.sent := by rw [h]

theorem StageHanded.deadline {x y : Stage} (h : StageHanded x y) : y.deadline = x.deadline := by rw [h]

theorem PulseEntered.refl (x : AllotRec) : PulseEntered x x := fun e n => absurd e n

/-- A period that was started in a step stays one through a further computation in it. -/
theorem PulseEntered.trans {x y z : AllotRec} (h : PulseEntered x y) (g : PulseComputed y z) : PulseEntered x z := by
  intro e n
  by_cases m : y.mode = .pulse
  · obtain ⟨d, p, q⟩ := (show _ ∧ _ ∧ _ by simpa [m] using g.2 e)
    rw [d, p, q]
    exact h m n
  · exact g.1 e m

theorem PulseComputed.refl (x : AllotRec) : PulseComputed x x :=
  ⟨PulseEntered.refl x, fun e => by rw [if_pos e]; exact ⟨rfl, rfl, rfl⟩⟩

theorem AllotmentComputed.refl (x : Allotment) : AllotmentComputed x x := ⟨rfl, fun _ => ⟨rfl, PulseComputed.refl _⟩⟩

theorem TapMatched.permit {x y : Tap} (h : TapMatched x y) : y.permit = x.permit := by rw [h.1]
theorem TapMatched.nextId {x y : Tap} (h : TapMatched x y) : y.nextId = x.nextId := by rw [h.1]
theorem TapMatched.lastEnded {x y : Tap} (h : TapMatched x y) : y.lastEnded = x.lastEnded := by rw [h.1]
theorem TapMatched.tilt {x y : Tap} (h : TapMatched x y) : y.tilt = x.tilt := by rw [h.1]

/-! ### Matching -/

theorem entriesOf_map_assign (q : List Entry) (g : Entry → Bool) (v : Option Furnace) :
    entriesOf (q.map (fun x => if g x = true then { x with assigned := v } else x)) = entriesOf q := by
  unfold entriesOf
  rw [List.map_map]
  apply List.map_congr_left
  intro x _
  simp only [Function.comp]
  split <;> rfl

theorem entriesOf_filter (q : List Entry) (id : Nat) :
    entriesOf (q.filter (fun e => e.id != id)) = (entriesOf q).filter (fun e => e.id != id) := by
  unfold entriesOf
  rw [List.filter_map]
  rfl

theorem entriesOf_find? (q : List Entry) (id : Nat) :
    (entriesOf q).find? (fun e => e.id == id)
      = (q.find? (fun e => e.id == id)).map (fun e => { e with assigned := none }) := by
  unfold entriesOf
  rw [List.find?_map]
  rfl

/-- The return of an entry does not read its assignment. -/
theorem entriesReturned_entriesOf (id second : Nat) (q : List Entry) :
    entriesReturned id second (entriesOf q) = entriesOf (entriesReturned id second q) := by
  unfold entriesReturned
  rw [entriesOf_find?]
  cases q.find? (fun e => e.id == id) with
  | none => rfl
  | some e =>
    simp only [Option.map_some]
    have l : Entry.lapsed { e with assigned := none } second = e.lapsed second := rfl
    rw [l]
    split
    · exact (entriesOf_filter q id).symm
    · unfold entriesOf
      simp only [List.map_map]
      apply List.map_congr_left
      intro x _
      simp only [Function.comp]
      split <;> rfl

/-- No entry becomes ASSIGNED by the return of another. -/
theorem entriesReturned_assigned {id second : Nat} {q : List Entry} {e : Entry} (h : e ∈ entriesReturned id second q)
    (a : e.assigned.isSome = true) : e ∈ q := by
  unfold entriesReturned at h
  split at h
  · split at h
    · exact (List.mem_filter.mp h).1
    · obtain ⟨x, hx, ex⟩ := List.mem_map.mp h
      split at ex
      · subst ex
        cases a
      · subst ex
        exact hx
  · exact h

/-- The returned entry is WAITING (R127, R131). -/
theorem entriesReturned_waiting {id second : Nat} {q : List Entry} {e : Entry} (h : e ∈ entriesReturned id second q)
    (same : e.id = id) : e.assigned = none := by
  unfold entriesReturned at h
  split at h
  · split at h
    · exact absurd same (by simpa using (List.mem_filter.mp h).2)
    · obtain ⟨x, -, ex⟩ := List.mem_map.mp h
      split at ex
      · subst ex
        rfl
      · next n =>
        subst ex
        exact absurd same n
  · next none' => exact absurd same (by simpa using List.find?_eq_none.mp none' e h)

/-- `qualifies` is the rule of R122. -/
theorem qualifies_iff (s : State) (e : Entry) (f : Furnace) : qualifies s e f = true ↔ ServesEntry s e f := by
  unfold qualifies ServesEntry
  cases heatOf s f with
  | none => simp
  | some h =>
    cases he : h.estimate with
    | none => simp [he]
    | some t => cases f <;> simp [he, and_assoc]

theorem chooseFurnace_takes {s : State} {e : Entry} {f : Furnace} (h : chooseFurnace s e = some f) :
    TakesEntry s e f := by
  unfold chooseFurnace at h
  unfold TakesEntry
  simp only [← qualifies_iff]
  split at h
  · next a b =>
    split at h
    · next lt => cases h; exact ⟨b, fun _ => Or.inl lt⟩
    · next le =>
      cases h
      refine ⟨a, fun _ => ?_⟩
      simp only [otherFurnace, and_true]
      omega
  · next a b => cases h; exact ⟨a, fun n => by rw [otherFurnace, b] at n; cases n⟩
  · next a b => cases h; exact ⟨b, fun n => by rw [otherFurnace, a] at n; cases n⟩
  · cases h

theorem chooseFurnace_none {s : State} {e : Entry} (h : chooseFurnace s e = none) (f : Furnace) :
    ¬ ServesEntry s e f := by
  rw [← qualifies_iff]
  unfold chooseFurnace at h
  split at h
  · split at h <;> cases h
  · cases h
  · cases h
  · next a b => cases f <;> simp [a, b]

theorem ServesEntry.congr {s t : State} {e x : Entry} {f : Furnace} (h : ServesEntry s e f) (heat : t.heat = s.heat)
    (sett : t.sett = s.sett) (same : x.preference = e.preference ∧ x.wanted = e.wanted ∧ x.low = e.low ∧ x.high = e.high) :
    ServesEntry t x f := by
  unfold ServesEntry heatOf slotOf heelMin setting at *
  rw [heat, sett, same.1, same.2.1, same.2.2.1, same.2.2.2]
  exact h

theorem TakesEntry.congr {s t : State} {e x : Entry} {f : Furnace} (h : TakesEntry s e f) (heat : t.heat = s.heat)
    (sett : t.sett = s.sett) (same : x.preference = e.preference ∧ x.wanted = e.wanted ∧ x.low = e.low ∧ x.high = e.high) :
    TakesEntry t x f := by
  refine ⟨h.1.congr heat sett same, fun n => ?_⟩
  have b : ∀ g, bathMassOf t g = bathMassOf s g := fun g => by unfold bathMassOf heatOf slotOf; rw [heat]
  rw [b, b]
  exact h.2 (n.congr heat.symm sett.symm ⟨same.1.symm, same.2.1.symm, same.2.2.1.symm, same.2.2.2.symm⟩)

theorem Matched.congr {s t : State} (h : Matched s) (heat : t.heat = s.heat) (sett : t.sett = s.sett)
    (queue : t.tap.queue = s.tap.queue) : Matched t := by
  unfold Matched at *
  rw [queue]
  rcases h with h | h
  · exact Or.inl h
  · exact Or.inr (fun e he f n => h e he f (n.congr heat.symm sett.symm ⟨rfl, rfl, rfl, rfl⟩))

/-- What a run of matching has left: the state but for the queue, the kept resolutions and TAP_CALL. -/
def MatchRun (s t : State) : Prop :=
  t = { s with tap := t.tap, ports := t.ports }
    ∧ t.tap = { s.tap with queue := t.tap.queue, kept := t.tap.kept, matchDue := t.tap.matchDue }
    ∧ entriesOf t.tap.queue = entriesOf s.tap.queue ∧ (∀ f, KeptMatched f s.tap t.tap) ∧ AssignedFrom s t
    ∧ PortsNoted [.tapCall] s t

theorem AssignedFrom.of_queue {s t : State} (h : t.tap.queue = s.tap.queue) (g : t.tap.permit = s.tap.permit) :
    AssignedFrom s t :=
  fun e he _ _ => Or.inl ⟨by rw [← h]; exact he, fun p hp _ => by rw [g, hp]; rfl⟩

theorem assignEntry_run {e : Entry} {f : Furnace} {s : State} (free : s.tap.queue.any (fun x => x.assigned.isSome) = false)
    (oldest : s.tap.queue.head? = some e) (takes : TakesEntry s e f) : MatchRun s (assignEntry e f s) := by
  have head : (assignEntry e f s).tap.queue.head? = some { e with assigned := some f } := by
    show (s.tap.queue.map (fun x => if x.id = e.id then { x with assigned := some f } else x)).head? = _
    rw [List.head?_map, oldest]
    simp
  refine ⟨rfl, rfl, ?_, fun g => ?_, fun x hx g hg => Or.inr ?_, ?_⟩
  · have h := entriesOf_map_assign s.tap.queue (fun x => decide (x.id = e.id)) (some f)
    simp only [decide_eq_true_eq] at h
    exact h
  · rcases furnace_cases f g with h | h
    · subst h
      exact Or.inr ⟨PerFurnace.get_set_same _ _ _, { e with assigned := some g }, List.mem_of_mem_head? head, rfl⟩
    · subst h
      exact Or.inl (PerFurnace.get_set_otherFurnace _ _ _)
  · obtain ⟨y, hy, ey⟩ := List.mem_map.mp (show x ∈ s.tap.queue.map
        (fun x => if x.id = e.id then { x with assigned := some f } else x) from hx)
    have idle : y.assigned = none := by
      have n := List.any_eq_false.mp free y hy
      simpa using n
    have gf : x.id = e.id ∧ g = f := by
      split at ey
      · next same =>
        subst ey
        exact ⟨same, (Option.some.inj hg).symm⟩
      · subst ey
        rw [idle] at hg
        cases hg
    obtain ⟨same, rfl⟩ := gf
    exact ⟨{ e with assigned := some g }, head, same.symm, rfl, takes.congr rfl rfl ⟨rfl, rfl, rfl, rfl⟩,
      post_noticed _ _⟩
  · exact PortsNoted.trans (t := setKept f none (setQueue _ s)) (PortsNoted.of_eq rfl)
      (post_noted_of (by simp [Detail.kind]))

theorem MatchRun.refl (s : State) : MatchRun s s :=
  ⟨rfl, rfl, rfl, fun _ => Or.inl rfl, AssignedFrom.of_queue rfl rfl, PortsNoted.refl _ _⟩

theorem runMatching_run (s : State) : MatchRun s (runMatching s) ∧ Matched (runMatching s) := by
  unfold runMatching
  split
  · next h =>
    obtain ⟨e, he, a⟩ := List.any_eq_true.mp h
    exact ⟨MatchRun.refl s, Or.inl ⟨e, he, a⟩⟩
  · next h =>
    split
    · next e => exact ⟨MatchRun.refl s, Or.inr (fun x hx => by rw [e] at hx; cases hx)⟩
    · next e he =>
      split
      · next f hf =>
        have run := assignEntry_run (by simpa using h) he (chooseFurnace_takes hf)
        refine ⟨run, Or.inl ⟨{ e with assigned := some f }, ?_, rfl⟩⟩
        apply List.mem_of_mem_head?
        show (s.tap.queue.map (fun x => if x.id = e.id then { x with assigned := some f } else x)).head? = _
        rw [List.head?_map, he]
        simp
      · next hf =>
        refine ⟨MatchRun.refl s, Or.inr (fun x hx f => ?_)⟩
        rw [he] at hx
        cases hx
        exact chooseFurnace_none hf f

/-- Matching in a step: what it may change, and that it has run when an event asked for it. -/
theorem matchIfDue_run (s : State) : MatchRun s (matchIfDue s) ∧ (s.tap.matchDue = true → Matched (matchIfDue s)) := by
  unfold matchIfDue
  split
  · obtain ⟨⟨f1, f2, f3, f4, f5, f6⟩, m⟩ := runMatching_run { s with tap := { s.tap with matchDue := false } }
    refine ⟨⟨?_, ?_, f3, f4, f5, ?_⟩, fun _ => m⟩
    · rw [f1]
    · rw [f2]
    · exact f6
  · next h => exact ⟨MatchRun.refl s, fun n => absurd n h⟩

/-! ### The tilt notice -/

/-- The furnace a notice carries next stands in its condition. -/
theorem carriedNext_stands {old cond : PerFurnace Bool} {carried : Option Furnace} {f : Furnace}
    (h : carriedNext old cond carried = some f) : cond.get f = true := by
  unfold carriedNext at h
  split at h
  · next c => cases h; simp only [Bool.and_eq_true] at c; exact c.1
  · split at h
    · next c => cases h; simp only [Bool.and_eq_true] at c; exact c.1
    · split at h
      · split at h
        · next c => cases h; exact c
        · split at h
          · next c => cases h; exact c
          · cases h
      · cases h

/-- A condition that has arisen is what the notice carries next; of two that arose together that of B. -/
theorem carriedNext_arisen {old cond : PerFurnace Bool} (carried : Option Furnace) {f : Furnace}
    (was : old.get f = false) (is : cond.get f = true) (last : f = .b ∨ old.b = true ∨ cond.b = false) :
    carriedNext old cond carried = some f := by
  cases f <;> simp only [PerFurnace.get] at was is <;> unfold carriedNext <;> simp only [was, is]
  · rcases last with n | n | n
    · cases n
    · simp [n]
    · simp [n]
  · simp

/-- The furnace a notice carries next is the one of the statements (R110, R130). -/
theorem carriedNext_carries (old cond : PerFurnace Bool) (carried : Option Furnace) :
    CarriesNext old cond carried (carriedNext old cond carried) := by
  obtain ⟨oa, ob⟩ := old
  obtain ⟨ca, cb⟩ := cond
  unfold CarriesNext carriedNext
  cases oa <;> cases ob <;> cases ca <;> cases cb <;> rcases carried with - | - | - <;>
    simp [PerFurnace.get, otherFurnace]

/-- What the notice of a port carries after the tilt evaluation. -/
def tiltAfter (q : Port) (old cond : PerFurnace Bool) (s : State) : Option TiltDetail :=
  (carriedNext old cond ((s.tap.tiltCarried.get q).map TiltDetail.furnace)).map (tiltDetail s)

/-- The tilt notice of one port (R130). -/
theorem tiltNoticeAt_spec (q : Port) (old cond : PerFurnace Bool) (s : State) :
    tiltNoticeAt q old cond s
        = { s with
            tap := { s.tap with tiltCarried := s.tap.tiltCarried.set q (tiltAfter q old cond s) }
            ports := (tiltNoticeAt q old cond s).ports }
      ∧ PortsNoted [.unpermittedTilt] s (tiltNoticeAt q old cond s)
      ∧ (∀ r, r ≠ q → (tiltNoticeAt q old cond s).ports.get r = s.ports.get r)
      ∧ ∀ d ∈ tiltAfter q old cond s, s.tap.tiltCarried.get q ≠ some d ∨ old.get d.furnace = false →
          TiltPending q d (tiltNoticeAt q old cond s) := by
  unfold tiltNoticeAt tiltAfter
  dsimp only
  split
  · next d hd =>
    rw [hd]
    split
    · next c =>
      refine ⟨rfl, PortsNoted.of_eq rfl, fun _ _ => rfl, fun x hx n => ?_⟩
      cases hx
      rcases n with n | n
      · exact absurd c.1 n
      · rw [c.2] at n; cases n
    · refine ⟨rfl, PortsNoted.trans (t := { s with tap := { s.tap with
          tiltCarried := s.tap.tiltCarried.set q (some d) } }) (PortsNoted.of_eq rfl)
        (postTo_noted_of (by simp [Detail.kind])), fun r hr => ports_setPort_other _ _ hr, fun x hx _ => ?_⟩
      cases hx
      unfold TiltPending postTo
      rw [ports_setPort_same]
      exact ⟨{ detail := .unpermittedTilt d, serial := (s.ports.get q).nextSerial }, by simp [PortRec.post], rfl⟩
  · next hd =>
    rw [hd]
    exact ⟨rfl, PortsNoted.of_eq rfl, fun _ _ => rfl, fun x hx => by cases hx⟩

theorem unpermittedCond_iff (s : State) (f : Furnace) : unpermittedCond s f = true ↔ UnpermittedTilt s f := by
  unfold unpermittedCond UnpermittedTilt
  cases tiltOf s f <;> simp

/-- What the tilt evaluation may change, and what it has posted (R130). -/
theorem evalTilt_spec (s : State) :
    evalTilt s = { s with tap := (evalTilt s).tap, ports := (evalTilt s).ports }
      ∧ (evalTilt s).tap = { s.tap with
          unpermitted := (evalTilt s).tap.unpermitted, tiltCarried := (evalTilt s).tap.tiltCarried }
      ∧ PortsNoted [.unpermittedTilt] s (evalTilt s) ∧ TiltNoticed s (evalTilt s) := by
  generalize hold : s.tap.unpermitted = old
  generalize hcond : (⟨unpermittedCond s .a, unpermittedCond s .b⟩ : PerFurnace Bool) = cond
  generalize h0 : ({ s with tap := { s.tap with unpermitted := cond } } : State) = x0
  have eq : evalTilt s
      = tiltNoticeAt .p old cond (tiltNoticeAt .b old cond (tiltNoticeAt .a old cond x0)) := by
    unfold evalTilt
    rw [hold, hcond, ← h0]
  obtain ⟨e1, n1, o1, p1⟩ := tiltNoticeAt_spec .a old cond x0
  generalize hx1 : tiltNoticeAt .a old cond x0 = x1 at *
  obtain ⟨e2, n2, o2, p2⟩ := tiltNoticeAt_spec .b old cond x1
  generalize hx2 : tiltNoticeAt .b old cond x1 = x2 at *
  obtain ⟨e3, n3, o3, p3⟩ := tiltNoticeAt_spec .p old cond x2
  generalize hx3 : tiltNoticeAt .p old cond x2 = x3 at *
  have t1 : x1.tap = { x0.tap with tiltCarried := x0.tap.tiltCarried.set .a (tiltAfter .a old cond x0) } := by rw [e1]
  have t2 : x2.tap = { x1.tap with tiltCarried := x1.tap.tiltCarried.set .b (tiltAfter .b old cond x1) } := by rw [e2]
  have t3 : x3.tap = { x2.tap with tiltCarried := x2.tap.tiltCarried.set .p (tiltAfter .p old cond x2) } := by rw [e3]
  have c0 : ∀ q, x0.tap.tiltCarried.get q = s.tap.tiltCarried.get q := fun q => by rw [← h0]
  have det : ∀ {x : State}, x.tap.tilt = s.tap.tilt → x.tap.permit = s.tap.permit → ∀ f,
      tiltDetail x f = tiltDetail s f := by
    intro x a b f
    unfold tiltDetail tiltOf grantedFor
    rw [a, b]
  have aft : ∀ {x : State} (q : Port), x.tap.tilt = s.tap.tilt → x.tap.permit = s.tap.permit →
      x.tap.tiltCarried.get q = s.tap.tiltCarried.get q → tiltAfter q old cond x = tiltAfter q old cond s := by
    intro x q a b c
    unfold tiltAfter
    rw [c]
    congr 1
    funext f
    exact det a b f
  have ti0 : x0.tap.tilt = s.tap.tilt := by rw [← h0]
  have pe0 : x0.tap.permit = s.tap.permit := by rw [← h0]
  have ti1 : x1.tap.tilt = s.tap.tilt := by rw [t1]; exact ti0
  have pe1 : x1.tap.permit = s.tap.permit := by rw [t1]; exact pe0
  have ti2 : x2.tap.tilt = s.tap.tilt := by rw [t2]; exact ti1
  have pe2 : x2.tap.permit = s.tap.permit := by rw [t2]; exact pe1
  have ti3 : x3.tap.tilt = s.tap.tilt := by rw [t3]; exact ti2
  have pe3 : x3.tap.permit = s.tap.permit := by rw [t3]; exact pe2
  have cb : x1.tap.tiltCarried.get .b = s.tap.tiltCarried.get .b := by
    rw [t1]
    exact c0 .b
  have cp : x2.tap.tiltCarried.get .p = s.tap.tiltCarried.get .p := by
    rw [t2, t1]
    exact c0 .p
  rw [aft .a ti0 pe0 (c0 .a)] at t1 p1
  rw [aft .b ti1 pe1 cb] at t2 p2
  rw [aft .p ti2 pe2 cp] at t3 p3
  have carried : ∀ q, x3.tap.tiltCarried.get q = tiltAfter q old cond s := by
    intro q
    rw [t3, t2, t1]
    cases q <;> rfl
  have posted : ∀ q, ∀ d ∈ tiltAfter q old cond s, s.tap.tiltCarried.get q ≠ some d ∨ old.get d.furnace = false →
      TiltPending q d x3 := by
    intro q d hd n
    cases q
    · have h := p1 d hd (by rw [c0]; exact n)
      unfold TiltPending at *
      rw [o3 _ (by decide), o2 _ (by decide)]
      exact h
    · have h := p2 d hd (by rw [cb]; exact n)
      unfold TiltPending at *
      rw [o3 _ (by decide)]
      exact h
    · exact p3 d hd (by rw [cp]; exact n)
  have unp : x3.tap.unpermitted = cond := by rw [t3, t2, t1, ← h0]
  have stands : ∀ f, cond.get f = true ↔ UnpermittedTilt x3 f := by
    intro f
    have c : cond.get f = unpermittedCond s f := by rw [← hcond]; cases f <;> rfl
    rw [c, unpermittedCond_iff]
    unfold UnpermittedTilt tiltOf grantedFor
    rw [ti3, pe3]
  rw [eq]
  refine ⟨?_, ?_, ?_, ?_, ?_⟩
  · rw [e3, e2, e1, ← h0]
  · rw [t3, t2, t1, ← h0]
  · refine PortsNoted.trans (t := x0) (PortsNoted.of_eq ?_) (n1.trans (n2.trans n3))
    rw [← h0]
  · intro f
    rw [unp]
    exact stands f
  · intro q
    rw [carried, unp, hold]
    refine ⟨?_, fun d hd => ?_⟩
    · unfold tiltAfter
      rw [Option.map_map, show TiltDetail.furnace ∘ tiltDetail s = id from rfl, Option.map_id]
      exact carriedNext_carries old cond _
    · have look := hd
      unfold tiltAfter at look
      obtain ⟨f, hf, ef⟩ := Option.map_eq_some_iff.mp look
      subst ef
      exact ⟨(det ti3 pe3 f).symm, (stands f).mp (carriedNext_stands hf), fun n => posted q _ hd n⟩

end Sys2Proof.Machine
end

