-- ==== Sys2Proof/Laws/Allotment.lean ====
section
/-! SUPPORT. The allotment computation meets the rules of Sys2Proof/Safety.lean, and the follow-up of a change stands in
the frame `Coordinated`. -/

namespace Sys2Proof.Machine

/-! ### The allotment -/

theorem AllotRec.update_meltRequest (old : AllotRec) (c : Claim) (w : Nat) :
    (old.update c w).meltRequest = old.meltRequest := by
  unfold AllotRec.update
  dsimp only
  split
  · rfl
  · rfl
  · split <;> rfl

/-- One computation's record keeps or starts the pulse period (R57, R58). -/
theorem AllotRec.update_pulse (old : AllotRec) (c : Claim) (w : Nat) : PulseComputed old (old.update c w) := by
  unfold PulseComputed PulseEntered AllotRec.update
  dsimp only
  generalize c.share w = sh
  obtain ⟨g, m, r, d⟩ := sh
  cases m
  · exact ⟨fun e => (by cases e), fun e => by cases e⟩
  · exact ⟨fun e => (by cases e), fun e => by cases e⟩
  · by_cases p : old.mode = .pulse
    · simp [p]
    · simp [p]

/-- A share in PULSE mode has a duty in 1..9 (R54). -/
theorem Claim.share_duty (c : Claim) (w : Nat) (h : (c.share w).mode = .pulse) :
    1 ≤ (c.share w).duty ∧ (c.share w).duty ≤ 9 := by
  unfold Claim.share at *
  dsimp only at *
  split at h
  · cases h
  · next nz =>
    rw [if_neg nz]
    split at h
    · cases h
    · next lt =>
      rw [if_neg lt]
      split at h
      · next p =>
        rw [if_pos p]
        refine ⟨p.2.2, ?_⟩
        have pos : 0 < c.minCont := by omega
        exact Nat.lt_succ_iff.mp ((Nat.div_lt_iff_lt_mul pos).mpr (by omega))
      · cases h

/-- One computation keeps an output in PULSE mode to its period and its duties in 1..9 (R43). -/
theorem AllotRec.update_pulseRule {old : AllotRec} (c : Claim) (w : Nat) (h : PulseRule old) :
    PulseRule (old.update c w) := by
  have duty := c.share_duty w
  unfold PulseRule AllotRec.update at *
  dsimp only
  generalize c.share w = sh at *
  obtain ⟨g, m, r, d⟩ := sh
  obtain ⟨rule, -⟩ := h
  cases m
  · exact ⟨fun e => (by cases e), fun d e => by cases e⟩
  · exact ⟨fun e => (by cases e), fun d e => by cases e⟩
  · have range := duty rfl
    by_cases p : old.mode = .pulse
    · simp only [p, if_true]
      refine ⟨fun _ => rule p, fun x hx => ?_⟩
      split at hx
      · cases hx
      · cases hx
        exact range
    · simp only [p, if_false]
      exact ⟨fun _ => ⟨⟨d, rfl, range⟩, rfl, rfl⟩, fun x hx => by cases hx⟩

/-- A computation on its own result gives it again (R59). -/
theorem AllotRec.update_update (old : AllotRec) (c : Claim) (w : Nat) :
    (old.update c w).update c w = old.update c w := by
  unfold AllotRec.update
  dsimp only
  generalize c.share w = sh
  obtain ⟨g, m, r, d⟩ := sh
  cases m
  · rfl
  · rfl
  · by_cases p : old.mode = .pulse
    · simp [p]
    · simp [p]

theorem Stage.kick_handed (st : Stage) : StageHanded st st.kick := by
  unfold Stage.kick StageHanded
  split
  · split
    · rfl
    · split <;> rfl
  · rfl

theorem handOver_handed (pair : PerFurnace HeldOutput) (s : State) :
    StageHanded s.stage (handOver pair s).stage ∧ (handOver pair s).stage.held = pair := by
  constructor
  · exact StageHanded.trans (y := s.stage.takePair pair) rfl (Stage.kick_handed _)
  · unfold handOver kick Stage.kick
    dsimp only
    split
    · split
      · rfl
      · split <;> rfl
    · rfl

theorem putAllotment_frame (x : Allotment) (s : State) :
    putAllotment x s = { s with allot := x, stage := (putAllotment x s).stage }
      ∧ StageHanded s.stage (putAllotment x s).stage := by
  unfold putAllotment
  dsimp only
  split
  · exact ⟨rfl, StageHanded.refl _⟩
  · exact ⟨rfl, (handOver_handed _ { s with allot := x }).1⟩

/-- A pair that was handed over stays the held pair (R60). -/
theorem putAllotment_handed (x : Allotment) (s : State) (h : PairHandedOver s) : PairHandedOver (putAllotment x s) := by
  unfold PairHandedOver putAllotment at *
  dsimp only
  split
  · next e => rw [h]; exact e.symm
  · exact (handOver_handed _ { s with allot := x }).2

theorem computed_computed (s : State) : AllotmentComputed s.allot (computed s) := by
  refine ⟨rfl, fun f => ?_⟩
  unfold computed
  dsimp only
  generalize priorityOutput s = p
  rcases furnace_cases p f with h | h
  · subst h
    rw [PerFurnace.get_set_other _ _ (otherFurnace_ne f).symm, PerFurnace.get_set_same]
    exact ⟨AllotRec.update_meltRequest _ _ _, AllotRec.update_pulse _ _ _⟩
  · subst h
    rw [PerFurnace.get_set_same]
    exact ⟨AllotRec.update_meltRequest _ _ _, AllotRec.update_pulse _ _ _⟩

/-- The claim of an output reads no record but the melt request, and of the stage the link and the last report. -/
theorem claimOf_congr (f : Furnace) (s : State) (x : Allotment) (st : Stage) (c : AllotmentComputed s.allot x)
    (h : StageHanded s.stage st) : claimOf { s with allot := x, stage := st } f = claimOf s f := by
  have melt := (c.2 f).1
  have link := h.link
  have last := h.last
  unfold claimOf requestOf conditionalBounds stageBound linkBound
  simp only [melt, link, last]
  rfl

theorem computed_eq (s : State) :
    computed s =
      { s.allot with
        out :=
          (s.allot.out.set (priorityOutput s)
              ((s.allot.out.get (priorityOutput s)).update (claimOf s (priorityOutput s)) (budgetW s))).set
            (otherFurnace (priorityOutput s))
            ((s.allot.out.get (otherFurnace (priorityOutput s))).update (claimOf s (otherFurnace (priorityOutput s)))
              (budgetW s
                - ((s.allot.out.get (priorityOutput s)).update (claimOf s (priorityOutput s)) (budgetW s)).reserve))
        ceiling := activeCeiling s, budget := budgetW s, priority := priorityOutput s } := rfl

theorem foldl_min_snd (l : List (Factor × Nat)) (n : Nat) :
    (l.map Prod.snd).foldl min n = l.foldl (fun m b => min m b.2) n := by
  rw [List.foldl_map]

theorem firstWith_eq (n : Nat) (l : List (Factor × Nat)) : firstWith n l = factorAt n l := by
  unfold firstWith
  induction l with
  | nil => rfl
  | cons b rest ih =>
    unfold factorAt
    by_cases h : b.2 = n
    · simp [h]
    · rw [if_neg h, ← ih]
      simp [h]

theorem holdAsked_eq (s : State) (f : Furnace) (h : Heat) : holdAsked s f h = holdDemand s f h := rfl

theorem asked_eq (s : State) (f : Furnace) : asked s f = requestOf s f := by
  unfold asked requestOf
  cases heatOf s f with
  | none => rfl
  | some h =>
    dsimp only
    unfold heatClass
    cases h.state <;> cases h.estimate <;> simp [holdAsked_eq, floor10]

theorem askingClass_eq (s : State) (f : Furnace) : askingClass s f = slotClass s f := by
  unfold askingClass slotClass
  cases heatOf s f with
  | none => rfl
  | some h =>
    dsimp only
    unfold heatClass
    cases h.state <;> cases h.estimate <;> simp

theorem boundsOn_eq (s : State) (f : Furnace) :
    boundsOn s f = (.outputMax, floor10 (outputMax s f)) :: conditionalBounds s f := by
  have cooling : coolingBound s f
      = boundIf ((circuitOf s (coilOf f)).state = .init ∨ (circuitOf s (coilOf f)).state = .trip
            ∨ (circuitOf s .cabinet).state = .init ∨ (circuitOf s .cabinet).state = .trip) .cooling 0
        ++ boundIf (¬ ((circuitOf s (coilOf f)).state = .init ∨ (circuitOf s (coilOf f)).state = .trip
            ∨ (circuitOf s .cabinet).state = .init ∨ (circuitOf s .cabinet).state = .trip)
            ∧ ((circuitOf s (coilOf f)).state = .derate ∨ (circuitOf s .cabinet).state = .derate)) .cooling
            (outputMax s f * deratePct s / 100 / 10 * 10) := by
    unfold coolingBound boundIf
    dsimp only
    split
    · next h => simp [h]
    · next h => simp only [h, not_false_iff, true_and, List.nil_append]; rfl
  have stage : stageBound s f
      = boundIf (s.stage.last.any (fun r => (r.out.get f).status == .fault) = true) .stage 0 := by
    unfold stageBound boundIf
    cases s.stage.last <;> simp
  have link : linkBound s = boundIf (s.stage.link ≠ .up) .link 0 := by
    unfold linkBound boundIf
    split
    · next h => simp [h]
    · next h => simp
  have tilt : tiltBound s f
      = boundIf (tiltOf s f = .back) .tilt (tapCap s / 10 * 10)
        ++ boundIf ((tiltOf s f = .forward ∨ tiltOf s f = .invalid) ∧ grantedFor s f = false) .tilt 0 := by
    unfold tiltBound boundIf
    cases tiltOf s f <;> cases grantedFor s f <;> simp [floor10]
  have permit : permitBound s f
      = boundIf (pendingFor s f = true ∨ (heatOf s f).any (fun h => h.state == .tapping) = true) .permit
          (tapCap s / 10 * 10) := by
    unfold permitBound boundIf isTapping
    cases heatOf s f <;> simp [floor10]
  have shop : shopBound s f
      = boundIf (s.shop.state = .supplyOff ∨ s.shop.state = .held ∨ s.shop.state = .banked ∧ askingClass s f = .melt)
          .shop 0
        ++ boundIf (s.shop.state = .banked ∧ askingClass s f ≠ .melt) .shop (bankCap s / 10 * 10) := by
    rw [askingClass_eq]
    unfold shopBound boundIf
    cases s.shop.state <;> by_cases c : slotClass s f = .melt <;> simp [c, floor10]
  have stopped : stoppedBound s f = boundIf ((s.heat.slots.get f).stopped = true) .stopped 0 := by
    unfold stoppedBound boundIf
    rfl
  unfold boundsOn conditionalBounds
  dsimp only
  rw [cooling, stage, link, tilt, permit, shop, stopped]
  simp only [List.append_assoc, List.cons_append, List.nil_append]
  rfl

/-- The smallest bound is the pulse ceiling of the claim. -/
theorem smallest_boundsOn (s : State) (f : Furnace) : smallest (boundsOn s f) = (claimOf s f).pulseCeiling := by
  rw [boundsOn_eq]
  show ((conditionalBounds s f).map Prod.snd).foldl min (floor10 (outputMax s f)) = _
  rw [foldl_min_snd]
  rfl

theorem limitedBy_eq (s : State) (f : Furnace) (available : Nat) :
    limitedBy s f (claimOf s f).cap (min (claimOf s f).cap available) available
      = (claimOf s f).limitingFactor available := by
  unfold limitedBy Claim.limitingFactor
  dsimp only
  rw [smallest_boundsOn]
  have all : firstWith (claimOf s f).cap ((.request, asked s f) :: boundsOn s f) = (claimOf s f).capFactor := by
    rw [firstWith_eq, boundsOn_eq, asked_eq]
    rfl
  have bounds : firstWith (claimOf s f).pulseCeiling (boundsOn s f)
      = factorAt (claimOf s f).pulseCeiling ((.outputMax, (claimOf s f).outMax) :: (claimOf s f).bounds) := by
    rw [firstWith_eq, boundsOn_eq]
    rfl
  rw [all, bounds]
  simp only [and_assoc]
  rfl

/-- The record a computation leaves meets the rule of its output, on any state that gives the same claim. -/
theorem outputRule_update {s : State} {f : Furnace} {old : AllotRec} {available : Nat}
    (r : s.allot.out.get f = old.update (claimOf s f) available) : OutputRule s f available := by
  unfold OutputRule
  dsimp only
  rw [r, smallest_boundsOn, asked_eq, askingClass_eq]
  have least : minCont s f = (claimOf s f).minCont := rfl
  have request : requestOf s f = (claimOf s f).request := rfl
  have cls : slotClass s f = (claimOf s f).cls := rfl
  have factor := limitedBy_eq s f available
  rw [least, request, cls]
  generalize claimOf s f = c at *
  have cap : c.cap = min c.request c.pulseCeiling := rfl
  unfold AllotRec.update
  dsimp only
  generalize hs : c.share available = sh
  unfold Claim.share at hs
  dsimp only at hs
  split at hs
  · next z =>
    subst hs
    refine ⟨rfl, rfl, cap, rfl, factor.symm, ?_, ?_, ?_, ?_, ?_, ?_⟩ <;> simp [z]
  · next nz =>
    split at hs
    · next le =>
      subst hs
      refine ⟨rfl, rfl, cap, rfl, factor.symm, ?_, ?_, ?_, ?_, ?_, ?_⟩ <;> simp
      · omega
      · omega
    · next gt =>
      split at hs
      · next p =>
        subst hs
        by_cases was : old.mode = .pulse
        · simp only [was, if_true]
          refine ⟨trivial, trivial, cap, trivial, factor.symm, ?_, ?_, ?_, ?_, ?_, ?_⟩ <;> simp
          · omega
          · exact ⟨by omega, by omega, p.1, p.2.1, by omega⟩
        · simp only [was, if_false]
          refine ⟨trivial, trivial, cap, trivial, factor.symm, ?_, ?_, ?_, ?_, ?_, ?_⟩ <;> simp
          · omega
          · exact ⟨by omega, by omega, p.1, p.2.1, by omega⟩
      · next np =>
        subst hs
        refine ⟨rfl, rfl, cap, rfl, factor.symm, ⟨fun n => (by cases n), fun n => absurd n.2 gt⟩,
          ⟨fun n => (by cases n), fun n => absurd n.2.2 np⟩, fun _ => ⟨rfl, rfl⟩, fun n => (by cases n),
          fun n => (by cases n), fun _ => ⟨rfl, rfl, rfl, rfl⟩⟩

theorem priorityRule_of {s : State} (h : s.allot.priority = priorityOutput s) : PriorityRule s := by
  unfold PriorityRule
  dsimp only
  rw [askingClass_eq, askingClass_eq, h]
  unfold priorityOutput
  dsimp only
  split
  · next lt => exact Or.inl lt
  · split
    · next lt => exact Or.inl lt
    · split
      · next z =>
        refine Or.inr (Or.inr ⟨?_, Or.inl z, rfl⟩)
        simp only [otherFurnace]
        omega
      · split
        · next lt =>
          refine Or.inr (Or.inl ⟨?_, ?_, lt⟩)
          · simp only [otherFurnace]; omega
          · omega
        · next ge =>
          simp only [otherFurnace]
          by_cases same : stampOf s .a = stampOf s .b
          · exact Or.inr (Or.inr ⟨by omega, Or.inr same, trivial⟩)
          · exact Or.inr (Or.inl ⟨by omega, by omega, by omega⟩)

/-- The result of a computation is current on its own state (R59). -/
theorem computed_current (s : State) (st : Stage) (h : StageHanded s.stage st) :
    BudgetRule { s with allot := computed s, stage := st }
      ∧ AllotmentRule { s with allot := computed s, stage := st } := by
  have claim : ∀ f, claimOf { s with allot := computed s, stage := st } f = claimOf s f :=
    fun f => claimOf_congr f s (computed s) st (computed_computed s) h
  refine ⟨⟨rfl, rfl⟩, priorityRule_of rfl, ?_, ?_⟩
  · show OutputRule _ (priorityOutput s) (budgetW s)
    apply outputRule_update (old := s.allot.out.get (priorityOutput s))
    rw [claim]
    show (computed s).out.get _ = _
    rw [computed_eq]
    exact (PerFurnace.get_set_other _ _ (otherFurnace_ne _).symm).trans (PerFurnace.get_set_same _ _ _)
  · show OutputRule _ (otherFurnace (priorityOutput s))
      (budgetW s - ((computed s).out.get (priorityOutput s)).reserve)
    have first : (computed s).out.get (priorityOutput s)
        = (s.allot.out.get (priorityOutput s)).update (claimOf s (priorityOutput s)) (budgetW s) := by
      rw [computed_eq]
      exact (PerFurnace.get_set_other _ _ (otherFurnace_ne _).symm).trans (PerFurnace.get_set_same _ _ _)
    apply outputRule_update (old := s.allot.out.get (otherFurnace (priorityOutput s)))
    rw [claim, first]
    show (computed s).out.get _ = _
    rw [computed_eq]
    exact PerFurnace.get_set_same _ _ _

theorem allocate_frame (s : State) :
    allocate s = { s with allot := (allocate s).allot, stage := (allocate s).stage }
      ∧ AllotmentComputed s.allot (allocate s).allot ∧ StageHanded s.stage (allocate s).stage := by
  unfold allocate
  split
  · exact ⟨rfl, AllotmentComputed.refl _, StageHanded.refl _⟩
  · obtain ⟨f, h⟩ := putAllotment_frame (computed s) s
    refine ⟨?_, ?_, h⟩
    · rw [f]
    · rw [f]
      exact computed_computed s

theorem allocate_current (s : State) (l : loading s = false) : AllotmentCurrent (allocate s) := by
  obtain ⟨f, h⟩ := putAllotment_frame (computed s) s
  have e : allocate s = putAllotment (computed s) s := by unfold allocate; simp [l]
  rw [e, f]
  unfold AllotmentCurrent
  have l' : loading { s with allot := computed s, stage := (putAllotment (computed s) s).stage } = false := l
  obtain ⟨b, c⟩ := computed_current s _ h
  refine ⟨b, ?_⟩
  rw [if_neg (by rw [l']; decide)]
  exact c

/-- The computation keeps every output in PULSE mode to its period (R43). -/
theorem allocate_pulse (s : State) (h : ∀ f, PulseRule (s.allot.out.get f)) :
    ∀ f, PulseRule ((allocate s).allot.out.get f) := by
  unfold allocate
  split
  · exact h
  · intro f
    have records : (putAllotment (computed s) s).allot = computed s := by rw [(putAllotment_frame (computed s) s).1]
    rw [records, computed_eq]
    dsimp only
    generalize priorityOutput s = p
    rcases furnace_cases p f with e | e
    · subst e
      rw [PerFurnace.get_set_other _ _ (otherFurnace_ne f).symm, PerFurnace.get_set_same]
      exact AllotRec.update_pulseRule _ _ (h _)
    · subst e
      rw [PerFurnace.get_set_same]
      exact AllotRec.update_pulseRule _ _ (h _)

theorem allocate_handed (s : State) (h : PairHandedOver s) : PairHandedOver (allocate s) := by
  unfold allocate
  split
  · exact h
  · exact putAllotment_handed _ _ h

/-- A computation from a state under the pair and the pulse rule leaves the power law. -/
theorem allocate_powerLaw (s : State) (working : loading s = false) (handed : PairHandedOver s)
    (pulse : ∀ f, PulseRule (s.allot.out.get f)) : PowerLaw (allocate s) :=
  ⟨allocate_current s working, allocate_handed s handed, allocate_pulse s pulse⟩

/-- The allotment is read from these parts of the state alone. -/
theorem AllotmentCurrent.congr {s t : State} (h : AllotmentCurrent s) (heat : t.heat = s.heat)
    (allot : t.allot = s.allot) (shop : t.shop.state = s.shop.state) (link : t.stage.link = s.stage.link)
    (last : t.stage.last = s.stage.last) (circuits : t.prot.circuits = s.prot.circuits)
    (permit : t.tap.permit = s.tap.permit) (tilt : t.tap.tilt = s.tap.tilt) (sett : t.sett = s.sett) :
    AllotmentCurrent t := by
  unfold AllotmentCurrent BudgetRule AllotmentRule PriorityRule OutputRule limitedBy boundsOn askingClass asked holdAsked
    stampOf heatOf slotOf circuitOf tiltOf grantedFor pendingFor loading supplyRating shedCeiling demandCeiling outputMax
    minCont tapCap bankCap deratePct bankTarget lossKw effPct holdGain setting at *
  rw [heat, allot, shop, link, last, circuits, permit, tilt, sett]
  exact h

/-! ### The follow-up of a change -/

theorem setBudget_budget (s : State) : BudgetRule (setBudget s) := ⟨rfl, rfl⟩

/-- What the follow-up of a change may change; matching has run when an event asked for it. -/
theorem coordinate_frame (s : State) :
    coordinate s = { s with
        allot := (coordinate s).allot, stage := (coordinate s).stage, tap := (coordinate s).tap,
        ports := (coordinate s).ports }
      ∧ AllotmentComputed s.allot (coordinate s).allot ∧ StageHanded s.stage (coordinate s).stage
      ∧ TapMatched s.tap (coordinate s).tap ∧ AssignedFrom s (coordinate s)
      ∧ PortsNoted matchKinds s (coordinate s) ∧ TiltNoticed s (coordinate s)
      ∧ (s.tap.matchDue = true → Matched (coordinate s)) := by
  unfold coordinate
  obtain ⟨⟨f1, t1, q1, k1, a1, n1⟩, m1⟩ := matchIfDue_run s
  generalize matchIfDue s = x1 at *
  obtain ⟨f2, t2, n2, ti2⟩ := evalTilt_spec x1
  generalize evalTilt x1 = x2 at *
  obtain ⟨f3, c3, h3⟩ := allocate_frame x2
  generalize allocate x2 = x3 at *
  have al : x2.allot = s.allot := by rw [f2, f1]
  have st : x2.stage = s.stage := by rw [f2, f1]
  have tap3 : x3.tap = x2.tap := by rw [f3]
  have ports3 : x3.ports = x2.ports := by rw [f3]
  have heat2 : x2.heat = x1.heat := by rw [f2]
  have heat3 : x3.heat = x2.heat := by rw [f3]
  have sett2 : x2.sett = x1.sett := by rw [f2]
  have sett3 : x3.sett = x2.sett := by rw [f3]
  have queue : x3.tap.queue = x1.tap.queue := by rw [tap3, t2]
  have kept : x3.tap.kept = x1.tap.kept := by rw [tap3, t2]
  have permit : x3.tap.permit = s.tap.permit := by rw [tap3, t2, t1]
  have unp : x1.tap.unpermitted = s.tap.unpermitted := by rw [t1]
  have car : x1.tap.tiltCarried = s.tap.tiltCarried := by rw [t1]
  have heat : x3.heat = x1.heat := heat3.trans heat2
  have sett : x3.sett = x1.sett := sett3.trans sett2
  refine ⟨by rw [f3, f2, f1], by rw [← al]; exact c3, by rw [← st]; exact h3, ⟨?_, by rw [queue]; exact q1, ?_⟩, ?_, ?_,
    ?_, fun due => (m1 due).congr heat sett queue⟩
  · rw [tap3, t2, t1]
  · intro f
    have k := k1 f
    unfold KeptMatched at *
    rw [kept, queue]
    exact k
  · intro e he f hf
    rw [queue] at he ⊢
    rcases a1 e he f hf with ⟨h, -⟩ | ⟨x, hx, ex, fx, takes, noted⟩
    · exact Or.inl ⟨h, fun p hp _ => by rw [permit, hp]; rfl⟩
    · refine Or.inr ⟨x, hx, ex, fx, takes.congr heat sett ⟨rfl, rfl, rfl, rfl⟩, ?_⟩
      have call : tapCallOf x3 x f = tapCallOf x1 x f := by
        unfold tapCallOf heatNumber heatOf slotOf
        rw [heat]
      rw [call]
      exact (noted.keep n2 (by simp [tapCallOf, Detail.kind])).keep (kinds := []) (PortsNoted.of_eq ports3) (by simp)
  · exact ((n1.mono (by simp [matchKinds])).trans (n2.mono (by simp [matchKinds]))).trans (PortsNoted.of_eq ports3)
  · obtain ⟨i1, i2⟩ := ti2
    unfold TiltNoticed UnpermittedTilt TiltPending tiltOf grantedFor at *
    rw [tap3, ports3, ← unp, ← car]
    exact ⟨i1, i2⟩

/-- Matching, the tilt evaluation and the allotment change what `Coordinated` says, and leave the allotment current. -/
theorem coordinate_coordinated (s : State) (l : loading s = false) : Coordinated [] s (coordinate s) := by
  obtain ⟨f, c, h, m, a, n, ti, -⟩ := coordinate_frame s
  refine ⟨f, c, h, m, a, n, ti, ?_⟩
  unfold coordinate
  apply allocate_current
  have f1 := (matchIfDue_run s).1.1
  have f2 := (evalTilt_spec (matchIfDue s)).1
  have e : (evalTilt (matchIfDue s)).sett = s.sett := by rw [f2, f1]
  unfold loading at *
  rw [e]
  exact l

theorem recompute_coordinated (s : State) (l : loading s = false) : Coordinated [] s (recompute s) := by
  unfold recompute
  rw [if_neg (by rw [l]; decide)]
  exact coordinate_coordinated s l

theorem recompute_loading (s : State) (l : loading s = true) : recompute s = s := by
  unfold recompute
  rw [if_pos l]

/-- A notice posted before the follow-up stays, unless it is one the follow-up can post. -/
theorem recompute_noted (s : State) : PortsNoted matchKinds s (recompute s) := by
  unfold recompute
  split
  · exact PortsNoted.refl _ s
  · exact (coordinate_frame s).2.2.2.2.2.1

end Sys2Proof.Machine
end

