-- ==== Sys2Proof/Laws/Matching.lean ====
section
/-! SUPPORT. When matching is asked for (R122): an operation that moves a heat into or out of TAP_READY, returns an ASSIGNED
entry or ends the permit leaves the request to match, and the follow-up grants it. -/

namespace Sys2Proof.Machine

/-- A request to match stands through an operation, and an event of R122 leaves one. -/
def MatchKept (s t : State) : Prop :=
  (s.tap.matchDue = true → t.tap.matchDue = true) ∧ (MatchingEvent s t → t.tap.matchDue = true)

/-- Matching has run where it was asked for, and where an event of R122 lies between. -/
def MatchServed (s t : State) : Prop := (s.tap.matchDue = true → Matched t) ∧ MatchingFollows s t

theorem isTapReady_congr {s t : State} {f : Furnace} (h : heatOf t f = heatOf s f) : isTapReady t f = isTapReady s f := by
  unfold isTapReady
  rw [h]

/-- Where no heat, no entry and no permit has changed there is no event of R122. -/
theorem no_event {s t : State} (ready : ∀ f, isTapReady t f = isTapReady s f)
    (queue : ∀ e ∈ s.tap.queue, e.assigned.isSome = true → e ∈ t.tap.queue) (permit : t.tap.permit = s.tap.permit) :
    ¬ MatchingEvent s t := by
  rintro (⟨f, n⟩ | ⟨e, he, a, n⟩ | ⟨held, gone⟩)
  · exact n (ready f)
  · exact n (queue e he a)
  · rw [permit] at gone
    rw [gone] at held
    cases held

theorem MatchingEvent.split {s t u : State} (h : MatchingEvent s u) : MatchingEvent s t ∨ MatchingEvent t u := by
  rcases h with ⟨f, n⟩ | ⟨e, he, a, n⟩ | ⟨held, gone⟩
  · by_cases m : isTapReady t f = isTapReady s f
    · exact Or.inr (Or.inl ⟨f, by rw [m]; exact n⟩)
    · exact Or.inl (Or.inl ⟨f, m⟩)
  · by_cases m : e ∈ t.tap.queue
    · exact Or.inr (Or.inr (Or.inl ⟨e, m, a, n⟩))
    · exact Or.inl (Or.inr (Or.inl ⟨e, he, a, m⟩))
  · cases p : t.tap.permit with
    | none => exact Or.inl (Or.inr (Or.inr ⟨held, p⟩))
    | some _ => exact Or.inr (Or.inr (Or.inr ⟨by rw [p]; rfl, gone⟩))

theorem MatchKept.of_due {s t : State} (h : t.tap.matchDue = true) : MatchKept s t := ⟨fun _ => h, fun _ => h⟩

theorem MatchKept.of_same {s t : State} (tap : t.tap = s.tap) (ready : ∀ f, isTapReady t f = isTapReady s f) :
    MatchKept s t :=
  ⟨fun h => by rw [tap]; exact h,
    fun h => absurd h (no_event ready (fun _ he _ => by rw [tap]; exact he) (by rw [tap]))⟩

theorem MatchKept.refl (s : State) : MatchKept s s := MatchKept.of_same rfl fun _ => rfl

theorem MatchKept.trans {s t u : State} (h : MatchKept s t) (g : MatchKept t u) : MatchKept s u :=
  ⟨fun d => g.1 (h.1 d), fun e => e.split.elim (fun e => g.1 (h.2 e)) g.2⟩

/-- An operation before a follow-up that grants the request. -/
theorem MatchKept.served {s t u : State} (h : MatchKept s t) (g : MatchServed t u) : MatchServed s u :=
  ⟨fun d => g.1 (h.1 d), fun e => e.split.elim (fun e => g.1 (h.2 e)) g.2⟩

/-- What is read from the heats, the queue and the permit alone. -/
theorem MatchingFollows.congr {s s' t : State} (h : MatchingFollows s t) (heat : s'.heat = s.heat) (tap : s'.tap = s.tap) :
    MatchingFollows s' t := by
  have ready : ∀ f, isTapReady s' f = isTapReady s f := fun f => by
    unfold isTapReady heatOf slotOf
    rw [heat]
  intro e
  unfold MatchingEvent at e
  rw [tap] at e
  simp only [ready] at e
  exact h e

theorem MatchingFollows.refl (s : State) : MatchingFollows s s := fun e =>
  absurd e (no_event (fun _ => rfl) (fun _ he _ => he) rfl)

/-! ### The queue's work -/

theorem post_matchKept (d : Detail) (s : State) : MatchKept s (post d s) := MatchKept.of_same rfl fun _ => rfl

theorem askMatching_matchKept (s : State) : MatchKept s (askMatching s) := MatchKept.of_due rfl

theorem returnEntry_matchDue (id : Nat) (s : State) (h : s.tap.matchDue = true) :
    (returnEntry id s).tap.matchDue = true := by
  unfold returnEntry
  split
  · split <;> rfl
  · exact h

/-- The end of a pending permit asks for matching (R127). -/
theorem refusePermit_matchDue (p : Permit) (r : Reason) (remove : Bool) (s : State) :
    (refusePermit p r remove s).tap.matchDue = true := by
  unfold refusePermit
  dsimp only
  split
  · rfl
  · exact returnEntry_matchDue _ _ rfl

theorem endAssignment_matchKept (f : Furnace) (r : Reason) (s : State) : MatchKept s (endAssignment f r s) := by
  unfold endAssignment
  split
  · exact MatchKept.of_due (refusePermit_matchDue _ _ _ _)
  · split
    · exact MatchKept.refl s
    · split
      · exact MatchKept.of_due rfl
      · exact MatchKept.refl s

theorem leaveReady_matchKept (f : Furnace) (r : Reason) (s : State) : MatchKept s (leaveReady f r s) := MatchKept.of_due rfl

/-! ### The evaluations -/

theorem isTapReady_setHeat (f : Furnace) (h : Heat) (s : State) :
    isTapReady (setHeat f h s) f = (h.state == .tapReady)
      ∧ isTapReady (setHeat f h s) (otherFurnace f) = isTapReady s (otherFurnace f) := by
  constructor
  · unfold isTapReady
    rw [heatOf_setHeat_same]
  · apply isTapReady_congr
    unfold heatOf slotOf setHeat setSlot setFurnaceSlot
    dsimp only
    rw [PerFurnace.get_set_otherFurnace]

/-- A heat written back is no event of R122 while it stays in TAP_READY or out of it. -/
theorem setHeat_matchKept {f : Furnace} {h h' : Heat} {s : State} (e : heatOf s f = some h)
    (same : h'.state = .tapReady ↔ h.state = .tapReady) : MatchKept s (setHeat f h' s) := by
  refine MatchKept.of_same rfl fun g => ?_
  obtain ⟨mine, other⟩ := isTapReady_setHeat f h' s
  rcases furnace_cases f g with x | x
  · subst x
    rw [mine]
    unfold isTapReady
    rw [e]
    exact Bool.eq_iff_iff.mpr (by simpa using same)
  · subst x
    exact other

/-- What follows a revision: a heat that has left TAP_READY asks for matching. -/
theorem afterRevision_matchKept (f : Furnace) (old new : Heat) (s : State) :
    MatchKept s (afterRevision f old new s)
      ∧ (old.state = .tapReady → new.state ≠ .tapReady → (afterRevision f old new s).tap.matchDue = true) := by
  unfold afterRevision
  dsimp only
  have first : MatchKept s (if (new.freeze && !old.freeze) = true then post (.freeze f new.number) s else s) := by
    split
    · exact post_matchKept _ s
    · exact MatchKept.refl s
  split
  · exact ⟨MatchKept.of_due rfl, fun _ _ => rfl⟩
  · next n => exact ⟨first, fun was is => absurd ⟨was, is⟩ n⟩

/-- R10 moves no heat into TAP_READY. -/
theorem liquidEval_tapReady (s : State) (h : Heat) (r : (liquidEval s h).state = .tapReady) : h.state = .tapReady := by
  unfold liquidEval at r
  split at r
  · exact r
  · split at r
    · next hs => split at r <;> simp [hs] at r
    · next hs => split at r <;> simp [hs] at r
    · next hs => exact hs
    · exact r
    · exact r

/-- A heat changed and evaluated by R10 leaves the request to match where it leaves TAP_READY: from the state before, and
from the state with the change written in. -/
theorem reviseHeat_matchKept {f : Furnace} {h : Heat} {s : State} (g : Heat → Heat) (e : heatOf s f = some h)
    (reaches : (g h).state = .tapReady → h.state = .tapReady) :
    MatchKept s (reviseHeat f g s) ∧ MatchKept (setHeat f (g h) s) (reviseHeat f g s) := by
  have state : (restamp (now s) h (liquidEval s (g h))).state = (liquidEval s (g h)).state := by
    unfold restamp
    split <;> rfl
  have back := liquidEval_tapReady s (g h)
  have eq : reviseHeat f g s = afterRevision f h (restamp (now s) h (liquidEval s (g h)))
      (setHeat f (restamp (now s) h (liquidEval s (g h))) s) := by
    unfold reviseHeat
    rw [e]
  have twice : ∀ x, setHeat f x (setHeat f (g h) s) = setHeat f x s := fun x => by
    unfold setHeat setSlot setFurnaceSlot
    simp
  rw [eq]
  rw [← state] at back
  generalize restamp (now s) h (liquidEval s (g h)) = new at *
  obtain ⟨after, left⟩ := afterRevision_matchKept f h new (setHeat f new s)
  by_cases now' : new.state = .tapReady
  · refine ⟨(setHeat_matchKept e ⟨fun _ => reaches (back now'), fun _ => now'⟩).trans after, ?_⟩
    have put := setHeat_matchKept (heatOf_setHeat_same f (g h) s) (h' := new) ⟨fun _ => back now', fun _ => now'⟩
    rw [twice] at put
    exact put.trans after
  · by_cases was : h.state = .tapReady
    · exact ⟨MatchKept.of_due (left was now'), MatchKept.of_due (left was now')⟩
    · refine ⟨(setHeat_matchKept e ⟨fun n => absurd n now', fun n => absurd n was⟩).trans after, ?_⟩
      have put := setHeat_matchKept (heatOf_setHeat_same f (g h) s) (h' := new)
        ⟨fun n => absurd n now', fun n => absurd (reaches n) was⟩
      rw [twice] at put
      exact put.trans after

theorem evalLiquid_matchKept (f : Furnace) (s : State) : MatchKept s (evalLiquid f s) := by
  unfold evalLiquid
  cases e : heatOf s f with
  | none =>
    unfold reviseHeat
    rw [e]
    exact MatchKept.refl s
  | some h => exact (reviseHeat_matchKept id e id).1

/-- R11 asks for matching whenever it moves the heat. -/
theorem evalReady_matchKept (f : Furnace) (s : State) : MatchKept s (evalReady f s) := by
  unfold evalReady
  split
  · exact MatchKept.refl s
  · split
    · exact MatchKept.of_due rfl
    · split
      · exact MatchKept.of_due rfl
      · exact MatchKept.refl s

theorem evalHeat_matchKept (f : Furnace) (s : State) : MatchKept s (evalHeat f s) :=
  (evalLiquid_matchKept f s).trans (evalReady_matchKept f _)

theorem evalHeats_matchKept (s : State) : MatchKept s (evalHeats s) :=
  (evalHeat_matchKept .a s).trans (evalHeat_matchKept .b _)

theorem floorWake_matchKept (s : State) : MatchKept s (floorWake s) := by
  unfold floorWake
  split
  · exact MatchKept.trans (t := setShop .run .floor s) (MatchKept.of_same rfl fun _ => rfl) (evalHeats_matchKept _)
  · exact MatchKept.refl s

/-! ### The end of a heat -/

theorem endDip_matchKept (f : Furnace) (r : DipFailure) (s : State) : MatchKept s (endDip f r s) := by
  unfold endDip
  split
  · exact MatchKept.of_same rfl fun _ => rfl
  · exact MatchKept.refl s

/-! ### The follow-up -/

/-- Matching leaves an ASSIGNED entry in its place (R122). -/
theorem matchIfDue_assigned (s : State) : ∀ e ∈ s.tap.queue, e.assigned.isSome = true → e ∈ (matchIfDue s).tap.queue := by
  intro e he a
  unfold matchIfDue
  split
  · unfold runMatching
    rw [if_pos (List.any_eq_true.mpr ⟨e, he, a⟩)]
    exact he
  · exact he

/-- The follow-up grants the request to match, and makes no event of R122 itself. -/
theorem coordinate_served (s : State) : MatchServed s (coordinate s) := by
  obtain ⟨f, -, -, m, -, -, -, due⟩ := coordinate_frame s
  have heat : (coordinate s).heat = s.heat := by rw [f]
  have queue : (coordinate s).tap.queue = (matchIfDue s).tap.queue := by
    unfold coordinate
    rw [(allocate_frame _).1]
    dsimp only
    rw [(evalTilt_spec _).2.1]
  refine ⟨due, fun e => absurd e (no_event (fun g => isTapReady_congr (by unfold heatOf slotOf; rw [heat]))
    (fun e he a => by rw [queue]; exact matchIfDue_assigned s e he a) ?_)⟩
  rw [m.1]

theorem settleHeat_served (f : Furnace) (s : State) (l : loading s = false) : MatchServed s (settleHeat f s) := by
  unfold settleHeat
  rw [if_neg (by rw [l]; decide)]
  exact ((evalHeat_matchKept f s).trans (floorWake_matchKept _)).served (coordinate_served _)

theorem settleAll_served (s : State) (l : loading s = false) : MatchServed s (settleAll s) := by
  unfold settleAll
  rw [if_neg (by rw [l]; decide)]
  exact ((evalHeats_matchKept s).trans (floorWake_matchKept _)).served (coordinate_served _)

end Sys2Proof.Machine
end

