-- ==== Sys2Proof/Laws/Settle.lean ====
section
/-! SUPPORT. What the evaluations of a heat and the settling of a step give: the frame `Evaluated` before the follow-up,
the frame `Settled` with it, readiness and the liquid state as R10 and R11 have them, and the notices of R11. -/

namespace Sys2Proof.Machine

/-! ### What the evaluations read -/

/-- Two states agree in what the evaluations of a heat read beside the heat. -/
def SameInputs (s t : State) : Prop :=
  t.clock = s.clock ∧ t.sett = s.sett ∧ t.prot = s.prot ∧ t.shop.state = s.shop.state ∧ t.tap.tilt = s.tap.tilt

theorem SameInputs.refl (s : State) : SameInputs s s := ⟨rfl, rfl, rfl, rfl, rfl⟩

theorem SameInputs.trans {s t u : State} (h : SameInputs s t) (g : SameInputs t u) : SameInputs s u :=
  ⟨g.1.trans h.1, g.2.1.trans h.2.1, g.2.2.1.trans h.2.2.1, g.2.2.2.1.trans h.2.2.2.1, g.2.2.2.2.trans h.2.2.2.2⟩

theorem targetInForce_congr {n : Nat} {s t : State} {h h' : Heat} (i : SameInputs s t) (e : HeatMoved n h h') :
    targetInForce t h' = targetInForce s h := by
  obtain ⟨-, se, -, sh, -⟩ := i
  have target : h'.holdTarget = h.holdTarget := by rw [e.1]
  unfold targetInForce bankTarget setting
  rw [se, sh, target]

theorem readyCond_congr {n : Nat} {s t : State} {h h' : Heat} (f : Furnace) (i : SameInputs s t)
    (e : HeatMoved n h h') : readyCond t f h' = readyCond s f h := by
  obtain ⟨cl, se, pr, sh, ti⟩ := i
  unfold readyCond dipFresh now dipMaxAge heelMin setting circuitInOrder circuitOf tiltOf
  rw [cl, se, pr, sh, ti, e.1]

theorem returnBand_congr {s t : State} (i : SameInputs s t) : returnBand t = returnBand s := by
  unfold returnBand setting
  rw [i.2.1]

theorem heatOf_congr {s t : State} {f : Furnace} (h : (t.heat.slots.get f).slot = (s.heat.slots.get f).slot) :
    heatOf t f = heatOf s f := by
  unfold heatOf slotOf
  rw [h]

/-- A heat's standing is read from its slot and the inputs. -/
theorem EvaluatedNow.congr {f : Furnace} {s t : State} (h : EvaluatedNow f s) (i : SameInputs s t)
    (slot : t.heat.slots.get f = s.heat.slots.get f) : EvaluatedNow f t := by
  have e : heatOf t f = heatOf s f := heatOf_congr (by rw [slot])
  obtain ⟨r, l⟩ := h
  constructor
  · intro x hx
    rw [e] at hx
    rw [readyCond_congr f i (HeatMoved.refl 0 x)]
    exact r x hx
  · intro x hx est hest
    rw [e] at hx
    rw [targetInForce_congr i (HeatMoved.refl 0 x), returnBand_congr i]
    exact l x hx est hest

/-! ### The queue's work -/

/-- A Tap Coordinator in which at most a pending permit has been refused (R11, R127): entries have only lost their
assignment or returned. -/
def TapRefused (second : Nat) (x y : Tap) : Prop :=
  (y.nextId = x.nextId ∧ y.lastEnded = x.lastEnded ∧ y.tilt = x.tilt ∧ y.unpermitted = x.unpermitted
      ∧ y.tiltCarried = x.tiltCarried)
    ∧ (∀ e ∈ y.queue, e.assigned.isSome = true → e ∈ x.queue)
    ∧ ((y.permit = x.permit ∧ entriesOf y.queue = entriesOf x.queue ∧ ∀ f, y.kept.get f = x.kept.get f)
      ∨ ∃ p, x.permit = some p ∧ p.state = .pending ∧ y.permit = none
        ∧ (∀ e ∈ y.queue, e.id = p.requestId → e.assigned = none)
        ∧ entriesOf y.queue = entriesReturned p.requestId second (entriesOf x.queue)
        ∧ ∀ f, y.kept.get f = x.kept.get f
            ∨ p.furnace = f ∧ (y.kept.get f = some .notReady ∨ y.kept.get f = some .cancelled))

theorem TapRefused.refl (second : Nat) (x : Tap) : TapRefused second x x :=
  ⟨⟨rfl, rfl, rfl, rfl, rfl⟩, fun _ h _ => h, Or.inl ⟨rfl, rfl, fun _ => rfl⟩⟩

theorem TapRefused.trans {second : Nat} {x y z : Tap} (h : TapRefused second x y) (g : TapRefused second y z) :
    TapRefused second x z := by
  obtain ⟨⟨h1, h2, h3, h4, h5⟩, hq, hp⟩ := h
  obtain ⟨⟨g1, g2, g3, g4, g5⟩, gq, gp⟩ := g
  refine ⟨⟨g1.trans h1, g2.trans h2, g3.trans h3, g4.trans h4, g5.trans h5⟩,
    fun e he a => hq e (gq e he a) a, ?_⟩
  rcases hp with ⟨p1, p2, p3⟩ | ⟨p, p1, p2, p3, pw, p4, p5⟩
  · rcases gp with ⟨r1, r2, r3⟩ | ⟨p, r1, r2, r3, rw', r4, r5⟩
    · exact Or.inl ⟨r1.trans p1, r2.trans p2, fun f => (r3 f).trans (p3 f)⟩
    · exact Or.inr ⟨p, by rw [← p1]; exact r1, r2, r3, rw', by rw [← p2]; exact r4, fun f => by rw [← p3]; exact r5 f⟩
  · rcases gp with ⟨r1, r2, r3⟩ | ⟨p', r1, -⟩
    · refine Or.inr ⟨p, p1, p2, r1.trans p3, fun e he same => ?_, r2.trans p4, fun f => by rw [r3]; exact p5 f⟩
      cases a : e.assigned with
      | none => rfl
      | some f =>
        have stood := pw e (gq e he (by rw [a]; rfl)) same
        rw [a] at stood
        cases stood
    · rw [p3] at r1
      cases r1

/-- A refusal, and then what a follow-up may change, stand in the frame of the statements. -/
theorem TapRefused.evaluated {second : Nat} {x y z : Tap} (h : TapRefused second x y) (g : TapEvaluated second y z) :
    TapEvaluated second x z := by
  obtain ⟨⟨h1, h2, h3, -, -⟩, -, hp⟩ := h
  obtain ⟨g1, g2, g3, gp⟩ := g
  refine ⟨g1.trans h1, g2.trans h2, g3.trans h3, ?_⟩
  have kept : ∀ {f}, KeptMatched f y z → y.kept.get f = x.kept.get f → KeptMatched f x z := by
    intro f k e
    unfold KeptMatched at *
    rw [← e]
    exact k
  rcases hp with ⟨p1, p2, p3⟩ | ⟨p, p1, p2, p3, -, p4, p5⟩
  · rcases gp with ⟨r1, r2, r3⟩ | ⟨p, r1, r2, r3, r4, r5⟩
    · exact Or.inl ⟨r1.trans p1, r2.trans p2, fun f => kept (r3 f) (p3 f)⟩
    · refine Or.inr ⟨p, by rw [← p1]; exact r1, r2, r3, by rw [← p2]; exact r4, fun f => ?_⟩
      rcases r5 f with k | k
      · exact Or.inl (kept k (p3 f))
      · exact Or.inr k
  · rcases gp with ⟨r1, r2, r3⟩ | ⟨p', r1, -⟩
    · refine Or.inr ⟨p, p1, p2, r1.trans p3, r2.trans p4, fun f => ?_⟩
      rcases p5 f with e | ⟨pf, e⟩
      · exact Or.inl (kept (r3 f) e)
      · rcases r3 f with k | ⟨k, a⟩
        · exact Or.inr ⟨pf, by rw [k]; exact e⟩
        · exact Or.inl (Or.inr ⟨k, a⟩)
    · rw [p3] at r1
      cases r1

/-- An entry that is assigned after a refusal has kept its permit, or stood without one. -/
theorem TapRefused.permit_stands {second : Nat} {x y : Tap} (h : TapRefused second x y) {e : Entry} (he : e ∈ y.queue)
    (a : e.assigned.isSome = true) {p : Permit} (hp : x.permit = some p) (id : p.requestId = e.id) :
    y.permit = some p := by
  rcases h.2.2 with ⟨same, -⟩ | ⟨p', hp', -, -, waits, -⟩
  · rw [same, hp]
  · cases Option.some.inj (hp.symm.trans hp')
    rw [waits e he id.symm] at a
    cases a

theorem TapMatched.evaluated {x y : Tap} (second : Nat) (h : TapMatched x y) : TapEvaluated second x y :=
  ⟨h.nextId, h.lastEnded, h.tilt, Or.inl ⟨h.permit, h.2.1, h.2.2⟩⟩

/-! ### What is told of the permit -/

theorem ReturnPosted.congr {id : Nat} {s t u : State} (h : ReturnPosted id t u)
    (entries : entriesOf t.tap.queue = entriesOf s.tap.queue) (clock : t.clock = s.clock) : ReturnPosted id s u := by
  intro e he late
  have same := entriesOf_find? t.tap.queue id
  rw [entries, entriesOf_find?, show s.tap.queue.find? (fun e => e.id == id) = some e from he] at same
  obtain ⟨x, hx, ex⟩ := Option.map_eq_some_iff.mp same.symm
  have field : x.id = e.id ∧ x.ladle = e.ladle ∧ x.deadline = e.deadline ∧ x.postedAt = e.postedAt := by
    have f := fun {β} (g : Entry → β) => congrArg g ex
    exact ⟨f Entry.id, f Entry.ladle, f Entry.deadline, f Entry.postedAt⟩
  rw [← field.1, ← field.2.1]
  refine h x hx ?_
  rw [clock]
  unfold Entry.lapsed at *
  rw [field.2.2.1, field.2.2.2]
  exact late

theorem ladleOf_congr {s t : State} (id : Nat) (entries : entriesOf t.tap.queue = entriesOf s.tap.queue) :
    ladleOf t id = ladleOf s id := by
  have ladle : ∀ x : State, ladleOf x id
      = (((entriesOf x.tap.queue).find? (fun e => e.id == id)).map Entry.ladle).getD 0 := fun x => by
    rw [entriesOf_find?, Option.map_map]
    rfl
  rw [ladle, ladle, entries]

/-- A refusal is read against the entries and the clock, which do not change before it. -/
theorem RefusalPosted.congr {p : Permit} {r : Reason} {number : Nat} {s t u : State} (h : RefusalPosted p r number t u)
    (entries : entriesOf t.tap.queue = entriesOf s.tap.queue) (clock : t.clock = s.clock) :
    RefusalPosted p r number s u :=
  ⟨by rw [← ladleOf_congr p.requestId entries]; exact h.1, h.2.congr entries clock⟩

/-- The notices of a refusal stay. -/
theorem RefusalPosted.keep {kinds : List NoticeKind} {p : Permit} {r : Reason} {number : Nat} {s t u : State}
    (h : RefusalPosted p r number s t) (noted : PortsNoted kinds t u) (out : ∀ k ∈ refusalKinds, k ∉ kinds) :
    RefusalPosted p r number s u :=
  ⟨h.1.keep noted (out _ (by simp [Detail.kind, refusalKinds])),
    fun e he late => (h.2 e he late).keep noted (out _ (by simp [Detail.kind, refusalKinds]))⟩

/-- What is told where a pending permit may have been refused (R11, R127): the refusal, and beside it notices of the kinds
given. -/
def Told (kinds : List NoticeKind) (s t : State) : Prop :=
  PortsNoted (kinds ++ refusalKinds) s t ∧ (t.tap.permit = s.tap.permit → PortsNoted kinds s t)
    ∧ ∀ p ∈ s.tap.permit, p.state = .pending → t.tap.permit = none →
        ∃ r number, t.tap.kept.get p.furnace = some r
          ∧ (r = .notReady ∧ number = heatNumber s p.furnace ∨ .heatClosed ∈ kinds ∧ r = .cancelled)
          ∧ RefusalPosted p r number s t

/-- Notices posted while the permit stands. -/
theorem Told.of_noted {kinds : List NoticeKind} {s t : State} (h : PortsNoted kinds s t)
    (permit : t.tap.permit = s.tap.permit) : Told kinds s t :=
  ⟨h.mono (fun _ m => List.mem_append_left _ m), fun _ => h, fun p hp _ gone => by
    rw [permit, Option.mem_def.mp hp] at gone
    cases gone⟩

theorem Told.mono {kinds more : List NoticeKind} {s t : State} (h : Told kinds s t) (sub : ∀ k ∈ kinds, k ∈ more) :
    Told more s t := by
  refine ⟨h.1.mono fun k hk => ?_, fun same => (h.2.1 same).mono sub, fun p hp pending gone => ?_⟩
  · rcases List.mem_append.mp hk with m | m
    · exact List.mem_append_left _ (sub k m)
    · exact List.mem_append_right _ m
  · obtain ⟨r, number, kept, which, posted⟩ := h.2.2 p hp pending gone
    exact ⟨r, number, kept, which.imp id (fun c => ⟨sub _ c.1, c.2⟩), posted⟩

theorem Told.trans {kinds : List NoticeKind} {second : Nat} {s t u : State} (h : Told kinds s t) (g : Told kinds t u)
    (first : TapRefused second s.tap t.tap) (next : TapRefused second t.tap u.tap) (clock : t.clock = s.clock)
    (number : ∀ f, heatNumber t f = heatNumber s f) (out : ∀ k ∈ refusalKinds, k ∉ kinds) : Told kinds s u := by
  obtain ⟨h1, h2, h3⟩ := h
  obtain ⟨g1, g2, g3⟩ := g
  rcases first.2.2 with ⟨same, entries, -⟩ | ⟨p, held, pending, gone, -⟩
  · refine ⟨h1.trans g1, fun e => (h2 same).trans (g2 (e.trans same.symm)), fun p hp pending gone => ?_⟩
    obtain ⟨r, n, kept, which, posted⟩ := g3 p (by rw [same]; exact hp) pending gone
    rw [number] at which
    exact ⟨r, n, kept, which, posted.congr entries clock⟩
  · have stays : u.tap.permit = none ∧ ∀ f, u.tap.kept.get f = t.tap.kept.get f := by
      rcases next.2.2 with ⟨e, -, k⟩ | ⟨q, hq, -⟩
      · exact ⟨e.trans gone, k⟩
      · rw [gone] at hq
        cases hq
    refine ⟨h1.trans g1, fun e => ?_, fun q hq _ _ => ?_⟩
    · rw [stays.1, held] at e
      cases e
    · obtain ⟨r, n, kept, which, posted⟩ := h3 q hq (by cases Option.some.inj (held.symm.trans hq); exact pending) gone
      exact ⟨r, n, by rw [stays.2]; exact kept, which, posted.keep (g2 (stays.1.trans gone.symm)) out⟩

/-- A change of the tap queue, the permit's end and notices, and nothing else. -/
def TapOnly (kinds : List NoticeKind) (s t : State) : Prop :=
  t = { s with tap := t.tap, ports := t.ports } ∧ TapRefused s.clock.shopSeconds s.tap t.tap ∧ Told kinds s t

theorem TapOnly.refl (kinds : List NoticeKind) (s : State) : TapOnly kinds s s :=
  ⟨rfl, TapRefused.refl _ _, Told.of_noted (PortsNoted.refl _ _) rfl⟩

theorem TapOnly.trans {kinds : List NoticeKind} {s t u : State} (h : TapOnly kinds s t) (g : TapOnly kinds t u)
    (out : ∀ k ∈ refusalKinds, k ∉ kinds := by decide) : TapOnly kinds s u := by
  obtain ⟨h1, h2, h3⟩ := h
  obtain ⟨g1, g2, g3⟩ := g
  have clock : t.clock = s.clock := by rw [h1]
  have heat : t.heat = s.heat := by rw [h1]
  rw [clock] at g2
  exact ⟨by rw [g1, h1], h2.trans g2,
    h3.trans g3 h2 g2 clock (fun f => by unfold heatNumber heatOf slotOf; rw [heat]) out⟩

theorem TapOnly.mono {kinds more : List NoticeKind} {s t : State} (h : TapOnly kinds s t)
    (sub : ∀ k ∈ kinds, k ∈ more) : TapOnly more s t := ⟨h.1, h.2.1, h.2.2.mono sub⟩

theorem TapOnly.heat {kinds : List NoticeKind} {s t : State} (h : TapOnly kinds s t) : t.heat = s.heat := by rw [h.1]
theorem TapOnly.shop {kinds : List NoticeKind} {s t : State} (h : TapOnly kinds s t) : t.shop = s.shop := by rw [h.1]

theorem askMatching_only (kinds : List NoticeKind) (s : State) : TapOnly kinds s (askMatching s) :=
  ⟨rfl, ⟨⟨rfl, rfl, rfl, rfl, rfl⟩, fun _ h _ => h, Or.inl ⟨rfl, rfl, fun _ => rfl⟩⟩,
    Told.of_noted (PortsNoted.of_eq rfl) rfl⟩

theorem post_only {kinds : List NoticeKind} {d : Detail} (s : State) (e : d.kind ∈ kinds) :
    TapOnly kinds s (post d s) := ⟨rfl, TapRefused.refl _ _, Told.of_noted (post_noted_of e) rfl⟩

/-- An entry made WAITING keeps its place and everything else (R123). -/
theorem makeWaiting_entries (id : Nat) (s : State) :
    entriesOf (makeWaiting id s).tap.queue = entriesOf s.tap.queue := by
  have h := entriesOf_map_assign s.tap.queue (fun x => decide (x.id = id)) none
  simp only [decide_eq_true_eq] at h
  exact h

theorem makeWaiting_assigned (id : Nat) (s : State) :
    ∀ e ∈ (makeWaiting id s).tap.queue, e.assigned.isSome = true → e ∈ s.tap.queue := by
  intro e he a
  obtain ⟨x, hx, ex⟩ := List.mem_map.mp
    (show e ∈ s.tap.queue.map (fun e => if e.id = id then { e with assigned := none } else e) from he)
  split at ex
  · subst ex
    cases a
  · subst ex
    exact hx

theorem makeWaiting_only (kinds : List NoticeKind) (id : Nat) (s : State) : TapOnly kinds s (makeWaiting id s) :=
  ⟨rfl, ⟨⟨rfl, rfl, rfl, rfl, rfl⟩, makeWaiting_assigned id s,
    Or.inl ⟨rfl, makeWaiting_entries id s, fun _ => rfl⟩⟩, Told.of_noted (PortsNoted.of_eq rfl) rfl⟩

/-- The return of an entry (R127, R136): what it leaves of the queue, and that nothing else changes. -/
theorem returnEntry_spec (id : Nat) (s : State) :
    returnEntry id s
        = { s with
            tap := { s.tap with queue := (returnEntry id s).tap.queue, matchDue := (returnEntry id s).tap.matchDue }
            ports := (returnEntry id s).ports }
      ∧ entriesOf (returnEntry id s).tap.queue = entriesReturned id s.clock.shopSeconds (entriesOf s.tap.queue)
      ∧ (∀ e ∈ (returnEntry id s).tap.queue, e.assigned.isSome = true → e ∈ s.tap.queue)
      ∧ (∀ e ∈ (returnEntry id s).tap.queue, e.id = id → e.assigned = none)
      ∧ PortsNoted [.entryExpired] s (returnEntry id s) ∧ ReturnPosted id s (returnEntry id s) := by
  have queue : (returnEntry id s).tap.queue = entriesReturned id s.clock.shopSeconds s.tap.queue := by
    unfold returnEntry entriesReturned entryOf
    cases he : s.tap.queue.find? (fun e => e.id == id) with
    | some e =>
      have same : e.id = id := by simpa using List.find?_some he
      subst same
      dsimp only
      have sec : now s = s.clock.shopSeconds := rfl
      rw [sec]
      split <;> rfl
    | none => rfl
  refine ⟨?_, by rw [queue, entriesReturned_entriesOf], fun e he a => ?_, fun e he same => ?_, ?_, fun e he late => ?_⟩
  · unfold returnEntry
    split
    · split <;> rfl
    · rfl
  · rw [queue] at he
    exact entriesReturned_assigned he a
  · rw [queue] at he
    exact entriesReturned_waiting he same
  · unfold returnEntry
    split
    · next e _ =>
      split
      · exact PortsNoted.trans (t := removeEntry e.id s) (PortsNoted.of_eq rfl) (post_noted_of (by simp [Detail.kind]))
      · exact PortsNoted.of_eq rfl
    · exact PortsNoted.refl _ _
  · unfold returnEntry
    rw [Option.mem_def.mp he]
    dsimp only
    rw [show e.lapsed (now s) = true from late, if_pos rfl]
    exact post_noticed _ _

/-- A pending permit's refusal (R127): the permit is gone, its entry returned, the refusal told and kept for the deck. -/
theorem refusePermit_only (p : Permit) (r : Reason) (s : State) (held : s.tap.permit = some p)
    (pending : p.state = .pending) (kinds : List NoticeKind)
    (reason : r = .notReady ∨ .heatClosed ∈ kinds ∧ r = .cancelled) :
    TapOnly kinds s (refusePermit p r false s)
      ∧ RefusalPosted p r (heatNumber s p.furnace) s (refusePermit p r false s) := by
  have noted : PortsNoted refusalKinds s
      (post (.permitResolved (some r) p.furnace (heatNumber s p.furnace) p.requestId (ladleOf s p.requestId)) s) :=
    post_noted_of (by simp [Detail.kind, refusalKinds])
  have told := post_noticed
    (.permitResolved (some r) p.furnace (heatNumber s p.furnace) p.requestId (ladleOf s p.requestId)) s
  have eq : refusePermit p r false s
      = returnEntry p.requestId { s with
          tap := { s.tap with permit := none, kept := s.tap.kept.set p.furnace (some r), matchDue := true }
          ports := (post (.permitResolved (some r) p.furnace (heatNumber s p.furnace) p.requestId
            (ladleOf s p.requestId)) s).ports } := rfl
  rw [eq]
  unfold PortsNoted at noted
  unfold Noticed at told
  generalize (post (.permitResolved (some r) p.furnace (heatNumber s p.furnace) p.requestId
    (ladleOf s p.requestId)) s).ports = ports at *
  obtain ⟨e1, e2, e3, ew, e4, e5⟩ := returnEntry_spec p.requestId { s with
    tap := { s.tap with permit := none, kept := s.tap.kept.set p.furnace (some r), matchDue := true }
    ports := ports }
  generalize returnEntry p.requestId { s with
    tap := { s.tap with permit := none, kept := s.tap.kept.set p.furnace (some r), matchDue := true }
    ports := ports } = y at *
  dsimp only at e1 e2 e3 ew e4
  have tap : y.tap = { s.tap with
      permit := none, kept := s.tap.kept.set p.furnace (some r), queue := y.tap.queue, matchDue := y.tap.matchDue } :=
    congrArg State.tap e1
  have gone : y.tap.permit = none := by rw [tap]
  have kept : y.tap.kept = s.tap.kept.set p.furnace (some r) := by rw [tap]
  have posted : RefusalPosted p r (heatNumber s p.furnace) s y :=
    ⟨Noticed.keep (kinds := [.entryExpired]) (s := { s with
        tap := { s.tap with permit := none, kept := s.tap.kept.set p.furnace (some r), matchDue := true }
        ports := ports }) told e4 (by simp [Detail.kind]), e5⟩
  have noticed : PortsNoted (kinds ++ refusalKinds) s y := fun q =>
    ((noted q).trans ((e4 q).mono (by simp [refusalKinds]))).mono fun _ m => List.mem_append_right _ m
  have frame : y = { s with tap := y.tap, ports := y.ports } := by
    rw [tap]
    exact e1
  clear e1 e4 e5 noted told eq
  refine ⟨⟨frame, ⟨⟨?_, ?_, ?_, ?_, ?_⟩, e3, Or.inr ⟨p, held, pending, gone, ew, e2, fun f => ?_⟩⟩, noticed,
    fun same => ?_, fun x hx _ _ => ?_⟩, posted⟩
  · rw [tap]
  · rw [tap]
  · rw [tap]
  · rw [tap]
  · rw [tap]
  · rw [kept]
    rcases furnace_cases p.furnace f with h | h
    · subst h
      rw [PerFurnace.get_set_same]
      rcases reason with h | ⟨-, h⟩
      · exact Or.inr ⟨rfl, Or.inl (by rw [h])⟩
      · exact Or.inr ⟨rfl, Or.inr (by rw [h])⟩
    · subst h
      exact Or.inl (PerFurnace.get_set_otherFurnace _ _ _)
  · rw [gone, held] at same
    cases same
  · cases Option.some.inj (held.symm.trans hx)
    exact ⟨r, _, by rw [kept, PerFurnace.get_set_same], reason.imp (fun e => ⟨e, rfl⟩) id, posted⟩

/-- The end of the work tied to a furnace's heat (R11, R17, R123, R127); a pending permit for the furnace is refused. -/
theorem endAssignment_only (f : Furnace) (r : Reason) (s : State) (kinds : List NoticeKind)
    (reason : r = .notReady ∨ .heatClosed ∈ kinds ∧ r = .cancelled) :
    TapOnly kinds s (endAssignment f r s)
      ∧ ∀ p ∈ s.tap.permit, p.state = .pending → p.furnace = f →
          (endAssignment f r s).tap.permit = none ∧ (endAssignment f r s).tap.kept.get f = some r
            ∧ RefusalPosted p r (heatNumber s f) s (endAssignment f r s) := by
  unfold endAssignment
  split
  · next p h =>
    unfold pendingPermit at h
    split at h
    · next p' held =>
      split at h
      · next c =>
        cases h
        obtain ⟨only, posted⟩ := refusePermit_only p r s held c.1 kinds reason
        refine ⟨only, fun x hx _ _ => ?_⟩
        cases Option.some.inj (held.symm.trans hx)
        have fields : (refusePermit p r false s).tap.permit = none
            ∧ (refusePermit p r false s).tap.kept = s.tap.kept.set p.furnace (some r) := by
          have tap := congrArg State.tap (returnEntry_spec p.requestId (askMatching (setKept p.furnace (some r)
            (setPermit none (post (.permitResolved (some r) p.furnace (heatNumber s p.furnace) p.requestId
              (ladleOf s p.requestId)) s))))).1
          exact ⟨congrArg Tap.permit tap, congrArg Tap.kept tap⟩
        rw [← c.2]
        exact ⟨fields.1, by rw [fields.2, PerFurnace.get_set_same], posted⟩
      · cases h
    · cases h
  · next h =>
    have other : ∀ p ∈ s.tap.permit, p.state = .pending → ¬ p.furnace = f := by
      intro p hp pending mine
      unfold pendingPermit at h
      rw [Option.mem_def.mp hp] at h
      dsimp only at h
      rw [if_pos ⟨pending, mine⟩] at h
      cases h
    refine ⟨?_, fun p hp pending mine => absurd mine (other p hp pending)⟩
    split
    · exact TapOnly.refl _ s
    · split
      · exact makeWaiting_only _ _ s
      · exact TapOnly.refl _ s

/-- What leaving TAP_READY does in the queue. -/
theorem leaveReady_only (f : Furnace) (s : State) : TapOnly [] s (leaveReady f .notReady s) :=
  (endAssignment_only f .notReady s [] (Or.inl rfl)).1.trans (askMatching_only _ _)

/-! ### The frame of the evaluations -/

/-- The evaluations of the heats, before matching, the tilt notice and the allotment follow. -/
def Evaluated (kinds : List NoticeKind) (s t : State) : Prop :=
  t = { s with heat := t.heat, shop := t.shop, tap := t.tap, ports := t.ports }
    ∧ t.heat = { s.heat with slots := t.heat.slots }
    ∧ (∀ f, SlotEvaluated s.clock.shopSeconds (s.heat.slots.get f) (t.heat.slots.get f))
    ∧ ShopWoken s t ∧ TapRefused s.clock.shopSeconds s.tap t.tap ∧ Told kinds s t

theorem Evaluated.refl (kinds : List NoticeKind) (s : State) : Evaluated kinds s s :=
  ⟨rfl, rfl, fun _ => SlotEvaluated.refl _ _, Or.inl rfl, TapRefused.refl _ _, Told.of_noted (PortsNoted.refl _ _) rfl⟩

theorem Evaluated.mono {kinds more : List NoticeKind} {s t : State} (h : Evaluated kinds s t)
    (sub : ∀ k ∈ kinds, k ∈ more) : Evaluated more s t :=
  ⟨h.1, h.2.1, h.2.2.1, h.2.2.2.1, h.2.2.2.2.1, h.2.2.2.2.2.mono sub⟩

theorem Evaluated.sett {kinds : List NoticeKind} {s t : State} (h : Evaluated kinds s t) : t.sett = s.sett := by rw [h.1]
theorem Evaluated.clock {kinds : List NoticeKind} {s t : State} (h : Evaluated kinds s t) : t.clock = s.clock := by
  rw [h.1]
theorem Evaluated.prot {kinds : List NoticeKind} {s t : State} (h : Evaluated kinds s t) : t.prot = s.prot := by rw [h.1]
theorem Evaluated.loading {kinds : List NoticeKind} {s t : State} (h : Evaluated kinds s t) :
    Machine.loading t = Machine.loading s := by
  unfold Machine.loading
  rw [h.sett]

theorem Evaluated.inputs {kinds : List NoticeKind} {s t : State} (h : Evaluated kinds s t) (shop : t.shop = s.shop) :
    SameInputs s t := ⟨h.clock, h.sett, h.prot, by rw [shop], h.2.2.2.2.1.1.2.2.1⟩

/-- The floor cause is read from the heats' estimates, which evaluations leave, and from the settings (R70). -/
theorem FloorReached.of_evaluated {second : Nat} {s t : State} (g : FloorReached t) (sett : t.sett = s.sett)
    (slots : ∀ f, SlotEvaluated second (s.heat.slots.get f) (t.heat.slots.get f)) : FloorReached s := by
  obtain ⟨wake, f, h', hh', solid, e, he, low⟩ := g
  unfold wakeOnFloor bankFloor setting at *
  rw [sett] at wake low
  have moved := (slots f).2
  have slot' : (t.heat.slots.get f).slot = .heat h' := heatOf_some hh'
  split at moved
  · next h slot =>
    obtain ⟨x, ex, m⟩ := moved
    cases Slot.heat.inj (slot'.symm.trans ex)
    refine ⟨wake, f, h, ?_, fun n => solid ?_, e, by rw [← m.estimate]; exact he, low⟩
    · unfold heatOf slotOf
      rw [slot]
      rfl
    · have st := m.2.1
      unfold StateMoved at st
      rw [n] at st
      exact st
  · next other ne =>
    rw [slot'] at moved
    exact absurd moved.symm (ne h')

/-- The floor cause stays through evaluations of the heats. -/
theorem FloorReached.evaluated {second : Nat} {s t : State} (g : FloorReached s) (sett : t.sett = s.sett)
    (slots : ∀ f, SlotEvaluated second (s.heat.slots.get f) (t.heat.slots.get f)) : FloorReached t := by
  obtain ⟨wake, f, h, hh, solid, e, he, low⟩ := g
  unfold wakeOnFloor bankFloor setting at *
  rw [← sett] at wake low
  have moved := (slots f).2
  rw [show (s.heat.slots.get f).slot = .heat h from heatOf_some hh] at moved
  obtain ⟨x, ex, m⟩ := moved
  refine ⟨wake, f, x, ?_, fun n => solid ?_, e, by rw [m.estimate]; exact he, low⟩
  · unfold heatOf slotOf
    rw [ex]
    rfl
  · have st := m.2.1
    unfold StateMoved at st
    rw [n] at st
    cases hs : h.state <;> rw [hs] at st <;> simp at st ⊢

theorem ShopWoken.trans {second : Nat} {s t u : State} (h : ShopWoken s t) (g : ShopWoken t u) (sett : t.sett = s.sett)
    (slots : ∀ f, SlotEvaluated second (s.heat.slots.get f) (t.heat.slots.get f)) : ShopWoken s u := by
  rcases h with h | ⟨b, w, e⟩
  · rcases g with g | ⟨b', w', e'⟩
    · exact Or.inl (g.trans h)
    · exact Or.inr ⟨by rw [← h]; exact b', w'.of_evaluated sett slots, by rw [e', h]⟩
  · refine Or.inr ⟨b, w, ?_⟩
    rcases g with g | ⟨b', -, -⟩
    · rw [g, e]
    · rw [e] at b'
      cases b'

/-- A slot that evaluations have passed over holds the heat of the same number. -/
theorem heatNumber_evaluated {second : Nat} {s t : State} (f : Furnace)
    (h : SlotEvaluated second (s.heat.slots.get f) (t.heat.slots.get f)) : heatNumber t f = heatNumber s f := by
  have moved := h.2
  have same : (t.heat.slots.get f).slot = (s.heat.slots.get f).slot → heatNumber t f = heatNumber s f := fun e => by
    unfold heatNumber
    rw [heatOf_congr e]
  cases e : (s.heat.slots.get f).slot with
  | heat x =>
    rw [e] at moved
    obtain ⟨y, ey, m⟩ := moved
    have old : heatOf s f = some x := by
      unfold heatOf slotOf
      rw [e]
    have new : heatOf t f = some y := by
      unfold heatOf slotOf
      rw [ey]
    unfold heatNumber
    rw [old, new, m.1]
    rfl
  | empty =>
    rw [e] at moved
    exact same (moved.trans e.symm)
  | unknown =>
    rw [e] at moved
    exact same (moved.trans e.symm)

theorem Evaluated.trans {kinds : List NoticeKind} {s t u : State} (h : Evaluated kinds s t) (g : Evaluated kinds t u)
    (out : ∀ k ∈ refusalKinds, k ∉ kinds := by decide) : Evaluated kinds s u := by
  have sett := h.sett
  have clock := h.clock
  obtain ⟨h1, h2, h3, h4, h5, h6⟩ := h
  obtain ⟨g1, g2, g3, g4, g5, g6⟩ := g
  rw [clock] at g3 g5
  exact ⟨by rw [g1, h1], by rw [g2, h2], fun f => (h3 f).trans (g3 f), h4.trans g4 sett h3, h5.trans g5,
    h6.trans g6 h5 g5 clock (fun f => heatNumber_evaluated f (h3 f)) out⟩

theorem TapOnly.evaluated {kinds : List NoticeKind} {s t : State} (h : TapOnly kinds s t) : Evaluated kinds s t := by
  have heat := h.heat
  have shop := h.shop
  obtain ⟨h1, h2, h3⟩ := h
  exact ⟨by rw [h1], by rw [heat], fun f => by rw [heat]; exact SlotEvaluated.refl _ _, Or.inl shop, h2, h3⟩

/-! ### The frame of a settled step -/

theorem Settled.sett {kinds : List NoticeKind} {s t : State} (h : Settled kinds s t) : t.sett = s.sett := by rw [h.1]
theorem Settled.clock {kinds : List NoticeKind} {s t : State} (h : Settled kinds s t) : t.clock = s.clock := by rw [h.1]
theorem Settled.lines {kinds : List NoticeKind} {s t : State} (h : Settled kinds s t) : t.lines = s.lines := by rw [h.1]
theorem Settled.scan {kinds : List NoticeKind} {s t : State} (h : Settled kinds s t) : t.scan = s.scan := by rw [h.1]
theorem Settled.prot {kinds : List NoticeKind} {s t : State} (h : Settled kinds s t) : t.prot = s.prot := by rw [h.1]
theorem Settled.pending {kinds : List NoticeKind} {s t : State} (h : Settled kinds s t) : t.pending = s.pending := by
  rw [h.1]
theorem Settled.powered {kinds : List NoticeKind} {s t : State} (h : Settled kinds s t) : t.powered = s.powered := by
  rw [h.1]

theorem Settled.mono {kinds more : List NoticeKind} {s t : State} (h : Settled kinds s t)
    (sub : ∀ k ∈ kinds, k ∈ more) : Settled more s t := by
  have wide : ∀ {l : List NoticeKind} k, k ∈ kinds ++ l → k ∈ more ++ l := fun k hk =>
    List.mem_append.mpr ((List.mem_append.mp hk).imp (sub k) id)
  obtain ⟨h1, h2, h3, h4, h5, h6, h7, h8, h9, told, quiet⟩ := h
  refine ⟨h1, h2, h3, h4, h5, h6, h7, h8, h9.mono wide, fun p hp pending gone => ?_, fun same => (quiet same).mono wide⟩
  obtain ⟨r, number, kept, which, posted⟩ := told p hp pending gone
  exact ⟨r, number, kept, which.imp id (fun c => ⟨sub _ c.1, c.2⟩), posted⟩

theorem Coordinated.settled {kinds : List NoticeKind} {s t : State} (h : Coordinated kinds s t) : Settled kinds s t := by
  obtain ⟨h1, h2, h3, h4, h5, h6, -⟩ := h
  have heat : t.heat = s.heat := by rw [h1]
  have shop : t.shop = s.shop := by rw [h1]
  have wide : ∀ k, k ∈ kinds ++ matchKinds → k ∈ kinds ++ followKinds := fun k hk =>
    List.mem_append.mpr ((List.mem_append.mp hk).imp id (fun m => List.mem_append_right _ m))
  refine ⟨?_, ?_, fun f => by rw [heat]; exact SlotEvaluated.refl _ _, Or.inl shop, h2, h3, h4.evaluated _, h5,
    (h6.mono wide).mono fun k hk => ?_, fun p hp _ gone => ?_, fun _ => h6.mono wide⟩
  · rw [h1]
  · rw [heat]
  · exact List.mem_append.mpr ((List.mem_append.mp hk).imp id (fun m => List.mem_append_left _ m))
  · rw [h4.permit, Option.mem_def.mp hp] at gone
    cases gone

/-- A refusal kept for its deck stays, or an assignment removes it (R128). -/
theorem KeptMatched.refusal {f : Furnace} {r : Reason} {x y : Tap} (h : KeptMatched f x y) (kept : x.kept.get f = some r) :
    RefusalKept f r y := h.imp (fun e => e.trans kept) id

/-- What is told of the permit before a settled step and in it. -/
theorem Told.refusal {kinds : List NoticeKind} {second : Nat} {s t u : State} (h : Told (kinds ++ followKinds) s t)
    (g : RefusalTold [] t u) (first : TapRefused second s.tap t.tap) (next : TapEvaluated second t.tap u.tap)
    (clock : t.clock = s.clock) (number : ∀ f, heatNumber t f = heatNumber s f) : RefusalTold kinds s u := by
  obtain ⟨-, h2, h3⟩ := h
  obtain ⟨g1, g2⟩ := g
  have closed : NoticeKind.heatClosed ∈ kinds ++ followKinds → NoticeKind.heatClosed ∈ kinds := fun m =>
    (List.mem_append.mp m).elim id (fun n => by simp [followKinds, matchKinds] at n)
  rcases first.2.2 with ⟨same, entries, -⟩ | ⟨p, held, pending, gone, -⟩
  · refine ⟨fun p hp pending gone => ?_, fun e => (h2 same).trans
      ((g2 (e.trans same.symm)).mono fun _ m => List.mem_append_right _ m)⟩
    obtain ⟨r, n, kept, which, posted⟩ := g1 p (by rw [same]; exact hp) pending gone
    rw [number] at which
    exact ⟨r, n, kept, which.imp id (fun c => by cases c.1), posted.congr entries clock⟩
  · have stays : u.tap.permit = none ∧ ∀ f, KeptMatched f t.tap u.tap := by
      rcases next.2.2.2 with ⟨e, -, k⟩ | ⟨q, hq, -⟩
      · exact ⟨e.trans gone, k⟩
      · rw [gone] at hq
        cases hq
    refine ⟨fun q hq pend _ => ?_, fun e => ?_⟩
    · obtain ⟨r, n, kept, which, posted⟩ := h3 q hq pend gone
      exact ⟨r, n, (stays.2 _).refusal kept, which.imp id (fun c => ⟨closed c.1, c.2⟩),
        posted.keep (g2 (stays.1.trans gone.symm)) (by decide)⟩
    · rw [stays.1, held] at e
      cases e

/-- Evaluations, and then a settled step, are a settled step. -/
theorem Evaluated.settled {kinds : List NoticeKind} {s t u : State} (h : Evaluated (kinds ++ followKinds) s t)
    (g : Settled [] t u) : Settled kinds s u := by
  have sett := h.sett
  have clock := h.clock
  obtain ⟨h1, h2, h3, h4, h5, h6⟩ := h
  obtain ⟨g1, g2, g3, g4, g5, g6, g7, g8, g9, g10⟩ := g
  have allot : t.allot = s.allot := by rw [h1]
  have stage : t.stage = s.stage := by rw [h1]
  rw [clock] at g3 g7
  rw [allot] at g5
  rw [stage] at g6
  refine ⟨by rw [g1, h1], by rw [g2, h2], fun f => (h3 f).trans (g3 f), h4.trans g4 sett h3, g5, g6, h5.evaluated g7, ?_,
    (h6.1.mono fun k hk => ?_).trans (g9.mono fun _ m => List.mem_append_right _ m),
    h6.refusal g10 h5 g7 clock (fun f => heatNumber_evaluated f (h3 f))⟩
  intro e he f hf
  rcases g8 e he f hf with ⟨m, stands⟩ | m
  · have a : e.assigned.isSome = true := by rw [hf]; rfl
    exact Or.inl ⟨h5.2.1 e m a, fun p hp id => stands p (h5.permit_stands m a hp id) id⟩
  · exact Or.inr m
  · simpa [settleKinds] using hk

/-- The tilt evaluation is read against the conditions and details as they stood. -/
theorem TiltNoticed.of_tap {s x t : State} (h : TiltNoticed x t) (unp : x.tap.unpermitted = s.tap.unpermitted)
    (car : x.tap.tiltCarried = s.tap.tiltCarried) : TiltNoticed s t := by
  unfold TiltNoticed at *
  rw [← unp, ← car]
  exact h

theorem Evaluated.tiltNoticed {kinds : List NoticeKind} {s x t : State} (h : Evaluated kinds s x)
    (g : TiltNoticed x t) : TiltNoticed s t := g.of_tap h.2.2.2.2.1.1.2.2.2.1 h.2.2.2.2.1.1.2.2.2.2

/-! ### A heat changed and evaluated -/

/-- What an evaluation of the heat of one furnace gives: the frame, and the shop and the other slot as they were. -/
def HeatOnly (kinds : List NoticeKind) (f : Furnace) (s t : State) : Prop :=
  Evaluated kinds s t ∧ t.shop = s.shop ∧ t.heat.slots.get (otherFurnace f) = s.heat.slots.get (otherFurnace f)

theorem HeatOnly.refl (kinds : List NoticeKind) (f : Furnace) (s : State) : HeatOnly kinds f s s :=
  ⟨Evaluated.refl _ s, rfl, rfl⟩

theorem HeatOnly.trans {kinds : List NoticeKind} {f : Furnace} {s t u : State} (h : HeatOnly kinds f s t)
    (g : HeatOnly kinds f t u) (out : ∀ k ∈ refusalKinds, k ∉ kinds := by decide) : HeatOnly kinds f s u :=
  ⟨h.1.trans g.1 out, g.2.1.trans h.2.1, g.2.2.trans h.2.2⟩

theorem HeatOnly.mono {kinds more : List NoticeKind} {f : Furnace} {s t : State} (h : HeatOnly kinds f s t)
    (sub : ∀ k ∈ kinds, k ∈ more) : HeatOnly more f s t := ⟨h.1.mono sub, h.2⟩

theorem HeatOnly.inputs {kinds : List NoticeKind} {f : Furnace} {s t : State} (h : HeatOnly kinds f s t) :
    SameInputs s t := h.1.inputs h.2.1

theorem HeatOnly.other {kinds : List NoticeKind} {f : Furnace} {s t : State} (h : HeatOnly kinds f s t) :
    heatOf t (otherFurnace f) = heatOf s (otherFurnace f) := heatOf_congr (by rw [h.2.2])

theorem TapOnly.heatOnly {kinds : List NoticeKind} {s t : State} (h : TapOnly kinds s t) (f : Furnace) :
    HeatOnly kinds f s t := ⟨h.evaluated, h.shop, by rw [h.heat]⟩

theorem setHeat_only {f : Furnace} {h h' : Heat} {s : State} (kinds : List NoticeKind) (e : heatOf s f = some h)
    (moved : HeatMoved s.clock.shopSeconds h h') : HeatOnly kinds f s (setHeat f h' s) :=
  ⟨⟨rfl, rfl, slotEvaluated_setHeat e moved, Or.inl rfl, TapRefused.refl _ _, Told.of_noted (PortsNoted.of_eq rfl) rfl⟩,
    rfl, by simp⟩

theorem liquidEval_state (s : State) (h : Heat) :
    liquidEval s h = { h with state := (liquidEval s h).state } ∧ StateMoved h (liquidEval s h).state := by
  have stay : h = { h with state := h.state } ∧ StateMoved h h.state := ⟨rfl, StateMoved.refl h⟩
  unfold liquidEval
  split
  · exact stay
  · next e he =>
    split
    · next hs =>
      split
      · exact ⟨rfl, by unfold StateMoved; simp [hs, he]⟩
      · exact stay
    · next hs =>
      split
      · exact ⟨rfl, by unfold StateMoved; simp [hs, he]⟩
      · exact stay
    · next hs =>
      split
      · exact ⟨rfl, by unfold StateMoved; simp [hs, he]⟩
      · exact stay
    · exact stay
    · exact stay

theorem restamp_state (second : Nat) (old new : Heat) : (restamp second old new).state = new.state := by
  unfold restamp
  split <;> rfl

theorem restamp_class (second : Nat) (old new : Heat) : heatClass (restamp second old new) = heatClass new := by
  unfold restamp
  split <;> rfl

/-- R10 on a heat, with the class entry stamp of R7, moves it as the frame allows. -/
theorem restamp_moved (s : State) (old h : Heat) (cls : heatClass h = heatClass old) :
    HeatMoved s.clock.shopSeconds h (restamp (now s) old (liquidEval s h)) := by
  obtain ⟨e, m⟩ := liquidEval_state s h
  generalize liquidEval s h = new at *
  have stamp : new.classStamp = h.classStamp := by rw [e]
  have second : now s = s.clock.shopSeconds := rfl
  unfold restamp
  split
  · next same =>
    refine ⟨?_, m, Or.inl stamp, fun n => absurd ?_ n⟩
    · rw [e]
    · rw [cls, same]
  · exact ⟨by rw [e], m, Or.inr second, fun _ => second⟩

/-- A heat whose class stands through R10 keeps its class entry stamp (R7). -/
theorem restamp_kept (s : State) (h : Heat) (same : heatClass (restamp (now s) h (liquidEval s h)) = heatClass h) :
    (restamp (now s) h (liquidEval s h)).classStamp = h.classStamp := by
  rw [restamp_class] at same
  have e := (liquidEval_state s h).1
  unfold restamp
  rw [if_pos same.symm, e]

/-- The moves of R10 alone. -/
theorem liquidEval_moves (s : State) (h : Heat) :
    (liquidEval s h).state = h.state ∨ h.state = .superheat ∧ (liquidEval s h).state = .holding
      ∨ (h.state = .holding ∨ h.state = .tapReady) ∧ (liquidEval s h).state = .superheat := by
  unfold liquidEval
  cases h.estimate with
  | none => exact Or.inl rfl
  | some e => cases hs : h.state <;> dsimp only <;> first | exact Or.inl hs | (split <;> simp [hs])

/-- What R10 gives on a heat. -/
theorem liquidEval_current (s : State) (h : Heat) (e : Nat) (est : h.estimate = some e) :
    ((liquidEval s h).state = .superheat → e < targetInForce s h)
      ∧ ((liquidEval s h).state = .holding ∨ (liquidEval s h).state = .tapReady →
          targetInForce s h ≤ e + returnBand s) := by
  unfold liquidEval
  rw [est]
  dsimp only
  cases hs : h.state <;> dsimp only
  · simp [hs]
  · split
    · simp; omega
    · simp [hs]; omega
  · split
    · simp; omega
    · simp [hs]; omega
  · split
    · simp; omega
    · simp [hs]; omega
  · simp [hs]

/-- A revision's further work: the FREEZE notice, and the end of the work in the queue. -/
theorem afterRevision_only (f : Furnace) (old new : Heat) (s : State) :
    TapOnly [.freeze] s (afterRevision f old new s)
      ∧ ((new.freeze && !old.freeze) = false → TapOnly [] s (afterRevision f old new s)) := by
  unfold afterRevision
  dsimp only
  have ends : ∀ x : State, TapOnly [] x
      (if old.state = .tapReady ∧ new.state ≠ .tapReady then leaveReady f .notReady x else x) := by
    intro x
    split
    · exact leaveReady_only f x
    · exact TapOnly.refl _ x
  refine ⟨?_, fun quiet => ?_⟩
  · refine TapOnly.trans (t := if (new.freeze && !old.freeze) = true then post (.freeze f new.number) s else s) ?_
      ((ends _).mono (by simp))
    split
    · exact post_only _ (by simp [Detail.kind])
    · exact TapOnly.refl _ s
  · have same : (if (new.freeze && !old.freeze) = true then post (.freeze f new.number) s else s) = s := by
      rw [quiet]
      rfl
    rw [same]
    exact ends s

/-- A heat changed by `g` and evaluated by R10: exactly this heat, and the further work. -/
theorem reviseHeat_exact {f : Furnace} {h : Heat} {s : State} (g : Heat → Heat) (e : heatOf s f = some h) :
    let new := restamp (now s) h (liquidEval s (g h))
    TapOnly [.freeze] (setHeat f new s) (reviseHeat f g s)
      ∧ heatOf (reviseHeat f g s) f = some new := by
  dsimp only
  have eq : reviseHeat f g s = afterRevision f h (restamp (now s) h (liquidEval s (g h)))
      (setHeat f (restamp (now s) h (liquidEval s (g h))) s) := by
    unfold reviseHeat
    rw [e]
  rw [eq]
  generalize restamp (now s) h (liquidEval s (g h)) = new
  have revised := (afterRevision_only f h new (setHeat f new s)).1
  refine ⟨revised, ?_⟩
  rw [heatOf_congr (s := setHeat f new s) (by rw [revised.heat])]
  exact heatOf_setHeat_same f new s

/-- A heat changed by `g` within its class and evaluated by R10: the frame of the change written in. -/
theorem reviseHeat_only {f : Furnace} {h : Heat} {s : State} (g : Heat → Heat) (e : heatOf s f = some h)
    (cls : heatClass (g h) = heatClass h) :
    HeatOnly [.freeze] f (setHeat f (g h) s) (reviseHeat f g s) := by
  have moved : HeatMoved (setHeat f (g h) s).clock.shopSeconds (g h) (restamp (now s) h (liquidEval s (g h))) :=
    restamp_moved s h (g h) cls
  have put := setHeat_only [.freeze] (heatOf_setHeat_same f (g h) s) moved
  have twice : ∀ x, setHeat f x (setHeat f (g h) s) = setHeat f x s := fun x => by
    unfold setHeat setSlot setFurnaceSlot
    simp
  rw [twice] at put
  exact put.trans ((reviseHeat_exact g e).1.heatOnly f)

theorem reviseHeat_none {f : Furnace} {s : State} (g : Heat → Heat) (e : heatOf s f = none) :
    reviseHeat f g s = s := by
  unfold reviseHeat
  rw [e]

/-- After a revision R10 has had its say. -/
theorem reviseHeat_liquid (f : Furnace) (g : Heat → Heat) (s : State) : LiquidCurrent f (reviseHeat f g s) := by
  cases e : heatOf s f with
  | none =>
    rw [reviseHeat_none g e]
    intro h hh
    rw [e] at hh
    cases hh
  | some h =>
    obtain ⟨only, hn⟩ := reviseHeat_exact g e
    have inputs : SameInputs s (reviseHeat f g s) := SameInputs.trans ⟨rfl, rfl, rfl, rfl, rfl⟩ (only.heatOnly f).inputs
    have moved := restamp_moved s (g h) (g h) rfl
    intro x hx t ht
    rw [hn] at hx
    cases hx
    have field : ∀ old, (restamp (now s) old (liquidEval s (g h))).estimate = (g h).estimate
        ∧ (restamp (now s) old (liquidEval s (g h))).holdTarget = (g h).holdTarget := by
      intro old
      have l := (liquidEval_state s (g h)).1
      unfold restamp
      split <;> exact ⟨by rw [l], by rw [l]⟩
    have est : (g h).estimate = some t := by rw [← (field h).1]; exact ht
    have target : targetInForce (reviseHeat f g s) (restamp (now s) h (liquidEval s (g h))) = targetInForce s (g h) := by
      rw [← targetInForce_congr inputs (HeatMoved.refl 0 (g h))]
      unfold targetInForce
      rw [(field h).2]
    rw [target, returnBand_congr inputs, restamp_state]
    exact liquidEval_current s (g h) t est

/-- The liquid-state evaluation of a furnace's heat (R10): the frame, and what becomes of the heat. -/
theorem evalLiquid_only (f : Furnace) (s : State) :
    HeatOnly [] f s (evalLiquid f s)
      ∧ (∀ h ∈ heatOf s f, heatOf (evalLiquid f s) f = some (restamp (now s) h (liquidEval s h)))
      ∧ (heatOf s f = none → evalLiquid f s = s) := by
  unfold evalLiquid
  cases e : heatOf s f with
  | none =>
    rw [reviseHeat_none id e]
    refine ⟨HeatOnly.refl _ f s, ?_, fun _ => rfl⟩
    intro h hh
    cases hh
  | some h =>
    have written : ∀ x ∈ some h, heatOf (reviseHeat f id s) f = some (restamp (now s) x (liquidEval s x)) := by
      intro x hx
      cases hx
      exact (reviseHeat_exact id e).2
    refine ⟨?_, written, fun n => by cases n⟩
    have eq : reviseHeat f id s = afterRevision f h (restamp (now s) h (liquidEval s h))
        (setHeat f (restamp (now s) h (liquidEval s h)) s) := by
      unfold reviseHeat
      rw [e]
      rfl
    rw [eq]
    have moved := restamp_moved s h h rfl
    have quiet : ((restamp (now s) h (liquidEval s h)).freeze && !h.freeze) = false := by
      have fr : (restamp (now s) h (liquidEval s h)).freeze = h.freeze := by rw [moved.1]
      rw [fr]
      cases h.freeze <;> rfl
    exact (setHeat_only _ e moved).trans (((afterRevision_only f h _ _).2 quiet).heatOnly f)

/-! ### Readiness -/

/-- An evaluation of one furnace's heat that has posted what R11 asks for: READY_CHANGED at its deck and at the Pour Line,
and at no other port. -/
def ReadyRun (f : Furnace) (s t : State) : Prop :=
  HeatOnly [.readyChanged] f s t ∧ ClassKept f s t
    ∧ (∀ d ∈ readyPosting f s t, Noticed d t)
    ∧ ∀ q, PortNoted refusalKinds (s.ports.get q) (t.ports.get q)
        ∨ (q = deckPort f ∨ q = .p) ∧ readyPosting f s t ≠ none

theorem readyPosting_kind {f : Furnace} {s t : State} {d : Detail} (h : readyPosting f s t = some d) :
    d.kind = .readyChanged ∧ d.addressedTo .p = true ∧ d.addressedTo (deckPort f) = true := by
  unfold readyPosting at h
  split at h
  · split at h
    · cases h; exact ⟨rfl, by simp [Detail.addressedTo], by simp [Detail.addressedTo]⟩
    · split at h
      · cases h; exact ⟨rfl, by simp [Detail.addressedTo], by simp [Detail.addressedTo]⟩
      · cases h
  · cases h

theorem readyPosting_congr {f : Furnace} {s s' t t' : State} (h : heatOf s' f = heatOf s f)
    (g : heatOf t' f = heatOf t f) : readyPosting f s' t' = readyPosting f s t := by
  unfold readyPosting
  rw [h, g]

theorem readyPosting_self (f : Furnace) {s t : State} (h : heatOf t f = heatOf s f) : readyPosting f s t = none := by
  unfold readyPosting
  rw [h]
  cases heatOf s f with
  | none => rfl
  | some x =>
    dsimp only
    rw [if_neg (fun c => c.1 c.2), if_neg (fun c => by rw [c.1] at c; cases c.2)]

/-- The readiness evaluation moves a heat between HOLDING and TAP_READY by R11, or leaves everything. -/
theorem evalReady_cases (f : Furnace) (s : State) :
    evalReady f s = s ∧ ReadinessCurrent f s
      ∨ ∃ h, heatOf s f = some h ∧ ∃ dest : HeatState,
          (h.state = .holding ∧ dest = .tapReady ∧ readyCond s f h = true
            ∨ h.state = .tapReady ∧ dest = .holding ∧ readyCond s f h = false)
          ∧ TapOnly []
              (post (.readyChanged f h.number dest) (setHeat f { h with state := dest } s)) (evalReady f s) := by
  unfold evalReady
  cases e : heatOf s f with
  | none => exact Or.inl ⟨rfl, fun x hx => by rw [e] at hx; cases hx⟩
  | some h =>
    dsimp only
    split
    · next c => exact Or.inr ⟨h, rfl, .tapReady, Or.inl ⟨c.1, rfl, c.2⟩, askMatching_only _ _⟩
    · next nc =>
      split
      · next c => exact Or.inr ⟨h, rfl, .holding, Or.inr ⟨c.1, rfl, c.2⟩, leaveReady_only f _⟩
      · next nd =>
        refine Or.inl ⟨rfl, fun x hx => ?_⟩
        rw [e] at hx
        cases hx
        refine ⟨fun n => ?_, fun n => ?_⟩
        · cases r : readyCond s f h
          · exact absurd ⟨n, r⟩ nd
          · rfl
        · cases r : readyCond s f h
          · rfl
          · exact absurd ⟨n, r⟩ nc

/-- The readiness evaluation (R11): its frame and notices. -/
theorem evalReady_run (f : Furnace) (s : State) : ReadyRun f s (evalReady f s) := by
  rcases evalReady_cases f s with ⟨e, -⟩ | ⟨h, e, dest, c, only⟩
  · rw [e]
    refine ⟨HeatOnly.refl _ f s, fun h hh h' hh' _ => ?_, fun d hd => ?_, fun q => Or.inl (PortNoted.refl _ _)⟩
    · have same : h = h' := Option.some.inj (hh.symm.trans hh')
      rw [same]
    · rw [readyPosting_self f rfl] at hd
      cases hd
  · have moved : HeatMoved s.clock.shopSeconds h { h with state := dest } := by
      refine ⟨rfl, ?_, Or.inl rfl, fun n => absurd ?_ n⟩
      · unfold StateMoved
        rcases c with ⟨c, d, -⟩ | ⟨c, d, -⟩ <;> rw [c, d] <;> simp
      · unfold heatClass
        rcases c with ⟨c, d, -⟩ | ⟨c, d, -⟩ <;> rw [c, d]
    have put := setHeat_only [.readyChanged] e moved
    have posted : TapOnly [.readyChanged] (setHeat f { h with state := dest } s)
        (post (.readyChanged f h.number dest) (setHeat f { h with state := dest } s)) :=
      post_only _ (by simp [Detail.kind])
    have after : heatOf (evalReady f s) f = some { h with state := dest } := by
      rw [heatOf_congr (s := setHeat f { h with state := dest } s) (by rw [only.heat]; rfl)]
      exact heatOf_setHeat_same _ _ _
    have posting : readyPosting f s (evalReady f s) = some (.readyChanged f h.number dest) := by
      unfold readyPosting
      rw [e, after]
      dsimp only
      rcases c with ⟨c, d, -⟩ | ⟨c, d, -⟩ <;> rw [c, d] <;> simp
    refine ⟨put.trans ((posted.trans (only.mono (by simp))).heatOnly f), ?_, ?_, fun q => ?_⟩
    · intro x hx y hy _
      have ex : x = h := Option.some.inj (hx.symm.trans e)
      have ey : y = { h with state := dest } := Option.some.inj (hy.symm.trans after)
      rw [ex, ey]
    · intro d hd
      rw [posting] at hd
      cases hd
      exact (post_noticed _ _).keep only.2.2.1 (by simp [Detail.kind, refusalKinds])
    · by_cases mine : q = deckPort f ∨ q = .p
      · exact Or.inr ⟨mine, by rw [posting]; simp⟩
      · have away : (Detail.readyChanged f h.number dest).addressedTo q = false := by
          simp only [not_or] at mine
          simp [Detail.addressedTo, mine.1, mine.2]
        have here := only.2.2.1 q
        rw [post_port_other _ away] at here
        exact Or.inl here

/-- After the readiness evaluation the heat stands as R11 gives it, and R10 still holds of it. -/
theorem evalReady_current (f : Furnace) (s : State) :
    ReadinessCurrent f (evalReady f s) ∧ (LiquidCurrent f s → LiquidCurrent f (evalReady f s)) := by
  have i := (evalReady_run f s).1.inputs
  rcases evalReady_cases f s with ⟨e, r⟩ | ⟨h, e, dest, c, only⟩
  · rw [e]
    exact ⟨r, id⟩
  · have after : heatOf (evalReady f s) f = some { h with state := dest } := by
      rw [heatOf_congr (s := setHeat f { h with state := dest } s) (by rw [only.heat]; rfl)]
      exact heatOf_setHeat_same _ _ _
    have cond : readyCond (evalReady f s) f { h with state := dest } = readyCond s f h := by
      rw [← readyCond_congr f i (HeatMoved.refl 0 h)]
      rfl
    refine ⟨fun x hx => ?_, fun l x hx est hest => ?_⟩
    · rw [after] at hx
      cases hx
      rw [cond]
      rcases c with ⟨-, d, r⟩ | ⟨-, d, r⟩ <;> subst d
      · exact ⟨fun _ => r, fun n => by cases n⟩
      · exact ⟨fun n => (by cases n), fun _ => r⟩
    · rw [after] at hx
      cases hx
      have was := l h e est hest
      have target : targetInForce (evalReady f s) { h with state := dest } = targetInForce s h := by
        rw [← targetInForce_congr i (HeatMoved.refl 0 h)]
        rfl
      rw [target, returnBand_congr i]
      rcases c with ⟨st, d, -⟩ | ⟨st, d, -⟩ <;> subst d
      · exact ⟨fun n => (by cases n), fun _ => was.2 (Or.inl st)⟩
      · exact ⟨fun n => (by cases n), fun _ => was.2 (Or.inr st)⟩

/-- The readiness evaluation leaves the class and its stamp. -/
theorem evalReady_class (f : Furnace) (s : State) {h h' : Heat} (e : heatOf s f = some h)
    (e' : heatOf (evalReady f s) f = some h') : heatClass h' = heatClass h ∧ h'.classStamp = h.classStamp := by
  rcases evalReady_cases f s with ⟨q, -⟩ | ⟨x, ex, dest, c, only⟩
  · rw [q] at e'
    cases Option.some.inj (e.symm.trans e')
    exact ⟨rfl, rfl⟩
  · have after : heatOf (evalReady f s) f = some { x with state := dest } := by
      rw [heatOf_congr (s := setHeat f { x with state := dest } s) (by rw [only.heat]; rfl)]
      exact heatOf_setHeat_same _ _ _
    cases Option.some.inj (e.symm.trans ex)
    cases Option.some.inj (e'.symm.trans after)
    refine ⟨?_, rfl⟩
    unfold heatClass
    rcases c with ⟨c, d, -⟩ | ⟨c, d, -⟩ <;> rw [c, d]

/-- R10 moves no heat in a way that R11 posts. -/
theorem readyPosting_evalLiquid (f : Furnace) (s : State) :
    readyPosting f s (evalHeat f s) = readyPosting f (evalLiquid f s) (evalHeat f s) := by
  obtain ⟨-, l2, l3⟩ := evalLiquid_only f s
  have cases' := evalReady_cases f (evalLiquid f s)
  unfold evalHeat
  generalize evalLiquid f s = x at *
  cases e : heatOf s f with
  | none => rw [l3 e]
  | some h =>
    have ex := l2 h e
    have state : (restamp (now s) h (liquidEval s h)).state = (liquidEval s h).state := restamp_state _ _ _
    have number : (restamp (now s) h (liquidEval s h)).number = h.number := by rw [(restamp_moved s h h rfl).1]
    generalize restamp (now s) h (liquidEval s h) = y at *
    rcases liquidEval_moves s h with m | ⟨m, n⟩ | ⟨m, n⟩
    · unfold readyPosting
      rw [e, ex]
      cases heatOf (evalReady f x) f with
      | none => rfl
      | some z =>
        dsimp only
        rw [number, state, m]
    · unfold readyPosting
      rw [e, ex]
      cases heatOf (evalReady f x) f with
      | none => rfl
      | some z =>
        dsimp only
        rw [number, state, m, n]
        cases hz : z.state <;> simp
    · have stays : evalReady f x = x := by
        rcases cases' with ⟨q, -⟩ | ⟨w, ew, dest, c, -⟩
        · exact q
        · cases Option.some.inj (ex.symm.trans ew)
          rw [state, n] at c
          rcases c with ⟨c, -⟩ | ⟨c, -⟩ <;> cases c
      rw [stays, readyPosting_self f rfl]
      unfold readyPosting
      rw [e, ex]
      dsimp only
      rw [state, n]
      simp

/-- R10 and then R11 on the heat of a furnace: the frame, the class entry stamp and the notices. -/
theorem evalHeat_run (f : Furnace) (s : State) : ReadyRun f s (evalHeat f s) := by
  have posting := readyPosting_evalLiquid f s
  obtain ⟨l1, l2, l3⟩ := evalLiquid_only f s
  obtain ⟨r1, -, r3, r4⟩ := evalReady_run f (evalLiquid f s)
  have cls := fun {h h'} => evalReady_class f (evalLiquid f s) (h := h) (h' := h')
  unfold evalHeat at *
  generalize evalLiquid f s = x at *
  generalize evalReady f x = t at *
  refine ⟨(l1.mono (by simp)).trans r1, ?_, by rw [posting]; exact r3, fun q => ?_⟩
  · intro h hh h' hh' same
    have ex := l2 h hh
    obtain ⟨c1, c2⟩ := cls ex hh'
    rw [c1] at same
    rw [c2]
    exact restamp_kept s h same
  · rcases r4 q with k | k
    · exact Or.inl ((l1.1.2.2.2.2.2.1 q).trans k)
    · rw [posting]
      exact Or.inr k

/-- R10 and R11 on the heat of a furnace: it then stands as they give it. -/
theorem evalHeat_evaluated (f : Furnace) (s : State) : EvaluatedNow f (evalHeat f s) :=
  ⟨(evalReady_current f _).1, (evalReady_current f _).2 (reviseHeat_liquid f id s)⟩

/-- Notices but READY_CHANGED posted, and the heats left, keep what R11 has posted. -/
theorem ReadyPosted.keep {kinds : List NoticeKind} {s t u : State} (h : ReadyPosted s t)
    (noted : PortsNoted kinds t u) (out : .readyChanged ∉ kinds) (heat : ∀ f, heatOf u f = heatOf t f) :
    ReadyPosted s u := by
  have same : ∀ f, readyPosting f s u = readyPosting f s t := fun f => readyPosting_congr rfl (heat f)
  have stays : ∀ {q : Port} {d : Detail}, d.kind = .readyChanged → (∃ n ∈ (t.ports.get q).notices, n.detail = d) →
      ∃ n ∈ (u.ports.get q).notices, n.detail = d := by
    rintro q d k ⟨n, hn, hd⟩
    exact ⟨n, (noted q).mem hn (by rw [hd, k]; exact out), hd⟩
  intro f d hd
  rw [same] at hd
  obtain ⟨a, b⟩ := h f d hd
  have k := (readyPosting_kind hd).1
  exact ⟨stays k a, fun last => stays (q := .p) k (b (by rw [← same]; exact last))⟩

/-- One heat evaluated, the other as it was. -/
theorem ReadyRun.posted {f : Furnace} {s t : State} (h : ReadyRun f s t) : ReadyPosted s t := by
  obtain ⟨only, -, noted, -⟩ := h
  intro g d hd
  rcases furnace_cases f g with e | e
  · subst e
    have n := noted d hd
    have k := (readyPosting_kind hd).2
    exact ⟨n _ k.2, fun _ => n .p k.1⟩
  · subst e
    rw [readyPosting_self _ only.other] at hd
    cases hd

theorem PortNoted.notice {kinds : List NoticeKind} {x y : PortRec} (h : PortNoted kinds x y) {d : Detail}
    (out : d.kind ∉ kinds) (has : ∃ n ∈ x.notices, n.detail = d) : ∃ n ∈ y.notices, n.detail = d := by
  obtain ⟨n, hn, hd⟩ := has
  exact ⟨n, h.mem hn (by rw [hd]; exact out), hd⟩

/-- The evaluations of both heats (R10, R11): the frame, the class entry stamps, the notices, and where the heats
stand. -/
theorem evalHeats_run (s : State) :
    Evaluated [.readyChanged] s (evalHeats s) ∧ (evalHeats s).shop = s.shop
      ∧ ClassKept .a s (evalHeats s) ∧ ClassKept .b s (evalHeats s) ∧ ReadyPosted s (evalHeats s)
      ∧ ∀ f, EvaluatedNow f (evalHeats s) := by
  obtain ⟨aOnly, aKept, aNoted, aPorts⟩ := evalHeat_run .a s
  have aNow := evalHeat_evaluated .a s
  obtain ⟨bOnly, bKept, bNoted, bPorts⟩ := evalHeat_run .b (evalHeat .a s)
  have bNow := evalHeat_evaluated .b (evalHeat .a s)
  unfold evalHeats
  generalize evalHeat .a s = x at *
  generalize evalHeat .b x = t at *
  have bBefore : heatOf x .b = heatOf s .b := aOnly.other
  have aAfter : heatOf t .a = heatOf x .a := bOnly.other
  have bPosting : readyPosting .b s t = readyPosting .b x t := readyPosting_congr bBefore.symm rfl
  have aPosting : readyPosting .a s t = readyPosting .a s x := readyPosting_congr rfl aAfter
  refine ⟨aOnly.1.trans bOnly.1, bOnly.2.1.trans aOnly.2.1, ?_, ?_, ?_, ?_⟩
  · unfold ClassKept
    rw [aAfter]
    exact aKept
  · unfold ClassKept at *
    rw [← bBefore]
    exact bKept
  · intro f d hd
    cases f
    · rw [aPosting] at hd
      have n := aNoted d hd
      obtain ⟨k, kp, kd⟩ := readyPosting_kind hd
      have out : d.kind ∉ refusalKinds := by rw [k]; decide
      refine ⟨?_, fun last => ?_⟩
      · rcases bPorts (deckPort .a) with stays | ⟨mine, -⟩
        · exact stays.notice out (n _ kd)
        · rcases mine with mine | mine <;> cases mine
      · rcases bPorts .p with stays | ⟨-, posted⟩
        · exact stays.notice out (n _ kp)
        · rcases last with last | last
          · cases last
          · rw [bPosting] at last
            exact absurd last posted
    · rw [bPosting] at hd
      have n := bNoted d hd
      obtain ⟨-, kp, kd⟩ := readyPosting_kind hd
      exact ⟨n _ kd, fun _ => n .p kp⟩
  · intro f
    cases f
    · exact aNow.congr bOnly.inputs bOnly.2.2
    · exact bNow

/-! ### The floor wake and the settling of a step -/

theorem setShop_noted (st : ShopState) (c : ShopCause) (s : State) : PortsNoted [.shopState] s (setShop st c s) :=
  PortsNoted.trans (t := { s with shop := { s.shop with state := st } }) (PortsNoted.of_eq rfl)
    (post_noted_of (by simp [Detail.kind]))

/-- `atFloor` is the cause of R70. -/
theorem floorReached_iff (s : State) :
    FloorReached s ↔ wakeOnFloor s = true ∧ (atFloor s .a || atFloor s .b) = true := by
  have one : ∀ f, atFloor s f = true ↔ ∃ h ∈ heatOf s f, h.state ≠ .melting ∧ ∃ e ∈ h.estimate, e ≤ bankFloor s := by
    intro f
    unfold atFloor
    cases heatOf s f with
    | none => simp
    | some h => cases he : h.estimate <;> cases hs : h.state <;> simp [he, hs, isLiquid]
  unfold FloorReached
  rw [Bool.or_eq_true, one, one]
  constructor
  · rintro ⟨w, f, c⟩
    cases f
    · exact ⟨w, Or.inl c⟩
    · exact ⟨w, Or.inr c⟩
  · rintro ⟨w, c | c⟩
    · exact ⟨w, .a, c⟩
    · exact ⟨w, .b, c⟩

theorem setShop_evaluated (s : State) (banked : s.shop.state = .banked) (floor : FloorReached s) :
    Evaluated [.shopState] s (setShop .run .floor s) :=
  ⟨rfl, rfl, fun _ => SlotEvaluated.refl _ _, Or.inr ⟨banked, floor, rfl⟩, TapRefused.refl _ _,
    Told.of_noted (setShop_noted _ _ s) rfl⟩

/-- The floor wake leaves the state, or wakes a banked deck and evaluates both heats (R70). -/
theorem floorWake_spec (s : State) :
    Evaluated [.readyChanged, .shopState] s (floorWake s)
      ∧ (floorWake s = s
        ∨ (floorWake s).shop ≠ s.shop ∧ ∀ f, EvaluatedNow f (floorWake s)) := by
  unfold floorWake
  split
  · next c =>
    obtain ⟨e, shop, -, -, -, ev⟩ := evalHeats_run (setShop .run .floor s)
    refine ⟨((setShop_evaluated s c.1 ((floorReached_iff s).mpr c.2)).mono (by simp)).trans (e.mono (by simp)),
      Or.inr ⟨fun same => ?_, ev⟩⟩
    rw [shop] at same
    have run : (setShop .run .floor s).shop.state = .run := rfl
    rw [same, c.1] at run
    cases run
  · exact ⟨Evaluated.refl _ s, Or.inl rfl⟩

/-- A banked deck with the floor cause returns to RUN, with SHOP_STATE (R70). -/
theorem floorWake_follows (s : State) : FloorFollows s (floorWake s) := by
  intro banked floor
  obtain ⟨e, shop, -⟩ := evalHeats_run (setShop .run .floor s)
  unfold floorWake
  rw [if_pos ⟨banked, (floorReached_iff s).mp floor⟩, shop]
  exact ⟨rfl, (post_noticed (.shopState .run s.shop.reasons .floor) _).keep e.2.2.2.2.2.1
    (by simp [Detail.kind, refusalKinds])⟩

/-- The floor cause is taken on what evaluations have left, and a follow-up leaves it. -/
theorem FloorFollows.around {kinds : List NoticeKind} {s x y : State} (h : FloorFollows x y)
    (e : Evaluated kinds s x) (shop : x.shop = s.shop) : FloorFollows s (coordinate y) := by
  intro banked floor
  obtain ⟨run, noticed⟩ := h (by rw [shop]; exact banked) (floor.evaluated e.sett e.2.2.1)
  have fr := coordinate_frame y
  have same : (coordinate y).shop = y.shop := by rw [fr.1]
  rw [shop] at noticed
  exact ⟨by rw [same]; exact run, noticed.keep fr.2.2.2.2.2.1 (by simp [Detail.kind, matchKinds])⟩

theorem coordinate_evaluated {f : Furnace} {s : State} (h : EvaluatedNow f s) : EvaluatedNow f (coordinate s) := by
  obtain ⟨fr, -, -, m, -⟩ := coordinate_frame s
  refine h.congr ⟨by rw [fr], by rw [fr], by rw [fr], by rw [fr], ?_⟩ (by rw [fr])
  rw [m.1]

theorem coordinate_heatOf (s : State) (f : Furnace) : heatOf (coordinate s) f = heatOf s f :=
  heatOf_congr (by rw [(coordinate_frame s).1])

theorem ClassKept.congr {f : Furnace} {s t u : State} (h : ClassKept f s t) (e : heatOf u f = heatOf t f) :
    ClassKept f s u := by
  unfold ClassKept at *
  rw [e]
  exact h

/-- The kinds an evaluation and a floor wake post are among the kinds of a settled step. -/
theorem evaluated_kinds (k : NoticeKind) (h : k ∈ [NoticeKind.readyChanged, .shopState]) :
    k ∈ [] ++ followKinds := by
  revert h
  cases k <;> decide

/-- Evaluations, the floor wake and the follow-up. -/
theorem follow_settled {s x : State} (h : Evaluated [.readyChanged] s x)
    (shop : x.shop = s.shop) (l : loading s = false) :
    Settled [] s (coordinate (floorWake x)) ∧ AllotmentCurrent (coordinate (floorWake x))
      ∧ TiltNoticed s (coordinate (floorWake x)) ∧ FloorFollows s (coordinate (floorWake x)) := by
  have w := (floorWake_spec x).1
  have ev := (h.mono (more := [.readyChanged, .shopState]) (by simp)).trans w
  have co := coordinate_coordinated (floorWake x) (by rw [ev.loading, l])
  exact ⟨(ev.mono evaluated_kinds).settled co.settled, co.2.2.2.2.2.2.2, ev.tiltNoticed co.2.2.2.2.2.2.1,
    (floorWake_follows x).around h shop⟩

/-- What settling a change of one furnace's heat gives. -/
theorem settleHeat_settledFor (f : Furnace) (s : State) (l : loading s = false) :
    SettledFor [] f s (settleHeat f s) := by
  have matched := (settleHeat_served f s l).2
  unfold settleHeat at *
  rw [if_neg (by rw [l]; decide)] at *
  have run := evalHeat_run f s
  have now' := evalHeat_evaluated f s
  generalize evalHeat f s = x at *
  obtain ⟨set, cur, tilt, floor⟩ := follow_settled run.1.1 run.1.2.1 l
  have shop : (coordinate (floorWake x)).shop = (floorWake x).shop := by rw [(coordinate_frame _).1]
  rcases (floorWake_spec x).2 with same | ⟨woken, ev⟩
  · rw [same] at set cur tilt floor matched ⊢
    refine ⟨set, coordinate_evaluated now', cur, tilt, floor, matched, fun _ => ⟨?_, ?_, ?_⟩⟩
    · rw [(coordinate_frame x).1]
      exact run.1.2.2
    · exact run.2.1.congr (coordinate_heatOf x f)
    · exact run.posted.keep (coordinate_frame x).2.2.2.2.2.1 (by decide) (coordinate_heatOf x)
  · refine ⟨set, coordinate_evaluated (ev f), cur, tilt, floor, matched, fun stays => absurd ?_ woken⟩
    rw [← shop, stays, run.1.2.1]

/-- What settling a change that both furnaces read gives. -/
theorem settleAll_settledAll (s : State) (l : loading s = false) : SettledAll [] s (settleAll s) := by
  have matched := (settleAll_served s l).2
  unfold settleAll at *
  rw [if_neg (by rw [l]; decide)] at *
  obtain ⟨only, same, ka, kb, posted, now'⟩ := evalHeats_run s
  generalize evalHeats s = x at *
  obtain ⟨set, cur, tilt, floor⟩ := follow_settled only same l
  have shop : (coordinate (floorWake x)).shop = (floorWake x).shop := by rw [(coordinate_frame _).1]
  rcases (floorWake_spec x).2 with e | ⟨woken, ev⟩
  · rw [e] at set cur tilt floor matched ⊢
    exact ⟨set, coordinate_evaluated (now' .a), coordinate_evaluated (now' .b), cur, tilt, floor, matched, fun _ =>
      ⟨ka.congr (coordinate_heatOf x .a), kb.congr (coordinate_heatOf x .b),
        posted.keep (coordinate_frame x).2.2.2.2.2.1 (by decide) (coordinate_heatOf x)⟩⟩
  · refine ⟨set, coordinate_evaluated (ev .a), coordinate_evaluated (ev .b), cur, tilt, floor, matched, fun stays =>
      absurd ?_ woken⟩
    rw [← shop, stays, same]

/-! ### The queue's work or notices before the follow-up -/

theorem FloorFollows.of_tapOnly {kinds : List NoticeKind} {s x t : State} (g : FloorFollows x t)
    (h : TapOnly kinds s x) : FloorFollows s t := by
  have e := h.evaluated
  intro banked floor
  rw [← h.shop] at banked ⊢
  exact g banked (floor.evaluated e.sett e.2.2.1)

/-- A change of the queue and notices, and then a settled change of one furnace's heat. -/
theorem TapOnly.settledFor {kinds : List NoticeKind} {f : Furnace} {s x t : State} (h : TapOnly kinds s x)
    (g : SettledFor [] f x t) (kept : MatchKept s x) (served : MatchServed x t) : SettledFor kinds f s t := by
  obtain ⟨set, ev, cur, tilt, floor, -, stands⟩ := g
  have e : Evaluated (kinds ++ followKinds) s x := h.evaluated.mono fun k hk => List.mem_append_left _ hk
  refine ⟨e.settled set, ev, cur, e.tiltNoticed tilt, floor.of_tapOnly h, (kept.served served).2, fun same => ?_⟩
  obtain ⟨a, b, c⟩ := stands (by rw [same, h.shop])
  have heat : ∀ f, heatOf x f = heatOf s f := fun f => heatOf_congr (by rw [h.heat])
  refine ⟨by rw [a, h.heat], ?_, ?_⟩
  · unfold ClassKept at *
    rw [← heat]
    exact b
  · unfold ReadyPosted readyPosting at *
    simp only [heat] at c
    exact c

/-- A change of the queue and notices, and then a settled change that both furnaces read. -/
theorem TapOnly.settledAll {kinds : List NoticeKind} {s x t : State} (h : TapOnly kinds s x) (g : SettledAll [] x t)
    (kept : MatchKept s x) (served : MatchServed x t) : SettledAll kinds s t := by
  obtain ⟨set, evA, evB, cur, tilt, floor, -, stands⟩ := g
  have e : Evaluated (kinds ++ followKinds) s x := h.evaluated.mono fun k hk => List.mem_append_left _ hk
  refine ⟨e.settled set, evA, evB, cur, e.tiltNoticed tilt, floor.of_tapOnly h, (kept.served served).2, fun same => ?_⟩
  obtain ⟨a, b, c⟩ := stands (by rw [same, h.shop])
  have heat : ∀ f, heatOf x f = heatOf s f := fun f => heatOf_congr (by rw [h.heat])
  unfold ClassKept ReadyPosted readyPosting at *
  simp only [heat] at a b c
  exact ⟨a, b, c⟩

/-- Notices posted, and then a follow-up. -/
theorem Coordinated.after_notices {kinds : List NoticeKind} {s x t : State} (only : x = { s with ports := x.ports })
    (noted : PortsNoted kinds s x) (g : Coordinated [] x t) : Coordinated kinds s t := by
  obtain ⟨g1, g2, g3, g4, g5, g6, g7, g8⟩ := g
  have allot : x.allot = s.allot := by rw [only]
  have stage : x.stage = s.stage := by rw [only]
  have tap : x.tap = s.tap := by rw [only]
  refine ⟨by rw [g1, only], by rw [← allot]; exact g2, by rw [← stage]; exact g3, by rw [← tap]; exact g4,
    fun e he f hf => ?_, (noted.mono fun k hk => List.mem_append_left _ hk).trans (g6.mono fun k hk => ?_),
    g7.of_tap (by rw [tap]) (by rw [tap]), g8⟩
  · rcases g5 e he f hf with k | k
    · exact Or.inl (by rw [← tap]; exact k)
    · exact Or.inr k
  · exact List.mem_append_right _ (by simpa using hk)

/-! ### Settling, while the settings are being loaded and notice by notice -/

theorem settleHeat_loading (f : Furnace) (s : State) (l : loading s = true) : settleHeat f s = s := by
  unfold settleHeat
  rw [if_pos l]

theorem settleAll_loading (s : State) (l : loading s = true) : settleAll s = s := by
  unfold settleAll
  rw [if_pos l]

/-- Notices of other kinds stay through the settling of a step. -/
theorem settleHeat_noted (f : Furnace) (s : State) : PortsNoted settleKinds s (settleHeat f s) := by
  cases l : loading s
  · exact (settleHeat_settledFor f s l).1.2.2.2.2.2.2.2.2.1
  · rw [settleHeat_loading f s l]
    exact PortsNoted.refl _ _

theorem settleAll_noted (s : State) : PortsNoted settleKinds s (settleAll s) := by
  cases l : loading s
  · exact (settleAll_settledAll s l).1.2.2.2.2.2.2.2.2.1
  · rw [settleAll_loading s l]
    exact PortsNoted.refl _ _

end Sys2Proof.Machine
end

