-- ==== Sys2Proof/Laws/Circuits.lean ====
section
/-! SUPPORT. What a step of protection may change: the frame `ProtOnly`, in which every circuit and loop operation stands,
and `ProtFrame` with what follows from it. -/

namespace Sys2Proof.Machine

/-! ### A stopped timer (R102) -/

@[simp] theorem Timer.stop_mode (t : Timer) : t.stop.mode = .stopped := rfl
@[simp] theorem Timer.stop_ms (t : Timer) : t.stop.ms = t.ms := rfl
@[simp] theorem CircuitRec.stopTimers_state (r : CircuitRec) : r.stopTimers.state = r.state := rfl
@[simp] theorem CircuitRec.stopTimers_latch (r : CircuitRec) : r.stopTimers.latch = r.latch := rfl
@[simp] theorem CircuitRec.stopTimers_watch (r : CircuitRec) : r.stopTimers.watch = r.watch.stop := rfl
@[simp] theorem CircuitRec.stopTimers_derate (r : CircuitRec) : r.stopTimers.derate = r.derate.stop := rfl
@[simp] theorem CircuitRec.stopTimers_recovery (r : CircuitRec) : r.stopTimers.recovery = r.recovery.stop := rfl

/-- The timers stopped are those of the statements. -/
theorem stopTimers_halted (r : CircuitRec) : r.stopTimers = timersHalted r := rfl

theorem OffDrawsNothing.congr {s t : State} (h : OffDrawsNothing s) (held : t.stage.held = s.stage.held) :
    OffDrawsNothing t := by
  unfold OffDrawsNothing at *
  rw [held]
  exact h

/-- A step that trips no circuit and leaves the Stage Link Controller. -/
theorem ProtOnly.quiet {s t : State} (frame : t = { s with shop := t.shop, prot := t.prot, ports := t.ports })
    (shop : t.shop = { s.shop with breakerTrip := t.shop.breakerTrip, stuckTimer := t.shop.stuckTimer })
    (noted : PortsNoted circuitKinds s t)
    (keep : ∀ c, (circuitOf s c).state = .trip →
      (circuitOf t c).state = .trip ∧ (circuitOf t c).cause = (circuitOf s c).cause)
    (fresh : ∀ c, (circuitOf t c).state = .trip → (circuitOf s c).state = .trip) : ProtOnly s t := by
  have stage : t.stage = s.stage := by rw [frame]
  have enable : ∀ f, State.outputEnable t f = State.outputEnable s f := fun f => by unfold State.outputEnable; rw [stage]
  refine ⟨by rw [frame], shop, by rw [stage]; exact StageHanded.refl _, by rw [stage], noted, fun f h => ?_,
    fun _ c f _ trip down => ?_, keep⟩
  · rw [enable]
    exact h
  · rw [enable]
    exact down (fresh c trip)

theorem ProtOnly.refl (s : State) : ProtOnly s s :=
  ProtOnly.quiet rfl rfl (PortsNoted.refl _ _) (fun _ h => ⟨h, rfl⟩) (fun _ h => h)

/-- A step that leaves protection and the Stage Link Controller as they were. -/
theorem ProtOnly.of_prot {s t : State} (frame : t = { s with shop := t.shop, prot := t.prot, ports := t.ports })
    (shop : t.shop = { s.shop with breakerTrip := t.shop.breakerTrip, stuckTimer := t.shop.stuckTimer })
    (noted : PortsNoted circuitKinds s t) (circuits : t.prot.circuits = s.prot.circuits) : ProtOnly s t := by
  have same : ∀ c, circuitOf t c = circuitOf s c := fun c => by unfold circuitOf; rw [circuits]
  exact ProtOnly.quiet frame shop noted (fun c h => by rw [same]; exact ⟨h, rfl⟩) (fun c h => by rw [← same]; exact h)

theorem ProtOnly.trans {s t u : State} (h : ProtOnly s t) (g : ProtOnly t u) : ProtOnly s u := by
  obtain ⟨h1, h2, h3, h4, h5, h6, h7, h8⟩ := h
  obtain ⟨g1, g2, g3, g4, g5, g6, g7, g8⟩ := g
  refine ⟨by rw [g1, h1], by rw [g2, h2], h3.trans g3, g4.trans h4, h5.trans g5, fun f n => g6 f (h6 f n),
    fun off c f named trip down => ?_, fun c hc => ?_⟩
  · exact g7 (off.congr h4) c f named trip (fun was => h7 off c f named was down)
  · obtain ⟨st, ca⟩ := h8 c hc
    obtain ⟨st', ca'⟩ := g8 c st
    exact ⟨st', ca'.trans ca⟩

/-- A step of protection keeps the enable lines of tripped circuits down (R78, R109). -/
theorem TripsHeldDown.step {s t : State} (h : TripsHeldDown s) (g : ProtOnly s t) : TripsHeldDown t :=
  ⟨h.1.congr g.2.2.2.1, fun c f named trip => g.2.2.2.2.2.2.1 h.1 c f named trip (h.2 c f named)⟩

theorem ProtOnly.loading {s t : State} (h : ProtOnly s t) : Machine.loading t = Machine.loading s := by
  unfold Machine.loading
  rw [h.1]

/-! ### The operations -/

theorem post_protOnly {d : Detail} (s : State) (e : d.kind ∈ circuitKinds) : ProtOnly s (post d s) :=
  ProtOnly.of_prot rfl rfl (post_noted_of e) rfl

theorem postTo_protOnly {d : Detail} (q : Port) (s : State) (e : d.kind ∈ circuitKinds) : ProtOnly s (postTo q d s) :=
  ProtOnly.of_prot rfl rfl (postTo_noted_of e) rfl

theorem cooling_protOnly (s x : State) : ProtOnly s (post (coolingDetail x) s) :=
  post_protOnly s (by simp [coolingDetail, Detail.kind, circuitKinds])

theorem assertBreaker_protOnly (s : State) : ProtOnly s (assertBreaker s) := by
  unfold assertBreaker
  split
  · exact ProtOnly.of_prot rfl rfl (PortsNoted.of_eq rfl) rfl
  · exact ProtOnly.refl s

/-- A circuit record written: a tripped circuit's state and cause must stand, and no circuit trips. -/
theorem setCircuitRec_protOnly (c : Circuit) (r : CircuitRec) (s : State)
    (keep : (circuitOf s c).state = .trip → r.state = .trip ∧ r.cause = (circuitOf s c).cause)
    (fresh : r.state = .trip → (circuitOf s c).state = .trip) : ProtOnly s (setCircuitRec c r s) := by
  refine ProtOnly.quiet rfl rfl (PortsNoted.of_eq rfl) (fun d h => ?_) (fun d h => ?_) <;> by_cases e : d = c
  · subst e
    rw [circuitOf_setCircuitRec_same]
    exact keep h
  · rw [circuitOf_setCircuitRec_other _ _ e]
    exact ⟨h, rfl⟩
  · subst e
    rw [circuitOf_setCircuitRec_same] at h
    exact fresh h
  · rw [circuitOf_setCircuitRec_other _ _ e] at h
    exact h

theorem Stage.kick_held (st : Stage) : st.kick.held = st.held ∧ st.kick.tripHold = st.tripHold := by
  unfold Stage.kick
  split
  · split
    · exact ⟨rfl, rfl⟩
    · split <;> exact ⟨rfl, rfl⟩
  · exact ⟨rfl, rfl⟩

/-- The enable lines of the outputs named fall when a trip is taken (R78, R85). -/
theorem takeTrip_enable {mask : PerFurnace Bool} {s : State} {f : Furnace} (off : OffDrawsNothing s)
    (named : mask.get f = true) : State.outputEnable (takeTrip mask s) f = false := by
  have held := Stage.kick_held (s.stage.takeTrip mask)
  have off' := off f
  unfold State.outputEnable takeTrip kick
  dsimp only
  rw [held.1, held.2]
  cases f <;> simp only [PerFurnace.get, Stage.takeTrip] at named off' ⊢
  · by_cases m : s.stage.held.a.mode = .off
    · simp [off' m]
    · simp [named, m]
  · by_cases m : s.stage.held.b.mode = .off
    · simp [off' m]
    · simp [named, m]

/-- No enable line rises by a trip. -/
theorem takeTrip_stays {mask : PerFurnace Bool} {s : State} {f : Furnace} (h : State.outputEnable s f = false) :
    State.outputEnable (takeTrip mask s) f = false := by
  have held := Stage.kick_held (s.stage.takeTrip mask)
  have handed : StageHanded s.stage (takeTrip mask s).stage :=
    StageHanded.trans (y := s.stage.takeTrip mask) rfl (Stage.kick_handed _)
  have link := handed.link
  have sent := handed.sent
  unfold State.outputEnable at *
  rw [link, sent]
  unfold takeTrip kick
  dsimp only
  rw [held.1, held.2]
  cases f <;> simp only [PerFurnace.get, Stage.takeTrip] at h ⊢
  · cases t : s.stage.tripHold.a <;> simp_all <;> exact fun a b _ => h a b
  · cases t : s.stage.tripHold.b <;> simp_all <;> exact fun a b _ => h a b

/-- A circuit record in TRIP with the trip taken for its outputs (R108, R109). -/
theorem tripTaken_protOnly (c : Circuit) (r : CircuitRec) (s : State) (was : (circuitOf s c).state ≠ .trip) :
    ProtOnly s (takeTrip (circuitMask c) (setCircuitRec c r s)) := by
  have other : ∀ d, d ≠ c → circuitOf (takeTrip (circuitMask c) (setCircuitRec c r s)) d = circuitOf s d :=
    fun d h => circuitOf_setCircuitRec_other r s h
  refine ⟨rfl, rfl, StageHanded.trans (y := s.stage.takeTrip (circuitMask c)) rfl (Stage.kick_handed _),
    (Stage.kick_held _).1, PortsNoted.of_eq rfl, fun f h => takeTrip_stays (s := setCircuitRec c r s) h,
    fun off d f named trip down => ?_, fun d h => ?_⟩ <;> by_cases e : d = c
  · subst e
    exact takeTrip_enable (s := setCircuitRec d r s) off named
  · rw [other d e] at trip
    exact takeTrip_stays (s := setCircuitRec c r s) (down trip)
  · subst e
    exact absurd h was
  · rw [other d e]
    exact ⟨h, rfl⟩

theorem enterState_protOnly (c : Circuit) (r : CircuitRec) (s : State) (was : (circuitOf s c).state ≠ .trip)
    (fresh : r.state ≠ .trip) : ProtOnly s (enterState c r s) :=
  ProtOnly.trans (t := setCircuitRec c { r with enteredAt := now s } s)
    (setCircuitRec_protOnly c _ s (fun h => absurd h was) (fun h => absurd h fresh)) (cooling_protOnly _ _)

theorem tripCircuit_protOnly (c : Circuit) (cause : TripCause) (s : State) (was : (circuitOf s c).state ≠ .trip) :
    ProtOnly s (tripCircuit c cause s) := by
  unfold tripCircuit
  dsimp only
  have first := tripTaken_protOnly c
      { (circuitOf s c).stopTimers with state := .trip, cause := some cause, enteredAt := now s, latch := true } s was
  split
  · exact (first.trans (assertBreaker_protOnly _)).trans (cooling_protOnly _ _)
  · exact first.trans (cooling_protOnly _ _)

/-- What a trip leaves of its circuit (R108). -/
theorem tripCircuit_circuit (c : Circuit) (cause : TripCause) (s : State) :
    circuitOf (tripCircuit c cause s) c
      = { (circuitOf s c).stopTimers with state := .trip, cause := some cause, enteredAt := now s, latch := true } := by
  unfold tripCircuit
  dsimp only
  split
  · unfold assertBreaker
    split
    · exact circuitOf_setCircuitRec_same c _ s
    · exact circuitOf_setCircuitRec_same c _ s
  · exact circuitOf_setCircuitRec_same c _ s

/-- A trip leaves the other circuits and the loop alone. -/
theorem tripCircuit_others (c : Circuit) (cause : TripCause) (s : State) :
    (tripCircuit c cause s).prot = { s.prot with circuits := (tripCircuit c cause s).prot.circuits }
      ∧ ∀ d, d ≠ c → circuitOf (tripCircuit c cause s) d = circuitOf s d := by
  unfold tripCircuit
  dsimp only
  split
  · unfold assertBreaker
    split
    · exact ⟨rfl, fun d h => circuitOf_setCircuitRec_other _ s h⟩
    · exact ⟨rfl, fun d h => circuitOf_setCircuitRec_other _ s h⟩
  · exact ⟨rfl, fun d h => circuitOf_setCircuitRec_other _ s h⟩

theorem leakNoticeAt_protOnly (q : Port) (old cond : PerFurnace Bool) (s : State) :
    ProtOnly s (leakNoticeAt q old cond s)
      ∧ (leakNoticeAt q old cond s).prot = { s.prot with leakCarried := (leakNoticeAt q old cond s).prot.leakCarried } := by
  unfold leakNoticeAt
  dsimp only
  have noted : ProtOnly s { s with prot := { s.prot with
      leakCarried := s.prot.leakCarried.set q (carriedNext old cond (s.prot.leakCarried.get q)) } } :=
    ProtOnly.of_prot rfl rfl (PortsNoted.of_eq rfl) rfl
  split
  · split
    · exact ⟨noted, rfl⟩
    · exact ⟨noted.trans (postTo_protOnly _ _ (by simp [leakDetail, Detail.kind, circuitKinds])), rfl⟩
  · exact ⟨noted, rfl⟩

/-- Forming the conditions writes HARD, SOFT and the leak warning of one circuit, and what LEAK_WARN carries (R103,
R110). -/
theorem formConditions_protOnly (c : Circuit) (s : State) :
    ProtOnly s (formConditions c s)
      ∧ (formConditions c s).prot.circuits
        = s.prot.circuits.set c
            { circuitOf s c with
              hard := (hardCause s c).isSome, soft := softCond s c, leakWarning := leakWarningCond s c }
      ∧ (formConditions c s).prot.loop = s.prot.loop := by
  unfold formConditions
  dsimp only
  generalize hx : setCircuitRec c
    { circuitOf s c with
      hard := (hardCause s c).isSome, soft := softCond s c, leakWarning := leakWarningCond s c } s = x
  have start : ProtOnly s x := by
    rw [← hx]
    exact setCircuitRec_protOnly c _ s (fun h => ⟨h, rfl⟩) id
  have circuits : x.prot.circuits = s.prot.circuits.set c
      { circuitOf s c with
        hard := (hardCause s c).isSome, soft := softCond s c, leakWarning := leakWarningCond s c } := by rw [← hx]; rfl
  have loop : x.prot.loop = s.prot.loop := by rw [← hx]; rfl
  obtain ⟨a1, a2⟩ := leakNoticeAt_protOnly .a (leakStands s) (leakStands x) x
  generalize leakNoticeAt .a (leakStands s) (leakStands x) x = xa at *
  obtain ⟨b1, b2⟩ := leakNoticeAt_protOnly .b (leakStands s) (leakStands x) xa
  generalize leakNoticeAt .b (leakStands s) (leakStands x) xa = xb at *
  obtain ⟨p1, p2⟩ := leakNoticeAt_protOnly .p (leakStands s) (leakStands x) xb
  generalize leakNoticeAt .p (leakStands s) (leakStands x) xb = xp at *
  refine ⟨start.trans (a1.trans (b1.trans p1)), ?_, ?_⟩
  · rw [p2, b2, a2]
    exact circuits
  · rw [p2, b2, a2]
    exact loop

theorem softReturns_protOnly (c : Circuit) (s : State) (was : (circuitOf s c).state ≠ .trip) :
    ProtOnly s (softReturns c s) := by
  unfold softReturns
  dsimp only
  split
  · exact tripCircuit_protOnly c _ s was
  · exact setCircuitRec_protOnly c _ s (fun h => absurd h was) id

theorem advanceCircuit_protOnly (c : Circuit) (s : State) : ProtOnly s (advanceCircuit c s) := by
  unfold advanceCircuit
  dsimp only
  split
  · exact ProtOnly.refl s
  · next st =>
    have was : (circuitOf s c).state ≠ .trip := by rw [st]; decide
    split
    · exact tripCircuit_protOnly c _ s was
    · split
      · exact tripCircuit_protOnly c _ s was
      · split
        · split
          · exact enterState_protOnly c _ s was (by simp)
          · exact enterState_protOnly c _ s was (by simp)
        · exact ProtOnly.refl s
  · next st =>
    have was : (circuitOf s c).state ≠ .trip := by rw [st]; decide
    split
    · exact tripCircuit_protOnly c _ s was
    · split
      · exact enterState_protOnly c _ s was (by simp)
      · exact ProtOnly.refl s
  · next st =>
    have was : (circuitOf s c).state ≠ .trip := by rw [st]; decide
    split
    · exact tripCircuit_protOnly c _ s was
    · split
      · exact ProtOnly.refl s
      · exact enterState_protOnly c _ s was (by simp)
  · next st =>
    have was : (circuitOf s c).state ≠ .trip := by rw [st]; decide
    split
    · exact tripCircuit_protOnly c _ s was
    · split
      · exact setCircuitRec_protOnly c _ s (fun h => absurd h was) (fun h => by rw [st] at h; cases h)
      · split
        · exact softReturns_protOnly c s was
        · exact ProtOnly.refl s

/-- A circuit's evaluation (R104). -/
theorem evalCircuit_protOnly (c : Circuit) (s : State) : ProtOnly s (evalCircuit c s) := by
  unfold evalCircuit
  split
  · exact ProtOnly.refl s
  · exact (formConditions_protOnly c s).1.trans (advanceCircuit_protOnly c _)

theorem evalCircuits_protOnly (s : State) : ProtOnly s (evalCircuits s) :=
  ((evalCircuit_protOnly .coilA s).trans (evalCircuit_protOnly .coilB _)).trans (evalCircuit_protOnly .cabinet _)

theorem formConditions_state (c : Circuit) (s : State) :
    (circuitOf (formConditions c s) c).state = (circuitOf s c).state := by
  unfold circuitOf
  rw [(formConditions_protOnly c s).2.1, PerCircuit.get_set_same]
  rfl

theorem watchExpires_protOnly (c : Circuit) (s : State) : ProtOnly s (watchExpires c s) := by
  unfold watchExpires
  split
  · next h =>
    exact (formConditions_protOnly c s).1.trans
      (enterState_protOnly c _ _ (by rw [formConditions_state, h.1]; decide) (by simp))
  · exact ProtOnly.refl s

theorem derateExpires_protOnly (c : Circuit) (s : State) : ProtOnly s (derateExpires c s) := by
  unfold derateExpires
  split
  · next h =>
    exact (formConditions_protOnly c s).1.trans
      (tripCircuit_protOnly c _ _ (by rw [formConditions_state, h.1]; decide))
  · exact ProtOnly.refl s

theorem recoveryExpires_protOnly (c : Circuit) (s : State) : ProtOnly s (recoveryExpires c s) := by
  unfold recoveryExpires
  split
  · next h =>
    exact (formConditions_protOnly c s).1.trans
      (enterState_protOnly c _ _ (by rw [formConditions_state, h.1]; decide) (by simp))
  · exact ProtOnly.refl s

theorem expireOverdue_protOnly (c : Circuit) (s : State) : ProtOnly s (expireOverdue c s) := by
  unfold expireOverdue
  dsimp only
  split
  · exact watchExpires_protOnly c s
  · split
    · exact derateExpires_protOnly c s
    · split
      · exact recoveryExpires_protOnly c s
      · exact ProtOnly.refl s

theorem expireAllOverdue_protOnly (s : State) : ProtOnly s (expireAllOverdue s) :=
  ((expireOverdue_protOnly .coilA s).trans (expireOverdue_protOnly .coilB _)).trans (expireOverdue_protOnly .cabinet _)

/-! ### The loop -/

theorem mapCircuits_protOnly (g : CircuitRec → CircuitRec) (s : State)
    (keep : ∀ r, (g r).state = r.state ∧ (g r).cause = r.cause) : ProtOnly s (mapCircuits g s) := by
  have e : ∀ c, circuitOf (mapCircuits g s) c = g (circuitOf s c) := fun c => by
    unfold circuitOf mapCircuits
    exact PerCircuit.get_map _ _ _
  refine ProtOnly.quiet rfl rfl (PortsNoted.of_eq rfl) (fun c h => ?_) (fun c h => ?_)
  · rw [e]
    exact ⟨(keep _).1.trans h, (keep _).2⟩
  · rw [e, (keep _).1] at h
    exact h

theorem setLoop_protOnly (st : LoopState) (cause : LoopCause) (latch : Bool) (s : State) :
    ProtOnly s (setLoop st cause latch s) :=
  ProtOnly.trans (t := { s with prot := { s.prot with loop :=
      { state := some st, standbyLatch := latch, settle := if st = .changeover then some 0 else none,
        pressure := none, cause := cause, changedAt := now s } } })
    (ProtOnly.of_prot rfl rfl (PortsNoted.of_eq rfl) rfl) (post_protOnly _ (by simp [Detail.kind, circuitKinds]))

theorem holdTimers_protOnly (s : State) : ProtOnly s (mapCircuits CircuitRec.holdTimers s) :=
  mapCircuits_protOnly CircuitRec.holdTimers s (fun _ => ⟨rfl, rfl⟩)

theorem releaseTimers_protOnly (s : State) : ProtOnly s (mapCircuits CircuitRec.releaseTimers s) :=
  mapCircuits_protOnly CircuitRec.releaseTimers s (fun _ => ⟨rfl, rfl⟩)

theorem enterChangeover_protOnly (cause : LoopCause) (s : State) : ProtOnly s (enterChangeover cause s) := by
  unfold enterChangeover
  refine ProtOnly.trans ?_ (evalCircuits_protOnly _)
  refine ProtOnly.trans ?_ (holdTimers_protOnly _)
  exact setLoop_protOnly _ _ _ s

theorem tripForLoop_protOnly (c : Circuit) (s : State) : ProtOnly s (tripForLoop c s) := by
  unfold tripForLoop
  split
  · exact ProtOnly.refl s
  · next h => exact tripCircuit_protOnly c _ s h

theorem enterLoopFail_protOnly (cause : LoopCause) (s : State) : ProtOnly s (enterLoopFail cause s) :=
  ((((setLoop_protOnly _ _ _ s).trans (tripForLoop_protOnly .coilA _)).trans (tripForLoop_protOnly .coilB _)).trans
    (tripForLoop_protOnly .cabinet _)).trans (assertBreaker_protOnly _)

theorem enterStandby_protOnly (s : State) : ProtOnly s (enterStandby s) := by
  unfold enterStandby
  refine ProtOnly.trans ?_ (expireAllOverdue_protOnly _)
  refine ProtOnly.trans ?_ (evalCircuits_protOnly _)
  refine ProtOnly.trans ?_ (releaseTimers_protOnly _)
  exact setLoop_protOnly _ _ _ s

theorem returnToMain_protOnly (s : State) : ProtOnly s (returnToMain s) :=
  (setLoop_protOnly _ _ _ s).trans (evalCircuits_protOnly _)

theorem settleExpires_protOnly (s : State) : ProtOnly s (settleExpires s) := by
  unfold settleExpires
  split
  · split
    · exact enterStandby_protOnly s
    · exact enterLoopFail_protOnly _ s
  · exact ProtOnly.refl s

theorem pressureExpires_protOnly (s : State) : ProtOnly s (pressureExpires s) := by
  unfold pressureExpires
  split
  · split
    · exact enterChangeover_protOnly _ s
    · exact enterLoopFail_protOnly _ s
    · exact ProtOnly.refl s
  · exact ProtOnly.refl s

theorem judgePressure_protOnly (s : State) : ProtOnly s (judgePressure s) :=
  ProtOnly.of_prot rfl rfl (PortsNoted.of_eq rfl) rfl

theorem handUpdate_protOnly (ch : Chan) (s : State) : ProtOnly s (handUpdate ch s) := by
  unfold handUpdate
  split
  · exact evalCircuit_protOnly _ s
  · split
    · exact judgePressure_protOnly s
    · exact ProtOnly.refl s

/-! ### What follows from the circuits changed -/

theorem Settled.refl (kinds : List NoticeKind) (s : State) : Settled kinds s s :=
  ⟨rfl, rfl, fun _ => SlotEvaluated.refl _ _, Or.inl rfl, AllotmentComputed.refl _, StageHanded.refl _,
    ⟨rfl, rfl, rfl, Or.inl ⟨rfl, rfl, fun _ => Or.inl rfl⟩⟩, AssignedFrom.of_queue rfl rfl, PortsNoted.refl _ _,
    fun p hp _ gone => (by
      rw [Option.mem_def.mp hp] at gone
      cases gone), fun _ => PortsNoted.refl _ _⟩

theorem ClassKept.of_eq {f : Furnace} {s t : State} (h : heatOf t f = heatOf s f) : ClassKept f s t := by
  intro x hx y hy _
  rw [h] at hy
  cases Option.some.inj (hx.symm.trans hy)
  rfl

theorem ReadyPosted.refl (s : State) : ReadyPosted s s := fun f d hd => by
  rw [readyPosting_self f rfl] at hd
  cases hd

/-- The evaluations and the follow-up of a step that concerns the furnaces named: of a furnace that is named the
evaluations have run. -/
def NamedRun (m : PerFurnace Bool) (s t : State) : Prop :=
  Settled [] s t ∧ (t.shop = s.shop → ClassKept .a s t ∧ ClassKept .b s t ∧ ReadyPosted s t)
    ∧ (loading s = false → ∀ f, m.get f = true →
        EvaluatedNow f t ∧ AllotmentCurrent t ∧ TiltNoticed s t ∧ FloorFollows s t)
    ∧ MatchingFollows s t

theorem SettledFor.both {kinds : List NoticeKind} {f : Furnace} {s t : State} (h : SettledFor kinds f s t)
    (same : t.shop = s.shop) : ClassKept .a s t ∧ ClassKept .b s t ∧ ReadyPosted s t := by
  obtain ⟨-, -, -, -, -, -, k⟩ := h
  obtain ⟨other, kept, posted⟩ := k same
  have away : ClassKept (otherFurnace f) s t := ClassKept.of_eq (heatOf_congr (by rw [other]))
  cases f
  · exact ⟨kept, away, posted⟩
  · exact ⟨away, kept, posted⟩

theorem settleNamed_run (m : PerFurnace Bool) (s : State) : NamedRun m s (settleNamed m s) := by
  have stays : NamedRun m s s ∨ loading s = false := by
    cases l : loading s
    · exact Or.inr rfl
    · exact Or.inl ⟨Settled.refl _ s, fun _ => ⟨ClassKept.of_eq rfl, ClassKept.of_eq rfl, ReadyPosted.refl s⟩,
        (fun n => by rw [l] at n; cases n), MatchingFollows.refl s⟩
  unfold settleNamed
  cases l : loading s
  · split
    · next a b =>
      refine ⟨Settled.refl _ s, fun _ => ⟨ClassKept.of_eq rfl, ClassKept.of_eq rfl, ReadyPosted.refl s⟩, fun _ f h => ?_,
        MatchingFollows.refl s⟩
      cases f
      · rw [show m.get .a = m.a from rfl, a] at h; cases h
      · rw [show m.get .b = m.b from rfl, b] at h; cases h
    · next a b =>
      have h := settleHeat_settledFor .a s l
      refine ⟨h.1, h.both, fun _ f n => ?_, h.2.2.2.2.2.1⟩
      cases f
      · exact ⟨h.2.1, h.2.2.1, h.2.2.2.1, h.2.2.2.2.1⟩
      · rw [show m.get .b = m.b from rfl, b] at n; cases n
    · next a b =>
      have h := settleHeat_settledFor .b s l
      refine ⟨h.1, h.both, fun _ f n => ?_, h.2.2.2.2.2.1⟩
      cases f
      · rw [show m.get .a = m.a from rfl, a] at n; cases n
      · exact ⟨h.2.1, h.2.2.1, h.2.2.2.1, h.2.2.2.2.1⟩
    · have h := settleAll_settledAll s l
      refine ⟨h.1, h.2.2.2.2.2.2.2, fun _ f _ => ⟨?_, h.2.2.2.1, h.2.2.2.2.1, h.2.2.2.2.2.1⟩, h.2.2.2.2.2.2.1⟩
      cases f
      · exact h.2.1
      · exact h.2.2.1
  · rw [settleHeat_loading _ s l, settleHeat_loading _ s l, settleAll_loading s l]
    rcases stays with h | h
    · split <;> exact h
    · rw [l] at h; cases h

/-! ### The enable lines through the follow-up -/

theorem foldl_min_le (l : List (Factor × Nat)) (n : Nat) :
    l.foldl (fun m b => min m b.2) n ≤ n ∧ ∀ b ∈ l, l.foldl (fun m b => min m b.2) n ≤ b.2 := by
  induction l generalizing n with
  | nil => exact ⟨Nat.le_refl n, fun b hb => by cases hb⟩
  | cons x rest ih =>
    obtain ⟨a, c⟩ := ih (min n x.2)
    refine ⟨Nat.le_trans a (Nat.min_le_left _ _), fun b hb => ?_⟩
    rcases List.mem_cons.mp hb with e | e
    · subst e
      exact Nat.le_trans a (Nat.min_le_right _ _)
    · exact c b e

/-- A tripped circuit bounds its outputs to 0 (R49). -/
theorem claimOf_ceiling_tripped {s : State} {c : Circuit} {f : Furnace} (named : (circuitMask c).get f = true)
    (trip : (circuitOf s c).state = .trip) : (claimOf s f).pulseCeiling = 0 := by
  have bound : (Factor.cooling, 0) ∈ conditionalBounds s f := by
    have cooling : (Factor.cooling, 0) ∈ coolingBound s f := by
      unfold coolingBound
      dsimp only
      rw [if_pos]
      · exact List.mem_singleton.mpr rfl
      · cases c <;> cases f <;> simp [circuitMask, PerFurnace.get] at named <;> simp [coilOf, trip]
    unfold conditionalBounds
    simp only [List.mem_append]
    exact Or.inl (Or.inl (Or.inl (Or.inl (Or.inl (Or.inl cooling)))))
  exact Nat.le_zero.mp ((foldl_min_le (conditionalBounds s f) (floor10 (outputMax s f))).2 _ bound)

/-- A tripped circuit holds its outputs at 0 through every computation (R49, R52). -/
theorem update_tripped {s : State} {c : Circuit} {f : Furnace} (named : (circuitMask c).get f = true)
    (trip : (circuitOf s c).state = .trip) (old : AllotRec) (w : Nat) : (old.update (claimOf s f) w).command = 0 := by
  have zero : (claimOf s f).cap = 0 := by
    unfold Claim.cap
    rw [claimOf_ceiling_tripped named trip, Nat.min_zero]
  unfold AllotRec.update Claim.share
  simp [zero]

theorem computed_tripped {s : State} {c : Circuit} {f : Furnace} (named : (circuitMask c).get f = true)
    (trip : (circuitOf s c).state = .trip) : ((computed s).out.get f).command = 0 := by
  rw [computed_eq]
  dsimp only
  generalize priorityOutput s = p
  rcases furnace_cases p f with e | e
  · subst e
    rw [PerFurnace.get_set_other _ _ (otherFurnace_ne f).symm, PerFurnace.get_set_same]
    exact update_tripped named trip _ _
  · subst e
    rw [PerFurnace.get_set_same]
    exact update_tripped named trip _ _

/-- A computation leaves the enable lines of a tripped circuit down (R52, R85). -/
theorem allocate_enable {s : State} {c : Circuit} {f : Furnace} (named : (circuitMask c).get f = true)
    (trip : (circuitOf s c).state = .trip) (down : State.outputEnable s f = false) :
    State.outputEnable (allocate s) f = false := by
  unfold allocate
  split
  · exact down
  · unfold putAllotment
    dsimp only
    split
    · exact down
    · have held := (handOver_handed (pairOf (computed s).out) { s with allot := computed s }).2
      have zero : ((handOver (pairOf (computed s).out) { s with allot := computed s }).stage.held.get f).command = 0 := by
        rw [held, ← computed_tripped named trip]
        cases f <;> rfl
      unfold State.outputEnable
      rw [zero]
      simp

theorem coordinate_enable {s : State} {c : Circuit} {f : Furnace} (named : (circuitMask c).get f = true)
    (trip : (circuitOf s c).state = .trip) (down : State.outputEnable s f = false) :
    State.outputEnable (coordinate s) f = false := by
  have f1 := (matchIfDue_run s).1.1
  have f2 := (evalTilt_spec (matchIfDue s)).1
  unfold coordinate
  refine allocate_enable named ?_ ?_
  · unfold circuitOf at *
    rw [f2, f1]
    exact trip
  · unfold State.outputEnable at *
    rw [f2, f1]
    exact down

/-- Evaluations, the floor wake and the follow-up leave the enable lines of a tripped circuit down. -/
theorem follow_enable {kinds : List NoticeKind} {s x : State} {c : Circuit} {f : Furnace} (h : Evaluated kinds s x)
    (named : (circuitMask c).get f = true) (trip : (circuitOf s c).state = .trip)
    (down : State.outputEnable s f = false) : State.outputEnable (coordinate (floorWake x)) f = false := by
  have frame : ∀ {more : List NoticeKind} {a b : State}, Evaluated more a b → b.prot = a.prot ∧ b.stage = a.stage :=
    fun e => ⟨e.prot, by rw [e.1]⟩
  obtain ⟨p1, s1⟩ := frame h
  obtain ⟨p2, s2⟩ := frame (floorWake_spec x).1
  refine coordinate_enable named ?_ ?_
  · unfold circuitOf at *
    rw [p2, p1]
    exact trip
  · unfold State.outputEnable at *
    rw [s2, s1]
    exact down

theorem settleNamed_enable {m : PerFurnace Bool} {s : State} {c : Circuit} {f : Furnace}
    (named : (circuitMask c).get f = true) (trip : (circuitOf s c).state = .trip)
    (down : State.outputEnable s f = false) : State.outputEnable (settleNamed m s) f = false := by
  have one : ∀ g, State.outputEnable (settleHeat g s) f = false := fun g => by
    unfold settleHeat
    split
    · exact down
    · exact follow_enable (evalHeat_run g s).1.1 named trip down
  unfold settleNamed
  split
  · exact down
  · exact one .a
  · exact one .b
  · unfold settleAll
    split
    · exact down
    · exact follow_enable (evalHeats_run s).1 named trip down

/-- A step of protection with what follows from it stands in the frame of the statements (R109). -/
theorem protect_frame (g : State → State) (s : State) (h : ProtOnly s (g s)) : ProtFrame s (protect g s) := by
  have load := h.loading
  have run := settleNamed_run (furnacesConcerned s (g s)) (g s)
  have lines : ∀ c f, (circuitMask c).get f = true → (circuitOf (g s) c).state = .trip →
      State.outputEnable (g s) f = false → State.outputEnable (settleNamed (furnacesConcerned s (g s)) (g s)) f = false :=
    fun c f named trip down => settleNamed_enable named trip down
  have concerned : ∀ f, ∀ c, c = coilOf f ∨ c = .cabinet → (circuitOf (g s) c).state ≠ (circuitOf s c).state →
      (furnacesConcerned s (g s)).get f = true := by
    intro f c hc n
    have d : (circuitOf s c).state ≠ (circuitOf (g s) c).state := n.symm
    unfold furnacesConcerned
    rcases hc with hc | hc
    · subst hc
      cases f <;> simp only [coilOf] at d <;> simp [PerFurnace.get, d]
    · subst hc
      cases f <;> simp [PerFurnace.get, d]
  unfold protect
  generalize furnacesConcerned s (g s) = m at *
  generalize g s = t at *
  generalize settleNamed m t = u at *
  obtain ⟨h1, h2, h3, -, h4, -, h6, h5⟩ := h
  obtain ⟨⟨g1, g2, g3, g4, g5, g6, g7, g8, g9, g10⟩, stands, named, matched⟩ := run
  have heat : t.heat = s.heat := by rw [h1]
  have allot : t.allot = s.allot := by rw [h1]
  have tap : t.tap = s.tap := by rw [h1]
  have clock : t.clock = s.clock := by rw [h1]
  have prot : u.prot = t.prot := by rw [g1]
  have circuit : ∀ c, circuitOf u c = circuitOf t c := fun c => by unfold circuitOf; rw [prot]
  have heats : ∀ f, heatOf t f = heatOf s f := fun f => heatOf_congr (by rw [heat])
  have shopT : t.shop.reasons = s.shop.reasons ∧ t.shop.strap = s.shop.strap ∧ t.shop.decks = s.shop.decks
      ∧ t.shop.state = s.shop.state := by
    rw [h2]
    exact ⟨rfl, rfl, rfl, rfl⟩
  have sett : t.sett = s.sett := by rw [h1]
  have floor : FloorReached t ↔ FloorReached s := by
    unfold FloorReached wakeOnFloor bankFloor setting
    simp only [heats, sett]
  have woken : u.shop.state = s.shop.state ∨ s.shop.state = .banked ∧ FloorReached s ∧ u.shop.state = .run := by
    rw [← shopT.2.2.2, ← floor]
    rcases g4 with g4 | ⟨b, fl, g4⟩
    · exact Or.inl (by rw [g4])
    · exact Or.inr ⟨b, fl, by rw [g4]⟩
  have shopU : u.shop.reasons = t.shop.reasons ∧ u.shop.strap = t.shop.strap ∧ u.shop.decks = t.shop.decks
      ∧ (u.shop.state = t.shop.state → u.shop = t.shop) := by
    rcases g4 with g4 | ⟨b, -, g4⟩
    · rw [g4]; exact ⟨rfl, rfl, rfl, fun _ => rfl⟩
    · rw [g4, b]; exact ⟨rfl, rfl, rfl, fun n => by cases n⟩
  have told : RefusalTold circuitKinds s u :=
    Told.refusal (Told.of_noted (h4.mono fun _ m => List.mem_append_left _ m) (by rw [tap])) g10
      (by rw [tap]; exact TapRefused.refl _ _) g7 clock (fun f => by unfold heatNumber; rw [heats])
  rw [heat, clock] at g3
  rw [allot] at g5
  rw [tap, clock] at g7
  refine ⟨by rw [g1, h1], by rw [g2, heat], g3, h3.trans g6, g5, g7, ?_,
    (h4.mono (by simp [circuitKinds, protectKinds])).trans (g9.mono (by
      intro k hk
      exact List.mem_append_right _ (by simpa using hk))),
    shopU.1.trans shopT.1, shopU.2.1.trans shopT.2.1, shopU.2.2.1.trans shopT.2.2.1, woken,
    fun off c f named trip down => ?_, fun same => ?_, fun c hc => ?_, fun l f c hc n => ?_,
    matched.congr heat.symm tap.symm, told⟩
  · intro e he f hf
    rcases g8 e he f hf with k | k
    · exact Or.inl (by rw [← tap]; exact k)
    · exact Or.inr k
  · rw [circuit] at trip
    exact lines c f named trip (h6 off c f named trip down)
  · obtain ⟨a, b, r⟩ := stands (shopU.2.2.2 (same.trans shopT.2.2.2.symm))
    unfold ClassKept ReadyPosted readyPosting at *
    simp only [heats] at a b r
    exact ⟨a, b, r⟩
  · rw [circuit]
    exact h5 c hc
  · rw [circuit] at n
    obtain ⟨ev, cur, tilt, follows⟩ := named (load.trans l) f (concerned f c hc n)
    refine ⟨ev, cur, tilt.of_tap (by rw [tap]) (by rw [tap]), fun banked reached => ?_⟩
    rw [← shopT.1]
    exact follows (shopT.2.2.2.trans banked) (floor.mpr reached)

/-- The follow-up leaves protection and the breaker output as the step has put them, and other notices. -/
theorem protect_followed (g : State → State) (s : State) : FollowedUp (g s) (protect g s) := by
  have run := (settleNamed_run (furnacesConcerned s (g s)) (g s)).1
  have shop : (protect g s).shop.breakerTrip = (g s).shop.breakerTrip
      ∧ (protect g s).shop.stuckTimer = (g s).shop.stuckTimer := by
    unfold protect
    rcases run.2.2.2.1 with w | ⟨-, -, w⟩ <;> rw [w] <;> exact ⟨rfl, rfl⟩
  exact ⟨run.prot, shop.1, shop.2, run.2.2.2.2.2.2.2.2.1⟩

end Sys2Proof.Machine
end

