-- ==== Sys2Proof/Laws/Wire.lean ====
section
/-! SUPPORT. Bytes on the wire: how a station's port and the stage receiver assemble a frame from its bytes (R141, R161,
R162). What is said of one start byte and one test of LEN serves both. -/

namespace Sys2Proof.Machine

/-! ### Gathering, whichever the start byte -/

/-- Behind a LEN every byte is added. -/
theorem gatherFrom_adds (start : Byte) (carried : Byte → Bool) (first len : Byte) (got : List Byte) (b : Byte) :
    gatherFrom start carried (first :: len :: got) b = first :: len :: (got ++ [b]) := by
  cases got <;> rfl

theorem gatherFrom_starts (start : Byte) (carried : Byte → Bool) : gatherFrom start carried [] start = [start] := by
  unfold gatherFrom
  dsimp only
  rw [if_pos rfl]

theorem gatherFrom_len (start : Byte) (carried : Byte → Bool) (len : Byte) (fits : carried len = true) :
    gatherFrom start carried [start] len = [start, len] := by
  unfold gatherFrom
  dsimp only
  rw [if_pos fits]

theorem gathered_behind (start : Byte) (carried : Byte → Bool) (first len : Byte) : ∀ (more got : List Byte),
    more.foldl (gatherFrom start carried) (first :: len :: got) = first :: len :: (got ++ more)
  | [], got => by rw [List.append_nil]; rfl
  | b :: more, got => by
    rw [List.foldl_cons, gatherFrom_adds, gathered_behind start carried first len more, List.append_assoc]
    rfl

/-- A start byte, a LEN that a frame can carry and what follows are gathered as they came. -/
theorem gathered_frame (start : Byte) (carried : Byte → Bool) (len : Byte) (rest : List Byte) (fits : carried len = true) :
    (start :: len :: rest).foldl (gatherFrom start carried) [] = start :: len :: rest := by
  rw [List.foldl_cons, List.foldl_cons, gatherFrom_starts, gatherFrom_len _ _ _ fits, gathered_behind, List.nil_append]

/-- Bytes of which none starts a frame are dropped. -/
theorem gathered_none (start : Byte) (carried : Byte → Bool) : ∀ (bytes : List Byte), (∀ b ∈ bytes, b ≠ start) →
    bytes.foldl (gatherFrom start carried) [] = []
  | [], _ => rfl
  | b :: bytes, no => by
    have first : gatherFrom start carried [] b = [] := by
      unfold gatherFrom
      dsimp only
      rw [if_neg (no b List.mem_cons_self)]
    rw [List.foldl_cons, first]
    exact gathered_none start carried bytes (fun x hx => no x (List.mem_cons_of_mem _ hx))

/-- A LEN that no frame can carry empties the assembly. -/
theorem gathered_bad_len (start : Byte) (carried : Byte → Bool) (len : Byte) (bad : carried len = false) :
    [start, len].foldl (gatherFrom start carried) [] = [] := by
  rw [List.foldl_cons, List.foldl_cons, gatherFrom_starts]
  unfold gatherFrom
  dsimp only
  rw [if_neg (by rw [bad]; decide)]
  rfl

theorem assembled_iff (start len : Byte) (rest : List Byte) :
    assembled (start :: len :: rest) = true ↔ rest.length = len.toNat + 2 := by
  simp [assembled]

/-! ### A receiver, whichever it is -/

/-- What a receiver does with its bytes, when it adds a byte to an assembly it holds apart (`put`) and does something
(`finish`) with a frame that is complete. -/
def ReceivesBy (start : Byte) (carried : Byte → Bool) (put finish : List Byte → State → State)
    (receive : Byte → State → State) : Prop :=
  ∀ (b : Byte) (bytes : List Byte) (s : State),
    receive b (put bytes s)
      = if assembled (gatherFrom start carried bytes b) then finish (gatherFrom start carried bytes b) s
        else put (gatherFrom start carried bytes b) s

/-- Bytes that complete no frame are gathered. -/
theorem ReceivesBy.gathers {start : Byte} {carried : Byte → Bool} {put finish : List Byte → State → State}
    {receive : Byte → State → State} (r : ReceivesBy start carried put finish receive) (s : State) :
    ∀ (bytes got : List Byte),
      (∀ n, n ≤ bytes.length → assembled ((bytes.take n).foldl (gatherFrom start carried) got) = false) →
      bytes.foldl (fun x b => receive b x) (put got s) = put (bytes.foldl (gatherFrom start carried) got) s
  | [], _, _ => rfl
  | b :: bytes, got, short => by
    have one := short 1 (by simp)
    simp only [List.take_succ_cons, List.take_zero, List.foldl_cons, List.foldl_nil] at one
    rw [List.foldl_cons, List.foldl_cons, r, if_neg (by rw [one]; decide)]
    refine r.gathers s bytes _ (fun n hn => ?_)
    have later := short (n + 1) (by simp only [List.length_cons]; omega)
    simpa only [List.take_succ_cons, List.foldl_cons] using later

/-- A frame that is begun and not complete is gathered. -/
theorem ReceivesBy.begun {start : Byte} {carried : Byte → Bool} {put finish : List Byte → State → State}
    {receive : Byte → State → State} (r : ReceivesBy start carried put finish receive) (len : Byte) (rest : List Byte)
    (s : State) (fits : carried len = true) (size : rest.length < len.toNat + 2) :
    (start :: len :: rest).foldl (fun x b => receive b x) (put [] s) = put (start :: len :: rest) s := by
  rw [r.gathers s _ [] ?_, gathered_frame start carried len rest fits]
  intro n _
  match n with
  | 0 => rfl
  | 1 =>
    simp only [List.take_succ_cons, List.take_zero, List.foldl_cons, List.foldl_nil, gatherFrom_starts]
    rfl
  | n + 2 =>
    rw [List.take_succ_cons, List.take_succ_cons, gathered_frame start carried len _ fits]
    refine Bool.eq_false_iff.mpr (fun done => ?_)
    have whole := (assembled_iff start len _).mp done
    rw [List.length_take] at whole
    omega

/-- The bytes of a whole frame come to its end. -/
theorem ReceivesBy.completes {start : Byte} {carried : Byte → Bool} {put finish : List Byte → State → State}
    {receive : Byte → State → State} (r : ReceivesBy start carried put finish receive) (len : Byte) (rest : List Byte)
    (s : State) (fits : carried len = true) (size : rest.length = len.toNat + 2) :
    (start :: len :: rest).foldl (fun x b => receive b x) (put [] s) = finish (start :: len :: rest) s := by
  have some' : rest ≠ [] := by
    intro none'
    rw [none'] at size
    simp at size
  have split : rest = rest.dropLast ++ [rest.getLast some'] := (List.dropLast_concat_getLast some').symm
  have short : rest.dropLast.length < len.toNat + 2 := by
    rw [List.length_dropLast]
    omega
  have front := r.begun len rest.dropLast s fits short
  generalize rest.dropLast = most at split front
  generalize rest.getLast some' = last at split
  subst split
  rw [show start :: len :: (most ++ [last]) = (start :: len :: most) ++ [last] by simp, List.foldl_append, front,
    List.foldl_cons, List.foldl_nil, r, gatherFrom_adds, if_pos ((assembled_iff start len _).mpr size)]
  rfl

/-- The check of a frame put together from what it covers is correct. -/
theorem checkCorrect_framed (start : Byte) (covered : List Byte) :
    checkCorrect (start :: covered ++ checkBytes covered) = true := by
  generalize hc : checkBytes covered = check
  obtain ⟨hi, lo, two⟩ : ∃ hi lo, check = [hi, lo] := ⟨_, _, hc.symm⟩
  subst two
  have size : (start :: covered ++ [hi, lo]).length = covered.length + 3 := by simp
  unfold checkCorrect
  rw [size]
  simp [hc]

/-! ### The bytes of a request frame -/

/-- The assembly of a port set to some bytes. -/
def withAssembly (q : Port) (bytes : List Byte) (s : State) : State :=
  setPort q { s.ports.get q with assembly := bytes } s

theorem withAssembly_assembly (q : Port) (bytes : List Byte) (s : State) :
    ((withAssembly q bytes s).ports.get q).assembly = bytes := by
  unfold withAssembly
  simp

theorem withAssembly_withAssembly (q : Port) (bytes more : List Byte) (s : State) :
    withAssembly q more (withAssembly q bytes s) = withAssembly q more s := by
  unfold withAssembly setPort
  simp

theorem dropAssembly_withAssembly (q : Port) (bytes : List Byte) (s : State) :
    dropAssembly q (withAssembly q bytes s) = dropAssembly q s := withAssembly_withAssembly q bytes [] s

/-- A frame that arrives does not read the assembly. -/
theorem arrive_withAssembly (q : Port) (fr : Frame) (bytes : List Byte) (s : State) :
    arrive q fr (withAssembly q bytes s) = arrive q fr s := by
  unfold arrive withAssembly setPort
  simp

/-- A complete frame of a port arrives, or is discarded when its check fails. -/
def frameEnds (q : Port) (bytes : List Byte) (s : State) : State :=
  if checkCorrect bytes then arrive q (frameOf bytes) s else dropAssembly q s

theorem receiveByte_receives (q : Port) :
    ReceivesBy 0xA5#8 lenCarried (withAssembly q) (frameEnds q) (receiveByte q) := by
  intro b bytes s
  unfold receiveByte frameEnds gatherByte
  dsimp only
  rw [withAssembly_assembly, arrive_withAssembly, dropAssembly_withAssembly]
  split
  · rfl
  · exact withAssembly_withAssembly q bytes _ s

/-- The bytes of a frame, from an empty assembly, bring the frame: R141 and R161 agree. -/
theorem receiveBytes_frame (q : Port) (fr : Frame) (s : State) (fits : fr.body.length ≤ 48) :
    receiveBytes q fr.bytes (dropAssembly q s) = arrive q fr s := by
  have len : (BitVec.ofNat 8 (fr.body.length + 2)).toNat = fr.body.length + 2 := by
    rw [BitVec.toNat_ofNat]
    exact Nat.mod_eq_of_lt (by omega)
  have correct : checkCorrect fr.bytes = true := checkCorrect_framed 0xA5#8 _
  generalize hl : BitVec.ofNat 8 (fr.body.length + 2) = l at len
  generalize hc : checkBytes (l :: fr.kind :: fr.tag :: fr.body) = check
  obtain ⟨hi, lo, two⟩ : ∃ hi lo, check = [hi, lo] := ⟨_, _, hc.symm⟩
  have bytes : fr.bytes = 0xA5#8 :: l :: (fr.kind :: fr.tag :: fr.body ++ [hi, lo]) := by
    unfold Frame.bytes be1
    dsimp only
    rw [hl]
    simp only [List.cons_append, List.nil_append]
    rw [hc, two]
  have carried : lenCarried l = true := by
    unfold lenCarried
    rw [len]
    simp
    omega
  have held : frameOf fr.bytes = fr := by
    unfold frameOf
    rw [bytes]
    simp
  have whole := (receiveByte_receives q).completes l (fr.kind :: fr.tag :: fr.body ++ [hi, lo]) s carried
    (by simp only [List.length_append, List.length_cons, List.length_nil, len])
  rw [← bytes] at whole
  refine Eq.trans whole ?_
  unfold frameEnds
  rw [if_pos correct, held]

/-- A request frame that comes in byte by byte arrives. -/
theorem receiveFrame_arrive (q : Port) (fr : Frame) (s : State) : receiveFrame q fr s = arrive q fr s := by
  unfold receiveFrame
  split
  · exact receiveBytes_frame q fr s (by assumption)
  · rfl

/-- A complete frame whose check fails, or for which the port has no room, leaves the assembly empty; other bytes change
nothing. -/
theorem discardFrame_shape (q : Port) (bytes : List Byte) (s : State) :
    discardFrame q bytes s
      = (if assembled (bytes.foldl gatherByte [])
            && (!checkCorrect (bytes.foldl gatherByte []) || portFull q s) then dropAssembly q s else s) := by
  unfold discardFrame
  have held : ((gather q bytes s).ports.get q).assembly = bytes.foldl gatherByte [] := withAssembly_assembly q _ s
  have room : portFull q (gather q bytes s) = portFull q s := by
    unfold portFull gather
    simp
  dsimp only
  rw [held, room]
  split
  · exact dropAssembly_withAssembly q _ s
  · rfl

/-- The bytes of a whole frame are gathered as they came. -/
theorem gathered_wholeFrame (bytes : List Byte) (whole : wholeFrame bytes = true) :
    bytes.foldl gatherByte [] = bytes ∧ assembled bytes = true := by
  match bytes, whole with
  | start :: len :: rest, whole =>
    simp only [wholeFrame, Bool.and_eq_true, beq_iff_eq] at whole
    obtain ⟨⟨rfl, fits⟩, size⟩ := whole
    exact ⟨gathered_frame 0xA5#8 lenCarried len rest fits, (assembled_iff _ len rest).mpr size⟩

theorem gapAfter_shape (q : Port) (bytes : List Byte) (s : State) : gapAfter q bytes s = dropAssembly q s :=
  dropAssembly_withAssembly q _ s

theorem badLength_shape (q : Port) (len : Byte) (s : State) :
    badLength q len s = (if lenCarried len then s else dropAssembly q s) := by
  unfold badLength
  split
  · rfl
  · next bad =>
    have none' : [0xA5#8, len].foldl gatherByte [] = [] :=
      gathered_bad_len 0xA5#8 lenCarried len (Bool.eq_false_iff.mpr bad)
    unfold gather dropAssembly
    rw [none']

/-! ### The bytes of a stage frame -/

@[simp] theorem setStageAssembly_twice (bytes more : List Byte) (s : State) :
    setStageAssembly more (setStageAssembly bytes s) = setStageAssembly more s := rfl

/-- An assembly that stands already. -/
theorem setStageAssembly_same (s : State) (h : s.stage.assembly = []) : setStageAssembly [] s = s := by
  unfold setStageAssembly
  rw [← h]

theorem receiveStageByte_receives :
    ReceivesBy 0x5A#8 stageLenCarried setStageAssembly (fun bytes s => sortStageFrame bytes (setStageAssembly [] s))
      receiveStageByte := by
  intro b bytes s
  rfl

/-- The bytes of a stage frame, from an empty assembly, bring the frame to be sorted (R162). -/
theorem receiveStageBytes_frame (kind : Byte) (body : List Byte) (s : State) (fits : body.length ≤ 15) :
    receiveStageBytes (stageFrameBytes kind body) (setStageAssembly [] s)
      = if kind = 0x81#8 then
          (if body.length = 6 then receiveReport (reportOf body) (setStageAssembly [] s) else setStageAssembly [] s)
        else receiveUnknownKind (setStageAssembly [] s) := by
  have len : (BitVec.ofNat 8 (body.length + 1)).toNat = body.length + 1 := by
    rw [BitVec.toNat_ofNat]
    exact Nat.mod_eq_of_lt (by omega)
  have correct : checkCorrect (stageFrameBytes kind body) = true := checkCorrect_framed 0x5A#8 _
  generalize hl : BitVec.ofNat 8 (body.length + 1) = l at len
  generalize hc : checkBytes (l :: kind :: body) = check
  obtain ⟨hi, lo, two⟩ : ∃ hi lo, check = [hi, lo] := ⟨_, _, hc.symm⟩
  have bytes : stageFrameBytes kind body = 0x5A#8 :: l :: (kind :: body ++ [hi, lo]) := by
    unfold stageFrameBytes be1
    dsimp only
    rw [hl]
    simp only [List.cons_append, List.nil_append]
    rw [hc, two]
  have carried : stageLenCarried l = true := by
    unfold stageLenCarried
    rw [len]
    simp
    omega
  have isKind : stageKind (stageFrameBytes kind body) = kind := by
    rw [bytes]
    rfl
  have isBody : stageBody (stageFrameBytes kind body) = body := by
    unfold stageBody
    rw [bytes]
    simp
  have whole := receiveStageByte_receives.completes l (kind :: body ++ [hi, lo]) s carried
    (by simp only [List.length_append, List.length_cons, List.length_nil, len])
  rw [← bytes] at whole
  refine Eq.trans whole ?_
  unfold sortStageFrame stageCheckFails
  rw [correct, isKind, isBody]
  by_cases report : kind = 0x81#8
  · subst report
    by_cases six : body.length = 6
    · simp [six]
    · simp [six]
  · simp [report]

/-- The contents of a REPORT's body are those it was made from. -/
theorem reportOf_reportBody (deliveredA : BitVec 16) (statusA : Byte) (deliveredB : BitVec 16) (statusB : Byte) :
    reportOf (reportBody deliveredA statusA deliveredB statusB)
      = reportContents deliveredA statusA deliveredB statusB := by
  have two : ∀ w : BitVec 16, BitVec.ofNat 16 (readBE (be2 w.toNat)) = w := by
    intro w
    have small := w.isLt
    apply BitVec.eq_of_toNat_eq
    simp only [readBE, be2, List.foldl_cons, List.foldl_nil, BitVec.toNat_ofNat]
    omega
  have a : field (reportBody deliveredA statusA deliveredB statusB) 0 2 = readBE (be2 deliveredA.toNat) := rfl
  have b : field (reportBody deliveredA statusA deliveredB statusB) 3 2 = readBE (be2 deliveredB.toNat) := rfl
  unfold reportOf
  rw [a, b, two, two]
  rfl

/-- A REPORT that comes in byte by byte is received, on the state with an empty assembly. -/
theorem receiveStageFrame_report (deliveredA : BitVec 16) (statusA : Byte) (deliveredB : BitVec 16) (statusB : Byte)
    (s : State) :
    receiveStageFrame 0x81#8 (reportBody deliveredA statusA deliveredB statusB) s
      = receiveReport (reportContents deliveredA statusA deliveredB statusB) (setStageAssembly [] s) := by
  have six : (reportBody deliveredA statusA deliveredB statusB).length = 6 := rfl
  unfold receiveStageFrame
  rw [if_pos (by rw [six]; decide), receiveStageBytes_frame _ _ _ (by rw [six]; decide), if_pos rfl, if_pos six,
    reportOf_reportBody]

/-- A frame of another kind that comes in byte by byte is of unknown kind. -/
theorem receiveStageFrame_unknown (kind : Byte) (body : List Byte) (s : State) (other : kind ≠ 0x81#8) :
    receiveStageFrame kind body s = receiveUnknownKind (setStageAssembly [] s) := by
  unfold receiveStageFrame
  split
  · rw [receiveStageBytes_frame _ _ _ (by assumption), if_neg other]
  · rfl

/-- Whatever the operands, a frame is received as a REPORT, is of unknown kind, or is discarded. -/
theorem receiveStageFrame_cases (kind : Byte) (body : List Byte) (s : State) :
    (∃ contents, receiveStageFrame kind body s = receiveReport contents (setStageAssembly [] s))
      ∨ receiveStageFrame kind body s = receiveUnknownKind (setStageAssembly [] s)
      ∨ receiveStageFrame kind body s = setStageAssembly [] s := by
  unfold receiveStageFrame
  split
  · rw [receiveStageBytes_frame _ _ _ (by assumption)]
    split
    · split
      · exact Or.inl ⟨_, rfl⟩
      · exact Or.inr (Or.inr rfl)
    · exact Or.inr (Or.inl rfl)
  · exact Or.inr (Or.inl rfl)

/-- A begun stage frame is gathered by the receiver as it came. -/
theorem receiveStageBytes_begun (bytes : List Byte) (s : State) (begun : stageFrameBegun bytes = true) :
    receiveStageBytes bytes (setStageAssembly [] s) = setStageAssembly bytes s := by
  match bytes, begun with
  | [start], begun =>
    simp only [stageFrameBegun, beq_iff_eq] at begun
    subst begun
    rfl
  | start :: len :: rest, begun =>
    simp only [stageFrameBegun, Bool.and_eq_true, beq_iff_eq, decide_eq_true_eq] at begun
    obtain ⟨⟨rfl, fits⟩, size⟩ := begun
    exact receiveStageByte_receives.begun len rest s fits size

/-- A whole stage frame is sorted by the receiver. -/
theorem receiveStageBytes_whole (bytes : List Byte) (s : State) (whole : wholeStageFrame bytes = true) :
    receiveStageBytes bytes (setStageAssembly [] s) = sortStageFrame bytes (setStageAssembly [] s) := by
  match bytes, whole with
  | start :: len :: rest, whole =>
    simp only [wholeStageFrame, Bool.and_eq_true, beq_iff_eq] at whole
    obtain ⟨⟨rfl, fits⟩, size⟩ := whole
    exact receiveStageByte_receives.completes len rest s fits size

/-- A whole stage frame with a check error leaves what a check error leaves (R80, R162). -/
theorem receiveStageBytes_discards (bytes : List Byte) (s : State) (whole : wholeStageFrame bytes = true)
    (wrong : stageCheckFails bytes = true) : receiveStageBytes bytes (setStageAssembly [] s) = discardStage s := by
  rw [receiveStageBytes_whole bytes s whole]
  exact if_pos wrong

/-- A LEN outside 1..16 leaves what a check error leaves (R162). -/
theorem receiveStageBytes_bad_len (len : Byte) (s : State) (bad : stageLenCarried len = false) :
    receiveStageBytes [0x5A#8, len] (setStageAssembly [] s) = discardStage s := by
  show (if assembled (gatherStageByte [0x5A#8] len) then _ else setStageAssembly (gatherStageByte [0x5A#8] len) _) = _
  have none' : gatherStageByte [0x5A#8] len = [] := by
    show (if stageLenCarried len = true then _ else _) = _
    rw [bad]
    rfl
  rw [none']
  rfl

/-- A whole stage frame has a check error where its check does not match or it is a REPORT whose LEN is not 7 (R80, R162). -/
theorem stageCheckFails_iff (bytes : List Byte) (whole : wholeStageFrame bytes = true) :
    stageCheckFails bytes = true ↔
      ¬ bytes.drop (bytes.length - 2) = checkBytes ((bytes.drop 1).take (bytes.length - 3))
        ∨ bytes.getD 2 0 = 0x81 ∧ bytes.getD 1 0 ≠ 7 := by
  match bytes, whole with
  | start :: len :: rest, whole =>
    simp only [wholeStageFrame, stageLenFits, Bool.and_eq_true, beq_iff_eq, decide_eq_true_eq] at whole
    obtain ⟨⟨rfl, fits⟩, size⟩ := whole
    unfold stageCheckFails checkCorrect stageKind stageBody
    have seven : (len = 7) ↔ rest.length = 9 := by
      rw [← BitVec.toNat_inj, size]
      constructor
      · intro h
        rw [h]
        rfl
      · intro h
        show len.toNat = 7
        omega
    have body : (List.take (((0x5A : Byte) :: len :: rest).length - 5) (List.drop 3 ((0x5A : Byte) :: len :: rest))).length
        = rest.length - 3 := by
      simp only [List.length_take, List.length_drop, List.length_cons]
      omega
    have six : (rest.length - 3 != 6) = true ↔ rest.length ≠ 9 := by
      simp only [bne_iff_ne, ne_eq]
      omega
    rw [Bool.or_eq_true, Bool.and_eq_true, body, six, Bool.not_eq_true', beq_eq_false_iff_ne, beq_iff_eq]
    show _ ↔ _ ∨ _ ∧ len ≠ 7
    rw [ne_eq, ne_eq, ne_eq, seven]
    rfl

end Sys2Proof.Machine
end

