-- ==== Sys2Proof/Laws/Commands.lean ====
section
/-! SUPPORT. How a command reaches its meaning: the step, a request that is taken or turned away, and the answer, which
no frame reads. -/

namespace Sys2Proof.Machine

/-! ### The step -/

theorem step_cons (c : Instr) (rest : List Instr) (s : State) (h : s.pending = c :: rest) :
    step s = exec c (s.withQueue rest) := by
  unfold step
  rw [h]

theorem step_idle (s : State) (h : s.pending = []) : step s = idle s := by
  unfold step
  rw [h]

theorem live_powered (g : State → State) (s : State) (h : s.powered = true) : live g s = .next (g s) := by
  unfold live
  rw [if_pos h]

theorem live_unpowered (g : State → State) (s : State) (h : s.powered = false) : live g s = .next s := by
  unfold live
  rw [if_neg (by rw [h]; decide)]

/-! ### A port's answer -/

/-- The state with a port's request in hand and its answer; the assembly stands. -/
def putAnswer (q : Port) (fr : Frame) (r : Reply) (s : State) : State :=
  setPort q { s.ports.get q with inHand := some fr, answer := some r } s

@[simp] theorem putAnswer_pending (q : Port) (fr : Frame) (r : Reply) (s : State) :
    (putAnswer q fr r s).pending = s.pending := rfl
@[simp] theorem putAnswer_powered (q : Port) (fr : Frame) (r : Reply) (s : State) :
    (putAnswer q fr r s).powered = s.powered := rfl
@[simp] theorem putAnswer_clock (q : Port) (fr : Frame) (r : Reply) (s : State) :
    (putAnswer q fr r s).clock = s.clock := rfl
@[simp] theorem putAnswer_lines (q : Port) (fr : Frame) (r : Reply) (s : State) :
    (putAnswer q fr r s).lines = s.lines := rfl
@[simp] theorem putAnswer_heat (q : Port) (fr : Frame) (r : Reply) (s : State) :
    (putAnswer q fr r s).heat = s.heat := rfl
@[simp] theorem putAnswer_allot (q : Port) (fr : Frame) (r : Reply) (s : State) :
    (putAnswer q fr r s).allot = s.allot := rfl
@[simp] theorem putAnswer_shop (q : Port) (fr : Frame) (r : Reply) (s : State) :
    (putAnswer q fr r s).shop = s.shop := rfl
@[simp] theorem putAnswer_stage (q : Port) (fr : Frame) (r : Reply) (s : State) :
    (putAnswer q fr r s).stage = s.stage := rfl
@[simp] theorem putAnswer_scan (q : Port) (fr : Frame) (r : Reply) (s : State) :
    (putAnswer q fr r s).scan = s.scan := rfl
@[simp] theorem putAnswer_prot (q : Port) (fr : Frame) (r : Reply) (s : State) :
    (putAnswer q fr r s).prot = s.prot := rfl
@[simp] theorem putAnswer_tap (q : Port) (fr : Frame) (r : Reply) (s : State) :
    (putAnswer q fr r s).tap = s.tap := rfl
@[simp] theorem putAnswer_sett (q : Port) (fr : Frame) (r : Reply) (s : State) :
    (putAnswer q fr r s).sett = s.sett := rfl

theorem putAnswer_port_same (q : Port) (fr : Frame) (r : Reply) (s : State) :
    (putAnswer q fr r s).ports.get q = { s.ports.get q with inHand := some fr, answer := some r } := by
  unfold putAnswer
  simp

theorem putAnswer_port_other {q other : Port} (fr : Frame) (r : Reply) (s : State) (h : other ≠ q) :
    (putAnswer q fr r s).ports.get other = s.ports.get other := by
  unfold putAnswer
  exact ports_setPort_other _ _ h

theorem putAnswer_notices (q other : Port) (fr : Frame) (r : Reply) (s : State) :
    ((putAnswer q fr r s).ports.get other).notices = (s.ports.get other).notices := by
  by_cases h : other = q
  · subst h
    rw [putAnswer_port_same]
  · rw [putAnswer_port_other _ _ _ h]

/-- The answer put on the state whose assembly has been emptied is the state of the statements. -/
theorem putAnswer_dropAssembly (q : Port) (fr : Frame) (r : Reply) (s : State) :
    putAnswer q fr r (dropAssembly q s) = withAnswer q fr r s := by
  unfold putAnswer dropAssembly withAnswer setPort
  simp

/-! ### No frame reads the answer -/

theorem PortsNoted.answer {kinds : List NoticeKind} {s t : State} (h : PortsNoted kinds s t) (q : Port) (fr : Frame)
    (r : Reply) : PortsNoted kinds (putAnswer q fr r s) (putAnswer q fr r t) := by
  intro other
  by_cases e : other = q
  · subst e
    rw [putAnswer_port_same, putAnswer_port_same]
    obtain ⟨h1, h2, h3⟩ := h other
    exact ⟨by rw [h1], h2, h3⟩
  · rw [putAnswer_port_other _ _ _ e, putAnswer_port_other _ _ _ e]
    exact h other

theorem Noticed.answer {d : Detail} {s : State} (h : Noticed d s) (q : Port) (fr : Frame) (r : Reply) :
    Noticed d (putAnswer q fr r s) := fun other sent => by
  rw [putAnswer_notices]
  exact h other sent

theorem AllotmentCurrent.answer {s : State} (h : AllotmentCurrent s) (q : Port) (fr : Frame) (r : Reply) :
    AllotmentCurrent (putAnswer q fr r s) := h

theorem EvaluatedNow.answer {f : Furnace} {s : State} (h : EvaluatedNow f s) (q : Port) (fr : Frame) (r : Reply) :
    EvaluatedNow f (putAnswer q fr r s) := h

theorem ClassKept.answer {f : Furnace} {s t : State} (h : ClassKept f s t) (q : Port) (fr : Frame) (r : Reply) :
    ClassKept f (putAnswer q fr r s) (putAnswer q fr r t) := h

theorem AssignedFrom.answer {s t : State} (h : AssignedFrom s t) (q : Port) (fr : Frame) (r : Reply) :
    AssignedFrom (putAnswer q fr r s) (putAnswer q fr r t) := fun e he f hf => by
  rcases h e he f hf with k | ⟨x, hx, ex, fx, takes, noted⟩
  · exact Or.inl k
  · exact Or.inr ⟨x, hx, ex, fx, takes, noted.answer q fr r⟩

theorem TiltNoticed.answer {s t : State} (h : TiltNoticed s t) (q : Port) (fr : Frame) (r : Reply) :
    TiltNoticed (putAnswer q fr r s) (putAnswer q fr r t) := by
  obtain ⟨h1, h2⟩ := h
  refine ⟨h1, fun other => ⟨(h2 other).1, fun d hd => ?_⟩⟩
  obtain ⟨a, b, c⟩ := (h2 other).2 d hd
  refine ⟨a, b, fun n => ?_⟩
  unfold TiltPending
  rw [putAnswer_notices]
  exact c n

theorem ReadyPosted.answer {s t : State} (h : ReadyPosted s t) (q : Port) (fr : Frame) (r : Reply) :
    ReadyPosted (putAnswer q fr r s) (putAnswer q fr r t) := by
  intro f d hd
  obtain ⟨a, b⟩ := h f d hd
  refine ⟨by rw [putAnswer_notices]; exact a, fun last => ?_⟩
  have n := putAnswer_notices q .p fr r t
  unfold PerPort.get at n
  dsimp only at n
  rw [n]
  exact b last

theorem FloorFollows.answer {s t : State} (h : FloorFollows s t) (q : Port) (fr : Frame) (r : Reply) :
    FloorFollows (putAnswer q fr r s) (putAnswer q fr r t) := fun banked floor =>
  ⟨(h banked floor).1, (h banked floor).2.answer q fr r⟩

theorem Matched.answer {t : State} (h : Matched t) (q : Port) (fr : Frame) (r : Reply) : Matched (putAnswer q fr r t) := h

theorem MatchingFollows.answer {s t : State} (h : MatchingFollows s t) (q : Port) (fr : Frame) (r : Reply) :
    MatchingFollows (putAnswer q fr r s) (putAnswer q fr r t) := h

theorem Coordinated.answer {kinds : List NoticeKind} {s t : State} (h : Coordinated kinds s t) (q : Port) (fr : Frame)
    (r : Reply) : Coordinated kinds (putAnswer q fr r s) (putAnswer q fr r t) := by
  obtain ⟨h1, h2, h3, h4, h5, h6, h7, h8⟩ := h
  refine ⟨?_, h2, h3, h4, h5.answer q fr r, h6.answer q fr r, h7.answer q fr r, h8⟩
  have pe := congrArg State.pending h1
  have po := congrArg State.powered h1
  have cl := congrArg State.clock h1
  have li := congrArg State.lines h1
  have he := congrArg State.heat h1
  have sh := congrArg State.shop h1
  have sc := congrArg State.scan h1
  have pr := congrArg State.prot h1
  have se := congrArg State.sett h1
  dsimp only at pe po cl li he sh sc pr se
  unfold putAnswer setPort
  dsimp only
  rw [pe, po, cl, li, he, sh, sc, pr, se]

theorem RefusalTold.answer {further : List NoticeKind} {s t : State} (h : RefusalTold further s t) (q : Port) (fr : Frame)
    (r : Reply) : RefusalTold further (putAnswer q fr r s) (putAnswer q fr r t) := by
  refine ⟨fun p hp pending gone => ?_, fun same => (h.2 same).answer q fr r⟩
  obtain ⟨reason, number, kept, which, told, back⟩ := h.1 p hp pending gone
  exact ⟨reason, number, kept, which, told.answer q fr r, fun e he late => (back e he late).answer q fr r⟩

theorem Settled.answer {kinds : List NoticeKind} {s t : State} (h : Settled kinds s t) (q : Port) (fr : Frame)
    (r : Reply) : Settled kinds (putAnswer q fr r s) (putAnswer q fr r t) := by
  obtain ⟨h1, h2, h3, h4, h5, h6, h7, h8, h9, h10⟩ := h
  refine ⟨?_, h2, h3, h4, h5, h6, h7, h8.answer q fr r, h9.answer q fr r, h10.answer q fr r⟩
  have pe := congrArg State.pending h1
  have po := congrArg State.powered h1
  have cl := congrArg State.clock h1
  have li := congrArg State.lines h1
  have sc := congrArg State.scan h1
  have pr := congrArg State.prot h1
  have se := congrArg State.sett h1
  dsimp only at pe po cl li sc pr se
  unfold putAnswer setPort
  dsimp only
  rw [pe, po, cl, li, sc, pr, se]

theorem SettledFor.answer {kinds : List NoticeKind} {f : Furnace} {s t : State} (h : SettledFor kinds f s t) (q : Port)
    (fr : Frame) (r : Reply) : SettledFor kinds f (putAnswer q fr r s) (putAnswer q fr r t) :=
  ⟨h.1.answer q fr r, h.2.1, h.2.2.1, h.2.2.2.1.answer q fr r, h.2.2.2.2.1.answer q fr r,
    h.2.2.2.2.2.1.answer q fr r, fun n =>
    ⟨(h.2.2.2.2.2.2 n).1, (h.2.2.2.2.2.2 n).2.1, (h.2.2.2.2.2.2 n).2.2.answer q fr r⟩⟩

theorem SettledAll.answer {kinds : List NoticeKind} {s t : State} (h : SettledAll kinds s t) (q : Port) (fr : Frame)
    (r : Reply) : SettledAll kinds (putAnswer q fr r s) (putAnswer q fr r t) :=
  ⟨h.1.answer q fr r, h.2.1, h.2.2.1, h.2.2.2.1, h.2.2.2.2.1.answer q fr r, h.2.2.2.2.2.1.answer q fr r,
    h.2.2.2.2.2.2.1.answer q fr r, fun n =>
    ⟨(h.2.2.2.2.2.2.2 n).1, (h.2.2.2.2.2.2.2 n).2.1, (h.2.2.2.2.2.2.2 n).2.2.answer q fr r⟩⟩

/-! ### A request -/

theorem exec_commandOf (k : RequestKind) (q : Port) (tag : Byte) (body : List Byte) (s : State) :
    exec (commandOf k q tag body) s = request k q tag body s := by
  cases k <;> rfl

theorem RequestKind.ofCode_code (k : RequestKind) : RequestKind.ofCode (BitVec.ofNat 8 k.code).toNat = some k := by
  cases k <;> decide

/-- A request that arrives with none in hand is taken on the state with an empty assembly. -/
theorem request_taken (k : RequestKind) (q : Port) (tag : Byte) (body : List Byte) (s : State) (on : s.powered = true)
    (free : (s.ports.get q).inHand = none) :
    request k q tag body s
      = .next (putAnswer q (requestFrame k tag body) (answerTo q (requestFrame k tag body) (dropAssembly q s)).2
          (answerTo q (requestFrame k tag body) (dropAssembly q s)).1) := by
  unfold request
  rw [live_powered _ _ on, receiveFrame_arrive]
  unfold arrive
  dsimp only
  split
  · rfl
  · next x held =>
    rw [free] at held
    cases held

/-- A request of the right length from a permitted port reaches its block. -/
theorem request_handled (k : RequestKind) (q : Port) (tag : Byte) (body : List Byte) (s : State) (r : Ready q s)
    (len : k.lengthOk body.length = true) (may : permitted k q body = true) :
    exec (commandOf k q tag body) s
      = .next (putAnswer q (requestFrame k tag body) (handle k q body (dropAssembly q s)).2
          (handle k q body (dropAssembly q s)).1) := by
  obtain ⟨on, l, free⟩ := r
  rw [exec_commandOf, request_taken k q tag body s on free]
  have l' : loading (dropAssembly q s) = false := l
  have e : answerTo q (requestFrame k tag body) (dropAssembly q s) = handle k q body (dropAssembly q s) := by
    unfold answerTo
    have code : RequestKind.ofCode (requestFrame k tag body).kind.toNat = some k := RequestKind.ofCode_code k
    have b : (requestFrame k tag body).body = body := rfl
    rw [if_neg (by rw [l']; decide), code]
    dsimp only
    rw [b, if_neg (by rw [len]; decide), if_neg (by rw [may]; decide)]
  rw [e]

/-- A handler that changes nothing leaves the answer alone. -/
theorem request_unchanged (k : RequestKind) (q : Port) (tag : Byte) (body : List Byte) (s : State) (r : Ready q s)
    (len : k.lengthOk body.length = true) (may : permitted k q body = true) (reply : Reply)
    (h : handle k q body (dropAssembly q s) = (dropAssembly q s, reply)) :
    exec (commandOf k q tag body) s = .next (answered k q tag body reply s) := by
  rw [request_handled k q tag body s r len may, h]
  dsimp only
  rw [putAnswer_dropAssembly]
  rfl

/-! ### The clearing of ACK-NOTICES -/

theorem NoticeKind.code_inj {j k : NoticeKind} (h : j.code = k.code) : j = k := by
  cases j <;> cases k <;> first | rfl | cases h

/-- In a record with one entry a kind, two entries of a kind are one. -/
theorem one_entry_a_kind : ∀ {l : List Notice}, (l.map (fun n => n.detail.kind)).Nodup → ∀ m ∈ l, ∀ n ∈ l,
    m.detail.kind = n.detail.kind → m = n
  | [], _, m, hm, _, _, _ => absurd hm List.not_mem_nil
  | y :: l, nodup, m, hm, n, hn, same => by
    rw [List.map_cons, List.nodup_cons] at nodup
    rcases List.mem_cons.mp hm with em | im <;> rcases List.mem_cons.mp hn with en | inn
    · rw [em, en]
    · exact absurd (List.mem_map.mpr ⟨n, inn, by rw [← same, em]⟩) nodup.1
    · exact absurd (List.mem_map.mpr ⟨m, im, by rw [same, en]⟩) nodup.1
    · exact one_entry_a_kind nodup.2 m im n inn same

/-- What the clearing lists, as the statements have it: the record left, the kinds kept, the kinds cleared. -/
theorem clearKinds_lists : ∀ (kinds : List (NoticeKind × Nat)) (r : PortRec),
    (r.notices.map (fun n => n.detail.kind)).Nodup →
      (clearKinds r kinds).2.1.map NoticeKind.code = kindsKept (kinds.map (fun x => (x.1.code, x.2))) r.notices
      ∧ (clearKinds r kinds).2.2.map NoticeKind.code = kindsCleared (kinds.map (fun x => (x.1.code, x.2))) r.notices
  | [], _, _ => ⟨rfl, rfl⟩
  | (k, serial) :: rest, r, nodup => by
    rw [List.map_cons]
    unfold clearKinds kindsKept kindsCleared pendingSerial
    cases found : r.notices.find? (fun n => n.detail.kind == k) with
    | none =>
      have absent : ∀ n ∈ r.notices, (k.code == n.detail.kind.code) = false := fun n hn => by
        have no := List.find?_eq_none.mp found n hn
        refine beq_eq_false_iff_ne.mpr (fun e => no ?_)
        rw [NoticeKind.code_inj e, beq_self_eq_true]
      have stays : r.notices.filter (fun n => !namingClears (k.code, serial) n) = r.notices := by
        refine List.filter_eq_self.mpr (fun n hn => ?_)
        unfold namingClears
        rw [absent n hn]
        rfl
      have none1 : r.notices.any (fun n => k.code == n.detail.kind.code && !namingClears (k.code, serial) n) = false := by
        refine List.any_eq_false.mpr (fun n hn => ?_)
        rw [absent n hn, Bool.false_and]
        decide
      have none2 : r.notices.any (namingClears (k.code, serial)) = false := by
        refine List.any_eq_false.mpr (fun n hn => ?_)
        unfold namingClears
        rw [absent n hn, Bool.false_and]
        decide
      dsimp only [Option.map_none]
      rw [none1, none2, stays]
      exact clearKinds_lists rest r nodup
    | some n =>
      have isK : n.detail.kind = k := by simpa using List.find?_some found
      have inRecord : n ∈ r.notices := List.mem_of_find?_eq_some found
      have only : ∀ m ∈ r.notices, (k.code == m.detail.kind.code) = true → m = n := fun m hm e =>
        one_entry_a_kind nodup m hm n inRecord (by
          rw [isK]
          exact (NoticeKind.code_inj (by simpa using e)).symm)
      have codeN : (k.code == n.detail.kind.code) = true := by rw [isK, beq_self_eq_true]
      dsimp only [Option.map_some]
      by_cases clears : serial = 0 ∨ serial = n.serial
      · rw [if_pos clears]
        have naming : namingClears (k.code, serial) n = true := by
          unfold namingClears
          rw [codeN]
          simpa using clears
        have left : r.notices.filter (fun m => !namingClears (k.code, serial) m) = (r.clear k).notices := by
          unfold PortRec.clear
          refine List.filter_congr (fun m hm => ?_)
          by_cases e : (k.code == m.detail.kind.code) = true
          · rw [only m hm e, naming, isK]
            simp
          · have ne : m.detail.kind ≠ k := fun same => e (by rw [same, beq_self_eq_true])
            unfold namingClears
            rw [Bool.eq_false_iff.mpr e]
            simp [ne]
        have one1 : r.notices.any (fun m => k.code == m.detail.kind.code && !namingClears (k.code, serial) m) = false := by
          refine List.any_eq_false.mpr (fun m hm both => ?_)
          rw [Bool.and_eq_true] at both
          rw [only m hm both.1, naming] at both
          exact absurd both.2 (by decide)
        have one2 : r.notices.any (namingClears (k.code, serial)) = true := List.any_eq_true.mpr ⟨n, inRecord, naming⟩
        obtain ⟨i1, i2⟩ := clearKinds_lists rest (r.clear k)
          ((List.Sublist.map _ List.filter_sublist).nodup nodup)
        rw [one1, one2, left]
        exact ⟨i1, congrArg (k.code :: ·) i2⟩
      · rw [if_neg clears]
        have naming : namingClears (k.code, serial) n = false := by
          unfold namingClears
          rw [codeN]
          simpa using clears
        have never : ∀ m ∈ r.notices, namingClears (k.code, serial) m = false := fun m hm => by
          by_cases e : (k.code == m.detail.kind.code) = true
          · rw [only m hm e, naming]
          · unfold namingClears
            rw [Bool.eq_false_iff.mpr e]
            rfl
        have stays : r.notices.filter (fun m => !namingClears (k.code, serial) m) = r.notices :=
          List.filter_eq_self.mpr (fun m hm => by rw [never m hm]; rfl)
        have one1 : r.notices.any (fun m => k.code == m.detail.kind.code && !namingClears (k.code, serial) m) = true :=
          List.any_eq_true.mpr ⟨n, inRecord, by rw [codeN, naming]; rfl⟩
        have one2 : r.notices.any (namingClears (k.code, serial)) = false :=
          List.any_eq_false.mpr (fun m hm => by rw [never m hm]; decide)
        obtain ⟨i1, i2⟩ := clearKinds_lists rest r nodup
        rw [one1, one2, stays]
        exact ⟨congrArg (k.code :: ·) i1, i2⟩

/-- The list of kinds of an answer, as the statements have it. -/
theorem kindBytes_listed (r : PortRec) (kinds : List NoticeKind) :
    kindBytes r kinds = kindsListed r.notices (kinds.map NoticeKind.code) := by
  unfold kindBytes kindsListed pendingSerial
  rw [List.filterMap_map]
  have test : ∀ k : NoticeKind,
      (fun n : Notice => n.detail.kind == k) = (fun n => n.detail.kind.code == k.code) := fun k => by
    funext n
    by_cases e : n.detail.kind = k
    · rw [e, beq_self_eq_true, beq_self_eq_true]
    · rw [beq_eq_false_iff_ne.mpr e, beq_eq_false_iff_ne.mpr (fun c => e (NoticeKind.code_inj c))]
  have same : (fun k : NoticeKind =>
        ((r.notices.find? (fun n => n.detail.kind == k)).map Notice.serial).map (fun n => be1 k.code ++ be2 n))
      = (fun k : Nat => (r.notices.find? (fun n => n.detail.kind.code == k)).map (fun n => be1 k ++ be2 n.serial))
          ∘ NoticeKind.code := by
    funext k
    dsimp only [Function.comp]
    rw [test k, Option.map_map]
    rfl
  rw [same]

end Sys2Proof.Machine
end

