-- ==== Sys2Proof/Laws/Judged.lean ====
section
/-! SUPPORT. What one evaluation of a circuit, one expiry of its timers and one reading of the pressure do, in the words of
the statements (R103 to R113). -/

namespace Sys2Proof.Machine

/-- A tripped circuit's output has no command by the rule of its record (R49, R52). -/
theorem OutputRule.tripped {s : State} {c : Circuit} {f : Furnace} {available : Nat} (h : OutputRule s f available)
    (named : (circuitMask c).get f = true) (trip : (circuitOf s c).state = .trip) : (s.allot.out.get f).command = 0 := by
  obtain ⟨-, -, cap, grant, -, cont, pulse, off, -⟩ := h
  rw [smallest_boundsOn, claimOf_ceiling_tripped named trip, Nat.min_zero] at cap
  rw [cap, Nat.zero_min] at grant
  have mode : (s.allot.out.get f).mode = .off := by
    cases m : (s.allot.out.get f).mode
    · rfl
    · have := (cont.mp m).1
      omega
    · have := (pulse.mp m).1
      omega
  exact (off mode).2

/-- A power law gives what a trip needs of the held pair (R52, R60). -/
theorem OffDrawsNothing.of_powerLaw {s : State} (h : PowerLaw s) : OffDrawsNothing s := by
  intro f off
  obtain ⟨⟨-, current⟩, handed, -⟩ := h
  rw [handed] at off ⊢
  have record : (s.allot.out.get f).command = 0 := by
    cases l : loading s
    · rw [l, if_neg (by decide)] at current
      obtain ⟨-, served, rest⟩ := current
      have mode : (s.allot.out.get f).mode = .off := by
        rw [← off]; cases f <;> rfl
      rcases furnace_cases s.allot.priority f with e | e
      · rw [e] at mode ⊢
        exact (served.2.2.2.2.2.2.2.1 mode).2
      · rw [e] at mode ⊢
        exact (rest.2.2.2.2.2.2.2.1 mode).2
    · rw [l, if_pos rfl] at current
      rw [current]
      cases f <;> rfl
  rw [← record]
  cases f <;> rfl

/-! ### A trip -/

/-- The COOLING that a state posts of itself (R116). -/
theorem cooling_noticed (s : State) : Noticed (coolingDetail (post (coolingDetail s) s)) (post (coolingDetail s) s) :=
  post_noticed _ s

theorem tripCircuit_tripped (c : Circuit) (cause : TripCause) (s : State) :
    CircuitTripped c cause s (tripCircuit c cause s) := by
  unfold CircuitTripped
  dsimp only
  rw [tripCircuit_circuit]
  refine ⟨rfl, rfl, rfl, ⟨rfl, rfl, rfl⟩, fun off f named => ?_, fun cab => ?_, ?_⟩
  · unfold tripCircuit
    dsimp only
    generalize hx : setCircuitRec c
      { (circuitOf s c).stopTimers with state := .trip, cause := some cause, enteredAt := now s, latch := true } s = x
    have down : State.outputEnable (takeTrip (circuitMask c) x) f = false := by
      refine takeTrip_enable ?_ named
      rw [← hx]
      exact off
    split
    · unfold assertBreaker
      split <;> exact down
    · exact down
  · subst cab
    intro closed
    unfold tripCircuit
    dsimp only
    rw [if_pos rfl]
    unfold assertBreaker
    split
    · exact ⟨rfl, fun _ => rfl⟩
    · next n =>
      have line : (takeTrip (circuitMask .cabinet)
          (setCircuitRec .cabinet
            { (circuitOf s .cabinet).stopTimers with state := .trip, cause := some cause, enteredAt := now s, latch := true } s)).lines.breakerClosed = true := closed
      have stood : s.shop.breakerTrip = true := by
        cases b : s.shop.breakerTrip
        · exact absurd ⟨line, b⟩ n
        · rfl
      exact ⟨stood, fun b => by rw [stood] at b; cases b⟩
  · unfold tripCircuit
    dsimp only
    exact cooling_noticed _

/-- Timers halted from a record with the same timers. -/
theorem TimersHalted.congr {y r r' : CircuitRec} (h : TimersHalted y r')
    (timers : y.watch = r.watch ∧ y.derate = r.derate ∧ y.recovery = r.recovery) : TimersHalted r r' := by
  unfold TimersHalted timersHalted at *
  rw [timers.1, timers.2.1, timers.2.2] at h
  exact h

/-- A trip judged from a state with the same timers of the circuit, held pair, lines and shop. -/
theorem CircuitTripped.congr {c : Circuit} {cause : TripCause} {s x t : State} (h : CircuitTripped c cause x t)
    (timers : (circuitOf x c).watch = (circuitOf s c).watch ∧ (circuitOf x c).derate = (circuitOf s c).derate
      ∧ (circuitOf x c).recovery = (circuitOf s c).recovery)
    (stage : x.stage = s.stage) (lines : x.lines = s.lines) (shop : x.shop = s.shop) : CircuitTripped c cause s t := by
  obtain ⟨h1, h2, h3, h4, h5, h6, h7⟩ := h
  refine ⟨h1, h2, h3, h4.congr timers, fun off => h5 ?_, fun cab => ?_, h7⟩
  · unfold OffDrawsNothing at *
    rw [stage]
    exact off
  · have b := h6 cab
    unfold BreakerAsserted at *
    rw [lines, shop] at b
    exact b

/-! ### Forming the conditions -/

theorem leakNoticeAt_shape (q : Port) (old cond : PerFurnace Bool) (s : State) :
    leakNoticeAt q old cond s = { s with prot := (leakNoticeAt q old cond s).prot, ports := (leakNoticeAt q old cond s).ports }
      := by
  unfold leakNoticeAt
  dsimp only
  split
  · split <;> rfl
  · rfl

/-- LEAK_WARN is posted at the port where the warning has appeared or has gone over to the circuit it carries (R110). -/
theorem leakNoticeAt_tells {q : Port} {old cond : PerFurnace Bool} {s : State} {f : Furnace}
    (next : carriedNext old cond (s.prot.leakCarried.get q) = some f)
    (new : s.prot.leakCarried.get q ≠ some f ∨ old.get f = false) :
    ∃ n ∈ ((leakNoticeAt q old cond s).ports.get q).notices, n.detail = leakDetail s f := by
  have gone : ¬ (s.prot.leakCarried.get q = some f ∧ old.get f = true) := fun h => by
    rcases new with n | n
    · exact n h.1
    · rw [h.2] at n; cases n
  unfold leakNoticeAt
  dsimp only
  rw [next]
  dsimp only
  rw [if_neg gone]
  unfold postTo
  rw [ports_setPort_same]
  unfold PortRec.post
  exact ⟨_, List.mem_append_right _ (List.mem_singleton.mpr rfl), rfl⟩

/-- A warning that has appeared is posted to the port (R110). -/
theorem leakNoticeAt_posts {old cond : PerFurnace Bool} {f : Furnace} (q : Port) (s : State) (was : old.get f = false)
    (next : ∀ carried, carriedNext old cond carried = some f) :
    ∃ n ∈ ((leakNoticeAt q old cond s).ports.get q).notices, n.detail = leakDetail s f :=
  leakNoticeAt_tells (next _) (Or.inr was)

/-- The ports other than its own are left alone. -/
theorem leakNoticeAt_other {q other : Port} (old cond : PerFurnace Bool) (s : State) (h : other ≠ q) :
    (leakNoticeAt q old cond s).ports.get other = s.ports.get other := by
  unfold leakNoticeAt
  dsimp only
  split
  · split
    · rfl
    · unfold postTo
      rw [ports_setPort_other _ _ h]
  · rfl

/-- What forming the conditions leaves: one circuit record, what LEAK_WARN carries, and notices (R103, R110). -/
theorem formConditions_shape (c : Circuit) (s : State) :
    formConditions c s = { s with prot := (formConditions c s).prot, ports := (formConditions c s).ports } := by
  unfold formConditions
  dsimp only
  rw [leakNoticeAt_shape .p, leakNoticeAt_shape .b, leakNoticeAt_shape .a]
  rfl

theorem formConditions_circuit (c : Circuit) (s : State) :
    circuitOf (formConditions c s) c
      = { circuitOf s c with
          hard := (hardCause s c).isSome, soft := softCond s c, leakWarning := leakWarningCond s c } := by
  unfold circuitOf
  rw [(formConditions_protOnly c s).2.1, PerCircuit.get_set_same]
  rfl

theorem formConditions_other {c other : Circuit} (s : State) (h : other ≠ c) :
    circuitOf (formConditions c s) other = circuitOf s other := by
  unfold circuitOf
  rw [(formConditions_protOnly c s).2.1, PerCircuit.get_set, if_neg h]

/-- A leak warning that appears posts LEAK_WARN with the value read (R110). -/
theorem formConditions_warns {f : Furnace} (s : State) (was : (circuitOf s (coilOf f)).leakWarning = false)
    (is : leakWarningCond s (coilOf f) = true) :
    ∃ v ∈ validReading (chanOf s (if f = .a then .leakA else .leakB)),
      Noticed (.leakWarn f v) (formConditions (coilOf f) s) := by
  obtain ⟨v, read⟩ : ∃ v, validReading (chanOf s (if f = .a then .leakA else .leakB)) = some v := by
    cases h : validReading (chanOf s (if f = .a then .leakA else .leakB))
    · exfalso
      cases f <;> simp [leakWarningCond, leakAbove, leakChan, coilOf, readsAbove] at is h <;> rw [h] at is <;> cases is
    · exact ⟨_, rfl⟩
  have value : (chanOf s (if f = .a then .leakA else .leakB)).value = some v := by
    unfold validReading at read
    by_cases h : (chanOf s (if f = .a then .leakA else .leakB)).status = .valid
    · rwa [if_pos h] at read
    · rw [if_neg h] at read
      cases read
  refine ⟨v, read, ?_⟩
  unfold formConditions
  dsimp only
  generalize hx : setCircuitRec (coilOf f)
    { circuitOf s (coilOf f) with
      hard := (hardCause s (coilOf f)).isSome, soft := softCond s (coilOf f)
      leakWarning := leakWarningCond s (coilOf f) } s = x
  have old : (leakStands s).get f = false := by cases f <;> exact was
  have cond : (leakStands x).get f = true := by
    rw [← hx]
    cases f <;> simpa [leakStands, PerFurnace.get, circuitOf, setCircuitRec, PerCircuit.set, PerCircuit.get, coilOf] using is
  have others : f = .b ∨ (leakStands s).b = true ∨ (leakStands x).b = false := by
    cases f
    · refine Or.inr ?_
      have same : (leakStands x).b = (leakStands s).b := by rw [← hx]; rfl
      rw [same]
      cases (leakStands s).b <;> simp
    · exact Or.inl rfl
  have next : ∀ carried, carriedNext (leakStands s) (leakStands x) carried = some f := fun carried =>
    carriedNext_arisen carried old cond others
  have scan : x.scan = s.scan := by rw [← hx]; rfl
  have detail : ∀ y : State, y.scan = s.scan → leakDetail y f = .leakWarn f v := fun y e => by
    unfold leakDetail
    have at' : ((leakChan (coilOf f)).bind (fun ch => (chanOf y ch).value)).getD 0 = v := by
      unfold chanOf at *
      rw [e]
      cases f <;> simp [leakChan, coilOf] at value ⊢ <;> rw [value] <;> rfl
    rw [at']
  have scanA : (leakNoticeAt .a (leakStands s) (leakStands x) x).scan = s.scan := by
    rw [leakNoticeAt_shape]; exact scan
  have scanB : (leakNoticeAt .b (leakStands s) (leakStands x)
      (leakNoticeAt .a (leakStands s) (leakStands x) x)).scan = s.scan := by
    rw [leakNoticeAt_shape]; exact scanA
  intro q _
  cases q
  · rw [leakNoticeAt_other _ _ _ (by decide), leakNoticeAt_other _ _ _ (by decide), ← detail x scan]
    exact leakNoticeAt_posts .a x old next
  · rw [leakNoticeAt_other _ _ _ (by decide), ← detail _ scanA]
    exact leakNoticeAt_posts .b _ old next
  · rw [← detail _ scanB]
    exact leakNoticeAt_posts .p _ old next

/-- What the LEAK_WARN of one port carries once it is brought up to date; all else in protection stands. -/
theorem leakNoticeAt_carried (q : Port) (old cond : PerFurnace Bool) (s : State) :
    (leakNoticeAt q old cond s).prot
      = { s.prot with leakCarried := s.prot.leakCarried.set q (carriedNext old cond (s.prot.leakCarried.get q)) } := by
  unfold leakNoticeAt
  dsimp only
  split
  · split <;> rfl
  · rfl

theorem leakDetail_reads (s : State) (f : Furnace) :
    leakDetail s f = .leakWarn f (((chanOf s (if f = .a then .leakA else .leakB)).value).getD 0) := by
  cases f <;> rfl

/-- LEAK_WARN follows the warnings where the conditions of a circuit are formed (R110). -/
theorem formConditions_leakNoticed (c : Circuit) (s : State) : LeakNoticed s (formConditions c s) := by
  unfold formConditions
  dsimp only
  generalize hx : setCircuitRec c
    { circuitOf s c with
      hard := (hardCause s c).isSome, soft := softCond s c, leakWarning := leakWarningCond s c } s = x
  have carried : x.prot.leakCarried = s.prot.leakCarried := by rw [← hx]; rfl
  have scan : x.scan = s.scan := by rw [← hx]; rfl
  have reads : ∀ (y : State) f, y.scan = s.scan →
      leakDetail y f = .leakWarn f (((chanOf s (if f = .a then .leakA else .leakB)).value).getD 0) := fun y f e => by
    rw [leakDetail_reads]
    unfold chanOf
    rw [e]
  generalize ha : leakNoticeAt .a (leakStands s) (leakStands x) x = a
  have pa := leakNoticeAt_carried .a (leakStands s) (leakStands x) x
  rw [ha] at pa
  have sa : a.scan = s.scan := by rw [← ha, leakNoticeAt_shape]; exact scan
  generalize hb : leakNoticeAt .b (leakStands s) (leakStands x) a = b
  have pb := leakNoticeAt_carried .b (leakStands s) (leakStands x) a
  rw [hb] at pb
  have sb : b.scan = s.scan := by rw [← hb, leakNoticeAt_shape]; exact sa
  generalize hp : leakNoticeAt .p (leakStands s) (leakStands x) b = t
  have pt := leakNoticeAt_carried .p (leakStands s) (leakStands x) b
  rw [hp] at pt
  have stands : leakWarned t = leakStands x := by
    unfold leakWarned leakStands circuitOf
    rw [pt, pb, pa]
    rfl
  have was : leakWarned s = leakStands s := rfl
  have next : ∀ q, t.prot.leakCarried.get q = carriedNext (leakStands s) (leakStands x) (s.prot.leakCarried.get q) := by
    intro q
    rw [pt, pb, pa, ← carried]
    cases q <;> rfl
  intro q
  rw [stands, was, next q]
  refine ⟨carriedNext_carries _ _ _, fun f hf new => ?_⟩
  cases q
  · have told := leakNoticeAt_tells (q := .a) (s := x) (by rw [carried]; exact hf) (by rw [carried]; exact new)
    rw [ha, reads x f scan] at told
    rw [← hp, leakNoticeAt_other _ _ _ (by decide), ← hb, leakNoticeAt_other _ _ _ (by decide)]
    exact told
  · have same : a.prot.leakCarried.get .b = s.prot.leakCarried.get .b := by rw [pa, ← carried]; rfl
    have told := leakNoticeAt_tells (q := .b) (s := a) (by rw [same]; exact hf) (by rw [same]; exact new)
    rw [hb, reads a f sa] at told
    rw [← hp, leakNoticeAt_other _ _ _ (by decide)]
    exact told
  · have same : b.prot.leakCarried.get .p = s.prot.leakCarried.get .p := by rw [pb, pa, ← carried]; rfl
    have told := leakNoticeAt_tells (q := .p) (s := b) (by rw [same]; exact hf) (by rw [same]; exact new)
    rw [hp, reads b f sb] at told
    exact told

/-- LEAK_WARN stands as it was brought up to date where the warnings, what it carries and its notices stand. -/
theorem LeakNoticed.keep {s x t : State} {kinds : List NoticeKind} (h : LeakNoticed s x) (warned : leakWarned t = leakWarned x)
    (carried : t.prot.leakCarried = x.prot.leakCarried) (noted : PortsNoted kinds x t) (apart : .leakWarn ∉ kinds) :
    LeakNoticed s t := by
  intro q
  rw [warned, carried]
  refine ⟨(h q).1, fun f hf new => ?_⟩
  obtain ⟨n, hn, e⟩ := (h q).2 f hf new
  have kind : n.detail.kind = .leakWarn := by rw [e]; rfl
  have inX : n ∈ (x.ports.get q).notices.filter (fun n => !kinds.contains n.detail.kind) :=
    List.mem_filter.mpr ⟨hn, by rw [kind]; simpa using apart⟩
  rw [← (noted q).2.1] at inX
  exact ⟨n, (List.mem_filter.mp inX).1, e⟩

/-! ### One evaluation -/

theorem enterState_circuit (c : Circuit) (r : CircuitRec) (s : State) :
    circuitOf (enterState c r s) c = { r with enteredAt := now s } := circuitOf_setCircuitRec_same c _ s

theorem enterState_others (c : Circuit) (r : CircuitRec) (s : State) :
    (∀ other, other ≠ c → circuitOf (enterState c r s) other = circuitOf s other)
      ∧ (enterState c r s).prot.loop = s.prot.loop ∧ Noticed (coolingDetail (enterState c r s)) (enterState c r s) :=
  ⟨fun _ h => circuitOf_setCircuitRec_other _ s h, rfl, cooling_noticed _⟩

/-- A change of one circuit's record to `r`: the other circuits, the loop and what LEAK_WARN carries stand, and only
COOLING is posted. -/
def OneMoved (c : Circuit) (r : CircuitRec) (s t : State) : Prop :=
  circuitOf t c = r ∧ (∀ other, other ≠ c → circuitOf t other = circuitOf s other) ∧ t.prot.loop = s.prot.loop
    ∧ t.prot.leakCarried = s.prot.leakCarried ∧ PortsNoted [.cooling] s t

/-- A change of a circuit's record that keeps its leak warning keeps LEAK_WARN up to date. -/
theorem OneMoved.leakNoticed {c : Circuit} {r : CircuitRec} {s x t : State} (moved : OneMoved c r x t)
    (h : LeakNoticed s x) (warns : r.leakWarning = (circuitOf x c).leakWarning) : LeakNoticed s t := by
  obtain ⟨here, apart, -, carried, noted⟩ := moved
  have same : ∀ other, (circuitOf t other).leakWarning = (circuitOf x other).leakWarning := fun other => by
    by_cases e : other = c
    · rw [e, here, warns]
    · rw [apart other e]
  refine h.keep ?_ carried noted (by decide)
  have a := same .coilA
  have b := same .coilB
  unfold leakWarned
  unfold circuitOf at a b
  simp only [PerCircuit.get] at a b
  rw [a, b]

theorem OneMoved.refl (c : Circuit) (s : State) : OneMoved c (circuitOf s c) s s :=
  ⟨rfl, fun _ _ => rfl, rfl, rfl, PortsNoted.refl _ s⟩

theorem setCircuitRec_moved (c : Circuit) (r : CircuitRec) (s : State) : OneMoved c r s (setCircuitRec c r s) :=
  ⟨circuitOf_setCircuitRec_same c r s, fun _ h => circuitOf_setCircuitRec_other r s h, rfl, rfl, PortsNoted.of_eq rfl⟩

theorem enterState_moved (c : Circuit) (r : CircuitRec) (s : State) :
    OneMoved c { r with enteredAt := now s } s (enterState c r s) :=
  ⟨enterState_circuit c r s, (enterState_others c r s).1, rfl, rfl,
    (PortsNoted.of_eq rfl).trans (post_noted_of (by simp [coolingDetail, Detail.kind]))⟩

theorem tripCircuit_moved (c : Circuit) (cause : TripCause) (s : State) :
    OneMoved c
      { (circuitOf s c).stopTimers with state := .trip, cause := some cause, enteredAt := now s, latch := true } s (tripCircuit c cause s) := by
  refine ⟨tripCircuit_circuit c cause s, (tripCircuit_others c cause s).2, ?_, ?_, ?_⟩
  · rw [(tripCircuit_others c cause s).1]
  · unfold tripCircuit
    dsimp only
    split
    · unfold assertBreaker
      split <;> rfl
    · rfl
  · unfold tripCircuit
    dsimp only
    refine PortsNoted.trans (t := if c = .cabinet then _ else _) ?_ (post_noted_of (by simp [coolingDetail, Detail.kind]))
    split
    · unfold assertBreaker
      split <;> exact PortsNoted.of_eq rfl
    · exact PortsNoted.of_eq rfl

/-- One evaluation of a circuit, as the statements have it (R103 to R108, R110, R113, R116, R117). -/
theorem evalCircuit_judged (c : Circuit) (s : State) (working : loading s = false) :
    CircuitJudged c s (evalCircuit c s) := by
  have shape := formConditions_shape c s
  have here := formConditions_circuit c s
  have apart := fun other h => formConditions_other (c := c) (other := other) s h
  have loop := (formConditions_protOnly c s).2.2
  have warns : ∀ f, c = coilOf f → (circuitOf s c).leakWarning = false → leakWarningCond s c = true →
      ∃ v ∈ validReading (chanOf s (if f = .a then .leakA else .leakB)), Noticed (.leakWarn f v) (formConditions c s) := by
    intro f e was is
    subst e
    exact formConditions_warns s was is
  have leaks := formConditions_leakNoticed c s
  unfold evalCircuit
  rw [if_neg (by rw [working]; decide)]
  generalize formConditions c s = x at *
  have hard : hardCause x c = hardCause s c := by rw [shape]; rfl
  have valid : allValid x c = allValid s c := by rw [shape]; rfl
  have time : now x = s.clock.shopSeconds := by rw [shape]; rfl
  have limit : derateTime x = derateTime s := by rw [shape]; rfl
  have change : inChangeover x = inChangeover s := by unfold inChangeover; rw [loop]
  have stage : x.stage = s.stage := by rw [shape]
  have lines : x.lines = s.lines := by rw [shape]
  have shop : x.shop = s.shop := by rw [shape]
  have timers : (circuitOf x c).watch = (circuitOf s c).watch ∧ (circuitOf x c).derate = (circuitOf s c).derate
      ∧ (circuitOf x c).recovery = (circuitOf s c).recovery := by
    rw [here]; exact ⟨rfl, rfl, rfl⟩
  have trips : ∀ cause, CircuitTripped c cause s (tripCircuit c cause x) := fun cause =>
    (tripCircuit_tripped c cause x).congr timers stage lines shop
  have halts : TimersHalted (circuitOf s c) (circuitOf x c).stopTimers := TimersHalted.congr ⟨rfl, rfl, rfl⟩ timers
  have common : ∀ r t, OneMoved c r x t → r.hard = (hardCause s c).isSome → r.soft = softCond s c →
      r.leakWarning = leakWarningCond s c →
      (circuitOf t c).hard = (hardCause s c).isSome ∧ (circuitOf t c).soft = softCond s c
        ∧ (circuitOf t c).leakWarning = leakWarningCond s c
        ∧ (∀ other, other ≠ c → circuitOf t other = circuitOf s other) ∧ t.prot.loop = s.prot.loop
        ∧ (∀ f, c = coilOf f → (circuitOf s c).leakWarning = false → (circuitOf t c).leakWarning = true →
            ∃ v ∈ validReading (chanOf s (if f = .a then .leakA else .leakB)), Noticed (.leakWarn f v) t)
        ∧ LeakNoticed s t := by
    rintro r t moved e1 e2 e3
    have leak := moved.leakNoticed leaks (by rw [e3, here])
    obtain ⟨m, o, l, -, n⟩ := moved
    rw [m]
    refine ⟨e1, e2, e3, fun other h => (o other h).trans (apart other h), l.trans loop, fun f cf was is => ?_, leak⟩
    obtain ⟨v, hv, posted⟩ := warns f cf was (e3 ▸ is)
    exact ⟨v, hv, posted.keep n (by simp [Detail.kind])⟩
  have clock : ∀ y : State, y.prot.loop = s.prot.loop → startTimer y = { mode := clockMode s, ms := 0 } := fun y e => by
    unfold startTimer clockMode inChangeover
    rw [e]
  have fields : (circuitOf x c).state = (circuitOf s c).state ∧ (circuitOf x c).latch = (circuitOf s c).latch
      ∧ (circuitOf x c).cause = (circuitOf s c).cause ∧ (circuitOf x c).soft = softCond s c
      ∧ (circuitOf x c).watch = (circuitOf s c).watch ∧ (circuitOf x c).derate = (circuitOf s c).derate
      ∧ (circuitOf x c).recovery = (circuitOf s c).recovery := by
    rw [here]; exact ⟨rfl, rfl, rfl, rfl, rfl, rfl, rfl⟩
  obtain ⟨state, latch, cause, soft, watch, derate, recovery⟩ := fields
  have formed : (circuitOf x c).hard = (hardCause s c).isSome ∧ (circuitOf x c).leakWarning = leakWarningCond s c := by
    rw [here]; exact ⟨rfl, rfl⟩
  -- a trip
  have trip : ∀ k, (circuitOf s c).state ≠ .trip →
      ((circuitOf s c).state = .init → (circuitOf s c).latch = true → k = .latch) →
      (∀ k' ∈ hardCause s c, ¬ ((circuitOf s c).state = .init ∧ (circuitOf s c).latch = true) → k = k') →
      (hardCause s c = none → ¬ ((circuitOf s c).state = .init ∧ (circuitOf s c).latch = true) →
        k = .derateExpiry ∧ (circuitOf s c).state = .derate ∧ softCond s c = true
          ∧ (circuitOf s c).recovery.mode ≠ .stopped
          ∧ clockMode s = .running ∧ derateTime s * 1000 ≤ (circuitOf s c).derate.ms) →
      CircuitJudged c s (tripCircuit c k x) := by
    intro k out byLatch byHard byTimer
    have moved := tripCircuit_moved c k x
    have base := common _ _ moved formed.1 soft formed.2
    have tripped := trips k
    obtain ⟨b1, b2, b3, b4, b5, b6, b7⟩ := base
    refine ⟨b1, b2, b3, b4, b5, fun _ => ⟨?_, tripped.2.2.2.2.2.2⟩, ?_, fun e => absurd e out, ?_, ?_, b6, b7, ?_, ?_, ?_, ?_⟩
    · rw [moved.1]; exact time
    · rw [moved.1]; intro e; cases e
    · intro e l; rw [← byLatch e l]; exact tripped
    · intro k' hk _ n; rw [← byHard k' hk n]; exact tripped
    · intro e i l
      obtain ⟨-, d, -⟩ := byTimer e (fun h => by rw [l] at h; cases h.2)
      rw [i] at d; cases d
    · intro e i
      obtain ⟨-, d, -⟩ := byTimer e (fun h => by rw [i] at h; cases h.1)
      rw [i] at d; cases d
    · intro e i
      obtain ⟨-, d, -⟩ := byTimer e (fun h => by rw [i] at h; cases h.1)
      rw [i] at d; cases d
    · intro e i
      obtain ⟨k', -, so, re, ru, ov⟩ := byTimer e (fun h => by rw [i] at h; cases h.1)
      refine ⟨fun _ _ _ => by rw [← k']; exact tripped, fun n => absurd ⟨so, re, ru, ov⟩ n, ?_, ?_, ?_, ?_⟩
      · intro so'; rw [so] at so'; cases so'
      · intro _ _ n; exact absurd ⟨ru, ov⟩ n
      · intro _ re'; exact absurd re' re
      · intro so'; rw [so] at so'; cases so'
  -- no trip
  have move : ∀ r t, OneMoved c r x t → r.hard = (hardCause s c).isSome → r.soft = softCond s c →
      r.leakWarning = leakWarningCond s c → hardCause s c = none → (circuitOf s c).state ≠ .trip →
      ¬ ((circuitOf s c).state = .init ∧ (circuitOf s c).latch = true) →
      (r.state ≠ (circuitOf s c).state → r.enteredAt = s.clock.shopSeconds ∧ Noticed (coolingDetail t) t) →
      (r.state = .normal → (circuitOf s c).state ≠ .normal → TimersHalted (circuitOf s c) r) →
      ((circuitOf s c).state = .init →
        r.state = (if allValid s c then (if softCond s c then .watch else .normal) else .init)
          ∧ (r.state = .watch → r.watch = { mode := clockMode s, ms := 0 })) →
      ((circuitOf s c).state = .normal →
        r.state = (if softCond s c then .watch else .normal)
          ∧ (softCond s c = true → r.watch = { mode := clockMode s, ms := 0 })) →
      ((circuitOf s c).state = .watch →
        r.state = (if softCond s c then .watch else .normal) ∧ (softCond s c = true → r.watch = (circuitOf s c).watch)) →
      ((circuitOf s c).state = .derate →
        (softCond s c = true → (circuitOf s c).recovery.mode ≠ .stopped →
            ¬ (clockMode s = .running ∧ derateTime s * 1000 ≤ (circuitOf s c).derate.ms))
        ∧ r.state = .derate
        ∧ (softCond s c = false → (circuitOf s c).recovery.mode = .stopped →
            r.recovery = { mode := clockMode s, ms := 0 } ∧ r.derate = { (circuitOf s c).derate with mode := .held })
        ∧ (softCond s c = true → (circuitOf s c).recovery.mode ≠ .stopped →
            r.recovery = (timersHalted (circuitOf s c)).recovery ∧ r.derate = { (circuitOf s c).derate with mode := clockMode s })
        ∧ ((softCond s c = true ↔ (circuitOf s c).recovery.mode = .stopped) →
            r.recovery = (circuitOf s c).recovery ∧ r.derate = (circuitOf s c).derate)) →
      CircuitJudged c s t := by
    intro r t moved e1 e2 e3 none' out fresh entered stopped inInit inNormal inWatch inDerate
    obtain ⟨b1, b2, b3, b4, b5, b6, b7⟩ := common r t moved e1 e2 e3
    have same := moved.1
    refine ⟨b1, b2, b3, b4, b5, ?_, ?_, fun e => absurd e out, fun i l => absurd ⟨i, l⟩ fresh, ?_, b6, b7, ?_, ?_, ?_, ?_⟩
    · rw [same]; exact entered
    · rw [same]; exact stopped
    · intro k hk; rw [none'] at hk; cases hk
    · intro _ i _; rw [same]; exact inInit i
    · intro _ i; rw [same]; exact inNormal i
    · intro _ i; rw [same]; exact inWatch i
    · intro _ i
      obtain ⟨d1, d2, d3, d4, d5⟩ := inDerate i
      rw [same]
      exact ⟨fun a b o => absurd o (d1 a b), fun _ => d2, d3, fun a b _ => d4 a b, fun a b => d5 (iff_of_true a b),
        fun a b => d5 (iff_of_false (by rw [a]; decide) b)⟩
  have cooled := fun r => (enterState_others c r x).2.2
  have elsewhere : ∀ {P : Prop} {a b : CircuitState}, (circuitOf s c).state = a → b ≠ a →
      (circuitOf s c).state = b → P := fun ha n hb => absurd (hb.symm.trans ha) n
  unfold advanceCircuit
  dsimp only
  rw [state, latch, soft, recovery, hard, valid]
  cases st : (circuitOf s c).state <;> dsimp only
  · -- INIT
    by_cases l : (circuitOf s c).latch = true
    · rw [if_pos l]
      exact trip .latch (by rw [st]; decide) (fun _ _ => rfl) (fun _ _ n => absurd ⟨st, l⟩ n) (fun _ n => absurd ⟨st, l⟩ n)
    · rw [if_neg l]
      cases hc : hardCause s c with
      | some k =>
        exact trip k (by rw [st]; decide) (fun _ h => absurd h l) (fun k' hk _ => by rw [hc] at hk; cases hk; rfl)
          (fun e => by rw [hc] at e; cases e)
      | none =>
        dsimp only
        have fresh : ¬ ((circuitOf s c).state = .init ∧ (circuitOf s c).latch = true) := fun h => l h.2
        cases v : allValid s c
        · rw [if_neg (by decide)]
          exact move _ x (OneMoved.refl c x) formed.1 soft formed.2 hc (by rw [st]; decide) fresh
            (fun n => absurd state n) (fun e => by rw [state, st] at e; cases e)
            (fun _ => ⟨by rw [state, st, v]; rfl, fun e => by rw [state, st] at e; cases e⟩)
            (elsewhere st (by decide)) (elsewhere st (by decide)) (elsewhere st (by decide))
        · rw [if_pos rfl]
          cases so : softCond s c
          · rw [if_neg (by decide)]
            exact move _ _ (enterState_moved c _ x) formed.1 soft formed.2 hc (by rw [st]; decide) fresh
              (fun _ => ⟨time, cooled _⟩) (fun _ _ => halts)
              (fun _ => ⟨by rw [v, so]; rfl, fun e => by cases e⟩)
              (elsewhere st (by decide)) (elsewhere st (by decide)) (elsewhere st (by decide))
          · rw [if_pos rfl]
            exact move _ _ (enterState_moved c _ x) formed.1 soft formed.2 hc (by rw [st]; decide) fresh
              (fun _ => ⟨time, cooled _⟩) (fun e => by cases e)
              (fun _ => ⟨by rw [v, so]; rfl, fun _ => clock x loop⟩)
              (elsewhere st (by decide)) (elsewhere st (by decide)) (elsewhere st (by decide))
  · -- NORMAL
    cases hc : hardCause s c with
    | some k =>
      exact trip k (by rw [st]; decide) (elsewhere st (by decide))
        (fun k' hk _ => by rw [hc] at hk; cases hk; rfl) (fun e => by rw [hc] at e; cases e)
    | none =>
      dsimp only
      have fresh : ¬ ((circuitOf s c).state = .init ∧ (circuitOf s c).latch = true) := fun h => by
        rw [st] at h
        cases h.1
      cases so : softCond s c
      · rw [if_neg (by decide)]
        exact move _ x (OneMoved.refl c x) formed.1 soft formed.2 hc (by rw [st]; decide) fresh
          (fun n => absurd state n) (fun _ n => absurd st n) (elsewhere st (by decide))
          (fun _ => ⟨by rw [state, st, so]; rfl, fun e => by rw [so] at e; cases e⟩)
          (elsewhere st (by decide)) (elsewhere st (by decide))
      · rw [if_pos rfl]
        exact move _ _ (enterState_moved c _ x) formed.1 soft formed.2 hc (by rw [st]; decide) fresh
          (fun _ => ⟨time, cooled _⟩) (fun e => by cases e) (elsewhere st (by decide))
          (fun _ => ⟨by rw [so]; rfl, fun _ => clock x loop⟩)
          (elsewhere st (by decide)) (elsewhere st (by decide))
  · -- WATCH
    cases hc : hardCause s c with
    | some k =>
      exact trip k (by rw [st]; decide) (elsewhere st (by decide))
        (fun k' hk _ => by rw [hc] at hk; cases hk; rfl) (fun e => by rw [hc] at e; cases e)
    | none =>
      dsimp only
      have fresh : ¬ ((circuitOf s c).state = .init ∧ (circuitOf s c).latch = true) := fun h => by
        rw [st] at h
        cases h.1
      cases so : softCond s c
      · rw [if_neg (by decide)]
        exact move _ _ (enterState_moved c _ x) formed.1 soft formed.2 hc (by rw [st]; decide) fresh
          (fun _ => ⟨time, cooled _⟩) (fun _ _ => halts) (elsewhere st (by decide)) (elsewhere st (by decide))
          (fun _ => ⟨by rw [so]; rfl, fun e => by rw [so] at e; cases e⟩) (elsewhere st (by decide))
      · rw [if_pos rfl]
        exact move _ x (OneMoved.refl c x) formed.1 soft formed.2 hc (by rw [st]; decide) fresh
          (fun n => absurd state n) (fun e => by rw [state, st] at e; cases e)
          (elsewhere st (by decide)) (elsewhere st (by decide))
          (fun _ => ⟨by rw [state, st, so]; rfl, fun _ => watch⟩) (elsewhere st (by decide))
  · -- DERATE
    cases hc : hardCause s c with
    | some k =>
      exact trip k (by rw [st]; decide) (elsewhere st (by decide))
        (fun k' hk _ => by rw [hc] at hk; cases hk; rfl) (fun e => by rw [hc] at e; cases e)
    | none =>
      dsimp only
      have fresh : ¬ ((circuitOf s c).state = .init ∧ (circuitOf s c).latch = true) := fun h => by
        rw [st] at h
        cases h.1
      by_cases clear : softCond s c = false ∧ (circuitOf s c).recovery.mode = .stopped
      · obtain ⟨so, re⟩ := clear
        rw [if_pos ⟨so, re⟩]
        exact move _ _ (setCircuitRec_moved c _ x) formed.1 rfl formed.2 hc (by rw [st]; decide) fresh
          (fun n => absurd st.symm n) (fun e => by cases e)
          (elsewhere st (by decide)) (elsewhere st (by decide)) (elsewhere st (by decide))
          (fun _ => ⟨fun a => (by rw [so] at a; cases a), rfl, fun _ _ => ⟨clock x loop, by rw [derate]⟩,
            fun a => (by rw [so] at a; cases a), fun i => by have := i.mpr re; rw [so] at this; cases this⟩)
      · rw [if_neg clear]
        by_cases back : softCond s c = true ∧ (circuitOf s c).recovery.mode ≠ .stopped
        · obtain ⟨so, re⟩ := back
          rw [if_pos ⟨so, re⟩]
          unfold softReturns
          dsimp only
          have on : runOn x (circuitOf x c).derate = { (circuitOf s c).derate with mode := clockMode s } := by
            unfold runOn clockMode
            rw [change, derate]
          rw [on, limit]
          by_cases d : ({ (circuitOf s c).derate with mode := clockMode s } : Timer).due (derateTime s) = true
          · rw [if_pos d]
            have past : clockMode s = .running ∧ derateTime s * 1000 ≤ (circuitOf s c).derate.ms := by
              simpa [Timer.due] using d
            exact trip .derateExpiry (by rw [st]; decide) (elsewhere st (by decide))
              (fun k' hk => by rw [hc] at hk; cases hk) (fun _ _ => ⟨rfl, st, so, re, past.1, past.2⟩)
          · rw [if_neg d]
            exact move _ _ (setCircuitRec_moved c _ x) formed.1 soft formed.2 hc (by rw [st]; decide) fresh
              (fun n => absurd state n) (fun e => by rw [state, st] at e; cases e)
              (elsewhere st (by decide)) (elsewhere st (by decide)) (elsewhere st (by decide))
              (fun _ => ⟨fun _ _ o => d (by simpa [Timer.due] using o), state.trans st,
                fun a => (by rw [so] at a; cases a), fun _ _ => ⟨halts.2.2, rfl⟩, fun i => absurd (i.mp so) re⟩)
        · rw [if_neg back]
          exact move _ x (OneMoved.refl c x) formed.1 soft formed.2 hc (by rw [st]; decide) fresh
            (fun n => absurd state n) (fun e => by rw [state, st] at e; cases e)
            (elsewhere st (by decide)) (elsewhere st (by decide)) (elsewhere st (by decide))
            (fun _ => ⟨fun a b => absurd ⟨a, b⟩ back, state.trans st, fun a b => absurd ⟨a, b⟩ clear,
              fun a b => absurd ⟨a, b⟩ back, fun _ => ⟨recovery, derate⟩⟩)
  · -- TRIP
    obtain ⟨b1, b2, b3, b4, b5, b6, b7⟩ := common _ x (OneMoved.refl c x) formed.1 soft formed.2
    exact ⟨b1, b2, b3, b4, b5, fun n => absurd state n, fun e => (by rw [state, st] at e; cases e),
      fun _ => ⟨state.trans st, cause, latch⟩, elsewhere st (by decide), fun _ _ n => absurd st n, b6, b7,
      fun _ => elsewhere st (by decide), fun _ => elsewhere st (by decide), fun _ => elsewhere st (by decide),
      fun _ => elsewhere st (by decide)⟩

/-! ### The pressure -/

theorem judgePressure_judged (s : State) : PressureJudged s (judgePressure s) := by
  unfold PressureJudged judgePressure
  dsimp only
  cases h : s.prot.loop.state with
  | none => simp
  | some st => cases st <;> cases low : pressureLow s <;> cases p : s.prot.loop.pressure <;> simp

/-- An update of a water channel's record is handed to its reader (R88, R89, R104, R112). -/
theorem handUpdate_reader (ch : Chan) (s : State) : HandedToReader ch s (handUpdate ch s) := by
  unfold HandedToReader handUpdate
  cases ch <;> simp [chanCircuit, judgePressure_judged] <;> exact fun h => evalCircuit_judged _ s h

/-! ### The timers of a circuit -/

/-- A circuit that forms its conditions and enters a state has moved to that record (R104, R106, R107). -/
theorem formed_enters (c : Circuit) (g : CircuitRec → CircuitRec) (s : State)
    (fixed : ∀ r n, { g r with enteredAt := n } = g { r with enteredAt := n })
    (warns : ∀ r, (g r).leakWarning = r.leakWarning) :
    CircuitMoved c g s (enterState c (g (circuitOf (formConditions c s) c)) (formConditions c s)) := by
  have time : now (formConditions c s) = s.clock.shopSeconds := by rw [formConditions_shape]; rfl
  refine ⟨?_, (formConditions_protOnly c s).2.2,
    (enterState_moved c _ _).leakNoticed (formConditions_leakNoticed c s) (warns _), (enterState_others c _ _).2.2⟩
  have set : (enterState c (g (circuitOf (formConditions c s) c)) (formConditions c s)).prot.circuits
      = (formConditions c s).prot.circuits.set c
          { g (circuitOf (formConditions c s) c) with enteredAt := now (formConditions c s) } := rfl
  rw [set, time, fixed, formConditions_circuit, (formConditions_protOnly c s).2.1, PerCircuit.set_set]

theorem watchExpires_expired {c : Circuit} {s : State} (st : (circuitOf s c).state = .watch)
    (runs : (circuitOf s c).watch.mode = .running) : WatchExpired c s (watchExpires c s) := by
  have change : inChangeover (formConditions c s) = inChangeover s := by
    unfold inChangeover
    rw [(formConditions_protOnly c s).2.2]
  have clock : startTimer (formConditions c s) = { mode := clockMode s, ms := 0 } := by
    unfold startTimer clockMode
    rw [change]
  unfold WatchExpired watchExpires
  rw [if_pos ⟨st, runs⟩]
  unfold enterDerate
  rw [clock]
  exact formed_enters c
    (fun r => { timersHalted r with state := .derate, derate := { mode := clockMode s, ms := 0 } }) s
    (fun _ _ => rfl) (fun _ => rfl)

theorem recoveryExpires_expired {c : Circuit} {s : State} (st : (circuitOf s c).state = .derate)
    (runs : (circuitOf s c).recovery.mode = .running) : RecoveryExpired c s (recoveryExpires c s) := by
  unfold RecoveryExpired recoveryExpires
  rw [if_pos ⟨st, runs⟩]
  exact formed_enters c
    (fun r => { timersHalted r with state := .normal }) s
    (fun _ _ => rfl) (fun _ => rfl)

theorem derateExpires_expired {c : Circuit} {s : State} (st : (circuitOf s c).state = .derate)
    (runs : (circuitOf s c).derate.mode = .running) : DerateExpired c s (derateExpires c s) := by
  unfold DerateExpired derateExpires
  rw [if_pos ⟨st, runs⟩]
  have tripped := tripCircuit_tripped c .derateExpiry (formConditions c s)
  refine ⟨⟨?_, ?_, (tripCircuit_moved c _ _).leakNoticed (formConditions_leakNoticed c s) rfl,
    tripped.2.2.2.2.2.2⟩, tripped.congr ?_ ?_ ?_ ?_⟩
  · have set : (tripCircuit c .derateExpiry (formConditions c s)).prot.circuits
        = (formConditions c s).prot.circuits.set c
            { (circuitOf (formConditions c s) c).stopTimers with
              state := .trip, cause := some .derateExpiry, enteredAt := now (formConditions c s), latch := true } := by
      unfold tripCircuit
      dsimp only
      split
      · unfold assertBreaker
        split <;> rfl
      · rfl
    have time : now (formConditions c s) = s.clock.shopSeconds := by rw [formConditions_shape]; rfl
    rw [set, time, formConditions_circuit, (formConditions_protOnly c s).2.1, PerCircuit.set_set]
    rfl
  · rw [(tripCircuit_others c _ _).1]
    exact (formConditions_protOnly c s).2.2
  · rw [formConditions_circuit]
    exact ⟨rfl, rfl, rfl⟩
  · rw [formConditions_shape]
  · rw [formConditions_shape]
  · rw [formConditions_shape]

/-! ### A settings write taken up by protection -/

theorem due_iff (t : Timer) (limit : Nat) : t.due limit = true ↔ RunsOut t limit := by
  unfold Timer.due RunsOut
  simp

/-- A running timer at or past its limit expires, and without one nothing happens (R117). -/
theorem expireOverdue_expired (c : Circuit) (s : State) : OverdueExpired c s (expireOverdue c s) := by
  have only := expireOverdue_protOnly c s
  unfold expireOverdue at only ⊢
  unfold OverdueExpired
  simp only [← due_iff]
  by_cases w : (circuitOf s c).state = .watch ∧ (circuitOf s c).watch.due (watchTime s) = true
  · rw [if_pos w] at only ⊢
    have apart : ∀ {P : Prop}, (circuitOf s c).state = .derate → P := fun e => by rw [w.1] at e; cases e
    exact ⟨fun _ => ⟨only, watchExpires_expired w.1 ((due_iff _ _).mp w.2).1⟩, fun h => apart h.1, fun h => apart h.1, fun n => absurd w n⟩
  · rw [if_neg w] at only ⊢
    by_cases d : (circuitOf s c).state = .derate ∧ (circuitOf s c).derate.due (derateTime s) = true
    · rw [if_pos d] at only ⊢
      exact ⟨fun h => absurd h w, fun _ => ⟨only, derateExpires_expired d.1 ((due_iff _ _).mp d.2).1⟩, fun _ n => absurd d n,
        fun _ n => absurd d n⟩
    · rw [if_neg d] at only ⊢
      by_cases r : (circuitOf s c).state = .derate ∧ (circuitOf s c).recovery.due (recoverTime s) = true
      · rw [if_pos r] at only ⊢
        exact ⟨fun h => absurd h w, fun h => absurd h d, fun _ _ => ⟨only, recoveryExpires_expired r.1 ((due_iff _ _).mp r.2).1⟩,
          fun _ _ n => absurd r n⟩
      · rw [if_neg r]
        exact ⟨fun h => absurd h w, fun h => absurd h d, fun h => absurd h r, fun _ _ _ => rfl⟩

theorem anyChanged_iff (old new ns : List Nat) :
    anyChanged old new ns = true ↔ ∃ n ∈ ns, SettingChanged old new n := by
  unfold anyChanged SettingChanged
  simp

/-- A circuit takes a write up (R117). -/
theorem circuitTakesUp_takenUp (old new : List Nat) (c : Circuit) (s : State) (working : loading s = false) :
    CircuitTakenUp old new c s (circuitTakesUp old new c s) := by
  have uses : circuitTakesUp old new c s
      = if anyChanged old new (circuitSettings c) then expireOverdue c (evalCircuit c s) else s := by
    unfold circuitTakesUp circuitSettings
    cases c <;> rfl
  unfold CircuitTakenUp
  dsimp only
  rw [uses, ← anyChanged_iff]
  constructor
  · intro h
    rw [if_pos h]
    exact ⟨_, evalCircuit_protOnly c s, evalCircuit_judged c s working, expireOverdue_expired c _⟩
  · intro h
    rw [if_neg h]

/-! ### The loop -/

/-- The three circuits evaluated (R104, log 31). -/
theorem evalCircuits_judged (s : State) : CircuitsJudged s (evalCircuits s) := by
  constructor
  · intro l
    unfold evalCircuits evalCircuit
    rw [if_pos l, if_pos l, if_pos l]
  · intro l
    have a := evalCircuit_protOnly .coilA s
    have b := evalCircuit_protOnly .coilB (evalCircuit .coilA s)
    exact ⟨_, _, a, evalCircuit_judged _ s l, b, evalCircuit_judged _ _ (a.loading.trans l), evalCircuit_protOnly .cabinet _,
      evalCircuit_judged _ _ (b.loading.trans (a.loading.trans l))⟩

/-- An evaluation reads of its own state nothing of the ports. -/
theorem CircuitJudged.congr {c : Circuit} {s x t : State} (h : CircuitJudged c x t) (ports : x = { s with ports := x.ports }) :
    CircuitJudged c s t := by
  have clock : x.clock = s.clock := by rw [ports]
  have prot : x.prot = s.prot := by rw [ports]
  have scan : x.scan = s.scan := by rw [ports]
  have sett : x.sett = s.sett := by rw [ports]
  have stage : x.stage = s.stage := by rw [ports]
  have lines : x.lines = s.lines := by rw [ports]
  have shop : x.shop = s.shop := by rw [ports]
  unfold CircuitJudged LeakNoticed leakWarned CircuitTripped BreakerAsserted OffDrawsNothing clockMode inChangeover circuitOf hardCause softCond
    leakWarningCond leakAbove readsBelow readsAbove allValid chanOf flowTrip tempTrip leakTripLimit flowLow tempHigh
    leakWarnLimit derateTime setting at *
  rw [clock, prot, scan, sett, stage, lines, shop] at h
  exact h

theorem CircuitsJudged.congr {s x t : State} (h : CircuitsJudged x t) (ports : x = { s with ports := x.ports })
    (noted : PortsNoted circuitKinds s x) : CircuitsJudged s t := by
  have prot : x.prot = s.prot := by rw [ports]
  have load : loading x = loading s := by unfold loading; rw [ports]
  obtain ⟨rest, runs⟩ := h
  rw [load, prot] at rest
  rw [load] at runs
  refine ⟨rest, fun l => ?_⟩
  obtain ⟨a, b, o1, j1, more⟩ := runs l
  have start : ProtOnly s x := ProtOnly.of_prot (by rw [ports]) (by rw [ports]) noted (by rw [prot])
  exact ⟨a, b, start.trans o1, j1.congr ports, more⟩

/-- The loop record and the circuits of a loop change, before the circuits are evaluated. -/
theorem mapCircuits_setLoop (st : LoopState) (cause : LoopCause) (latch : Bool) (g : CircuitRec → CircuitRec) (s : State) :
    mapCircuits g (setLoop st cause latch s)
        = { loopMoved
              { state := some st, standbyLatch := latch, settle := if st = .changeover then some 0 else none,
                pressure := none, cause := cause, changedAt := s.clock.shopSeconds } g s with
            ports := (setLoop st cause latch s).ports }
      ∧ PortsNoted circuitKinds s (setLoop st cause latch s) :=
  ⟨rfl, PortsNoted.trans (t := { s with prot := { s.prot with loop :=
      { state := some st, standbyLatch := latch, settle := if st = .changeover then some 0 else none,
        pressure := none, cause := cause, changedAt := now s } } })
    (PortsNoted.of_eq rfl) (post_noted_of (by simp [Detail.kind, circuitKinds]))⟩

/-- A loop change evaluates the circuits from the state with the change written in (R104, R113, R115). -/
theorem loop_judged (st : LoopState) (cause : LoopCause) (latch : Bool) (g : CircuitRec → CircuitRec) (s : State) :
    CircuitsJudged
      (loopMoved
        { state := some st, standbyLatch := latch, settle := if st = .changeover then some 0 else none,
          pressure := none, cause := cause, changedAt := s.clock.shopSeconds } g s)
      (evalCircuits (mapCircuits g (setLoop st cause latch s))) := by
  obtain ⟨shape, noted⟩ := mapCircuits_setLoop st cause latch g s
  exact (evalCircuits_judged _).congr (by rw [shape]) noted

theorem enterChangeover_judged (cause : LoopCause) (s : State) :
    CircuitsJudged
      (loopMoved
        { state := some .changeover, standbyLatch := true, settle := some 0, pressure := none, cause := cause,
          changedAt := s.clock.shopSeconds } timersHeld s) (enterChangeover cause s) :=
  loop_judged .changeover cause true timersHeld s

theorem expireAllOverdue_expired (s : State) : AllOverdueExpired s (expireAllOverdue s) :=
  ⟨_, _, expireOverdue_expired .coilA s, expireOverdue_expired .coilB _, expireOverdue_expired .cabinet _⟩

theorem enterStandby_judged (s : State) :
    ∃ u, CircuitsJudged
        (loopMoved
          { state := some .standby, standbyLatch := s.prot.loop.standbyLatch, settle := none, pressure := none,
            cause := .settled, changedAt := s.clock.shopSeconds } timersRunOn s) u
      ∧ AllOverdueExpired u (enterStandby s) := by
  have same : CircuitRec.releaseTimers = timersRunOn := by
    funext r
    rfl
  refine ⟨_, loop_judged .standby .settled s.prot.loop.standbyLatch timersRunOn s, ?_⟩
  unfold enterStandby
  rw [same]
  exact expireAllOverdue_expired _

theorem returnToMain_judged (s : State) :
    CircuitsJudged
      (loopMoved
        { state := some .main, standbyLatch := false, settle := none, pressure := none, cause := .pumpReturn,
          changedAt := s.clock.shopSeconds } id s) (returnToMain s) :=
  loop_judged .main .pumpReturn false id s

/-- The power law holds the enable lines of tripped circuits down (R52, R60, R85). -/
theorem TripsHeldDown.of_powerLaw {s : State} (h : PowerLaw s) : TripsHeldDown s := by
  refine ⟨OffDrawsNothing.of_powerLaw h, fun c f named trip => ?_⟩
  obtain ⟨⟨-, current⟩, handed, -⟩ := h
  have zero : (s.allot.out.get f).command = 0 := by
    cases l : loading s
    · rw [l, if_neg (by decide)] at current
      obtain ⟨-, served, rest⟩ := current
      rcases furnace_cases s.allot.priority f with e | e
      · subst e
        exact served.tripped named trip
      · subst e
        exact rest.tripped named trip
    · rw [l, if_pos rfl] at current
      rw [current]
      cases f <;> rfl
  have held : (s.stage.held.get f).command = 0 := by
    rw [handed, ← zero]
    cases f <;> rfl
  unfold State.outputEnable
  rw [held]
  simp

end Sys2Proof.Machine
end

