-- ==== Sys2Proof/Laws/Scan.lean ====
section
/-! SUPPORT. The conversion that the unit in progress ends next, as the statements have it. -/

namespace Sys2Proof.Machine

/-- `convertible` is what the unit reaches (R91, R92). -/
theorem convertible_iff (s : State) (ch : Chan) : convertible s ch = true ↔ UnitReaches s ch := by
  unfold convertible UnitReaches
  cases ch <;> simp

/-- The first of a list that passes a test, from what stands in front of it and behind it. -/
theorem find?_behind {l behind : List Chan} {n : Nat} {c : Chan} {p : Chan → Bool} (at' : l.drop n = c :: behind)
    (passes : p c = true) (front : ∀ x ∈ l.take n, p x = false) :
    l.find? p = some c ∧ planAfter c l = behind := by
  have whole : l = l.take n ++ c :: behind := by rw [← at', List.take_append_drop]
  generalize l.take n = before at *
  subst whole
  clear at'
  induction before with
  | nil => simp [planAfter, passes]
  | cons x rest ih =>
    have miss := front x (by simp)
    have other : (x != c) = true := by
      simp only [bne_iff_ne, ne_eq]
      intro same
      rw [same, passes] at miss
      cases miss
    obtain ⟨found, after⟩ := ih fun y hy => front y (by simp [hy])
    refine ⟨by simp only [List.cons_append, List.find?_cons, miss, found], ?_⟩
    unfold planAfter at *
    rw [List.cons_append, List.dropWhile_cons, if_pos other]
    exact after

/-- A test that something passes splits the list at the first that does. -/
theorem find?_split {l : List Chan} {c : Chan} {p : Chan → Bool} (h : l.find? p = some c) :
    ∃ n < l.length, l.drop n = c :: l.drop (n + 1) ∧ p c = true ∧ ∀ x ∈ l.take n, p x = false := by
  induction l with
  | nil => cases h
  | cons x rest ih =>
    rw [List.find?_cons] at h
    split at h
    · next hx =>
      cases h
      exact ⟨0, by simp, by simp, hx, by simp⟩
    · next hx =>
      obtain ⟨n, low, here, passes, front⟩ := ih h
      refine ⟨n + 1, by simpa using low, by simpa using here, passes, fun y hy => ?_⟩
      rw [List.take_succ_cons] at hy
      rcases List.mem_cons.mp hy with e | e
      · rw [e]; exact hx
      · exact front y e

/-- The conversion due, and the plan behind it, are those of the statements (R92). -/
theorem dueNext_iff (s : State) (ch : Chan) (behind : List Chan) :
    DueNext s ch behind ↔ dueConversion s = some ch ∧ planAfter ch s.scan.plan = behind := by
  constructor
  · rintro ⟨n, -, here, reaches, front⟩
    refine find?_behind here ((convertible_iff s ch).mpr reaches) fun x hx => ?_
    have miss := front x hx
    rw [← convertible_iff] at miss
    simpa using miss
  · rintro ⟨found, after⟩
    obtain ⟨n, low, here, passes, front⟩ := find?_split found
    have same := (find?_behind here passes front).2
    rw [after] at same
    refine ⟨n, low, by rw [same]; exact here, (convertible_iff s ch).mp passes, fun x hx => ?_⟩
    rw [← convertible_iff, front x hx]
    decide

/-- What dropping the leading places that fail a test leaves: the places in front all fail it, and the first left passes. -/
theorem dropWhile_split {α : Type} (p : α → Bool) (l : List α) :
    ∃ n, l.dropWhile (fun x => !p x) = l.drop n ∧ (∀ x ∈ l.take n, p x = false)
      ∧ ∀ x ∈ (l.dropWhile (fun x => !p x)).head?, p x = true := by
  induction l with
  | nil => exact ⟨0, rfl, by simp, by simp⟩
  | cons x rest ih =>
    cases h : p x
    · obtain ⟨n, same, front, first⟩ := ih
      have skip : (x :: rest).dropWhile (fun x => !p x) = rest.dropWhile (fun x => !p x) := by simp [h]
      refine ⟨n + 1, by rw [skip, same]; rfl, fun y hy => ?_, by rw [skip]; exact first⟩
      rw [List.take_succ_cons] at hy
      rcases List.mem_cons.mp hy with e | e
      · rw [e]; exact h
      · exact front y e
    · exact ⟨0, by simp [h], by simp, by simp [h]⟩

/-- The places passed are gone, and no other (R92). -/
theorem dropPassed_reached (s : State) : PlanReached s (dropPassed s).scan.plan := by
  obtain ⟨n, same, front, first⟩ := dropWhile_split (convertible s) s.scan.plan
  refine ⟨n, same, fun x hx => ?_, fun x hx => (convertible_iff s x).mp (first x hx)⟩
  rw [← convertible_iff, front x hx]
  decide

/-- The unit in progress has a conversion to end next exactly when its plan, the passed places gone, starts with it. -/
theorem dueConversion_head (s : State) : dueConversion s = (dropPassed s).scan.plan.head? := by
  unfold dueConversion
  rw [dropPassed_scan]
  dsimp only
  induction s.scan.plan with
  | nil => rfl
  | cons x rest ih => cases h : convertible s x <;> simp [h, ih]

/-- What the unit reaches, a dip that starts leaves reached. -/
theorem convertible_startDip {f : Furnace} {s : State} {ch : Chan} (h : convertible s ch = true) :
    convertible (startDip f s) ch = true := by
  rw [convertible_iff] at h ⊢
  obtain ⟨on, a, b⟩ := h
  refine ⟨on, fun e => ?_, fun e => ?_⟩
  · cases f
    · rfl
    · exact a e
  · cases f
    · exact b e
    · rfl

/-- Dropping the leading places that fail a test, from what stands behind them. -/
theorem dropWhile_behind {l behind : List Chan} {n : Nat} {c : Chan} {p : Chan → Bool} (at' : l.drop n = c :: behind)
    (passes : p c = true) (front : ∀ x ∈ l.take n, p x = false) : l.dropWhile (fun x => !p x) = c :: behind := by
  have whole : l = l.take n ++ c :: behind := by rw [← at', List.take_append_drop]
  generalize l.take n = before at *
  subst whole
  clear at'
  induction before with
  | nil => simp [passes]
  | cons x rest ih =>
    have miss := front x (by simp)
    simpa [miss] using ih fun y hy => front y (by simp [hy])

/-- A dip that starts leaves the conversion that ends next, and what is behind it, as they were (R92). -/
theorem dueNext_startDip {f : Furnace} {s : State} {ch : Chan} {behind : List Chan} (h : DueNext s ch behind) :
    DueNext (startDip f s) ch behind := by
  obtain ⟨n, -, here, reaches, front⟩ := h
  have passes := (convertible_iff s ch).mpr reaches
  have plan : (startDip f s).scan.plan = ch :: behind := by
    have left : (dropPassed s).scan.plan = ch :: behind := dropWhile_behind here passes fun x hx => by
      have m := front x hx
      rw [← convertible_iff] at m
      simpa using m
    cases f <;> exact left
  exact ⟨0, by simp [plan], by simp [plan], (convertible_iff _ _).mp (convertible_startDip passes), by simp⟩

end Sys2Proof.Machine
end

