-- ==== Sys2Proof/Laws/Settings.lean ====
section
/-! SUPPORT. The values of a working copy after one is put. -/

namespace Sys2Proof.Machine

@[simp] theorem putValue_length (w : List Nat) (n value : Nat) : (putValue w n value).length = w.length := by
  unfold putValue
  exact List.length_set

theorem valueIn_putValue_same {w : List Nat} {n : Nat} (value : Nat) (low : 1 ≤ n) (high : n ≤ w.length) :
    valueIn (putValue w n value) n = value := by
  unfold valueIn putValue
  have inside : n - 1 < w.length := by omega
  simp [List.getD_eq_getElem?_getD, inside]

theorem valueIn_putValue_other {w : List Nat} {n m : Nat} (value : Nat) (low : 1 ≤ n) (lowM : 1 ≤ m) (ne : m ≠ n) :
    valueIn (putValue w n value) m = valueIn w m := by
  unfold valueIn putValue
  have apart : n - 1 ≠ m - 1 := by omega
  simp [List.getD_eq_getElem?_getD, apart]

theorem clampTo_low {lo hi n : Nat} (h : lo ≤ hi) : lo ≤ clampTo lo hi n := by
  unfold clampTo
  split
  · exact h
  · split <;> omega

theorem clampTo_high {lo hi n : Nat} (h : lo ≤ hi) : clampTo lo hi n ≤ hi := by
  unfold clampTo
  split
  · omega
  · split <;> omega

/-- A value in its range is left alone. -/
theorem clampTo_within {lo hi n : Nat} (low : lo ≤ n) (high : n ≤ hi) : clampTo lo hi n = n := by
  unfold clampTo
  split
  · omega
  · split <;> omega

theorem floor10_le (n : Nat) : floor10 n ≤ n := by
  unfold floor10
  omega

theorem floor10_mod (n : Nat) : floor10 n % 10 = 0 := by
  unfold floor10
  omega

theorem floor10_mono {m n : Nat} (h : m ≤ n) : floor10 m ≤ floor10 n := by
  unfold floor10
  omega

end Sys2Proof.Machine
end

