-- ==== Sys2Proof/Laws/Taps.lean ====
section
/-! SUPPORT. What the closing of a heat, the grant of a permit and the completion of a tap give, and that a command that
changes a heat ends with the matching it asks for. -/

namespace Sys2Proof.Machine

/-- Two states that agree in every field are equal. -/
theorem State.eq_of_fields {a b : State} (pending : a.pending = b.pending) (powered : a.powered = b.powered)
    (clock : a.clock = b.clock) (lines : a.lines = b.lines) (heat : a.heat = b.heat) (allot : a.allot = b.allot)
    (shop : a.shop = b.shop) (stage : a.stage = b.stage) (scan : a.scan = b.scan) (prot : a.prot = b.prot)
    (tap : a.tap = b.tap) (ports : a.ports = b.ports) (sett : a.sett = b.sett) : a = b := by
  cases a
  cases b
  simp_all

/-! ### The end of a dip -/

/-- What the end of a dip at the closing of a heat may change, and that it is told (R99). -/
theorem endDip_closed (f : Furnace) (s : State) :
    endDip f .heatClosed s
        = { s with
            scan := { s.scan with dips := s.scan.dips.set f (dipEnded (s.scan.dips.get f)) }
            ports := (endDip f .heatClosed s).ports }
      ∧ PortsNoted [.dipFailed] s (endDip f .heatClosed s)
      ∧ ((s.scan.dips.get f).state = .sampling →
          Noticed (.dipFailed f (heatNumber s f) .heatClosed (s.scan.dips.get f).samples) (endDip f .heatClosed s)) := by
  unfold endDip
  split
  · next h =>
    refine ⟨?_, ?_, fun _ => post_noticed _ _⟩
    · unfold dipEnded
      rw [if_pos h]
      rfl
    · exact PortsNoted.trans (t := setDip f _ s) (PortsNoted.of_eq rfl) (post_noted_of (by simp [Detail.kind]))
  · next h =>
    refine ⟨?_, PortsNoted.refl _ s, fun sampling => absurd sampling h⟩
    unfold dipEnded
    rw [if_neg h, PerFurnace.set_get]

/-! ### The closing of a heat -/

/-- The notice kinds that closing a heat can post while the permit stands. -/
def closeKinds : List NoticeKind := [.heatClosed, .dipFailed]

/-- Notices posted after the refusal of a permit leave it told. -/
theorem Told.further {kinds : List NoticeKind} {s t u : State} (h : Told kinds s t) (tap : u.tap = t.tap)
    (noted : PortsNoted kinds t u) (out : ∀ k ∈ refusalKinds, k ∉ kinds := by decide) : Told kinds s u := by
  refine ⟨h.1.trans (noted.mono fun _ m => List.mem_append_left _ m), fun same => ?_, fun p hp pending gone => ?_⟩
  · rw [tap] at same
    exact (h.2.1 same).trans noted
  · rw [tap] at gone ⊢
    obtain ⟨r, number, kept, which, posted⟩ := h.2.2 p hp pending gone
    exact ⟨r, number, kept, which, posted.keep noted out⟩

/-- The end of the work of the queue at a closing (R17, R127): a pending permit for the furnace is refused CANCELLED. -/
def WorkCancelled (f : Furnace) (s t : State) : Prop :=
  ∀ p ∈ s.tap.permit, p.state = .pending → p.furnace = f →
    t.tap.permit = none ∧ t.tap.kept.get f = some .cancelled ∧ RefusalPosted p .cancelled (heatNumber s f) s t

/-- The end of the queue's work at a closing, with the request to match. -/
theorem closeHeat_ended (f : Furnace) (h : Heat) (s : State) :
    let t := if h.state = .tapReady then askMatching (endAssignment f .cancelled s) else endAssignment f .cancelled s
    TapOnly closeKinds s t ∧ WorkCancelled f s t := by
  obtain ⟨only, ended⟩ := endAssignment_only f .cancelled s closeKinds (Or.inr ⟨by decide, rfl⟩)
  dsimp only
  split
  · exact ⟨only.trans (askMatching_only _ _), ended⟩
  · exact ⟨only, ended⟩

/-- What is told of the permit, read against a state with another heat, whose own permit is refused CANCELLED. -/
theorem Told.closed {kinds : List NoticeKind} {s s' t : State} (h : Told kinds s t) (closed : .heatClosed ∈ kinds)
    (tap : s'.tap = s.tap) (ports : s'.ports = s.ports) (clock : s'.clock = s.clock)
    (heat : ∀ p ∈ s.tap.permit, p.state = .pending →
      t.tap.kept.get p.furnace = some .cancelled ∨ heatNumber s' p.furnace = heatNumber s p.furnace) :
    Told kinds s' t := by
  have noted : ∀ {kinds}, PortsNoted kinds s t → PortsNoted kinds s' t := fun n q => by rw [ports]; exact n q
  refine ⟨noted h.1, fun same => noted (h.2.1 (by rw [← tap]; exact same)), fun p hp pending gone => ?_⟩
  rw [tap] at hp
  obtain ⟨r, number, kept, which, posted⟩ := h.2.2 p hp pending gone
  refine ⟨r, number, kept, ?_, posted.congr (by rw [tap]) clock.symm⟩
  rcases heat p hp pending with c | same
  · exact Or.inr ⟨closed, Option.some.inj (kept.symm.trans c)⟩
  · rw [same]
    exact which

/-- Closing a heat (R13, R17, R20, R99): the state the statements name, with the queue's work ended and its notices. -/
theorem closeHeat_only (f : Furnace) (h : Heat) (reason : CloseReason) (s : State) :
    TapOnly closeKinds (closedState f (summaryOf s f h reason) .empty s.heat.nextNumber s) (closeHeat f h reason s)
      ∧ (heatNumber s f = h.number → ClosingPosted f h.number reason s (closeHeat f h reason s))
      ∧ WorkCancelled f s (closeHeat f h reason s) := by
  unfold closeHeat
  dsimp only
  obtain ⟨⟨a1, a2, a3⟩, cancelled⟩ := closeHeat_ended f h (writeSummary f h reason s)
  generalize (if h.state = .tapReady then askMatching (endAssignment f .cancelled (writeSummary f h reason s))
    else endAssignment f .cancelled (writeSummary f h reason s)) = s3 at *
  obtain ⟨d1, d2, d3⟩ := endDip_closed f s3
  generalize endDip f .heatClosed s3 = s4 at *
  have scan3 : s3.scan = s.scan := by rw [a1]; rfl
  have allot4 : s4.allot = s.allot := by rw [d1, a1]; rfl
  have heat4 : s4.heat = { s.heat with log := appendLog (summaryOf s f h reason) s.heat.log } := by rw [d1, a1]; rfl
  have tap4 : s4.tap = s3.tap := by rw [d1]
  have number3 : heatNumber s3 f = heatNumber s f := by
    unfold heatNumber heatOf slotOf
    rw [a1]
    rfl
  have other : ∀ p : Permit, p.furnace ≠ f →
      heatNumber (closedState f (summaryOf s f h reason) .empty s.heat.nextNumber s) p.furnace = heatNumber s p.furnace := by
    intro p away
    rcases furnace_cases f p.furnace with e | e
    · exact absurd e away
    · unfold heatNumber heatOf slotOf closedState
      rw [e]
      simp
  have noted : PortsNoted [.heatClosed] s4 (setSlot f .empty (post (.heatClosed f h.number reason) (setMeltRequest f 0 s4))) :=
    PortsNoted.trans (t := setMeltRequest f 0 s4) (PortsNoted.of_eq rfl) (post_noted_of (by simp [Detail.kind]))
  have after : PortsNoted closeKinds s3
      (setSlot f .empty (post (.heatClosed f h.number reason) (setMeltRequest f 0 s4))) :=
    (d2.mono (by simp [closeKinds])).trans (noted.mono (by simp [closeKinds]))
  refine ⟨⟨?_, ?_, ?_⟩, fun number => ⟨post_noticed (.heatClosed f h.number reason) (setMeltRequest f 0 s4),
    fun sampling => ?_⟩, fun p hp pending mine => ?_⟩
  · apply State.eq_of_fields <;> simp only [setSlot_pending, setSlot_powered, setSlot_clock, setSlot_lines, setSlot_heat,
      setSlot_allot, setSlot_shop, setSlot_stage, setSlot_scan, setSlot_prot, setSlot_tap, setSlot_ports, setSlot_sett,
      post_pending, post_powered, post_clock, post_lines, post_heat, post_allot, post_shop, post_stage, post_scan,
      post_prot, post_tap, post_sett, setMeltRequest_pending, setMeltRequest_powered, setMeltRequest_clock,
      setMeltRequest_lines, setMeltRequest_heat, setMeltRequest_allot, setMeltRequest_shop, setMeltRequest_stage,
      setMeltRequest_scan, setMeltRequest_prot, setMeltRequest_tap, setMeltRequest_sett, closedState]
    · rw [d1, a1]; rfl
    · rw [d1, a1]; rfl
    · rw [d1, a1]; rfl
    · rw [d1, a1]; rfl
    · rw [heat4]
    · rw [allot4]
    · rw [d1, a1]; rfl
    · rw [d1, a1]; rfl
    · rw [d1, scan3]
    · rw [d1, a1]; rfl
    · rw [d1, a1]; rfl
  · simp only [setSlot_tap, post_tap, setMeltRequest_tap, tap4]
    exact a2
  · refine Told.further ?_ (by simp only [setSlot_tap, post_tap, setMeltRequest_tap, tap4]) after
    refine Told.closed (s := writeSummary f h reason s) a3 (by decide) rfl rfl rfl fun p hp pending => ?_
    by_cases mine : p.furnace = f
    · exact Or.inl (by rw [mine]; exact (cancelled p hp pending mine).2.1)
    · exact Or.inr (other p mine)
  · have told := d3 (by rw [scan3]; exact sampling)
    rw [number3, number, scan3] at told
    exact told.keep noted (by simp [Detail.kind])
  · obtain ⟨gone, kept, posted⟩ := cancelled p hp pending mine
    simp only [setSlot_tap, post_tap, setMeltRequest_tap, tap4]
    exact ⟨gone, kept, RefusalPosted.keep (posted.congr rfl rfl) after (by decide)⟩

/-- A closing leaves the request to match where it returns an entry, ends the permit, or closes a TAP_READY heat (R17,
R122). -/
theorem closeHeat_matchKept {f : Furnace} {h : Heat} {s : State} (reason : CloseReason) (open' : heatOf s f = some h) :
    MatchKept s (closeHeat f h reason s) := by
  have summary : MatchKept s (writeSummary f h reason s) := MatchKept.of_same rfl fun _ => rfl
  have ended := summary.trans (endAssignment_matchKept f .cancelled _)
  have heat2 : (endAssignment f .cancelled (writeSummary f h reason s)).heat.slots = s.heat.slots := by
    rw [(endAssignment_only f .cancelled _ closeKinds (Or.inr ⟨by decide, rfl⟩)).1.1]
    rfl
  unfold closeHeat
  dsimp only
  generalize endAssignment f .cancelled (writeSummary f h reason s) = s2 at *
  by_cases ready : h.state = .tapReady
  · rw [if_pos ready]
    refine MatchKept.of_due ?_
    simp only [setSlot_tap, post_tap, setMeltRequest_tap]
    rw [(endDip_closed f _).1]
    rfl
  · rw [if_neg ready]
    refine ended.trans ((endDip_matchKept f .heatClosed s2).trans (MatchKept.of_same rfl fun g => ?_))
    have slots : (endDip f .heatClosed s2).heat.slots = s.heat.slots := by
      rw [(endDip_closed f s2).1]
      exact heat2
    unfold isTapReady heatOf slotOf
    rcases furnace_cases f g with e | e
    · subst e
      rw [slots]
      unfold heatOf slotOf at open'
      simp [setSlot, setFurnaceSlot, open', ready]
    · subst e
      simp [setSlot, setFurnaceSlot, post, setMeltRequest, PerFurnace.get_set_otherFurnace]

/-- The summary of a closing heat, field by field. -/
theorem summaryOf_as (s : State) (f : Furnace) (h : Heat) (reason : CloseReason) :
    summaryOf s f h reason = summaryAs f h reason (if reason = .closed then h.bathMass else 0) s := rfl

/-! ### The grant -/

/-- A grant (R126, R12): the state the statements name, with PERMIT_RESOLVED posted. -/
theorem grantPermit_eq (p : Permit) (h : Heat) (s : State) (e : heatOf s p.furnace = some h) :
    grantPermit p s
      = post (.permitResolved none p.furnace h.number p.requestId (ladleOf s p.requestId)) (grantedState p h s) := by
  have e' : heatOf (setPermit (some { p with
      state := .granted, confirm := none, grantedAt := some (now s), use := some 0 }) s) p.furnace = some h := e
  have number : heatNumber s p.furnace = h.number := by
    unfold heatNumber
    rw [e]
    rfl
  unfold grantPermit editHeat
  dsimp only
  rw [e', number]
  rfl

/-! ### The completion of a tap -/

/-- The settling of a completed tap keeps its notices (R13, R134). -/
theorem TapCompleted.of_settled {p : Permit} {h : Heat} {mass : Nat} {clamped timeout : Bool} {s u x t : State}
    (settled : SettledFor [.heatClosed, .dipFailed, .tapDone] p.furnace u t) (matched : Matched t)
    (noted : PortsNoted settleKinds x t) (done : Noticed (tapDoneOf p h mass clamped timeout s) x)
    (emptied : h.bathMass - mass = 0 → ClosingPosted p.furnace h.number .emptied s x) :
    TapCompleted p h mass clamped timeout s u t :=
  ⟨settled, matched, done.keep noted (by simp [tapDoneOf, Detail.kind, settleKinds, followKinds, refusalKinds, matchKinds]),
    fun empty => ⟨(emptied empty).1.keep noted (by simp [Detail.kind, settleKinds, followKinds, refusalKinds, matchKinds]),
      fun sampling => ((emptied empty).2 sampling).keep noted
        (by simp [Detail.kind, settleKinds, followKinds, refusalKinds, matchKinds])⟩⟩

theorem completeHeat_poured (mass : Nat) (clamped timeout : Bool) (h : Heat) :
    completeHeat mass clamped timeout h = pouredHeat mass clamped timeout h := rfl

/-- The open heat of a furnace changed without any evaluation. -/
theorem editHeat_some {f : Furnace} {h : Heat} {s : State} (g : Heat → Heat) (e : heatOf s f = some h) :
    editHeat f g s = setHeat f (g h) s := by
  unfold editHeat
  rw [e]

theorem editHeat_none {f : Furnace} {s : State} (g : Heat → Heat) (e : heatOf s f = none) : editHeat f g s = s := by
  unfold editHeat
  rw [e]

/-- The heat's part of a completion where metal is left (R13). -/
theorem heatTakesTap_left {f : Furnace} {h : Heat} {s : State} (mass : Nat) (clamped timeout : Bool)
    (e : heatOf s f = some h) (left : (completeHeat mass clamped timeout h).bathMass ≠ 0) :
    heatTakesTap f mass clamped timeout s = setHeat f (completeHeat mass clamped timeout h) s := by
  unfold heatTakesTap
  rw [e]
  dsimp only
  rw [if_neg left]

/-- The heat's part of a completion that empties it (R13). -/
theorem heatTakesTap_emptied {f : Furnace} {h : Heat} {s : State} (mass : Nat) (clamped timeout : Bool)
    (e : heatOf s f = some h) (left : (completeHeat mass clamped timeout h).bathMass = 0) :
    heatTakesTap f mass clamped timeout s
      = closeHeat f (completeHeat mass clamped timeout h) .emptied
          (setHeat f (completeHeat mass clamped timeout h) s) := by
  unfold heatTakesTap
  rw [e]
  dsimp only
  rw [if_pos left]

/-! ### Matching at the end of a command (R122) -/

theorem TapOnly.loading {kinds : List NoticeKind} {s t : State} (h : TapOnly kinds s t) :
    Machine.loading t = Machine.loading s := by
  unfold Machine.loading
  rw [h.1]

/-- A revision that brings no heat into TAP_READY, followed up. -/
theorem reviseHeat_served {f : Furnace} {h : Heat} {s : State} (g : Heat → Heat) (e : heatOf s f = some h)
    (l : loading s = false) (reaches : (g h).state = .tapReady → h.state = .tapReady) :
    MatchServed s (settleHeat f (reviseHeat f g s)) :=
  (reviseHeat_matchKept g e reaches).1.served
    (settleHeat_served f _ ((reviseHeat_exact g e).1.loading.trans l))

/-- ADD-CHARGE leaves no heat in TAP_READY (R14). -/
theorem chargeHeat_notReady (s : State) (m : Material) (mass : Nat) (h : Heat) :
    (chargeHeat s m mass h).state ≠ .tapReady := by
  unfold chargeHeat evalFreeze coveredState
  dsimp only
  cases e : h.state <;> simp <;> split <;> simp

theorem chargeTaken_served {f : Furnace} {h : Heat} {s : State} (m : Material) (mass : Nat) (e : heatOf s f = some h)
    (l : loading s = false) : MatchingFollows s (chargeTaken f h m mass s).1 := by
  unfold chargeTaken
  dsimp only
  split
  · exact MatchingFollows.refl s
  · refine (MatchKept.served (t := if h.state = .tapReady ∧ (chargeHeat s m (raiseMass mass) h).state = .holding then
        post (.readyChanged f h.number .holding) s else s) ?_ (reviseHeat_served (h := h) _ ?_ ?_ fun r => ?_)).2
    · split
      · exact post_matchKept _ s
      · exact MatchKept.refl s
    · split <;> exact e
    · split <;> exact l
    · exact absurd r (chargeHeat_notReady s m _ h)

theorem applyDip_ready {s : State} {t : Nat} {h : Heat} (r : (applyDip s t h).state = .tapReady) :
    h.state = .tapReady := by
  unfold applyDip takeDip evalFreeze at r
  split at r
  · split at r
    · cases r
    · exact r
  · exact r

/-- A dip result applied (R38, R39). -/
theorem handResult_served (f : Furnace) (t samples : Nat) (s : State) (l : loading s = false) :
    MatchingFollows s (handResult f t samples s) := by
  unfold handResult
  cases e : heatOf s f with
  | none => exact (MatchingFollows.refl s).congr rfl rfl
  | some h =>
    dsimp only
    refine (((reviseHeat_matchKept (applyDip s t) e applyDip_ready).1.trans (post_matchKept _ _)).served
      (settleHeat_served f _ ?_)).2
    exact (reviseHeat_exact (applyDip s t) e).1.loading.trans l

/-- The readiness evaluation of every second (R11). -/
theorem readinessSecond_served (s : State) (l : loading s = false) : MatchingFollows s (readinessSecond s) := by
  unfold readinessSecond
  dsimp only
  rw [if_neg (by show ¬ loading s = true; rw [l]; decide)]
  exact (((evalReady_matchKept .a _).trans (evalReady_matchKept .b _)).served (coordinate_served _)).2.congr rfl rfl

theorem closeHeat_loading (f : Furnace) (h : Heat) (reason : CloseReason) (s : State) :
    loading (closeHeat f h reason s) = loading s := (closeHeat_only f h reason s).1.loading

theorem closeHeat_empty (f : Furnace) (h : Heat) (reason : CloseReason) (s : State) :
    heatOf (closeHeat f h reason s) f = none := by
  unfold closeHeat heatOf slotOf setSlot setFurnaceSlot
  simp

/-- A closing with its successor (R17, R18). -/
theorem closeTaken_served {f : Furnace} {h : Heat} {s : State} (e : heatOf s f = some h) (l : loading s = false) :
    MatchingFollows s (closeTaken f h s).1 := by
  have closed := closeHeat_matchKept .closed e
  have l1 := (closeHeat_loading f h .closed s).trans l
  have gone := closeHeat_empty f h .closed s
  unfold closeTaken
  dsimp only
  split
  · exact (closed.served (settleHeat_served f _ l1)).2
  · refine ((closed.trans (MatchKept.trans (t := openHeat f (successorOf (closeHeat f h .closed s) f h)
      (closeHeat f h .closed s)) (MatchKept.of_same rfl fun g => ?_) (evalLiquid_matchKept f _))).served
        (settleHeat_served f _ ?_)).2
    · obtain ⟨mine, other⟩ := isTapReady_setHeat f (successorOf (closeHeat f h .closed s) f h) (closeHeat f h .closed s)
      rcases furnace_cases f g with x | x
      · subst x
        refine Eq.trans mine ?_
        unfold isTapReady successorOf coveredState
        rw [gone]
        cases h.state <;> rfl
      · subst x
        exact other
    · exact (evalLiquid_only f _).1.1.loading.trans l1

/-- A liquid heat restated (R20). -/
theorem restateLiquid_served {f : Furnace} {h : Heat} {s : State} (mass : Nat) (e : heatOf s f = some h)
    (l : loading s = false) : MatchingFollows s (restateLiquid f h mass s).1 := by
  unfold restateLiquid
  dsimp only
  split
  · exact ((closeHeat_matchKept .lost e).served (settleHeat_served f _ ((closeHeat_loading f h .lost s).trans l))).2
  · exact ((setHeat_matchKept (h' := restateHeat (min mass (capacity s f)) h) e Iff.rfl).served (settleHeat_served f _ l)).2

end Sys2Proof.Machine
end

