-- ==== Sys2Proof/Tests/Slice0.lean ====
section
/-! SUPPORT. Tests: the refusals of the well-formedness check, values the spec works out, witnesses that the
hypotheses of every statement can be met, and a few steps. -/

namespace Sys2Proof.Tests

set_option Elab.async false

open Sys2Proof.Machine

/-! ### Well-formedness: one ill-formed command for each check -/

theorem test_wf_body_too_long : (Instr.bank .p 0 (List.replicate 49 0)).wellFormed = false := by decide
theorem test_wf_body_longest : (Instr.bank .p 0 (List.replicate 48 0)).wellFormed = true := by decide
theorem test_wf_unknown_kind_is_known : (Instr.unknownRequestKind .a 0x20 0 []).wellFormed = false := by decide
theorem test_wf_unknown_kind_body : (Instr.unknownRequestKind .a 0x21 0 (List.replicate 49 0)).wellFormed = false := by
  decide
theorem test_wf_unknown_stage_kind_is_report : (Instr.unknownKindFrame ⟨0x81, []⟩).wellFormed = false := by decide
theorem test_wf_unknown_stage_body : (Instr.unknownKindFrame ⟨0x82, List.replicate 16 0⟩).wellFormed = false
    ∧ (Instr.unknownKindFrame ⟨0x82, List.replicate 15 0⟩).wellFormed = true := by decide
theorem test_wf_entry_id : (Instr.entryLapse 0).wellFormed = false ∧ (Instr.entryLapse 256).wellFormed = false := by
  decide
theorem test_wf_water_conversion : (Instr.waterConversionEnd .dipA 0).wellFormed = false := by decide
theorem test_wf_channel_stale : (Instr.channelStale .dipB).wellFormed = false := by decide
theorem test_wf_discarded_frame : (Instr.requestFrameDiscarded ⟨.a, [0xA5, 2, 0x11, 1, 0]⟩).wellFormed = false
    ∧ (Instr.requestFrameDiscarded ⟨.a, [0xA4, 2, 0x11, 1, 0, 0]⟩).wellFormed = false
    ∧ (Instr.requestFrameDiscarded ⟨.a, [0xA5, 1, 0x11, 0, 0]⟩).wellFormed = false
    ∧ (Instr.requestFrameDiscarded ⟨.a, [0xA5, 2, 0x11, 1, 0, 0]⟩).wellFormed = true := by decide
theorem test_wf_gap_within_frame : (Instr.stationByteGap ⟨.a, []⟩).wellFormed = false
    ∧ (Instr.stationByteGap ⟨.a, [0x5A]⟩).wellFormed = false ∧ (Instr.stationByteGap ⟨.a, [0xA5, 51]⟩).wellFormed = false
    ∧ (Instr.stationByteGap ⟨.a, [0xA5, 2, 0x11, 1, 0, 0]⟩).wellFormed = false
    ∧ (Instr.stationByteGap ⟨.a, [0xA5, 2, 0x11, 1, 0]⟩).wellFormed = true := by decide
theorem test_wf_bad_length_is_good : (Instr.stationBadLengthByte .a 2).wellFormed = false
    ∧ (Instr.stationBadLengthByte .a 51).wellFormed = true := by decide

/-! ### Values the spec works out -/

/-- The check value of "123456789" (R160). -/
theorem test_crc_check_value :
    crc16 [0x31, 0x32, 0x33, 0x34, 0x35, 0x36, 0x37, 0x38, 0x39] = 0x29B1#16 := by decide +kernel

/-- No row of the table gives bits. -/
theorem test_no_word_spells_a_command : decodeTableWord 8 0 = none := by decide

/-! ### States for the tests -/

/-- A VALID reading. -/
def good (v : Nat) : ChannelRec := { status := .valid, value := some v, updatedAt := some 0 }

/-- A circuit in a state. -/
def circuitIn (st : CircuitState) : CircuitRec := { CircuitRec.reset false 0 with state := st }

/-- The part running on the defaults, every reading good, both tilts HOME, both slots EMPTY. -/
def running : State :=
  let s := State.reset
  { s with
    lines := { breakerClosed := true, mainPumpRun := true, standbyRun := true }
    heat := { s.heat with slots := ⟨{ FurnaceSlot.reset with slot := .empty }, { FurnaceSlot.reset with slot := .empty }⟩ }
    allot := { s.allot with shed := false }
    shop := { s.shop with state := .run, reasons := noReasons }
    stage :=
      { s.stage with
        link := .up, deadline := some 0, pendingSetpoint := false
        last := some { out := ⟨{ delivered := 0, status := .ready }, { delivered := 0, status := .ready }⟩, takenAt := 0 } }
    scan :=
      { s.scan with
        running := true, sweepTimer := some 0
        chans := ⟨good 400, good 400, good 400, good 400, good 500, good 500, good 200, good 50, good 50,
          ChannelRec.reset, ChannelRec.reset⟩
        dips := ⟨{ DipUnit.reset with state := .idle, level := false }, { DipUnit.reset with state := .idle, level := false }⟩ }
    prot :=
      { s.prot with
        circuits := ⟨circuitIn .normal, circuitIn .normal, circuitIn .normal⟩
        loop := { s.prot.loop with state := some .main } }
    tap :=
      { s.tap with tilt := ⟨{ known := true, home := true, forward := false }, { known := true, home := true, forward := false }⟩ }
    sett := { s.sett with memory := .idle } }

/-- A heat of 6 000 kg in a state, with an estimate. -/
def heatIn (st : HeatState) (estimate : Option Nat) : Heat :=
  { number := 7, state := st, charges := [{ material := .steel, mass := 6000, addedAt := 0 }], totalMelt := 0,
    remaining := 0, restateAdj := 0, taps := [], openTap := none, bathMass := 6000, estimate := estimate,
    accumulator := 0, lastDip := some { temp := 1450, second := 0 }, holdTarget := 1420, chemistry := .approved,
    freeze := false, massUncertain := false, delivered := 0, useful := 0, classStamp := 0, openedAt := 0 }

/-- A heat ready to tap. -/
def ready : Heat := heatIn .tapReady (some 1450)

/-- A heat that is melting. -/
def melting : Heat := { heatIn .melting none with totalMelt := 9000, remaining := 5000, lastDip := none }

/-- The tap record of a heat that is pouring. -/
def pouringTap : TapRecord :=
  { ordinal := 1, ladle := 5, requestId := 1, grantedAt := 0, forwardAt := some 0, homeAt := none, poured := 0,
    estimateAtForward := some 1450, interrupted := false, weightTimeout := false, clamped := false }

/-- A heat that is pouring. -/
def pouring : Heat := { heatIn .tapping (some 1450) with openTap := some pouringTap }

/-- The part running with a heat in furnace A, its allotment worked out. -/
def deckA (h : Heat) : State := allocate (setHeat .a h running)

/-- A queue entry. -/
def entry (id : Nat) (assigned : Option Furnace) : Entry :=
  { id := id, ladle := id + 4, wanted := 1000, low := 1400, high := 1500, preference := .either, deadline := some 60,
    assigned := assigned, postedAt := 0 }

/-- A permit for furnace A. -/
def pending : Permit :=
  { state := .pending, furnace := .a, requestId := 1, pendingAt := 0, confirm := some 0, grantedAt := none, use := none,
    forwardAt := none, homeAt := none, tap := none, weightWait := none, weight := none, longPosted := false }

/-- A granted permit, not yet poured under. -/
def granted : Permit := { pending with state := .granted, confirm := none, grantedAt := some 0, use := some 0 }

/-- A granted permit with forward-at recorded. -/
def pouredUnder : Permit := { granted with use := none, forwardAt := some 0, tap := some 0 }

/-- A state with a queue and a permit. -/
def tapIn (queue : List Entry) (p : Option Permit) (s : State) : State :=
  allocate { s with tap := { s.tap with queue := queue, permit := p } }

/-- A state with the tilt of furnace A. -/
def tilted (home forward : Bool) (s : State) : State :=
  { s with tap := { s.tap with tilt := s.tap.tilt.set .a { known := true, home := home, forward := forward } } }

/-- A state in a shop state. -/
def shopIn (st : ShopState) (s : State) : State := { s with shop := { s.shop with state := st } }

/-- A state with the link in a state. -/
def linkIn (l : LinkState) (s : State) : State :=
  { s with stage := { s.stage with link := l, deadline := none } }

/-- A state with a circuit record. -/
def circuitTo (c : Circuit) (r : CircuitRec) (s : State) : State := setCircuitRec c r s

/-- A state with the loop in a state. -/
def loopIn (st : LoopState) (s : State) : State :=
  { s with prot := { s.prot with loop := { s.prot.loop with state := some st, settle := if st = .changeover then some 0 else none } } }

/-- A state with a pressure timer that runs. -/
def pressed (s : State) : State :=
  { s with prot := { s.prot with loop := { s.prot.loop with pressure := some 1000 } } }

/-- A tripped circuit. -/
def tripped : CircuitRec := { circuitIn .trip with latch := true, cause := some .temp }

/-- A timer that runs. -/
def runs : Timer := { mode := .running, ms := 0 }

/-- A state whose unit has these channels left. -/
def due (plan : List Chan) (s : State) : State := { s with scan := { s.scan with plan := plan } }

/-- What the command leads to. -/
def after (c : Instr) (s : State) : State :=
  match exec c s with
  | .next t => t
  | _ => s

/-- The outcome and reason of a port's answer after a command. -/
def verdict (q : Port) (c : Instr) (s : State) : Option (ReqOutcome × Option Reason) :=
  ((after c s).ports.get q).answer.map (fun r => (r.outcome, r.reason))

/-- The notices pending at a port after a command. -/
def told (q : Port) (c : Instr) (s : State) : List Detail := ((after c s).ports.get q).notices.map Notice.detail

/-! ### Witnesses: the hypotheses of the statements can be met, clause by clause -/

theorem test_witness_empty_queue :
    State.reset.pending = [] ∧ owed State.reset = []
      ∧ owed { running with stage := { running.stage with deadline := some 2500 } } = [.reportDeadlineExpiry] := by
  decide +kernel

theorem test_witness_unpowered : (after .mainSupplyLoss running).powered = false
    ∧ (after (.warmRestart (linesNow running)) (after .mainSupplyLoss running)).powered = true := by decide +kernel

theorem test_witness_request_cases :
    State.reset.powered = true ∧ loading State.reset = true ∧ (State.reset.ports.get .a).inHand = none
      ∧ running.powered = true ∧ loading running = false ∧ (running.ports.get .a).inHand = none
      ∧ (0 : Byte) = 0 ∧ 0x20 < (0x21 : Byte).toNat
      ∧ RequestKind.openHeat.lengthOk 2 = false ∧ RequestKind.openHeat.lengthOk 3 = true
      ∧ permitted .openHeat .p [1, 0, 50] = false ∧ permitted .openHeat .a [1, 0, 50] = true := by decide +kernel

/-- A port with a request in hand. -/
def busy (s : State) : State := after (.queryShop .a 9 []) s

theorem test_witness_request_in_hand :
    (busy running).powered = true ∧ ((busy running).ports.get .a).inHand.isSome = true
      ∧ ((busy running).ports.get .a).buffer = none
      ∧ ((after (.bank .a 1 []) (busy running)).ports.get .a).buffer = some { kind := 0x11, tag := 1, body := [] }
      ∧ ((after (.unknownRequestKind .a 0x21 1 [5]) (busy running)).ports.get .a).buffer
        = some { kind := 0x21, tag := 1, body := [5] } := by decide +kernel

/-- A request and a frame of an unknown kind that have waited in the buffer have their effect when the answer ends. -/
theorem test_witness_buffer_taken :
    ((busy running).ports.get .a).assembly = []
      ∧ (after (.answerSent .a) (after (.bank .a 1 []) (busy running))).shop.state = .banked
      ∧ ((after (.answerSent .a) (after (.unknownRequestKind .a 0x21 1 [5]) (busy running))).ports.get .a).answer.map
          Reply.outcome = some .refused := by decide +kernel

/-- BANK with tag 1: start byte, LEN 2, kind 0x11, tag, check 0x829F (R161). -/
def bankBytes : List Byte := [0xA5, 2, 0x11, 1, 0x82, 0x9F]

/-- The bytes of a frame bank the deck; with a byte wrong, with a stray byte for the start byte, or cut short, they do not
(R141). -/
theorem test_frame_from_bytes :
    (requestFrame .bank 1 []).bytes = bankBytes
      ∧ (receiveBytes .p bankBytes running).shop.state = .banked
      ∧ (receiveBytes .p bankBytes running).ports = (after (.bank .p 1 []) running).ports
      ∧ (receiveBytes .p (0x00 :: bankBytes) running).shop.state = .banked
      ∧ (receiveBytes .p [0xA5, 2, 0x11, 1, 0x82, 0x9E] running).ports = running.ports
      ∧ (receiveBytes .p (bankBytes.drop 1) running).ports = running.ports
      ∧ (receiveBytes .p [0xA5, 51] running).ports = running.ports
      ∧ ((receiveBytes .p (bankBytes.take 5) running).ports.get .p).assembly = bankBytes.take 5 := by decide +kernel

/-- A port with a request in hand and a frame in its buffer. -/
def crowded : State := after (.bank .a 1 []) (busy running)

theorem test_witness_discards :
    wholeFrame bankBytes = true ∧ bankBytes.drop 4 = checkBytes ((bankBytes.drop 1).take 3)
      ∧ wholeFrame [0xA5, 2, 0x11, 1, 0x82, 0x9E] = true ∧ frameBegun (bankBytes.take 5) = true
      ∧ (after (.requestFrameDiscarded ⟨.a, [0xA5, 2, 0x11, 1, 0x82, 0x9E]⟩) (receiveByte .a 0xA5 running)).ports = running.ports
      ∧ (crowded.ports.get .a).inHand.isSome = true ∧ (crowded.ports.get .a).buffer.isSome = true
      ∧ (after (.requestFrameDiscarded ⟨.a, bankBytes⟩) crowded).ports = crowded.ports
      ∧ (after (.stationByteGap ⟨.a, bankBytes.take 5⟩) (receiveByte .a 0xA5 running)).ports = running.ports
      ∧ (after (.stationBadLengthByte .a 51) (receiveByte .a 0xA5 running)).ports = running.ports
      ∧ ((receiveByte .a 0xA5 running).ports.get .a).assembly = [0xA5] := by decide +kernel

theorem test_witness_port_events :
    running.powered = true ∧ (running.ports.get .a).inHand = none
      ∧ ((busy running).ports.get .a).inHand.isSome = true ∧ ((busy running).ports.get .a).buffer = none
      ∧ ((after (.answerSent .a) (after (.wake .a 1 []) (busy running))).ports.get .a).inHand
        = some { kind := 0x12, tag := 1, body := [] } := by decide +kernel

theorem test_witness_heat_refusals :
    Ready .a (deckA ready) ∧ Ready .a running ∧ portFurnace .a = some .a
      ∧ slotOf (deckA ready) .a ≠ .empty ∧ slotOf running .a = .empty
      ∧ ¬ (1 ≤ field [0, 0, 50] 0 1) ∧ ¬ (field [5, 0, 50] 0 1 ≤ 4)
      ∧ capacity running .a < max 50 (field [1, 0x1F, 0x41] 1 2)
      ∧ heatOf running .a = none ∧ isTapping (deckA pouring) .a = true
      ∧ heatOf (deckA ready) .a = some ready ∧ ready.state ≠ .tapping
      ∧ 12 ≤ { ready with charges := List.replicate 12 { material := Material.steel, mass := 500, addedAt := 0 } }.charges.length
      ∧ capacity running .a < ready.bathMass + max 50 (field [1, 0x07, 0xD1] 1 2)
      ∧ heatOf (deckA melting) .a = some melting ∧ melting.state = .melting
      ∧ 2 < field [3] 0 1 := by
  unfold Ready; decide +kernel

theorem test_witness_open_heat :
    Ready .a running ∧ portFurnace .a = some .a ∧ materialOf (field [1, 0, 49] 0 1) = some .returns
      ∧ slotOf running .a = .empty ∧ max 50 (field [1, 0, 49] 1 2) ≤ capacity running .a
      ∧ verdict .a (.openHeat .a 0 [1, 0, 49]) running = some (.doneClamped, none)
      ∧ verdict .a (.openHeat .a 0 [1, 0x1F, 0x40]) running = some (.done, none) := by
  unfold Ready; decide +kernel

theorem test_witness_add_charge :
    Ready .a (deckA ready) ∧ heatOf (deckA ready) .a = some ready ∧ materialOf (field [2, 0, 50] 0 1) = some .steel
      ∧ ready.state ≠ .tapping ∧ ready.charges.length < 12 ∧ ready.bathMass + 2000 ≤ capacity (deckA ready) .a
      ∧ isTapReady (after (.addCharge .a 0 [2, 0, 50]) (deckA ready)) .a = false
      ∧ ((heatOf (after (.addCharge .a 0 [2, 0x07, 0xD0]) (deckA ready)) .a).map Heat.state) = some .melting
      ∧ ((heatOf (after (.addCharge .a 0 [2, 0, 50]) (deckA melting)) .a).map Heat.state) = some .melting
      ∧ .freeze .a 7 ∈ told .a (.addCharge .a 0 [2, 0, 50]) (deckA (heatIn .superheat (some 1185))) := by
  unfold Ready; decide +kernel

theorem test_witness_set_melt_power :
    Ready .a (deckA ready) ∧ heatOf running .a = none ∧ heatOf (deckA ready) .a = some ready
      ∧ heatClass ready = .hold ∧ heatClass melting = .melt
      ∧ verdict .a (.setMeltPower .a 0 [0x11, 0x99]) (deckA melting) = some (.doneClamped, none)
      ∧ ((after (.setMeltPower .a 0 [0x11, 0x99]) (deckA melting)).allot.out.get .a).meltRequest = 4500 := by
  unfold Ready; decide +kernel

/-- An output that is not in PULSE mode, with no duty waiting, meets the pulse rule. -/
theorem pulseRule_of_other {r : AllotRec} (mode : r.mode ≠ .pulse) (none' : r.waitingDuty = none) : PulseRule r :=
  ⟨fun e => absurd e mode, fun d hd => by rw [none'] at hd; cases hd⟩

theorem test_witness_power_law : PowerLaw (deckA ready) :=
  allocate_powerLaw _ (by decide +kernel) (by unfold PairHandedOver; decide +kernel)
    fun f => by cases f <;> exact pulseRule_of_other (by decide +kernel) (by decide +kernel)

theorem test_witness_tap_law_holding : TapLaw (deckA { ready with state := .holding }) := by
  unfold TapLaw QueueLaw PermitLawOf; decide +kernel

theorem test_witness_target_and_chemistry :
    Ready .a (deckA ready) ∧ heatOf (deckA ready) .a = some ready ∧ chemistryOf (field [2] 0 1) = some .rejected
      ∧ verdict .a (.setHoldTarget .a 0 [0, 0]) (deckA ready) = some (.doneClamped, none)
      ∧ verdict .a (.setHoldTarget .a 0 [0x06, 0x41]) (deckA ready) = some (.doneClamped, none)
      ∧ verdict .a (.setHoldTarget .a 0 [0x06, 0x40]) (deckA ready) = some (.done, none)
      ∧ isTapReady (after (.setChemistry .a 0 [2]) (deckA ready)) .a = false := by
  unfold Ready; decide +kernel

theorem test_witness_close_heat :
    Ready .b (setHeat .b { ready with bathMass := 0 } running) ∧ heatOf (deckA ready) .a = some ready
      ∧ slotOf (after (.closeHeat .b 0 []) (setHeat .b { ready with bathMass := 0 } running)) .b = .empty
      ∧ ((heatOf (after (.closeHeat .a 0 []) (deckA ready)) .a).map Heat.number) = some 1
      ∧ ((heatOf (after (.closeHeat .a 0 []) (deckA melting)) .a).map Heat.remaining) = some 5000 := by
  unfold Ready; decide +kernel

theorem test_witness_restate :
    Ready .a (setSlot .a .unknown running) ∧ slotOf (setSlot .a .unknown running) .a = .unknown
      ∧ min (field [0, 0] 0 2) (capacity running .a) = 0
      ∧ verdict .a (.restate .a 0 [0x1F, 0x41]) (setSlot .a .unknown running) = some (.doneClamped, none)
      ∧ heatOf (deckA ready) .a = some ready ∧ ready.state ≠ .melting ∧ ready.state ≠ .tapping
      ∧ slotOf (after (.restate .a 0 [0, 0]) (deckA ready)) .a = .empty
      ∧ ((heatOf (after (.restate .a 0 [0x13, 0x88]) (deckA ready)) .a).map Heat.restateAdj) = some (-1000) := by
  unfold Ready; decide +kernel

theorem test_witness_shed_and_furnace_on :
    running.powered = true ∧ loading running = false ∧ loading State.reset = true ∧ Ready .a running
      ∧ (after (.shedChange true) running).allot.budget = 2000 ∧ (after (.shedChange false) running).allot.budget = 6000
      ∧ ((after (.furnaceOn .a 0 []) (setStopped .a true running)).heat.slots.get .a).stopped = false := by
  unfold Ready; decide +kernel

/-- The queue's entry ASSIGNED to furnace A, whose heat is ready. -/
def called : State := tapIn [entry 1 (some .a)] none (deckA ready)

/-- A permit pending on that entry. -/
def waiting : State := tapIn [entry 1 (some .a)] (some pending) (deckA ready)

/-- The permit granted. -/
def allowed : State := tapIn [entry 1 (some .a)] (some granted) (deckA { pouring with openTap := some { pouringTap with forwardAt := none } })

/-- The furnace tilted forward under the permit. -/
def tipping : State := tilted false true (tapIn [entry 1 (some .a)] (some pouredUnder) (deckA pouring))

theorem test_witness_tap_open :
    Ready .a waiting ∧ Ready .b waiting ∧ waiting.tap.permit = some pending ∧ allowed.tap.permit = some granted
      ∧ verdict .a (.tapOpen .a 0 []) waiting = some (.pending, none)
      ∧ verdict .a (.tapOpen .a 0 []) allowed = some (.done, none)
      ∧ verdict .b (.tapOpen .b 0 []) waiting = some (.retry, some .permitBusy)
      ∧ (setKept .a (some .notReady) called).tap.kept.get .a = some .notReady
      ∧ called.tap.permit = none ∧ called.tap.kept.get .a = none ∧ assignedTo called .a = some (entry 1 (some .a))
      ∧ assignedTo called .b = none ∧ verdict .b (.tapOpen .b 0 []) called = some (.refused, some .notReady) := by
  unfold Ready; decide +kernel

/-- A body of POST-TAP. -/
def postBody (ladle pref : Byte) : List Byte := [ladle, 3, 232, 5, 120, 5, 220, pref]

/-- A queue of eight. -/
def full : State := tapIn ([1, 2, 3, 4, 5, 6, 7, 8].map (fun n => entry n none)) none running

theorem test_witness_post_tap :
    Ready .p full ∧ Ready .p running ∧ field (postBody 0 0) 0 1 < 1 ∧ 63 < field (postBody 64 0) 0 1
      ∧ 2 < field (postBody 5 3) 7 1
      ∧ verdict .p (.postTap .p 0 (postBody 5 0)) full = some (.refused, some .duplicateLadle)
      ∧ verdict .p (.postTap .p 0 (postBody 63 0)) full = some (.refused, some .queueFull)
      ∧ preferenceNamed (field (postBody 63 2) 7 1) = some .either
      ∧ verdict .p (.postTap .p 0 (postBody 63 2)) (deckA ready) = some (.done, none)
      ∧ (assignedTo (after (.postTap .p 0 (postBody 63 2)) (deckA ready)) .a).isSome = true
      ∧ (shopIn .banked running).shop.state = .banked ∧ wakeOnPost running = false
      ∧ wakeOnPost (setWorking (running.sett.working.set 52 1) running) = true := by
  unfold Ready; decide +kernel

theorem test_witness_cancel_tap :
    Ready .p called ∧ Ready .p waiting ∧ Ready .p allowed ∧ entryOf called 2 = none ∧ (entryOf called 1).isSome = true
      ∧ called.tap.permit = none ∧ waiting.tap.permit = some pending ∧ allowed.tap.permit = some granted
      ∧ verdict .p (.cancelTap .p 0 [1]) waiting = some (.done, none)
      ∧ (after (.cancelTap .p 0 [1]) waiting).tap.queue = []
      ∧ verdict .p (.cancelTap .p 0 [1]) allowed = some (.refused, some .tooLate) := by
  unfold Ready; decide +kernel

theorem test_witness_tap_weight :
    Ready .p tipping ∧ Ready .p allowed ∧ tipping.tap.permit = some pouredUnder ∧ pouredUnder.forwardAt.isSome = true
      ∧ heatOf tipping .a = some pouring ∧ tiltOf tipping .a = .forward
      ∧ verdict .p (.tapWeight .p 0 [1, 3, 232]) tipping = some (.done, none)
      ∧ tiltOf (tilted true false tipping) .a = .home
      ∧ verdict .p (.tapWeight .p 0 [1, 0x17, 0x71]) (tilted true false tipping) = some (.doneClamped, none)
      ∧ slotOf (after (.tapWeight .p 0 [1, 0x17, 0x71]) (tilted true false tipping)) .a = .empty
      ∧ ((after (.tapWeight .p 0 [1, 0x17, 0x71]) (tilted true false tipping)).ports.p.notices.any
          (fun n => n.detail == .heatClosed .a 7 .emptied)) = true
      ∧ verdict .p (.tapWeight .p 0 [1, 0, 0]) allowed = some (.refused, some .wrongState)
      ∧ verdict .p (.tapWeight .p 0 [1, 0, 0]) called = some (.refused, some .wrongState)
      ∧ verdict .p (.tapWeight .p 0 [9, 0, 0]) called = some (.refused, some .noSuchEntry)
      ∧ ({ called.tap with lastEnded := some 9 } : Tap).lastEnded = some 9 := by
  unfold Ready; decide +kernel

/-- A permit whose TAP_LONG has been posted. -/
def toldLong : Permit := { pouredUnder with longPosted := true, tap := some 1000000 }

theorem test_witness_tap_timers :
    running.powered = true ∧ loading running = false ∧ running.tap.permit = none
      ∧ heatOf waiting .a = some ready ∧ pending.confirm.isSome = true ∧ granted.use.isSome = true
      ∧ granted.forwardAt = none ∧ pouredUnder.tap.isSome = true ∧ pouredUnder.longPosted = false
      ∧ (after .tapConfirmExpiry waiting).tap.permit = none
      ∧ tapEnded pending .stageNoConfirm waiting
        = { waiting.tap with queue := [entry 1 none], permit := none, kept := ⟨some .stageNoConfirm, none⟩ }
      ∧ ((after .tapConfirmExpiry waiting).ports.a.notices.any (fun n => n.detail == .tapCall .a 7 1 5 1000 1450)) = true
      ∧ (after .permitUseExpiry allowed).tap.permit = none
      ∧ ((after .tapMaxExpiry tipping).tap.permit.map Permit.longPosted) = some true
      ∧ (after (.writeSetting .p 0 [50, 0, 60]) (tapIn [entry 1 (some .a)] (some toldLong) (deckA pouring))).tap.permit
        = some toldLong
      ∧ ((heatOf (after .weightWaitExpiry
          (tapIn [entry 1 (some .a)] (some { pouredUnder with weightWait := some 0 }) (deckA pouring))) .a).map
            Heat.massUncertain) = some true := by
  decide +kernel

theorem test_witness_tilt_change :
    loading State.reset = true ∧ tiltOf State.reset .a = .back ∧ tiltOf running .a = .home
      ∧ grantedFor running .a = false ∧ grantedFor allowed .a = true
      ∧ ((after (.tiltChange .a false true) allowed).tap.permit.bind Permit.forwardAt) = some 0
      ∧ ((after (.tiltChange .a true true) allowed).tap.permit.bind Permit.forwardAt) = some 0
      ∧ (after (.tiltChange .a false false) tipping).tap.permit = some { pouredUnder with weightWait := none }
      ∧ (after (.tiltChange .a true true) tipping).tap.permit = some { pouredUnder with weightWait := none }
      ∧ ((after (.tiltChange .a true false) tipping).tap.permit.bind Permit.weightWait) = some 0
      ∧ (after (.tiltChange .a true false)
          (setPermit (some { pouredUnder with weight := some { mass := 1000, clamped := false } }) tipping)).tap.permit
        = none
      ∧ (after (.tiltChange .a true false) (tilted false false allowed)).tap.permit = some granted := by
  decide +kernel

/-- A closing tells the end of the dip and of the pending permit. -/
theorem test_witness_closing_told :
    let s := setDip .a { DipUnit.reset with state := .sampling, timer := some 0, samples := 3 } waiting
    .heatClosed .a 7 .closed ∈ told .p (.closeHeat .a 0 []) s
      ∧ .dipFailed .a 7 .heatClosed 3 ∈ told .a (.closeHeat .a 0 []) s
      ∧ .permitResolved (some .cancelled) .a 7 1 5 ∈ told .a (.closeHeat .a 0 []) s
      ∧ .dipFailed .a 7 .heatClosed 3 ∈ told .a (.restate .a 0 [0, 0]) s
      ∧ .permitResolved (some .cancelled) .a 7 1 5 ∈ told .a (.restate .a 0 [0, 0]) s := by
  decide +kernel

/-- A heat that leaves TAP_READY has its pending permit resolved, and a lapsed entry of it expires. -/
theorem test_witness_refusal_told :
    let late := { waiting with clock := { waiting.clock with shopSeconds := 60 } }
    .permitResolved (some .notReady) .a 7 1 5 ∈ told .a (.setChemistry .a 0 [2]) waiting
      ∧ .permitResolved (some .notReady) .a 7 1 5 ∈ told .a (.addCharge .a 0 [2, 0, 50]) waiting
      ∧ assignedTo (after (.addCharge .a 0 [2, 0, 50]) called) .a = none
      ∧ (after (.setChemistry .a 0 [2]) waiting).tap.kept.get .a = some .notReady
      ∧ .entryExpired 1 5 ∉ told .p (.setChemistry .a 0 [2]) waiting
      ∧ .entryExpired 1 5 ∈ told .p (.setChemistry .a 0 [2]) late
      ∧ .permitResolved (some .stageNoConfirm) .a 7 1 5 ∈ told .a .tapConfirmExpiry late
      ∧ .entryExpired 1 5 ∈ told .p .tapConfirmExpiry late
      ∧ .entryExpired 1 5 ∈ told .p .permitUseExpiry { allowed with clock := late.clock } := by
  decide +kernel

/-- Both furnaces with a heat ready to tap, and the entry ASSIGNED to A. -/
def both : State := tapIn [entry 1 (some .a)] none (setHeat .b { ready with number := 8 } (deckA ready))

/-- An entry that waits goes to a heat that becomes TAP_READY, with its TAP_CALL (R11, R122, R123). -/
theorem test_matching_follows_readiness :
    let s := tapIn [entry 1 none] none (deckA { ready with state := .holding })
    let unapproved := setHeat .a { ready with state := .holding, chemistry := .pending } s
    isTapReady s .a = false ∧ isTapReady (after .readinessSecond s) .a = true
      ∧ assignedTo (after .readinessSecond s) .a = some (entry 1 (some .a))
      ∧ .tapCall .a 7 1 5 1000 1450 ∈ told .p .readinessSecond s
      ∧ assignedTo (after (.setChemistry .a 0 [1]) unapproved) .a = some (entry 1 (some .a))
      ∧ .tapCall .a 7 1 5 1000 1450 ∈ told .p (.setChemistry .a 0 [1]) unapproved := by
  decide +kernel

/-- An entry that returns goes to the other furnace at once (R122, R127). -/
theorem test_matching_follows_return :
    let refused := setPermit (some pending) both
    assignedTo both .a = some (entry 1 (some .a)) ∧ assignedTo both .b = none
      ∧ assignedTo (after (.addCharge .a 0 [2, 0, 50]) both) .b = some (entry 1 (some .b))
      ∧ .tapCall .b 8 1 5 1000 1450 ∈ told .b (.addCharge .a 0 [2, 0, 50]) both
      ∧ assignedTo (after (.setChemistry .a 0 [2]) refused) .b = some (entry 1 (some .b))
      ∧ assignedTo (after (.closeHeat .a 0 []) refused) .b = some (entry 1 (some .b))
      ∧ assignedTo (after (.restate .a 0 [0, 0]) refused) .b = some (entry 1 (some .b)) := by
  decide +kernel

/-- UNPERMITTED_TILT is posted again when its detail changes, and goes over to the other furnace when the one it carries is
HOME (R130). -/
theorem test_tilt_goes_over :
    let forward := after (.tiltChange .b false true) (after (.tiltChange .a false true) running)
    (forward.tap.tiltCarried.get .p).map TiltDetail.furnace = some .b
      ∧ .unpermittedTilt { furnace := .b, tilt := .invalid, permitHeld := false } ∈ told .p (.tiltChange .b true true) forward
      ∧ ((after (.tiltChange .b true false) forward).tap.tiltCarried.get .p).map TiltDetail.furnace = some .a
      ∧ .unpermittedTilt { furnace := .a, tilt := .forward, permitHeld := false }
          ∈ told .p (.tiltChange .b true false) forward
      ∧ (after (.tiltChange .a true false) (after (.tiltChange .b true false) forward)).tap.tiltCarried.get .p = none := by
  decide +kernel

/-- LEAK_WARN goes over to the other circuit when the warning it carries ends, and at its acknowledgement (R110, R148). -/
theorem test_leak_goes_over :
    let leaks := fun (c : Circuit) (ch : Chan) (v : Nat) (s : State) => evalCircuit c (setChannel ch (good v) s)
    let warned := leaks .coilB .leakB 150 (leaks .coilA .leakA 160 running)
    let ended := leaks .coilB .leakB 50 warned
    let seen := after (.ackNotices .p 0 [BitVec.ofNat 8 NoticeKind.leakWarn.code, 0, 0]) warned
    leakWarned warned = ⟨true, true⟩ ∧ warned.prot.leakCarried.get .a = some .b
      ∧ ended.prot.leakCarried.get .a = some .a
      ∧ (ended.ports.a.notices.any (fun n => n.detail == .leakWarn .a 160)) = true
      ∧ (leaks .coilA .leakA 50 ended).prot.leakCarried.get .a = none
      ∧ seen.prot.leakCarried.get .p = some .a ∧ seen.prot.leakCarried.get .a = some .b
      ∧ (seen.ports.p.notices.any (fun n => n.detail == .leakWarn .a 160)) = true := by
  decide +kernel

/-- A tripped coil with good readings. -/
def coilOut : State := circuitTo .coilA tripped running

theorem test_witness_trip_reset :
    (Instr.tripReset .a 0 [0]).wellFormed = true ∧ Ready .a coilOut ∧ 2 < field [3] 0 1 ∧ circuitNamed (field [0] 0 1) = some .coilA
      ∧ circuitNamed (field [2] 0 1) = some .cabinet ∧ (circuitOf running .coilA).state ≠ .trip
      ∧ verdict .a (.tripReset .a 0 [0]) coilOut = some (.done, none)
      ∧ (circuitOf (after (.tripReset .a 0 [0]) coilOut) .coilA).state = .normal
      ∧ verdict .a (.tripReset .a 0 [0]) (setChannel .leakA (good 251) coilOut)
        = some (.refused, some .conditionPresent)
      ∧ verdict .a (.tripReset .a 0 [2]) (circuitTo .cabinet tripped running) = some (.done, none)
      ∧ (circuitOf (after (.answerSent .a) (after (.tripReset .a 1 [0]) (busy coilOut))) .coilA).state = .normal := by
  unfold Ready; decide +kernel

/-- The deck held back for COMMISSION. -/
def held : State :=
  { shopIn .held running with shop := { running.shop with state := .held, reasons := { noReasons with commission := true } } }

theorem test_witness_shop_requests :
    Ready .a held ∧ Ready .p running ∧ held.shop.state = .held
      ∧ verdict .a (.resume .a 0 []) held = some (.done, none) ∧ (after (.resume .a 0 []) held).shop.state = .run
      ∧ running.shop.state ≠ .held ∧ running.tap.permit = none ∧ waiting.tap.permit.isSome = true
      ∧ (after (.bank .p 0 []) running).shop.state = .banked
      ∧ (after (.bank .p 0 []) (deckA { melting with state := .superheat, estimate := some 1250 })).shop.state = .run
      ∧ atFloor (deckA (heatIn .holding (some 1250))) .a = true ∧ atFloor (deckA (heatIn .holding (some 1251))) .a = false
      ∧ (after (.wake .p 0 []) (shopIn .banked running)).shop.state = .run
      ∧ verdict .p (.bank .p 0 []) held = some (.refused, some .wrongState) := by
  unfold Ready; decide +kernel

theorem test_witness_link_restart :
    Ready .a (linkIn .fault running) ∧ (linkIn .fault running).stage.link = .fault ∧ running.stage.link ≠ .fault
      ∧ (after (.linkRestart .a 0 []) (linkIn .fault running)).stage.link = .down
      ∧ (9999#16).toNat ≤ 9999 ∧ statusOf 2 = some .fault ∧ Ready .p running := by
  unfold Ready; decide +kernel

theorem test_witness_pump_return :
    Ready .a (loopIn .standby running) ∧ Ready .a (loopIn .loopFail running) ∧ running.lines.mainPumpRun = true
      ∧ pressureGood running = true
      ∧ verdict .a (.pumpReturn .a 0 []) (loopIn .standby running) = some (.done, none)
      ∧ verdict .a (.pumpReturn .a 0 []) (setChannel .loopPress (good 249) (loopIn .loopFail running))
        = some (.refused, some .conditionPresent)
      ∧ verdict .a (.pumpReturn .a 0 []) running = some (.refused, some .wrongState) := by
  unfold Ready; decide +kernel

/-- A log with two summaries. -/
def logged : State :=
  let x := summaryOf running .a ready .closed
  { running with heat := { running.heat with log := [x, { x with number := 8 }] } }

theorem test_witness_reads :
    Ready .a logged ∧ furnaceNamed (field [0] 0 1) = some .a ∧ 1 < field [2] 0 1
      ∧ logged.heat.log.head?.isSome = true ∧ (logged.heat.log.any (fun x => x.number == 8)) = true
      ∧ running.heat.log = [] ∧ verdict .a (.readLog .a 0 [0, 8]) logged = some (.done, none)
      ∧ verdict .a (.readLog .a 0 [0, 9]) logged = some (.refused, some .noSuchEntry)
      ∧ verdict .a (.readSetting .a 0 [65]) running = some (.done, none)
      ∧ verdict .a (.readSetting .a 0 [66]) running = some (.refused, some .badKind) := by
  unfold Ready; decide +kernel

theorem test_witness_write_setting :
    Ready .p running ∧ running.sett.working.length = 65
      ∧ verdict .p (.writeSetting .p 0 [0, 0, 0]) running = some (.refused, some .badKind)
      ∧ verdict .p (.writeSetting .p 0 [52, 0, 2]) running = some (.refused, some .badKind)
      ∧ verdict .p (.writeSetting .p 0 [1, 0x17, 0x70]) running = some (.done, none)
      ∧ writeWorking running.sett.working ⟨0, 0⟩ 1 6000 = running.sett.working
      ∧ verdict .p (.writeSetting .p 0 [1, 0x0F, 0xA3]) running = some (.doneClamped, none)
      ∧ setting (after (.writeSetting .p 0 [1, 0x0F, 0xA3]) running) 2 = 4000
      ∧ { running.sett with memory := MemInterface.saving }.memory = .saving
      ∧ verdict .a (.writeSetting .a 0 [1, 1, 1]) (takeChannel .p running) = some (.retry, some .channelHeld) := by
  unfold Ready; decide +kernel

/-- A save on its way. -/
def saving : State := { running with sett := { running.sett with memory := .saving } }

theorem test_witness_save :
    Ready .p saving ∧ Ready .p running ∧ saving.sett.memory = .saving
      ∧ verdict .p (.saveSettings .p 0 []) saving = some (.retry, some .saving)
      ∧ verdict .a (.saveSettings .a 0 []) (takeChannel .p running) = some (.retry, some .channelHeld)
      ∧ verdict .p (.releaseChannel .p 0 []) (takeChannel .p running) = some (.done, none)
      ∧ verdict .p (.releaseChannel .p 0 []) running = some (.refused, some .notOwner)
      ∧ (takeChannel .p running).sett.idle ≠ none ∧ (after .channelIdleExpiry (takeChannel .p running)).sett.owner = none
      ∧ (after (.saveEnd (.failed true)) saving).sett.block.partWritten = true := by
  unfold Ready; decide +kernel

/-- A notice pending at every port. -/
def noticed : State := post (.link .up .report) running

theorem test_witness_ack :
    Ready .a noticed ∧ ackPairs [15, 0, 1] = [(15, 1)] ∧ ackPairs [21, 0, 1] = [(21, 1)]
      ∧ (noticed.ports.get .a).notices.length = 1 ∧ (noticed.ports.get .a).gap = none
      ∧ ((after (.ackNotices .a 0 [15, 0, 1]) noticed).ports.get .a).notices = []
      ∧ ((after (.ackNotices .a 0 [15, 0, 2]) noticed).ports.get .a).notices.length = 1
      ∧ verdict .a (.ackNotices .a 0 [21, 0, 1]) noticed = some (.refused, some .badKind)
      ∧ verdict .a (.ackNotices .a 0 [15, 0, 1]) (setPort .a { noticed.ports.a with gap := some 0 } noticed)
        = some (.retry, some .busy) := by
  unfold Ready; decide +kernel

/-- The answer of ACK-NOTICES: the kinds kept, then the kinds posted again, each with its serial (R148, R161, log 13). -/
theorem test_ack_answer :
    let answer := fun (body : List Byte) (s : State) =>
      ((after (.ackNotices .a 0 body) s).ports.get .a).answer.map Reply.body
    let cooled := post (coolingDetail coilOut) (post (.link .up .report) coilOut)
    answer [15, 0, 2] noticed = some [1, 15, 0, 1, 0] ∧ answer [15, 0, 1] noticed = some [0, 0]
      ∧ answer [12, 0, 0, 15, 0, 9] cooled = some [1, 15, 0, 1, 1, 12, 0, 3]
      ∧ kindsKept [(12, 0), (15, 9)] cooled.ports.a.notices = [15]
      ∧ kindsCleared [(12, 0), (15, 9)] cooled.ports.a.notices = [12] := by
  decide +kernel

theorem test_witness_enables :
    Ready .a noticed ∧ State.attn noticed .a = true
      ∧ State.attn (after (.setNoticeEnables .a 0 [0, 0, 0]) noticed) .a = false := by
  unfold Ready; decide +kernel

theorem test_witness_resets :
    heatOf (deckA ready) .a = some ready ∧ heatOf running .a = none ∧ pouring.openTap = some pouringTap
      ∧ slotOf (after (.coldStart (linesNow running)) (deckA ready)) .a = .unknown
      ∧ ((heatOf (after (.warmRestart (linesNow running)) (deckA ready)) .a).map Heat.state) = some .holding
      ∧ ((heatOf (after (.warmRestart (linesNow running)) (deckA pouring)) .a).map (fun h => h.taps.length)) = some 1
      ∧ (after (.warmRestart (linesNow running)) saving).sett.block.partWritten = true := by
  decide +kernel

theorem test_witness_load_end :
    State.reset.powered = true ∧ loading State.reset = true ∧ loading running = false
      ∧ (after (.settingsLoadEnd false) State.reset).shop.reasons.settingsDefault = true
      ∧ (after (.settingsLoadEnd false) State.reset).prot.loop.state = some .changeover
      ∧ (after (.settingsLoadEnd false) (tilted false true State.reset)).tap.unpermitted = ⟨true, false⟩ := by
  decide +kernel

/-- A load that ends acknowledged, on a block that carries its own check, ends good. -/
theorem loaded_good {s : State} {w : List Nat} (on : s.powered = true) (l : loading s = true)
    (b : s.sett.block = StoredBlock.whole w) : after (.settingsLoadEnd true) s = finishLoad true s := by
  have good : goodBlock true s.sett.block = true := by
    rw [b]
    unfold goodBlock StoredBlock.whole
    simp
  show (match live (endLoad true) s with
    | .next t => t
    | _ => s) = _
  rw [live, if_pos on]
  dsimp only
  unfold endLoad
  rw [if_pos l, good]

/-- The part while it loads a block of values. -/
def stored (w : List Nat) : State := { State.reset with sett := { State.reset.sett with block := StoredBlock.whole w } }

/-- A block with a value below its range and a code above 1. -/
def outOfRange : List Nat := putValue (putValue Config.settingDefaults 20 9) 52 7

/-- A good block, and a good block with two values out of range, as the load ends (R157). -/
theorem test_witness_load_end_good :
    .settings .loaded none 0 0 0 ∈ told .p (.settingsLoadEnd true) State.reset
      ∧ (after (.settingsLoadEnd true) State.reset).shop.reasons.settingsDefault = false
      ∧ .settings .loaded none 0 0 2 ∈ told .p (.settingsLoadEnd true) (stored outOfRange)
      ∧ setting (after (.settingsLoadEnd true) (stored outOfRange)) 20 = 1100
      ∧ setting (after (.settingsLoadEnd true) (stored outOfRange)) 52 = 1 := by
  unfold told
  rw [loaded_good (w := Config.settingDefaults) rfl rfl rfl, loaded_good (w := outOfRange) rfl rfl rfl]
  decide +kernel

/-- A part-written block gives the defaults (log 6). -/
theorem test_load_end_part_written :
    .settings .defaults none 0 0 0 ∈ told .p (.settingsLoadEnd true)
      { State.reset with sett := { State.reset.sett with block :=
        { StoredBlock.whole outOfRange with partWritten := true } } } := by
  decide +kernel

theorem test_witness_load_end_law : ProtectionLaw State.reset := by
  unfold ProtectionLaw CircuitLaw TimersStopped NoTimerRuns
  refine ⟨?_, ?_, ?_, ?_, ?_, ?_, ?_, ?_⟩ <;> decide +kernel

theorem test_witness_load_end_good_law : ProtectionLaw (stored outOfRange) := test_witness_load_end_law

/-- The part as a reset with a latched coil circuit leaves it. -/
def latched : State := circuitTo .coilA (CircuitRec.reset true 0) State.reset

theorem test_witness_load_end_latched :
    loading latched = true ∧ (circuitOf latched .coilA).latch = true
      ∧ (circuitOf (after (.settingsLoadEnd true) latched) .coilA).state = .trip
      ∧ (circuitOf (after (.settingsLoadEnd true) latched) .coilA).cause = some .latch
      ∧ (circuitOf (after (.settingsLoadEnd true) latched) .coilB).state = .init := by
  rw [loaded_good (w := Config.settingDefaults) rfl rfl rfl]
  decide +kernel

theorem test_witness_load_end_latched_law : ProtectionLaw latched := by
  unfold ProtectionLaw CircuitLaw TimersStopped NoTimerRuns
  refine ⟨?_, ?_, ?_, ?_, ?_, ?_, ?_, ?_⟩ <;> decide +kernel

/-- A load with good readings, a heat that is ready but for its state, an entry that waits, and AFTER_LOSS set to AUTO. -/
def loadingReady : State :=
  let s := tapIn [entry 1 none] none (deckA { ready with state := .holding })
  { s with
    prot := State.reset.prot
    sett := { s.sett with memory := .loading, block := StoredBlock.whole (putValue Config.settingDefaults 52 1) } }

/-- A heat that becomes TAP_READY as the load ends takes the entry that waits. -/
theorem test_witness_load_end_matches :
    isTapReady loadingReady .a = false ∧ isTapReady (after (.settingsLoadEnd true) loadingReady) .a = true
      ∧ assignedTo (after (.settingsLoadEnd true) loadingReady) .a = some (entry 1 (some .a)) := by
  rw [loaded_good (w := putValue Config.settingDefaults 52 1) rfl rfl rfl]
  decide +kernel

theorem test_witness_load_end_matches_law : ProtectionLaw loadingReady := by
  unfold ProtectionLaw CircuitLaw TimersStopped NoTimerRuns
  refine ⟨?_, ?_, ?_, ?_, ?_, ?_, ?_, ?_⟩ <;> decide +kernel

theorem test_witness_report :
    running.powered = true ∧ loading running = false ∧ running.stage.link ≠ .fault ∧ babbles running = false
      ∧ (9999#16).toNat ≤ 9999 ∧ statusOf 0 = some .ready ∧ statusOf 2 = some .fault
      ∧ waiting.tap.permit = some pending ∧ heatOf waiting .a = some ready ∧ tapCap waiting + 50 = 350
      ∧ ((after (.report 350 0 0 0) waiting).tap.permit.map Permit.state) = some .granted
      ∧ ((after (.report 351 0 0 0) waiting).tap.permit.map Permit.state) = some .pending := by
  decide +kernel

/-- The babble record full. -/
def babbling : State := { running with stage := { running.stage with babble := [0, 0] } }

theorem test_witness_link_leaves :
    running.stage.link = .up ∧ running.stage.deadline.isSome = true ∧ babbles babbling = true
      ∧ babbling.stage.link ≠ .fault ∧ (linkIn .lost running).stage.link ≠ .up
      ∧ (after (.report 0 0 0 0) babbling).stage.link = .fault
      ∧ (after (.unknownKindFrame ⟨0x82, [5]⟩) running).stage.link = .fault
      ∧ (after .reportDeadlineExpiry running).stage.link = .lost
      ∧ ((after .reportDeadlineExpiry waiting).tap.permit.map Permit.state) = some .granted := by
  decide +kernel

theorem test_witness_frames_discarded :
    running.powered = true ∧ loading State.reset = true ∧ (linkIn .fault running).stage.link = .fault
      ∧ babbles running = false ∧ 9999 < (10000#16).toNat ∧ 2 < (3 : Byte).toNat
      ∧ (after (.report 10000 0 0 0) running).stage.last = running.stage.last := by
  decide +kernel

/-- A REPORT of 350 kW and RUNNING for A, 10 kW and READY for B: start byte, LEN 7, KIND 0x81, the body, check 0xE3FB
(R162). -/
def reportBytes : List Byte := [0x5A, 7, 0x81, 0x01, 0x5E, 1, 0, 10, 0, 0xE3, 0xFB]

/-- The bytes of a REPORT bring it; with a byte wrong, with LEN 6, behind a LEN outside 1..16, or cut short, they do not;
with another KIND they put the link into FAULT (R80, R162). -/
theorem test_stage_frame_from_bytes :
    stageFrameBytes 0x81 (reportBody 350 1 10 0) = reportBytes
      ∧ (receiveStageBytes reportBytes running).stage.last = some
          { out := ⟨{ delivered := 350, status := .running }, { delivered := 10, status := .ready }⟩, takenAt := 0 }
      ∧ (receiveStageBytes reportBytes running).stage = (after (.report 350 1 10 0) running).stage
      ∧ (receiveStageBytes (0x00 :: reportBytes) running).stage.last = (receiveStageBytes reportBytes running).stage.last
      ∧ (receiveStageBytes (reportBytes.dropLast ++ [0xFA]) running).stage = running.stage
      ∧ (receiveStageBytes [0x5A, 6, 0x81, 0, 0, 0, 0, 0, 0xC1, 0x6B] running).stage = running.stage
      ∧ (receiveStageBytes [0x5A, 0] running).stage = running.stage
      ∧ (receiveStageBytes [0x5A, 17] running).stage = running.stage
      ∧ (receiveStageBytes (reportBytes.take 10) running).stage.assembly = reportBytes.take 10
      ∧ (receiveStageBytes [0x5A, 2, 0x82, 5, 0x8F, 0xA3] running).stage.link = .fault := by
  decide +kernel

/-- Each kind of check error comes to what the command of a check error leaves, and a gap to what its command leaves, also
where a frame had begun (R80, R162, log 34). -/
theorem test_witness_stage_discards :
    let begun := receiveStageByte 0x5A running
    wholeStageFrame reportBytes = true ∧ stageFrameBegun (reportBytes.take 10) = true
      ∧ reportBytes.drop 9 = checkBytes ((reportBytes.drop 1).take 8)
      ∧ wholeStageFrame (reportBytes.dropLast ++ [0xFA]) = true
      ∧ stageCheckFails (reportBytes.dropLast ++ [0xFA]) = true
      ∧ wholeStageFrame [0x5A, 6, 0x81, 0, 0, 0, 0, 0, 0xC1, 0x6B] = true
      ∧ checkBytes [6, 0x81, 0, 0, 0, 0, 0] = [0xC1, 0x6B]
      ∧ stageCheckFails [0x5A, 6, 0x81, 0, 0, 0, 0, 0, 0xC1, 0x6B] = true
      ∧ begun.stage.assembly = [0x5A]
      ∧ (after .stageCheckErrorFrame begun).stage = running.stage
      ∧ (after .stageByteGap (receiveStageBytes (reportBytes.take 10) running)).stage = running.stage := by
  decide +kernel

/-- A SETPOINT on the wire. -/
def sending : State :=
  { running with
    stage :=
      { running.stage with
        transmitter := .sendingSetpoint { out := ⟨HeldOutput.off, HeldOutput.off⟩, upSinceBegun := true, tripTaken := true } } }

/-- A TRIP frame on the wire. -/
def tripping : State := { running with stage := { running.stage with transmitter := .sendingTrip ⟨true, false⟩ } }

theorem test_witness_transmitter :
    running.stage.transmitter = .idle ∧ running.stage.pendingTrip = noFurnace
      ∧ { running.stage with pendingTrip := (⟨true, false⟩ : PerFurnace Bool) }.pendingTrip ≠ noFurnace
      ∧ sending.stage.transmitter ≠ .idle ∧ (after (.abortedSetpointEnd false) sending).stage.transmitter = .idle
      ∧ (after .setpointCompleted sending).stage.lastSetpointAt = some 0
      ∧ (after .tripFrameEnd tripping).stage.transmitter
        = .sendingSetpoint { out := ⟨HeldOutput.off, HeldOutput.off⟩, upSinceBegun := true, tripTaken := false } := by
  decide +kernel

/-- A holding heat whose demand is below MIN_CONT runs in PULSE mode. -/
def pulsing : State := deckA (heatIn .holding (some 1412))

/-- The hold demand follows a new hold target at the request and after the next estimator second, and the one in force at a
wake, which a request while BANKED has stored (R15, R40, R69). -/
theorem test_hold_demand_follows_target :
    let asked := fun (s : State) => (s.allot.out.get .a).request
    let retargeted := after (.setHoldTarget .a 0 [0x05, 0xB2]) (deckA ready)
    let banked := shopIn .banked (deckA ready)
    let stored := after (.setHoldTarget .a 0 [0x05, 0xB2]) banked
    asked (deckA ready) = 0 ∧ asked retargeted = 300
      ∧ (heatOf retargeted .a).map Heat.estimate = some (some 1450)
      ∧ asked (after (.estimatorSecond .a) retargeted) = 300
      ∧ asked stored = 0 ∧ (heatOf stored .a).map Heat.holdTarget = some 1458
      ∧ asked (after (.wake .p 0 []) stored) = 300 := by
  decide +kernel

theorem test_witness_pulse :
    (pulsing.allot.out.get .a).mode = .pulse ∧ (pulsing.allot.out.get .a).phase = some .on
      ∧ (pulsing.allot.out.get .a).duty = some 6 ∧ (pulsing.allot.out.get .a).command = 450
      ∧ (pulsing.allot.out.get .b).mode ≠ .pulse
      ∧ ((deckA ready).allot.out.get .a).mode ≠ .pulse
      ∧ ((after (.setHoldTarget .a 0 [0x05, 0xB2]) (deckA ready)).allot.out.get .a).period = some 0
      ∧ ((after (.setHoldTarget .a 0 [0x05, 0xB2]) (deckA ready)).allot.out.get .a).duty = some 6
      ∧ ((after (.pulseOffPhase .a) pulsing).allot.out.get .a).command = 0
      ∧ ((after (.pulsePeriodStart .a) (after (.pulseOffPhase .a) pulsing)).allot.out.get .a).phase = some .on := by
  decide +kernel

theorem test_witness_estimator_second :
    running.powered = true ∧ loading running = false ∧ heatOf running .a = none
      ∧ heatOf (deckA ready) .a = some ready ∧ heatOf (deckA melting) .a = some melting
      ∧ ((heatOf (after (.estimatorSecond .a) (deckA melting)) .a).map Heat.remaining) = some 5180
      ∧ ((heatOf (after (.estimatorSecond .a) (deckA ready)) .a).map Heat.accumulator) = some (-180000) := by
  decide +kernel

theorem test_witness_seconds :
    running.powered = true ∧ loading State.reset = true ∧ loading running = false ∧ entryOf running 1 = none
      ∧ entryOf called 1 = some (entry 1 (some .a)) ∧ (entry 1 none).deadline.isSome = true
      ∧ called.tap.permit = none ∧ waiting.tap.permit = some pending
      ∧ (after (.entryLapse 1) called).tap.queue = [] ∧ (after (.entryLapse 1) waiting).tap.queue.length = 1 := by
  decide +kernel

theorem test_witness_breaker :
    running.lines.breakerClosed = true ∧ State.reset.lines.breakerClosed = false
      ∧ (after (.mainBreakerClosedChange false) (deckA ready)).shop.state = .supplyOff
      ∧ isTapReady (after (.mainBreakerClosedChange false) (deckA ready)) .a = false
      ∧ (after (.mainBreakerClosedChange true) State.reset).shop.state = .held
      ∧ (after (.mainBreakerClosedChange true)
          (after (.mainBreakerClosedChange false) (circuitTo .cabinet tripped running))).shop.breakerTrip = true := by
  decide +kernel

/-- A deck button held down. -/
def pressedA : State := after (.deckOffPress .a) running

theorem test_witness_deck_off :
    running.powered = true ∧ (running.shop.decks.get .a).level = false ∧ (pressedA.shop.decks.get .a).level = true
      ∧ (pressedA.shop.decks.get .a).timer.isSome = true ∧ (pressedA.shop.decks.get .a).held = false
      ∧ (pressedA.heat.slots.get .a).stopped = true ∧ pressedA.lines.breakerClosed = true
      ∧ (after (.deckOffHold .a) pressedA).shop.breakerTrip = true
      ∧ (after (.deckOffHold .a) pressedA).shop.stuckTimer.isSome = true
      ∧ (after .breakerStuckExpiry (after (.deckOffHold .a) pressedA)).shop.stuck = true
      ∧ ((after (.deckOffRelease .a) pressedA).shop.decks.get .a).timer = none := by
  decide +kernel

theorem test_witness_scanner :
    running.scan.running = true ∧ State.reset.scan.running = false ∧ (chanOf running .coilAOut).status = .valid
      ∧ (chanOf State.reset .coilAOut).status = .stale ∧ Chan.coilAOut.isWater = true
      ∧ (chanOf (after (.waterConversionEnd .coilAOut 613) (due [.coilAOut] running)) .coilAOut).status = .broken
      ∧ chanOf (after (.waterConversionEnd .coilAOut 614) (due [.coilAOut] running)) .coilAOut = good 0
      ∧ chanOf (after (.waterConversionEnd .coilAOut 3515) (due [.coilAOut] running)) .coilAOut = good 1200
      ∧ (chanOf (after (.waterConversionEnd .coilAOut 3516) (due [.coilAOut] running)) .coilAOut).status = .broken
      ∧ (chanOf (after (.channelStale .coilAOut) running) .coilAOut).status = .stale
      ∧ (after .sweepUnit running).scan.unitCount = 2 := by
  decide +kernel

theorem test_witness_readings :
    let reads := fun (code : BitVec 12) (s : State) =>
      circuitOf (after (.waterConversionEnd .coilAOut code) (due [.coilAOut] s)) .coilA
    running.powered = true ∧ loading running = false ∧ running.scan.running = true ∧ chanCircuit .coilAOut = some .coilA
      ∧ (reads 3500 running).cause = some .temp
      ∧ (reads 2000 running).state = .watch
      ∧ (reads 1500 (circuitTo .coilA (circuitIn .init) running)).state = .normal
      ∧ (reads 1500 (circuitTo .coilA { circuitIn .init with latch := true } running)).cause = some .latch
      ∧ (reads 1500 (circuitTo .coilA { circuitIn .derate with derate := runs } running)).recovery = runs
      ∧ (reads 2000 (circuitTo .coilA { circuitIn .derate with recovery := runs } running)).recovery.mode = .stopped
      ∧ (reads 2000 (circuitTo .coilA { circuitIn .derate with
          recovery := runs, derate := { mode := .held, ms := derateTime running * 1000 } } running)).cause
        = some .derateExpiry
      ∧ (reads 1500 coilOut).state = .trip
      ∧ ((after (.waterConversionEnd .leakA 3500) (due [.leakA] running)).ports.p.notices.map
          (fun n => n.detail.kind)) = [.leakWarn, .cooling] := by
  decide +kernel

/-- A timer that is stopped keeps the time it has counted, and starts from 0 (R102); QUERY-PROTECTION shows it (R118). -/
theorem test_stopped_timer_keeps_its_time :
    let reads := fun (code : BitVec 12) (s : State) => after (.waterConversionEnd .coilAOut code) (due [.coilAOut] s)
    let watched := circuitTo .coilA { circuitIn .watch with watch := { mode := .running, ms := 700 } } running
    (circuitOf (reads 1500 watched) .coilA).watch = { mode := .stopped, ms := 700 }
      ∧ (circuitOf (reads 2000 (reads 1500 watched)) .coilA).watch = runs
      ∧ (circuitOf (reads 3500 watched) .coilA).watch = { mode := .stopped, ms := 700 }
      ∧ timerBytes (circuitOf (reads 1500 watched) .coilA).watch = [0, 0, 0, 2, 188] := by
  decide +kernel

/-- A dip in progress with nineteen values taken. -/
def dipping : State :=
  setDip .a
    { state := .sampling, level := true, startedAt := 0, timer := some 0, samples := 19, openCount := 0,
      window := List.replicate 19 1450 } (deckA ready)

/-- A dip whose first three samples were OPEN. -/
def openTip : State :=
  setDip .a
    { state := .sampling, level := true, startedAt := 0, timer := some 0, samples := 3, openCount := 3, window := [] }
    (deckA ready)

theorem test_witness_dip_sample :
    (running.scan.dips.get .a).state ≠ .sampling ∧ (dipping.scan.dips.get .a).state = .sampling
      ∧ 4072 ≤ (4072#12).toNat ∧ (4071#12).toNat < 4072
      ∧ ((after (.dipSample .a 4072) (due [.dipA] openTip)).scan.dips.get .a).state = .waitRelease
      ∧ ((after (.dipSample .a 4072) (due [.dipA] dipping)).scan.dips.get .a).window = []
      ∧ ((after (.dipSample .a 3300) (due [.dipA] dipping)).scan.dips.get .a).state = .waitRelease
      ∧ ((heatOf (after (.dipSample .a 3300) (due [.dipA] dipping)) .a).bind Heat.lastDip) = some { temp := 1450, second := 0 }
      ∧ ((after (.dipSample .a 3400) (due [.dipA] dipping)).scan.dips.get .a).window.length = 20
      ∧ .freeze .a 7 ∈ told .a (.dipSample .a 2685) (due [.dipA] (setDip .a { dipping.scan.dips.a with
          window := List.replicate 19 1180 } dipping))
      ∧ heatOf (setSlot .a .empty dipping) .a = none := by
  decide +kernel

theorem test_witness_lance :
    (running.scan.dips.get .a).level = false ∧ (running.scan.dips.get .a).state = .idle ∧ loading running = false
      ∧ (chanOf running (dipChan .a)).status ≠ .off
      ∧ (chanOf (setChannel .dipA (flagRecord false) running) (dipChan .a)).status = .off
      ∧ ((after (.lanceContact .a) running).scan.dips.get .a).state = .sampling
      ∧ ((after (.lanceLift .a) dipping).scan.dips.get .a).state = .idle
      ∧ ((after (.dipTimerExpiry .a) dipping).scan.dips.get .a).state = .waitRelease
      ∧ (dipping.scan.dips.get .a).level = true := by
  decide +kernel

/-- A circuit watched, with its timer running. -/
def watched : State := circuitTo .coilA { circuitIn .watch with watch := runs } running

/-- A derated circuit with a derate timer. -/
def derated : State := circuitTo .coilA { circuitIn .derate with derate := runs } running

theorem test_witness_circuit_timers :
    (circuitOf watched .coilA).state = .watch ∧ (circuitOf watched .coilA).watch.mode = .running
      ∧ (circuitOf derated .coilA).derate.mode = .running
      ∧ (circuitOf (after (.watchTimerExpiry .coilA) watched) .coilA).state = .derate
      ∧ (circuitOf (after (.derateTimerExpiry .coilA) derated) .coilA).cause = some .derateExpiry
      ∧ (circuitOf (after (.recoveryTimerExpiry .coilA)
          (circuitTo .coilA { circuitIn .derate with recovery := runs } running)) .coilA).state = .normal
      ∧ (circuitOf (after (.watchTimerExpiry .coilA) running) .coilA).state = .normal := by
  decide +kernel

/-- A circuit watched, with a timer that has counted some time. -/
def watchedFor (mode : TimerMode) (ms : Nat) (s : State) : State :=
  circuitTo .coilA { circuitIn .watch with watch := { mode := mode, ms := ms } } (setChannel .coilAFlow (good 350) s)

theorem test_witness_loop_timers :
    (circuitOf (after (.mainPumpRunChange false) (watchedFor .running 1200 running)) .coilA).watch
        = { mode := .held, ms := 1200 }
      ∧ (circuitOf (after .settleTimerExpiry (watchedFor .held 1200 (loopIn .changeover running))) .coilA).watch
        = { mode := .running, ms := 1200 }
      ∧ (circuitOf (after .settleTimerExpiry (watchedFor .held 2000 (loopIn .changeover running))) .coilA).state = .derate
      ∧ (circuitOf (after (.pumpReturn .a 0 []) (watchedFor .running 1200 (loopIn .standby running))) .coilA).watch
        = { mode := .running, ms := 1200 } := by
  decide +kernel

theorem test_witness_loop :
    running.lines.mainPumpRun = true ∧ running.prot.loop.state = some .main ∧ running.lines.standbyRun = true
      ∧ (after (.mainPumpRunChange false) running).prot.loop.state = some .changeover
      ∧ (after (.standbyRunChange false) (loopIn .standby running)).prot.loop.state = some .loopFail
      ∧ (after .pressureTimerExpiry (pressed running)).prot.loop.state = some .changeover
      ∧ (after .pressureTimerExpiry (pressed (loopIn .standby running))).prot.loop.state = some .loopFail
      ∧ (loopIn .changeover running).prot.loop.settle.isSome = true ∧ pressureGood running = true
      ∧ (after .settleTimerExpiry (loopIn .changeover running)).prot.loop.state = some .standby
      ∧ (after .settleTimerExpiry (setChannel .loopPress (good 249) (loopIn .changeover running))).prot.loop.state
        = some .loopFail := by
  decide +kernel

theorem test_witness_stage_shop_notice_laws : StageLaw running ∧ ShopLaw running ∧ NoticeLaw running := by
  unfold StageLaw ShopLaw HeldBack NoticeLaw PortLaw; decide +kernel

theorem test_witness_protection_law : ProtectionLaw running := by
  unfold ProtectionLaw CircuitLaw TimersStopped NoTimerRuns
  refine ⟨?_, ?_, ?_, ?_, ?_, ?_, ?_, ?_⟩ <;> decide +kernel

theorem test_witness_tap_law_pending : TapLaw waiting := by
  unfold TapLaw QueueLaw PermitLawOf; decide +kernel

theorem test_witness_tap_law_granted : TapLaw allowed := by
  unfold TapLaw QueueLaw PermitLawOf; decide +kernel

theorem test_witness_mass_law : MassLaw waiting := by
  have permit : waiting.tap.permit = some pending := by decide +kernel
  refine ⟨test_witness_tap_law_pending, ?_, ?_, ?_⟩
  · unfold MassLawOf HeatMassLaw; decide +kernel
  · unfold MassLawOf HeatMassLaw; decide +kernel
  · intro p hp w hw
    rw [permit] at hp
    cases hp
    cases hw

/-- The state with a value written to a setting. -/
def written (n value : Nat) (s : State) : State := after (.writeSetting .p 0 (BitVec.ofNat 8 n :: be2 value)) s

theorem test_witness_flag_taken_up :
    let t := written 55 0 dipping
    chanOf t .coilAOut = { status := .off, value := none, updatedAt := none } ∧ t.scan.unitCount = 1
      ∧ t.scan.plan = [.coilBOut, .cabOut, .loopPress, .coilAFlow] ∧ (t.scan.dips.get .a).state = .waitRelease
      ∧ (t.ports.a.notices.filter (fun n => n.detail.kind == .dipFailed)).map (fun n => n.detail)
        = [.dipFailed .a 7 .scanRestart 19]
      ∧ (chanOf (written 55 1 (after (.answerSent .p) t)) .coilAOut).status = .stale := by
  decide +kernel

theorem test_witness_protection_taken_up :
    (circuitOf (written 35 310 (setChannel .coilAFlow (good 305) running)) .coilA).cause = some .flow
      ∧ (circuitOf (written 33 510 running) .coilA).state = .watch
      ∧ (circuitOf (written 44 1 (setChannel .coilAFlow (good 350)
          (circuitTo .coilA { circuitIn .watch with watch := { runs with ms := 1500 } } running))) .coilA).state = .derate
      ∧ (written 43 401 running).prot.loop.pressure = some 0
      ∧ (written 43 400 (pressed running)).prot.loop.pressure = none
      ∧ (written 47 2 { running with prot := { running.prot with loop :=
          { running.prot.loop with state := some .changeover, settle := some 3000 } } }).prot.loop.state = some .standby := by
  decide +kernel

theorem test_witness_heats_taken_up :
    let cold := written 20 1400 (deckA (heatIn .holding (some 1250)))
    ((heatOf cold .a).bind Heat.estimate) = some 1400 ∧ ((heatOf cold .a).map Heat.freeze) = some true
      ∧ ((heatOf cold .a).map Heat.holdTarget) = some 1450
      ∧ ((heatOf (written 19 800 (deckA { ready with accumulator := 8200 })) .a).map Heat.accumulator) = some 8000
      ∧ ((written 2 4000 (after (.setMeltPower .a 0 [0x11, 0x94]) (deckA melting))).allot.out.get .a).meltRequest
        = 4000
      ∧ (written 49 5 (tapIn [entry 1 (some .a)] (some { pending with confirm := some 6000 }) (deckA ready))).tap.permit
        = none := by
  decide +kernel

/-- Channel 3 starts and stops the pressure timer, and a channel that goes STALE moves its circuit. -/
theorem test_witness_readers :
    let reads := fun (code : BitVec 12) (s : State) =>
      (after (.waterConversionEnd .loopPress code) (due [.loopPress] s)).prot.loop.pressure
    reads 800 running = some 0 ∧ reads 800 (pressed running) = some 1000 ∧ reads 3000 (pressed running) = none
      ∧ reads 3000 (pressed (loopIn .standby running)) = none
      ∧ (after (.channelStale .loopPress) (pressed running)).prot.loop.pressure = none
      ∧ (circuitOf (after (.channelStale .coilAOut) running) .coilA).state = .watch := by
  decide +kernel

/-- A lance contact does not bring back a place that the unit in progress has passed. -/
theorem test_passed_place_stays_passed :
    let during := due [.dipA, .dipB] (setDip .b { dipping.scan.dips.a with window := [], samples := 0 } running)
    dueConversion during = some .dipB ∧ dueConversion (after (.lanceContact .a) during) = some .dipB
      ∧ ((after (.dipSample .b 3300) (after (.lanceContact .a) during)).scan.dips.get .b).samples = 1 := by
  decide +kernel

/-- The load's end brings the heats up to the shop second, fits them to the settings and posts FREEZE. -/
theorem test_witness_load_catches_up :
    let off := fun (h : Heat) =>
      let s := setHeat .a h State.reset
      after (.settingsLoadEnd false) { s with clock := { s.clock with shopSeconds := 100 } }
    ((heatOf (off melting) .a).map Heat.remaining) = some 9000
      ∧ ((heatOf (off { melting with totalMelt := 90000 }) .a).map Heat.remaining) = some 23000
      ∧ ((heatOf (off (heatIn .holding (some 1420))) .a).bind Heat.estimate) = some 1417
      ∧ ((heatOf (off (heatIn .holding (some 1100))) .a).bind Heat.estimate) = some 1170
      ∧ ((off (heatIn .holding (some 1100))).ports.a.notices.any (fun n => n.detail == .freeze .a 7)) = true := by
  decide +kernel

theorem test_witness_bounds_power_law : PowerLaw (allocate coilOut) ∧ PowerLaw (allocate derated) := by
  refine ⟨allocate_powerLaw _ (by decide +kernel) ?_ fun f => ?_, allocate_powerLaw _ (by decide +kernel) ?_ fun f => ?_⟩
  · unfold PairHandedOver; decide +kernel
  · cases f <;> exact pulseRule_of_other (by decide +kernel) (by decide +kernel)
  · unfold PairHandedOver; decide +kernel
  · cases f <;> exact pulseRule_of_other (by decide +kernel) (by decide +kernel)

/-- A tripped circuit beside two that work: the premise of the enable lines, and the protection law. -/
theorem test_witness_tripped_law :
    ProtectionLaw (allocate coilOut) ∧ OffDrawsNothing (deckA ready) ∧ TripsHeldDown (allocate coilOut) := by
  refine ⟨?_, fun f => ?_, TripsHeldDown.of_powerLaw test_witness_bounds_power_law.1⟩
  · unfold ProtectionLaw CircuitLaw TimersStopped NoTimerRuns
    refine ⟨?_, ?_, ?_, ?_, ?_, ?_, ?_, ?_⟩ <;> decide +kernel
  · cases f <;> decide +kernel

/-- A step leads on from the states of the law witnesses. -/
theorem test_witness_steps : (∃ t, step running = .next t) ∧ (∃ t, step waiting = .next t)
    ∧ ∃ t, step (deckA ready) = .next t := ⟨⟨_, rfl⟩, ⟨_, rfl⟩, ⟨_, rfl⟩⟩

theorem test_witness_table_law : TableLaw (deckA ready) := by
  refine ⟨by decide +kernel, by decide +kernel, ?_⟩
  have inA : heatOf (deckA ready) .a = some ready := by decide +kernel
  have inB : heatOf (deckA ready) .b = none := by decide +kernel
  intro f h hh
  cases f
  · rw [inA] at hh
    cases hh
    decide
  · rw [inB] at hh
    cases hh

/-- The conversion that the unit reaches next: channels that are OFF are passed over. -/
theorem test_witness_due_next :
    DueNext (due [.dipA, .coilAOut, .loopPress] running) .coilAOut [.loopPress] ∧ DueNext (due [.dipA] dipping) .dipA []
      ∧ ∀ behind, ¬ DueNext running .coilAOut behind := by
  refine ⟨⟨1, by decide, by decide, ?_, ?_⟩, ⟨0, by decide, by decide, ?_, ?_⟩, fun behind h => ?_⟩
  · unfold UnitReaches; decide +kernel
  · unfold UnitReaches; decide +kernel
  · unfold UnitReaches; decide +kernel
  · unfold UnitReaches; decide +kernel
  · obtain ⟨n, low, -⟩ := h
    exact absurd low (Nat.not_lt_zero n)

/-- A conversion out of the unit's order changes nothing. -/
theorem test_conversion_not_due :
    after (.waterConversionEnd .loopPress 2000) (due [.coilAOut, .loopPress] running)
        = due [.coilAOut, .loopPress] running
      ∧ after (.dipSample .a 3300) dipping = dipping := ⟨rfl, rfl⟩

/-- A change of SHED sets the budget anew while the settings are being loaded. -/
theorem test_shed_while_loading :
    State.reset.allot.budget = 2000 ∧ (after (.shedChange false) State.reset).allot.budget = 6000 := by decide +kernel

/-- The kinds kept are listed as the request names them; one cleared at its first naming is not pending at the second
(log 30). -/
theorem test_ack_order :
    (clearKinds ((post (.shopState .run noReasons .floor) (post (coolingDetail coilOut) noticed)).ports.get .a)
      [(.shopState, 9), (.cooling, 0), (.link, 9), (.cooling, 9)]).2 = ([.shopState, .link], [.cooling]) := by
  decide +kernel

/-- A level kind whose condition holds is posted again with a new serial. -/
theorem test_ack_posts_again :
    ((after (.ackNotices .a 0 [12, 0, 0]) (post (coolingDetail coilOut) coilOut)).ports.a.notices.map
      (fun n => (n.detail.kind, n.serial))) = [(.cooling, 2)] := by decide +kernel

/-- READ-LOG of a number answers the number of the next newer summary. -/
theorem test_read_log_next :
    ((after (.readLog .a 0 [0, 7]) logged).ports.a.answer.map (fun r => r.body.drop (r.body.length - 2))) = some [0, 8] := by
  decide +kernel

/-- A millisecond and the shop second. -/
theorem test_time_counts :
    owed running = [] ∧ (tick running).clock.ms = 1 ∧ (tick running).stage.deadline = some 1
      ∧ (tick { running with clock := { running.clock with subMs := 999 } }).clock.shopSeconds = 1
      ∧ owed (tick { running with clock := { running.clock with subMs := 999 } })
        = [.estimatorSecond .a, .estimatorSecond .b, .readinessSecond] := by decide +kernel

theorem test_witness_bounds :
    (circuitOf coilOut .coilA).state = .trip ∧ (circuitOf derated .coilA).state = .derate ∧ tiltOf tipping .a ≠ .home
      ∧ (pulsing.allot.out.get .a).mode = .pulse ∧ TapLaw (allocate coilOut) := by
  unfold TapLaw QueueLaw PermitLawOf; decide +kernel

theorem test_witness_settings_range : WorkingInRange Config.settingDefaults ∧ (0 : Nat) ≤ 20000 := by
  have each : ∀ k ∈ List.range 65, SettingInRange Config.settingDefaults (k + 1) := by
    unfold SettingInRange; decide +kernel
  refine ⟨⟨by decide, fun n low high => ?_⟩, by decide⟩
  have here := each (n - 1) (List.mem_range.2 (by omega))
  rwa [Nat.sub_add_cancel low] at here

theorem test_witness_settings_law : SettingsLaw running := by
  refine ⟨test_witness_settings_range.1, by decide +kernel, fun f => ?_⟩
  cases f <;> decide +kernel

end Sys2Proof.Tests
end

section
/-! LINK-RESTART and the REPORT that follows it (R84, R80, R81): what the handler gives in each link state, that the
stage's records stand through a grant and the follow-up, and that a valid REPORT brings a quiet link UP. -/

namespace Sys2Proof.Machine

/-! ### A request that its port may not make -/

/-- The fourth case of R142: a request of the right length from a port without the permission is turned away. -/
theorem request_notPermitted (k : RequestKind) (q : Port) (tag : Byte) (body : List Byte) (s : State) (r : Ready q s)
    (len : k.lengthOk body.length = true) (barred : permitted k q body = false) :
    exec (commandOf k q tag body) s = .next (answered k q tag body (replyRefused .notPermitted) s) := by
  obtain ⟨on, loaded, free⟩ := r
  have loaded' : loading (dropAssembly q s) = false := loaded
  have code : RequestKind.ofCode (requestFrame k tag body).kind.toNat = some k := RequestKind.ofCode_code k
  have hasBody : (requestFrame k tag body).body = body := rfl
  have turned : answerTo q (requestFrame k tag body) (dropAssembly q s) = refuse .notPermitted (dropAssembly q s) := by
    unfold answerTo
    simp [loaded', code, hasBody, len, barred]
  rw [exec_commandOf, request_taken k q tag body s on free, turned]
  exact congrArg _ (putAnswer_dropAssembly q _ _ s)

/-! ### What leaves the stage's records alone -/

@[simp] theorem editHeat_stage (f : Furnace) (g : Heat → Heat) (s : State) : (editHeat f g s).stage = s.stage := by
  cases e : heatOf s f with
  | none => rw [editHeat_none g e]
  | some h => rw [editHeat_some g e, setHeat_stage]

@[simp] theorem grantPermit_stage (p : Permit) (s : State) : (grantPermit p s).stage = s.stage := by
  simp [grantPermit]

@[simp] theorem confirmTap_stage (out : PerFurnace ReportOutput) (s : State) : (confirmTap out s).stage = s.stage := by
  unfold confirmTap
  split
  · split
    · exact grantPermit_stage _ s
    · rfl
  · rfl

@[simp] theorem handDelivered_stage (f : Furnace) (kw : Nat) (s : State) : (handDelivered f kw s).stage = s.stage := rfl

theorem StageHanded.babble {x y : Stage} (h : StageHanded x y) : y.babble = x.babble := by rw [h]

/-- The follow-up of a change hands at most a pair to the stage, also while the settings are being loaded. -/
theorem recompute_stageHanded (s : State) : StageHanded s.stage (recompute s).stage := by
  cases l : loading s with
  | true =>
    rw [recompute_loading s l]
    exact StageHanded.refl _
  | false =>
    obtain ⟨-, -, handed, -⟩ := recompute_coordinated s l
    exact handed

theorem Coordinated.powered {kinds : List NoticeKind} {s t : State} (h : Coordinated kinds s t) :
    t.powered = s.powered := by rw [h.1]

theorem Coordinated.clock {kinds : List NoticeKind} {s t : State} (h : Coordinated kinds s t) : t.clock = s.clock := by
  rw [h.1]

theorem Coordinated.loading {kinds : List NoticeKind} {s t : State} (h : Coordinated kinds s t) :
    loading t = loading s := by
  have sett : t.sett = s.sett := by rw [h.1]
  unfold Machine.loading
  rw [sett]

/-! ### A valid REPORT (R80, R81) -/

/-- A REPORT with both statuses known and both powers in range has valid contents. -/
theorem reportContents_valid {deliveredA deliveredB : BitVec 16} {statusA statusB : Byte} {ra rb : OutputStatus}
    (rangeA : deliveredA.toNat ≤ 9999) (rangeB : deliveredB.toNat ≤ 9999) (knownA : statusOf statusA = some ra)
    (knownB : statusOf statusB = some rb) :
    reportContents deliveredA statusA deliveredB statusB
      = some ⟨{ delivered := deliveredA.toNat, status := ra }, { delivered := deliveredB.toNat, status := rb }⟩ := by
  simp [reportContents, knownA, knownB, rangeA, rangeB]

theorem exec_report (deliveredA : BitVec 16) (statusA : Byte) (deliveredB : BitVec 16) (statusB : Byte) (s : State)
    (on : s.powered = true) :
    exec (.report deliveredA statusA deliveredB statusB) s
      = .next (receiveReport (reportContents deliveredA statusA deliveredB statusB) (setStageAssembly [] s)) := by
  show live (receiveStageFrame 0x81#8 (reportBody deliveredA statusA deliveredB statusB)) s = _
  rw [live_powered _ _ on, receiveStageFrame_report]

theorem receiverClosed_eq_false {s : State} (loaded : loading s = false) (working : s.stage.link ≠ .fault) :
    receiverClosed s = false := by
  simp [receiverClosed, loaded, working]

/-- With no earlier arrival on record no frame babbles. -/
theorem babbles_of_no_record {s : State} (quiet : s.stage.babble = []) : babbles s = false := by
  simp [babbles, quiet]

/-- A REPORT taken brings the link UP from whatever state, and is the last report. -/
theorem takeReport_stage (out : PerFurnace ReportOutput) (s : State) :
    (takeReport out s).stage.link = .up
      ∧ (takeReport out s).stage.last = some { out := out, takenAt := s.clock.ms } := by
  have handed := recompute_stageHanded
  unfold takeReport
  dsimp only
  rw [(handed _).link, (handed _).last, confirmTap_stage, handDelivered_stage, handDelivered_stage]
  split
  · next up => exact ⟨up, rfl⟩
  · exact ⟨rfl, rfl⟩

/-- A valid REPORT to an open receiver with an empty babble record is taken. -/
theorem report_brings_up {deliveredA deliveredB : BitVec 16} {statusA statusB : Byte} {ra rb : OutputStatus} {s : State}
    (on : s.powered = true) (loaded : loading s = false) (working : s.stage.link ≠ .fault) (quiet : s.stage.babble = [])
    (rangeA : deliveredA.toNat ≤ 9999) (rangeB : deliveredB.toNat ≤ 9999) (knownA : statusOf statusA = some ra)
    (knownB : statusOf statusB = some rb) :
    ∃ u, exec (.report deliveredA statusA deliveredB statusB) s = .next u ∧ u.stage.link = .up
      ∧ u.stage.last = some
          { out := ⟨{ delivered := deliveredA.toNat, status := ra }, { delivered := deliveredB.toNat, status := rb }⟩
            takenAt := s.clock.ms } := by
  have opened : receiverClosed (setStageAssembly [] s) = false := receiverClosed_eq_false loaded working
  have still : babbles (setStageAssembly [] s) = false := babbles_of_no_record quiet
  refine ⟨_, exec_report _ _ _ _ s on, ?_⟩
  rw [reportContents_valid rangeA rangeB knownA knownB]
  unfold receiveReport
  rw [opened, still]
  exact takeReport_stage _ _

/-! ### LINK-RESTART (R84) -/

/-- The state with the restart of the link written in. -/
def linkRestarted (s : State) : State := { s with stage := { s.stage with link := .down, babble := [] } }

/-- The state with the restart written in, LINK posted and the allotment following. -/
def linkFollowed (s : State) : State := recompute (post (.link .down .restart) (linkRestarted s))

theorem handleLinkRestart_fault (q : Port) (body : List Byte) {s : State} (fault : s.stage.link = .fault) :
    handleLinkRestart q body s = (linkFollowed s, replyDone []) := if_pos fault

theorem handleLinkRestart_working (q : Port) (body : List Byte) {s : State} (working : s.stage.link ≠ .fault) :
    handleLinkRestart q body s = (s, replyRefused .wrongState) := if_neg working

theorem linkFollowed_coordinated (s : State) (loaded : loading s = false) :
    Coordinated [.link] (linkRestarted s) (linkFollowed s) :=
  Coordinated.after_notices (x := post (.link .down .restart) (linkRestarted s)) rfl (post_noted _ _)
    (recompute_coordinated _ loaded)

theorem linkFollowed_noticed (s : State) : Noticed (.link .down .restart) (linkFollowed s) :=
  (post_noticed _ _).keep (recompute_noted _) (by decide)

theorem linkFollowed_stageHanded (s : State) : StageHanded (linkRestarted s).stage (linkFollowed s).stage :=
  recompute_stageHanded (post (.link .down .restart) (linkRestarted s))

theorem lengthOk_linkRestart {body : List Byte} (empty : body.length = 0) :
    RequestKind.linkRestart.lengthOk body.length = true := by
  rw [empty]
  rfl

/-- R143 gives LINK-RESTART to both decks. -/
theorem permitted_linkRestart_deck {q : Port} (deck : q ≠ .p) (body : List Byte) :
    permitted .linkRestart q body = true := by
  cases q with
  | a => rfl
  | b => rfl
  | p => exact absurd rfl deck

/-- From a deck in FAULT: the restarted state with its answer, followed up. -/
theorem exec_linkRestart_fault (q : Port) (tag : Byte) (body : List Byte) (s : State) (ready : Ready q s)
    (empty : body.length = 0) (deck : q ≠ .p) (fault : s.stage.link = .fault) :
    exec (.linkRestart q tag body) s
      = .next (putAnswer q (requestFrame .linkRestart tag body) (replyDone []) (linkFollowed (dropAssembly q s))) := by
  have done : handle .linkRestart q body (dropAssembly q s) = (linkFollowed (dropAssembly q s), replyDone []) :=
    handleLinkRestart_fault q body fault
  have handled := request_handled .linkRestart q tag body s ready (lengthOk_linkRestart empty)
    (permitted_linkRestart_deck deck body)
  rw [done] at handled
  exact handled

/-- What the restart leaves to the follow-up does not read the answer. -/
theorem linkRestart_coordinated (q : Port) (tag : Byte) (body : List Byte) (s : State) (loaded : loading s = false) :
    Coordinated [.link] (answered .linkRestart q tag body (replyDone []) (linkRestarted s))
      (putAnswer q (requestFrame .linkRestart tag body) (replyDone []) (linkFollowed (dropAssembly q s))) := by
  have followed := (linkFollowed_coordinated (dropAssembly q s) loaded).answer q (requestFrame .linkRestart tag body)
    (replyDone [])
  have start : putAnswer q (requestFrame .linkRestart tag body) (replyDone []) (linkRestarted (dropAssembly q s))
      = answered .linkRestart q tag body (replyDone []) (linkRestarted s) :=
    putAnswer_dropAssembly q _ _ (linkRestarted s)
  rw [start] at followed
  exact followed

/-- Settles O23: a fault is left for DOWN by the follow-up of one change of the stage, and the emptied babble record lets
the next valid REPORT through; in the other link states, and from the Pour Line, the request is refused. -/
theorem linkRestartLeavesFault : Obligations.LinkRestartLeavesFault := by
  intro q tag body deliveredA statusA deliveredB statusB s ready empty
  refine ⟨fun deck fault => ?_, fun deck working => ?_, fun pourLine => ?_⟩
  · have ⟨on, loaded, _⟩ := ready
    have followed := linkRestart_coordinated q tag body s loaded
    have stage := linkFollowed_stageHanded (dropAssembly q s)
    have noticed := linkFollowed_noticed (dropAssembly q s)
    refine ⟨_, exec_linkRestart_fault q tag body s ready empty deck fault, followed, stage.last, noticed.answer q _ _, ?_⟩
    intro rangeA rangeB ra knownA rb knownB
    have down : (linkFollowed (dropAssembly q s)).stage.link = .down := stage.link
    have reported := report_brings_up (followed.powered.trans on) (followed.loading.trans loaded)
      (by rw [putAnswer_stage, down]; decide) stage.babble rangeA rangeB knownA knownB
    rw [followed.clock] at reported
    exact reported
  · exact request_unchanged .linkRestart q tag body s ready (lengthOk_linkRestart empty)
      (permitted_linkRestart_deck deck body) _ (handleLinkRestart_working q body working)
  · subst pourLine
    exact request_notPermitted .linkRestart .p tag body s ready (lengthOk_linkRestart empty) rfl

end Sys2Proof.Machine
end

section
/-! TAP-OPEN and CANCEL-TAP (R125, R128, R135): what each handler gives in each of its cases, and that a change of the tap
queue or the permit with its answer, followed up, stands in the frame of the statements. -/

namespace Sys2Proof.Machine

/-! ### A request that changes the Tap Coordinator -/

/-- The answer put on a changed Tap Coordinator does not read that the assembly has been emptied before. -/
theorem putAnswer_dropAssembly_tap (k : RequestKind) (q : Port) (tag : Byte) (body : List Byte) (reply : Reply) (x : Tap)
    (s : State) :
    putAnswer q (requestFrame k tag body) reply { dropAssembly q s with tap := x }
      = answered k q tag body reply { s with tap := x } :=
  putAnswer_dropAssembly q _ _ { s with tap := x }

/-- A handler that changes the Tap Coordinator alone, with no follow-up. -/
theorem request_setsTap (k : RequestKind) (q : Port) (tag : Byte) (body : List Byte) (s : State) (r : Ready q s)
    (len : k.lengthOk body.length = true) (may : permitted k q body = true) (reply : Reply) (x : Tap)
    (h : handle k q body (dropAssembly q s) = ({ dropAssembly q s with tap := x }, reply)) :
    exec (commandOf k q tag body) s = .next (answered k q tag body reply { s with tap := x }) := by
  rw [request_handled k q tag body s r len may, h, putAnswer_dropAssembly_tap]

/-- A handler that gives the follow-up of a changed Tap Coordinator: so does the request, with its answer. -/
theorem request_followsTap (k : RequestKind) (q : Port) (tag : Byte) (body : List Byte) (s : State) (r : Ready q s)
    (len : k.lengthOk body.length = true) (may : permitted k q body = true) (reply : Reply) (x : Tap) {t : State}
    {kinds : List NoticeKind} (h : handle k q body (dropAssembly q s) = (t, reply))
    (followed : Coordinated kinds { dropAssembly q s with tap := x } t) :
    exec (commandOf k q tag body) s = .next (putAnswer q (requestFrame k tag body) reply t)
      ∧ Coordinated kinds (answered k q tag body reply { s with tap := x })
          (putAnswer q (requestFrame k tag body) reply t) := by
  refine ⟨by rw [request_handled k q tag body s r len may, h], ?_⟩
  rw [← putAnswer_dropAssembly_tap]
  exact followed.answer q _ reply

/-! ### The follow-up of a request to match (R122) -/

/-- No frame reads the request to match, which lives within one step. -/
theorem Coordinated.of_asked {kinds : List NoticeKind} {s t : State} (h : Coordinated kinds (askMatching s) t) :
    Coordinated kinds s t := h

theorem recompute_matched {s : State} (loaded : loading s = false) (due : s.tap.matchDue = true) :
    Matched (recompute s) := by
  obtain ⟨-, -, -, -, -, -, -, matched⟩ := coordinate_frame s
  unfold recompute
  rw [if_neg (by rw [loaded]; decide)]
  exact matched due

/-- A state that asks for matching, followed up. -/
theorem recompute_asked {s : State} (loaded : loading s = false) :
    Coordinated [] s (recompute (askMatching s)) ∧ Matched (recompute (askMatching s)) :=
  ⟨(recompute_coordinated (askMatching s) loaded).of_asked, recompute_matched loaded rfl⟩

/-- A notice posted with the request to match stays through the follow-up, unless it is one that the follow-up can post. -/
theorem recompute_asked_post {d : Detail} {s : State} (loaded : loading s = false) (out : d.kind ∉ matchKinds) :
    Coordinated [d.kind] s (recompute (post d (askMatching s))) ∧ Matched (recompute (post d (askMatching s)))
      ∧ Noticed d (recompute (post d (askMatching s))) := by
  have followed := recompute_coordinated (post d (askMatching s)) loaded
  exact ⟨(Coordinated.after_notices rfl (post_noted d (askMatching s)) followed).of_asked, recompute_matched loaded rfl,
    (post_noticed d _).keep (recompute_noted _) out⟩

/-! ### TAP-OPEN (R125, R128) -/

theorem lengthOk_tapOpen {body : List Byte} (empty : body.length = 0) :
    RequestKind.tapOpen.lengthOk body.length = true := by
  rw [empty]
  rfl

/-- R143 gives TAP-OPEN to both decks. -/
theorem permitted_tapOpen_deck {q : Port} {f : Furnace} (deck : portFurnace q = some f) (body : List Byte) :
    permitted .tapOpen q body = true := by
  cases q with
  | a => rfl
  | b => rfl
  | p => cases deck

theorem onDeck_eq {q : Port} {f : Furnace} (deck : portFurnace q = some f) (g : Furnace → State → State × Reply)
    (s : State) : onDeck q g s = g f s := by
  unfold onDeck
  rw [deck]

section TapOpenCases

variable {q : Port} {f : Furnace} {s : State} (deck : portFurnace q = some f) (body : List Byte)

include deck

theorem handleTapOpen_pending {p : Permit} (held : s.tap.permit = some p) (mine : p.furnace = f)
    (pending : p.state = .pending) : handleTapOpen q body s = (s, replyPending) := by
  unfold handleTapOpen
  simp [onDeck_eq deck, held, mine, pending]

theorem handleTapOpen_granted {p : Permit} (held : s.tap.permit = some p) (mine : p.furnace = f)
    (granted : p.state = .granted) : handleTapOpen q body s = (s, replyDone []) := by
  unfold handleTapOpen
  simp [onDeck_eq deck, held, mine, granted]

theorem handleTapOpen_busy {p : Permit} (held : s.tap.permit = some p) (other : p.furnace ≠ f) :
    handleTapOpen q body s = (s, replyRetry .permitBusy) := by
  unfold handleTapOpen
  simp [onDeck_eq deck, held, other]

theorem handleTapOpen_kept {r : Reason} (free : s.tap.permit = none) (kept : s.tap.kept.get f = some r) :
    handleTapOpen q body s = (setKept f none s, replyRefused r) := by
  unfold handleTapOpen
  simp [onDeck_eq deck, free, kept]

theorem handleTapOpen_assigned {e : Entry} (free : s.tap.permit = none) (kept : s.tap.kept.get f = none)
    (assigned : assignedTo s f = some e) :
    handleTapOpen q body s = (recompute (recordPending f e s), replyPending) := by
  unfold handleTapOpen
  simp [onDeck_eq deck, free, kept, assigned]

theorem handleTapOpen_notReady (free : s.tap.permit = none) (kept : s.tap.kept.get f = none)
    (unassigned : assignedTo s f = none) : handleTapOpen q body s = (s, replyRefused .notReady) := by
  unfold handleTapOpen
  simp [onDeck_eq deck, free, kept, unassigned, refuse]

end TapOpenCases

/-- Both kept resolutions once removed stay so: an assignment removes them too (R128). -/
theorem Coordinated.kept_none {kinds : List NoticeKind} {s t : State} (h : Coordinated kinds s t)
    (cleared : s.tap.kept = ⟨none, none⟩) : t.tap.kept = ⟨none, none⟩ := by
  obtain ⟨-, -, -, ⟨-, -, kept⟩, -⟩ := h
  refine PerFurnace.ext_get fun f => ?_
  rcases kept f with same | ⟨gone, -⟩
  · rw [same, cleared]
  · rw [gone, PerFurnace.get_mk, ite_self]

/-- The Tap Coordinator with a pending permit recorded on an entry. -/
def pendingRecorded (f : Furnace) (e : Entry) (s : State) : Tap :=
  { s.tap with
    kept := ⟨none, none⟩
    permit := some
      { state := .pending, furnace := f, requestId := e.id, pendingAt := s.clock.shopSeconds, confirm := some 0,
        grantedAt := none, use := none, forwardAt := none, homeAt := none, tap := none, weightWait := none,
        weight := none, longPosted := false } }

theorem recordPending_eq (f : Furnace) (e : Entry) (s : State) :
    recordPending f e s = { s with tap := pendingRecorded f e s } := rfl

/-- Settles O15: each case is one equation of the handler. Only the fifth is followed up, and there neither kept resolution
comes back. -/
theorem tapOpenAnsweredByCases : Obligations.TapOpenAnsweredByCases := by
  intro q tag body s ready empty f deck
  have len := lengthOk_tapOpen empty
  have may := permitted_tapOpen_deck deck body
  have unchanged := request_unchanged .tapOpen q tag body s ready len may
  refine ⟨fun p held => ⟨fun mine pending => ?_, fun mine granted => ?_, fun other => ?_⟩,
    fun free => ⟨fun r kept => ?_, fun kept e assigned => ?_, fun kept unassigned => ?_⟩⟩
  · exact unchanged _ (handleTapOpen_pending deck body held mine pending)
  · exact unchanged _ (handleTapOpen_granted deck body held mine granted)
  · exact unchanged _ (handleTapOpen_busy deck body held other)
  · exact request_setsTap .tapOpen q tag body s ready len may _ _ (handleTapOpen_kept deck body free kept)
  · have ⟨_, loaded, _⟩ := ready
    have done := handleTapOpen_assigned (s := dropAssembly q s) deck body free kept assigned
    have followed := recompute_coordinated (recordPending f e (dropAssembly q s)) loaded
    obtain ⟨run, frame⟩ := request_followsTap .tapOpen q tag body s ready len may _ (pendingRecorded f e s) done followed
    exact ⟨_, run, frame, frame.kept_none rfl⟩
  · exact unchanged _ (handleTapOpen_notReady deck body free kept unassigned)

/-! ### CANCEL-TAP (R135) -/

theorem lengthOk_cancelTap {body : List Byte} (one : body.length = 1) :
    RequestKind.cancelTap.lengthOk body.length = true := by
  rw [one]
  rfl

theorem permitOfEntry_none {s : State} {id : Nat} (h : ∀ p ∈ s.tap.permit, p.requestId ≠ id) :
    permitOfEntry s id = none := by
  unfold permitOfEntry
  cases held : s.tap.permit with
  | none => rfl
  | some p => exact if_neg (h p held)

theorem permitOfEntry_some {s : State} {id : Nat} {p : Permit} (held : s.tap.permit = some p) (same : p.requestId = id) :
    permitOfEntry s id = some p := by
  unfold permitOfEntry
  rw [held]
  exact if_pos same

section CancelTapCases

variable (q : Port) {body : List Byte} {s : State}

theorem handleCancelTap_noEntry (absent : entryOf s (field body 0 1) = none) :
    handleCancelTap q body s = (s, replyRefused .noSuchEntry) := by
  unfold handleCancelTap
  simp [absent, refuse]

variable (present : (entryOf s (field body 0 1)).isSome = true)

include present

theorem handleCancelTap_unpermitted (free : permitOfEntry s (field body 0 1) = none) :
    handleCancelTap q body s = (recompute (removeEntry (field body 0 1) s), replyDone []) := by
  obtain ⟨e, found⟩ := Option.isSome_iff_exists.mp present
  unfold handleCancelTap
  simp [found, free]

theorem handleCancelTap_pending {p : Permit} (held : permitOfEntry s (field body 0 1) = some p)
    (pending : p.state = .pending) :
    handleCancelTap q body s = (recompute (refusePermit p .cancelled true s), replyDone []) := by
  obtain ⟨e, found⟩ := Option.isSome_iff_exists.mp present
  unfold handleCancelTap
  simp [found, held, pending]

theorem handleCancelTap_granted {p : Permit} (held : permitOfEntry s (field body 0 1) = some p)
    (granted : p.state = .granted) : handleCancelTap q body s = (s, replyRefused .tooLate) := by
  obtain ⟨e, found⟩ := Option.isSome_iff_exists.mp present
  unfold handleCancelTap
  simp [found, held, granted, refuse]

end CancelTapCases

/-- The Tap Coordinator without the entry of a request id. -/
def entryRemoved (id : Nat) (s : State) : Tap := { s.tap with queue := s.tap.queue.filter (fun e => e.id != id) }

/-- The Tap Coordinator after a permit refused with its entry removed: the refusal is kept for the deck. -/
def refusedRemoved (p : Permit) (r : Reason) (s : State) : Tap :=
  { entryRemoved p.requestId s with permit := none, kept := s.tap.kept.set p.furnace (some r) }

theorem removeEntry_eq (id : Nat) (s : State) : removeEntry id s = askMatching { s with tap := entryRemoved id s } := rfl

theorem refusePermit_remove_eq (p : Permit) (r : Reason) (s : State) :
    refusePermit p r true s
      = post (.permitResolved (some r) p.furnace (heatNumber s p.furnace) p.requestId (ladleOf s p.requestId))
          (askMatching { s with tap := refusedRemoved p r s }) := rfl

/-- Settles O17: where the entry goes, matching is asked for and granted by the follow-up; the other two cases refuse. -/
theorem cancelTapWithdrawsEntry : Obligations.CancelTapWithdrawsEntry := by
  intro q tag body s ready port one
  subst port
  have len := lengthOk_cancelTap one
  have may : permitted .cancelTap .p body = true := rfl
  have unchanged := request_unchanged .cancelTap .p tag body s ready len may
  have ⟨_, loaded, _⟩ := ready
  refine ⟨fun absent => unchanged _ (handleCancelTap_noEntry .p absent), fun present =>
    ⟨fun others => ?_, fun p held same => ⟨fun pending => ?_, fun granted => ?_⟩⟩⟩
  · have done := handleCancelTap_unpermitted (s := dropAssembly .p s) .p present (permitOfEntry_none others)
    rw [removeEntry_eq] at done
    obtain ⟨followed, matched⟩ := recompute_asked
      (s := { dropAssembly .p s with tap := entryRemoved (field body 0 1) s }) loaded
    obtain ⟨run, frame⟩ := request_followsTap .cancelTap .p tag body s ready len may _ _ done followed
    exact ⟨_, run, frame, matched.answer _ _ _⟩
  · have done := handleCancelTap_pending (s := dropAssembly .p s) .p present (permitOfEntry_some held same) pending
    rw [refusePermit_remove_eq] at done
    obtain ⟨followed, matched, told⟩ := recompute_asked_post
      (d := .permitResolved (some .cancelled) p.furnace (heatNumber s p.furnace) p.requestId (ladleOf s p.requestId))
      (s := { dropAssembly .p s with tap := refusedRemoved p .cancelled s }) loaded (by simp [Detail.kind, matchKinds])
    obtain ⟨run, frame⟩ := request_followsTap .cancelTap .p tag body s ready len may _ _ done followed
    rw [← same]
    exact ⟨_, run, frame, matched.answer _ _ _, told.answer _ _ _⟩
  · exact unchanged _ (handleCancelTap_granted .p present (permitOfEntry_some held same) granted)

end Sys2Proof.Machine
end


section
/-! The queue, the ports and the requests that change nothing but their port (R141 to R144, R149, R155, R158, R161): what
a frame meets at its port, and the handlers of the reads, the settings channel and the notice enables. -/

namespace Sys2Proof.Machine

/-! ### A frame at its port -/

/-- A frame that finds no request in hand is taken on the state with an empty assembly. -/
theorem arrive_free {q : Port} {s : State} (fr : Frame) (free : (s.ports.get q).inHand = none) :
    arrive q fr s = putAnswer q fr (answerTo q fr (dropAssembly q s)).2 (answerTo q fr (dropAssembly q s)).1 := by
  unfold arrive
  dsimp only
  split
  · rfl
  · next held e => rw [free] at e; cases e

/-- A frame that finds a request in hand and the buffer empty waits there. -/
theorem arrive_buffered {q : Port} {s : State} (fr : Frame) (busy : (s.ports.get q).inHand.isSome = true)
    (room : (s.ports.get q).buffer = none) :
    arrive q fr s = setPort q { s.ports.get q with assembly := [], buffer := some fr } s := by
  obtain ⟨held, e⟩ := Option.isSome_iff_exists.mp busy
  unfold arrive
  dsimp only
  rw [e, room]
  simp only [setPort, PerPort.set_set]

/-- A frame that finds a request in hand and another in the buffer is discarded. -/
theorem arrive_discarded {q : Port} {s : State} (fr : Frame) (busy : (s.ports.get q).inHand.isSome = true)
    (full : (s.ports.get q).buffer.isSome = true) : arrive q fr s = dropAssembly q s := by
  obtain ⟨held, e⟩ := Option.isSome_iff_exists.mp busy
  obtain ⟨waiting, b⟩ := Option.isSome_iff_exists.mp full
  unfold arrive
  dsimp only
  split
  · next none => rw [e] at none; cases none
  · split
    · next none => rw [b] at none; cases none
    · rfl

/-- A request command brings its frame to the port. -/
theorem exec_request_arrives (k : RequestKind) (q : Port) (tag : Byte) (body : List Byte) {s : State}
    (on : s.powered = true) : exec (commandOf k q tag body) s = .next (arrive q (requestFrame k tag body) s) := by
  rw [exec_commandOf]
  unfold request
  rw [live_powered _ _ on, receiveFrame_arrive]

/-- A frame of an unknown kind comes to the port as well. -/
theorem exec_unknown_arrives (q : Port) (kind tag : Byte) (body : List Byte) {s : State} (on : s.powered = true) :
    exec (.unknownRequestKind q kind tag body) s = .next (arrive q { kind := kind, tag := tag, body := body } s) := by
  show live (receiveFrame q { kind := kind, tag := tag, body := body }) s = _
  rw [live_powered _ _ on, receiveFrame_arrive]

/-! ### The cases of R142 -/

theorem loading_dropAssembly (q : Port) (s : State) : loading (dropAssembly q s) = loading s := rfl

theorem answerTo_loading (q : Port) (fr : Frame) {s : State} (l : loading s = true) :
    answerTo q fr s = (s, replyRetry .loading) := by
  unfold answerTo
  rw [if_pos l]

/-- A request that meets an outcome without an effect leaves its port with the answer. -/
theorem arrive_turned {q : Port} {s : State} {fr : Frame} {reply : Reply} (free : (s.ports.get q).inHand = none)
    (turned : answerTo q fr (dropAssembly q s) = (dropAssembly q s, reply)) :
    arrive q fr s = withAnswer q fr reply s := by
  rw [arrive_free fr free, turned]
  exact putAnswer_dropAssembly q fr reply s

theorem ofCode_none {n : Nat} (h : n = 0 ∨ 0x20 < n) : RequestKind.ofCode n = none := by
  unfold RequestKind.ofCode
  split
  case h_33 => rfl
  all_goals omega

theorem answerTo_unknown (q : Port) {fr : Frame} {s : State} (l : loading s = false)
    (unknown : RequestKind.ofCode fr.kind.toNat = none) : answerTo q fr s = (s, replyRefused .badKind) := by
  unfold answerTo
  rw [l, unknown]
  rfl

theorem answerTo_badLength (k : RequestKind) (q : Port) (tag : Byte) (body : List Byte) {s : State}
    (l : loading s = false) (wrong : k.lengthOk body.length = false) :
    answerTo q (requestFrame k tag body) s = (s, replyRefused .badLength) := by
  have code : RequestKind.ofCode (requestFrame k tag body).kind.toNat = some k := RequestKind.ofCode_code k
  have hasBody : (requestFrame k tag body).body = body := rfl
  unfold answerTo
  simp [l, code, hasBody, wrong, refuse]

/-- Settles O1. -/
theorem stepTakesFrontCommand : Obligations.StepTakesFrontCommand := by
  intro c rest s
  exact step_cons c rest _ rfl

/-- Settles O4: each case of R142 decides `answerTo`, and the frame comes to a port with no request in hand. -/
theorem requestAnsweredByCases : Obligations.RequestAnsweredByCases := by
  intro k kind q tag body s on free
  refine ⟨fun l => ⟨?_, ?_⟩, fun l unknown => ?_, fun l wrong => ?_, fun l len barred => ?_, fun l len may => ?_⟩
  · rw [exec_request_arrives k q tag body on, arrive_turned free (answerTo_loading q _ l)]
    rfl
  · rw [exec_unknown_arrives q kind tag body on, arrive_turned free (answerTo_loading q _ l)]
  · have code : RequestKind.ofCode kind.toNat = none :=
      ofCode_none (unknown.imp (fun zero => by rw [zero]; rfl) id)
    rw [exec_unknown_arrives q kind tag body on, arrive_turned free (answerTo_unknown q l code)]
  · rw [exec_request_arrives k q tag body on, arrive_turned free (answerTo_badLength k q tag body l wrong)]
    rfl
  · exact request_notPermitted k q tag body s ⟨on, l, free⟩ len barred
  · refine ⟨_, request_handled k q tag body s ⟨on, l, free⟩ len may, ?_, ?_⟩
    · rw [putAnswer_port_same]
    · rw [putAnswer_port_same]

/-- Settles O5. -/
theorem requestWhileInHandIsBuffered : Obligations.RequestWhileInHandIsBuffered := by
  intro k q kind tag body s on busy
  refine ⟨fun room => ⟨?_, ?_⟩, fun full => ⟨?_, ?_⟩⟩
  · rw [exec_request_arrives k q tag body on, arrive_buffered _ busy room]
  · rw [exec_unknown_arrives q kind tag body on, arrive_buffered _ busy room]
  · rw [exec_request_arrives k q tag body on, arrive_discarded _ busy full]
    rfl
  · rw [exec_unknown_arrives q kind tag body on, arrive_discarded _ busy full]
    rfl

/-! ### Requests with no follow-up -/

/-- A handler whose effect does not read the assembly: the request leaves that effect with its answer. -/
theorem request_leaves (k : RequestKind) (q : Port) (tag : Byte) (body : List Byte) (s : State) (r : Ready q s)
    (len : k.lengthOk body.length = true) (may : permitted k q body = true) {u : State} {reply : Reply}
    (h : handle k q body (dropAssembly q s) = (dropAssembly q u, reply)) :
    exec (commandOf k q tag body) s = .next (answered k q tag body reply u) := by
  rw [request_handled k q tag body s r len may, h]
  exact congrArg _ (putAnswer_dropAssembly q _ reply u)

/-- Emptying an assembly and writing a port's enables may change places. -/
theorem setEnables_dropAssembly (q : Port) (enables : BitVec 20) (s : State) :
    setPort q { (dropAssembly q s).ports.get q with enables := enables } (dropAssembly q s)
      = dropAssembly q (setPort q { s.ports.get q with enables := enables } s) := by
  simp [dropAssembly, setPort]

/-- Settles O29. -/
theorem noticeEnablesStored : Obligations.NoticeEnablesStored := by
  intro q tag body s ready three
  have len : RequestKind.lengthOk .setNoticeEnables body.length = true := by simp [RequestKind.lengthOk, three]
  refine ⟨_, request_leaves .setNoticeEnables q tag body s ready len rfl
    (Prod.ext (setEnables_dropAssembly q _ s) rfl), rfl, ?_⟩
  simp only [State.attn, answered, withAnswer, ports_setPort_same]
  rfl

theorem handleReadLog_found {s : State} {body : List Byte} {x : Summary} {newer : List Summary} (q : Port)
    (h : logFrom s.heat.log (field body 0 2) = x :: newer) :
    handleReadLog q body s = (s, replyDone (summaryBody x ((newer.head?.map Summary.number).getD 0))) := by
  unfold handleReadLog
  rw [h]

theorem handleReadLog_none {s : State} {body : List Byte} (q : Port) (h : logFrom s.heat.log (field body 0 2) = []) :
    handleReadLog q body s = (s, replyRefused .noSuchEntry) := by
  unfold handleReadLog
  rw [h]
  rfl

theorem logFrom_zero (log : List Summary) : logFrom log 0 = log := rfl

/-- The log from a summary on, which is the first of its number (R22). -/
theorem logFrom_split {older newer : List Summary} {x : Summary} (nonzero : x.number ≠ 0)
    (first : ∀ y ∈ older, y.number ≠ x.number) : logFrom (older ++ x :: newer) x.number = x :: newer := by
  unfold logFrom
  rw [if_neg nonzero]
  induction older with
  | nil => simp
  | cons y rest ih =>
    have ne : y.number ≠ x.number := first y List.mem_cons_self
    simp only [List.cons_append, List.dropWhile_cons, bne_iff_ne, ne_eq, ne, not_false_eq_true, if_true]
    exact ih (fun z hz => first z (List.mem_cons_of_mem y hz))

theorem logFrom_absent {log : List Summary} {n : Nat} (nonzero : n ≠ 0) (absent : ∀ x ∈ log, x.number ≠ n) :
    logFrom log n = [] := by
  unfold logFrom
  rw [if_neg nonzero]
  induction log with
  | nil => rfl
  | cons y older ih =>
    have passes : (y.number != n) = true := bne_iff_ne.mpr (absent y List.mem_cons_self)
    rw [List.dropWhile_cons, if_pos passes]
    exact ih fun x mem => absent x (List.mem_cons_of_mem y mem)

/-- A settings request of the owner restarts the idle timer, whatever the assembly. -/
theorem touchChannel_dropAssembly (q : Port) (s : State) :
    touchChannel q (dropAssembly q s) = dropAssembly q (touchChannel q s) := by
  unfold touchChannel
  show (if s.sett.owner = some q then _ else _) = _
  split <;> rfl

theorem furnaceNamed_none {n : Nat} (h : 1 < n) : furnaceNamed n = none := by
  unfold furnaceNamed
  split
  · omega
  · omega
  · rfl

theorem isSetting_iff (n : Nat) : isSetting n = true ↔ 1 ≤ n ∧ n ≤ 65 := by
  simp [isSetting]

theorem handleReadSetting_setting {body : List Byte} (q : Port) (s : State)
    (named : 1 ≤ field body 0 1 ∧ field body 0 1 ≤ 65) :
    handleReadSetting q body s
      = (touchChannel q s,
          replyDone (be2 (setting s (field body 0 1)) ++ be2 (rangeOf s.sett.working (bathMasses s) false (field body 0 1)).1
            ++ be2 (rangeOf s.sett.working (bathMasses s) false (field body 0 1)).2
            ++ be2 (valueIn Config.settingDefaults (field body 0 1)))) := by
  unfold handleReadSetting
  dsimp only
  rw [if_pos ((isSetting_iff _).mpr named)]

theorem handleReadSetting_none {body : List Byte} (q : Port) (s : State)
    (none : field body 0 1 < 1 ∨ 65 < field body 0 1) :
    handleReadSetting q body s = (touchChannel q s, replyRefused .badKind) := by
  unfold handleReadSetting
  dsimp only
  rw [if_neg]
  rw [isSetting_iff]
  omega

/-- Settles O25: a read's handler gives the state back, but for the idle timer that READ-SETTING restarts. -/
theorem readsChangeNothing : Obligations.ReadsChangeNothing := by
  intro q tag body s ready
  refine ⟨fun none => ⟨?_, ?_, ?_, ?_, ?_, ?_⟩, fun one => ⟨fun f named => ?_, fun high => ?_⟩,
    fun two => ⟨fun zero x oldest => ?_, fun nonzero older newer x log number first => ?_, fun absent => ?_⟩,
    fun one => ⟨fun low high => ?_, fun outside => ?_⟩⟩
  · exact request_unchanged .queryQueue q tag body s ready (by simp [RequestKind.lengthOk, none]) rfl _ rfl
  · exact request_unchanged .queryProtection q tag body s ready (by simp [RequestKind.lengthOk, none]) rfl _ rfl
  · exact request_unchanged .queryChannels q tag body s ready (by simp [RequestKind.lengthOk, none]) rfl _ rfl
  · exact request_unchanged .queryAllotment q tag body s ready (by simp [RequestKind.lengthOk, none]) rfl _ rfl
  · exact request_unchanged .queryShop q tag body s ready (by simp [RequestKind.lengthOk, none]) rfl _ rfl
  · refine request_unchanged .readNotices q tag body s ready (by simp [RequestKind.lengthOk, none]) rfl _ ?_
    show (_, replyDone (noticesBody ((dropAssembly q s).ports.get q))) = _
    rw [dropAssembly, ports_setPort_same]
    rfl
  · refine request_unchanged .queryFurnace q tag body s ready (by simp [RequestKind.lengthOk, one]) rfl _ ?_
    show handleQueryFurnace q body (dropAssembly q s) = _
    unfold handleQueryFurnace
    rw [named]
    rfl
  · refine request_unchanged .queryFurnace q tag body s ready (by simp [RequestKind.lengthOk, one]) rfl _ ?_
    show handleQueryFurnace q body (dropAssembly q s) = _
    unfold handleQueryFurnace
    rw [furnaceNamed_none high]
    rfl
  · obtain ⟨newer, log⟩ : ∃ newer, s.heat.log = x :: newer := List.head?_eq_some_iff.mp oldest
    rw [log]
    refine request_unchanged .readLog q tag body s ready (by simp [RequestKind.lengthOk, two]) rfl _ ?_
    exact handleReadLog_found q (by rw [zero, logFrom_zero]; exact log)
  · refine request_unchanged .readLog q tag body s ready (by simp [RequestKind.lengthOk, two]) rfl _ ?_
    refine handleReadLog_found q ?_
    show logFrom s.heat.log _ = _
    rw [log, ← number]
    exact logFrom_split (by rw [number]; exact nonzero) (by rw [number]; exact first)
  · refine request_unchanged .readLog q tag body s ready (by simp [RequestKind.lengthOk, two]) rfl _ ?_
    refine handleReadLog_none q ?_
    show logFrom s.heat.log _ = _
    rcases absent with empty | ⟨nonzero, others⟩
    · rw [empty]
      simp [logFrom]
    · exact logFrom_absent nonzero others
  · refine request_leaves .readSetting q tag body s ready (by simp [RequestKind.lengthOk, one]) rfl ?_
    rw [show handle .readSetting q body (dropAssembly q s) = handleReadSetting q body (dropAssembly q s) from rfl,
      handleReadSetting_setting q _ ⟨low, high⟩, touchChannel_dropAssembly]
    rfl
  · refine request_leaves .readSetting q tag body s ready (by simp [RequestKind.lengthOk, one]) rfl ?_
    rw [show handle .readSetting q body (dropAssembly q s) = handleReadSetting q body (dropAssembly q s) from rfl,
      handleReadSetting_none q _ outside, touchChannel_dropAssembly]
    rfl

/-! ### The settings channel and the save (R155, R158) -/

/-- A channel held by none or by the port itself is held by no other. -/
theorem heldByOther_eq_false {q : Port} {s : State} (mine : s.sett.owner = none ∨ s.sett.owner = some q) :
    heldByOther q s = false := by
  rcases mine with e | e <;> simp [heldByOther, e]

theorem heldByOther_eq_true {q : Port} {s : State} (held : s.sett.owner ≠ none) (other : s.sett.owner ≠ some q) :
    heldByOther q s = true := by
  unfold heldByOther
  cases e : s.sett.owner with
  | none => exact absurd e held
  | some o =>
    rw [e] at other
    simpa using fun same : o = q => other (congrArg some same)

/-- The channel as a settings request leaves it that holds it or takes it: the port's, its idle timer restarted. -/
theorem takeChannel_touchChannel {q : Port} {s : State} (mine : s.sett.owner = none ∨ s.sett.owner = some q) :
    takeChannel q (touchChannel q s) = { s with sett := { s.sett with owner := some q, idle := some 0 } } := by
  rcases mine with e | e
  · have untouched : touchChannel q s = s := by simp [touchChannel, e]
    rw [untouched, takeChannel, if_pos e]
  · have touched : touchChannel q s = { s with sett := { s.sett with idle := some 0 } } := by simp [touchChannel, e]
    rw [touched, takeChannel, if_neg (by simp [e])]
    simp [e]

theorem touchChannel_other {q : Port} {s : State} (other : s.sett.owner ≠ some q) : touchChannel q s = s := by
  rw [touchChannel, if_neg other]

theorem handleSaveSettings_saving {body : List Byte} {q : Port} {s : State} (saving : s.sett.memory = .saving) :
    handleSaveSettings q body s = (touchChannel q s, replyRetry .saving) := by
  simp [handleSaveSettings, saving]

theorem handleSaveSettings_held {body : List Byte} {q : Port} {s : State} (quiet : s.sett.memory ≠ .saving)
    (held : heldByOther q s = true) : handleSaveSettings q body s = (touchChannel q s, replyRetry .channelHeld) := by
  simp [handleSaveSettings, quiet, held]

theorem handleSaveSettings_begun {body : List Byte} {q : Port} {s : State} (quiet : s.sett.memory ≠ .saving)
    (mine : s.sett.owner = none ∨ s.sett.owner = some q) :
    handleSaveSettings q body s
      = ({ s with sett := { s.sett with owner := some q, idle := some 0, memory := .saving } }, replyDone []) := by
  unfold handleSaveSettings
  dsimp only
  rw [if_neg quiet, heldByOther_eq_false mine, if_neg (by decide), takeChannel_touchChannel mine]

/-- A save that ends well stores the working copy whole (R158). -/
theorem endSave_saved {s : State} (saving : s.sett.memory = .saving) :
    endSave .saved s
      = post (.settings .saved none 0 0 0)
          { s with sett := { s.sett with memory := .idle, block := StoredBlock.whole s.sett.working } } := by
  rw [endSave, if_pos saving]

theorem endSave_failed (part : Bool) {s : State} (saving : s.sett.memory = .saving) :
    endSave (.failed part) s
      = post (.settings .saveFailed none 0 0 0)
          { s with sett :=
            { s.sett with
              memory := .idle
              block := { s.sett.block with partWritten := s.sett.block.partWritten || part } } } := by
  rw [endSave, if_pos saving]

theorem endSave_quiet (r : SaveResult) {s : State} (quiet : s.sett.memory ≠ .saving) : endSave r s = s := by
  unfold endSave; rw [if_neg quiet]

/-- Settles O27. -/
theorem saveAndChannelEvents : Obligations.SaveAndChannelEvents := by
  intro q tag body part s on
  refine ⟨fun ready none => ⟨fun saving => ?_, fun quiet held other => ?_, fun quiet mine => ?_, fun mine => ?_,
    fun other => ?_⟩, fun saving => ⟨?_, ?_⟩, fun quiet => ⟨?_, ?_⟩, fun owned runs => ?_, fun free => ?_⟩
  · refine request_leaves .saveSettings q tag body s ready (by simp [RequestKind.lengthOk, none]) rfl ?_
    refine (handleSaveSettings_saving (s := dropAssembly q s) (body := body) saving).trans ?_
    rw [touchChannel_dropAssembly]
    rfl
  · refine request_leaves .saveSettings q tag body s ready (by simp [RequestKind.lengthOk, none]) rfl ?_
    refine (handleSaveSettings_held (s := dropAssembly q s) (body := body) quiet (heldByOther_eq_true held other)).trans ?_
    rw [touchChannel_dropAssembly, touchChannel_other other]
  · refine request_leaves .saveSettings q tag body s ready (by simp [RequestKind.lengthOk, none]) rfl ?_
    exact handleSaveSettings_begun (s := dropAssembly q s) (body := body) quiet mine
  · refine request_leaves .releaseChannel q tag body s ready (by simp [RequestKind.lengthOk, none]) rfl ?_
    exact if_pos (c := s.sett.owner = some q) mine
  · refine request_leaves .releaseChannel q tag body s ready (by simp [RequestKind.lengthOk, none]) rfl ?_
    exact if_neg (c := s.sett.owner = some q) other
  · refine ⟨_, live_powered _ s on, ?_⟩
    rw [endSave_saved saving]
    exact ⟨rfl, post_noted (.settings .saved none 0 0 0) _, post_noticed _ _⟩
  · refine ⟨_, live_powered _ s on, ?_⟩
    rw [endSave_failed part saving]
    exact ⟨rfl, post_noted (.settings .saveFailed none 0 0 0) _, post_noticed _ _⟩
  · exact (live_powered _ s on).trans (congrArg _ (endSave_quiet .saved quiet))
  · exact (live_powered _ s on).trans (congrArg _ (endSave_quiet (.failed part) quiet))
  · refine (live_powered idleExpires s on).trans (congrArg _ ?_)
    exact if_pos ⟨Option.isSome_iff_ne_none.mpr owned, Option.isSome_iff_ne_none.mpr runs⟩
  · refine (live_powered idleExpires s on).trans (congrArg _ ?_)
    exact if_neg (by simp [free])

end Sys2Proof.Machine
end


section
/-! Resets (R23, R24, R37), the laws of the reset state, and what the power law gives of the two commands (R52, R55). -/

namespace Sys2Proof.Machine

/-! ### Resets -/

/-- A stopped timer does not run, for the three timers of a circuit. -/
theorem stopped_notRunning :
    TimerMode.stopped ≠ .running ∧ TimerMode.stopped ≠ .running ∧ TimerMode.stopped ≠ .running := by decide

/-- What a reset of the volatile blocks leaves, whatever it makes of the slots (R63, R75, R101, R119, R139, R151). -/
theorem volatileReset_resets (l : ResetLines) (g : FurnaceSlot → FurnaceSlot) (s : State) :
    VolatileReset l (volatileReset l g s) := by
  refine ⟨rfl, fun f => ?_, rfl, rfl, rfl, rfl, rfl, rfl, rfl, rfl, fun f => ?_, rfl, rfl, rfl, rfl, fun f => ?_, rfl, rfl,
    rfl, rfl, rfl, rfl, rfl, fun f => ?_, fun c _ => ?_, rfl, rfl, rfl, fun f => ?_, fun c => ?_, rfl, rfl, rfl, rfl, rfl,
    rfl, rfl, fun f => ?_, fun q => ?_, rfl, rfl, rfl, rfl⟩
  · cases f <;> rfl
  · cases f <;> exact ⟨rfl, rfl⟩
  · cases f <;> rfl
  · cases f <;> rfl
  · cases c <;> rfl
  · cases f <;> exact ⟨rfl, rfl, rfl, rfl, rfl⟩
  · cases c <;> exact ⟨rfl, stopped_notRunning, rfl, rfl, rfl, rfl⟩
  · cases f <;> exact ⟨rfl, rfl⟩
  · cases q <;> rfl

theorem cold_resets (l : ResetLines) (queue : List Instr) (block : StoredBlock) :
    VolatileReset l (State.cold l queue block) := by
  refine ⟨rfl, fun f => ?_, rfl, rfl, rfl, rfl, rfl, rfl, rfl, rfl, fun f => ?_, rfl, rfl, rfl, rfl, fun f => ?_, rfl, rfl,
    rfl, rfl, rfl, rfl, rfl, fun f => ?_, fun c _ => ?_, rfl, rfl, rfl, fun f => ?_, fun c => ?_, rfl, rfl, rfl, rfl, rfl,
    rfl, rfl, fun f => ?_, fun q => ?_, rfl, rfl, rfl, rfl⟩
  · cases f <;> rfl
  · cases f <;> exact ⟨rfl, rfl⟩
  · cases f <;> rfl
  · cases f <;> rfl
  · cases c <;> rfl
  · cases f <;> exact ⟨rfl, rfl, rfl, rfl, rfl⟩
  · cases c <;> exact ⟨rfl, stopped_notRunning, rfl, rfl, rfl, rfl⟩
  · cases f <;> exact ⟨rfl, rfl⟩
  · cases q <;> rfl

/-- The trip latches are in the retained domain (R24, R119). -/
theorem volatileReset_latch (l : ResetLines) (g : FurnaceSlot → FurnaceSlot) (s : State) (c : Circuit) :
    (circuitOf (volatileReset l g s) c).latch = (circuitOf s c).latch := by cases c <;> rfl

theorem volatileReset_slot (l : ResetLines) (g : FurnaceSlot → FurnaceSlot) (s : State) (f : Furnace) :
    (volatileReset l g s).heat.slots.get f = g (s.heat.slots.get f) := by cases f <;> rfl

theorem warmSlot_kept (x : FurnaceSlot) :
    (warmSlot x).stamp = x.stamp ∧ (warmSlot x).stopped = false ∧ (warmSlot x).reported = none := by
  unfold warmSlot
  split <;> exact ⟨rfl, rfl, rfl⟩

theorem warmSlot_heat {x : FurnaceSlot} {h : Heat} (e : x.slot = .heat h) : (warmSlot x).slot = .heat (warmHeat h) := by
  unfold warmSlot
  rw [e]

theorem warmSlot_other {x : FurnaceSlot} (e : ∀ h, x.slot ≠ .heat h) : (warmSlot x).slot = x.slot := by
  unfold warmSlot
  split
  · next h heat => exact absurd heat (e h)
  · rfl

theorem slot_of_heatOf_none {s : State} {f : Furnace} (none : heatOf s f = none) (h : Heat) :
    (s.heat.slots.get f).slot ≠ .heat h := by
  intro e
  unfold heatOf slotOf at none
  rw [e] at none
  cases none

theorem warmHeat_idle {h : Heat} (idle : h.state ≠ .tapping) :
    warmHeat h = { h with state := if h.state = .tapReady then .holding else h.state } := by
  unfold warmHeat
  cases e : h.state <;> simp_all
  all_goals rw [← e]

theorem warmHeat_tapping {h : Heat} {tap : TapRecord} (tapping : h.state = .tapping) (opened : h.openTap = some tap) :
    warmHeat h
      = { h with
          state := .holding, openTap := none, massUncertain := true
          taps := h.taps ++ [{ tap with interrupted := true, poured := 0 }] } := by
  unfold warmHeat interruptTap
  rw [tapping, opened]
  rfl

/-- Settles O30. -/
theorem coldStartLeavesResetValues : Obligations.ColdStartLeavesResetValues := by
  intro l s
  refine ⟨_, rfl, cold_resets l _ _, rfl, rfl, fun c => ?_, rfl, rfl, rfl, rfl, rfl⟩
  cases c <;> rfl

/-- Settles O31: both events reset the volatile blocks; they differ in what they make of the slots. -/
theorem warmRestartKeepsRetainedDomain : Obligations.WarmRestartKeepsRetainedDomain := by
  intro l s
  constructor
  · refine ⟨_, rfl, volatileReset_resets l warmSlot s, rfl, rfl, rfl, volatileReset_latch l _ s, rfl, rfl, rfl, rfl, rfl,
      fun f => ?_⟩
    obtain ⟨stamp, stopped, reported⟩ := warmSlot_kept (s.heat.slots.get f)
    unfold slotOf
    rw [volatileReset_slot]
    refine ⟨stamp, stopped, reported, fun none => warmSlot_other (slot_of_heatOf_none none), fun h open' => ?_⟩
    have slot : (s.heat.slots.get f).slot = .heat h := heatOf_some open'
    rw [warmSlot_heat slot]
    exact ⟨fun idle => congrArg _ (warmHeat_idle idle),
      fun tapping tap opened => congrArg _ (warmHeat_tapping tapping opened)⟩
  · intro on
    refine ⟨_, live_powered loseSupply s on, rfl, rfl, rfl, rfl, fun f => ?_, rfl, fun c => ?_, rfl, rfl, fun f => ?_⟩
    · cases f <;> exact ⟨rfl, rfl⟩
    · cases c <;> rfl
    · cases f <;> rfl

/-! ### The laws after reset -/

theorem reset_powerLaw : PowerLaw State.reset := by
  refine ⟨⟨⟨by decide, by decide⟩, ?_⟩, rfl, fun f => ?_⟩
  · rw [if_pos (by decide)]
    rfl
  · cases f <;> exact ⟨fun pulse => (by cases pulse), fun d waiting => (by cases waiting)⟩

theorem reset_permitLaw (f : Furnace) : PermitLawOf State.reset f := by
  cases f <;> exact ⟨fun _ => by decide, by decide, fun _ => by decide⟩

theorem reset_tapLaw : TapLaw State.reset := by
  refine ⟨⟨by decide, by decide, by decide, fun n ended => (by cases ended), by decide, by decide, by decide, by decide⟩,
    fun p held => (by cases held), fun p held => (by cases held), reset_permitLaw .a, reset_permitLaw .b,
    fun _ => ⟨rfl, rfl⟩⟩

theorem reset_protectionLaw : ProtectionLaw State.reset := by
  have circuit : CircuitLaw (CircuitRec.reset false 0) := ⟨(fun tripped => by cases tripped), by decide⟩
  exact ⟨circuit, circuit, circuit, by decide, by decide, (fun moving => by cases moving), by decide, by decide⟩

theorem reset_shopLaw : ShopLaw State.reset :=
  ⟨by decide, ⟨fun held => (by cases held), fun closed => (by cases closed.1)⟩, by decide, by decide⟩

theorem reset_noticeLaw : NoticeLaw State.reset := by
  have port : PortLaw PortRec.reset := ⟨by decide, by decide, by decide, rfl⟩
  exact ⟨port, port, port⟩

theorem heatOf_reset (f : Furnace) : heatOf State.reset f = none := by cases f <;> rfl

/-- The defaults lie in the ranges that they give each other (R152). -/
theorem defaults_inRange : WorkingInRange Config.settingDefaults := by
  have checked : ∀ n ∈ List.range 66, 1 ≤ n →
      (rangeOf Config.settingDefaults ⟨0, 0⟩ false n).1 ≤ valueIn Config.settingDefaults n
        ∧ valueIn Config.settingDefaults n ≤ (rangeOf Config.settingDefaults ⟨0, 0⟩ false n).2
        ∧ (isTens n = true → valueIn Config.settingDefaults n % 10 = 0) := by decide
  exact ⟨rfl, fun n low high => checked n (List.mem_range.mpr (by omega)) low⟩

theorem reset_settingsLaw : SettingsLaw State.reset := by
  refine ⟨defaults_inRange, ⟨fun _ => rfl, fun _ => rfl⟩, fun f => ?_⟩
  have empty : bathMassOf State.reset f = 0 := by unfold bathMassOf; rw [heatOf_reset]; rfl
  rw [empty]
  exact Nat.zero_le _

/-- Settles O48. -/
theorem resetMeetsEveryLaw : Obligations.ResetMeetsEveryLaw := by
  refine ⟨reset_powerLaw, ⟨by decide, rfl, fun _ => ⟨rfl, rfl⟩⟩, reset_tapLaw,
    ⟨reset_tapLaw, fun h open' => ?_, fun h open' => ?_, fun p held => (by cases held)⟩, reset_protectionLaw, reset_shopLaw,
    reset_noticeLaw, ⟨by decide, by decide, fun f h open' => ?_⟩, reset_settingsLaw⟩
  all_goals
    rw [heatOf_reset] at open'
    cases open'

/-! ### The commands (R52, R55) -/

/-- The record of an output follows its rule, with some part of the budget available. -/
theorem AllotmentRule.output {s : State} (h : AllotmentRule s) (f : Furnace) : ∃ available, OutputRule s f available := by
  obtain ⟨-, served, rest⟩ := h
  rcases furnace_cases s.allot.priority f with e | e
  · exact ⟨_, e ▸ served⟩
  · exact ⟨_, e ▸ rest⟩

/-- A command is above 0 only in the modes that run the output, and then within the cap or the least of the bounds. -/
theorem OutputRule.command_le {s : State} {f : Furnace} {available : Nat} (h : OutputRule s f available) :
    (s.allot.out.get f).command ≤ (claimOf s f).pulseCeiling
      ∧ (asked s f = 0 → (s.allot.out.get f).command = 0)
      ∧ ((s.allot.out.get f).mode = .pulse → minCont s f ≤ (claimOf s f).pulseCeiling) := by
  obtain ⟨-, -, cap, grant, -, cont, pulse, off, contOut, pulseOut, -⟩ := h
  rw [smallest_boundsOn] at cap pulse
  cases m : (s.allot.out.get f).mode with
  | off =>
    have zero := (off m).2
    exact ⟨by omega, fun _ => zero, fun e => (by cases e)⟩
  | cont =>
    have granted := (contOut m).2
    have positive := (cont.mp m).1
    refine ⟨by omega, fun none => ?_, fun e => (by cases e)⟩
    rw [none] at cap
    omega
  | pulse =>
    obtain ⟨positive, -, -, ceiling, -⟩ := pulse.mp m
    have command := (pulseOut m).2.1
    refine ⟨?_, fun none => ?_, fun _ => ceiling⟩
    · rw [command]
      split <;> omega
    · rw [none] at cap
      omega

/-- Every bound that applies is at or above the pulse ceiling. -/
theorem pulseCeiling_le {s : State} {f : Furnace} {b : Factor × Nat} (applies : b ∈ conditionalBounds s f) :
    (claimOf s f).pulseCeiling ≤ b.2 := (foldl_min_le _ _).2 b applies

theorem asked_none {s : State} {f : Furnace} (none : heatOf s f = none) : asked s f = 0 := by
  unfold asked
  rw [none]

theorem heatOf_none_of_slot {s : State} {f : Furnace} (e : slotOf s f = .empty ∨ slotOf s f = .unknown) :
    heatOf s f = none := by
  unfold heatOf
  rcases e with e | e <;> rw [e]

/-- Each condition of R52 puts a bound of 0 on the output, or leaves it nothing to ask for. -/
theorem mustBeOff_bound {s : State} {f : Furnace} (h : MustBeOff s f) :
    (∃ x, (x, 0) ∈ conditionalBounds s f) ∨ heatOf s f = none := by
  rcases h with c | c | c | c | link | ⟨r, last, fault⟩ | shop | shop | slot | slot | stopped | ⟨tilt, granted⟩
  · exact .inl ⟨.cooling, by simp [conditionalBounds, coolingBound, c]⟩
  · exact .inl ⟨.cooling, by simp [conditionalBounds, coolingBound, c]⟩
  · exact .inl ⟨.cooling, by simp [conditionalBounds, coolingBound, c]⟩
  · exact .inl ⟨.cooling, by simp [conditionalBounds, coolingBound, c]⟩
  · exact .inl ⟨.link, by simp [conditionalBounds, linkBound, link]⟩
  · exact .inl ⟨.stage, by simp [conditionalBounds, stageBound, last, fault]⟩
  · exact .inl ⟨.shop, by simp [conditionalBounds, shopBound, shop]⟩
  · exact .inl ⟨.shop, by simp [conditionalBounds, shopBound, shop]⟩
  · exact .inr (heatOf_none_of_slot (.inl slot))
  · exact .inr (heatOf_none_of_slot (.inr slot))
  · exact .inl ⟨.stopped, by simp [conditionalBounds, stoppedBound, stopped]⟩
  · exact .inl ⟨.tilt, by simp [conditionalBounds, tiltBound, tilt, granted]⟩

theorem derated_bound {s : State} {f : Furnace} (h : Derated s f) :
    ∃ n, (Factor.cooling, n) ∈ conditionalBounds s f ∧ n ≤ floor10 (outputMax s f * deratePct s / 100) := by
  by_cases out : (circuitOf s (coilOf f)).state = .init ∨ (circuitOf s (coilOf f)).state = .trip
      ∨ (circuitOf s .cabinet).state = .init ∨ (circuitOf s .cabinet).state = .trip
  · exact ⟨0, by simp [conditionalBounds, coolingBound, out], Nat.zero_le _⟩
  · exact ⟨_, by simp [conditionalBounds, coolingBound, out, show _ ∨ _ from h], Nat.le_refl _⟩

/-- Off HOME the tilt or the permit bounds the output: without a granted permit by the tilt, with one because the heat is
then TAPPING (R50, R124). -/
theorem tilted_bound {s : State} {f : Furnace} (tap : TapLaw s) (on : s.powered = true) (away : tiltOf s f ≠ .home) :
    ∃ b ∈ conditionalBounds s f, b.2 ≤ tapCap s := by
  have permit : PermitLawOf s f := by
    obtain ⟨-, -, -, a, b, -⟩ := tap
    cases f
    · exact a
    · exact b
  have pouring : grantedFor s f = true → (Factor.permit, floor10 (tapCap s)) ∈ conditionalBounds s f := fun granted => by
    have tapping := (permit.1 on).mpr granted
    simp [conditionalBounds, permitBound, tapping]
  by_cases granted : grantedFor s f = true
  · exact ⟨_, pouring granted, floor10_le _⟩
  · cases e : tiltOf s f with
    | home => exact absurd e away
    | back => exact ⟨(.tilt, floor10 (tapCap s)), by simp [conditionalBounds, tiltBound, e], floor10_le _⟩
    | forward => exact ⟨(.tilt, 0), by simp [conditionalBounds, tiltBound, e, granted], Nat.zero_le _⟩
    | invalid => exact ⟨(.tilt, 0), by simp [conditionalBounds, tiltBound, e, granted], Nat.zero_le _⟩

theorem get_resetRecords (f : Furnace) : (PerFurnace.mk AllotRec.reset AllotRec.reset).get f = AllotRec.reset := by
  cases f <;> rfl

/-- Settles O57: a command is within every bound that applies, and each condition of R52 is such a bound. -/
theorem commandsKeepTheBounds : Obligations.CommandsKeepTheBounds := by
  rintro f s ⟨⟨-, current⟩, -, -⟩ tap on
  cases l : loading s with
  | true =>
    rw [l, if_pos rfl] at current
    rw [current, get_resetRecords]
    exact ⟨fun _ => rfl, fun _ => Nat.zero_le _, fun _ => Nat.zero_le _, fun pulse => (by cases pulse)⟩
  | false =>
    rw [l, if_neg (by decide)] at current
    obtain ⟨available, rule⟩ := current.output f
    obtain ⟨within, unasked, pulsed⟩ := rule.command_le
    refine ⟨fun off => ?_, fun derated => ?_, fun away => ?_, pulsed⟩
    · rcases mustBeOff_bound off with ⟨x, bound⟩ | none
      · exact Nat.le_zero.mp (Nat.le_trans within (pulseCeiling_le bound))
      · exact unasked (asked_none none)
    · obtain ⟨n, bound, small⟩ := derated_bound derated
      exact Nat.le_trans (Nat.le_trans within (pulseCeiling_le bound)) small
    · obtain ⟨b, bound, small⟩ := tilted_bound tap on away
      exact Nat.le_trans (Nat.le_trans within (pulseCeiling_le bound)) small

/-- What an output draws is its reserve, which is within what it was given of the budget (R55). -/
theorem OutputRule.draw {s : State} {f : Furnace} {available : Nat} (h : OutputRule s f available) :
    drawOf s f = (s.allot.out.get f).reserve ∧ (s.allot.out.get f).reserve ≤ available
      ∧ (s.allot.out.get f).command ≤ drawOf s f := by
  obtain ⟨-, -, -, grant, -, -, pulse, off, contOut, pulseOut, -⟩ := h
  unfold drawOf
  cases m : (s.allot.out.get f).mode with
  | off =>
    obtain ⟨reserve, command⟩ := off m
    simp [reserve, command]
  | cont =>
    obtain ⟨reserve, command⟩ := contOut m
    simp only [reserve, command, reduceCtorEq, if_false]
    exact ⟨trivial, by omega, Nat.le_refl _⟩
  | pulse =>
    obtain ⟨reserve, command, -⟩ := pulseOut m
    obtain ⟨-, -, within, -⟩ := pulse.mp m
    rw [if_pos rfl, reserve, command]
    refine ⟨rfl, within, ?_⟩
    split <;> omega

theorem drawOf_reset {s : State} (f : Furnace) (h : s.allot.out = ⟨AllotRec.reset, AllotRec.reset⟩) :
    drawOf s f = 0 ∧ (s.allot.out.get f).command = 0 := by
  unfold drawOf
  rw [h, get_resetRecords]
  exact ⟨rfl, rfl⟩

theorem BudgetRule.budget {s : State} (h : BudgetRule s) :
    s.allot.budget = floor10 (min (supplyRating s) (activeCeiling s)) := by
  obtain ⟨ceiling, budget⟩ := h
  rw [budget, ceiling]
  rfl

/-- Settles O58: the priority output reserves its draw from the budget, the other from what that leaves. -/
theorem commandsStayWithinBudget : Obligations.CommandsStayWithinBudget := by
  rintro s ⟨⟨budget, current⟩, -, -⟩
  cases l : loading s with
  | true =>
    rw [l, if_pos rfl] at current
    refine ⟨?_, fun f => ?_⟩
    · rw [(drawOf_reset .a current).1, (drawOf_reset .b current).1]
      exact Nat.zero_le _
    · rw [(drawOf_reset f current).2]
      exact Nat.zero_le _
  | false =>
    rw [l, if_neg (by decide)] at current
    rw [← budget.budget]
    refine ⟨?_, fun f => ?_⟩
    · obtain ⟨-, served, rest⟩ := current
      obtain ⟨drawP, withinP, -⟩ := served.draw
      obtain ⟨drawQ, withinQ, -⟩ := rest.draw
      have both : drawOf s .a + drawOf s .b = drawOf s s.allot.priority + drawOf s (otherFurnace s.allot.priority) := by
        cases s.allot.priority
        · rfl
        · exact Nat.add_comm _ _
      omega
    · obtain ⟨available, rule⟩ := current.output f
      exact rule.draw.2.2

end Sys2Proof.Machine
end


section
/-! What a command can do, as a chain of moves. The step laws are kept by every move, so each is proved move by move: this
file gives the moves, and the decomposition of every operation, command and step into them. -/

namespace Sys2Proof.Machine

/-! ### Notices and ports -/

/-- The notice law is kept, and every buffer stands. -/
def PortsStand (s t : State) : Prop :=
  (NoticeLaw s → NoticeLaw t) ∧ ∀ q, (t.ports.get q).buffer = (s.ports.get q).buffer

/-- Nothing but notices differ. -/
def Posted (s t : State) : Prop := t = { s with ports := t.ports } ∧ PortsStand s t

/-- A port record with the notices of another, some of them perhaps acknowledged, and no further frame in its buffer. -/
structure PortKept (x y : PortRec) : Prop where
  serial : y.nextSerial = x.nextSerial
  notices : y.notices.Sublist x.notices
  assembly : y.assembly = x.assembly ∨ y.assembly = []
  buffer : y.buffer = x.buffer ∨ y.buffer = none

theorem PortLaw.post {x : PortRec} (h : PortLaw x) (d : Detail) : PortLaw (x.post d) := by
  obtain ⟨once, low, high, empty⟩ := h
  refine ⟨?_, ?_, ?_, empty⟩
  · have others : (x.notices.filter (fun n => n.detail.kind != d.kind)).map (fun n => n.detail.kind)
        = (x.notices.map (fun n => n.detail.kind)).filter (fun k => k != d.kind) := by
      rw [List.filter_map]
      rfl
    show (List.map _ (_ ++ _)).Nodup
    rw [List.map_append, others, List.nodup_append]
    refine ⟨once.filter _, List.nodup_cons.mpr ⟨List.not_mem_nil, List.nodup_nil⟩, fun k mem l last e => ?_⟩
    obtain rfl : l = d.kind := by simpa using last
    have differs := (List.mem_filter.mp mem).2
    rw [e] at differs
    simp at differs
  · show 1 ≤ nextSerialAfter x.nextSerial
    unfold nextSerialAfter
    split <;> omega
  · show nextSerialAfter x.nextSerial ≤ 65535
    unfold nextSerialAfter
    split <;> omega

theorem PortLaw.kept {x y : PortRec} (h : PortLaw x) (k : PortKept x y) : PortLaw y := by
  obtain ⟨once, low, high, empty⟩ := h
  refine ⟨once.sublist (k.notices.map _), k.serial ▸ low, k.serial ▸ high, ?_⟩
  rcases k.assembly with e | e
  · rw [e, empty]
  · exact e

theorem noticeLaw_iff {s : State} : NoticeLaw s ↔ ∀ q, PortLaw (s.ports.get q) :=
  ⟨fun ⟨a, b, p⟩ q => by cases q <;> assumption, fun h => ⟨h .a, h .b, h .p⟩⟩

theorem NoticeLaw.post {s : State} (h : NoticeLaw s) (d : Detail) : NoticeLaw (post d s) :=
  noticeLaw_iff.mpr fun q => by
    show PortLaw ((s.ports.mapPort (fun q r => if d.addressedTo q then r.post d else r)).get q)
    rw [PerPort.get_mapPort]
    split
    · exact (noticeLaw_iff.mp h q).post d
    · exact noticeLaw_iff.mp h q

theorem NoticeLaw.setPort {s : State} (h : NoticeLaw s) {q : Port} {x : PortRec} (law : PortLaw x) :
    NoticeLaw (setPort q x s) :=
  noticeLaw_iff.mpr fun r => by
    show PortLaw ((s.ports.set q x).get r)
    rw [PerPort.get_set]
    split
    · exact law
    · exact noticeLaw_iff.mp h r

theorem NoticeLaw.postTo {s : State} (h : NoticeLaw s) (q : Port) (d : Detail) : NoticeLaw (postTo q d s) :=
  h.setPort ((noticeLaw_iff.mp h q).post d)

theorem PortsStand.refl (s : State) : PortsStand s s := ⟨id, fun _ => rfl⟩

theorem PortsStand.of_ports {s t : State} (ports : t.ports = s.ports) : PortsStand s t := by
  refine ⟨fun h => ?_, fun q => by rw [ports]⟩
  unfold NoticeLaw
  rw [ports]
  exact h

theorem PortsStand.trans {s t u : State} (h : PortsStand s t) (g : PortsStand t u) : PortsStand s u :=
  ⟨g.1 ∘ h.1, fun q => (g.2 q).trans (h.2 q)⟩

theorem post_buffer (d : Detail) (q : Port) (s : State) :
    ((post d s).ports.get q).buffer = (s.ports.get q).buffer := by
  show ((s.ports.mapPort (fun q r => if d.addressedTo q then r.post d else r)).get q).buffer = _
  rw [PerPort.get_mapPort]
  split <;> rfl

theorem Posted.refl (s : State) : Posted s s := ⟨rfl, .refl s⟩

theorem post_posted (d : Detail) (s : State) : Posted s (post d s) :=
  ⟨rfl, fun h => h.post d, fun q => post_buffer d q s⟩

/-- A notice posted under a condition. -/
theorem postIf_posted (c : Bool) (d : Detail) (s : State) : Posted s (if c then post d s else s) := by
  split
  · exact post_posted d s
  · exact Posted.refl s

/-! ### The heats and the queue -/

/-- One heat in place of another: what the laws of the table, the queue and the masses ask of the change. -/
structure HeatRevised (cap : Nat) (h h' : Heat) : Prop where
  number : h'.number = h.number
  tapping : h'.state = .tapping ↔ h.state = .tapping
  openTap : h'.openTap.isSome = h.openTap.isSome
  mass : HeatMassLaw h → HeatMassLaw h'
  charges : h.charges.length ≤ Config.chargeMax → h'.charges.length ≤ Config.chargeMax
  bath : h'.bathMass ≤ max h.bathMass cap
  pouring : h.state = .tapping → h'.bathMass = h.bathMass

/-- A heat as it may open in a furnace (R6, R8, R19). -/
structure HeatOpens (s : State) (f : Furnace) (h : Heat) : Prop where
  number : h.number = takeNumber f s
  state : h.state ≠ .tapping ∧ h.state ≠ .tapReady
  mass : HeatMassLaw h
  charges : h.charges.length ≤ Config.chargeMax
  bath : h.bathMass ≤ capacity s f

/-- The granted permit withdrawn, before what follows it (R131). -/
def permitWithdrawn (p : Permit) (s : State) : State :=
  let s1 := editHeat p.furnace (fun h => { h with state := .holding, openTap := none }) s
  let s2 := post (.permitWithdrawn p.furnace (heatNumber s p.furnace) p.requestId (ladleOf s p.requestId)) s1
  returnEntry p.requestId (askMatching (setKept p.furnace (some .withdrawn) (setPermit none s2)))

theorem withdrawPermit_eq (p : Permit) (s : State) :
    withdrawPermit p s = settleHeat p.furnace (permitWithdrawn p s) := rfl

/-- The tap completed, before its notice and what follows it (R13, R134). -/
def tapFinished (p : Permit) (mass : Nat) (clamped timeout : Bool) (s : State) : State :=
  let s1 := setPermit none (removeEntry p.requestId (heatTakesTap p.furnace mass clamped timeout s))
  { s1 with tap := { s1.tap with lastEnded := some p.requestId } }

theorem completeTap_eq (p : Permit) (mass : Nat) (clamped timeout : Bool) (s : State) :
    completeTap p mass clamped timeout s
      = settleHeat p.furnace
          (post (.tapDone p.furnace (heatNumber s p.furnace) p.requestId (ladleOf s p.requestId) mass timeout clamped
              (bathMassOf (tapFinished p mass clamped timeout s) p.furnace))
            (tapFinished p mass clamped timeout s)) := rfl

/-- A heat closed and its successor opened (R17, R18). -/
def succeeded (f : Furnace) (h : Heat) (s : State) : State :=
  openHeat f (successorOf (closeHeat f h .closed s) f h) (closeHeat f h .closed s)

/-- A move of the heat table and the tap queue. -/
inductive TableMove : State → State → Prop
  | edit {s : State} {f : Furnace} {h h' : Heat} (heat : heatOf s f = some h) (revised : HeatRevised (capacity s f) h h')
      (ready : h.state = .tapReady → h'.state = .tapReady) : TableMove s (setHeat f h' s)
  | leave {s t : State} {f : Furnace} {h h' : Heat} (r : Reason) (heat : heatOf s f = some h)
      (revised : HeatRevised (capacity s f) h h') (posted : Posted (setHeat f h' s) t) : TableMove s (leaveReady f r t)
  | slotSide {s : State} {f : Furnace} {x : FurnaceSlot} (same : x.slot = slotOf s f) : TableMove s (setFurnaceSlot f x s)
  | tapSide {s : State} {x : Tap} (queue : x.queue = s.tap.queue) (permit : x.permit = s.tap.permit)
      (nextId : x.nextId = s.tap.nextId) (lastEnded : x.lastEnded = s.tap.lastEnded) : TableMove s { s with tap := x }
  | assign {s : State} {e : Entry} {f : Furnace} (oldest : s.tap.queue.head? = some e)
      (free : s.tap.queue.any (fun x => x.assigned.isSome) = false) (chosen : chooseFurnace s e = some f) :
      TableMove s (assignEntry e f s)
  | remove {s : State} {id : Nat} (free : ∀ p ∈ s.tap.permit, p.requestId ≠ id) : TableMove s (removeEntry id s)
  | append {s : State} {e : Entry} (id : e.id = takeId s) (waiting : e.assigned = none)
      (ladle : ∀ x ∈ s.tap.queue, x.ladle ≠ e.ladle) (room : s.tap.queue.length < Config.queueMax)
      (loaded : loading s = false) : TableMove s (appendEntry e s)
  | pend {s : State} {f : Furnace} {e : Entry} (assigned : assignedTo s f = some e) (free : s.tap.permit = none) :
      TableMove s (recordPending f e s)
  | permit {s : State} {p p' : Permit} (held : s.tap.permit = some p)
      (same : p'.state = p.state ∧ p'.furnace = p.furnace ∧ p'.requestId = p.requestId)
      (weight : p'.weight = p.weight
        ∨ p.state = .granted ∧ ∀ w ∈ p'.weight, w.mass ≤ bathMassOf s p.furnace) : TableMove s (setPermit (some p') s)
  | refuse {s : State} {p : Permit} (r : Reason) (remove : Bool) (held : s.tap.permit = some p)
      (pending : p.state = .pending) : TableMove s (refusePermit p r remove s)
  | grant {s : State} {p : Permit} (held : s.tap.permit = some p) (pending : p.state = .pending) :
      TableMove s (grantPermit p s)
  | withdraw {s : State} {p : Permit} (held : s.tap.permit = some p) (granted : p.state = .granted) :
      TableMove s (permitWithdrawn p s)
  | complete {s : State} {p : Permit} {mass : Nat} (clamped timeout : Bool) (held : s.tap.permit = some p)
      (granted : p.state = .granted) (weighed : mass = 0 ∨ ∃ w ∈ p.weight, w.mass = mass) :
      TableMove s (tapFinished p mass clamped timeout s)
  | close {s : State} {f : Furnace} {h : Heat} (reason : CloseReason) (heat : heatOf s f = some h)
      (idle : h.state ≠ .tapping) : TableMove s (closeHeat f h reason s)
  | succeed {s : State} {f : Furnace} {h : Heat} (heat : heatOf s f = some h) (idle : h.state ≠ .tapping) :
      TableMove s (succeeded f h s)
  | opened {s : State} {f : Furnace} {h : Heat} (free : heatOf s f = none) (opens : HeatOpens s f h) :
      TableMove s (openHeat f h s)
  | emptied {s : State} {f : Furnace} (free : heatOf s f = none) : TableMove s (setSlot f .empty s)

/-! ### The moves -/

/-- The Stage Link Controller keeps the stage law (R76, R82). -/
def Stage.Lawful (x : Stage) : Prop :=
  (x.deadline.isSome = true ↔ x.link = .up) ∧ x.assembly = []
    ∧ (x.link ≠ .up → x.sent = noFurnace ∧ x.transmitter.upSinceBegun = false)

/-- One record of a circuit in place of another, other than by a TRIP-RESET (R102, R104, R108, R113). -/
structure CircuitStep (s : State) (c : Circuit) (x : CircuitRec) : Prop where
  tripped : (circuitOf s c).state = .trip → x.state = .trip
  law : CircuitLaw (circuitOf s c) → CircuitLaw x
  held : s.prot.loop.state = some .changeover → NoTimerRuns (circuitOf s c) → NoTimerRuns x
  waits : loading s = true → (circuitOf s c).state = .init → x.state = .init

/-- What a new loop state does to the circuit timers (R113, R115, R119). -/
inductive LoopTimers : LoopState → (CircuitRec → CircuitRec) → Prop
  | changeover : LoopTimers .changeover CircuitRec.holdTimers
  | standby : LoopTimers .standby CircuitRec.releaseTimers
  | none {st : LoopState} (moving : st ≠ .changeover) (working : st ≠ .loopFail) : LoopTimers st id

/-- The loop has a state, or the settings load has ended. -/
def LoopRuns (s : State) : Prop := loading s = false ∨ s.prot.loop.state.isSome = true

/-- A move of the part, with the circuit that a TRIP-RESET may take out of TRIP. -/
inductive Move (reset : Option Circuit) : State → State → Prop
  | table {s t : State} (m : TableMove s t) : Move reset s t
  | posts (d : Detail) (s : State) : Move reset s (post d s)
  | postsTo (q : Port) (d : Detail) (s : State) : Move reset s (postTo q d s)
  | port {s : State} {q : Port} {x : PortRec} (kept : PortKept (s.ports.get q) x) : Move reset s (setPort q x s)
  | leakCarried (x : PerPort (Option Furnace)) (s : State) :
      Move reset s { s with prot := { s.prot with leakCarried := x } }
  | clock (c : Clock) (s : State) : Move reset s { s with clock := c }
  | scan (x : Scanner) (s : State) : Move reset s { s with scan := x }
  | pumps {s : State} {x : Lines} (breaker : x.breakerClosed = s.lines.breakerClosed) : Move reset s { s with lines := x }
  | settings {s : State} {x : SettingsManager} (working : x.working = s.sett.working)
      (memory : (x.memory == .loading) = loading s)
      (channel : (s.sett.owner = none ↔ s.sett.idle = none) → (x.owner = none ↔ x.idle = none)) :
      Move reset s { s with sett := x }
  | working {s : State} {n value : Nat} (low : 1 ≤ n) (high : n ≤ 65) (named : 52 ≤ n → value ≤ 1)
      (loaded : loading s = false) :
      Move reset s (setWorking (writeWorking s.sett.working (bathMasses s) n value) s)
  | decks (x : PerFurnace DeckOff) (s : State) : Move reset s { s with shop := { s.shop with decks := x } }
  | trips (s : State) : Move reset s (assertBreaker s)
  | stuck {s : State} (timed : s.shop.stuckTimer.isSome = true) :
      Move reset s { s with shop := { s.shop with stuckTimer := none, stuck := true } }
  | breakerOpens (s : State) :
      Move reset s { s with
        lines := { s.lines with breakerClosed := false }
        shop := { s.shop with state := .supplyOff, breakerTrip := false, stuckTimer := none, stuck := false } }
  | breakerCloses {s : State} (was : s.shop.state = .supplyOff) :
      Move reset s { s with
        lines := { s.lines with breakerClosed := true }
        shop := { s.shop with state := if anyReason s.shop.reasons || loading s then .held else .run } }
  | breakerBack {s : State} (opened : s.lines.breakerClosed = false) (was : s.shop.state ≠ .supplyOff) :
      Move reset s { s with lines := { s.lines with breakerClosed := true } }
  | resume {s : State} (held : s.shop.state = .held) (loaded : loading s = false) :
      Move reset s { s with shop := { s.shop with reasons := noReasons, state := .run } }
  | mode {s : State} {st : ShopState} (was : s.shop.state = .run ∨ s.shop.state = .banked)
      (is : st = .run ∨ st = .banked) : Move reset s { s with shop := { s.shop with state := st } }
  | kicks (s : State) : Move reset s (kick s)
  | tripTaken (mask : PerFurnace Bool) (s : State) : Move reset s (takeTrip mask s)
  | stage {s : State} {x : Stage} (held : x.held = s.stage.held) (law : s.stage.Lawful → x.Lawful) :
      Move reset s { s with stage := x }
  | allots (s : State) : Move reset s (allocate s)
  | meltRequest {s : State} (f : Furnace) (n : Nat) (loaded : loading s = false) : Move reset s (setMeltRequest f n s)
  | shed (active : Bool) (s : State) :
      Move reset s (setBudget { s with allot := { s.allot with shed := active } })
  | circuit {s : State} {c : Circuit} {x : CircuitRec} (step : CircuitStep s c x) : Move reset s (setCircuitRec c x s)
  | reset {s : State} {c : Circuit} (named : reset = some c) (loaded : loading s = false)
      (working : s.prot.loop.state ≠ some .loopFail) : Move reset s (resetTaken c s)
  | pressure (x : Option Nat) (s : State) :
      Move reset s { s with prot := { s.prot with loop := { s.prot.loop with pressure := x } } }
  | loop {s : State} {st : LoopState} {g : CircuitRec → CircuitRec} (cause : LoopCause) (latch : Bool)
      (timers : LoopTimers st g) (runs : LoopRuns s) : Move reset s (mapCircuits g (setLoop st cause latch s))
  | loopFail {s : State} (cause : LoopCause) (runs : LoopRuns s) : Move reset s (enterLoopFail cause s)

/-- A chain of moves. -/
inductive Moves (reset : Option Circuit) : State → State → Prop where
  | refl (s : State) : Moves reset s s
  | tail {s t u : State} (h : Moves reset s t) (m : Move reset t u) : Moves reset s u

variable {reset : Option Circuit}

theorem Moves.trans {s t u : State} (h : Moves reset s t) (g : Moves reset t u) : Moves reset s u := by
  induction g with
  | refl => exact h
  | tail _ m ih => exact .tail ih m

theorem Move.moves {s t : State} (h : Move reset s t) : Moves reset s t := .tail (.refl s) h

theorem TableMove.moves {s t : State} (h : TableMove s t) : Moves reset s t := (Move.table h).moves

/-- What every move keeps, a chain of moves keeps. -/
theorem Moves.keep {P : State → Prop} (each : ∀ s t, Move reset s t → P s → P t) {s t : State} (h : Moves reset s t)
    (p : P s) : P t := by
  induction h with
  | refl => exact p
  | tail _ m ih => exact each _ _ m ih

/-- A condition under which a chain of moves is made. -/
theorem Moves.ite {c : Prop} [Decidable c] {s t u : State} (yes : c → Moves reset s t) (no : ¬ c → Moves reset s u) :
    Moves reset s (if c then t else u) := by
  split
  · next h => exact yes h
  · next h => exact no h

theorem post_moves (d : Detail) (s : State) : Moves reset s (post d s) := (Move.posts d s).moves

theorem postTo_moves (q : Port) (d : Detail) (s : State) : Moves reset s (postTo q d s) := (Move.postsTo q d s).moves

theorem askMatching_moves (s : State) : Moves reset s (askMatching s) :=
  TableMove.moves (TableMove.tapSide (x := { s.tap with matchDue := true }) rfl rfl rfl rfl)

theorem setKept_moves (f : Furnace) (r : Option Reason) (s : State) : Moves reset s (setKept f r s) :=
  TableMove.moves (TableMove.tapSide (x := { s.tap with kept := s.tap.kept.set f r }) rfl rfl rfl rfl)

/-! ### Heats -/

theorem HeatRevised.refl (cap : Nat) (h : Heat) : HeatRevised cap h h :=
  ⟨rfl, Iff.rfl, rfl, id, id, Nat.le_max_left _ _, fun _ => rfl⟩

theorem HeatRevised.trans {cap : Nat} {a b c : Heat} (h : HeatRevised cap a b) (g : HeatRevised cap b c) :
    HeatRevised cap a c where
  number := g.number.trans h.number
  tapping := g.tapping.trans h.tapping
  openTap := g.openTap.trans h.openTap
  mass := g.mass ∘ h.mass
  charges := g.charges ∘ h.charges
  bath := by have := h.bath; have := g.bath; omega
  pouring := fun t => (g.pouring (h.tapping.mpr t)).trans (h.pouring t)

/-- A change of state outside TAPPING, and of what no law of the table reads. -/
theorem HeatRevised.of_fields {cap : Nat} {h h' : Heat} (number : h'.number = h.number)
    (tapping : h'.state = .tapping ↔ h.state = .tapping) (openTap : h'.openTap.isSome = h.openTap.isSome)
    (charges : h'.charges = h.charges) (restated : h'.restateAdj = h.restateAdj) (taps : h'.taps = h.taps)
    (bath : h'.bathMass = h.bathMass) : HeatRevised cap h h' where
  number := number
  tapping := tapping
  openTap := openTap
  mass := fun law => by
    unfold HeatMassLaw chargedMass tappedMass at *
    rw [bath, charges, restated, taps]
    exact law
  charges := fun few => charges ▸ few
  bath := bath ▸ Nat.le_max_left _ _
  pouring := fun _ => bath

theorem liquidEval_revised (s : State) (cap : Nat) (h : Heat) : HeatRevised cap h (liquidEval s h) := by
  unfold liquidEval
  split
  · exact HeatRevised.refl _ _
  · cases state : h.state <;> dsimp only
    case melting | tapping => exact HeatRevised.refl _ _
    all_goals
      split
      · exact HeatRevised.of_fields rfl (by simp [state]) rfl rfl rfl rfl rfl
      · exact HeatRevised.refl _ _

theorem restamp_revised (second cap : Nat) (old new : Heat) : HeatRevised cap new (restamp second old new) := by
  unfold restamp
  split
  · exact HeatRevised.refl _ _
  · exact HeatRevised.of_fields rfl Iff.rfl rfl rfl rfl rfl rfl

theorem evalFreeze_revised (s : State) (cap : Nat) (h : Heat) : HeatRevised cap h (evalFreeze s h) :=
  HeatRevised.of_fields rfl Iff.rfl rfl rfl rfl rfl rfl

theorem advanceEstimate_revised (s : State) (net : Int) (cap : Nat) (h : Heat) :
    HeatRevised cap h (advanceEstimate s net h) := by
  unfold advanceEstimate
  split
  · exact HeatRevised.refl _ _
  · split
    · exact HeatRevised.refl _ _
    · exact HeatRevised.of_fields rfl Iff.rfl rfl rfl rfl rfl rfl

theorem takeDip_revised (s : State) (t cap : Nat) (h : Heat) : HeatRevised cap h (takeDip s t h) :=
  HeatRevised.of_fields rfl Iff.rfl rfl rfl rfl rfl rfl

theorem applyDip_revised (s : State) (t cap : Nat) (h : Heat) : HeatRevised cap h (applyDip s t h) := by
  unfold applyDip
  split
  · next melting =>
    split
    · refine HeatRevised.trans (b := { h with remaining := 0, state := .superheat }) ?_ (takeDip_revised s t cap _)
      exact HeatRevised.of_fields rfl (by simp [melting]) rfl rfl rfl rfl rfl
    · exact HeatRevised.of_fields rfl Iff.rfl rfl rfl rfl rfl rfl
  · exact takeDip_revised s t cap h

theorem secondOf_revised (s : State) (f : Furnace) (d cap : Nat) (h : Heat) : HeatRevised cap h (secondOf s f d h) := by
  have counted : HeatRevised cap h (addEnergy s f d h) := HeatRevised.of_fields rfl Iff.rfl rfl rfl rfl rfl rfl
  unfold secondOf meltSecond
  dsimp only
  split
  · next melting =>
    have melting : h.state = .melting := melting
    split
    · refine HeatRevised.trans ?_ ((advanceEstimate_revised s 0 cap _).trans (evalFreeze_revised s cap _))
      exact HeatRevised.of_fields rfl (by simp [melting]) rfl rfl rfl rfl rfl
    · exact HeatRevised.of_fields rfl Iff.rfl rfl rfl rfl rfl rfl
  · split
    · exact counted.trans ((advanceEstimate_revised s _ cap _).trans (evalFreeze_revised s cap _))
    · exact counted

/-- An estimate brought to a new LIQUIDUS, and a hold target raised to it, change nothing that a law reads. -/
theorem refitHeat_revised (s : State) (oldCp cap : Nat) (h : Heat) : HeatRevised cap h (refitHeat s oldCp h) := by
  unfold refitHeat
  dsimp only
  refine HeatRevised.of_fields ?_ ?_ ?_ ?_ ?_ ?_ ?_
  all_goals repeat' split
  all_goals rfl

theorem fitHeat_revised (s : State) (cap : Nat) (h : Heat) : HeatRevised cap h (fitHeat s h) := by
  unfold fitHeat
  dsimp only
  refine HeatRevised.of_fields ?_ ?_ ?_ ?_ ?_ ?_ ?_
  all_goals repeat' split
  all_goals rfl

theorem chargedMass_append (h : Heat) (e : ChargeEntry) :
    ((h.charges ++ [e]).map ChargeEntry.mass).sum = chargedMass h + e.mass := by simp [chargedMass]

/-- A charge adds its mass to the bath and to the charges (R3, R5). -/
theorem chargeHeat_revised (s : State) (f : Furnace) (m : Material) (mass : Nat) (h : Heat) (idle : h.state ≠ .tapping)
    (room : h.charges.length < Config.chargeMax) (fits : h.bathMass + mass ≤ capacity s f) :
    HeatRevised (capacity s f) h (chargeHeat s m mass h) := by
  have made : ∀ h' : Heat, h'.number = h.number → h'.state ≠ .tapping → h'.openTap = h.openTap
      → h'.charges = h.charges ++ [{ material := m, mass := mass, addedAt := now s }] → h'.restateAdj = h.restateAdj
      → h'.taps = h.taps → h'.bathMass = h.bathMass + mass → HeatRevised (capacity s f) h h' := by
    intro h' number state opened charges restated taps bath
    refine ⟨number, by simp [state, idle], by rw [opened], fun law => ?_, fun _ => ?_, ?_, fun t => absurd t idle⟩
    · have charged : chargedMass h' = chargedMass h + mass := by
        unfold chargedMass
        rw [charges]
        exact chargedMass_append h _
      have tapped : tappedMass h' = tappedMass h := by unfold tappedMass; rw [taps]
      unfold HeatMassLaw at *
      rw [charged, tapped, restated, bath]
      omega
    · rw [charges, List.length_append]
      exact room
    · rw [bath]
      omega
  unfold chargeHeat
  dsimp only
  split
  · exact made _ rfl idle rfl rfl rfl rfl rfl
  · split
    · refine made _ rfl (fun e => ?_) rfl rfl rfl rfl rfl
      have state : coveredState h.state = .tapping := e
      cases e : h.state <;> rw [e] at state <;> simp [coveredState] at state
      exact idle e
    · exact made _ rfl (by simp) rfl rfl rfl rfl rfl

end Sys2Proof.Machine
end


section
/-! The shared operations as chains of moves: heats and their evaluations, what settles a step, and protection. -/

namespace Sys2Proof.Machine

variable {reset : Option Circuit}

/-! ### The evaluations of a heat -/

theorem setHeat_moves {s : State} {f : Furnace} {h h' : Heat} (heat : heatOf s f = some h)
    (revised : HeatRevised (capacity s f) h h') (ready : h.state = .tapReady → h'.state = .tapReady) :
    Moves reset s (setHeat f h' s) := (TableMove.edit heat revised ready).moves

/-- A heat put in place of another, with the notice of its FREEZE and the end of its work in the queue. -/
theorem afterRevision_moves {s : State} {f : Furnace} {h h' : Heat} (heat : heatOf s f = some h)
    (revised : HeatRevised (capacity s f) h h') : Moves reset s (afterRevision f h h' (setHeat f h' s)) := by
  have posted := postIf_posted (h'.freeze && !h.freeze) (.freeze f h'.number) (setHeat f h' s)
  unfold afterRevision
  dsimp only
  split
  · exact (TableMove.leave .notReady heat revised posted).moves
  · next stays =>
    refine (setHeat_moves heat revised fun ready => Classical.not_not.mp fun left => stays ⟨ready, left⟩).trans ?_
    split
    · exact post_moves _ _
    · exact Moves.refl _

theorem reviseHeat_moves {f : Furnace} {g : Heat → Heat} {s : State}
    (revised : ∀ h, heatOf s f = some h → HeatRevised (capacity s f) h (g h)) : Moves reset s (reviseHeat f g s) := by
  unfold reviseHeat
  split
  · exact Moves.refl s
  · next h heat =>
    exact afterRevision_moves heat
      ((revised h heat).trans ((liquidEval_revised s _ _).trans (restamp_revised (now s) _ h _)))

theorem evalLiquid_moves (f : Furnace) (s : State) : Moves reset s (evalLiquid f s) :=
  reviseHeat_moves fun h _ => HeatRevised.refl _ h

theorem evalReady_moves (f : Furnace) (s : State) : Moves reset s (evalReady f s) := by
  unfold evalReady
  split
  · exact Moves.refl s
  · next h heat =>
    split
    · next rise =>
      refine ((setHeat_moves heat ?_ fun _ => rfl).trans (post_moves _ _)).trans (askMatching_moves _)
      exact HeatRevised.of_fields rfl (by simp [rise.1]) rfl rfl rfl rfl rfl
    · split
      · next fall =>
        refine (TableMove.leave (h' := { h with state := .holding }) .notReady heat ?_ (post_posted _ _)).moves
        exact HeatRevised.of_fields rfl (by simp [fall.1]) rfl rfl rfl rfl rfl
      · exact Moves.refl s

theorem evalHeat_moves (f : Furnace) (s : State) : Moves reset s (evalHeat f s) :=
  (evalLiquid_moves f s).trans (evalReady_moves f _)

theorem evalHeats_moves (s : State) : Moves reset s (evalHeats s) := (evalHeat_moves .a s).trans (evalHeat_moves .b _)

/-- A heat edited outside its state and its masses. -/
theorem editHeat_moves {f : Furnace} {g : Heat → Heat} {s : State}
    (revised : ∀ h, HeatRevised (capacity s f) h (g h) ∧ (g h).state = h.state) : Moves reset s (editHeat f g s) := by
  unfold editHeat
  split
  · next h heat => exact setHeat_moves heat (revised h).1 fun ready => (revised h).2.trans ready
  · exact Moves.refl s

/-! ### The settling of a step -/

theorem runMatching_moves (s : State) : Moves reset s (runMatching s) := by
  unfold runMatching
  split
  · exact Moves.refl s
  · next free =>
    split
    · exact Moves.refl s
    · next e oldest =>
      split
      · next f chosen => exact (TableMove.assign oldest (Bool.eq_false_iff.mpr free) chosen).moves
      · exact Moves.refl s

theorem matchIfDue_moves (s : State) : Moves reset s (matchIfDue s) := by
  unfold matchIfDue
  split
  · exact Moves.trans (TableMove.moves (TableMove.tapSide (x := { s.tap with matchDue := false }) rfl rfl rfl rfl))
      (runMatching_moves _)
  · exact Moves.refl s

theorem tiltNoticeAt_moves (q : Port) (old cond : PerFurnace Bool) (s : State) :
    Moves reset s (tiltNoticeAt q old cond s) := by
  have carried : ∀ x, Moves reset s { s with tap := { s.tap with tiltCarried := x } } := fun x =>
    TableMove.moves (TableMove.tapSide (x := { s.tap with tiltCarried := x }) rfl rfl rfl rfl)
  unfold tiltNoticeAt
  dsimp only
  split
  · split
    · exact carried _
    · exact (carried _).trans (postTo_moves _ _ _)
  · exact carried _

theorem evalTilt_moves (s : State) : Moves reset s (evalTilt s) := by
  refine Moves.trans (t := { s with tap := { s.tap with unpermitted := ⟨unpermittedCond s .a, unpermittedCond s .b⟩ } })
    ?_ (((tiltNoticeAt_moves .a _ _ _).trans (tiltNoticeAt_moves .b _ _ _)).trans (tiltNoticeAt_moves .p _ _ _))
  exact TableMove.moves (TableMove.tapSide rfl rfl rfl rfl)

theorem allocate_moves (s : State) : Moves reset s (allocate s) := (Move.allots s).moves

theorem coordinate_moves (s : State) : Moves reset s (coordinate s) :=
  ((matchIfDue_moves s).trans (evalTilt_moves _)).trans (allocate_moves _)

theorem recompute_moves (s : State) : Moves reset s (recompute s) :=
  Moves.ite (fun _ => Moves.refl s) fun _ => coordinate_moves s

/-- The deck moved between RUN and BANKED, with SHOP_STATE. -/
theorem setShop_moves {s : State} {st : ShopState} (cause : ShopCause) (was : s.shop.state = .run ∨ s.shop.state = .banked)
    (is : st = .run ∨ st = .banked) : Moves reset s (setShop st cause s) := (Move.mode was is).moves.trans (post_moves _ _)

theorem floorWake_moves (s : State) : Moves reset s (floorWake s) :=
  Moves.ite (fun wakes => (setShop_moves _ (.inr wakes.1) (.inl rfl)).trans (evalHeats_moves _)) fun _ => Moves.refl s

theorem settleHeat_moves (f : Furnace) (s : State) : Moves reset s (settleHeat f s) :=
  Moves.ite (fun _ => Moves.refl s) fun _ =>
    ((evalHeat_moves f s).trans (floorWake_moves _)).trans (coordinate_moves _)

theorem settleAll_moves (s : State) : Moves reset s (settleAll s) :=
  Moves.ite (fun _ => Moves.refl s) fun _ => ((evalHeats_moves s).trans (floorWake_moves _)).trans (coordinate_moves _)

theorem settleNamed_moves (m : PerFurnace Bool) (s : State) : Moves reset s (settleNamed m s) := by
  unfold settleNamed
  split
  · exact Moves.refl s
  · exact settleHeat_moves .a s
  · exact settleHeat_moves .b s
  · exact settleAll_moves s

/-! ### Circuits -/

/-- The circuit is not at its reset value, or the settings load has ended. -/
def CircuitRuns (s : State) (c : Circuit) : Prop := loading s = false ∨ (circuitOf s c).state ≠ .init

theorem CircuitRuns.waits {s : State} {c : Circuit} (runs : CircuitRuns s c) {st : CircuitState} (l : loading s = true)
    (init : (circuitOf s c).state = .init) : st = .init := by
  rcases runs with no | no
  · rw [l] at no; cases no
  · exact absurd init no

theorem stopTimers_stopped (r : CircuitRec) : TimersStopped r.stopTimers := ⟨rfl, rfl, rfl⟩

theorem stopTimers_noTimerRuns (r : CircuitRec) : NoTimerRuns r.stopTimers := stopped_notRunning

theorem startTimer_held {s : State} (moving : s.prot.loop.state = some .changeover) : (startTimer s).mode ≠ .running := by
  simp [startTimer, inChangeover, moving]

theorem runOn_held {s : State} (t : Timer) (moving : s.prot.loop.state = some .changeover) :
    (runOn s t).mode ≠ .running := by simp [runOn, inChangeover, moving]

/-- A circuit law outside TRIP, from the law of a record outside TRIP with the same cause. -/
theorem CircuitLaw.untripped {r x : CircuitRec} (law : CircuitLaw r) (was : r.state ≠ .trip) (is : x.state ≠ .trip)
    (cause : x.cause = r.cause) : CircuitLaw x :=
  ⟨fun e => absurd e is, by rw [cause]; exact ⟨fun h => absurd (law.2.mp h) was, fun h => absurd h is⟩⟩

/-- A record outside TRIP in place of one outside TRIP. -/
theorem CircuitStep.untripped {s : State} {c : Circuit} {x : CircuitRec} (runs : CircuitRuns s c)
    (was : (circuitOf s c).state ≠ .trip) (is : x.state ≠ .trip) (cause : x.cause = (circuitOf s c).cause)
    (held : s.prot.loop.state = some .changeover → NoTimerRuns (circuitOf s c) → NoTimerRuns x) : CircuitStep s c x :=
  ⟨fun e => absurd e was, fun law => law.untripped was is cause, held, fun l init => runs.waits l init⟩

theorem setCircuitRec_moves {s : State} {c : Circuit} {x : CircuitRec} (step : CircuitStep s c x) :
    Moves reset s (setCircuitRec c x s) := (Move.circuit step).moves

theorem leakNoticeAt_moves (q : Port) (old cond : PerFurnace Bool) (s : State) :
    Moves reset s (leakNoticeAt q old cond s) := by
  unfold leakNoticeAt
  dsimp only
  split
  · split
    · exact (Move.leakCarried _ s).moves
    · exact (Move.leakCarried _ s).moves.trans (postTo_moves _ _ _)
  · exact (Move.leakCarried _ s).moves

theorem formConditions_moves (c : Circuit) (s : State) : Moves reset s (formConditions c s) := by
  have formed : CircuitStep s c
      { circuitOf s c with
        hard := (hardCause s c).isSome, soft := softCond s c, leakWarning := leakWarningCond s c } :=
    ⟨id, id, fun _ => id, fun _ => id⟩
  unfold formConditions
  exact (setCircuitRec_moves formed).trans
    (((leakNoticeAt_moves .a _ _ _).trans (leakNoticeAt_moves .b _ _ _)).trans (leakNoticeAt_moves .p _ _ _))

theorem formConditions_runs {c : Circuit} {s : State} (runs : CircuitRuns s c) : CircuitRuns (formConditions c s) c := by
  unfold CircuitRuns
  rw [formConditions_state, formConditions_shape]
  exact runs

theorem enterState_moves {c : Circuit} {x : CircuitRec} {s : State}
    (step : CircuitStep s c { x with enteredAt := now s }) : Moves reset s (enterState c x s) :=
  (setCircuitRec_moves step).trans (post_moves _ _)

theorem enterNormal_moves {c : Circuit} {s : State} (runs : CircuitRuns s c) (was : (circuitOf s c).state ≠ .trip) :
    Moves reset s (enterNormal c s) :=
  enterState_moves (CircuitStep.untripped runs was (by simp) rfl fun _ _ => stopTimers_noTimerRuns _)

theorem enterWatch_moves {c : Circuit} {s : State} (runs : CircuitRuns s c) (was : (circuitOf s c).state ≠ .trip) :
    Moves reset s (enterWatch c s) :=
  enterState_moves (CircuitStep.untripped runs was (by simp) rfl fun moving quiet =>
    ⟨startTimer_held moving, quiet.2.1, quiet.2.2⟩)

theorem enterDerate_moves {c : Circuit} {s : State} (runs : CircuitRuns s c) (was : (circuitOf s c).state ≠ .trip) :
    Moves reset s (enterDerate c s) :=
  enterState_moves (CircuitStep.untripped runs was (by simp) rfl fun moving _ =>
    ⟨stopped_notRunning.1, startTimer_held moving, stopped_notRunning.1⟩)

theorem assertBreaker_moves (s : State) : Moves reset s (assertBreaker s) := (Move.trips s).moves

theorem takeTrip_moves (mask : PerFurnace Bool) (s : State) : Moves reset s (takeTrip mask s) :=
  (Move.tripTaken mask s).moves

theorem tripCircuit_moves {c : Circuit} {s : State} (cause : TripCause) (runs : CircuitRuns s c) :
    Moves reset s (tripCircuit c cause s) := by
  have trips : CircuitStep s c
      { (circuitOf s c).stopTimers with state := .trip, cause := some cause, enteredAt := now s, latch := true } :=
    ⟨fun _ => rfl, fun _ => ⟨fun _ => ⟨rfl, stopTimers_stopped _⟩, by simp⟩, fun _ _ => stopTimers_noTimerRuns _,
      fun l init => runs.waits l init⟩
  unfold tripCircuit
  exact (((setCircuitRec_moves trips).trans (takeTrip_moves (circuitMask c) _)).trans
    (Moves.ite (fun _ => assertBreaker_moves _) fun _ => Moves.refl _)).trans (post_moves _ _)

theorem softReturns_moves {c : Circuit} {s : State} (derate : (circuitOf s c).state = .derate) :
    Moves reset s (softReturns c s) := by
  have runs : CircuitRuns s c := .inr (by rw [derate]; decide)
  refine Moves.ite (fun _ => tripCircuit_moves _ runs) fun _ => setCircuitRec_moves ?_
  exact CircuitStep.untripped runs (by rw [derate]; decide) (by simp [derate]) rfl fun moving quiet =>
    ⟨quiet.1, runOn_held _ moving, by simp [Timer.stop]⟩

theorem advanceCircuit_moves {c : Circuit} {s : State} (loaded : loading s = false) :
    Moves reset s (advanceCircuit c s) := by
  have runs : CircuitRuns s c := .inl loaded
  unfold advanceCircuit
  dsimp only
  split
  · exact Moves.refl s
  · next init =>
    refine Moves.ite (fun _ => tripCircuit_moves _ runs) fun _ => ?_
    split
    · exact tripCircuit_moves _ runs
    · refine Moves.ite (fun _ => Moves.ite (fun _ => enterWatch_moves runs ?_) fun _ => enterNormal_moves runs ?_) fun _ =>
        Moves.refl s
      all_goals rw [init]; decide
  · next normal =>
    split
    · exact tripCircuit_moves _ runs
    · exact Moves.ite (fun _ => enterWatch_moves runs (by rw [normal]; decide)) fun _ => Moves.refl s
  · next watch =>
    split
    · exact tripCircuit_moves _ runs
    · exact Moves.ite (fun _ => Moves.refl s) fun _ => enterNormal_moves runs (by rw [watch]; decide)
  · next derate =>
    split
    · exact tripCircuit_moves _ runs
    · refine Moves.ite (fun _ => setCircuitRec_moves ?_) fun _ => Moves.ite (fun _ => softReturns_moves derate) fun _ =>
        Moves.refl s
      exact CircuitStep.untripped runs (by rw [derate]; decide) (by simp [derate]) rfl fun moving quiet =>
        ⟨quiet.1, by simp, startTimer_held moving⟩

theorem evalCircuit_moves (c : Circuit) (s : State) : Moves reset s (evalCircuit c s) := by
  refine Moves.ite (fun _ => Moves.refl s) fun loaded => (formConditions_moves c s).trans (advanceCircuit_moves ?_)
  rw [formConditions_shape]
  exact Bool.eq_false_iff.mpr loaded

theorem evalCircuits_moves (s : State) : Moves reset s (evalCircuits s) :=
  ((evalCircuit_moves .coilA s).trans (evalCircuit_moves .coilB _)).trans (evalCircuit_moves .cabinet _)

/-- What an expired circuit timer does is done in WATCH or DERATE, on the conditions formed again. -/
theorem formed_moves {c : Circuit} {s : State} {g : State → State} (was : (circuitOf s c).state ≠ .init)
    (move : CircuitRuns (formConditions c s) c → Moves reset (formConditions c s) (g (formConditions c s))) :
    Moves reset s (g (formConditions c s)) :=
  (formConditions_moves c s).trans (move (formConditions_runs (.inr was)))

theorem watchExpires_moves (c : Circuit) (s : State) : Moves reset s (watchExpires c s) :=
  Moves.ite (fun ⟨watch, _⟩ => formed_moves (g := enterDerate c) (by rw [watch]; decide) fun runs =>
    enterDerate_moves runs (by rw [formConditions_state, watch]; decide)) fun _ => Moves.refl s

theorem derateExpires_moves (c : Circuit) (s : State) : Moves reset s (derateExpires c s) :=
  Moves.ite (fun ⟨derate, _⟩ => formed_moves (g := tripCircuit c .derateExpiry) (by rw [derate]; decide) fun runs =>
    tripCircuit_moves _ runs) fun _ => Moves.refl s

theorem recoveryExpires_moves (c : Circuit) (s : State) : Moves reset s (recoveryExpires c s) :=
  Moves.ite (fun ⟨derate, _⟩ => formed_moves (g := enterNormal c) (by rw [derate]; decide) fun runs =>
    enterNormal_moves runs (by rw [formConditions_state, derate]; decide)) fun _ => Moves.refl s

theorem expireOverdue_moves (c : Circuit) (s : State) : Moves reset s (expireOverdue c s) :=
  Moves.ite (fun _ => watchExpires_moves c s) fun _ => Moves.ite (fun _ => derateExpires_moves c s) fun _ =>
    Moves.ite (fun _ => recoveryExpires_moves c s) fun _ => Moves.refl s

theorem expireAllOverdue_moves (s : State) : Moves reset s (expireAllOverdue s) :=
  ((expireOverdue_moves .coilA s).trans (expireOverdue_moves .coilB _)).trans (expireOverdue_moves .cabinet _)

/-! ### The loop -/

theorem LoopRuns.of_state {s : State} {st : LoopState} (h : s.prot.loop.state = some st) : LoopRuns s :=
  .inr (by rw [h]; rfl)

/-- The loop in a state that leaves the circuit timers alone. -/
theorem setLoop_moves {s : State} {st : LoopState} (cause : LoopCause) (latch : Bool) (moving : st ≠ .changeover)
    (working : st ≠ .loopFail) (runs : LoopRuns s) : Moves reset s (setLoop st cause latch s) :=
  (Move.loop (g := id) cause latch (.none moving working) runs).moves

theorem enterChangeover_moves {s : State} (cause : LoopCause) (runs : LoopRuns s) :
    Moves reset s (enterChangeover cause s) :=
  (Move.loop cause true .changeover runs).moves.trans (evalCircuits_moves _)

theorem enterLoopFail_moves {s : State} (cause : LoopCause) (runs : LoopRuns s) :
    Moves reset s (enterLoopFail cause s) := (Move.loopFail cause runs).moves

theorem enterStandby_moves {s : State} (runs : LoopRuns s) : Moves reset s (enterStandby s) :=
  ((Move.loop .settled _ .standby runs).moves.trans (evalCircuits_moves _)).trans (expireAllOverdue_moves _)

theorem returnToMain_moves {s : State} (runs : LoopRuns s) : Moves reset s (returnToMain s) :=
  (setLoop_moves _ _ (by decide) (by decide) runs).trans (evalCircuits_moves _)

theorem settleExpires_moves (s : State) : Moves reset s (settleExpires s) := by
  refine Moves.ite (fun ⟨moving, _⟩ => ?_) fun _ => Moves.refl s
  have runs : LoopRuns s := .of_state (eq_of_beq moving)
  exact Moves.ite (fun _ => enterStandby_moves runs) fun _ => enterLoopFail_moves _ runs

theorem pressureExpires_moves (s : State) : Moves reset s (pressureExpires s) := by
  refine Moves.ite (fun _ => ?_) fun _ => Moves.refl s
  split
  · next main => exact enterChangeover_moves _ (.of_state main)
  · next standby => exact enterLoopFail_moves _ (.of_state standby)
  · exact Moves.refl s

theorem judgePressure_moves (s : State) : Moves reset s (judgePressure s) := (Move.pressure _ s).moves

theorem deriveLoop_moves {s : State} (loaded : loading s = false) : Moves reset s (deriveLoop s) := by
  unfold deriveLoop
  split
  · exact enterChangeover_moves _ (.inl loaded)
  · exact (setLoop_moves _ _ (by decide) (by decide) (.inl loaded)).trans (evalCircuits_moves _)
  · next changeover standby =>
    have working : derivedLoop s ≠ .loopFail := by
      unfold derivedLoop
      split
      · decide
      · split <;> decide
    exact (setLoop_moves _ _ changeover working (.inl loaded)).trans (evalCircuits_moves _)

theorem handUpdate_moves (ch : Chan) (s : State) : Moves reset s (handUpdate ch s) := by
  unfold handUpdate
  split
  · exact evalCircuit_moves _ s
  · exact Moves.ite (fun _ => judgePressure_moves s) fun _ => Moves.refl s

theorem protect_moves {g : State → State} {s : State} (moves : Moves reset s (g s)) : Moves reset s (protect g s) :=
  moves.trans (settleNamed_moves _ _)

end Sys2Proof.Machine
end


section
/-! The requests as chains of moves (R142, R143). -/

namespace Sys2Proof.Machine

variable {reset : Option Circuit}

/-! ### Heats opened, charged and closed -/

theorem setFurnaceSlot_moves {f : Furnace} {x : FurnaceSlot} {s : State} (same : x.slot = slotOf s f) :
    Moves reset s (setFurnaceSlot f x s) := (TableMove.slotSide same).moves

theorem stampFurnace_moves (f : Furnace) (s : State) : Moves reset s (stampFurnace f s) :=
  (setFurnaceSlot_moves (x := { s.heat.slots.get f with stamp := now s }) rfl).trans (Move.clock _ _).moves

theorem heatOf_none_iff {s : State} {f : Furnace} : heatOf s f = none ↔ ∀ h, slotOf s f ≠ .heat h := by
  unfold heatOf
  cases slotOf s f <;> simp

theorem heatOf_none_of {s : State} {f : Furnace} {x : Slot} (slot : slotOf s f = x) (no : ∀ h, x ≠ .heat h) :
    heatOf s f = none := heatOf_none_iff.mpr fun h e => no h (slot.symm.trans e)

theorem heatOf_of_slot {s : State} {f : Furnace} {h : Heat} (slot : slotOf s f = .heat h) : heatOf s f = some h := by
  unfold heatOf
  rw [slot]

/-- A fresh heat has its one charge in the bath. -/
theorem freshHeat_opens {s : State} {f : Furnace} {st : HeatState} {m : Material} {mass energy : Nat}
    (state : st ≠ .tapping ∧ st ≠ .tapReady) (fits : mass ≤ capacity s f) :
    HeatOpens s f (freshHeat s f st m mass energy) where
  number := rfl
  state := state
  mass := by simp [HeatMassLaw, chargedMass, tappedMass, freshHeat]
  charges := show 1 ≤ Config.chargeMax by decide
  bath := fits

theorem openTaken_moves {f : Furnace} {m : Material} {mass : Nat} {s : State} (free : heatOf s f = none) :
    Moves reset s (openTaken f m mass s).1 := by
  unfold openTaken
  dsimp only
  split
  · exact Moves.refl s
  · next fits =>
    have opens := freshHeat_opens (st := .melting) (m := m) (energy := raiseMass mass * meltEnergy s m)
      (by decide) (Nat.le_of_not_lt fits)
    exact ((TableMove.opened free opens).moves.trans (stampFurnace_moves f _)).trans (settleHeat_moves f _)

theorem chargeTaken_moves {f : Furnace} {h : Heat} {m : Material} {mass : Nat} {s : State} (heat : heatOf s f = some h)
    (idle : h.state ≠ .tapping) (room : h.charges.length < Config.chargeMax) :
    Moves reset s (chargeTaken f h m mass s).1 := by
  unfold chargeTaken
  dsimp only
  split
  · exact Moves.refl s
  · next fits =>
    refine Moves.trans ?_ (settleHeat_moves f _)
    refine Moves.trans (Moves.ite (fun _ => post_moves _ _) fun _ => Moves.refl s) (reviseHeat_moves fun h' heat' => ?_)
    obtain rfl : h = h' := by
      split at heat'
      · exact Option.some.inj (heat.symm.trans heat')
      · exact Option.some.inj (heat.symm.trans heat')
    have charged := chargeHeat_revised s f m (raiseMass mass) h idle room (Nat.le_of_not_lt fits)
    split <;> exact charged

theorem closeTaken_moves {f : Furnace} {h : Heat} {s : State} (heat : heatOf s f = some h) (idle : h.state ≠ .tapping) :
    Moves reset s (closeTaken f h s).1 := by
  unfold closeTaken
  dsimp only
  split
  · exact (TableMove.close .closed heat idle).moves.trans (settleHeat_moves f _)
  · exact ((TableMove.succeed heat idle).moves.trans (evalLiquid_moves f _)).trans (settleHeat_moves f _)

theorem restateUnknown_moves {f : Furnace} {mass : Nat} {s : State} (free : heatOf s f = none) :
    Moves reset s (restateUnknown f mass s).1 := by
  unfold restateUnknown
  dsimp only
  split
  · exact (TableMove.emptied free).moves.trans (settleHeat_moves f _)
  · have opens := freshHeat_opens (s := s) (f := f) (st := .superheat) (m := .heel) (energy := 0) (by decide)
      (Nat.min_le_right mass (capacity s f))
    exact ((TableMove.opened free opens).moves.trans (stampFurnace_moves f _)).trans (settleHeat_moves f _)

theorem restateHeat_revised {cap mass : Nat} {h : Heat} (idle : h.state ≠ .tapping) (fits : mass ≤ cap) :
    HeatRevised cap h (restateHeat mass h) where
  number := rfl
  tapping := Iff.rfl
  openTap := rfl
  mass := fun _ => by
    show (mass : Int) = chargedMass h + ((mass : Int) - chargedMass h + tappedMass h) - tappedMass h
    omega
  charges := id
  bath := Nat.le_trans fits (Nat.le_max_right _ _)
  pouring := fun t => absurd t idle

theorem restateLiquid_moves {f : Furnace} {h : Heat} {mass : Nat} {s : State} (heat : heatOf s f = some h)
    (idle : h.state ≠ .tapping) : Moves reset s (restateLiquid f h mass s).1 := by
  refine Moves.trans (Moves.ite (fun _ => (TableMove.close .lost heat idle).moves) fun _ => ?_) (settleHeat_moves f _)
  exact setHeat_moves heat (restateHeat_revised idle (Nat.min_le_right _ _)) id

/-! ### The deck requests -/

theorem onDeck_moves {q : Port} {g : Furnace → State → State × Reply} {s : State}
    (each : ∀ f, Moves reset s (g f s).1) : Moves reset s (onDeck q g s).1 := by
  unfold onDeck
  split
  · exact each _
  · exact Moves.refl s

theorem handleOpenHeat_moves (q : Port) (body : List Byte) (s : State) : Moves reset s (handleOpenHeat q body s).1 :=
  onDeck_moves fun f => by
    split
    · next empty =>
      split
      · exact openTaken_moves (heatOf_none_of empty fun _ => by simp)
      · exact Moves.refl s
    · exact Moves.refl s

theorem handleAddCharge_moves (q : Port) (body : List Byte) (s : State) : Moves reset s (handleAddCharge q body s).1 :=
  onDeck_moves fun f => by
    split
    · exact Moves.refl s
    · next h heat =>
      split
      · exact Moves.refl s
      · next idle =>
        split
        · exact Moves.refl s
        · split
          · exact Moves.refl s
          · next room => exact chargeTaken_moves heat idle (Nat.lt_of_not_le room)

theorem handleSetMeltPower_moves {q : Port} {body : List Byte} {s : State} (loaded : loading s = false) :
    Moves reset s (handleSetMeltPower q body s).1 :=
  onDeck_moves fun f => by
    split
    · exact Moves.refl s
    · exact (Move.meltRequest f _ loaded).moves.trans (recompute_moves _)

theorem handleSetHoldTarget_moves (q : Port) (body : List Byte) (s : State) :
    Moves reset s (handleSetHoldTarget q body s).1 :=
  onDeck_moves fun f => by
    split
    · exact Moves.refl s
    · refine Moves.trans (reviseHeat_moves fun _ _ => ?_) (settleHeat_moves f _)
      exact HeatRevised.of_fields rfl Iff.rfl rfl rfl rfl rfl rfl

theorem handleSetChemistry_moves (q : Port) (body : List Byte) (s : State) :
    Moves reset s (handleSetChemistry q body s).1 :=
  onDeck_moves fun f => by
    split
    · exact Moves.refl s
    · split
      · exact Moves.refl s
      · next c _ =>
        refine Moves.trans (editHeat_moves (g := fun h => { h with chemistry := c }) fun _ => ⟨?_, rfl⟩)
          (settleHeat_moves f _)
        exact HeatRevised.of_fields rfl Iff.rfl rfl rfl rfl rfl rfl

theorem handleCloseHeat_moves (q : Port) (body : List Byte) (s : State) : Moves reset s (handleCloseHeat q body s).1 :=
  onDeck_moves fun f => by
    split
    · exact Moves.refl s
    · next h heat =>
      split
      · exact Moves.refl s
      · next idle => exact closeTaken_moves heat idle

theorem handleRestate_moves (q : Port) (body : List Byte) (s : State) : Moves reset s (handleRestate q body s).1 :=
  onDeck_moves fun f => by
    split
    · exact Moves.refl s
    · next unknown => exact restateUnknown_moves (heatOf_none_of unknown fun _ => by simp)
    · next h slot =>
      split
      · exact Moves.refl s
      · next liquid => exact restateLiquid_moves (heatOf_of_slot slot) fun t => liquid (.inr t)

theorem setStopped_moves (f : Furnace) (b : Bool) (s : State) : Moves reset s (setStopped f b s) :=
  setFurnaceSlot_moves (x := { s.heat.slots.get f with stopped := b }) rfl

theorem handleFurnaceOn_moves (q : Port) (body : List Byte) (s : State) : Moves reset s (handleFurnaceOn q body s).1 :=
  onDeck_moves fun f => (setStopped_moves f false s).trans (recompute_moves _)

theorem handleTapOpen_moves (q : Port) (body : List Byte) (s : State) : Moves reset s (handleTapOpen q body s).1 :=
  onDeck_moves fun f => by
    split
    · split
      · split <;> exact Moves.refl s
      · exact Moves.refl s
    · next free =>
      split
      · exact setKept_moves f none s
      · split
        · next e assigned => exact (TableMove.pend assigned free).moves.trans (recompute_moves _)
        · exact Moves.refl s

/-! ### The deck-wide requests -/

/-- The conditions of a TRIP-RESET (R111). -/
def ResetClear (s : State) (c : Circuit) : Prop :=
  loading s = false ∧ allValid s c = true ∧ hardCause s c = none ∧ softCond s c = false
    ∧ s.prot.loop.state ≠ some .loopFail

theorem handleTripReset_moves {q : Port} {body : List Byte} {s : State} (loaded : loading s = false)
    (may : ∀ c, circuitNamed (field body 0 1) = some c → ResetClear s c → reset = some c) :
    Moves reset s (handleTripReset q body s).1 := by
  unfold handleTripReset
  split
  · exact Moves.refl s
  · next c named =>
    dsimp only
    split
    · exact Moves.refl s
    · split
      · next clear =>
        obtain ⟨valid, hard, soft, working⟩ := clear
        have working : s.prot.loop.state ≠ some .loopFail := fun fail => by rw [fail] at working; cases working
        have hard : hardCause s c = none := by simpa using hard
        exact protect_moves (Move.reset (may c named ⟨loaded, valid, hard, soft, working⟩) loaded working).moves
      · exact Moves.refl s

theorem handleResume_moves {q : Port} {body : List Byte} {s : State} (loaded : loading s = false) :
    Moves reset s (handleResume q body s).1 := by
  unfold handleResume
  split
  · next held => exact ((Move.resume held loaded).moves.trans (post_moves _ _)).trans (settleAll_moves _)
  · exact Moves.refl s

theorem handleLinkRestart_moves (q : Port) (body : List Byte) (s : State) :
    Moves reset s (handleLinkRestart q body s).1 := by
  unfold handleLinkRestart
  split
  · next fault =>
    refine Moves.trans ?_ (recompute_moves _)
    refine Moves.trans (Move.stage (x := { s.stage with link := .down, babble := [] }) rfl fun law => ?_).moves
      (post_moves _ _)
    obtain ⟨timed, assembly, left⟩ := law
    rw [fault] at timed left
    exact ⟨by simpa using timed, assembly, fun _ => left (by decide)⟩
  · exact Moves.refl s

theorem handlePumpReturn_moves {q : Port} {body : List Byte} {s : State} :
    Moves reset s (handlePumpReturn q body s).1 := by
  unfold handlePumpReturn
  dsimp only
  split
  · next standby =>
    split
    · exact protect_moves (returnToMain_moves (.of_state standby))
    · exact Moves.refl s
  · next fail =>
    split
    · exact protect_moves (returnToMain_moves (.of_state fail))
    · exact Moves.refl s
  · exact Moves.refl s

/-! ### The permit and its taps -/

theorem setPermit_moves {s : State} {p p' : Permit} (held : s.tap.permit = some p)
    (same : p'.state = p.state ∧ p'.furnace = p.furnace ∧ p'.requestId = p.requestId) (weight : p'.weight = p.weight) :
    Moves reset s (setPermit (some p') s) := (TableMove.permit held same (.inl weight)).moves

theorem completeTap_moves {s : State} {p : Permit} {mass : Nat} {clamped timeout : Bool} (held : s.tap.permit = some p)
    (granted : p.state = .granted) (weighed : mass = 0 ∨ ∃ w ∈ p.weight, w.mass = mass) :
    Moves reset s (completeTap p mass clamped timeout s) := by
  rw [completeTap_eq]
  exact ((TableMove.complete clamped timeout held granted weighed).moves.trans (post_moves _ _)).trans
    (settleHeat_moves _ _)

theorem permitOfEntry_none_iff {s : State} {id : Nat} :
    permitOfEntry s id = none ↔ ∀ p ∈ s.tap.permit, p.requestId ≠ id := by
  unfold permitOfEntry
  cases s.tap.permit with
  | none => simp
  | some p => by_cases same : p.requestId = id <;> simp [same]

theorem permitOfEntry_held {s : State} {id : Nat} {p : Permit} (h : permitOfEntry s id = some p) :
    s.tap.permit = some p ∧ p.requestId = id := by
  unfold permitOfEntry at h
  split at h
  · next held =>
    split at h
    · next same => exact ⟨by rw [held, Option.some.inj h], Option.some.inj h ▸ same⟩
    · cases h
  · cases h

theorem wakeOnPostTap_moves (s : State) : Moves reset s (wakeOnPostTap s) :=
  Moves.ite (fun wakes => (setShop_moves _ (.inr wakes.1) (.inl rfl)).trans (settleAll_moves _)) fun _ =>
    recompute_moves s

theorem handlePostTap_moves {q : Port} {body : List Byte} {s : State} (loaded : loading s = false) :
    Moves reset s (handlePostTap q body s).1 := by
  unfold handlePostTap
  dsimp only
  split
  · exact Moves.refl s
  · next pref _ =>
    split
    · exact Moves.refl s
    · split
      · exact Moves.refl s
      · next single =>
        split
        · exact Moves.refl s
        · next room =>
          refine Moves.trans (TableMove.append (e := newEntry s pref body) rfl rfl (fun x mem same => ?_)
            (Nat.lt_of_not_le room) loaded).moves (wakeOnPostTap_moves _)
          exact single (List.any_eq_true.mpr ⟨x, mem, beq_iff_eq.mpr same⟩)

theorem handleCancelTap_moves (q : Port) (body : List Byte) (s : State) : Moves reset s (handleCancelTap q body s).1 := by
  unfold handleCancelTap
  dsimp only
  split
  · exact Moves.refl s
  · split
    · next none => exact (TableMove.remove (permitOfEntry_none_iff.mp none)).moves.trans (recompute_moves _)
    · next p found =>
      split
      · next pending =>
        exact (TableMove.refuse _ _ (permitOfEntry_held found).1 pending).moves.trans (recompute_moves _)
      · exact Moves.refl s

theorem weightTaken_moves {p : Permit} {mass : Nat} {s : State} (held : s.tap.permit = some p)
    (granted : p.state = .granted) : Moves reset s (weightTaken p mass s).1 := by
  have stored : ∀ w : Weight, w.mass ≤ bathMassOf s p.furnace →
      Moves reset s (setPermit (some { p with weight := some w }) s) := fun w fits => by
    have within : ∀ x ∈ some w, x.mass ≤ bathMassOf s p.furnace := fun x e => by
      obtain rfl : w = x := Option.some.inj e
      exact fits
    exact (TableMove.permit (p' := { p with weight := some w }) held ⟨rfl, rfl, rfl⟩ (.inr ⟨granted, within⟩)).moves
  unfold weightTaken
  dsimp only
  split
  · exact (stored _ (Nat.min_le_right _ _)).trans (completeTap_moves rfl granted (.inr ⟨_, rfl, rfl⟩))
  · exact stored _ (Nat.min_le_right _ _)

theorem handleTapWeight_moves (q : Port) (body : List Byte) (s : State) : Moves reset s (handleTapWeight q body s).1 := by
  unfold handleTapWeight
  dsimp only
  split
  · next p held =>
    split
    · next granted =>
      split
      · exact weightTaken_moves held granted.1
      · exact Moves.refl s
    · repeat' split
      all_goals exact Moves.refl s
  · repeat' split
    all_goals exact Moves.refl s

/-! ### The shop requests -/

theorem handleBank_moves (q : Port) (body : List Byte) (s : State) : Moves reset s (handleBank q body s).1 := by
  unfold handleBank
  split
  · next run =>
    split
    · exact Moves.refl s
    · exact (setShop_moves _ (.inl run) (.inr rfl)).trans (settleAll_moves _)
  all_goals exact Moves.refl s

theorem handleWake_moves (q : Port) (body : List Byte) (s : State) : Moves reset s (handleWake q body s).1 := by
  unfold handleWake
  split
  · next banked => exact (setShop_moves _ (.inr banked) (.inl rfl)).trans (settleAll_moves _)
  all_goals exact Moves.refl s

end Sys2Proof.Machine
end


section
/-! The settings, the ports and the events as chains of moves. -/

namespace Sys2Proof.Machine

variable {reset : Option Circuit}

/-! ### The tap timers -/

theorem refusePermit_moves {s : State} {p : Permit} (r : Reason) (remove : Bool) (held : s.tap.permit = some p)
    (pending : p.state = .pending) : Moves reset s (refusePermit p r remove s) :=
  (TableMove.refuse r remove held pending).moves

theorem confirmExpires_moves (s : State) : Moves reset s (confirmExpires s) := by
  unfold confirmExpires
  split
  · next p held =>
    exact Moves.ite (fun due => (refusePermit_moves _ _ held due.1).trans (recompute_moves _)) fun _ => Moves.refl s
  · exact Moves.refl s

theorem withdrawPermit_moves {s : State} {p : Permit} (held : s.tap.permit = some p) (granted : p.state = .granted) :
    Moves reset s (withdrawPermit p s) := by
  rw [withdrawPermit_eq]
  exact (TableMove.withdraw held granted).moves.trans (settleHeat_moves _ _)

theorem useExpires_moves (s : State) : Moves reset s (useExpires s) := by
  unfold useExpires
  split
  · next p held => exact Moves.ite (fun due => withdrawPermit_moves held due.1) fun _ => Moves.refl s
  · exact Moves.refl s

theorem tapMaxExpires_moves (s : State) : Moves reset s (tapMaxExpires s) := by
  unfold tapMaxExpires
  split
  · next p held =>
    exact Moves.ite (fun _ => (setPermit_moves (p' := { p with longPosted := true }) held ⟨rfl, rfl, rfl⟩ rfl).trans
      (post_moves _ _)) fun _ => Moves.refl s
  · exact Moves.refl s

theorem weightWaitExpires_moves (s : State) : Moves reset s (weightWaitExpires s) := by
  unfold weightWaitExpires
  split
  · next p held => exact Moves.ite (fun due => completeTap_moves held due.1 (.inl rfl)) fun _ => Moves.refl s
  · exact Moves.refl s

/-! ### A write taken up (R154) -/

theorem scan_moves (x : Scanner) (s : State) : Moves reset s { s with scan := x } := (Move.scan x s).moves

theorem failDip_moves (f : Furnace) (reason : DipFailure) (next : DipState) (s : State) :
    Moves reset s (failDip f reason next s) := (scan_moves _ s).trans (post_moves _ _)

theorem endDip_moves (f : Furnace) (reason : DipFailure) (s : State) : Moves reset s (endDip f reason s) :=
  Moves.ite (fun _ => failDip_moves f reason _ s) fun _ => Moves.refl s

theorem takeFlags_moves (changed : List Chan) (s : State) : Moves reset s (takeFlags changed s) := by
  unfold takeFlags
  induction changed generalizing s with
  | nil => exact Moves.refl s
  | cons ch rest ih => exact ((scan_moves _ s).trans (handUpdate_moves ch _)).trans (ih _)

theorem restartSweep_moves (s : State) : Moves reset s (restartSweep s) := scan_moves _ s

theorem scannerTakesUp_moves (old new : List Nat) (s : State) : Moves reset s (scannerTakesUp old new s) :=
  Moves.ite (fun _ => Moves.refl s) fun _ =>
    (((takeFlags_moves _ s).trans (restartSweep_moves _)).trans (endDip_moves .a _ _)).trans (endDip_moves .b _ _)

theorem circuitTakesUp_moves (old new : List Nat) (c : Circuit) (s : State) :
    Moves reset s (circuitTakesUp old new c s) :=
  Moves.ite (fun _ => (evalCircuit_moves c s).trans (expireOverdue_moves c _)) fun _ => Moves.refl s

theorem loopTakesUp_moves (old new : List Nat) (s : State) : Moves reset s (loopTakesUp old new s) :=
  Moves.trans (Moves.ite (fun _ => judgePressure_moves s) fun _ => Moves.refl s)
    (Moves.ite (fun _ => settleExpires_moves _) fun _ => Moves.refl _)

theorem protectionTakesUp_moves (old new : List Nat) (s : State) : Moves reset s (protectionTakesUp old new s) :=
  (((circuitTakesUp_moves old new .coilA s).trans (circuitTakesUp_moves old new .coilB _)).trans
    (circuitTakesUp_moves old new .cabinet _)).trans (loopTakesUp_moves old new _)

theorem tapTakesUp_moves (old new : List Nat) (s : State) : Moves reset s (tapTakesUp old new s) := by
  unfold tapTakesUp
  split
  · exact Moves.refl s
  · exact Moves.ite (fun _ => confirmExpires_moves s) fun _ => Moves.ite (fun _ => useExpires_moves s) fun _ =>
      Moves.ite (fun _ => tapMaxExpires_moves s) fun _ => Moves.ite (fun _ => weightWaitExpires_moves s) fun _ =>
        Moves.refl s

/-- Everything that follows the new working copy. -/
theorem takeUpWrite_moves {q : Port} {n : Nat} {new : List Nat} {s : State} (working : Moves reset s (setWorking new s))
    (loaded : loading s = false) : Moves reset s (takeUpWrite q n new s) := by
  have refit : ∀ (u : State) (f : Furnace) (v : State) (cp : Nat), Moves reset v (reviseHeat f (refitHeat u cp) v) :=
    fun u f v cp => reviseHeat_moves fun h _ => refitHeat_revised u cp _ h
  unfold takeUpWrite
  dsimp only
  refine Moves.trans ?_ (settleAll_moves _)
  refine Moves.trans ?_ (askMatching_moves _)
  refine Moves.trans ?_ (tapTakesUp_moves _ _ _)
  refine Moves.trans ?_ (protectionTakesUp_moves _ _ _)
  refine Moves.trans ?_ (scannerTakesUp_moves _ _ _)
  refine Moves.trans ?_ (refit _ .b _ _)
  refine Moves.trans ?_ (refit _ .a _ _)
  refine Moves.trans ?_ (Move.meltRequest .b _ (by exact loaded)).moves
  refine Moves.trans ?_ (Move.meltRequest .a _ (by exact loaded)).moves
  exact working.trans (post_moves _ _)

theorem isSetting_bounds {n : Nat} (h : isSetting n = true) : 1 ≤ n ∧ n ≤ 65 := by
  simpa [isSetting] using h

theorem acceptsValue_named {n value : Nat} (h : acceptsValue n value = true) (named : 52 ≤ n) : value ≤ 1 := by
  simp only [acceptsValue, Bool.or_eq_true, decide_eq_true_eq] at h
  omega

theorem writeSettingValue_moves {q : Port} {n value : Nat} {s : State} (setting : isSetting n = true)
    (accepted : acceptsValue n value = true) (loaded : loading s = false) :
    Moves reset s (writeSettingValue q n value s) := by
  obtain ⟨low, high⟩ := isSetting_bounds setting
  exact Moves.ite (fun _ => Moves.refl s) fun _ =>
    takeUpWrite_moves (Move.working low high (acceptsValue_named accepted) loaded).moves loaded

/-! ### The settings channel and the settings memory -/

theorem touchChannel_moves (q : Port) (s : State) : Moves reset s (touchChannel q s) :=
  Moves.ite (fun mine => (Move.settings (x := { s.sett with idle := some 0 }) rfl rfl
    fun _ => by simp [mine]).moves) fun _ => Moves.refl s

theorem takeChannel_moves (q : Port) (s : State) : Moves reset s (takeChannel q s) :=
  Moves.ite (fun _ => (Move.settings (x := { s.sett with owner := some q, idle := some 0 }) rfl rfl
    fun _ => by simp).moves) fun _ => Moves.refl s

theorem freeChannel_moves (s : State) : Moves reset s (freeChannel s) :=
  (Move.settings (x := { s.sett with owner := none, idle := none }) rfl rfl fun _ => by simp).moves

theorem loading_touchChannel (q : Port) (s : State) : loading (touchChannel q s) = loading s := by
  unfold touchChannel
  split <;> rfl

theorem loading_takeChannel (q : Port) (s : State) : loading (takeChannel q s) = loading s := by
  unfold takeChannel
  split <;> rfl

/-- The memory interface moved between IDLE and SAVING. -/
theorem memory_moves {s : State} {m : MemInterface} (block : StoredBlock) (was : loading s = false) (is : m ≠ .loading) :
    Moves reset s { s with sett := { s.sett with memory := m, block := block } } := by
  refine (Move.settings (x := { s.sett with memory := m, block := block }) rfl ?_ id).moves
  rw [was]
  exact beq_eq_false_iff_ne.mpr is

theorem handleReadSetting_moves (q : Port) (body : List Byte) (s : State) :
    Moves reset s (handleReadSetting q body s).1 := by
  unfold handleReadSetting
  dsimp only
  split <;> exact touchChannel_moves q s

theorem handleWriteSetting_moves {q : Port} {body : List Byte} {s : State} (loaded : loading s = false) :
    Moves reset s (handleWriteSetting q body s).1 := by
  unfold handleWriteSetting
  dsimp only
  split
  · exact touchChannel_moves q s
  · next taken =>
    simp only [not_or, Bool.not_eq_false] at taken
    split
    · exact touchChannel_moves q s
    · split
      · exact touchChannel_moves q s
      · refine ((touchChannel_moves q s).trans (takeChannel_moves q _)).trans (writeSettingValue_moves taken.1 taken.2 ?_)
        rw [loading_takeChannel, loading_touchChannel, loaded]

theorem handleSaveSettings_moves {q : Port} {body : List Byte} {s : State} (loaded : loading s = false) :
    Moves reset s (handleSaveSettings q body s).1 := by
  unfold handleSaveSettings
  dsimp only
  split
  · exact touchChannel_moves q s
  · split
    · exact touchChannel_moves q s
    · refine ((touchChannel_moves q s).trans (takeChannel_moves q _)).trans (memory_moves _ ?_ (by decide))
      rw [loading_takeChannel, loading_touchChannel, loaded]

theorem handleReleaseChannel_moves (q : Port) (body : List Byte) (s : State) :
    Moves reset s (handleReleaseChannel q body s).1 := by
  unfold handleReleaseChannel
  split
  · exact freeChannel_moves s
  · exact Moves.refl s

theorem not_loading_of_saving {s : State} (saving : s.sett.memory = .saving) : loading s = false := by
  unfold loading
  rw [saving]
  rfl

theorem endSave_moves (r : SaveResult) (s : State) : Moves reset s (endSave r s) := by
  refine Moves.ite (fun saving => ?_) fun _ => Moves.refl s
  have loaded := not_loading_of_saving saving
  split
  · exact (memory_moves _ loaded (by decide)).trans (post_moves _ _)
  · exact (memory_moves _ loaded (by decide)).trans (post_moves _ _)

theorem idleExpires_moves (s : State) : Moves reset s (idleExpires s) :=
  Moves.ite (fun _ => freeChannel_moves s) fun _ => Moves.refl s

/-! ### Notices acknowledged (R148) -/

theorem setPort_moves {s : State} {q : Port} {x : PortRec} (kept : PortKept (s.ports.get q) x) :
    Moves reset s (setPort q x s) := (Move.port kept).moves

theorem PortKept.refl (x : PortRec) : PortKept x x := ⟨rfl, List.Sublist.refl _, .inl rfl, .inl rfl⟩

theorem PortKept.trans {x y z : PortRec} (h : PortKept x y) (g : PortKept y z) : PortKept x z where
  serial := g.serial.trans h.serial
  notices := g.notices.trans h.notices
  assembly := by
    rcases g.assembly with e | e
    · rw [e]
      exact h.assembly
    · exact .inr e
  buffer := by
    rcases g.buffer with e | e
    · rw [e]
      exact h.buffer
    · exact .inr e

theorem clear_kept (k : NoticeKind) (x : PortRec) : PortKept x (x.clear k) :=
  ⟨rfl, List.filter_sublist, .inl rfl, .inl rfl⟩

theorem clearKinds_kept (kinds : List (NoticeKind × Nat)) (x : PortRec) : PortKept x (clearKinds x kinds).1 := by
  induction kinds generalizing x with
  | nil => exact PortKept.refl x
  | cons named rest ih =>
    unfold clearKinds
    split
    · exact ih x
    · dsimp only
      split
      · exact (clear_kept _ x).trans (ih _)
      · exact ih x

theorem repostFreeze_moves (q : Port) (s : State) : Moves reset s (repostFreeze q s) := by
  unfold repostFreeze
  split
  · exact Moves.ite (fun _ => postTo_moves _ _ _) fun _ => Moves.refl s
  · exact Moves.refl s

theorem repostCooling_moves (q : Port) (s : State) : Moves reset s (repostCooling q s) :=
  Moves.ite (fun _ => Moves.refl s) fun _ => postTo_moves _ _ _

theorem repostLeak_moves (q : Port) (s : State) : Moves reset s (repostLeak q s) := by
  unfold repostLeak
  split
  · exact (Move.leakCarried _ s).moves.trans (postTo_moves _ _ _)
  · exact Moves.refl s

theorem repostTilt_moves (q : Port) (s : State) : Moves reset s (repostTilt q s) := by
  unfold repostTilt
  split
  · next f _ =>
    have carried := TableMove.tapSide (s := s)
      (x := { s.tap with tiltCarried := s.tap.tiltCarried.set q (some (tiltDetail s f)) }) rfl rfl rfl rfl
    exact carried.moves.trans (postTo_moves _ _ _)
  · exact Moves.refl s

theorem repostStuck_moves (q : Port) (s : State) : Moves reset s (repostStuck q s) :=
  Moves.ite (fun _ => postTo_moves _ _ _) fun _ => Moves.refl s

theorem repostKind_moves (q : Port) (k : NoticeKind) (s : State) : Moves reset s (repostKind q k s) := by
  unfold repostKind
  split
  · exact repostFreeze_moves q s
  · exact repostCooling_moves q s
  · exact repostLeak_moves q s
  · exact repostTilt_moves q s
  · exact repostStuck_moves q s
  all_goals exact Moves.refl s

theorem reposts_moves (q : Port) (kinds : List NoticeKind) (s : State) :
    Moves reset s (kinds.foldl (fun t k => repostKind q k t) s) := by
  induction kinds generalizing s with
  | nil => exact Moves.refl s
  | cons k rest ih => exact (repostKind_moves q k s).trans (ih _)

theorem ackTaken_moves (q : Port) (kinds : List (NoticeKind × Nat)) (s : State) :
    Moves reset s (ackTaken q kinds s).1 :=
  ((setPort_moves (clearKinds_kept kinds _)).trans (reposts_moves q _ _)).trans
    (setPort_moves ⟨rfl, List.Sublist.refl _, .inl rfl, .inl rfl⟩)

theorem handleAckNotices_moves (q : Port) (body : List Byte) (s : State) :
    Moves reset s (handleAckNotices q body s).1 := by
  unfold handleAckNotices
  split
  · exact Moves.refl s
  · split
    · exact Moves.refl s
    · exact ackTaken_moves q _ s

theorem handleSetNoticeEnables_moves (q : Port) (body : List Byte) (s : State) :
    Moves reset s (handleSetNoticeEnables q body s).1 :=
  setPort_moves ⟨rfl, List.Sublist.refl _, .inl rfl, .inl rfl⟩

/-! ### A request at its port -/

/-- A request that takes a circuit out of TRIP names it, and finds the conditions of R111. -/
def ResetsOnly (reset : Option Circuit) (q : Port) (fr : Frame) (s : State) : Prop :=
  RequestKind.ofCode fr.kind.toNat = some .tripReset → fr.body.length = 1 → permitted .tripReset q fr.body = true →
    ∀ c, circuitNamed (field fr.body 0 1) = some c → ResetClear s c → reset = some c

theorem handleReads_moves {k : RequestKind} {q : Port} {body : List Byte} {s : State} (h : (handle k q body s).1 = s) :
    Moves reset s (handle k q body s).1 := by
  rw [h]
  exact Moves.refl s

theorem handle_moves {k : RequestKind} {q : Port} {body : List Byte} {s : State} (loaded : loading s = false)
    (may : k = .tripReset → ∀ c, circuitNamed (field body 0 1) = some c → ResetClear s c → reset = some c) :
    Moves reset s (handle k q body s).1 := by
  cases k with
  | openHeat => exact handleOpenHeat_moves q body s
  | addCharge => exact handleAddCharge_moves q body s
  | setMeltPower => exact handleSetMeltPower_moves (q := q) (body := body) loaded
  | setHoldTarget => exact handleSetHoldTarget_moves q body s
  | setChemistry => exact handleSetChemistry_moves q body s
  | closeHeat => exact handleCloseHeat_moves q body s
  | restate => exact handleRestate_moves q body s
  | furnaceOn => exact handleFurnaceOn_moves q body s
  | tapOpen => exact handleTapOpen_moves q body s
  | tripReset => exact handleTripReset_moves (q := q) loaded (may rfl)
  | resume => exact handleResume_moves (q := q) (body := body) loaded
  | linkRestart => exact handleLinkRestart_moves q body s
  | pumpReturn => exact handlePumpReturn_moves (q := q) (body := body)
  | postTap => exact handlePostTap_moves (q := q) (body := body) loaded
  | cancelTap => exact handleCancelTap_moves q body s
  | tapWeight => exact handleTapWeight_moves q body s
  | bank => exact handleBank_moves q body s
  | wake => exact handleWake_moves q body s
  | readSetting => exact handleReadSetting_moves q body s
  | writeSetting => exact handleWriteSetting_moves (q := q) (body := body) loaded
  | saveSettings => exact handleSaveSettings_moves (q := q) (body := body) loaded
  | releaseChannel => exact handleReleaseChannel_moves q body s
  | queryFurnace => exact handleReads_moves (by simp only [handle, handleQueryFurnace]; split <;> rfl)
  | readLog => exact handleReads_moves (by simp only [handle, handleReadLog]; split <;> rfl)
  | ackNotices => exact handleAckNotices_moves q body s
  | setNoticeEnables => exact handleSetNoticeEnables_moves q body s
  | queryQueue | queryProtection | queryChannels | queryAllotment | queryShop | readNotices =>
    exact handleReads_moves rfl

theorem answerTo_moves {q : Port} {fr : Frame} {s : State} (may : ResetsOnly reset q fr s) :
    Moves reset s (answerTo q fr s).1 := by
  unfold answerTo
  split
  · exact Moves.refl s
  · next loaded =>
    split
    · exact Moves.refl s
    · next k kind =>
      split
      · exact Moves.refl s
      · next length =>
        split
        · exact Moves.refl s
        · next allowed =>
          refine handle_moves (Bool.eq_false_iff.mpr loaded) fun e c named => ?_
          subst e
          exact may kind (by simpa [RequestKind.lengthOk] using length) (by simpa using allowed) c named

/-- The request in hand and its answer change no notice. -/
theorem take_moves {q : Port} {fr : Frame} {s : State} (may : ResetsOnly reset q fr s) : Moves reset s (take q fr s) :=
  (answerTo_moves may).trans (setPort_moves ⟨rfl, List.Sublist.refl _, .inl rfl, .inl rfl⟩)

theorem dropAssembly_moves (q : Port) (s : State) : Moves reset s (dropAssembly q s) :=
  setPort_moves ⟨rfl, List.Sublist.refl _, .inr rfl, .inl rfl⟩

/-- A frame that does not wait in the buffer is taken, or discarded. -/
theorem arrive_moves {q : Port} {fr : Frame} {s : State}
    (may : (s.ports.get q).inHand = none → ResetsOnly reset q fr s)
    (taken : (s.ports.get q).inHand = none ∨ (s.ports.get q).buffer.isSome = true) : Moves reset s (arrive q fr s) := by
  unfold arrive
  dsimp only
  refine Moves.trans (dropAssembly_moves q s) ?_
  split
  · next free => exact take_moves (may free)
  · next held hand =>
    split
    · next room =>
      rcases taken with free | full
      · rw [hand] at free
        cases free
      · rw [room] at full
        cases full
    · exact Moves.refl _

theorem answerGone_moves {q : Port} {s : State}
    (may : ∀ fr, (s.ports.get q).inHand.isSome = true → (s.ports.get q).buffer = some fr → ResetsOnly reset q fr s) :
    Moves reset s (answerGone q s) := by
  unfold answerGone
  dsimp only
  split
  · exact Moves.refl s
  · next held hand =>
    refine Moves.trans (setPort_moves (x := { s.ports.get q with inHand := none, answer := none, buffer := none })
      ⟨rfl, List.Sublist.refl _, .inl rfl, .inr rfl⟩) ?_
    split
    · exact Moves.refl _
    · next fr buffered => exact take_moves (may fr (by rw [hand]; rfl) buffered)

theorem discardFrame_moves (q : Port) (bytes : List Byte) (s : State) : Moves reset s (discardFrame q bytes s) := by
  rw [discardFrame_shape]
  exact Moves.ite (fun _ => dropAssembly_moves q s) fun _ => Moves.refl s

theorem gapAfter_moves (q : Port) (bytes : List Byte) (s : State) : Moves reset s (gapAfter q bytes s) := by
  rw [gapAfter_shape]
  exact dropAssembly_moves q s

theorem badLength_moves (q : Port) (len : Byte) (s : State) : Moves reset s (badLength q len s) := by
  rw [badLength_shape]
  exact Moves.ite (fun _ => Moves.refl s) fun _ => dropAssembly_moves q s

theorem endGap_moves (q : Port) (s : State) : Moves reset s (endGap q s) :=
  setPort_moves ⟨rfl, List.Sublist.refl _, .inl rfl, .inl rfl⟩

end Sys2Proof.Machine
end


section
/-! The events as chains of moves, and every step: a reset, the end of the settings load, a pulse timer, a millisecond, or a
chain of moves. -/

namespace Sys2Proof.Machine

variable {reset : Option Circuit}

/-! ### The plant's lines -/

theorem deckOff_moves (f : Furnace) (d : DeckOff) (s : State) : Moves reset s (setDeckOff f d s) :=
  (Move.decks _ s).moves

theorem breakerOpens_moves (s : State) : Moves reset s (breakerOpens s) := by
  have opened : Moves reset s _ := (Move.breakerOpens s).moves
  unfold breakerOpens
  dsimp only
  split
  · next off =>
    rw [← off] at opened
    exact opened
  · exact (opened.trans (post_moves _ _)).trans (settleAll_moves _)

theorem breakerCloses_moves {s : State} (was : s.lines.breakerClosed = false) : Moves reset s (breakerCloses s) := by
  unfold breakerCloses
  dsimp only
  refine Moves.trans (t := if s.shop.state = .supplyOff then _ else _) ?_ (Moves.trans
    (Moves.ite (fun _ => assertBreaker_moves _) fun _ => Moves.refl _) (settleAll_moves _))
  exact Moves.ite (fun off => (Move.breakerCloses off).moves.trans (post_moves _ _)) fun on =>
    (Move.breakerBack was on).moves

theorem breakerChanges_moves (closed : Bool) (s : State) : Moves reset s (breakerChanges closed s) := by
  unfold breakerChanges
  split
  · exact Moves.refl s
  · next differs =>
    cases closed
    · exact breakerOpens_moves s
    · exact breakerCloses_moves (by simpa using differs)

theorem deckPressed_moves (f : Furnace) (s : State) : Moves reset s (deckPressed f s) :=
  Moves.ite (fun _ => Moves.refl s) fun _ =>
    (((deckOff_moves f _ s).trans (Moves.ite (fun _ => setStopped_moves f true _) fun _ => Moves.refl _)).trans
      (post_moves _ _)).trans (recompute_moves _)

theorem deckHeld_moves (f : Furnace) (s : State) : Moves reset s (deckHeld f s) :=
  Moves.ite (fun _ => ((deckOff_moves f _ s).trans
    (Moves.ite (fun _ => (assertBreaker_moves _).trans (takeTrip_moves _ _)) fun _ => Moves.refl _)).trans
      (post_moves _ _)) fun _ => Moves.refl s

theorem stuckExpires_moves (s : State) : Moves reset s (stuckExpires s) :=
  Moves.ite (fun due => (Move.stuck due.1).moves.trans (post_moves _ _)) fun _ => Moves.refl s

/-! ### The scanner -/

theorem unitBegins_moves (s : State) : Moves reset s (unitBegins s) :=
  Moves.ite (fun _ => scan_moves _ s) fun _ => Moves.refl s

theorem conversionEnds_moves (ch : Chan) (code : BitVec 12) (s : State) : Moves reset s (conversionEnds ch code s) :=
  Moves.ite (fun _ => protect_moves (((scan_moves _ s).trans (scan_moves _ _)).trans (handUpdate_moves ch _))) fun _ =>
    Moves.refl s

theorem channelGoesStale_moves (ch : Chan) (s : State) : Moves reset s (channelGoesStale ch s) :=
  Moves.ite (fun _ => protect_moves ((scan_moves _ s).trans (handUpdate_moves ch _))) fun _ => Moves.refl s

theorem handResult_moves (f : Furnace) (t samples : Nat) (s : State) : Moves reset s (handResult f t samples s) := by
  unfold handResult
  split
  · exact ((reviseHeat_moves fun h _ => applyDip_revised s t _ h).trans (post_moves _ _)).trans (settleHeat_moves f _)
  · exact post_moves _ s

theorem takeSample_moves (f : Furnace) (k : Nat) (s : State) : Moves reset s (takeSample f k s) := by
  unfold takeSample
  dsimp only
  split
  · refine Moves.trans (scan_moves _ s) (Moves.ite (fun _ => ?_) fun _ => scan_moves _ _)
    exact (scan_moves _ _).trans (failDip_moves f _ _ _)
  · refine Moves.trans (scan_moves _ s) (Moves.ite (fun _ => ?_) fun _ => scan_moves _ _)
    exact (scan_moves _ _).trans (handResult_moves f _ _ _)

theorem sampleEnds_moves (f : Furnace) (code : BitVec 12) (s : State) : Moves reset s (sampleEnds f code s) :=
  Moves.ite (fun _ => (scan_moves _ s).trans (takeSample_moves f _ _)) fun _ => Moves.refl s

theorem lanceDown_moves (f : Furnace) (s : State) : Moves reset s (lanceDown f s) := by
  have level : Moves reset s (setLance f true s) := scan_moves _ s
  refine Moves.ite (fun _ => Moves.refl s) fun _ => Moves.ite (fun _ => level) fun _ => Moves.ite (fun _ => ?_) fun _ => level
  refine level.trans (Moves.ite (fun _ => ?_) fun _ => ?_)
  · exact (scan_moves _ _).trans (post_moves _ _)
  · exact (scan_moves _ _).trans (scan_moves _ _)

theorem lanceUp_moves (f : Furnace) (s : State) : Moves reset s (lanceUp f s) := by
  have level : Moves reset s (setLance f false s) := scan_moves _ s
  unfold lanceUp
  dsimp only
  split
  · exact level
  · exact level.trans (failDip_moves f _ _ _)
  · exact level.trans (scan_moves _ _)

/-! ### The pumps and the tilt -/

theorem mainPumpChanges_moves (active : Bool) (s : State) : Moves reset s (mainPumpChanges active s) := by
  have line : Moves reset s { s with lines := { s.lines with mainPumpRun := active } } :=
    (Move.pumps (x := { s.lines with mainPumpRun := active }) rfl).moves
  exact Moves.ite (fun stops => line.trans (protect_moves (enterChangeover_moves _ (.of_state stops.2.2)))) fun _ => line

theorem standbyChanges_moves (active : Bool) (s : State) : Moves reset s (standbyChanges active s) := by
  have line : Moves reset s { s with lines := { s.lines with standbyRun := active } } :=
    (Move.pumps (x := { s.lines with standbyRun := active }) rfl).moves
  exact Moves.ite (fun stops => line.trans (protect_moves (enterLoopFail_moves _ (.of_state stops.2.2)))) fun _ => line

theorem startPour_moves {p : Permit} {s : State} (held : s.tap.permit = some p) : Moves reset s (startPour p s) := by
  refine Moves.trans
    (setPermit_moves (p' := { p with forwardAt := some (now s), use := none, tap := some 0 }) held ⟨rfl, rfl, rfl⟩ rfl)
    (editHeat_moves (g := fun h => { h with openTap := h.openTap.map (fun t =>
      { t with forwardAt := some (now s), estimateAtForward := h.estimate }) }) fun h => ⟨?_, rfl⟩)
  exact HeatRevised.of_fields rfl Iff.rfl (by simp) rfl rfl rfl rfl

/-- Editing a heat touches no permit. -/
theorem editHeat_permit (f : Furnace) (g : Heat → Heat) (s : State) : (editHeat f g s).tap.permit = s.tap.permit := by
  unfold editHeat
  split <;> rfl

theorem comeHome_moves {p : Permit} {s : State} (held : s.tap.permit = some p) (granted : p.state = .granted) :
    Moves reset s (comeHome p s) := by
  unfold comeHome
  dsimp only
  refine Moves.trans (setPermit_moves (p' := { p with homeAt := some (now s) }) held ⟨rfl, rfl, rfl⟩ rfl)
    (Moves.trans (editHeat_moves (f := p.furnace)
      (g := fun h => { h with openTap := h.openTap.map (fun t => { t with homeAt := some (now s) }) })
      fun h => ⟨HeatRevised.of_fields rfl Iff.rfl (by simp) rfl rfl rfl rfl, rfl⟩) ?_)
  split
  · next w weighed =>
    exact completeTap_moves (p := { p with homeAt := some (now s) }) (editHeat_permit _ _ _) granted
      (.inr ⟨w, weighed, rfl⟩)
  · exact setPermit_moves (p := { p with homeAt := some (now s) }) (editHeat_permit _ _ _) ⟨rfl, rfl, rfl⟩ rfl

theorem permitSeesTilt_moves (f : Furnace) (t : Tilt) (s : State) : Moves reset s (permitSeesTilt f t s) := by
  unfold permitSeesTilt
  split
  · exact Moves.refl s
  · next p held =>
    have waits : Moves reset s (setPermit (some { p with weightWait := none }) s) :=
      setPermit_moves held ⟨rfl, rfl, rfl⟩ rfl
    refine Moves.ite (fun ours => ?_) fun _ => Moves.refl s
    split
    · exact Moves.ite (fun _ => startPour_moves held) fun _ => waits
    · exact Moves.ite (fun _ => startPour_moves held) fun _ => waits
    · exact waits
    · exact Moves.ite (fun _ => comeHome_moves held ours.1) fun _ => Moves.refl s

theorem tiltChanges_moves (f : Furnace) (home forward : Bool) (s : State) :
    Moves reset s (tiltChanges f home forward s) := by
  have levels : Moves reset s
      { s with tap := { s.tap with tilt := s.tap.tilt.set f { known := true, home := home, forward := forward } } } :=
    TableMove.moves (TableMove.tapSide rfl rfl rfl rfl)
  exact Moves.ite (fun _ => levels) fun _ => (levels.trans (permitSeesTilt_moves f _ _)).trans (settleHeat_moves f _)

/-! ### The stage -/

theorem grantIfPending_moves (s : State) : Moves reset s (grantIfPending s) := by
  unfold grantIfPending
  split
  · next p held => exact Moves.ite (fun pending => (TableMove.grant held pending).moves) fun _ => Moves.refl s
  · exact Moves.refl s

theorem linkLeft_upSinceBegun (t : Transmitter) : t.linkLeft.upSinceBegun = false := by cases t <;> rfl

/-- The link leaves UP, or stands outside it, with the deadline stopped. -/
theorem leaveUp_lawful {x : Stage} {l : LinkState} {record : List Nat} (left : l ≠ .up) (assembly : x.assembly = []) :
    ({ x.leaveUp with link := l, babble := record } : Stage).Lawful :=
  ⟨⟨fun timed => (by cases timed), fun up => absurd up left⟩, assembly, fun _ => ⟨rfl, linkLeft_upSinceBegun _⟩⟩

theorem enterFault_moves (cause : LinkCause) (s : State) : Moves reset s (enterFault cause s) := by
  unfold enterFault
  dsimp only
  refine Moves.trans ?_ (recompute_moves _)
  split
  · exact ((Move.stage (x := { s.stage.leaveUp with link := .fault, babble := [] }) rfl fun law =>
      leaveUp_lawful (by decide) law.2.1).moves.trans (post_moves _ _)).trans (grantIfPending_moves _)
  · next down =>
    have down : s.stage.link ≠ .up := by simpa using down
    exact (Move.stage (x := { s.stage with link := .fault, deadline := none, babble := [] }) rfl fun law =>
      ⟨⟨fun timed => (by cases timed), fun up => (by cases up)⟩, law.2.1, fun _ => law.2.2 down⟩).moves.trans (post_moves _ _)

theorem confirmTap_moves (out : PerFurnace ReportOutput) (s : State) : Moves reset s (confirmTap out s) := by
  unfold confirmTap
  split
  · next p held => exact Moves.ite (fun met => (TableMove.grant held met.1).moves) fun _ => Moves.refl s
  · exact Moves.refl s

theorem handDelivered_moves (f : Furnace) (kw : Nat) (s : State) : Moves reset s (handDelivered f kw s) :=
  setFurnaceSlot_moves (x := { s.heat.slots.get f with reported := some kw }) rfl

theorem takeReport_moves (out : PerFurnace ReportOutput) (s : State) : Moves reset s (takeReport out s) := by
  have up : ∀ x : Stage, x.held = s.stage.held → x.link = .up → x.deadline = some 0 → x.assembly = s.stage.assembly →
      Moves reset s { s with stage := x } := fun x held link timed assembly =>
    (Move.stage held fun law => ⟨by simp [link, timed], assembly.trans law.2.1, fun left => absurd link left⟩).moves
  unfold takeReport
  dsimp only
  refine Moves.trans ?_ (recompute_moves _)
  refine Moves.trans ?_ (confirmTap_moves out _)
  refine Moves.trans ?_ (handDelivered_moves .b _ _)
  refine Moves.trans ?_ (handDelivered_moves .a _ _)
  split
  · next was => exact up _ rfl was rfl rfl
  · refine Moves.trans (up { s.stage with
      last := some { out := out, takenAt := s.clock.ms }, deadline := some 0, link := .up } rfl rfl rfl rfl)
      (post_moves _ _)

/-- A stage edit that leaves what the stage law reads. -/
theorem stageSide_moves {s : State} {x : Stage} (held : x.held = s.stage.held) (deadline : x.deadline = s.stage.deadline)
    (link : x.link = s.stage.link) (sent : x.sent = s.stage.sent) (transmitter : x.transmitter = s.stage.transmitter)
    (assembly : x.assembly = s.stage.assembly ∨ x.assembly = []) : Moves reset s { s with stage := x } := by
  refine (Move.stage held fun law => ?_).moves
  obtain ⟨timed, empty, left⟩ := law
  refine ⟨by rw [deadline, link]; exact timed, ?_, by rw [link, sent, transmitter]; exact left⟩
  rcases assembly with e | e
  · rw [e, empty]
  · exact e

theorem receiveReport_moves (contents : Option (PerFurnace ReportOutput)) (s : State) :
    Moves reset s (receiveReport contents s) := by
  have counted : Moves reset s { s with stage := { s.stage with babble := babbleAfter s.stage.babble s.clock.ms } } :=
    stageSide_moves rfl rfl rfl rfl rfl (.inl rfl)
  refine Moves.ite (fun _ => Moves.refl s) fun _ => Moves.ite (fun _ => enterFault_moves _ s) fun _ => ?_
  cases contents with
  | none => exact counted
  | some out => exact counted.trans (takeReport_moves out _)

theorem discardStage_moves (s : State) : Moves reset s (setStageAssembly [] s) :=
  stageSide_moves rfl rfl rfl rfl rfl (.inr rfl)

theorem receiveUnknownKind_moves (s : State) : Moves reset s (receiveUnknownKind s) :=
  Moves.ite (fun _ => Moves.refl s) fun _ => enterFault_moves _ s

theorem receiveStageFrame_moves (kind : Byte) (body : List Byte) (s : State) :
    Moves reset s (receiveStageFrame kind body s) := by
  have cleared : Moves reset s (setStageAssembly [] s) := discardStage_moves s
  rcases receiveStageFrame_cases kind body s with ⟨contents, e⟩ | e | e
  · exact e ▸ cleared.trans (receiveReport_moves contents _)
  · exact e ▸ cleared.trans (receiveUnknownKind_moves _)
  · exact e ▸ cleared

theorem deadlineExpires_moves (s : State) : Moves reset s (deadlineExpires s) := by
  refine Moves.ite (fun _ => ?_) fun _ => Moves.refl s
  have lost : Moves reset s { s with stage := { s.stage.leaveUp with link := .lost } } :=
    (Move.stage (x := { s.stage.leaveUp with link := .lost }) rfl fun law => leaveUp_lawful (by decide) law.2.1).moves
  exact ((lost.trans (post_moves _ _)).trans (grantIfPending_moves _)).trans (recompute_moves _)

theorem kick_moves (s : State) : Moves reset s (kick s) := (Move.kicks s).moves

theorem refreshExpires_moves (s : State) : Moves reset s (refreshExpires s) :=
  (stageSide_moves (x := { s.stage with pendingSetpoint := true }) rfl rfl rfl rfl rfl (.inl rfl)).trans (kick_moves _)

/-- The flags that a SETPOINT completing outside UP sets: none (R76). -/
theorem completeSetpoint_sent {fr : SetpointFrame} (away : fr.upSinceBegun = false) :
    fr.out.map (fun o => fr.upSinceBegun && decide (0 < o.command)) = noFurnace := by
  rw [away]
  rfl

theorem completeSetpoint_lawful {x : Stage} {fr : SetpointFrame} (law : x.Lawful) (sending : x.transmitter = .sendingSetpoint fr)
    (ms : Nat) : (x.completeSetpoint fr ms).Lawful := by
  obtain ⟨timed, assembly, left⟩ := law
  refine ⟨timed, assembly, fun down => ⟨completeSetpoint_sent ?_, rfl⟩⟩
  have away := (left down).2
  rw [sending] at away
  exact away

theorem setpointCompletes_moves (s : State) : Moves reset s (setpointCompletes s) := by
  unfold setpointCompletes
  split
  · next fr sending =>
    exact ((kick_moves s).trans (Move.stage (x := (kick s).stage.completeSetpoint fr s.clock.ms) rfl
      fun law => completeSetpoint_lawful law sending _).moves).trans (kick_moves _)
  · exact Moves.refl s

/-- The transmitter falls idle. -/
theorem idle_moves {s : State} {x : Stage} (held : x.held = s.stage.held) (deadline : x.deadline = s.stage.deadline)
    (link : x.link = s.stage.link) (sent : x.sent = s.stage.sent) (idle : x.transmitter = .idle)
    (assembly : x.assembly = s.stage.assembly) : Moves reset s { s with stage := x } := by
  refine (Move.stage held fun law => ?_).moves
  obtain ⟨timed, empty, left⟩ := law
  refine ⟨by rw [deadline, link]; exact timed, assembly.trans empty, fun down => ?_⟩
  rw [sent, idle]
  exact ⟨(left (link ▸ down)).1, rfl⟩

theorem tripFrameEnds_moves (s : State) : Moves reset s (tripFrameEnds s) := by
  unfold tripFrameEnds
  split
  · next mask _ =>
    exact (idle_moves (x := { s.stage with transmitter := .idle, pendingSetpoint := true, wire := tripBytes mask })
      rfl rfl rfl rfl rfl rfl).trans (kick_moves _)
  · exact Moves.refl s

theorem abortedSetpointEnds_moves (gone : Bool) (s : State) : Moves reset s (abortedSetpointEnds gone s) := by
  unfold abortedSetpointEnds
  split
  · next fr _ =>
    exact Moves.ite (fun _ => (idle_moves (x := { s.stage with transmitter := .idle, wire := abortedBytes fr.out gone })
      rfl rfl rfl rfl rfl rfl).trans (kick_moves _)) fun _ => Moves.refl s
  · exact Moves.refl s

/-! ### SHED and the seconds -/

theorem setShed_moves (active : Bool) (s : State) : Moves reset s (setShed active s) :=
  (Move.shed active s).moves.trans (recompute_moves _)

theorem clock_moves (c : Clock) (s : State) : Moves reset s { s with clock := c } := (Move.clock c s).moves

theorem closeSecond_moves (f : Furnace) (s : State) : Moves reset s (closeSecond f s) :=
  (setFurnaceSlot_moves (x := { s.heat.slots.get f with reported := none }) rfl).trans (stampFurnace_moves f _)

theorem secondPasses_moves (f : Furnace) (s : State) : Moves reset s (secondPasses f s) := by
  refine Moves.ite (fun _ => Moves.refl s) fun _ => ?_
  unfold estimatorSecond
  split
  · exact clock_moves _ s
  · have closed : Moves reset s (closeSecond f (reviseHeat f (secondOf s f (deliveredPower s f)) s)) :=
      (reviseHeat_moves fun h _ => secondOf_revised s f _ _ h).trans (closeSecond_moves f _)
    exact Moves.ite (fun _ => closed.trans (settleHeat_moves f _)) fun _ => closed

theorem readinessSecond_moves (s : State) : Moves reset s (readinessSecond s) :=
  Moves.ite (fun _ => clock_moves _ s) fun _ =>
    (((clock_moves _ s).trans (evalReady_moves .a _)).trans (evalReady_moves .b _)).trans (coordinate_moves _)

theorem entryOf_id {s : State} {id : Nat} {e : Entry} (found : entryOf s id = some e) : e.id = id := by
  unfold entryOf at found
  simpa using List.find?_some found

theorem entryLapses_moves (id : Nat) (s : State) : Moves reset s (entryLapses id s) := by
  unfold entryLapses
  split
  · exact Moves.refl s
  · next e found =>
    refine Moves.ite (fun ⟨_, free⟩ => ?_) fun _ => Moves.refl s
    have free : ∀ p ∈ s.tap.permit, p.requestId ≠ e.id := by
      rw [entryOf_id found]
      exact permitOfEntry_none_iff.mp (Option.isNone_iff_eq_none.mp free)
    exact ((TableMove.remove free).moves.trans (post_moves _ _)).trans (recompute_moves _)

/-! ### The end of the settings load -/

/-- The load up to the heats caught up: the working copy filled, the heats fitted to it, the reasons completed (R157). -/
def loadBegun (good : Bool) (s : State) : State :=
  let s1 := fillWorking good s
  let s2 := editHeat .b (fitHeat s1) (editHeat .a (fitHeat s1) s1)
  catchUp .b (catchUp .a (completeReasons good (memoryIdle s2)))

theorem postFreeze_moves (f : Furnace) (s : State) : Moves reset s (postFreeze f s) := by
  unfold postFreeze
  split
  · exact Moves.ite (fun _ => post_moves _ s) fun _ => Moves.refl s
  · exact Moves.refl s

theorem startScanner_moves (s : State) : Moves reset s (startScanner s) := (scan_moves _ s).trans (restartSweep_moves _)

/-- The loop has its state before the circuits are evaluated in it (R119). -/
theorem deriveLoop_passes {s : State} (loaded : loading s = false) :
    ∃ u, Moves reset s u ∧ u.prot.loop.state.isSome = true ∧ Moves reset u (deriveLoop s) := by
  have runs : LoopRuns s := .inl loaded
  unfold deriveLoop
  split
  · exact ⟨_, (Move.loop .reset true .changeover runs).moves, rfl, evalCircuits_moves _⟩
  · exact ⟨_, setLoop_moves _ _ (by decide) (by decide) runs, rfl, evalCircuits_moves _⟩
  · next changeover standby =>
    have working : derivedLoop s ≠ .loopFail := by
      unfold derivedLoop
      split
      · decide
      · split <;> decide
    exact ⟨_, setLoop_moves _ _ changeover working runs, rfl, evalCircuits_moves _⟩

end Sys2Proof.Machine
end


section
/-! What every move leaves alone, and the kinds of step. -/

namespace Sys2Proof.Machine

/-! ### The frame of the heat table and the tap queue -/

/-- The melt requests apart, the allotment records stand. -/
def RecordsStand (x y : Allotment) : Prop :=
  y = { x with out := y.out }
    ∧ ∀ f, y.out.get f = { x.out.get f with meltRequest := (y.out.get f).meltRequest }
        ∧ ((y.out.get f).meltRequest = (x.out.get f).meltRequest ∨ (y.out.get f).meltRequest = 0)

/-- Only the heat table, the tap queue, the dip units, the melt requests and notices differ. -/
structure TableOnly (s t : State) : Prop where
  frame : t = { s with heat := t.heat, allot := t.allot, scan := t.scan, tap := t.tap, ports := t.ports }
  records : RecordsStand s.allot t.allot
  notices : PortsStand s t

theorem RecordsStand.refl (x : Allotment) : RecordsStand x x := ⟨rfl, fun _ => ⟨rfl, .inl rfl⟩⟩

theorem RecordsStand.trans {x y z : Allotment} (h : RecordsStand x y) (g : RecordsStand y z) : RecordsStand x z :=
  ⟨by rw [g.1, h.1], fun f => ⟨by rw [(g.2 f).1, (h.2 f).1], (g.2 f).2.elim (fun same => same ▸ (h.2 f).2) .inr⟩⟩

theorem TableOnly.refl (s : State) : TableOnly s s := ⟨rfl, .refl _, .refl s⟩

theorem TableOnly.trans {s t u : State} (h : TableOnly s t) (g : TableOnly t u) : TableOnly s u :=
  ⟨by rw [g.frame, h.frame], h.records.trans g.records, h.notices.trans g.notices⟩

/-- A change that reaches no port and no allotment record. -/
theorem TableOnly.of_frame {s t : State} (frame : t = { s with heat := t.heat, scan := t.scan, tap := t.tap }) :
    TableOnly s t := by
  rw [frame]
  exact ⟨rfl, .refl _, .of_ports rfl⟩

theorem Posted.tableOnly {s t : State} (h : Posted s t) : TableOnly s t := by
  obtain ⟨frame, notices⟩ := h
  exact ⟨by rw [frame], by rw [frame]; exact .refl _, notices⟩

theorem post_tableOnly (d : Detail) (s : State) : TableOnly s (post d s) := (post_posted d s).tableOnly

theorem TableOnly.ite {c : Prop} [Decidable c] {s t u : State} (yes : TableOnly s t) (no : TableOnly s u) :
    TableOnly s (if c then t else u) := by
  split
  · exact yes
  · exact no

theorem removeEntry_tableOnly (id : Nat) (s : State) : TableOnly s (removeEntry id s) := .of_frame rfl

theorem makeWaiting_tableOnly (id : Nat) (s : State) : TableOnly s (makeWaiting id s) := .of_frame rfl

theorem returnEntry_tableOnly (id : Nat) (s : State) : TableOnly s (returnEntry id s) := by
  unfold returnEntry
  split
  · exact .ite ((removeEntry_tableOnly _ s).trans (post_tableOnly _ _)) (makeWaiting_tableOnly _ s)
  · exact .refl s

/-- The permit dropped, with a kept resolution for the deck. -/
theorem dropPermit_tableOnly (f : Furnace) (r : Option Reason) (s : State) :
    TableOnly s (askMatching (setKept f r (setPermit none s))) := .of_frame rfl

theorem refusePermit_tableOnly (p : Permit) (r : Reason) (remove : Bool) (s : State) :
    TableOnly s (refusePermit p r remove s) :=
  ((post_tableOnly _ s).trans (dropPermit_tableOnly p.furnace (some r) _)).trans
    (.ite (removeEntry_tableOnly _ _) (returnEntry_tableOnly _ _))

theorem endAssignment_tableOnly (f : Furnace) (r : Reason) (s : State) : TableOnly s (endAssignment f r s) := by
  unfold endAssignment
  split
  · exact refusePermit_tableOnly _ _ _ s
  · split
    · exact .refl s
    · split
      · exact makeWaiting_tableOnly _ s
      · exact .refl s

theorem leaveReady_tableOnly (f : Furnace) (r : Reason) (s : State) : TableOnly s (leaveReady f r s) :=
  (endAssignment_tableOnly f r s).trans (.of_frame rfl)

theorem setHeat_tableOnly (f : Furnace) (h : Heat) (s : State) : TableOnly s (setHeat f h s) := .of_frame rfl

theorem editHeat_tableOnly (f : Furnace) (g : Heat → Heat) (s : State) : TableOnly s (editHeat f g s) := by
  unfold editHeat
  split
  · exact setHeat_tableOnly _ _ s
  · exact .refl s

theorem setMeltRequest_tableOnly (f : Furnace) (s : State) : TableOnly s (setMeltRequest f 0 s) := by
  refine ⟨rfl, ⟨rfl, fun g => ?_⟩, .of_ports rfl⟩
  simp only [setMeltRequest_allot, PerFurnace.get_set]
  split
  · next e => exact ⟨by rw [e], .inr rfl⟩
  · exact ⟨rfl, .inl rfl⟩

theorem endDip_tableOnly (f : Furnace) (reason : DipFailure) (s : State) : TableOnly s (endDip f reason s) := by
  refine .ite (TableOnly.trans (TableOnly.of_frame ?_) (post_tableOnly _ _)) (.refl s)
  rfl

theorem closeHeat_tableOnly (f : Furnace) (h : Heat) (reason : CloseReason) (s : State) :
    TableOnly s (closeHeat f h reason s) := by
  unfold closeHeat
  dsimp only
  refine TableOnly.trans ?_ (.of_frame rfl)
  refine TableOnly.trans ?_ (post_tableOnly _ _)
  refine TableOnly.trans ?_ (setMeltRequest_tableOnly _ _)
  refine TableOnly.trans ?_ (endDip_tableOnly _ _ _)
  have ended : TableOnly s (endAssignment f .cancelled (writeSummary f h reason s)) :=
    TableOnly.trans (.of_frame rfl) (endAssignment_tableOnly _ _ _)
  exact .ite (ended.trans (.of_frame rfl)) ended

theorem heatTakesTap_tableOnly (f : Furnace) (mass : Nat) (clamped timeout : Bool) (s : State) :
    TableOnly s (heatTakesTap f mass clamped timeout s) := by
  unfold heatTakesTap
  split
  · exact .refl s
  · exact .ite ((setHeat_tableOnly _ _ s).trans (closeHeat_tableOnly _ _ _ _)) (setHeat_tableOnly _ _ s)

theorem TableMove.only {s t : State} (m : TableMove s t) : TableOnly s t := by
  cases m with
  | edit | slotSide | tapSide | remove | append | pend | permit | opened | emptied => exact .of_frame rfl
  | leave r heat revised posted =>
    exact ((setHeat_tableOnly _ _ s).trans posted.tableOnly).trans (leaveReady_tableOnly _ r _)
  | assign => exact TableOnly.trans (.of_frame rfl) (post_tableOnly _ _)
  | refuse r remove => exact refusePermit_tableOnly _ r remove s
  | grant => exact (TableOnly.trans (.of_frame rfl) (editHeat_tableOnly _ _ _)).trans (post_tableOnly _ _)
  | withdraw =>
    exact (((editHeat_tableOnly _ _ s).trans (post_tableOnly _ _)).trans (dropPermit_tableOnly _ _ _)).trans
      (returnEntry_tableOnly _ _)
  | @complete p mass clamped timeout =>
    exact (heatTakesTap_tableOnly p.furnace mass clamped timeout s).trans (.of_frame rfl)
  | close reason => exact closeHeat_tableOnly _ _ reason s
  | succeed => exact (closeHeat_tableOnly _ _ _ s).trans (.of_frame rfl)

/-! ### What every move leaves -/

/-- The power, the queue of commands and the end of the settings load stand, and the loop keeps having its state. -/
structure Stands (s t : State) : Prop where
  pending : t.pending = s.pending
  powered : t.powered = s.powered
  loading : loading t = loading s
  loop : s.prot.loop.state.isSome = true → t.prot.loop.state.isSome = true

theorem Stands.refl (s : State) : Stands s s := ⟨rfl, rfl, rfl, id⟩

theorem Stands.trans {s t u : State} (h : Stands s t) (g : Stands t u) : Stands s u :=
  ⟨g.pending.trans h.pending, g.powered.trans h.powered, g.loading.trans h.loading, g.loop ∘ h.loop⟩

theorem TableOnly.stands {s t : State} (h : TableOnly s t) : Stands s t := by
  rw [h.frame]
  exact ⟨rfl, rfl, rfl, id⟩

theorem assertBreaker_shape (s : State) : assertBreaker s = { s with shop := (assertBreaker s).shop } := by
  unfold assertBreaker
  split <;> rfl

theorem allocate_shape (s : State) :
    allocate s = { s with allot := (allocate s).allot, stage := (allocate s).stage } := (allocate_frame s).1

theorem tripCircuit_shape (c : Circuit) (cause : TripCause) (s : State) :
    tripCircuit c cause s
      = { s with
          shop := (tripCircuit c cause s).shop, stage := (tripCircuit c cause s).stage
          prot := (tripCircuit c cause s).prot, ports := (tripCircuit c cause s).ports } := by
  unfold tripCircuit
  dsimp only
  split
  · rw [assertBreaker_shape]
    rfl
  · rfl

theorem tripCircuit_loop (c : Circuit) (cause : TripCause) (s : State) :
    (tripCircuit c cause s).prot.loop = s.prot.loop := by
  rw [(tripCircuit_others c cause s).1]

theorem tripForLoop_stands (c : Circuit) (s : State) : Stands s (tripForLoop c s) := by
  unfold tripForLoop
  split
  · exact .refl s
  · have loop := tripCircuit_loop c .loop s
    refine ⟨?_, ?_, ?_, fun runs => loop ▸ runs⟩
    · rw [tripCircuit_shape]
    · rw [tripCircuit_shape]
    · rw [tripCircuit_shape]
      rfl

theorem assertBreaker_stands (s : State) : Stands s (assertBreaker s) := by
  rw [assertBreaker_shape]
  exact ⟨rfl, rfl, rfl, id⟩

theorem Move.stands {reset : Option Circuit} {s t : State} (m : Move reset s t) : Stands s t := by
  cases m with
  | table m => exact m.only.stands
  | settings working memory channel => exact ⟨rfl, rfl, memory, id⟩
  | trips => exact assertBreaker_stands s
  | allots =>
    rw [allocate_shape]
    exact ⟨rfl, rfl, rfl, id⟩
  | loop => exact ⟨rfl, rfl, rfl, fun _ => rfl⟩
  | loopFail cause =>
    have failed : Stands s (setLoop .loopFail cause s.prot.loop.standbyLatch s) := ⟨rfl, rfl, rfl, fun _ => rfl⟩
    exact (((failed.trans (tripForLoop_stands .coilA _)).trans (tripForLoop_stands .coilB _)).trans
      (tripForLoop_stands .cabinet _)).trans (assertBreaker_stands _)
  | posts | postsTo | port | leakCarried | clock | scan | pumps | working | decks | stuck | breakerOpens | breakerCloses
  | breakerBack | resume | mode | kicks | tripTaken | stage | meltRequest | shed | circuit | reset | pressure =>
    exact ⟨rfl, rfl, rfl, id⟩

theorem Moves.stands {reset : Option Circuit} {s t : State} (h : Moves reset s t) : Stands s t := by
  induction h with
  | refl => exact .refl s
  | tail _ m ih => exact ih.trans m.stands

/-! ### The kinds of step -/

/-- The load up to the heats caught up leaves the queue, the power and the protection, and has ended the load. -/
theorem loadBegun_loading (good : Bool) (s : State) : loading (loadBegun good s) = false := by
  have caught : ∀ (f : Furnace) (x : State), loading (catchUp f x) = loading x := fun f x => by
    unfold catchUp
    split <;> rfl
  have edited : ∀ (f : Furnace) (g : Heat → Heat) (x : State), (editHeat f g x).sett = x.sett := fun f g x => by
    unfold editHeat
    split <;> rfl
  unfold loadBegun
  dsimp only
  rw [caught, caught]
  rfl

/-- A frame that takes a circuit out of TRIP when it is taken (R111, R143). -/
def FrameResets (q : Port) (fr : Frame) (s : State) (c : Circuit) : Prop :=
  RequestKind.ofCode fr.kind.toNat = some .tripReset ∧ fr.body.length = 1 ∧ permitted .tripReset q fr.body = true
    ∧ circuitNamed (field fr.body 0 1) = some c ∧ ResetClear s c

/-- A command that takes a circuit out of TRIP other than by a reset: with a frame that is taken as it arrives, or with the
frame that waited in the buffer. -/
def Resets (i : Instr) (s : State) (c : Circuit) : Prop :=
  match i with
  | .tripReset q tag body => (s.ports.get q).inHand = none ∧ FrameResets q (requestFrame .tripReset tag body) s c
  | .unknownRequestKind q kind tag body => FrameResets q { kind := kind, tag := tag, body := body } s c
  | .answerSent q =>
    (s.ports.get q).inHand.isSome = true ∧ ∃ fr, (s.ports.get q).buffer = some fr ∧ FrameResets q fr s c
  | _ => False

/-- What a command may take out of TRIP. -/
def MayReset (i : Instr) (s : State) (reset : Option Circuit) : Prop := ∀ c, reset = some c → Resets i s c

theorem mayReset_none (i : Instr) (s : State) : MayReset i s none := fun _ e => by cases e

/-- How a step comes about, on the state without its command: a reset, the end of the settings load, a pulse timer, one
millisecond, a frame that waits in the buffer, or a chain of moves, with what may take a circuit out of TRIP in it. -/
inductive StepKind (s : State) : Option Instr → State → Prop
  | cold (l : ResetLines) : StepKind s (some (.coldStart l)) (State.cold l s.pending (cutOffSave s.sett))
  | warm (l : ResetLines) : StepKind s (some (.warmRestart l)) (volatileReset l warmSlot s)
  | loss (on : s.powered = true) : StepKind s (some .mainSupplyLoss) (loseSupply s)
  | load {t u : State} (on : s.powered = true) (waiting : loading s = true) (ack : Bool)
      (first : Moves none (loadBegun (goodBlock ack s.sett.block) s) u) (derived : u.prot.loop.state.isSome = true)
      (rest : Moves none u t) : StepKind s (some (.settingsLoadEnd ack)) t
  | period (on : s.powered = true) {f : Furnace} (pulse : (s.allot.out.get f).mode = .pulse) :
      StepKind s (some (.pulsePeriodStart f)) (putPulse f ((s.allot.out.get f).startPeriod (minCont s f)) s)
  | onPhase (on : s.powered = true) {f : Furnace} (pulse : (s.allot.out.get f).mode = .pulse) :
      StepKind s (some (.pulseOffPhase f)) (putPulse f (s.allot.out.get f).endOnPhase s)
  | ms (on : s.powered = true) : StepKind s none (tickBlocks (tickClock (kick s)))
  | dark (off : s.powered = false) : StepKind s none (tickClock s)
  | buffered (i : Instr) (q : Port) (fr : Frame) :
      StepKind s (some i) (setPort q { s.ports.get q with assembly := [], buffer := some fr } s)
  | same (i : Instr) : StepKind s (some i) s
  | moves {i : Instr} {t : State} (on : s.powered = true) (reset : Option Circuit) (allowed : MayReset i s reset)
      (moves : Moves reset s t) : StepKind s (some i) t

theorem live_kind {i : Instr} {g : State → State} {s t : State}
    (kind : s.powered = true → StepKind s (some i) (g s)) (h : live g s = .next t) : StepKind s (some i) t := by
  cases on : s.powered with
  | true =>
    rw [live_powered g s on] at h
    cases h
    exact kind on
  | false =>
    rw [live_unpowered g s on] at h
    cases h
    exact .same _

/-- A command whose effect is a chain of moves. -/
theorem live_moves {i : Instr} {g : State → State} {s t : State} (moves : Moves none s (g s)) (h : live g s = .next t) : StepKind s (some i) t :=
  live_kind (fun on => .moves on none (mayReset_none i s) moves) h

/-- A frame names one circuit at most. -/
theorem exists_resetsOnly (q : Port) (fr : Frame) (s : State) :
    ∃ reset, ResetsOnly reset q fr s ∧ ∀ c, reset = some c → FrameResets q fr s c := by
  by_cases some' : ∃ c, FrameResets q fr s c
  · obtain ⟨c, resets⟩ := some'
    refine ⟨some c, fun _ _ _ d named _ => ?_, fun d e => Option.some.inj e ▸ resets⟩
    rw [resets.2.2.2.1] at named
    exact named
  · exact ⟨none, fun kind length allowed c named clear => absurd ⟨c, kind, length, allowed, named, clear⟩ some',
      fun _ e => by cases e⟩

theorem receiveFrame_kind {i : Instr} {q : Port} {fr : Frame} {s t : State}
    (allowed : ∀ reset, (∀ c, reset = some c → (s.ports.get q).inHand = none ∧ FrameResets q fr s c) → MayReset i s reset)
    (h : live (receiveFrame q fr) s = .next t) : StepKind s (some i) t := by
  refine live_kind (fun on => ?_) h
  rw [receiveFrame_arrive]
  cases free : (s.ports.get q).inHand with
  | none =>
    obtain ⟨reset, only, resets⟩ := exists_resetsOnly q fr s
    exact .moves on reset (allowed reset fun c e => ⟨free, resets c e⟩) (arrive_moves (fun _ => only) (.inl free))
  | some held =>
    have busy : (s.ports.get q).inHand.isSome = true := by rw [free]; rfl
    cases room : (s.ports.get q).buffer with
    | none =>
      rw [arrive_buffered fr busy room]
      exact .buffered i q fr
    | some waiting =>
      exact .moves on none (mayReset_none i s)
        (arrive_moves (fun none' => by rw [free] at none'; cases none') (.inr (by rw [room]; rfl)))

/-- A request of another kind resets nothing. -/
theorem request_kind {i : Instr} {k : RequestKind} {q : Port} {tag : Byte} {body : List Byte} {s t : State}
    (other : RequestKind.ofCode (BitVec.ofNat 8 k.code).toNat ≠ some .tripReset)
    (h : live (receiveFrame q (requestFrame k tag body)) s = .next t) : StepKind s (some i) t :=
  receiveFrame_kind (fun _ resets c e => absurd (resets c e).2.1 other) h

theorem answerGone_kind {q : Port} {s t : State} (h : live (answerGone q) s = .next t) :
    StepKind s (some (.answerSent q)) t := by
  refine live_kind (fun on => ?_) h
  cases waiting : (s.ports.get q).buffer with
  | none =>
    exact .moves on none (mayReset_none _ s) (answerGone_moves fun fr _ e => by rw [waiting] at e; cases e)
  | some fr =>
    cases free : (s.ports.get q).inHand with
    | none =>
      exact .moves on none (mayReset_none _ s) (answerGone_moves fun _ busy _ => by rw [free] at busy; cases busy)
    | some held =>
      obtain ⟨reset, only, resets⟩ := exists_resetsOnly q fr s
      refine .moves on reset (fun c e => ⟨by rw [free]; rfl, fr, waiting, resets c e⟩) (answerGone_moves fun fr' _ e => ?_)
      rw [waiting] at e
      cases e
      exact only

theorem endLoad_kind {ack : Bool} {s t : State} (h : live (endLoad ack) s = .next t) : StepKind s (some (.settingsLoadEnd ack)) t := by
  refine live_kind (fun on => ?_) h
  unfold endLoad
  split
  · next waiting =>
    let good := goodBlock ack s.sett.block
    have began : Moves none (loadBegun good s) (evalCircuits (startScanner (postFreeze .b (postFreeze .a (loadBegun good s))))) :=
      (((postFreeze_moves .a _).trans (postFreeze_moves .b _)).trans (startScanner_moves _)).trans (evalCircuits_moves _)
    obtain ⟨u, first, derived, rest⟩ := deriveLoop_passes (reset := none) (began.stands.loading.trans (loadBegun_loading good s))
    exact .load on waiting ack (began.trans first) derived (rest.trans (settleAll_moves _))
  · exact .same _

theorem periodStarts_kind {f : Furnace} {s t : State} (h : live (periodStarts f) s = .next t) :
    StepKind s (some (.pulsePeriodStart f)) t := by
  refine live_kind (fun on => ?_) h
  unfold periodStarts
  split
  · next pulse => exact .period on pulse
  · exact .same _

theorem onPhaseEnds_kind {f : Furnace} {s t : State} (h : live (onPhaseEnds f) s = .next t) :
    StepKind s (some (.pulseOffPhase f)) t := by
  refine live_kind (fun on => ?_) h
  unfold onPhaseEnds
  split
  · next pulse => exact .onPhase on pulse.1
  · exact .same _

theorem exec_kind {i : Instr} {s t : State} (h : exec i s = .next t) : StepKind s (some i) t := by
  cases i with
  | coldStart l => cases h; exact .cold l
  | warmRestart l => cases h; exact .warm l
  | mainSupplyLoss => exact live_kind .loss h
  | settingsLoadEnd ack => exact endLoad_kind h
  | saveEnd r => exact live_moves (endSave_moves r s) h
  | channelIdleExpiry => exact live_moves (idleExpires_moves s) h
  | tripReset q tag body => exact receiveFrame_kind (fun _ resets => resets) h
  | unknownRequestKind q kind tag body => exact receiveFrame_kind (fun _ resets c e => (resets c e).2) h
  | openHeat q tag body => exact request_kind (k := .openHeat) (by decide) h
  | addCharge q tag body => exact request_kind (k := .addCharge) (by decide) h
  | setMeltPower q tag body => exact request_kind (k := .setMeltPower) (by decide) h
  | setHoldTarget q tag body => exact request_kind (k := .setHoldTarget) (by decide) h
  | setChemistry q tag body => exact request_kind (k := .setChemistry) (by decide) h
  | closeHeat q tag body => exact request_kind (k := .closeHeat) (by decide) h
  | restate q tag body => exact request_kind (k := .restate) (by decide) h
  | furnaceOn q tag body => exact request_kind (k := .furnaceOn) (by decide) h
  | tapOpen q tag body => exact request_kind (k := .tapOpen) (by decide) h
  | resume q tag body => exact request_kind (k := .resume) (by decide) h
  | linkRestart q tag body => exact request_kind (k := .linkRestart) (by decide) h
  | pumpReturn q tag body => exact request_kind (k := .pumpReturn) (by decide) h
  | postTap q tag body => exact request_kind (k := .postTap) (by decide) h
  | cancelTap q tag body => exact request_kind (k := .cancelTap) (by decide) h
  | tapWeight q tag body => exact request_kind (k := .tapWeight) (by decide) h
  | bank q tag body => exact request_kind (k := .bank) (by decide) h
  | wake q tag body => exact request_kind (k := .wake) (by decide) h
  | readSetting q tag body => exact request_kind (k := .readSetting) (by decide) h
  | writeSetting q tag body => exact request_kind (k := .writeSetting) (by decide) h
  | saveSettings q tag body => exact request_kind (k := .saveSettings) (by decide) h
  | releaseChannel q tag body => exact request_kind (k := .releaseChannel) (by decide) h
  | queryFurnace q tag body => exact request_kind (k := .queryFurnace) (by decide) h
  | readLog q tag body => exact request_kind (k := .readLog) (by decide) h
  | queryQueue q tag body => exact request_kind (k := .queryQueue) (by decide) h
  | queryProtection q tag body => exact request_kind (k := .queryProtection) (by decide) h
  | queryChannels q tag body => exact request_kind (k := .queryChannels) (by decide) h
  | queryAllotment q tag body => exact request_kind (k := .queryAllotment) (by decide) h
  | queryShop q tag body => exact request_kind (k := .queryShop) (by decide) h
  | readNotices q tag body => exact request_kind (k := .readNotices) (by decide) h
  | ackNotices q tag body => exact request_kind (k := .ackNotices) (by decide) h
  | setNoticeEnables q tag body => exact request_kind (k := .setNoticeEnables) (by decide) h
  | requestFrameDiscarded frame => exact live_moves (discardFrame_moves _ _ s) h
  | stationByteGap gathered => exact live_moves (gapAfter_moves _ _ s) h
  | stationBadLengthByte q len => exact live_moves (badLength_moves q len s) h
  | answerSent q => exact answerGone_kind h
  | attnGapEnd q => exact live_moves (endGap_moves q s) h
  | report dA sA dB sB => exact live_moves (receiveStageFrame_moves _ _ s) h
  | unknownKindFrame frame => exact live_moves (receiveStageFrame_moves _ _ s) h
  | stageCheckErrorFrame => exact live_moves (discardStage_moves s) h
  | stageByteGap => exact live_moves (discardStage_moves s) h
  | reportDeadlineExpiry => exact live_moves (deadlineExpires_moves s) h
  | refreshTimerExpiry => exact live_moves (refreshExpires_moves s) h
  | setpointCompleted => exact live_moves (setpointCompletes_moves s) h
  | tripFrameEnd => exact live_moves (tripFrameEnds_moves s) h
  | abortedSetpointEnd gone => exact live_moves (abortedSetpointEnds_moves gone s) h
  | pulsePeriodStart f => exact periodStarts_kind h
  | pulseOffPhase f => exact onPhaseEnds_kind h
  | shedChange active => exact live_moves (setShed_moves active s) h
  | estimatorSecond f => exact live_moves (secondPasses_moves f s) h
  | readinessSecond => exact live_moves (readinessSecond_moves s) h
  | entryLapse id => exact live_moves (entryLapses_moves id s) h
  | mainBreakerClosedChange closed => exact live_moves (breakerChanges_moves closed s) h
  | deckOffPress f => exact live_moves (deckPressed_moves f s) h
  | deckOffRelease f => exact live_moves (deckOff_moves f _ s) h
  | deckOffHold f => exact live_moves (deckHeld_moves f s) h
  | breakerStuckExpiry => exact live_moves (stuckExpires_moves s) h
  | sweepUnit => exact live_moves (unitBegins_moves s) h
  | waterConversionEnd ch code => exact live_moves (conversionEnds_moves ch code s) h
  | channelStale ch => exact live_moves (channelGoesStale_moves ch s) h
  | dipSample f code => exact live_moves (sampleEnds_moves f code s) h
  | lanceContact f => exact live_moves (lanceDown_moves f s) h
  | lanceLift f => exact live_moves (lanceUp_moves f s) h
  | dipTimerExpiry f => exact live_moves (endDip_moves f _ s) h
  | watchTimerExpiry c => exact live_moves (protect_moves (watchExpires_moves c s)) h
  | derateTimerExpiry c => exact live_moves (protect_moves (derateExpires_moves c s)) h
  | recoveryTimerExpiry c => exact live_moves (protect_moves (recoveryExpires_moves c s)) h
  | mainPumpRunChange active => exact live_moves (mainPumpChanges_moves active s) h
  | standbyRunChange active => exact live_moves (standbyChanges_moves active s) h
  | pressureTimerExpiry => exact live_moves (protect_moves (pressureExpires_moves s)) h
  | settleTimerExpiry => exact live_moves (protect_moves (settleExpires_moves s)) h
  | tiltChange f home forward => exact live_moves (tiltChanges_moves f home forward s) h
  | tapConfirmExpiry => exact live_moves (confirmExpires_moves s) h
  | permitUseExpiry => exact live_moves (useExpires_moves s) h
  | tapMaxExpiry => exact live_moves (tapMaxExpires_moves s) h
  | weightWaitExpiry => exact live_moves (weightWaitExpires_moves s) h

/-- Every step is of one of the kinds, on the state with the rest of its queue. -/
theorem step_kind {s t : State} (h : step s = .next t) : ∃ q i, StepKind (s.withQueue q) i t := by
  cases queue : s.pending with
  | cons c rest =>
    rw [step_cons c rest s queue] at h
    exact ⟨rest, _, exec_kind h⟩
  | nil =>
    rw [step_idle s queue] at h
    unfold idle at h
    split at h
    · exact ⟨s.pending, _, exec_kind h⟩
    · unfold tick at h
      split at h
      · next on => cases h; exact ⟨s.pending, none, .ms on⟩
      · next off => cases h; exact ⟨s.pending, none, .dark (Bool.eq_false_iff.mpr off)⟩

/-- What the queue does not matter to and every kind of step keeps, the steps keep. -/
theorem step_keeps {P : State → Prop} (queue : ∀ q s, P s → P (s.withQueue q))
    (kind : ∀ i s t, StepKind s i t → P s → P t) (s t : State) (p : P s) (h : step s = .next t) : P t := by
  obtain ⟨q, i, k⟩ := step_kind h
  exact kind _ _ _ k (queue q s p)

end Sys2Proof.Machine
end


section
/-! The step laws of the Stage Link Controller, of the shop and of the notice records (R64, R73, R76, R82, R140, R145). -/

namespace Sys2Proof.Machine

variable {reset : Option Circuit}

/-! ### The end of the settings load -/

/-- What the load up to the heats caught up reaches. -/
structure LoadOnly (s t : State) : Prop where
  frame : t = { s with clock := t.clock, heat := t.heat, shop := t.shop, ports := t.ports, sett := t.sett }
  notices : NoticeLaw s → NoticeLaw t

theorem LoadOnly.refl (s : State) : LoadOnly s s := ⟨rfl, id⟩

theorem LoadOnly.trans {s t u : State} (h : LoadOnly s t) (g : LoadOnly t u) : LoadOnly s u :=
  ⟨by rw [g.frame, h.frame], g.notices ∘ h.notices⟩

theorem LoadOnly.of_frame {s t : State}
    (frame : t = { s with clock := t.clock, heat := t.heat, shop := t.shop, sett := t.sett }) : LoadOnly s t := by
  rw [frame]
  exact ⟨rfl, id⟩

theorem post_loadOnly (d : Detail) (s : State) : LoadOnly s (post d s) := ⟨rfl, fun h => h.post d⟩

theorem setWorking_loadOnly (w : List Nat) (s : State) : LoadOnly s (setWorking w s) := .of_frame rfl

theorem fillWorking_loadOnly (good : Bool) (s : State) : LoadOnly s (fillWorking good s) := by
  unfold fillWorking
  dsimp only
  split <;> exact (setWorking_loadOnly _ s).trans (post_loadOnly _ _)

theorem editHeat_loadOnly (f : Furnace) (g : Heat → Heat) (s : State) : LoadOnly s (editHeat f g s) := by
  unfold editHeat
  split
  · exact .of_frame rfl
  · exact .refl s

theorem completeReasons_loadOnly (good : Bool) (s : State) : LoadOnly s (completeReasons good s) :=
  LoadOnly.trans (.of_frame rfl) (post_loadOnly _ _)

theorem catchUp_loadOnly (f : Furnace) (s : State) : LoadOnly s (catchUp f s) := by
  unfold catchUp
  split
  · exact .refl s
  · exact .of_frame rfl

theorem loadBegun_only (good : Bool) (s : State) : LoadOnly s (loadBegun good s) := by
  have fitted := ((fillWorking_loadOnly good s).trans (editHeat_loadOnly .a (fitHeat (fillWorking good s)) _)).trans
    (editHeat_loadOnly .b (fitHeat (fillWorking good s)) _)
  have completed : LoadOnly s (completeReasons good (memoryIdle _)) :=
    (fitted.trans (.of_frame rfl)).trans (completeReasons_loadOnly good _)
  exact (completed.trans (catchUp_loadOnly .a _)).trans (catchUp_loadOnly .b _)

/-! ### The stage law -/

theorem Stage.Lawful.kick {x : Stage} (h : x.Lawful) : x.kick.Lawful := by
  obtain ⟨timed, assembly, left⟩ := h
  unfold Stage.kick
  split
  · split
    · exact ⟨timed, assembly, fun down => ⟨(left down).1, rfl⟩⟩
    · split
      · exact ⟨timed, assembly, fun down => ⟨(left down).1, beq_eq_false_iff_ne.mpr down⟩⟩
      · exact ⟨timed, assembly, left⟩
  · exact ⟨timed, assembly, left⟩

theorem markTrip_upSinceBegun (t : Transmitter) : t.markTrip.upSinceBegun = t.upSinceBegun := by cases t <;> rfl

theorem Stage.Lawful.takeTrip {x : Stage} (h : x.Lawful) (mask : PerFurnace Bool) : (x.takeTrip mask).Lawful := by
  obtain ⟨timed, assembly, left⟩ := h
  exact ⟨timed, assembly, fun down => ⟨(left down).1, (markTrip_upSinceBegun _).trans (left down).2⟩⟩

theorem Stage.Lawful.takePair {x : Stage} (h : x.Lawful) (pair : PerFurnace HeldOutput) : (x.takePair pair).Lawful := h

theorem putAllotment_lawful {x : Allotment} {s : State} (h : s.stage.Lawful) : (putAllotment x s).stage.Lawful := by
  unfold putAllotment
  dsimp only
  split
  · exact h
  · exact (h.takePair _).kick

theorem allocate_lawful {s : State} (h : s.stage.Lawful) : (allocate s).stage.Lawful := by
  unfold allocate
  split
  · exact h
  · exact putAllotment_lawful h

theorem assertBreaker_stage (s : State) : (assertBreaker s).stage = s.stage := by rw [assertBreaker_shape]

theorem tripCircuit_lawful {c : Circuit} {cause : TripCause} {s : State} (h : s.stage.Lawful) :
    (tripCircuit c cause s).stage.Lawful := by
  have taken : ((s.stage.takeTrip (circuitMask c)).kick).Lawful := (h.takeTrip _).kick
  unfold tripCircuit
  dsimp only
  split
  · show (assertBreaker _).stage.Lawful
    rw [assertBreaker_stage]
    exact taken
  · exact taken

theorem tripForLoop_lawful {c : Circuit} {s : State} (h : s.stage.Lawful) : (tripForLoop c s).stage.Lawful := by
  unfold tripForLoop
  split
  · exact h
  · exact tripCircuit_lawful h

theorem TableMove.stage {s t : State} (m : TableMove s t) : t.stage = s.stage := by rw [m.only.frame]

theorem Move.stageLaw {s t : State} (m : Move reset s t) (h : s.stage.Lawful) : t.stage.Lawful := by
  cases m with
  | table m => rw [m.stage]; exact h
  | kicks => exact h.kick
  | tripTaken => exact (h.takeTrip _).kick
  | stage held law => exact law h
  | allots => exact allocate_lawful h
  | trips => rw [assertBreaker_stage]; exact h
  | loopFail cause =>
    unfold enterLoopFail
    rw [assertBreaker_stage]
    exact tripForLoop_lawful (tripForLoop_lawful (tripForLoop_lawful h))
  | posts | postsTo | port | leakCarried | clock | scan | pumps | settings | working | decks | stuck | breakerOpens
  | breakerCloses | breakerBack | resume | mode | meltRequest | shed | circuit | reset | pressure | loop => exact h

theorem tickOpt_isSome (t : Option Nat) : (tickOpt t).isSome = t.isSome := by cases t <;> rfl

theorem tickStage_lawful {x : Stage} (h : x.Lawful) : (tickStage x).Lawful := by
  obtain ⟨timed, assembly, left⟩ := h
  exact ⟨by rw [show (tickStage x).deadline = tickOpt x.deadline from rfl, tickOpt_isSome]; exact timed, assembly, left⟩

theorem tickClock_shape (s : State) : tickClock s = { s with clock := (tickClock s).clock } := by
  unfold tickClock
  dsimp only
  split <;> rfl

theorem reset_lawful : Stage.reset.Lawful := ⟨by decide, rfl, fun _ => ⟨rfl, rfl⟩⟩

theorem StepKind.stageLaw {i : Option Instr} {s t : State} (k : StepKind s i t) (h : s.stage.Lawful) : t.stage.Lawful := by
  cases k with
  | cold | warm | loss => exact reset_lawful
  | load on waiting ack first derived rest =>
    refine rest.keep (fun _ _ m => m.stageLaw) (first.keep (fun _ _ m => m.stageLaw) ?_)
    rw [(loadBegun_only _ s).frame]
    exact h
  | period | onPhase => exact putAllotment_lawful h
  | ms =>
    refine tickStage_lawful ?_
    rw [tickClock_shape]
    exact h.kick
  | dark =>
    rw [tickClock_shape]
    exact h
  | buffered | same => exact h
  | moves on reset allowed moves => exact moves.keep (fun _ _ m => m.stageLaw) h

/-- Settles O50. -/
theorem stepKeepsStageLaw : Obligations.StepKeepsStageLaw :=
  step_keeps (P := StageLaw) (fun _ _ h => h) fun _ _ _ k h => k.stageLaw h

/-! ### The shop law -/

/-- The shop law reads the shop, the breaker's line and the end of the load. -/
theorem ShopLaw.congr {s t : State} (h : ShopLaw s) (shop : t.shop = s.shop)
    (breaker : t.lines.breakerClosed = s.lines.breakerClosed) (loads : loading t = loading s) : ShopLaw t := by
  unfold ShopLaw HeldBack at *
  rw [shop, breaker, loads]
  exact h

theorem ShopLaw.asserted {s : State} (h : ShopLaw s) : ShopLaw (assertBreaker s) := by
  unfold assertBreaker
  split
  · next on =>
    obtain ⟨off, held, -, -⟩ := h
    exact ⟨off, held, fun _ => on.1, fun _ => rfl⟩
  · exact h

theorem tripCircuit_shopLaw {c : Circuit} {cause : TripCause} {s : State} (h : ShopLaw s) :
    ShopLaw (tripCircuit c cause s) := by
  have taken : ShopLaw (takeTrip (circuitMask c)
      (setCircuitRec c
        { (circuitOf s c).stopTimers with state := .trip, cause := some cause, enteredAt := now s, latch := true } s)) :=
    h.congr rfl rfl rfl
  unfold tripCircuit
  dsimp only
  split
  · exact taken.asserted.congr rfl rfl rfl
  · exact taken.congr rfl rfl rfl

theorem tripForLoop_shopLaw {c : Circuit} {s : State} (h : ShopLaw s) : ShopLaw (tripForLoop c s) := by
  unfold tripForLoop
  split
  · exact h
  · exact tripCircuit_shopLaw h

theorem TableMove.shopLaw {s t : State} (m : TableMove s t) (h : ShopLaw s) : ShopLaw t := by
  rw [m.only.frame]
  exact h

theorem anyReason_noReasons : anyReason noReasons = false := rfl

theorem Move.shopLaw {s t : State} (m : Move reset s t) (h : ShopLaw s) : ShopLaw t := by
  obtain ⟨off, held, asserted, timed⟩ := id h
  cases m with
  | table m => exact m.shopLaw h
  | settings working memory channel => exact h.congr rfl rfl memory
  | pumps breaker => exact h.congr rfl breaker rfl
  | decks | posts | postsTo | port | leakCarried | clock | scan | working | kicks | tripTaken | stage | meltRequest | shed
  | circuit | reset | pressure | loop => exact h
  | trips => exact h.asserted
  | stuck running => exact ⟨off, held, asserted, fun _ => timed (.inl running)⟩
  | breakerOpens =>
    exact ⟨iff_of_true rfl rfl, ⟨fun e => (by cases e), fun e => (by cases e.1)⟩, fun e => (by cases e),
      fun e => (by rcases e with e | e <;> cases e)⟩
  | breakerCloses was =>
    have opened : s.shop.breakerTrip = false := by
      have line := off.mp was
      cases trip : s.shop.breakerTrip
      · rfl
      · rw [asserted trip] at line; cases line
    refine ⟨⟨fun e => ?_, fun e => by cases e⟩, ⟨fun e => ⟨rfl, ?_⟩, fun e => ?_⟩, fun _ => rfl, timed⟩
    · dsimp only at e
      split at e <;> cases e
    · dsimp only at e
      split at e
      · next back =>
        have back : anyReason s.shop.reasons = true ∨ loading s = true := by simpa using back
        exact back
      · cases e
    · have back : anyReason s.shop.reasons = true ∨ loading s = true := e.2
      exact if_pos (by simpa using back)
  | breakerBack opened was => exact absurd (off.mpr opened) was
  | resume is loaded =>
    have line := (held.mp is).1
    refine ⟨⟨fun e => (by cases e), fun e => ?_⟩, ⟨fun e => (by cases e), fun e => ?_⟩, asserted, timed⟩
    · rw [line] at e; cases e
    · rcases e.2 with reason | waiting
      · cases reason
      · exact absurd (loaded.symm.trans waiting) (by decide)
  | mode was is =>
    have running : s.shop.state ≠ .supplyOff ∧ s.shop.state ≠ .held := by
      rcases was with e | e <;> rw [e] <;> decide
    refine ⟨⟨fun e => ?_, fun line => absurd (off.mpr line) running.1⟩,
      ⟨fun e => ?_, fun back => absurd (held.mpr back) running.2⟩, asserted, timed⟩
    · rcases is with i | i <;> rw [i] at e <;> cases e
    · rcases is with i | i <;> rw [i] at e <;> cases e
  | allots =>
    rw [allocate_shape]
    exact h
  | loopFail cause =>
    have failed : ShopLaw (setLoop .loopFail cause s.prot.loop.standbyLatch s) := h
    exact (tripForLoop_shopLaw (tripForLoop_shopLaw (tripForLoop_shopLaw failed))).asserted

/-- The reset shop state follows the breaker's line, with the deck held back by the load that follows (R65). -/
theorem reset_shop {t : State} {cold : Bool} {l : ResetLines} (shop : t.shop = Shop.reset cold l)
    (breaker : t.lines.breakerClosed = l.breakerClosed) (waiting : loading t = true) : ShopLaw t := by
  unfold ShopLaw HeldBack
  rw [shop, breaker, waiting]
  cases closed : l.breakerClosed <;> simp [Shop.reset, closed]

/-- The breaker output does not wait for the load. -/
def BreakerLaw (s : State) : Prop :=
  (s.shop.breakerTrip = true → s.lines.breakerClosed = true)
    ∧ (s.shop.stuckTimer.isSome = true ∨ s.shop.stuck = true → s.shop.breakerTrip = true)

/-- The reasons completed and the shop state derived when the load has ended (R65). -/
theorem completeReasons_shopLaw {good : Bool} {s : State} (h : BreakerLaw s) (loaded : loading s = false) :
    ShopLaw (completeReasons good s) := by
  obtain ⟨asserted, timed⟩ := h
  have ended : loading (completeReasons good s) = false := loaded
  unfold ShopLaw HeldBack
  rw [ended]
  refine ⟨?_, ?_, asserted, timed⟩
  · show (if s.lines.breakerClosed = true then _ else ShopState.supplyOff) = .supplyOff ↔ s.lines.breakerClosed = false
    cases s.lines.breakerClosed
    · simp
    · simp only [if_true, Bool.true_eq_false, iff_false]
      split <;> simp
  · show (if s.lines.breakerClosed = true then (if (_ : Bool) = true then ShopState.held else .run) else ShopState.supplyOff)
      = .held ↔ s.lines.breakerClosed = true ∧ (anyReason _ = true ∨ false = true)
    cases s.lines.breakerClosed
    · simp
    · simp only [if_true, true_and, Bool.false_eq_true, or_false]
      split
      · next back => simpa [anyReason, completeReasons, setShop] using back
      · next back => simpa [anyReason, completeReasons, setShop] using back

theorem LoadOnly.breakerLaw {s t : State} (h : LoadOnly s t) (shop : t.shop = s.shop) (law : BreakerLaw s) :
    BreakerLaw t := by
  unfold BreakerLaw
  rw [shop, h.frame]
  exact law

theorem fillWorking_shop (good : Bool) (s : State) : (fillWorking good s).shop = s.shop := by
  unfold fillWorking
  dsimp only
  split <;> rw [post_shop, setWorking_shop]

theorem editHeat_shop (f : Furnace) (g : Heat → Heat) (s : State) : (editHeat f g s).shop = s.shop := by
  unfold editHeat
  split <;> rfl

theorem catchUp_shopLaw {f : Furnace} {s : State} (h : ShopLaw s) : ShopLaw (catchUp f s) := by
  unfold catchUp
  split
  · exact h
  · exact h

theorem loadBegun_shopLaw {good : Bool} {s : State} (h : ShopLaw s) : ShopLaw (loadBegun good s) := by
  refine catchUp_shopLaw (catchUp_shopLaw (completeReasons_shopLaw ?_ rfl))
  have fitted : ∀ g, LoadOnly s (editHeat .b g (editHeat .a g (fillWorking good s))) := fun g =>
    ((fillWorking_loadOnly good s).trans (editHeat_loadOnly .a g _)).trans (editHeat_loadOnly .b g _)
  have ended : LoadOnly s (memoryIdle (editHeat .b (fitHeat (fillWorking good s))
      (editHeat .a (fitHeat (fillWorking good s)) (fillWorking good s)))) := (fitted _).trans (.of_frame rfl)
  refine ended.breakerLaw ?_ ⟨h.2.2.1, h.2.2.2⟩
  show (editHeat .b _ (editHeat .a _ _)).shop = s.shop
  rw [editHeat_shop, editHeat_shop, fillWorking_shop]

theorem loading_tickBlocks (s : State) : loading (tickBlocks s) = loading s := rfl

theorem StepKind.shopLaw {i : Option Instr} {s t : State} (k : StepKind s i t) (h : ShopLaw s) : ShopLaw t := by
  cases k with
  | cold l => exact reset_shop rfl rfl rfl
  | warm l => exact reset_shop rfl rfl rfl
  | loss => exact reset_shop (l := linesNow s) rfl rfl rfl
  | load on waiting ack first derived rest =>
    exact rest.keep (fun _ _ m => m.shopLaw) (first.keep (fun _ _ m => m.shopLaw) (loadBegun_shopLaw h))
  | period | onPhase =>
    unfold putPulse
    rw [(putAllotment_frame _ s).1]
    exact h
  | ms =>
    rw [tickClock_shape]
    obtain ⟨off, held, asserted, timed⟩ := h
    refine ⟨off, held, asserted, fun running => timed ?_⟩
    rcases running with e | e
    · exact .inl ((tickOpt_isSome _).symm.trans e)
    · exact .inr e
  | dark =>
    rw [tickClock_shape]
    exact h
  | buffered | same => exact h
  | moves on reset allowed moves => exact moves.keep (fun _ _ m => m.shopLaw) h

/-- Settles O54. -/
theorem stepKeepsShopLaw : Obligations.StepKeepsShopLaw :=
  step_keeps (P := ShopLaw) (fun _ _ h => h) fun _ _ _ k h => k.shopLaw h

/-! ### The notice law -/

theorem TableMove.noticeLaw {s t : State} (m : TableMove s t) (h : NoticeLaw s) : NoticeLaw t := m.only.notices.1 h

/-- The notice law reads the ports. -/
theorem NoticeLaw.congr {s t : State} (h : NoticeLaw s) (ports : t.ports = s.ports) : NoticeLaw t := by
  unfold NoticeLaw at *
  rw [ports]
  exact h

theorem tripCircuit_noticeLaw {c : Circuit} {cause : TripCause} {s : State} (h : NoticeLaw s) :
    NoticeLaw (tripCircuit c cause s) := by
  unfold tripCircuit
  dsimp only
  split
  · refine NoticeLaw.post ?_ _
    rw [assertBreaker_shape]
    exact h
  · exact NoticeLaw.post h _

theorem tripForLoop_noticeLaw {c : Circuit} {s : State} (h : NoticeLaw s) : NoticeLaw (tripForLoop c s) := by
  unfold tripForLoop
  split
  · exact h
  · exact tripCircuit_noticeLaw h

theorem Move.noticeLaw {s t : State} (m : Move reset s t) (h : NoticeLaw s) : NoticeLaw t := by
  cases m with
  | table m => exact m.noticeLaw h
  | posts d => exact h.post d
  | postsTo q d => exact h.postTo q d
  | port kept => exact h.setPort ((noticeLaw_iff.mp h _).kept kept)
  | trips =>
    rw [assertBreaker_shape]
    exact h
  | allots =>
    rw [allocate_shape]
    exact h
  | reset => exact NoticeLaw.post h _
  | loop => exact (NoticeLaw.post h _).congr rfl
  | loopFail cause =>
    have failed : NoticeLaw (setLoop .loopFail cause s.prot.loop.standbyLatch s) := NoticeLaw.post h _
    unfold enterLoopFail
    rw [assertBreaker_shape]
    exact tripForLoop_noticeLaw (tripForLoop_noticeLaw (tripForLoop_noticeLaw failed))
  | leakCarried | clock | scan | pumps | settings | working | decks | stuck | breakerOpens | breakerCloses | breakerBack
  | resume | mode | kicks | tripTaken | stage | meltRequest | shed | circuit | pressure => exact h

theorem StepKind.noticeLaw {i : Option Instr} {s t : State} (k : StepKind s i t) (h : NoticeLaw s) : NoticeLaw t := by
  cases k with
  | cold | warm | loss => exact reset_noticeLaw
  | load on waiting ack first derived rest =>
    exact rest.keep (fun _ _ m => m.noticeLaw) (first.keep (fun _ _ m => m.noticeLaw) ((loadBegun_only _ s).notices h))
  | period | onPhase =>
    unfold putPulse
    rw [(putAllotment_frame _ s).1]
    exact h
  | ms =>
    rw [tickClock_shape]
    exact h
  | dark =>
    rw [tickClock_shape]
    exact h
  | buffered i q fr =>
    obtain ⟨once, low, high, -⟩ := noticeLaw_iff.mp h q
    exact h.setPort ⟨once, low, high, rfl⟩
  | same => exact h
  | moves on reset allowed moves => exact moves.keep (fun _ _ m => m.noticeLaw) h

/-- Settles O55. -/
theorem stepKeepsNoticeLaw : Obligations.StepKeepsNoticeLaw :=
  step_keeps (P := NoticeLaw) (fun _ _ h => h) fun _ _ _ k h => k.noticeLaw h

end Sys2Proof.Machine
end


section
/-! The step law of protection, and how a circuit leaves TRIP (R102, R108, R111, R112 to R114, R119). -/

namespace Sys2Proof.Machine

variable {reset : Option Circuit}

/-! ### The protection law in two parts -/

/-- The protection law without the end of the settings load. -/
structure CircuitsLaw (s : State) : Prop where
  each : ∀ c, CircuitLaw (circuitOf s c)
  failed : s.prot.loop.state = some .loopFail → ∀ c, (circuitOf s c).state = .trip
  settle : s.prot.loop.settle.isSome = true ↔ s.prot.loop.state = some .changeover
  held : s.prot.loop.state = some .changeover → ∀ c, NoTimerRuns (circuitOf s c)

/-- Protection waits for the end of the settings load. -/
structure WaitsForLoad (s : State) : Prop where
  loop : s.prot.loop.state = none ↔ loading s = true
  init : loading s = true → ∀ c, (circuitOf s c).state = .init

theorem forall_circuit {P : Circuit → Prop} : (∀ c, P c) ↔ P .coilA ∧ P .coilB ∧ P .cabinet :=
  ⟨fun h => ⟨h _, h _, h _⟩, fun ⟨a, b, cab⟩ c => by cases c <;> assumption⟩

theorem protectionLaw_iff {s : State} : ProtectionLaw s ↔ CircuitsLaw s ∧ WaitsForLoad s := by
  constructor
  · rintro ⟨a, b, cab, failed, settle, held, loop, init⟩
    exact ⟨⟨forall_circuit.mpr ⟨a, b, cab⟩, fun e => forall_circuit.mpr (failed e), settle,
      fun e => forall_circuit.mpr (held e)⟩, ⟨loop, fun e => forall_circuit.mpr (init e)⟩⟩
  · rintro ⟨⟨each, failed, settle, held⟩, ⟨loop, init⟩⟩
    exact ⟨each .coilA, each .coilB, each .cabinet, fun e => forall_circuit.mp (failed e), settle,
      fun e => forall_circuit.mp (held e), loop, fun e => forall_circuit.mp (init e)⟩

theorem CircuitsLaw.congr {s t : State} (h : CircuitsLaw s) (circuits : t.prot.circuits = s.prot.circuits)
    (state : t.prot.loop.state = s.prot.loop.state) (settle : t.prot.loop.settle = s.prot.loop.settle) :
    CircuitsLaw t := by
  obtain ⟨each, failed, settled, held⟩ := h
  have same : ∀ c, circuitOf t c = circuitOf s c := fun c => by unfold circuitOf; rw [circuits]
  exact ⟨fun c => same c ▸ each c, fun e c => by rw [same]; exact failed (state ▸ e) c, by rw [state, settle]; exact settled,
    fun e c => by rw [same]; exact held (state ▸ e) c⟩

theorem WaitsForLoad.congr {s t : State} (h : WaitsForLoad s) (circuits : t.prot.circuits = s.prot.circuits)
    (state : t.prot.loop.state = s.prot.loop.state) (loads : loading t = loading s) : WaitsForLoad t := by
  have same : ∀ c, circuitOf t c = circuitOf s c := fun c => by unfold circuitOf; rw [circuits]
  exact ⟨by rw [state, loads]; exact h.loop, fun e c => by rw [same]; exact h.init (loads ▸ e) c⟩

theorem WaitsForLoad.loaded {s : State} (h : WaitsForLoad s) (runs : LoopRuns s) : loading s = false := by
  rcases runs with loaded | runs
  · exact loaded
  · cases l : loading s
    · rfl
    · rw [h.loop.mpr l] at runs; cases runs

/-- After the end of the load both hold for good. -/
theorem WaitsForLoad.of_loaded {s : State} (loaded : loading s = false) (runs : s.prot.loop.state.isSome = true) :
    WaitsForLoad s := by
  refine ⟨⟨fun none => ?_, fun l => ?_⟩, fun l => ?_⟩
  · rw [none] at runs; cases runs
  · rw [loaded] at l; cases l
  · rw [loaded] at l; cases l

/-! ### One circuit record replaced -/

/-- One circuit record replaced, with the loop as it was. -/
theorem CircuitsLaw.replaced {s t : State} (h : CircuitsLaw s) (c : Circuit)
    (others : ∀ d, d ≠ c → circuitOf t d = circuitOf s d) (loop : t.prot.loop = s.prot.loop)
    (law : CircuitLaw (circuitOf t c))
    (failed : s.prot.loop.state = some .loopFail → (circuitOf t c).state = .trip)
    (held : s.prot.loop.state = some .changeover → NoTimerRuns (circuitOf t c)) : CircuitsLaw t := by
  have each : ∀ P : CircuitRec → Prop, (∀ d, P (circuitOf s d)) → P (circuitOf t c) → ∀ d, P (circuitOf t d) := by
    intro P all one d
    by_cases e : d = c
    · exact e ▸ one
    · exact others d e ▸ all d
  refine ⟨each CircuitLaw h.each law, fun e => ?_, by rw [loop]; exact h.settle, fun e => ?_⟩
  · rw [loop] at e
    exact each (fun r => r.state = .trip) (h.failed e) (failed e)
  · rw [loop] at e
    exact each NoTimerRuns (h.held e) (held e)

theorem CircuitsLaw.set {s : State} {c : Circuit} {x : CircuitRec} (h : CircuitsLaw s) (step : CircuitStep s c x) :
    CircuitsLaw (setCircuitRec c x s) := by
  have same := circuitOf_setCircuitRec_same c x s
  refine h.replaced c (fun d e => circuitOf_setCircuitRec_other x s e) rfl ?_ ?_ ?_ <;> rw [same]
  · exact step.law (h.each c)
  · exact fun e => step.tripped (h.failed e c)
  · exact fun e => step.held e (h.held e c)

/-- A circuit that is taken out of TRIP enters NORMAL with its timers stopped (R111). -/
theorem resetTaken_circuit (c : Circuit) (s : State) :
    circuitOf (resetTaken c s) c
      = { (circuitOf s c).stopTimers with latch := false, cause := none, state := .normal, enteredAt := now s } := by
  unfold resetTaken enterNormal
  rw [enterState_circuit, circuitOf_setCircuitRec_same]
  rfl

theorem resetTaken_other {c d : Circuit} (s : State) (e : d ≠ c) : circuitOf (resetTaken c s) d = circuitOf s d := by
  unfold resetTaken enterNormal
  rw [(enterState_others _ _ _).1 d e, circuitOf_setCircuitRec_other _ _ e]

theorem CircuitsLaw.resetTaken {s : State} {c : Circuit} (h : CircuitsLaw s) (working : s.prot.loop.state ≠ some .loopFail) :
    CircuitsLaw (resetTaken c s) := by
  refine h.replaced c (fun d e => resetTaken_other s e) rfl ?_ (fun e => absurd e working) ?_ <;>
    rw [resetTaken_circuit]
  · exact ⟨fun e => (by cases e), by simp [CircuitRec.stopTimers]⟩
  · exact fun _ => stopTimers_noTimerRuns _

/-! ### The loop -/

theorem circuitOf_mapCircuits (g : CircuitRec → CircuitRec) (s : State) (c : Circuit) :
    circuitOf (mapCircuits g s) c = g (circuitOf s c) := by
  unfold circuitOf mapCircuits
  exact PerCircuit.get_map _ _ _

theorem hold_stopped {t : Timer} (h : t.mode = .stopped) : t.hold.mode = .stopped := by simp [Timer.hold, h]

theorem hold_notRunning (t : Timer) : t.hold.mode ≠ .running := by
  unfold Timer.hold
  split
  · simp
  · assumption

theorem release_stopped {t : Timer} (h : t.mode = .stopped) : t.release.mode = .stopped := by simp [Timer.release, h]

theorem LoopTimers.state {st : LoopState} {g : CircuitRec → CircuitRec} (h : LoopTimers st g) (r : CircuitRec) :
    (g r).state = r.state := by cases h <;> rfl

theorem LoopTimers.law {st : LoopState} {g : CircuitRec → CircuitRec} (h : LoopTimers st g) {r : CircuitRec}
    (law : CircuitLaw r) : CircuitLaw (g r) := by
  obtain ⟨tripped, cause⟩ := law
  cases h with
  | none => exact ⟨tripped, cause⟩
  | changeover =>
    refine ⟨fun trip => ?_, cause⟩
    obtain ⟨latch, w, d, rec⟩ := tripped trip
    exact ⟨latch, hold_stopped w, hold_stopped d, hold_stopped rec⟩
  | standby =>
    refine ⟨fun trip => ?_, cause⟩
    obtain ⟨latch, w, d, rec⟩ := tripped trip
    refine ⟨latch, release_stopped w, ?_, release_stopped rec⟩
    show (if r.recovery.mode = .stopped then r.derate.release else r.derate).mode = .stopped
    rw [if_pos rec]
    exact release_stopped d

theorem CircuitsLaw.loop {s : State} {st : LoopState} {g : CircuitRec → CircuitRec} (h : CircuitsLaw s)
    (timers : LoopTimers st g) (cause : LoopCause) (latch : Bool) :
    CircuitsLaw (mapCircuits g (setLoop st cause latch s)) := by
  have each : ∀ c, circuitOf (mapCircuits g (setLoop st cause latch s)) c = g (circuitOf s c) :=
    circuitOf_mapCircuits g _
  refine ⟨fun c => each c ▸ timers.law (h.each c), fun e => ?_, ?_, fun e c => ?_⟩
  · obtain rfl : st = .loopFail := Option.some.inj e
    cases timers with
    | none moving working => exact absurd rfl working
  · show (if st = .changeover then some 0 else none : Option Nat).isSome = true ↔ some st = some .changeover
    by_cases e : st = .changeover <;> simp [e]
  · obtain rfl : st = .changeover := Option.some.inj e
    rw [each]
    cases timers with
    | none moving working => exact absurd rfl moving
    | changeover => exact ⟨hold_notRunning _, hold_notRunning _, hold_notRunning _⟩

/-! ### LOOP_FAIL -/

/-- A circuit tripped for the loop, with the others and the loop as they were (R114). -/
theorem tripForLoop_spec (c : Circuit) (s : State) :
    (circuitOf (tripForLoop c s) c).state = .trip
      ∧ (CircuitLaw (circuitOf s c) → CircuitLaw (circuitOf (tripForLoop c s) c))
      ∧ (∀ d, d ≠ c → circuitOf (tripForLoop c s) d = circuitOf s d) ∧ (tripForLoop c s).prot.loop = s.prot.loop := by
  unfold tripForLoop
  split
  · next trip => exact ⟨trip, id, fun _ _ => rfl, rfl⟩
  · rw [tripCircuit_circuit]
    exact ⟨rfl, fun _ => ⟨fun _ => ⟨rfl, stopTimers_stopped _⟩, by simp⟩, (tripCircuit_others c .loop s).2,
      tripCircuit_loop c .loop s⟩

theorem tripForLoop_trip {c d : Circuit} {s : State} (h : (circuitOf s d).state = .trip) :
    (circuitOf (tripForLoop c s) d).state = .trip := by
  obtain ⟨tripped, -, others, -⟩ := tripForLoop_spec c s
  by_cases e : d = c
  · exact e ▸ tripped
  · rw [others d e, h]

theorem tripForLoop_law {c : Circuit} {s : State} (h : ∀ d, CircuitLaw (circuitOf s d)) (d : Circuit) :
    CircuitLaw (circuitOf (tripForLoop c s) d) := by
  obtain ⟨-, law, others, -⟩ := tripForLoop_spec c s
  by_cases e : d = c
  · exact e ▸ law (h c)
  · rw [others d e]
    exact h d

theorem assertBreaker_prot (s : State) : (assertBreaker s).prot = s.prot := by rw [assertBreaker_shape]

theorem enterLoopFail_circuit (cause : LoopCause) (s : State) (c : Circuit) :
    circuitOf (enterLoopFail cause s) c
      = circuitOf (tripForLoop .cabinet (tripForLoop .coilB (tripForLoop .coilA
          (setLoop .loopFail cause s.prot.loop.standbyLatch s)))) c := by
  unfold enterLoopFail circuitOf
  rw [assertBreaker_prot]

theorem enterLoopFail_tripped (cause : LoopCause) (s : State) (c : Circuit) :
    (circuitOf (enterLoopFail cause s) c).state = .trip := by
  rw [enterLoopFail_circuit]
  cases c with
  | coilA => exact tripForLoop_trip (tripForLoop_trip (tripForLoop_spec _ _).1)
  | coilB => exact tripForLoop_trip (tripForLoop_spec _ _).1
  | cabinet => exact (tripForLoop_spec _ _).1

theorem enterLoopFail_loop (cause : LoopCause) (s : State) :
    (enterLoopFail cause s).prot.loop.state = some .loopFail ∧ (enterLoopFail cause s).prot.loop.settle = none := by
  have loop : (enterLoopFail cause s).prot.loop = (setLoop .loopFail cause s.prot.loop.standbyLatch s).prot.loop := by
    unfold enterLoopFail
    rw [assertBreaker_prot, (tripForLoop_spec .cabinet _).2.2.2, (tripForLoop_spec .coilB _).2.2.2, (tripForLoop_spec .coilA _).2.2.2]
  rw [loop]
  exact ⟨rfl, rfl⟩

theorem CircuitsLaw.loopFail {s : State} (h : CircuitsLaw s) (cause : LoopCause) :
    CircuitsLaw (enterLoopFail cause s) := by
  obtain ⟨state, settle⟩ := enterLoopFail_loop cause s
  refine ⟨fun c => ?_, fun _ => enterLoopFail_tripped cause s, ?_, fun e => ?_⟩
  · have failed : ∀ d, CircuitLaw (circuitOf (setLoop .loopFail cause s.prot.loop.standbyLatch s) d) := h.each
    have first := tripForLoop_law (c := .coilA) failed
    have second := tripForLoop_law (c := .coilB) first
    rw [enterLoopFail_circuit]
    exact tripForLoop_law second c
  · rw [state, settle]
    simp
  · rw [state] at e
    cases e

/-! ### The moves and the steps -/

theorem allocate_prot (s : State) : (allocate s).prot = s.prot := by rw [allocate_shape]

theorem TableMove.prot {s t : State} (m : TableMove s t) : t.prot = s.prot := by rw [m.only.frame]

theorem Move.circuitsLaw {s t : State} (m : Move reset s t) (h : CircuitsLaw s) : CircuitsLaw t := by
  have same : ∀ {x : State}, x.prot = s.prot → CircuitsLaw x := fun e => h.congr (by rw [e]) (by rw [e]) (by rw [e])
  cases m with
  | table m => exact same m.prot
  | trips => exact same (assertBreaker_prot s)
  | allots => exact same (allocate_prot s)
  | circuit step => exact h.set step
  | reset named loaded working => exact h.resetTaken working
  | leakCarried | pressure => exact h.congr rfl rfl rfl
  | loop cause latch timers => exact h.loop timers cause latch
  | loopFail cause => exact h.loopFail cause
  | posts | postsTo | port | clock | scan | pumps | settings | working | decks | stuck | breakerOpens | breakerCloses
  | breakerBack | resume | mode | kicks | tripTaken | stage | meltRequest | shed => exact same rfl

theorem Move.waitsForLoad {s t : State} (m : Move reset s t) (h : WaitsForLoad s) : WaitsForLoad t := by
  have loads := m.stands.loading
  have same : t.prot = s.prot → WaitsForLoad t := fun e => h.congr (by rw [e]) (by rw [e]) loads
  cases m with
  | table m => exact same m.prot
  | trips => exact same (assertBreaker_prot s)
  | allots => exact same (allocate_prot s)
  | circuit step =>
    rename_i c x
    refine ⟨h.loop, fun l d => ?_⟩
    by_cases e : d = c
    · rw [e, circuitOf_setCircuitRec_same]
      exact step.waits l (h.init l c)
    · rw [circuitOf_setCircuitRec_other _ _ e]
      exact h.init l d
  | reset named loaded =>
    refine .of_loaded loaded (Option.isSome_iff_ne_none.mpr fun none => ?_)
    exact absurd ((h.loop.mp none).symm.trans loaded) (by decide)
  | leakCarried | pressure => exact h.congr rfl rfl rfl
  | loop cause latch timers runs => exact .of_loaded (h.loaded runs) rfl
  | loopFail cause runs =>
    exact .of_loaded (loads.trans (h.loaded runs)) (by rw [(enterLoopFail_loop cause s).1]; rfl)
  | posts | postsTo | port | clock | scan | pumps | settings | working | decks | stuck | breakerOpens | breakerCloses
  | breakerBack | resume | mode | kicks | tripTaken | stage | meltRequest | shed => exact same rfl

theorem reset_protection {t : State} {latches : PerCircuit Bool} {standbyLatch : Bool} {second : Nat}
    (prot : t.prot = Protection.reset latches standbyLatch second) (waiting : loading t = true) : ProtectionLaw t := by
  have law : ∀ latch, CircuitLaw (CircuitRec.reset latch second) := fun _ => ⟨fun e => (by cases e), by simp [CircuitRec.reset]⟩
  unfold ProtectionLaw
  rw [prot, waiting]
  exact ⟨law _, law _, law _, fun e => (by cases e), ⟨fun e => (by cases e), fun e => (by cases e)⟩,
    fun e => (by cases e), ⟨fun _ => rfl, fun _ => rfl⟩, fun _ => ⟨rfl, rfl, rfl⟩⟩

theorem tick_mode (t : Timer) : t.tick.mode = t.mode := by
  unfold Timer.tick
  split <;> rfl

theorem tick_law {r : CircuitRec} (law : CircuitLaw r) : CircuitLaw r.tick := by
  refine ⟨fun trip => ?_, law.2⟩
  obtain ⟨latch, w, d, rec⟩ := law.1 trip
  exact ⟨latch, (tick_mode _).trans w, (tick_mode _).trans d, (tick_mode _).trans rec⟩

theorem tick_noTimerRuns {r : CircuitRec} (quiet : NoTimerRuns r) : NoTimerRuns r.tick := by
  unfold NoTimerRuns CircuitRec.tick
  rw [tick_mode, tick_mode, tick_mode]
  exact quiet

theorem tickProtection_law {s t : State} (h : ProtectionLaw s) (prot : t.prot = tickProtection s.prot)
    (loads : loading t = loading s) : ProtectionLaw t := by
  obtain ⟨a, b, cab, failed, settle, held, loop, init⟩ := h
  unfold ProtectionLaw
  rw [prot, loads]
  refine ⟨tick_law a, tick_law b, tick_law cab, failed, ?_, fun e => ?_, loop, init⟩
  · show (tickOpt s.prot.loop.settle).isSome = true ↔ _
    rw [tickOpt_isSome]
    exact settle
  · obtain ⟨qa, qb, qcab⟩ := held e
    exact ⟨tick_noTimerRuns qa, tick_noTimerRuns qb, tick_noTimerRuns qcab⟩

theorem ProtectionLaw.congr {s t : State} (h : ProtectionLaw s) (prot : t.prot = s.prot) (loads : loading t = loading s) :
    ProtectionLaw t := by
  unfold ProtectionLaw at *
  rw [prot, loads]
  exact h

theorem StepKind.protectionLaw {i : Option Instr} {s t : State} (k : StepKind s i t) (h : ProtectionLaw s) :
    ProtectionLaw t := by
  cases k with
  | cold | warm | loss => exact reset_protection rfl rfl
  | load on waiting ack first derived rest =>
    have began : CircuitsLaw (loadBegun (goodBlock ack s.sett.block) s) := by
      have prot : (loadBegun (goodBlock ack s.sett.block) s).prot = s.prot := by rw [(loadBegun_only _ s).frame]
      exact (protectionLaw_iff.mp h).1.congr (by rw [prot]) (by rw [prot]) (by rw [prot])
    have circuits := rest.keep (fun _ _ m => m.circuitsLaw) (first.keep (fun _ _ m => m.circuitsLaw) began)
    have loaded := (rest.stands.loading.trans first.stands.loading).trans (loadBegun_loading _ s)
    exact protectionLaw_iff.mpr ⟨circuits, .of_loaded loaded (rest.stands.loop derived)⟩
  | period | onPhase =>
    unfold putPulse
    rw [(putAllotment_frame _ s).1]
    exact h
  | ms =>
    refine tickProtection_law h ?_ ?_ <;> rw [tickClock_shape] <;> rfl
  | dark =>
    rw [tickClock_shape]
    exact h
  | buffered | same => exact h
  | moves on reset allowed moves =>
    obtain ⟨circuits, waits⟩ := protectionLaw_iff.mp h
    exact protectionLaw_iff.mpr ⟨moves.keep (fun _ _ m => m.circuitsLaw) circuits,
      moves.keep (fun _ _ m => m.waitsForLoad) waits⟩

/-- Settles O53. -/
theorem stepKeepsProtectionLaw : Obligations.StepKeepsProtectionLaw :=
  step_keeps (P := ProtectionLaw) (fun _ _ h => h) fun _ _ _ k h => k.protectionLaw h

/-! ### TRIP (R111) -/

theorem circuitOf_congr {s t : State} (h : t.prot = s.prot) (c : Circuit) : circuitOf t c = circuitOf s c := by
  unfold circuitOf
  rw [h]

/-- A circuit stays in TRIP unless the move takes it out. -/
theorem Move.staysTripped {s t : State} (m : Move reset s t) {c : Circuit} (other : reset ≠ some c)
    (trip : (circuitOf s c).state = .trip) : (circuitOf t c).state = .trip := by
  have same : t.prot = s.prot → (circuitOf t c).state = .trip := fun e => (congrArg _ (circuitOf_congr e c)).trans trip
  cases m with
  | table m => exact same m.prot
  | trips => exact same (assertBreaker_prot s)
  | allots => exact same (allocate_prot s)
  | circuit step =>
    rename_i d x
    by_cases e : c = d
    · rw [e, circuitOf_setCircuitRec_same]
      exact step.tripped (e ▸ trip)
    · rw [circuitOf_setCircuitRec_other _ _ e, trip]
  | reset named =>
    rw [resetTaken_other s (by rintro rfl; exact other named), trip]
  | leakCarried | pressure => exact trip
  | loop cause latch timers =>
    rw [circuitOf_mapCircuits, timers.state]
    exact trip
  | loopFail cause => exact enterLoopFail_tripped cause s c
  | posts | postsTo | port | clock | scan | pumps | settings | working | decks | stuck | breakerOpens | breakerCloses
  | breakerBack | resume | mode | kicks | tripTaken | stage | meltRequest | shed => exact same rfl

theorem Moves.staysTripped {s t : State} (h : Moves reset s t) {c : Circuit} (other : reset ≠ some c)
    (trip : (circuitOf s c).state = .trip) : (circuitOf t c).state = .trip :=
  h.keep (P := fun x => (circuitOf x c).state = .trip) (fun _ _ m => m.staysTripped other) trip

theorem exec_next (i : Instr) (s : State) : ∃ t, exec i s = .next t := by cases i <;> exact ⟨_, rfl⟩

/-- The commands that reset protection. -/
def IsReset (i : Option Instr) : Prop :=
  (∃ l, i = some (.coldStart l)) ∨ (∃ l, i = some (.warmRestart l)) ∨ i = some .mainSupplyLoss

/-- A circuit leaves TRIP by a reset, or by a command that takes it out. -/
theorem StepKind.leavesTrip {i : Option Instr} {s t : State} (k : StepKind s i t) {c : Circuit}
    (trip : (circuitOf s c).state = .trip) (left : (circuitOf t c).state ≠ .trip) :
    IsReset i ∨ ∃ j, i = some j ∧ Resets j s c := by
  have same : t.prot ≠ s.prot := fun e => left ((congrArg _ (circuitOf_congr e c)).trans trip)
  cases k with
  | cold l => exact .inl (.inl ⟨l, rfl⟩)
  | warm l => exact .inl (.inr (.inl ⟨l, rfl⟩))
  | loss => exact .inl (.inr (.inr rfl))
  | load on waiting ack first derived rest =>
    have began : (circuitOf (loadBegun (goodBlock ack s.sett.block) s) c).state = .trip := by
      rw [(loadBegun_only _ s).frame]
      exact trip
    exact absurd (rest.staysTripped (by simp) (first.staysTripped (by simp) began)) left
  | period | onPhase =>
    refine absurd ?_ same
    unfold putPulse
    rw [(putAllotment_frame _ s).1]
  | ms =>
    rw [tickClock_shape] at left
    cases c <;> exact absurd trip left
  | dark =>
    rw [tickClock_shape] at same
    exact absurd rfl same
  | buffered | same => exact absurd rfl same
  | moves on reset allowed moves =>
    by_cases e : reset = some c
    · exact .inr ⟨_, rfl, allowed c e⟩
    · exact absurd (moves.staysTripped e trip) left

/-- A TRIP-RESET frame says what R111 asks of it. -/
theorem requestFrame_of_kind {fr : Frame} (kind : RequestKind.ofCode fr.kind.toNat = some .tripReset) :
    fr = requestFrame .tripReset fr.tag fr.body := by
  have code : fr.kind = BitVec.ofNat 8 RequestKind.tripReset.code := by
    revert kind
    generalize fr.kind = k
    revert k
    decide
  unfold requestFrame
  rw [← code]

/-- Settles O59. -/
theorem tripLeftOnlyByReset : Obligations.TripLeftOnlyByReset := by
  intro c i s fits trip
  obtain ⟨t, run⟩ := exec_next i s
  refine ⟨t, run, fun left => ?_⟩
  rcases (exec_kind run).leavesTrip trip left with resets | ⟨j, e, resets⟩
  · rcases resets with ⟨l, e⟩ | ⟨l, e⟩ | e <;> cases e <;> exact trivial
  · obtain rfl := Option.some.inj e
    cases i
    case tripReset q tag body =>
      obtain ⟨free, -, length, allowed, named, clear⟩ := resets
      exact ⟨free, ⟨length, named, allowed⟩, clear⟩
    case answerSent q =>
      obtain ⟨busy, fr, waiting, kind, length, allowed, named, clear⟩ := resets
      exact ⟨busy, ⟨fr.tag, fr.body, waiting.trans (congrArg some (requestFrame_of_kind kind)), length, named, allowed⟩, clear⟩
    case unknownRequestKind q kind tag body =>
      have named := congrArg Frame.kind (requestFrame_of_kind resets.1)
      obtain rfl : kind = 10 := named
      simp [Instr.wellFormed] at fits
    all_goals exact absurd resets id

end Sys2Proof.Machine
end


section
/-! The ranges of the settings (R152, R153, R157): what a write and what a load leave in them. -/

namespace Sys2Proof.Machine

/-! ### Values and ranges -/

theorem putValue_same (w : List Nat) {n : Nat} (low : 1 ≤ n) (high : n ≤ w.length) : putValue w n (valueIn w n) = w := by
  unfold valueIn putValue
  rw [List.getD_eq_getElem?_getD, List.getElem?_eq_getElem (by omega)]
  exact List.set_getElem_self ..

/-- The settings that the range of a setting reads (R152). -/
def reads : Nat → List Nat
  | 2 | 3 | 6 | 7 => [1]
  | 4 => [2]
  | 5 => [3]
  | 8 | 9 => [2, 3]
  | 13 => [11]
  | 14 => [12]
  | 25 | 26 | 31 => [20]
  | 32 => [20, 31]
  | 33 => [35]
  | 34 => [36]
  | 35 => [33]
  | 36 => [34]
  | 37 => [39]
  | 38 => [40]
  | 39 => [37]
  | 40 => [38]
  | 41 => [42]
  | 42 => [41]
  | _ => []

/-- The numbers of the table, one by one. -/
theorem setting_cases {P : Nat → Prop} (all : ∀ n ∈ settingNumbers, P n) (n : Nat) (low : 1 ≤ n) (high : n ≤ 65) : P n :=
  all n (by
    unfold settingNumbers
    exact List.mem_map.mpr ⟨n - 1, List.mem_range.mpr (by omega), by omega⟩)

theorem rangeOf_congr {w w' : List Nat} (bath : PerFurnace Nat) (load : Bool) {k : Nat}
    (same : ∀ j ∈ reads k, valueIn w' j = valueIn w j) : rangeOf w' bath load k = rangeOf w bath load k := by
  unfold rangeOf
  dsimp only
  split <;> simp only [reads, List.mem_cons, List.not_mem_nil, or_false, forall_eq_or_imp, forall_eq] at same <;>
    simp only [same]

/-- The settings have the ranges that they give each other. -/
theorem settingInRange_congr {w w' : List Nat} {k : Nat} (value : valueIn w' k = valueIn w k)
    (same : ∀ j ∈ reads k, valueIn w' j = valueIn w j) : SettingInRange w' k ↔ SettingInRange w k := by
  unfold SettingInRange
  rw [rangeOf_congr _ _ same, value]

/-! ### A value brought into its range (R153) -/

/-- The bottom of the range of a setting that is a multiple of 10 is one too. -/
theorem tens_low (w : List Nat) (bath : PerFurnace Nat) (load : Bool) {n : Nat} (tens : isTens n = true) :
    (rangeOf w bath load n).1 % 10 = 0 := by
  simp only [isTens, Bool.or_eq_true, beq_iff_eq] at tens
  rcases tens with (((rfl | rfl) | rfl) | rfl) | rfl <;> simp [rangeOf]

/-- A value brought into a range with a bottom below its top lies in it. -/
theorem fitSetting_bounds {w : List Nat} {bath : PerFurnace Nat} {load : Bool} {n : Nat} (value : Nat)
    (ordered : (rangeOf w bath load n).1 ≤ (rangeOf w bath load n).2) :
    (rangeOf w bath load n).1 ≤ fitSetting w bath load n value
      ∧ fitSetting w bath load n value ≤ (rangeOf w bath load n).2
      ∧ (isTens n = true → fitSetting w bath load n value % 10 = 0) := by
  have low := clampTo_low (n := value) ordered
  have high := clampTo_high (n := value) ordered
  unfold fitSetting
  dsimp only
  split
  · next tens =>
    have bottom := tens_low w bath load tens
    unfold floor10
    omega
  · next free => exact ⟨low, high, fun tens => absurd tens free⟩

/-- A value in its range stays. -/
theorem fitSetting_same {w : List Nat} {bath : PerFurnace Nat} {load : Bool} {n value : Nat}
    (low : (rangeOf w bath load n).1 ≤ value) (high : value ≤ (rangeOf w bath load n).2)
    (tens : isTens n = true → value % 10 = 0) : fitSetting w bath load n value = value := by
  unfold fitSetting
  dsimp only
  rw [clampTo_within low high]
  split
  · next t =>
    have := tens t
    unfold floor10
    omega
  · rfl

/-! ### A write -/

/-- The baths only raise the bottom of CAPACITY. -/
theorem rangeOf_bath (w : List Nat) (bath : PerFurnace Nat) (n : Nat) :
    (rangeOf w ⟨0, 0⟩ false n).1 ≤ (rangeOf w bath false n).1
      ∧ (rangeOf w bath false n).2 = (rangeOf w ⟨0, 0⟩ false n).2 := by
  unfold rangeOf
  dsimp only
  split
  case h_11 => exact ⟨Nat.le_max_left 1000 _, rfl⟩
  case h_12 => exact ⟨Nat.le_max_left 1000 _, rfl⟩
  all_goals exact ⟨Nat.le_refl _, rfl⟩

/-- The range of CAPACITY apart, the baths do not matter. -/
theorem rangeOf_bath_other (w : List Nat) (bath : PerFurnace Nat) (load : Bool) {n : Nat} (a : n ≠ 11) (b : n ≠ 12) :
    rangeOf w bath load n = rangeOf w ⟨0, 0⟩ load n := by
  unfold rangeOf
  dsimp only
  split
  case h_11 => exact absurd rfl a
  case h_12 => exact absurd rfl b
  all_goals rfl

/-- With every setting in its range no range is empty. -/
theorem rangeOf_ordered {w : List Nat} {bath : PerFurnace Nat} (all : WorkingInRange w) (a : bath.a ≤ 20000)
    (b : bath.b ≤ 20000) {n : Nat} (low : 1 ≤ n) (high : n ≤ 65) :
    (rangeOf w bath false n).1 ≤ (rangeOf w bath false n).2 := by
  have each := all.2
  have r1 := each 1 (by decide) (by decide)
  have r20 := each 20 (by decide) (by decide)
  have r31 := each 31 (by decide) (by decide)
  have r33 := each 33 (by decide) (by decide)
  have r34 := each 34 (by decide) (by decide)
  have r37 := each 37 (by decide) (by decide)
  have r38 := each 38 (by decide) (by decide)
  have r41 := each 41 (by decide) (by decide)
  simp only [SettingInRange, rangeOf, Bool.false_eq_true, if_false] at r1 r20 r31 r33 r34 r37 r38 r41
  unfold rangeOf
  dsimp only
  split <;> simp only [Bool.false_eq_true, if_false] <;> omega

/-- The dependents whose ranges follow a setting's value, at first or at second hand. -/
def affected : Nat → List Nat
  | 1 => [2, 3, 6, 7, 4, 5, 8, 9]
  | 2 => [4, 8, 9]
  | 3 => [5, 8, 9]
  | 11 => [13]
  | 12 => [14]
  | 20 => [25, 26, 31, 32]
  | 31 => [32]
  | _ => []

/-- A dependent whose range reads settings in their ranges has a range that is not empty. -/
theorem dependent_ordered {w : List Nat} {m : Nat} (dependent : m ∈ dependents)
    (deps : ∀ j ∈ reads m, SettingInRange w j) : (rangeOf w ⟨0, 0⟩ false m).1 ≤ (rangeOf w ⟨0, 0⟩ false m).2 := by
  have bound : ∀ {j}, j ∈ reads m → (rangeOf w ⟨0, 0⟩ false j).1 ≤ valueIn w j
      ∧ valueIn w j ≤ (rangeOf w ⟨0, 0⟩ false j).2 := fun mem => ⟨(deps _ mem).1, (deps _ mem).2.1⟩
  simp only [dependents, List.mem_cons, List.not_mem_nil, or_false] at dependent
  rcases dependent with rfl | rfl | rfl | rfl | rfl | rfl | rfl | rfl | rfl | rfl | rfl | rfl | rfl | rfl
  case inr.inr.inl | inr.inr.inr.inl | inr.inr.inr.inr.inl | inr.inr.inr.inr.inr.inl | inr.inr.inr.inr.inr.inr.inl
      | inr.inr.inr.inr.inr.inr.inr.inl | inr.inr.inr.inr.inr.inr.inr.inr.inl
      | inr.inr.inr.inr.inr.inr.inr.inr.inr.inl =>
    simp only [rangeOf]
    exact Nat.zero_le _
  case inl | inr.inl =>
    have supply := bound (j := 1) (by decide)
    simp only [rangeOf] at supply ⊢
    omega
  case inr.inr.inr.inr.inr.inr.inr.inr.inr.inr.inr.inr.inr =>
    have target := bound (j := 31) (by decide)
    simp only [rangeOf] at target ⊢
    omega
  all_goals
    have liquid := bound (j := 20) (by decide)
    simp only [rangeOf] at liquid ⊢
    omega

theorem affected_bounds : ∀ n ∈ settingNumbers, ∀ k ∈ affected n, k ∈ dependents ∧ k ≠ n ∧ 1 ≤ k ∧ k ≤ 65 := by decide

/-- What reads a dependent is a dependent. -/
theorem reads_dependents : ∀ k ∈ settingNumbers, ∀ m ∈ reads k, m ∈ dependents → k ∈ dependents := by decide

/-- The settings that others than a single threshold follow. -/
def roots : List Nat := [1, 2, 3, 11, 12, 20, 31]

theorem affected_roots (n : Nat) (other : n ∉ roots) : affected n = [] := by
  unfold affected
  split
  case h_8 => rfl
  all_goals exact absurd (by decide) other

theorem affected_closed_roots : ∀ n ∈ roots, ∀ k ∈ dependents, ∀ m ∈ reads k, m ∈ affected n → k ∈ affected n := by
  decide

/-- What reads an affected setting is affected. -/
theorem affected_closed {n m k : Nat} (within : k ∈ settingNumbers) (read : m ∈ reads k) (moved : m ∈ affected n)
    (dependent : m ∈ dependents) : k ∈ affected n := by
  by_cases root : n ∈ roots
  · exact affected_closed_roots n root k (reads_dependents k within m read dependent) m read moved
  · rw [affected_roots n root] at moved
    cases moved

/-- A setting that reads the one written is affected, but for the thresholds that bound each other. -/
theorem reads_affected : ∀ k ∈ settingNumbers, ∀ n ∈ reads k, k ∈ affected n ∨ (33 ≤ k ∧ k ≤ 42) := by decide

/-- No dependent reads one that comes after it in the order of the write. -/
theorem dependents_ordered : dependents.Pairwise (fun a b => b ∉ reads a) := by decide

theorem mem_settingNumbers {n : Nat} : n ∈ settingNumbers ↔ 1 ≤ n ∧ n ≤ 65 := by
  unfold settingNumbers
  simp only [List.mem_map, List.mem_range]
  constructor
  · rintro ⟨k, _, rfl⟩
    omega
  · rintro ⟨low, high⟩
    exact ⟨n - 1, by omega, by omega⟩

end Sys2Proof.Machine
end


section
/-! A write keeps every setting in its range, and a load brings the stored values into them (R152, R153, R157). -/

namespace Sys2Proof.Machine

/-! ### A write (R153) -/

/-- A value put in its range is in its range, as no range reads its own setting. -/
theorem put_inRange {w : List Nat} {n x : Nat} (low : 1 ≤ n) (high : n ≤ w.length) (own : n ∉ reads n)
    (positive : ∀ j ∈ reads n, 1 ≤ j)
    (bounds : (rangeOf w ⟨0, 0⟩ false n).1 ≤ x ∧ x ≤ (rangeOf w ⟨0, 0⟩ false n).2 ∧ (isTens n = true → x % 10 = 0)) :
    SettingInRange (putValue w n x) n := by
  have same : ∀ j ∈ reads n, valueIn (putValue w n x) j = valueIn w j := fun j mem =>
    valueIn_putValue_other x low (positive j mem) fun e => own (e ▸ mem)
  unfold SettingInRange
  rw [rangeOf_congr _ _ same, valueIn_putValue_same x low high]
  exact bounds

/-- A value put where a range does not read it leaves that range and its setting. -/
theorem put_inRange_other {w : List Nat} {n k x : Nat} (low : 1 ≤ n) (klow : 1 ≤ k) (apart : k ≠ n)
    (unread : n ∉ reads k) (positive : ∀ j ∈ reads k, 1 ≤ j) (h : SettingInRange w k) : SettingInRange (putValue w n x) k :=
  (settingInRange_congr (valueIn_putValue_other x low klow apart) fun j mem =>
    valueIn_putValue_other x low (positive j mem) fun e => unread (e ▸ mem)).mpr h

theorem reads_own : ∀ k ∈ settingNumbers, k ∉ reads k ∧ ∀ j ∈ reads k, 1 ≤ j ∧ j ≤ 65 := by decide

theorem reads_positive {k : Nat} (within : k ∈ settingNumbers) : ∀ j ∈ reads k, 1 ≤ j :=
  fun j mem => ((reads_own k within).2 j mem).1

/-- Two thresholds that bound each other stay in their ranges when one of them is put in its range. -/
theorem pair_inRange {w : List Nat} {n k x : Nat} (all : WorkingInRange w) (first : 33 ≤ k) (last : k ≤ 42)
    (pair : n ∈ reads k)
    (bounds : (rangeOf w ⟨0, 0⟩ false n).1 ≤ x ∧ x ≤ (rangeOf w ⟨0, 0⟩ false n).2) :
    SettingInRange (putValue w n x) k := by
  have within : k ∈ settingNumbers := mem_settingNumbers.mpr ⟨by omega, by omega⟩
  have size := all.1
  have inRange := all.2 k (by omega) (by omega)
  obtain ⟨nlow, nhigh⟩ := (reads_own k within).2 n pair
  have apart : k ≠ n := fun e => (reads_own k within).1 (e ▸ pair)
  have put := valueIn_putValue_same (w := w) x nlow (by omega)
  have stays := valueIn_putValue_other (w := w) x nlow (by omega : 1 ≤ k) apart
  have named : k = 33 ∨ k = 34 ∨ k = 35 ∨ k = 36 ∨ k = 37 ∨ k = 38 ∨ k = 39 ∨ k = 40 ∨ k = 41 ∨ k = 42 := by omega
  rcases named with rfl | rfl | rfl | rfl | rfl | rfl | rfl | rfl | rfl | rfl <;> simp only [reads, List.mem_singleton] at pair <;> subst pair <;>
    simp only [SettingInRange, rangeOf, put, stays, Bool.false_eq_true, if_false, isTens] at bounds inRange ⊢ <;>
    exact ⟨by omega, by omega, by simp⟩

/-- The dependents that a write still has to bring into their ranges are the only settings outside theirs. -/
def Unsettled (w : List Nat) (n : Nat) (rest : List Nat) : Prop :=
  w.length = 65 ∧ ∀ k ∈ settingNumbers, SettingInRange w k ∨ k ∈ affected n ∧ k ∈ rest

/-- One dependent brought into its range (R153). -/
def refitValue (bath : PerFurnace Nat) (x : List Nat) (m : Nat) : List Nat :=
  putValue x m (fitSetting x bath false m (valueIn x m))

theorem dependents_settings : ∀ m ∈ dependents, m ∈ settingNumbers ∧ m ≠ 11 ∧ m ≠ 12 := by decide

theorem refitValue_unsettled {bath : PerFurnace Nat} {x : List Nat} {n m : Nat} {before rest : List Nat}
    (number : n ∈ settingNumbers) (order : dependents.filter (fun d => d != n) = before ++ m :: rest)
    (h : Unsettled x n (m :: rest)) : Unsettled (refitValue bath x m) n rest := by
  obtain ⟨size, each⟩ := h
  have member : m ∈ dependents := by
    have mem : m ∈ before ++ m :: rest := by simp
    exact (List.mem_filter.mp (order ▸ mem)).1
  obtain ⟨within, a, b⟩ := dependents_settings m member
  obtain ⟨low, high⟩ := mem_settingNumbers.mp within
  have range : rangeOf x bath false m = rangeOf x ⟨0, 0⟩ false m := rangeOf_bath_other x bath false a b
  have ordered : (before ++ m :: rest).Pairwise (fun a b => b ∉ reads a) := order ▸ dependents_ordered.filter _
  obtain ⟨-, after, across⟩ := List.pairwise_append.mp ordered
  refine ⟨by unfold refitValue; rw [putValue_length, size], fun k kin => ?_⟩
  by_cases inRange : SettingInRange x m
  · have same : refitValue bath x m = x := by
      obtain ⟨bottom, top, tens⟩ := inRange
      unfold refitValue
      rw [fitSetting_same (by rw [range]; exact bottom) (by rw [range]; exact top) tens]
      exact putValue_same x low (by omega)
    rw [same]
    rcases each k kin with r | ⟨moved, waiting⟩
    · exact .inl r
    · rcases List.mem_cons.mp waiting with e | waits
      · exact .inl (e ▸ inRange)
      · exact .inr ⟨moved, waits⟩
  · have moved : m ∈ affected n := ((each m within).resolve_left inRange).1
    have deps : ∀ j ∈ reads m, SettingInRange x j := fun j mem => by
      rcases each j (mem_settingNumbers.mpr ((reads_own m within).2 j mem)) with r | ⟨-, waiting⟩
      · exact r
      · rcases List.mem_cons.mp waiting with e | waits
        · exact absurd (e ▸ mem) (reads_own m within).1
        · exact absurd mem ((List.pairwise_cons.mp after).1 j waits)
    by_cases e : k = m
    · left
      rw [e]
      refine put_inRange low (by omega) (reads_own m within).1 (reads_positive within) ?_
      rw [← range]
      exact fitSetting_bounds _ (by rw [range]; exact dependent_ordered member deps)
    · by_cases read : m ∈ reads k
      · have kmoved := affected_closed kin read moved member
        obtain ⟨dependent, other, -, -⟩ := affected_bounds n number k kmoved
        have listed : k ∈ before ++ m :: rest := order ▸ List.mem_filter.mpr ⟨dependent, by simpa using other⟩
        refine .inr ⟨kmoved, ?_⟩
        rcases List.mem_append.mp listed with early | late
        · exact absurd read (across k early m List.mem_cons_self)
        · exact (List.mem_cons.mp late).resolve_left e
      · rcases each k kin with r | ⟨kmoved, waiting⟩
        · exact .inl (put_inRange_other low (mem_settingNumbers.mp kin).1 e read (reads_positive kin) r)
        · exact .inr ⟨kmoved, (List.mem_cons.mp waiting).resolve_left e⟩

theorem refitValues_unsettled {bath : PerFurnace Nat} {n : Nat} (number : n ∈ settingNumbers) (rest before x : List Nat)
    (order : dependents.filter (fun d => d != n) = before ++ rest) (h : Unsettled x n rest) :
    Unsettled (rest.foldl (refitValue bath) x) n [] := by
  induction rest generalizing before x with
  | nil => exact h
  | cons m rest ih =>
    exact ih (before ++ [m]) _ (by rw [order, List.append_assoc]; rfl) (refitValue_unsettled number order h)

/-- The value that a write puts, with the dependents still to follow. -/
theorem written_unsettled {w : List Nat} {bath : PerFurnace Nat} {n value : Nat} (all : WorkingInRange w)
    (a : bath.a ≤ 20000) (b : bath.b ≤ 20000) (number : n ∈ settingNumbers) :
    Unsettled (putValue w n (fitSetting w bath false n value)) n (dependents.filter (fun m => m != n)) := by
  obtain ⟨low, high⟩ := mem_settingNumbers.mp number
  have size := all.1
  obtain ⟨bottom, top, tens⟩ := fitSetting_bounds (n := n) value (rangeOf_ordered all a b low high)
  obtain ⟨lower, same⟩ := rangeOf_bath w bath n
  refine ⟨by rw [putValue_length, size], fun k kin => ?_⟩
  obtain ⟨klow, khigh⟩ := mem_settingNumbers.mp kin
  by_cases e : k = n
  · left
    rw [e]
    exact put_inRange low (by omega) (reads_own n number).1 (reads_positive number)
      ⟨Nat.le_trans lower bottom, same ▸ top, tens⟩
  · by_cases read : n ∈ reads k
    · rcases reads_affected k kin n read with moved | ⟨first, last⟩
      · obtain ⟨dependent, other, -, -⟩ := affected_bounds n number k moved
        exact .inr ⟨moved, List.mem_filter.mpr ⟨dependent, by simpa using other⟩⟩
      · exact .inl (pair_inRange all first last read ⟨Nat.le_trans lower bottom, same ▸ top⟩)
    · exact .inl (put_inRange_other low klow e read (reads_positive kin) (all.2 k klow khigh))

/-- A write keeps every setting in its range. -/
theorem writeWorking_inRange {w : List Nat} {bath : PerFurnace Nat} {n value : Nat} (all : WorkingInRange w)
    (a : bath.a ≤ 20000) (b : bath.b ≤ 20000) (low : 1 ≤ n) (high : n ≤ 65) :
    WorkingInRange (writeWorking w bath n value) := by
  have number := mem_settingNumbers.mpr ⟨low, high⟩
  obtain ⟨size, each⟩ := refitValues_unsettled (bath := bath) number _ [] _ rfl (written_unsettled (value := value) all a b number)
  refine ⟨size, fun k klow khigh => ?_⟩
  rcases each k (mem_settingNumbers.mpr ⟨klow, khigh⟩) with r | ⟨-, none⟩
  · exact r
  · cases none

/-! ### CAPACITY after a write -/

theorem refitValues_other {bath : PerFurnace Nat} {k : Nat} (low : 1 ≤ k) (l : List Nat) (x : List Nat)
    (other : ∀ m ∈ l, 1 ≤ m ∧ k ≠ m) : valueIn (l.foldl (refitValue bath) x) k = valueIn x k := by
  induction l generalizing x with
  | nil => rfl
  | cons m rest ih =>
    obtain ⟨mlow, ne⟩ := other m List.mem_cons_self
    rw [List.foldl_cons, ih _ fun d mem => other d (List.mem_cons_of_mem m mem)]
    exact valueIn_putValue_other _ mlow low ne

/-- A write leaves CAPACITY at or above the bath of its furnace (R20, R152). -/
theorem writeWorking_capacity {w : List Nat} {bath : PerFurnace Nat} {n value : Nat} (f : Furnace) (size : w.length = 65)
    (fits : bath.get f ≤ 20000) (low : 1 ≤ n) (high : n ≤ 65) (was : bath.get f ≤ valueIn w (forFurnace 11 f)) :
    bath.get f ≤ valueIn (writeWorking w bath n value) (forFurnace 11 f) := by
  have number : 1 ≤ forFurnace 11 f := by cases f <;> decide
  have independent : ∀ m ∈ dependents.filter (fun m => m != n), 1 ≤ m ∧ forFurnace 11 f ≠ m := fun m mem => by
    have member := (List.mem_filter.mp mem).1
    obtain ⟨within, a, b⟩ := dependents_settings m member
    refine ⟨(mem_settingNumbers.mp within).1, ?_⟩
    cases f with
    | a => exact a.symm
    | b => exact b.symm
  show _ ≤ valueIn (List.foldl (refitValue bath) _ _) _
  rw [refitValues_other number _ _ independent]
  by_cases e : forFurnace 11 f = n
  · subst e
    rw [valueIn_putValue_same _ low (by omega)]
    cases f
    · exact Nat.le_trans (Nat.le_max_right 1000 _) (fitSetting_bounds (n := 11) value (Nat.max_le.mpr ⟨(by decide : 1000 ≤ 20000), fits⟩)).1
    · exact Nat.le_trans (Nat.le_max_right 1000 _) (fitSetting_bounds (n := 12) value (Nat.max_le.mpr ⟨(by decide : 1000 ≤ 20000), fits⟩)).1
  · rw [valueIn_putValue_other _ low number e]
    exact was

end Sys2Proof.Machine
end


section
/-! A load brings the stored values into their ranges (R157). -/

namespace Sys2Proof.Machine

/-- A setting lies in the range that the load gives it, which follows only the settings before it (R157). -/
def LoadInRange (w : List Nat) (bath : PerFurnace Nat) (n : Nat) : Prop :=
  (rangeOf w bath true n).1 ≤ valueIn w n ∧ valueIn w n ≤ (rangeOf w bath true n).2 ∧ (isTens n = true → valueIn w n % 10 = 0)

/-- The range of the load reads no setting at or after its own. -/
theorem loadRange_congr {w w' : List Nat} (bath : PerFurnace Nat) {k : Nat}
    (same : ∀ j, 1 ≤ j → j < k → valueIn w' j = valueIn w j) : rangeOf w' bath true k = rangeOf w bath true k := by
  unfold rangeOf
  dsimp only
  split <;> simp [same]

/-- With every setting before it loaded into its range, a range of the load is not empty. -/
theorem loadRange_ordered {w : List Nat} {bath : PerFurnace Nat} (a : bath.a ≤ 20000) (b : bath.b ≤ 20000) {n : Nat}
    (loaded : ∀ j, 1 ≤ j → j < n → LoadInRange w bath j) :
    (rangeOf w bath true n).1 ≤ (rangeOf w bath true n).2 := by
  have r1 := loaded 1 (by decide)
  have r20 := loaded 20 (by decide)
  have r31 := loaded 31 (by decide)
  have r33 := loaded 33 (by decide)
  have r34 := loaded 34 (by decide)
  have r37 := loaded 37 (by decide)
  have r38 := loaded 38 (by decide)
  have r41 := loaded 41 (by decide)
  simp only [LoadInRange, rangeOf, if_true] at r1 r20 r31 r33 r34 r37 r38 r41
  unfold rangeOf
  dsimp only
  split <;> simp only [if_true] <;> omega

/-- One value of the block taken (R157). -/
def takeValue (values : List Nat) (bath : PerFurnace Nat) (w : List Nat) (n : Nat) : List Nat :=
  putValue w n (fitSetting w bath true n (valueIn values n))

/-- A value taken lies in its range, and those before it stay in theirs. -/
theorem takeValue_inRange {values w : List Nat} {bath : PerFurnace Nat} {n : Nat} (a : bath.a ≤ 20000) (b : bath.b ≤ 20000)
    (size : w.length = 65) (low : 1 ≤ n) (high : n ≤ 65) (loaded : ∀ j, 1 ≤ j → j < n → LoadInRange w bath j) :
    ∀ j, 1 ≤ j → j < n + 1 → LoadInRange (takeValue values bath w n) bath j := by
  have other : ∀ k, 1 ≤ k → k ≠ n → valueIn (takeValue values bath w n) k = valueIn w k := fun k klow apart =>
    valueIn_putValue_other _ low klow apart
  have range : ∀ k, k ≤ n → rangeOf (takeValue values bath w n) bath true k = rangeOf w bath true k := fun k upto =>
    loadRange_congr bath fun j jlow less => other j jlow (by omega)
  intro j jlow jhigh
  unfold LoadInRange
  rw [range j (by omega)]
  by_cases e : j = n
  · subst e
    rw [show valueIn (takeValue values bath w j) j = _ from valueIn_putValue_same _ low (by omega)]
    exact fitSetting_bounds _ (loadRange_ordered a b loaded)
  · rw [other j jlow e]
    exact loaded j jlow (by omega)

theorem takeValues_inRange {values : List Nat} {bath : PerFurnace Nat} (a : bath.a ≤ 20000) (b : bath.b ≤ 20000)
    (k : Nat) (few : k ≤ 65) :
    let w := ((List.range k).map (· + 1)).foldl (takeValue values bath) Config.settingDefaults
    w.length = 65 ∧ ∀ j, 1 ≤ j → j < k + 1 → LoadInRange w bath j := by
  induction k with
  | zero => exact ⟨rfl, fun j low high => by omega⟩
  | succ k ih =>
    obtain ⟨size, loaded⟩ := ih (by omega)
    rw [List.range_succ, List.map_append, List.foldl_append]
    exact ⟨(putValue_length ..).trans size, takeValue_inRange a b size (by omega) (by omega) loaded⟩

theorem loadValues_taken (values : List Nat) (bath : PerFurnace Nat) :
    loadValues values bath = ((List.range 65).map (· + 1)).foldl (takeValue values bath) Config.settingDefaults := rfl

/-- The thresholds whose range of the load leaves out the bound given by a later setting (R157). -/
def unboundOnLoad : List Nat := [33, 34, 37, 38, 41, 42]

theorem loadRange_bounds (w : List Nat) (bath : PerFurnace Nat) {n : Nat} (bound : n ∉ unboundOnLoad) :
    (rangeOf w ⟨0, 0⟩ false n).1 ≤ (rangeOf w bath true n).1
      ∧ (rangeOf w bath true n).2 = (rangeOf w ⟨0, 0⟩ false n).2 := by
  unfold rangeOf
  dsimp only
  split
  case h_11 => exact ⟨Nat.le_max_left 1000 _, rfl⟩
  case h_12 => exact ⟨Nat.le_max_left 1000 _, rfl⟩
  all_goals try exact absurd (by decide) bound
  all_goals exact ⟨Nat.le_refl _, rfl⟩

/-- The bounds that the load leaves out hold as well, as each later threshold was clamped after its partner. -/
theorem loaded_inRange {w : List Nat} {bath : PerFurnace Nat} (size : w.length = 65)
    (loaded : ∀ j, 1 ≤ j → j < 66 → LoadInRange w bath j) : WorkingInRange w := by
  refine ⟨size, fun n low high => ?_⟩
  obtain ⟨bottom, top, tens⟩ := loaded n low (by omega)
  by_cases unbound : n ∈ unboundOnLoad
  · have r35 := loaded 35 (by decide) (by decide)
    have r36 := loaded 36 (by decide) (by decide)
    have r39 := loaded 39 (by decide) (by decide)
    have r40 := loaded 40 (by decide) (by decide)
    have r42 := loaded 42 (by decide) (by decide)
    simp only [LoadInRange, rangeOf] at r35 r36 r39 r40 r42
    refine ⟨?_, ?_, tens⟩ <;> simp only [unboundOnLoad, List.mem_cons, List.not_mem_nil, or_false] at unbound <;>
      rcases unbound with rfl | rfl | rfl | rfl | rfl | rfl <;>
      simp only [rangeOf, if_true, Bool.false_eq_true, if_false] at bottom top ⊢ <;> omega
  · obtain ⟨lower, same⟩ := loadRange_bounds w bath unbound
    exact ⟨Nat.le_trans lower bottom, same ▸ top, tens⟩

theorem reads_capacity : ∀ k ∈ settingNumbers, ∀ n, n = 11 ∨ n = 12 → n ∈ reads k → k = n + 2 := by
  have each : ∀ k ∈ settingNumbers, (11 ∈ reads k → k = 13) ∧ (12 ∈ reads k → k = 14) := by decide
  rintro k within n (rfl | rfl) read
  · exact (each k within).1 read
  · exact (each k within).2 read

/-- CAPACITY raised within its range keeps every setting in range: HEEL_MIN gains room (R157). -/
theorem raise_inRange {w : List Nat} {n x : Nat} (all : WorkingInRange w) (which : n = 11 ∨ n = 12)
    (rises : valueIn w n ≤ x) (fits : x ≤ 20000) : WorkingInRange (putValue w n x) := by
  have size := all.1
  refine ⟨(putValue_length ..).trans size, fun k low high => ?_⟩
  have was := all.2 k low high
  have same : ∀ j, 1 ≤ j → j ≠ n → valueIn (putValue w n x) j = valueIn w j := fun j jlow apart =>
    valueIn_putValue_other _ (by omega) jlow apart
  have put : valueIn (putValue w n x) n = x := valueIn_putValue_same _ (by omega) (by omega)
  by_cases e : k = n
  · rw [e] at was ⊢
    obtain ⟨bottom, -, -⟩ := was
    unfold SettingInRange
    rw [put]
    rcases which with rfl | rfl <;> exact ⟨Nat.le_trans bottom rises, fits, by simp [isTens]⟩
  · by_cases read : n ∈ reads k
    · have heel : k = n + 2 := reads_capacity k (mem_settingNumbers.mpr ⟨low, high⟩) n which read
      have value := same k low e
      rcases which with rfl | rfl <;> subst heel <;>
        simp only [SettingInRange, rangeOf, put, value, isTens] at was ⊢ <;>
        exact ⟨was.1, by omega, was.2.2⟩
    · exact put_inRange_other (by omega) low e read (reads_positive (mem_settingNumbers.mpr ⟨low, high⟩)) was

theorem raiseCapacities_inRange {w : List Nat} {bath : PerFurnace Nat} (a : bath.a ≤ 20000) (b : bath.b ≤ 20000)
    (all : WorkingInRange w) : WorkingInRange (raiseCapacities bath w) := by
  obtain ⟨-, top, -⟩ := all.2 11 (by decide) (by decide)
  have first : WorkingInRange (putValue w 11 (max (valueIn w 11) bath.a)) :=
    raise_inRange all (.inl rfl) (Nat.le_max_left _ _) (Nat.max_le.mpr ⟨top, a⟩)
  obtain ⟨-, second, -⟩ := all.2 12 (by decide) (by decide)
  have kept : valueIn (putValue w 11 (max (valueIn w 11) bath.a)) 12 = valueIn w 12 :=
    valueIn_putValue_other _ (by decide) (by decide) (by decide)
  exact raise_inRange first (.inr rfl) (kept ▸ Nat.le_max_left _ _) (Nat.max_le.mpr ⟨second, b⟩)

theorem loadValues_inRange {values : List Nat} {bath : PerFurnace Nat} (a : bath.a ≤ 20000) (b : bath.b ≤ 20000) :
    WorkingInRange (loadValues values bath) := by
  obtain ⟨size, loaded⟩ := takeValues_inRange (values := values) a b 65 (Nat.le_refl _)
  rw [loadValues_taken]
  exact loaded_inRange size loaded

/-- CAPACITY stands at or above the baths after a load. -/
theorem raiseCapacities_capacity {w : List Nat} (size : w.length = 65) (bath : PerFurnace Nat) (f : Furnace) :
    bath.get f ≤ valueIn (raiseCapacities bath w) (forFurnace 11 f) := by
  unfold raiseCapacities
  cases f
  · show bath.a ≤ valueIn _ 11
    rw [valueIn_putValue_other _ (by decide) (by decide) (by decide), valueIn_putValue_same _ (by decide) (by omega)]
    exact Nat.le_max_right _ _
  · show bath.b ≤ valueIn _ 12
    rw [valueIn_putValue_same _ (by decide) (by rw [putValue_length]; omega)]
    exact Nat.le_max_right _ _

end Sys2Proof.Machine
end


section
/-! What a move of the table makes of the heats and the closed-heat log, and the table law (R3, R6, R21). -/

namespace Sys2Proof.Machine

/-! ### The heat of a furnace after an operation -/

theorem heatOf_of_heat {s t : State} (heat : t.heat = s.heat) (f : Furnace) : heatOf t f = heatOf s f := by
  unfold heatOf slotOf
  rw [heat]

theorem returnEntry_heat (id : Nat) (s : State) : (returnEntry id s).heat = s.heat := by
  unfold returnEntry
  split
  · split <;> rfl
  · rfl

theorem refusePermit_heat (p : Permit) (r : Reason) (remove : Bool) (s : State) :
    (refusePermit p r remove s).heat = s.heat := by
  unfold refusePermit
  dsimp only
  split
  · simp only [removeEntry, askMatching_heat, setQueue_heat, setKept_heat, setPermit_heat, post_heat]
  · simp only [returnEntry_heat, askMatching_heat, setKept_heat, setPermit_heat, post_heat]

theorem endAssignment_heat (f : Furnace) (r : Reason) (s : State) : (endAssignment f r s).heat = s.heat := by
  unfold endAssignment
  split
  · exact refusePermit_heat _ _ _ s
  · split
    · rfl
    · split <;> rfl

theorem leaveReady_heat (f : Furnace) (r : Reason) (s : State) : (leaveReady f r s).heat = s.heat := endAssignment_heat f r s

theorem closeHeat_heat (f : Furnace) (h : Heat) (reason : CloseReason) (s : State) :
    (closeHeat f h reason s).heat = (closedState f (summaryOf s f h reason) .empty s.heat.nextNumber s).heat :=
  (closeHeat_only f h reason s).1.heat

/-! ### The effect on the table -/

/-- What a move makes of the heat of one furnace and of the log. -/
structure HeatEffect (f : Furnace) (s t : State) : Prop where
  other : heatOf t (otherFurnace f) = heatOf s (otherFurnace f)
  log : t.heat.log = s.heat.log
    ∨ ∃ h x, heatOf s f = some h ∧ x.number = h.number ∧ t.heat.log = appendLog x s.heat.log
  bath : bathMassOf t f ≤ max (bathMassOf s f) (capacity s f)
  charges : (∀ h ∈ heatOf s f, h.charges.length ≤ Config.chargeMax) → ∀ h ∈ heatOf t f, h.charges.length ≤ Config.chargeMax
  number : ∀ h' ∈ heatOf t f,
    (∃ h, heatOf s f = some h ∧ h'.number = h.number ∧ t.heat.log = s.heat.log)
      ∨ (t.heat.log.length ≤ Config.logMax → h'.number ∉ usedNumbers f t)

/-- The heats stand. -/
theorem HeatEffect.of_same (f : Furnace) {s t : State} (heats : ∀ g, heatOf t g = heatOf s g)
    (log : t.heat.log = s.heat.log) : HeatEffect f s t where
  other := heats _
  log := .inl log
  bath := by
    unfold bathMassOf
    rw [heats]
    exact Nat.le_max_left _ _
  charges := by
    rw [heats]
    exact id
  number := fun h' now => .inl ⟨h', by rw [← heats]; exact now, rfl, log⟩

theorem HeatEffect.of_heat (f : Furnace) {s t : State} (heat : t.heat = s.heat) : HeatEffect f s t :=
  .of_same f (heatOf_of_heat heat) (by rw [heat])

/-- One heat put in place of another with its number. -/
theorem HeatEffect.put {f : Furnace} {h h' : Heat} {s t : State} (heat : heatOf s f = some h)
    (number : h'.number = h.number)
    (charges : h.charges.length ≤ Config.chargeMax → h'.charges.length ≤ Config.chargeMax)
    (bath : h'.bathMass ≤ max h.bathMass (capacity s f)) (now : t.heat = (setHeat f h' s).heat) : HeatEffect f s t := by
  have holds : heatOf t f = some h' := (heatOf_of_heat now f).trans (heatOf_setHeat_same f h' s)
  have log : t.heat.log = s.heat.log := by rw [now]; rfl
  refine ⟨(heatOf_of_heat now _).trans (heatOf_setHeat_other h' s (by cases f <;> decide)), .inl log, ?_, ?_, ?_⟩
  · unfold bathMassOf
    rw [holds, heat]
    exact bath
  · rw [holds, heat]
    rintro few _ ⟨⟩
    exact charges (few h rfl)
  · rw [holds]
    rintro _ ⟨⟩
    exact .inl ⟨h, heat, number, log⟩

/-- The slot of a furnace holds no heat any more, with the number of its heat gone into the log or nowhere. -/
theorem HeatEffect.gone {f : Furnace} {s t : State} (other : heatOf t (otherFurnace f) = heatOf s (otherFurnace f))
    (none : heatOf t f = none)
    (log : t.heat.log = s.heat.log
      ∨ ∃ h x, heatOf s f = some h ∧ x.number = h.number ∧ t.heat.log = appendLog x s.heat.log) : HeatEffect f s t := by
  refine ⟨other, log, ?_, ?_, ?_⟩
  · unfold bathMassOf
    rw [none]
    exact Nat.zero_le _
  · rw [none]
    rintro _ _ ⟨⟩
  · rw [none]
    rintro _ ⟨⟩

/-- A heat closed. -/
theorem HeatEffect.closed {f : Furnace} {h : Heat} {x : Summary} {n : Nat} {s t : State} (heat : heatOf s f = some h)
    (number : x.number = h.number) (now : t.heat = (closedState f x .empty n s).heat) : HeatEffect f s t := by
  refine HeatEffect.gone ?_ ?_ (.inr ⟨h, x, heat, number, by rw [now]; rfl⟩)
  · rw [heatOf_of_heat now]
    exact heatOf_congr (by simp [closedState])
  · rw [heatOf_of_heat now]
    unfold heatOf slotOf closedState
    simp

/-! ### Free numbers -/

/-- The first of a chain of candidates that is not among those used, with a bound on the tries. -/
def firstFree (next : Nat → Nat) (used : List Nat) : Nat → Nat → Nat
  | 0, n => n
  | fuel + 1, n => if used.contains n then firstFree next used fuel (next n) else n

theorem freeNumber_firstFree (used : List Nat) (fuel n : Nat) : freeNumber used fuel n = firstFree numberAfter used fuel n := by
  induction fuel generalizing n with
  | zero => rfl
  | succ fuel ih => simp only [freeNumber, firstFree, ih]

theorem freeId_firstFree (avoid : List Nat) (fuel n : Nat) : freeId avoid fuel n = firstFree idAfter avoid fuel n := by
  induction fuel generalizing n with
  | zero => rfl
  | succ fuel ih => simp only [freeId, firstFree, ih]

/-- The candidate that comes after so many others. -/
def nthAfter (next : Nat → Nat) : Nat → Nat → Nat
  | 0, n => n
  | k + 1, n => nthAfter next k (next n)

theorem nthAfter_succ (next : Nat → Nat) (k n : Nat) : nthAfter next (k + 1) n = next (nthAfter next k n) := by
  induction k generalizing n with
  | zero => rfl
  | succ k ih => exact ih (next n)

/-- The candidate taken is the first that is free, or the last that may be tried. -/
theorem firstFree_candidate (next : Nat → Nat) (used : List Nat) (fuel n : Nat) :
    ∃ k ≤ fuel, firstFree next used fuel n = nthAfter next k n ∧ (∀ j < k, nthAfter next j n ∈ used)
      ∧ (k < fuel → nthAfter next k n ∉ used) := by
  induction fuel generalizing n with
  | zero => exact ⟨0, Nat.le_refl _, rfl, by simp, by simp⟩
  | succ fuel ih =>
    unfold firstFree
    split
    · next taken =>
      obtain ⟨k, bound, e, before, last⟩ := ih (next n)
      refine ⟨k + 1, by omega, e, fun j less => ?_, fun less => last (by omega)⟩
      cases j with
      | zero => exact List.contains_iff_mem.mp taken
      | succ j => exact before j (by omega)
    · next free => exact ⟨0, Nat.zero_le _, rfl, by simp, fun _ mem => free (List.contains_iff_mem.mpr mem)⟩

/-- With more candidates than numbers used, the one taken is free. -/
theorem firstFree_fresh {next : Nat → Nat} {used : List Nat} {fuel n : Nat} (few : used.length ≤ fuel)
    (distinct : ∀ i j, i < j → j ≤ fuel → nthAfter next i n ≠ nthAfter next j n) : firstFree next used fuel n ∉ used := by
  obtain ⟨k, bound, e, before, last⟩ := firstFree_candidate next used fuel n
  rw [e]
  rcases Nat.lt_or_ge k fuel with less | whole
  · exact last less
  · intro mem
    obtain rfl : k = fuel := by omega
    have nodup : ((List.range (k + 1)).map (fun i => nthAfter next i n)).Nodup := by
      refine List.pairwise_map.mpr (List.pairwise_lt_range.imp_of_mem fun {i j} _ within less => ?_)
      exact distinct i j less (Nat.le_of_lt_succ (List.mem_range.mp within))
    have within : (List.range (k + 1)).map (fun i => nthAfter next i n) ⊆ used := by
      intro x xin
      obtain ⟨i, ilow, rfl⟩ := List.mem_map.mp xin
      rcases Nat.lt_or_ge i k with less | last
      · exact before i less
      · obtain rfl : i = k := by have := List.mem_range.mp ilow; omega
        exact mem
    have short := nodup.length_le_of_subset within
    rw [List.length_map, List.length_range] at short
    omega

/-- The number after another, from 1 again after the last. -/
def wrapAfter (last n : Nat) : Nat := if last ≤ n then 1 else n + 1

theorem numberAfter_wraps : numberAfter = wrapAfter 9999 := rfl

theorem idAfter_wraps : idAfter = wrapAfter 255 := rfl

theorem wrapAfter_iterate (last n i : Nat) (few : i < last) :
    nthAfter (wrapAfter last) i n = if i = 0 then n else if last < n then i else if n + i ≤ last then n + i else n + i - last := by
  induction i with
  | zero => rfl
  | succ i ih =>
    have before := ih (by omega)
    rw [nthAfter_succ, if_neg (Nat.succ_ne_zero i)]
    generalize nthAfter (wrapAfter last) i n = m at before ⊢
    unfold wrapAfter
    grind

theorem wrapAfter_distinct {last n i j : Nat} (less : i < j) (few : j < last) :
    nthAfter (wrapAfter last) i n ≠ nthAfter (wrapAfter last) j n := by
  rw [wrapAfter_iterate last n i (by omega), wrapAfter_iterate last n j few]
  grind

/-- The number that a heat takes is used nowhere (R6). -/
theorem takeNumber_fresh {f : Furnace} {s : State} (few : s.heat.log.length ≤ Config.logMax) :
    takeNumber f s ∉ usedNumbers f s := by
  have count : (usedNumbers f s).length ≤ 33 := by
    have few : s.heat.log.length ≤ 32 := few
    unfold usedNumbers
    cases heatOf s (otherFurnace f) <;> simp <;> omega
  unfold takeNumber
  rw [freeNumber_firstFree, numberAfter_wraps]
  exact firstFree_fresh count fun i j less bound => wrapAfter_distinct less (by omega)

/-! ### The moves of the table -/

/-- A heat opened, on an empty place or in place of one closed. -/
theorem HeatEffect.opened {f : Furnace} {h : Heat} {s u t : State} (now : t.heat = (openHeat f h u).heat)
    (other : heatOf u (otherFurnace f) = heatOf s (otherFurnace f))
    (log : u.heat.log = s.heat.log
      ∨ ∃ h x, heatOf s f = some h ∧ x.number = h.number ∧ u.heat.log = appendLog x s.heat.log)
    (number : h.number = takeNumber f u) (charges : h.charges.length ≤ Config.chargeMax)
    (bath : h.bathMass ≤ max (bathMassOf s f) (capacity s f)) : HeatEffect f s t := by
  have holds : heatOf t f = some h := (heatOf_of_heat now f).trans (heatOf_setHeat_same f h u)
  have others : heatOf t (otherFurnace f) = heatOf u (otherFurnace f) :=
    (heatOf_of_heat now _).trans (heatOf_setHeat_other h u (by cases f <;> decide))
  have logs : t.heat.log = u.heat.log := by rw [now]; rfl
  refine ⟨others.trans other, by rw [logs]; exact log, ?_, ?_, ?_⟩
  · unfold bathMassOf
    rw [holds]
    exact bath
  · rw [holds]
    rintro _ _ ⟨⟩
    exact charges
  · rw [holds]
    rintro _ ⟨⟩
    refine .inr fun few => ?_
    have same : usedNumbers f t = usedNumbers f u := by
      unfold usedNumbers
      rw [others, logs]
    rw [same, number]
    exact takeNumber_fresh (logs ▸ few)

/-- A completed tap leaves less metal, or a closed heat (R13). -/
theorem tapFinished_effect {p : Permit} {mass : Nat} (clamped timeout : Bool) (s : State) :
    HeatEffect p.furnace s (tapFinished p mass clamped timeout s) := by
  have heat : (tapFinished p mass clamped timeout s).heat = (heatTakesTap p.furnace mass clamped timeout s).heat := rfl
  cases e : heatOf s p.furnace with
  | none =>
    refine .of_heat _ (heat.trans ?_)
    unfold heatTakesTap
    rw [e]
  | some h =>
    by_cases empty : (completeHeat mass clamped timeout h).bathMass = 0
    · rw [heatTakesTap_emptied mass clamped timeout e empty, closeHeat_heat] at heat
      refine .closed (n := s.heat.nextNumber) (x := summaryOf (setHeat p.furnace (completeHeat mass clamped timeout h) s)
        p.furnace (completeHeat mass clamped timeout h) .emptied) e rfl (heat.trans ?_)
      unfold closedState
      simp
    · rw [heatTakesTap_left mass clamped timeout e empty] at heat
      exact .put (h' := completeHeat mass clamped timeout h) e rfl id
        (Nat.le_trans (Nat.sub_le h.bathMass mass) (Nat.le_max_left _ _)) heat

theorem editHeat_effect {f : Furnace} {g : Heat → Heat} {s t : State} (now : t.heat = (editHeat f g s).heat)
    (same : ∀ h, (g h).number = h.number ∧ (g h).charges = h.charges ∧ (g h).bathMass = h.bathMass) : HeatEffect f s t := by
  cases e : heatOf s f with
  | none => exact .of_heat f (now.trans (by rw [editHeat_none g e]))
  | some h =>
    obtain ⟨number, charges, bath⟩ := same h
    exact .put e number (fun few => charges ▸ few) (bath ▸ Nat.le_max_left _ _) (now.trans (by rw [editHeat_some g e]))

theorem grantPermit_effect (p : Permit) (s : State) : HeatEffect p.furnace s (grantPermit p s) := by
  cases e : heatOf s p.furnace with
  | none =>
    refine .of_heat _ ?_
    unfold grantPermit
    dsimp only
    have still : ∀ q, heatOf (setPermit q s) p.furnace = none := fun _ => e
    rw [post_heat, editHeat_none _ (still _)]
    rfl
  | some h =>
    rw [grantPermit_eq p h s e]
    exact .put (h' := { h with state := .tapping, openTap := some (newTap s h (ladleOf s p.requestId) p.requestId) }) e
      rfl id (Nat.le_max_left _ _) rfl

theorem setFurnaceSlot_heatOf {f : Furnace} {x : FurnaceSlot} {s : State} (same : x.slot = slotOf s f) (g : Furnace) :
    heatOf (setFurnaceSlot f x s) g = heatOf s g := by
  refine heatOf_congr ?_
  rw [setFurnaceSlot_heat]
  simp only [PerFurnace.get_set]
  split
  · next e => rw [e]; exact same
  · rfl

/-- Every move of the table is an effect on the heat of one furnace. -/
theorem TableMove.effect {s t : State} (m : TableMove s t) : ∃ f, HeatEffect f s t := by
  cases m with
  | tapSide | assign | remove | append | pend | permit => exact ⟨.a, .of_heat _ rfl⟩
  | refuse r remove => exact ⟨.a, .of_heat _ (refusePermit_heat _ r remove s)⟩
  | @edit f h h' heat revised ready => exact ⟨f, .put heat revised.number revised.charges revised.bath rfl⟩
  | @leave u f h h' r heat revised posted =>
    refine ⟨f, .put heat revised.number revised.charges revised.bath ?_⟩
    rw [leaveReady_heat, posted.1]
  | @slotSide f x same =>
    exact ⟨f, .of_same f (setFurnaceSlot_heatOf same) rfl⟩
  | @grant p held pending => exact ⟨p.furnace, grantPermit_effect p s⟩
  | @withdraw p held granted =>
    refine ⟨p.furnace, editHeat_effect (g := fun h => { h with state := .holding, openTap := none }) ?_ fun _ => ⟨rfl, rfl, rfl⟩⟩
    unfold permitWithdrawn
    rw [returnEntry_heat]
    rfl
  | @complete p mass clamped timeout => exact ⟨p.furnace, tapFinished_effect clamped timeout s⟩
  | @close f h reason heat => exact ⟨f, .closed heat rfl (closeHeat_heat f h reason s)⟩
  | @succeed f h heat =>
    have closed : HeatEffect f s (closeHeat f h .closed s) := .closed heat rfl (closeHeat_heat f h .closed s)
    refine ⟨f, .opened (u := closeHeat f h .closed s) rfl closed.other closed.log rfl (by simp [successorOf, Config.chargeMax]) ?_⟩
    unfold bathMassOf
    rw [heat]
    exact Nat.le_max_left _ _
  | @opened f h free opens =>
    exact ⟨f, .opened (u := s) rfl rfl (.inl rfl) opens.number opens.charges (Nat.le_trans opens.bath (Nat.le_max_right _ _))⟩
  | @emptied f free =>
    refine ⟨f, .gone ?_ ?_ (.inl rfl)⟩
    · unfold heatOf
      rw [slotOf_setSlot_other _ _ (by cases f <;> decide)]
    · unfold heatOf
      rw [slotOf_setSlot_same]

/-! ### The table law -/

theorem numbersInUse_perm (s : State) (f : Furnace) :
    (numbersInUse s).Perm (((heatOf s f).map Heat.number).toList ++ usedNumbers f s) := by
  unfold numbersInUse usedNumbers
  cases f
  · rw [List.append_assoc]
    exact .refl _
  · rw [← List.append_assoc]
    exact List.perm_append_comm.append_right _

theorem appendLog_length (x : Summary) (log : List Summary) (few : log.length ≤ Config.logMax) :
    (appendLog x log).length ≤ Config.logMax := by
  unfold appendLog
  rw [List.length_drop, List.length_append]
  simp only [List.length_singleton]
  omega

/-- The numbers of the log after a summary: one goes in, and the oldest may go out. -/
theorem appendLog_numbers (x : Summary) (log : List Summary) :
    ((appendLog x log).map Summary.number).Sublist (log.map Summary.number ++ [x.number]) := by
  unfold appendLog
  have whole : (log ++ [x]).map Summary.number = log.map Summary.number ++ [x.number] := by simp
  rw [← whole]
  exact (List.drop_sublist _ _).map _

theorem HeatEffect.tableLaw {f : Furnace} {s t : State} (e : HeatEffect f s t) (h : TableLaw s) : TableLaw t := by
  obtain ⟨few, distinct, charges⟩ := h
  rw [(numbersInUse_perm s f).nodup_iff] at distinct
  have fewer : t.heat.log.length ≤ Config.logMax := by
    rcases e.log with same | ⟨h, x, -, -, appended⟩
    · exact same ▸ few
    · rw [appended]
      exact appendLog_length x _ few
  have used : (usedNumbers f t).Nodup := by
    unfold usedNumbers at distinct ⊢
    rw [e.other]
    rcases e.log with same | ⟨h, x, heat, number, appended⟩
    · rw [same]
      exact (List.nodup_append.mp distinct).2.1
    · rw [appended]
      rw [heat] at distinct
      refine List.Nodup.sublist ((appendLog_numbers x _).append_left _) ?_
      rw [← List.append_assoc, number]
      exact (List.perm_append_comm (l₁ := [h.number])).nodup_iff.mp distinct
  refine ⟨fewer, ?_, fun g h' now => ?_⟩
  · rw [(numbersInUse_perm t f).nodup_iff]
    cases now : heatOf t f with
    | none => exact used
    | some h' =>
      refine List.nodup_cons.mpr ⟨?_, used⟩
      rcases e.number h' now with ⟨h, heat, number, same⟩ | fresh
      · rw [heat] at distinct
        have was := (List.nodup_cons.mp distinct).1
        unfold usedNumbers at was ⊢
        rw [e.other, same, number]
        exact was
      · exact fresh fewer
  · rcases furnace_cases f g with own | other
    · exact e.charges (charges f) h' (own ▸ now)
    · rw [other, e.other] at now
      exact charges _ h' now

theorem TableMove.tableLaw {s t : State} (m : TableMove s t) (h : TableLaw s) : TableLaw t := by
  obtain ⟨f, e⟩ := m.effect
  exact e.tableLaw h

/-- The table law reads the heat table. -/
theorem TableLaw.congr {s t : State} (h : TableLaw s) (heat : t.heat = s.heat) : TableLaw t := by
  unfold TableLaw numbersInUse heatOf slotOf at *
  rw [heat]
  exact h

theorem tripCircuit_heat (c : Circuit) (cause : TripCause) (s : State) :
    (tripCircuit c cause s).heat = s.heat ∧ (tripCircuit c cause s).tap = s.tap := by
  rw [tripCircuit_shape]
  exact ⟨rfl, rfl⟩

theorem tripForLoop_heat (c : Circuit) (s : State) :
    (tripForLoop c s).heat = s.heat ∧ (tripForLoop c s).tap = s.tap := by
  unfold tripForLoop
  split
  · exact ⟨rfl, rfl⟩
  · exact tripCircuit_heat _ _ _

/-- The moves outside the table leave the heats and the tap. -/
theorem Move.heat {reset : Option Circuit} {s t : State} (m : Move reset s t) :
    TableMove s t ∨ t.heat = s.heat ∧ t.tap = s.tap := by
  cases m with
  | table m => exact .inl m
  | trips =>
    rw [assertBreaker_shape]
    exact .inr ⟨rfl, rfl⟩
  | allots =>
    rw [allocate_shape]
    exact .inr ⟨rfl, rfl⟩
  | loopFail cause =>
    obtain ⟨heatA, tapA⟩ := tripForLoop_heat .coilA (setLoop .loopFail cause s.prot.loop.standbyLatch s)
    obtain ⟨heatB, tapB⟩ := tripForLoop_heat .coilB (tripForLoop .coilA (setLoop .loopFail cause s.prot.loop.standbyLatch s))
    obtain ⟨heatC, tapC⟩ := tripForLoop_heat .cabinet
      (tripForLoop .coilB (tripForLoop .coilA (setLoop .loopFail cause s.prot.loop.standbyLatch s)))
    right
    unfold enterLoopFail
    rw [assertBreaker_shape]
    exact ⟨heatC.trans (heatB.trans heatA), tapC.trans (tapB.trans tapA)⟩
  | posts | postsTo | port | leakCarried | clock | scan | pumps | settings | working | decks | stuck | breakerOpens
  | breakerCloses | breakerBack | resume | mode | kicks | tripTaken | stage | meltRequest | shed | circuit | reset
  | pressure | loop => exact .inr ⟨rfl, rfl⟩

theorem Move.tableLaw {reset : Option Circuit} {s t : State} (m : Move reset s t) (h : TableLaw s) : TableLaw t := by
  rcases m.heat with table | ⟨same, -⟩
  · exact table.tableLaw h
  · exact h.congr same

/-- Heats with the numbers and the charges of others keep the table law. -/
theorem TableLaw.of_heats {s t : State} (h : TableLaw s) (log : t.heat.log = s.heat.log)
    (number : ∀ f, (heatOf t f).map Heat.number = (heatOf s f).map Heat.number)
    (charges : ∀ f, (heatOf t f).map Heat.charges = (heatOf s f).map Heat.charges) : TableLaw t := by
  obtain ⟨few, distinct, each⟩ := h
  refine ⟨log ▸ few, ?_, fun f h' now => ?_⟩
  · unfold numbersInUse at *
    rw [log, number, number]
    exact distinct
  · have same := charges f
    rw [show heatOf t f = some h' from now] at same
    cases was : heatOf s f with
    | none => rw [was] at same; cases same
    | some h =>
      rw [was] at same
      have : h'.charges = h.charges := Option.some.inj same
      rw [this]
      exact each f h was

end Sys2Proof.Machine
end


section
/-! The heats over the settings load and over a reset, and the step laws of the table and of the settings
(R20, R24, R37, R152 to R157). -/

namespace Sys2Proof.Machine

/-! ### The heats over the load -/

/-- Every heat is the one it was, revised. -/
def HeatsRevised (s t : State) : Prop :=
  t.heat.log = s.heat.log
    ∧ ∀ f, (heatOf s f = none ∧ heatOf t f = none)
        ∨ ∃ h h', heatOf s f = some h ∧ heatOf t f = some h' ∧ HeatRevised 0 h h'

theorem HeatsRevised.of_heat {s t : State} (heat : t.heat = s.heat) : HeatsRevised s t := by
  refine ⟨by rw [heat], fun f => ?_⟩
  rw [heatOf_of_heat heat]
  cases heatOf s f with
  | none => exact .inl ⟨rfl, rfl⟩
  | some h => exact .inr ⟨h, h, rfl, rfl, HeatRevised.refl _ _⟩

theorem HeatsRevised.trans {s t u : State} (h : HeatsRevised s t) (g : HeatsRevised t u) : HeatsRevised s u := by
  refine ⟨g.1.trans h.1, fun f => ?_⟩
  rcases h.2 f with ⟨none, none'⟩ | ⟨x, y, was, is, revised⟩ <;> rcases g.2 f with ⟨gone, gone'⟩ | ⟨y', z, was', is', revised'⟩
  · exact .inl ⟨none, gone'⟩
  · rw [none'] at was'; cases was'
  · rw [is] at gone; cases gone
  · obtain rfl : y = y' := Option.some.inj (is.symm.trans was')
    exact .inr ⟨x, z, was, is', revised.trans revised'⟩

theorem HeatsRevised.set {s t : State} {f : Furnace} {h h' : Heat} (heat : heatOf s f = some h)
    (revised : HeatRevised 0 h h') (now : ∀ g, heatOf t g = heatOf (setHeat f h' s) g) (log : t.heat.log = s.heat.log) :
    HeatsRevised s t := by
  refine ⟨log, fun g => ?_⟩
  rcases furnace_cases f g with rfl | rfl
  · exact .inr ⟨h, h', heat, (now _).trans (heatOf_setHeat_same _ h' s), revised⟩
  · rw [now, heatOf_setHeat_other _ _ (otherFurnace_ne f)]
    cases heatOf s (otherFurnace f) with
    | none => exact .inl ⟨rfl, rfl⟩
    | some x => exact .inr ⟨x, x, rfl, rfl, HeatRevised.refl _ _⟩

theorem editHeat_heatsRevised {f : Furnace} {g : Heat → Heat} {s : State} (revised : ∀ h, HeatRevised 0 h (g h)) :
    HeatsRevised s (editHeat f g s) := by
  cases e : heatOf s f with
  | none => exact .of_heat (by rw [editHeat_none g e])
  | some h =>
    rw [editHeat_some g e]
    exact .set e (revised h) (fun _ => rfl) rfl

theorem catchUpHeat_revised (s : State) (f : Furnace) (gap cap : Nat) (h : Heat) :
    HeatRevised cap h (catchUpHeat s f gap h) := by
  unfold catchUpHeat
  split
  · exact HeatRevised.of_fields rfl Iff.rfl rfl rfl rfl rfl rfl
  · split
    · exact (advanceEstimate_revised s _ cap h).trans (evalFreeze_revised s cap _)
    · exact HeatRevised.refl _ _

theorem stampFurnace_heatOf (f g : Furnace) (s : State) : heatOf (stampFurnace f s) g = heatOf s g := by
  refine heatOf_congr ?_
  unfold stampFurnace
  cases f <;> cases g <;> rfl

theorem catchUp_heatsRevised (f : Furnace) (s : State) : HeatsRevised s (catchUp f s) := by
  unfold catchUp
  split
  · exact .of_heat rfl
  · next h heat =>
    refine .set (f := f) heat (((catchUpHeat_revised s f _ 0 h).trans (liquidEval_revised s 0 _)).trans
      (restamp_revised (now s) 0 h _)) (fun g => stampFurnace_heatOf f g _) rfl

theorem fillWorking_heat (good : Bool) (s : State) : (fillWorking good s).heat = s.heat := by
  unfold fillWorking
  dsimp only
  split <;> rw [post_heat, setWorking_heat]

theorem completeReasons_heat (good : Bool) (s : State) : (completeReasons good (memoryIdle s)).heat = s.heat := rfl

theorem loadBegun_heatsRevised (good : Bool) (s : State) : HeatsRevised s (loadBegun good s) := by
  have filled : HeatsRevised s (fillWorking good s) := .of_heat (fillWorking_heat good s)
  have fitted : HeatsRevised (fillWorking good s) (editHeat .b (fitHeat (fillWorking good s))
      (editHeat .a (fitHeat (fillWorking good s)) (fillWorking good s))) :=
    (editHeat_heatsRevised fun h => fitHeat_revised _ 0 h).trans (editHeat_heatsRevised fun h => fitHeat_revised _ 0 h)
  exact (((filled.trans fitted).trans (.of_heat (completeReasons_heat good _))).trans (catchUp_heatsRevised .a _)).trans
    (catchUp_heatsRevised .b _)

/-! ### The heats over a reset -/

/-- The heats of a warm restart or a loss of supply: an open tap may have become an interrupted tap record (R24, R37). -/
theorem warm_heatOf (l : ResetLines) (s : State) (f : Furnace) :
    heatOf (volatileReset l warmSlot s) f = (heatOf s f).map warmHeat := by
  unfold heatOf slotOf
  rw [volatileReset_slot]
  unfold warmSlot
  cases e : (s.heat.slots.get f).slot <;> simp [e, clearVolatileSlot]

theorem loss_heatOf (s : State) (f : Furnace) : heatOf (loseSupply s) f = heatOf s f :=
  heatOf_congr (by show ((volatileReset (linesNow s) clearVolatileSlot s).heat.slots.get f).slot = _
                   rw [volatileReset_slot]
                   rfl)

theorem warmHeat_number (h : Heat) : (warmHeat h).number = h.number := by
  unfold warmHeat
  split <;> rfl

theorem warmHeat_charges (h : Heat) : (warmHeat h).charges = h.charges := by
  unfold warmHeat
  split <;> rfl

theorem warmHeat_bath (h : Heat) : (warmHeat h).bathMass = h.bathMass := by
  unfold warmHeat
  split <;> rfl

theorem cold_heatOf (l : ResetLines) (queue : List Instr) (block : StoredBlock) (f : Furnace) :
    heatOf (State.cold l queue block) f = none := by cases f <;> rfl

/-! ### The table law -/

theorem HeatsRevised.tableLaw {s t : State} (r : HeatsRevised s t) (h : TableLaw s) : TableLaw t := by
  obtain ⟨few, distinct, each⟩ := h
  obtain ⟨log, heats⟩ := r
  have number : ∀ f, (heatOf t f).map Heat.number = (heatOf s f).map Heat.number := fun f => by
    rcases heats f with ⟨none, none'⟩ | ⟨x, y, was, is, revised⟩
    · rw [none, none']
    · rw [was, is]
      exact congrArg some revised.number
  refine ⟨log ▸ few, ?_, fun f h' now => ?_⟩
  · unfold numbersInUse at *
    rw [log, number, number]
    exact distinct
  · have now : heatOf t f = some h' := now
    rcases heats f with ⟨-, none⟩ | ⟨x, y, was, is, revised⟩
    · rw [none] at now; cases now
    · obtain rfl : y = h' := Option.some.inj (is.symm.trans now)
      exact revised.charges (each f x was)

theorem StepKind.tableLaw {i : Option Instr} {s t : State} (k : StepKind s i t) (h : TableLaw s) : TableLaw t := by
  cases k with
  | cold l =>
    refine ⟨Nat.zero_le _, ?_, fun f x now => ?_⟩
    · unfold numbersInUse
      rw [cold_heatOf, cold_heatOf]
      exact List.nodup_nil
    · rw [cold_heatOf] at now
      cases now
  | warm l =>
    refine h.of_heats rfl (fun f => ?_) fun f => ?_
    · rw [warm_heatOf, Option.map_map]
      exact Option.map_congr fun x _ => warmHeat_number x
    · rw [warm_heatOf, Option.map_map]
      exact Option.map_congr fun x _ => warmHeat_charges x
  | loss => exact h.of_heats rfl (fun f => by rw [loss_heatOf]) fun f => by rw [loss_heatOf]
  | load on waiting ack first derived rest =>
    exact rest.keep (fun _ _ m => m.tableLaw) (first.keep (fun _ _ m => m.tableLaw) ((loadBegun_heatsRevised _ s).tableLaw h))
  | period | onPhase =>
    refine h.congr ?_
    unfold putPulse
    rw [(putAllotment_frame _ s).1]
  | ms =>
    refine h.congr ?_
    rw [tickClock_shape]
    rfl
  | dark =>
    refine h.congr ?_
    rw [tickClock_shape]
  | buffered | same => exact h
  | moves on reset allowed moves => exact moves.keep (fun _ _ m => m.tableLaw) h

/-- Settles O56. -/
theorem stepKeepsTableLaw : Obligations.StepKeepsTableLaw :=
  step_keeps (P := TableLaw) (fun _ _ h => h.congr rfl) fun _ _ _ k h => k.tableLaw h

/-! ### The settings law -/

/-- The bath of a furnace and the settings as the settings law reads them. -/
theorem SettingsLaw.congr {s t : State} (h : SettingsLaw s) (sett : t.sett = s.sett)
    (bath : ∀ f, bathMassOf t f ≤ max (bathMassOf s f) (capacity s f)) : SettingsLaw t := by
  obtain ⟨range, channel, baths⟩ := h
  refine ⟨sett ▸ range, sett ▸ channel, fun f => ?_⟩
  have load : loading t = loading s := by unfold loading; rw [sett]
  have room : capacity t f = capacity s f := by unfold capacity setting; rw [sett]
  have most : capacity s f ≤ 20000 := by
    have top := (range.2 (forFurnace 11 f) (by cases f <;> decide) (by cases f <;> decide)).2.1
    cases f <;> exact top
  rw [load, room]
  refine Nat.le_trans (bath f) ((Nat.max_le).mpr ⟨baths f, ?_⟩)
  split
  · exact most
  · exact Nat.le_refl _

theorem bathMassOf_of_heatOf {s t : State} {f : Furnace} (heat : heatOf t f = heatOf s f) : bathMassOf t f = bathMassOf s f := by
  unfold bathMassOf
  rw [heat]

theorem HeatEffect.bathMass {f : Furnace} {s t : State} (e : HeatEffect f s t) (g : Furnace) :
    bathMassOf t g ≤ max (bathMassOf s g) (capacity s g) := by
  rcases furnace_cases f g with rfl | rfl
  · exact e.bath
  · rw [bathMassOf_of_heatOf e.other]
    exact Nat.le_max_left _ _

theorem SettingsLaw.of_heats {s t : State} (h : SettingsLaw s) (sett : t.sett = s.sett) (heat : t.heat = s.heat) :
    SettingsLaw t :=
  h.congr sett fun f => by
    rw [bathMassOf_of_heatOf (heatOf_of_heat heat f)]
    exact Nat.le_max_left _ _

theorem TableMove.settingsLaw {s t : State} (m : TableMove s t) (h : SettingsLaw s) : SettingsLaw t := by
  obtain ⟨f, e⟩ := m.effect
  exact h.congr (by rw [m.only.frame]) e.bathMass

theorem tripCircuit_sett (c : Circuit) (cause : TripCause) (s : State) : (tripCircuit c cause s).sett = s.sett := by
  rw [tripCircuit_shape]

theorem tripForLoop_sett (c : Circuit) (s : State) : (tripForLoop c s).sett = s.sett := by
  unfold tripForLoop
  split
  · rfl
  · exact tripCircuit_sett _ _ _

/-- A write, once the settings are loaded. -/
theorem setWorking_settingsLaw {s : State} {n value : Nat} (h : SettingsLaw s) (low : 1 ≤ n) (high : n ≤ 65)
    (loaded : loading s = false) :
    SettingsLaw (setWorking (writeWorking s.sett.working (bathMasses s) n value) s) := by
  obtain ⟨range, channel, baths⟩ := h
  simp only [loaded, Bool.false_eq_true, if_false] at baths
  have fits : ∀ f, bathMassOf s f ≤ 20000 := fun f => by
    have top := (range.2 (forFurnace 11 f) (by cases f <;> decide) (by cases f <;> decide)).2.1
    exact Nat.le_trans (baths f) (by cases f <;> exact top)
  have get : ∀ f, (bathMasses s).get f = bathMassOf s f := fun f => by cases f <;> rfl
  refine ⟨writeWorking_inRange range (fits .a) (fits .b) low high, channel, fun f => ?_⟩
  have still : loading (setWorking (writeWorking s.sett.working (bathMasses s) n value) s) = false := loaded
  rw [still, if_neg (by decide)]
  have kept := writeWorking_capacity (w := s.sett.working) (bath := bathMasses s) (value := value) f range.1
    (get f ▸ fits f) low high (get f ▸ baths f)
  rw [get] at kept
  exact kept

theorem Move.settingsLaw {reset : Option Circuit} {s t : State} (m : Move reset s t) (h : SettingsLaw s) : SettingsLaw t := by
  cases m with
  | table m => exact m.settingsLaw h
  | settings working memory channel =>
    rename_i x
    obtain ⟨range, owner, baths⟩ := h
    refine ⟨working ▸ range, channel owner, fun f => ?_⟩
    have room : capacity s f = capacity { s with sett := x } f := by
      unfold capacity setting
      rw [← working]
    rw [show loading { s with sett := x } = loading s from memory, ← room]
    exact baths f
  | working low high named loaded => exact setWorking_settingsLaw h low high loaded
  | trips =>
    rw [assertBreaker_shape]
    exact h.of_heats rfl rfl
  | allots =>
    rw [allocate_shape]
    exact h.of_heats rfl rfl
  | loopFail cause =>
    have loopFailed : SettingsLaw (setLoop .loopFail cause s.prot.loop.standbyLatch s) := h.of_heats rfl rfl
    have trip : ∀ c {x : State}, SettingsLaw x → SettingsLaw (tripForLoop c x) := fun c x law =>
      law.of_heats (tripForLoop_sett c x) (tripForLoop_heat c x).1
    unfold enterLoopFail
    rw [assertBreaker_shape]
    exact (trip .cabinet (trip .coilB (trip .coilA loopFailed))).of_heats rfl rfl
  | posts | postsTo | port | leakCarried | clock | scan | pumps | decks | stuck | breakerOpens
  | breakerCloses | breakerBack | resume | mode | kicks | tripTaken | stage | meltRequest | shed | circuit | reset
  | pressure | loop => exact h.of_heats rfl rfl

/-- A reset starts a load: the working copy at the defaults, the channel free, and no bath changed (R24, R37, R157). -/
theorem SettingsLaw.of_reset {s t : State} {block : StoredBlock} (h : SettingsLaw s) (sett : t.sett = SettingsManager.reset block)
    (baths : ∀ f, bathMassOf t f ≤ bathMassOf s f) : SettingsLaw t := by
  obtain ⟨range, -, was⟩ := h
  have load : loading t = true := by unfold loading; rw [sett]; rfl
  refine ⟨by rw [sett]; exact defaults_inRange, by rw [sett]; exact ⟨fun _ => rfl, fun _ => rfl⟩, fun f => ?_⟩
  rw [load, if_pos rfl]
  have most : capacity s f ≤ 20000 := by
    have top := (range.2 (forFurnace 11 f) (by cases f <;> decide) (by cases f <;> decide)).2.1
    cases f <;> exact top
  have bath := was f
  have now := baths f
  split at bath <;> omega

theorem HeatsRevised.bathMass {s t : State} (r : HeatsRevised s t) (f : Furnace) : bathMassOf t f ≤ bathMassOf s f := by
  unfold bathMassOf
  rcases r.2 f with ⟨none, none'⟩ | ⟨x, y, was, is, revised⟩
  · exact Nat.le_of_eq (by rw [none, none'])
  · rw [was, is]
    exact Nat.le_trans revised.bath (Nat.max_le.mpr ⟨Nat.le_refl _, Nat.zero_le _⟩)

/-- The working copy that the load leaves, and the rest of the settings as they were but for the end of the load. -/
theorem loadBegun_sett (good : Bool) (s : State) :
    (loadBegun good s).sett
      = { s.sett with
          memory := .idle
          working := raiseCapacities (bathMasses s)
            (if good then loadValues s.sett.block.values (bathMasses s) else Config.settingDefaults) } := by
  have caught : ∀ f x, (catchUp f x).sett = x.sett := fun f x => by
    unfold catchUp
    split <;> rfl
  have edited : ∀ f g x, (editHeat f g x).sett = x.sett := fun f g x => by
    unfold editHeat
    split <;> rfl
  have completed : ∀ x, (completeReasons good (memoryIdle x)).sett = { x.sett with memory := .idle } := fun x => rfl
  unfold loadBegun
  dsimp only
  rw [caught, caught, completed, edited, edited]
  unfold fillWorking
  dsimp only
  split <;> rw [post_sett, setWorking_sett]

theorem loadBegun_settingsLaw {good : Bool} {s : State} (h : SettingsLaw s) (waiting : loading s = true) :
    SettingsLaw (loadBegun good s) := by
  obtain ⟨-, channel, baths⟩ := h
  simp only [waiting, if_true] at baths
  have inRange : WorkingInRange (if good then loadValues s.sett.block.values (bathMasses s) else Config.settingDefaults) := by
    split
    · exact loadValues_inRange (baths .a) (baths .b)
    · exact defaults_inRange
  refine ⟨by rw [loadBegun_sett]; exact raiseCapacities_inRange (baths .a) (baths .b) inRange,
    by rw [loadBegun_sett]; exact channel, fun f => ?_⟩
  rw [loadBegun_loading, if_neg (by decide)]
  refine Nat.le_trans ((loadBegun_heatsRevised good s).bathMass f) ?_
  unfold capacity setting
  rw [loadBegun_sett]
  have raised := raiseCapacities_capacity inRange.1 (bathMasses s) f
  have get : (bathMasses s).get f = bathMassOf s f := by cases f <;> rfl
  rw [get] at raised
  exact raised

theorem StepKind.settingsLaw {i : Option Instr} {s t : State} (k : StepKind s i t) (h : SettingsLaw s) : SettingsLaw t := by
  cases k with
  | cold l =>
    refine h.of_reset rfl fun f => ?_
    unfold bathMassOf
    rw [cold_heatOf]
    exact Nat.zero_le _
  | warm l =>
    refine h.of_reset rfl fun f => ?_
    unfold bathMassOf
    rw [warm_heatOf]
    cases heatOf s f with
    | none => exact Nat.le_refl _
    | some x => exact Nat.le_of_eq (warmHeat_bath x)
  | loss => exact h.of_reset rfl fun f => Nat.le_of_eq (bathMassOf_of_heatOf (loss_heatOf s f))
  | load on waiting ack first derived rest =>
    exact rest.keep (fun _ _ m => m.settingsLaw)
      (first.keep (fun _ _ m => m.settingsLaw) (loadBegun_settingsLaw h waiting))
  | period | onPhase =>
    unfold putPulse
    rw [(putAllotment_frame _ s).1]
    exact h.of_heats rfl rfl
  | ms =>
    rw [tickClock_shape]
    obtain ⟨range, channel, baths⟩ := h
    refine ⟨range, ?_, baths⟩
    show s.sett.owner = none ↔ tickOpt s.sett.idle = none
    rw [channel, ← Option.not_isSome_iff_eq_none, ← Option.not_isSome_iff_eq_none, tickOpt_isSome]
  | dark =>
    rw [tickClock_shape]
    exact h.of_heats rfl rfl
  | buffered | same => exact h
  | moves on reset allowed moves => exact moves.keep (fun _ _ m => m.settingsLaw) h

/-- Settles O60. -/
theorem settingsStayInRange : Obligations.SettingsStayInRange :=
  ⟨step_keeps (P := SettingsLaw) (fun _ _ h => h.of_heats rfl rfl) fun _ _ _ k h => k.settingsLaw h,
    fun _ _ _ _ _ a b =>
      ⟨fun all low high _ => writeWorking_inRange all a b low high, raiseCapacities_inRange a b (loadValues_inRange a b),
        defaults_inRange⟩⟩

end Sys2Proof.Machine
end


section
/-! The tap queue and the permit over the moves of the table: the tap law (R120 to R136). -/

namespace Sys2Proof.Machine

/-! ### Queues -/

/-- The queue law of a queue (R120). -/
def QueueFits (q : List Entry) (nextId : Nat) (last : Option Nat) : Prop :=
  q.length ≤ Config.queueMax
    ∧ (q.map Entry.ladle).Nodup ∧ (q.map Entry.id).Nodup
    ∧ (∀ n ∈ last, n ∉ q.map Entry.id)
    ∧ (∀ n ∈ q.map Entry.id, 1 ≤ n ∧ n ≤ 255) ∧ 1 ≤ nextId ∧ nextId ≤ 255
    ∧ (q.filter (fun e => e.assigned.isSome)).length ≤ 1

theorem queueLaw_iff (s : State) : QueueLaw s ↔ QueueFits s.tap.queue s.tap.nextId s.tap.lastEnded := Iff.rfl

/-- A queue with some of its entries. -/
theorem QueueFits.sublist {q q' : List Entry} {n : Nat} {last : Option Nat} (h : QueueFits q n last) (sub : q'.Sublist q) :
    QueueFits q' n last := by
  obtain ⟨size, ladles, ids, ended, bounds, low, high, one⟩ := h
  exact ⟨Nat.le_trans sub.length_le size, ladles.sublist (sub.map _), ids.sublist (sub.map _),
    fun m mem inside => ended m mem ((sub.map _).subset inside), fun m mem => bounds m ((sub.map _).subset mem), low, high,
    Nat.le_trans (sub.filter _).length_le one⟩

/-- The entry of an id with another assignment, the others as they are. -/
def assignTo (id : Nat) (who : Option Furnace) (q : List Entry) : List Entry :=
  q.map (fun e => if e.id = id then { e with assigned := who } else e)

theorem assignTo_map {α : Type} (g : Entry → α) (same : ∀ (e : Entry) who, g { e with assigned := who } = g e) (id : Nat)
    (who : Option Furnace) (q : List Entry) : (assignTo id who q).map g = q.map g := by
  unfold assignTo
  rw [List.map_map]
  refine List.map_congr_left fun e _ => ?_
  show g (if e.id = id then _ else e) = g e
  split
  · exact same e who
  · rfl

/-- An entry of the queue with another assignment somewhere is one of the old queue, or the one whose assignment it is. -/
theorem mem_assignTo {id : Nat} {who : Option Furnace} {q : List Entry} {e : Entry} (h : e ∈ assignTo id who q) :
    (e ∈ q ∧ e.id ≠ id) ∨ e.id = id ∧ e.assigned = who := by
  obtain ⟨x, mem, rfl⟩ := List.mem_map.mp h
  split
  · next own => exact .inr ⟨own, rfl⟩
  · next other => exact .inl ⟨mem, other⟩

theorem QueueFits.reassigned {q : List Entry} {n id : Nat} {who : Option Furnace} {last : Option Nat} (h : QueueFits q n last)
    (one : ((assignTo id who q).filter (fun e => e.assigned.isSome)).length ≤ 1) :
    QueueFits (assignTo id who q) n last := by
  obtain ⟨size, ladles, ids, ended, bounds, low, high, -⟩ := h
  have sameIds : (assignTo id who q).map Entry.id = q.map Entry.id := assignTo_map Entry.id (fun _ _ => rfl) id who q
  refine ⟨by unfold assignTo; rw [List.length_map]; exact size, ?_, ?_, ?_, ?_, low, high, one⟩
  · rw [assignTo_map Entry.ladle (fun _ _ => rfl)]
    exact ladles
  all_goals rw [sameIds]; assumption

/-- Two assigned entries are one. -/
theorem QueueFits.assigned_unique {q : List Entry} {n : Nat} {last : Option Nat} (h : QueueFits q n last) {e e' : Entry}
    (mem : e ∈ q) (mem' : e' ∈ q) (assigned : e.assigned.isSome = true) (assigned' : e'.assigned.isSome = true) : e = e' := by
  obtain ⟨-, -, -, -, -, -, -, one⟩ := h
  have a : e ∈ q.filter (fun e => e.assigned.isSome) := List.mem_filter.mpr ⟨mem, assigned⟩
  have b : e' ∈ q.filter (fun e => e.assigned.isSome) := List.mem_filter.mpr ⟨mem', assigned'⟩
  rcases filtered : q.filter (fun e => e.assigned.isSome) with _ | ⟨x, _ | ⟨y, rest⟩⟩
  · rw [filtered] at a; cases a
  · rw [filtered] at a b
    rw [List.mem_singleton.mp a, List.mem_singleton.mp b]
  · rw [filtered] at one
    simp at one

/-- What becomes of the queue when the work on an entry ends: the entry goes or waits again (R127, R131, R136). -/
structure EntryEnds (id : Nat) (q q' : List Entry) : Prop where
  law : ∀ {n last}, QueueFits q n last → QueueFits q' n last
  assigned : ∀ e ∈ q', e.assigned.isSome = true → e ∈ q ∧ e.id ≠ id

theorem filter_ends (id : Nat) (q : List Entry) : EntryEnds id q (q.filter (fun e => e.id != id)) :=
  ⟨fun h => h.sublist List.filter_sublist, fun e mem _ => by
    obtain ⟨inside, apart⟩ := List.mem_filter.mp mem
    exact ⟨inside, by simpa using apart⟩⟩

/-- An assignment taken back leaves no more assigned entries. -/
theorem waiting_filter_sublist (id : Nat) (q : List Entry) :
    ((assignTo id none q).filter (fun e => e.assigned.isSome)).Sublist (q.filter (fun e => e.assigned.isSome)) := by
  induction q with
  | nil => exact .refl _
  | cons e q ih =>
    unfold assignTo at ih ⊢
    rw [List.map_cons]
    by_cases own : e.id = id
    · rw [if_pos own, List.filter_cons_of_neg (by simp)]
      exact ih.trans ((List.sublist_cons_self _ _).filter _)
    · rw [if_neg own]
      by_cases assigned : e.assigned.isSome = true
      · simp only [List.filter_cons, assigned, if_true]
        exact ih.cons_cons _
      · simp only [List.filter_cons, assigned]
        exact ih

theorem waiting_ends (id : Nat) (q : List Entry) : EntryEnds id q (assignTo id none q) :=
  ⟨fun h => h.reassigned (Nat.le_trans (waiting_filter_sublist id q).length_le h.2.2.2.2.2.2.2), fun e mem assigned => by
    rcases mem_assignTo mem with old | ⟨-, waits⟩
    · exact old
    · rw [waits] at assigned; cases assigned⟩

/-! ### The tap after an operation -/

/-- The records of the tap that the tap law reads. -/
structure TapSame (x y : Tap) : Prop where
  queue : y.queue = x.queue
  permit : y.permit = x.permit
  nextId : y.nextId = x.nextId
  lastEnded : y.lastEnded = x.lastEnded

/-- The permit and the numbers of the tap stand, and the work on an entry ends. -/
structure TapEnds (id : Nat) (x y : Tap) : Prop where
  queue : EntryEnds id x.queue y.queue
  permit : y.permit = x.permit
  nextId : y.nextId = x.nextId
  lastEnded : y.lastEnded = x.lastEnded

theorem returnEntry_ends (id : Nat) (s : State) : TapEnds id s.tap (returnEntry id s).tap := by
  unfold returnEntry
  split
  · next e found =>
    split
    · have own : e.id = id := entryOf_id found
      subst own
      exact ⟨filter_ends e.id _, rfl, rfl, rfl⟩
    · exact ⟨waiting_ends id _, rfl, rfl, rfl⟩
  · next missing =>
    refine ⟨⟨fun h => h, fun e mem _ => ⟨mem, fun own => ?_⟩⟩, rfl, rfl, rfl⟩
    have := List.find?_eq_none.mp missing e mem
    simp [own] at this

/-! ### The tap law, furnace by furnace -/

/-- The work of the queue does not rest on the heat of a furnace. -/
def Unassigned (f : Furnace) (s : State) : Prop :=
  pendingFor s f = false ∧ (s.tap.permit = none → assignedTo s f = none)

/-- The tap law, with the TAP_READY heat that the work of the queue rests on asked of some furnaces only. -/
structure TapHolds (asked : Furnace → Prop) (s : State) : Prop where
  queue : QueueLaw s
  entry : ∀ p ∈ s.tap.permit, ∃ e ∈ s.tap.queue, e.id = p.requestId ∧ e.assigned = some p.furnace
  weight : ∀ p ∈ s.tap.permit, p.state = .pending → p.weight = none
  tapping : s.powered = true → ∀ f, isTapping s f = true ↔ grantedFor s f = true
  pending : ∀ f, asked f → pendingFor s f = true → isTapReady s f = true
  assigned : ∀ f, asked f → s.tap.permit = none → (assignedTo s f).isSome = true → isTapReady s f = true
  loads : loading s = true → s.tap.queue = [] ∧ s.tap.permit = none

theorem tapLaw_iff {s : State} : TapLaw s ↔ TapHolds (fun _ => True) s := by
  constructor
  · rintro ⟨queue, entry, weight, a, b, loads⟩
    have each : ∀ f, PermitLawOf s f := fun f => by cases f <;> assumption
    exact ⟨queue, entry, weight, fun on f => (each f).1 on, fun f _ => (each f).2.1, fun f _ => (each f).2.2, loads⟩
  · intro h
    have each : ∀ f, PermitLawOf s f := fun f =>
      ⟨fun on => h.tapping on f, h.pending f trivial, h.assigned f trivial⟩
    exact ⟨h.queue, h.entry, h.weight, each .a, each .b, h.loads⟩

theorem pendingFor_iff {s : State} {f : Furnace} :
    pendingFor s f = true ↔ ∃ p, s.tap.permit = some p ∧ p.state = .pending ∧ p.furnace = f := by
  unfold pendingFor
  cases s.tap.permit with
  | none => simp
  | some p => simp

theorem grantedFor_iff {s : State} {f : Furnace} :
    grantedFor s f = true ↔ ∃ p, s.tap.permit = some p ∧ p.state = .granted ∧ p.furnace = f := by
  unfold grantedFor
  cases s.tap.permit with
  | none => simp
  | some p => simp

theorem assignedTo_isSome {s : State} {f : Furnace} :
    (assignedTo s f).isSome = true ↔ ∃ e ∈ s.tap.queue, e.assigned = some f := by
  unfold assignedTo
  rw [List.find?_isSome]
  simp

/-- The tap law over a change that leaves the tap and keeps the heats that its work rests on. -/
theorem TapHolds.congr {asked asked' : Furnace → Prop} {s t : State} (h : TapHolds asked s) (tap : TapSame s.tap t.tap)
    (powered : t.powered = s.powered) (load : loading t = loading s) (tapping : ∀ f, isTapping t f = isTapping s f)
    (ready : ∀ f, asked' f → (asked f ∧ (isTapReady s f = true → isTapReady t f = true)) ∨ Unassigned f s) :
    TapHolds asked' t := by
  obtain ⟨queue, permit, nextId, lastEnded⟩ := tap
  have pends : ∀ f, pendingFor t f = pendingFor s f := fun f => by unfold pendingFor; rw [permit]
  have grants : ∀ f, grantedFor t f = grantedFor s f := fun f => by unfold grantedFor; rw [permit]
  have assigns : ∀ f, assignedTo t f = assignedTo s f := fun f => by unfold assignedTo; rw [queue]
  refine ⟨?_, by rw [permit, queue]; exact h.entry, by rw [permit]; exact h.weight, fun on f => ?_, fun f need held => ?_,
    fun f need free held => ?_, fun l => ?_⟩
  · rw [queueLaw_iff, queue, nextId, lastEnded]
    exact h.queue
  · rw [tapping, grants]
    exact h.tapping (powered ▸ on) f
  · rw [pends] at held
    rcases ready f need with ⟨asks, stays⟩ | un
    · exact stays (h.pending f asks held)
    · rw [un.1] at held; cases held
  · rw [assigns] at held
    rcases ready f need with ⟨asks, stays⟩ | un
    · exact stays (h.assigned f asks (permit ▸ free) held)
    · rw [un.2 (permit ▸ free)] at held; cases held
  · rw [queue, permit]
    exact h.loads (load ▸ l)

/-- Without a permit and without an assigned entry no work rests on a heat. -/
theorem unassigned_of_none {s : State} (permit : s.tap.permit = none)
    (none : ∀ e ∈ s.tap.queue, e.assigned.isSome = false) (f : Furnace) : Unassigned f s := by
  refine ⟨by unfold pendingFor; rw [permit], fun _ => ?_⟩
  refine Option.not_isSome_iff_eq_none.mp fun some' => ?_
  obtain ⟨e, mem, assigned⟩ := assignedTo_isSome.mp some'
  have := none e mem
  rw [assigned] at this
  cases this

/-- Once the permit and its entry's assignment are gone, no work rests on a heat. -/
theorem TapHolds.ended {asked : Furnace → Prop} {s t : State} (h : TapHolds asked s) {id : Nat}
    (owner : ∃ e ∈ s.tap.queue, e.id = id ∧ e.assigned.isSome = true) (queue : EntryEnds id s.tap.queue t.tap.queue)
    (permit : t.tap.permit = none) (nextId : t.tap.nextId = s.tap.nextId)
    (last : t.tap.lastEnded = s.tap.lastEnded
      ∨ t.tap.lastEnded = some id ∧ id ∉ t.tap.queue.map Entry.id)
    (tapping : t.powered = true → ∀ f, isTapping t f = false) (load : loading t = loading s) :
    TapLaw t ∧ ∀ f, Unassigned f t := by
  obtain ⟨e, mem, own, holds⟩ := owner
  have none : ∀ x ∈ t.tap.queue, x.assigned.isSome = false := fun x xmem => by
    cases assigned : x.assigned.isSome with
    | false => rfl
    | true =>
      obtain ⟨old, apart⟩ := queue.assigned x xmem assigned
      have same := QueueFits.assigned_unique h.queue old mem assigned holds
      exact absurd (same ▸ own) apart
  have un := unassigned_of_none permit none
  refine ⟨tapLaw_iff.mpr ⟨?_, ?_, ?_, fun on f => ?_, fun f _ held => ?_, fun f _ free held => ?_, fun l => ?_⟩, un⟩
  · rw [queueLaw_iff, nextId]
    obtain ⟨size, ladles, ids, ended, rest⟩ := queue.law h.queue
    rcases last with same | ⟨is, fresh⟩
    · rw [same]
      exact ⟨size, ladles, ids, ended, rest⟩
    · rw [is]
      refine ⟨size, ladles, ids, fun n mem => ?_, rest⟩
      obtain rfl : id = n := Option.some.inj mem
      exact fresh
  · rw [permit]; rintro _ ⟨⟩
  · rw [permit]; rintro _ ⟨⟩
  · rw [tapping on f]
    unfold grantedFor
    rw [permit]
  · rw [(un f).1] at held; cases held
  · rw [(un f).2 free] at held; cases held
  · have empty := (h.loads (load ▸ l)).1
    rw [empty] at mem
    cases mem

theorem isTapping_of_heat {s t : State} {f : Furnace} (heat : heatOf t f = heatOf s f) : isTapping t f = isTapping s f := by
  unfold isTapping
  rw [heat]

/-- With a pending permit no heat is TAPPING. -/
theorem TapHolds.not_tapping {asked : Furnace → Prop} {s : State} (h : TapHolds asked s) (on : s.powered = true)
    (none : ∀ p ∈ s.tap.permit, p.state = .pending) (f : Furnace) : isTapping s f = false := by
  refine Bool.eq_false_iff.mpr fun tapping => ?_
  obtain ⟨p, held, granted, -⟩ := grantedFor_iff.mp ((h.tapping on f).mp tapping)
  rw [none p held] at granted
  cases granted

/-- A permit dropped, and the work on its entry ended. -/
theorem dropPermit_ends (id : Nat) (f : Furnace) (r : Option Reason) (remove : Bool) (s : State) :
    let t := if remove then removeEntry id (askMatching (setKept f r (setPermit none s)))
      else returnEntry id (askMatching (setKept f r (setPermit none s)))
    EntryEnds id s.tap.queue t.tap.queue ∧ t.tap.permit = none ∧ t.tap.nextId = s.tap.nextId
      ∧ t.tap.lastEnded = s.tap.lastEnded := by
  dsimp only
  split
  · exact ⟨filter_ends id _, rfl, rfl, rfl⟩
  · obtain ⟨queue, permit, nextId, lastEnded⟩ := returnEntry_ends id (askMatching (setKept f r (setPermit none s)))
    exact ⟨queue, permit, nextId, lastEnded⟩

theorem refusePermit_tap (p : Permit) (r : Reason) (remove : Bool) (s : State) :
    EntryEnds p.requestId s.tap.queue (refusePermit p r remove s).tap.queue ∧ (refusePermit p r remove s).tap.permit = none
      ∧ (refusePermit p r remove s).tap.nextId = s.tap.nextId
      ∧ (refusePermit p r remove s).tap.lastEnded = s.tap.lastEnded :=
  dropPermit_ends p.requestId p.furnace (some r) remove
    (post (.permitResolved (some r) p.furnace (heatNumber s p.furnace) p.requestId (ladleOf s p.requestId)) s)

/-- A pending permit refused leaves no work on a heat. -/
theorem TapHolds.refused {asked : Furnace → Prop} {s : State} (h : TapHolds asked s) (on : s.powered = true) {p : Permit}
    (r : Reason) (remove : Bool) (held : s.tap.permit = some p) (pending : p.state = .pending) :
    TapLaw (refusePermit p r remove s) ∧ ∀ f, Unassigned f (refusePermit p r remove s) := by
  obtain ⟨queue, permit, nextId, lastEnded⟩ := refusePermit_tap p r remove s
  obtain ⟨e, mem, own, assigned⟩ := h.entry p held
  have stands := (refusePermit_tableOnly p r remove s).stands
  refine h.ended ⟨e, mem, own, by rw [assigned]; rfl⟩ queue permit nextId (.inl lastEnded) (fun _ f => ?_) stands.loading
  rw [isTapping_of_heat (heatOf_of_heat (refusePermit_heat p r remove s) f)]
  refine h.not_tapping on (fun p' held' => ?_) f
  obtain rfl : p = p' := Option.some.inj (held.symm.trans held')
  exact pending

/-- The end of the queue's work on a heat restores the tap law for its furnace, and leaves no work on it. -/
theorem TapHolds.endAssignment {f : Furnace} {s : State} (h : TapHolds (· ≠ f) s) (on : s.powered = true) (r : Reason) :
    TapLaw (endAssignment f r s) ∧ Unassigned f (endAssignment f r s) := by
  have whole : Unassigned f s → TapLaw s ∧ Unassigned f s := fun un =>
    ⟨tapLaw_iff.mpr (h.congr ⟨rfl, rfl, rfl, rfl⟩ rfl rfl (fun _ => rfl) fun g _ => by
      by_cases e : g = f
      · exact .inr (e ▸ un)
      · exact .inl ⟨e, id⟩), un⟩
  unfold Machine.endAssignment
  split
  · next p found =>
    have found : pendingPermit s f = some p := found
    unfold pendingPermit at found
    split at found
    · next p' held =>
      split at found
      · next ours =>
        cases found
        obtain ⟨law, un⟩ := h.refused on r false held ours.1
        exact ⟨law, un f⟩
      · cases found
    · cases found
  · next none =>
    have notPending : pendingFor s f = false := by
      refine Bool.eq_false_iff.mpr fun pends => ?_
      obtain ⟨p, held, pending, ours⟩ := pendingFor_iff.mp pends
      unfold pendingPermit at none
      rw [held] at none
      simp [pending, ours] at none
    split
    · next p held => exact whole ⟨notPending, fun free => by rw [held] at free; cases free⟩
    · next free =>
      split
      · next e found =>
        have mem : e ∈ s.tap.queue := List.mem_of_find?_eq_some found
        have assigned : e.assigned = some f := by simpa using List.find?_some found
        have notTapping : ∀ g, isTapping s g = false :=
          h.not_tapping on (by rw [free]; rintro _ ⟨⟩)
        obtain ⟨law, un⟩ := h.ended (t := makeWaiting e.id s) ⟨e, mem, rfl, by rw [assigned]; rfl⟩
          (waiting_ends e.id s.tap.queue) free rfl (.inl rfl) (fun _ g => notTapping g) rfl
        exact ⟨law, un f⟩
      · next empty => exact whole ⟨notPending, fun _ => empty⟩

end Sys2Proof.Machine
end


section
/-! The step law of the tap queue and the permit (R120 to R136). -/

namespace Sys2Proof.Machine

/-! ### A heat put in place of another -/

theorem isTapping_setHeat (f : Furnace) (h : Heat) (s : State) : isTapping (setHeat f h s) f = (h.state == .tapping) := by
  unfold isTapping
  rw [heatOf_setHeat_same]

theorem isTapping_of_heatOf {s : State} {f : Furnace} {h : Heat} (heat : heatOf s f = some h) :
    isTapping s f = (h.state == .tapping) := by
  unfold isTapping
  rw [heat]

theorem isTapping_none {s : State} {f : Furnace} (none : heatOf s f = none) : isTapping s f = false := by
  unfold isTapping
  rw [none]

theorem isTapReady_none {s : State} {f : Furnace} (none : heatOf s f = none) : isTapReady s f = false := by
  unfold isTapReady
  rw [none]

/-- A change of the slot of one furnace, its heat TAPPING or not as before. -/
theorem TapHolds.slot {asked : Furnace → Prop} {s t : State} {f : Furnace} (h : TapHolds asked s)
    (tap : TapSame s.tap t.tap) (powered : t.powered = s.powered) (load : loading t = loading s)
    (other : heatOf t (otherFurnace f) = heatOf s (otherFurnace f)) (tapping : isTapping t f = isTapping s f) :
    TapHolds (fun g => asked g ∧ g ≠ f) t := by
  refine h.congr tap powered load (fun g => ?_) fun g need => .inl ⟨need.1, fun ready => ?_⟩
  · rcases furnace_cases f g with rfl | rfl
    · exact tapping
    · exact isTapping_of_heat other
  · obtain rfl : g = otherFurnace f := (furnace_cases f g).resolve_left need.2
    rw [isTapReady_congr other]
    exact ready

/-- A heat outside TAPPING changed where no work rests on it. -/
theorem TapLaw.unassigned {s t : State} {f : Furnace} (h : TapLaw s) (un : Unassigned f s) (tap : TapSame s.tap t.tap)
    (powered : t.powered = s.powered) (load : loading t = loading s)
    (other : heatOf t (otherFurnace f) = heatOf s (otherFurnace f)) (tapping : isTapping t f = isTapping s f) : TapLaw t := by
  refine tapLaw_iff.mpr ((tapLaw_iff.mp h).congr tap powered load (fun g => ?_) fun g _ => ?_)
  · rcases furnace_cases f g with rfl | rfl
    · exact tapping
    · exact isTapping_of_heat other
  · rcases furnace_cases f g with rfl | rfl
    · exact .inr un
    · exact .inl ⟨trivial, fun ready => by rw [isTapReady_congr other]; exact ready⟩

theorem TapLaw.but {s : State} (h : TapLaw s) (f : Furnace) : TapHolds (· ≠ f) s :=
  (tapLaw_iff.mp h).congr ⟨rfl, rfl, rfl, rfl⟩ rfl rfl (fun _ => rfl) fun _ _ => .inl ⟨trivial, id⟩

/-- No work rests on a slot without a heat. -/
theorem TapLaw.unassigned_of_empty {s : State} (h : TapLaw s) {f : Furnace} (none : heatOf s f = none) : Unassigned f s := by
  have h := tapLaw_iff.mp h
  have ready := isTapReady_none none
  refine ⟨Bool.eq_false_iff.mpr fun pends => ?_, fun free => Option.not_isSome_iff_eq_none.mp fun held => ?_⟩
  · rw [h.pending f trivial pends] at ready; cases ready
  · rw [h.assigned f trivial free held] at ready; cases ready

/-! ### A closing -/

/-- The tap over a closing is the one that the end of the queue's work leaves, a request to match apart (R17). -/
theorem closeHeat_tap (f : Furnace) (h : Heat) (reason : CloseReason) (s : State) :
    TapSame (endAssignment f .cancelled (writeSummary f h reason s)).tap (closeHeat f h reason s).tap := by
  have dipped : ∀ x : State, (endDip f .heatClosed x).tap = x.tap := fun x => by rw [(endDip_closed f x).1]
  unfold closeHeat
  dsimp only
  simp only [setSlot_tap, post_tap, setMeltRequest_tap]
  rw [dipped]
  split <;> exact ⟨rfl, rfl, rfl, rfl⟩

theorem closeHeat_heatOf_other (f : Furnace) (h : Heat) (reason : CloseReason) (s : State) :
    heatOf (closeHeat f h reason s) (otherFurnace f) = heatOf s (otherFurnace f) := by
  rw [heatOf_of_heat (closeHeat_heat f h reason s)]
  exact heatOf_congr (by simp [closedState])

theorem closeHeat_tapLaw {f : Furnace} {h : Heat} {s : State} (law : TapLaw s) (on : s.powered = true) (reason : CloseReason)
    (heat : heatOf s f = some h) (idle : h.state ≠ .tapping) :
    TapLaw (closeHeat f h reason s) ∧ Unassigned f (closeHeat f h reason s) := by
  have written : TapHolds (· ≠ f) (writeSummary f h reason s) :=
    (law.but f).congr ⟨rfl, rfl, rfl, rfl⟩ rfl rfl (fun _ => rfl) fun g need => .inl ⟨need, id⟩
  obtain ⟨ended, un⟩ := written.endAssignment on .cancelled
  have tap := closeHeat_tap f h reason s
  have heats : ∀ g, heatOf (endAssignment f .cancelled (writeSummary f h reason s)) g = heatOf s g := fun g =>
    heatOf_of_heat (s := writeSummary f h reason s) (endAssignment_heat _ _ _) g
  have only := (closeHeat_tableOnly f h reason s).stands
  have onlyEnded := (endAssignment_tableOnly f .cancelled (writeSummary f h reason s)).stands
  refine ⟨ended.unassigned un tap (only.powered.trans onlyEnded.powered.symm) (only.loading.trans onlyEnded.loading.symm)
    ((closeHeat_heatOf_other f h reason s).trans (heats _).symm) ?_, ?_⟩
  · rw [isTapping_none (closeHeat_empty f h reason s), isTapping_of_heatOf ((heats f).trans heat)]
    exact (by simpa using idle : (h.state == .tapping) = false).symm
  · unfold Unassigned pendingFor assignedTo
    rw [tap.permit, tap.queue]
    exact un

/-- With a granted permit the closing of a heat leaves the queue and the permit. -/
theorem endAssignment_granted {f : Furnace} {r : Reason} {s : State} {p : Permit} (held : s.tap.permit = some p)
    (granted : p.state = .granted) : endAssignment f r s = s := by
  unfold endAssignment pendingPermit
  rw [held]
  simp [granted]

/-! ### A completed tap -/

/-- The heat's part of a completion leaves the tap and has no TAPPING heat in its furnace (R13). -/
theorem heatTakesTap_tap {f : Furnace} {mass : Nat} {clamped timeout : Bool} {s : State} {p : Permit}
    (held : s.tap.permit = some p) (granted : p.state = .granted) :
    TapSame s.tap (heatTakesTap f mass clamped timeout s).tap
      ∧ heatOf (heatTakesTap f mass clamped timeout s) (otherFurnace f) = heatOf s (otherFurnace f)
      ∧ isTapping (heatTakesTap f mass clamped timeout s) f = false := by
  cases e : heatOf s f with
  | none =>
    have same : heatTakesTap f mass clamped timeout s = s := by unfold heatTakesTap; rw [e]
    rw [same]
    exact ⟨⟨rfl, rfl, rfl, rfl⟩, rfl, isTapping_none e⟩
  | some h =>
    have other := heatOf_setHeat_other (completeHeat mass clamped timeout h) s (otherFurnace_ne f)
    by_cases empty : (completeHeat mass clamped timeout h).bathMass = 0
    · rw [heatTakesTap_emptied mass clamped timeout e empty]
      have tap := closeHeat_tap f (completeHeat mass clamped timeout h) .emptied (setHeat f (completeHeat mass clamped timeout h) s)
      rw [endAssignment_granted (p := p)
        (s := writeSummary f (completeHeat mass clamped timeout h) .emptied (setHeat f (completeHeat mass clamped timeout h) s))
        held granted] at tap
      exact ⟨tap, (closeHeat_heatOf_other _ _ _ _).trans other, isTapping_none (closeHeat_empty _ _ _ _)⟩
    · rw [heatTakesTap_left mass clamped timeout e empty]
      exact ⟨⟨rfl, rfl, rfl, rfl⟩, other, isTapping_setHeat _ _ _⟩

/-- No heat of the furnaces that the granted permit is not for is TAPPING. -/
theorem TapLaw.only_tapping {s : State} (h : TapLaw s) (on : s.powered = true) {p : Permit} (held : s.tap.permit = some p) :
    isTapping s (otherFurnace p.furnace) = false := by
  refine Bool.eq_false_iff.mpr fun tapping => ?_
  obtain ⟨p', held', -, ours⟩ := grantedFor_iff.mp (((tapLaw_iff.mp h).tapping on _).mp tapping)
  obtain rfl : p = p' := Option.some.inj (held.symm.trans held')
  exact otherFurnace_ne p.furnace ours.symm

theorem tapFinished_heat (p : Permit) (mass : Nat) (clamped timeout : Bool) (s : State) :
    (tapFinished p mass clamped timeout s).heat = (heatTakesTap p.furnace mass clamped timeout s).heat := rfl

theorem tapFinished_tapLaw {s : State} {p : Permit} {mass : Nat} {clamped timeout : Bool} (h : TapLaw s)
    (on : s.powered = true) (held : s.tap.permit = some p) (granted : p.state = .granted) :
    TapLaw (tapFinished p mass clamped timeout s) := by
  obtain ⟨tap, other, own⟩ := heatTakesTap_tap (f := p.furnace) (mass := mass) (clamped := clamped) (timeout := timeout) held granted
  have holds := tapLaw_iff.mp h
  obtain ⟨e, mem, id, assigned⟩ := holds.entry p held
  have queue : (tapFinished p mass clamped timeout s).tap.queue = s.tap.queue.filter (fun e => e.id != p.requestId) := by
    show ((heatTakesTap p.furnace mass clamped timeout s).tap.queue.filter _) = _
    rw [tap.queue]
  refine (holds.ended (id := p.requestId) (t := tapFinished p mass clamped timeout s) ⟨e, mem, id, by rw [assigned]; rfl⟩
    ?_ rfl tap.nextId (.inr ⟨rfl, ?_⟩) (fun _ f => ?_)
    (heatTakesTap_tableOnly p.furnace mass clamped timeout s).stands.loading).1
  · rw [queue]
    exact filter_ends _ _
  · rw [queue]
    intro inside
    obtain ⟨x, xmem, xid⟩ := List.mem_map.mp inside
    have := (List.mem_filter.mp xmem).2
    simp [xid] at this
  · have heats : ∀ g, isTapping (tapFinished p mass clamped timeout s) g
        = isTapping (heatTakesTap p.furnace mass clamped timeout s) g := fun g =>
      isTapping_of_heat (heatOf_of_heat (tapFinished_heat p mass clamped timeout s) g)
    rw [heats]
    rcases furnace_cases p.furnace f with rfl | rfl
    · exact own
    · rw [isTapping_of_heat other]
      exact h.only_tapping on held

/-! ### The other moves -/

/-- The heat of a withdrawn permit as it goes on, before what follows it (R131). -/
def heatWithdrawn (f : Furnace) (s : State) : State := editHeat f (fun h => { h with state := .holding, openTap := none }) s

theorem permitWithdrawn_heat (p : Permit) (s : State) :
    (permitWithdrawn p s).heat = (heatWithdrawn p.furnace s).heat := by
  unfold permitWithdrawn
  rw [returnEntry_heat]
  rfl

theorem editHeat_tap (f : Furnace) (g : Heat → Heat) (s : State) : (editHeat f g s).tap = s.tap := by
  unfold editHeat
  split <;> rfl

theorem permitWithdrawn_tap (p : Permit) (s : State) :
    EntryEnds p.requestId s.tap.queue (permitWithdrawn p s).tap.queue ∧ (permitWithdrawn p s).tap.permit = none
      ∧ (permitWithdrawn p s).tap.nextId = s.tap.nextId ∧ (permitWithdrawn p s).tap.lastEnded = s.tap.lastEnded := by
  have ends := dropPermit_ends p.requestId p.furnace (some .withdrawn) false
    (post (.permitWithdrawn p.furnace (heatNumber s p.furnace) p.requestId (ladleOf s p.requestId))
      (heatWithdrawn p.furnace s))
  rw [post_tap, show (heatWithdrawn p.furnace s).tap = s.tap from editHeat_tap _ _ _] at ends
  exact ends

theorem permitWithdrawn_loading {s : State} {p : Permit} (held : s.tap.permit = some p) (granted : p.state = .granted) :
    loading (permitWithdrawn p s) = loading s := (TableMove.withdraw held granted).only.stands.loading

theorem withdrawn_tapLaw {s : State} {p : Permit} (h : TapLaw s) (on : s.powered = true) (held : s.tap.permit = some p)
    (granted : p.state = .granted) : TapLaw (permitWithdrawn p s) := by
  have holds := tapLaw_iff.mp h
  obtain ⟨e, mem, id, assigned⟩ := holds.entry p held
  obtain ⟨queue, permit, nextId, lastEnded⟩ := permitWithdrawn_tap p s
  refine (holds.ended ⟨e, mem, id, by rw [assigned]; rfl⟩ queue permit nextId (.inl lastEnded)
    (fun _ f => ?_) (permitWithdrawn_loading held granted)).1
  rw [isTapping_of_heat (heatOf_of_heat (permitWithdrawn_heat p s) f)]
  cases open' : heatOf s p.furnace with
  | none =>
    rw [heatWithdrawn, editHeat_none _ open']
    rcases furnace_cases p.furnace f with rfl | rfl
    · exact isTapping_none open'
    · exact h.only_tapping on held
  | some x =>
    rw [heatWithdrawn, editHeat_some _ open']
    rcases furnace_cases p.furnace f with rfl | rfl
    · exact isTapping_setHeat _ _ _
    · rw [isTapping_of_heat (heatOf_setHeat_other _ s (otherFurnace_ne p.furnace))]
      exact h.only_tapping on held

theorem granted_tapLaw {s : State} {p : Permit} (h : TapLaw s) (held : s.tap.permit = some p)
    (pending : p.state = .pending) : TapLaw (grantPermit p s) := by
  have holds := tapLaw_iff.mp h
  have ready : isTapReady s p.furnace = true := holds.pending _ trivial (pendingFor_iff.mpr ⟨p, held, pending, rfl⟩)
  obtain ⟨x, heat⟩ : ∃ x, heatOf s p.furnace = some x := by
    cases e : heatOf s p.furnace with
    | none => rw [isTapReady_none e] at ready; cases ready
    | some x => exact ⟨x, rfl⟩
  rw [grantPermit_eq p x s heat]
  refine tapLaw_iff.mpr ⟨holds.queue, ?_, ?_, fun on f => ?_, fun f _ pends => ?_, fun f _ free => (by cases free),
    fun l => ?_⟩
  · rintro _ ⟨⟩
    exact holds.entry p held
  · rintro _ ⟨⟩ state
    cases state
  · have notTapping := holds.not_tapping on (fun p' held' => by
      obtain rfl : p = p' := Option.some.inj (held.symm.trans held')
      exact pending)
    rw [grantedFor_iff]
    constructor
    · intro tapping
      rcases furnace_cases p.furnace f with rfl | rfl
      · exact ⟨_, rfl, rfl, rfl⟩
      · have still : isTapping s (otherFurnace p.furnace) = true := by
          rw [← tapping]
          refine (isTapping_of_heat (heatOf_congr ?_)).symm
          simp [grantedState]
        rw [notTapping] at still; cases still
    · rintro ⟨_, ⟨⟩, -, rfl⟩
      unfold isTapping heatOf slotOf grantedState
      simp
  · obtain ⟨_, ⟨⟩, state, -⟩ := pendingFor_iff.mp pends
    cases state
  · exact absurd ((holds.loads l).2.symm.trans held) (by simp)

/-- Where all the assigned entries have one id there is at most one. -/
theorem assigned_one {q : List Entry} {id : Nat} (distinct : (q.map Entry.id).Nodup)
    (all : ∀ x ∈ q, x.assigned.isSome = true → x.id = id) : (q.filter (fun x => x.assigned.isSome)).length ≤ 1 := by
  have ids : (q.filter (fun x => x.assigned.isSome)).map Entry.id
      = List.replicate (q.filter (fun x => x.assigned.isSome)).length id := by
    rw [List.eq_replicate_iff]
    refine ⟨List.length_map _, fun n mem => ?_⟩
    obtain ⟨x, xmem, rfl⟩ := List.mem_map.mp mem
    obtain ⟨inside, assigned⟩ := List.mem_filter.mp xmem
    exact all x inside assigned
  have nodup := distinct.sublist ((List.filter_sublist (p := fun x : Entry => x.assigned.isSome)).map Entry.id)
  rw [ids, List.nodup_replicate] at nodup
  exact nodup

/-- The oldest entry assigned: with no entry assigned there is no permit, and the heat that it takes is TAP_READY
(R122, R123). -/
theorem assigned_tapLaw {s : State} {e : Entry} {f : Furnace} (h : TapLaw s) (on : s.powered = true)
    (oldest : s.tap.queue.head? = some e)
    (free : s.tap.queue.any (fun x => x.assigned.isSome) = false) (chosen : chooseFurnace s e = some f) :
    TapLaw (assignEntry e f s) := by
  have holds := tapLaw_iff.mp h
  have none : ∀ x ∈ s.tap.queue, x.assigned = none := fun x mem => by
    have := List.any_eq_false.mp free x mem
    simpa using this
  have permit : s.tap.permit = .none := by
    cases held : s.tap.permit with
    | none => rfl
    | some p =>
      obtain ⟨x, mem, -, assigned⟩ := holds.entry p held
      rw [none x mem] at assigned
      cases assigned
  have mem : e ∈ s.tap.queue := List.mem_of_head? oldest
  have queue : (assignEntry e f s).tap.queue = assignTo e.id (some f) s.tap.queue := rfl
  have held : ∀ x ∈ (assignEntry e f s).tap.queue, x.assigned.isSome = true → x.id = e.id ∧ x.assigned = some f :=
    fun x xmem assigned => by
      rcases mem_assignTo (queue ▸ xmem) with ⟨old, -⟩ | new
      · rw [none x old] at assigned; cases assigned
      · exact new
  obtain ⟨size, ladles, ids, rest⟩ := holds.queue
  have one : ((assignTo e.id (some f) s.tap.queue).filter (fun x => x.assigned.isSome)).length ≤ 1 := by
    refine assigned_one (id := e.id) (assignTo_map Entry.id (fun _ _ => rfl) e.id (some f) s.tap.queue ▸ ids) fun x xmem assigned => ?_
    exact (held x (queue ▸ xmem) assigned).1
  refine tapLaw_iff.mpr ⟨?_, ?_, ?_, fun _ g => ?_, fun g _ pends => ?_, fun g _ _ has => ?_, fun l => ?_⟩
  · rw [queueLaw_iff, queue]
    exact QueueFits.reassigned holds.queue one
  · show ∀ p ∈ s.tap.permit, _
    rw [permit]; rintro _ ⟨⟩
  · show ∀ p ∈ s.tap.permit, _
    rw [permit]; rintro _ ⟨⟩
  · exact holds.tapping on g
  · exact holds.pending g trivial pends
  · obtain ⟨x, xmem, assigned⟩ := assignedTo_isSome.mp has
    obtain ⟨-, isF⟩ := held x xmem (by rw [assigned]; rfl)
    obtain rfl : f = g := Option.some.inj (isF.symm.trans assigned)
    obtain ⟨y, open', tapReady, -⟩ := (chooseFurnace_takes chosen).1
    unfold isTapReady
    rw [show heatOf (assignEntry e f s) f = some y from open']
    simpa using tapReady
  · rw [(holds.loads l).1] at mem; cases mem

/-- The id that a new entry takes is free, and in range (R120). -/
theorem takeId_free {s : State} (h : TapLaw s) :
    takeId s ∉ s.tap.queue.map Entry.id ++ s.tap.lastEnded.toList ∧ 1 ≤ takeId s ∧ takeId s ≤ 255 := by
  obtain ⟨⟨size, -, -, -, -, low, high, -⟩, -⟩ := h
  have count : (s.tap.queue.map Entry.id ++ s.tap.lastEnded.toList).length ≤ 9 := by
    have size : s.tap.queue.length ≤ 8 := size
    cases s.tap.lastEnded <;> simp <;> omega
  unfold takeId
  rw [freeId_firstFree, idAfter_wraps]
  refine ⟨firstFree_fresh count fun i j less bound => wrapAfter_distinct less (by omega), ?_⟩
  obtain ⟨k, bound, e, -, -⟩ := firstFree_candidate (wrapAfter 255) (s.tap.queue.map Entry.id ++ s.tap.lastEnded.toList) 9
    s.tap.nextId
  rw [e, wrapAfter_iterate 255 _ k (by omega)]
  grind

/-- A new entry joins the queue with an id in nobody's use, waiting (R120). -/
theorem appended_tapLaw {s : State} {e : Entry} (h : TapLaw s) (id : e.id = takeId s) (waiting : e.assigned = none)
    (ladle : ∀ x ∈ s.tap.queue, x.ladle ≠ e.ladle) (room : s.tap.queue.length < Config.queueMax)
    (loaded : loading s = false) : TapLaw (appendEntry e s) := by
  have holds := tapLaw_iff.mp h
  obtain ⟨size, ladles, ids, ended, bounds, low, high, one⟩ := holds.queue
  obtain ⟨fresh, idLow, idHigh⟩ := takeId_free h
  rw [← id] at fresh idLow idHigh
  have notIn : e.id ∉ queueIds s := fun inside => fresh (List.mem_append.mpr (.inl inside))
  have assigned : ∀ f, assignedTo (appendEntry e s) f = assignedTo s f := fun f => by
    show (s.tap.queue ++ [e]).find? _ = s.tap.queue.find? _
    rw [List.find?_append]
    simp [waiting]
  have nextLow : 1 ≤ idAfter e.id ∧ idAfter e.id ≤ 255 := by
    unfold idAfter
    split <;> omega
  refine tapLaw_iff.mpr ⟨⟨?_, ?_, ?_, ?_, ?_, nextLow.1, nextLow.2, ?_⟩, ?_, holds.weight, holds.tapping, holds.pending,
    fun f _ free held => ?_, fun l => ?_⟩
  · show (s.tap.queue ++ [e]).length ≤ _
    rw [List.length_append]
    exact room
  · show ((s.tap.queue ++ [e]).map Entry.ladle).Nodup
    rw [List.map_append, List.nodup_append]
    refine ⟨ladles, List.nodup_cons.mpr ⟨List.not_mem_nil, List.nodup_nil⟩, fun x xmem y ymem => ?_⟩
    obtain ⟨z, zmem, rfl⟩ := List.mem_map.mp xmem
    rw [List.map_singleton, List.mem_singleton] at ymem
    rw [ymem]
    exact ladle z zmem
  · show ((s.tap.queue ++ [e]).map Entry.id).Nodup
    rw [List.map_append, List.nodup_append]
    refine ⟨ids, List.nodup_cons.mpr ⟨List.not_mem_nil, List.nodup_nil⟩, fun x xmem y ymem same => ?_⟩
    rw [List.map_singleton, List.mem_singleton] at ymem
    exact notIn (ymem ▸ same ▸ xmem)
  · show ∀ n ∈ s.tap.lastEnded, n ∉ (s.tap.queue ++ [e]).map Entry.id
    intro n last inside
    rw [List.map_append, List.mem_append, List.map_singleton, List.mem_singleton] at inside
    rcases inside with old | new
    · exact ended n last old
    · refine fresh (List.mem_append.mpr (.inr ?_))
      rw [← new, Option.mem_toList]
      exact last
  · show ∀ n ∈ (s.tap.queue ++ [e]).map Entry.id, _
    intro n inside
    rw [List.map_append, List.mem_append, List.map_singleton, List.mem_singleton] at inside
    rcases inside with old | new
    · exact bounds n old
    · exact new ▸ ⟨idLow, idHigh⟩
  · show ((s.tap.queue ++ [e]).filter _).length ≤ 1
    rw [List.filter_append]
    simpa [waiting] using one
  · intro p held
    obtain ⟨x, mem, rest⟩ := holds.entry p held
    exact ⟨x, List.mem_append.mpr (.inl mem), rest⟩
  · rw [assigned] at held
    exact holds.assigned f trivial free held
  · exact absurd (loaded.symm.trans l) (by decide)

theorem removed_tapLaw {s : State} {id : Nat} (h : TapLaw s) (free : ∀ p ∈ s.tap.permit, p.requestId ≠ id) :
    TapLaw (removeEntry id s) := by
  have holds := tapLaw_iff.mp h
  refine tapLaw_iff.mpr ⟨QueueFits.sublist holds.queue List.filter_sublist, fun p held => ?_, holds.weight, holds.tapping,
    holds.pending, fun f _ none held => ?_, fun l => ?_⟩
  · obtain ⟨e, mem, own, assigned⟩ := holds.entry p held
    refine ⟨e, List.mem_filter.mpr ⟨mem, ?_⟩, own, assigned⟩
    simpa [own] using free p held
  · obtain ⟨e, mem, assigned⟩ := assignedTo_isSome.mp held
    exact holds.assigned f trivial none (assignedTo_isSome.mpr ⟨e, (List.mem_filter.mp mem).1, assigned⟩)
  · obtain ⟨empty, permit⟩ := holds.loads l
    exact ⟨by show s.tap.queue.filter _ = []; rw [empty]; rfl, permit⟩

/-- A TAP-OPEN on an assigned entry makes a pending permit of it, without a weight (R125). -/
theorem pending_tapLaw {s : State} {f : Furnace} {e : Entry} (h : TapLaw s) (assigned : assignedTo s f = some e)
    (free : s.tap.permit = none) : TapLaw (recordPending f e s) := by
  have holds := tapLaw_iff.mp h
  have mem : e ∈ s.tap.queue := List.mem_of_find?_eq_some assigned
  have own : e.assigned = some f := by simpa using List.find?_some assigned
  refine tapLaw_iff.mpr ⟨holds.queue, ?_, ?_, fun on g => ?_, fun g _ pends => ?_, fun g _ none => (by cases none), fun l => ?_⟩
  · rintro _ ⟨⟩
    exact ⟨e, mem, rfl, own⟩
  · rintro _ ⟨⟩ _
    rfl
  · rw [show isTapping (recordPending f e s) g = isTapping s g from rfl, holds.not_tapping on (by rw [free]; rintro _ ⟨⟩)]
    refine ⟨fun no => (by cases no), fun granted => ?_⟩
    obtain ⟨_, ⟨⟩, state, -⟩ := grantedFor_iff.mp granted
    cases state
  · obtain ⟨_, ⟨⟩, -, rfl⟩ := pendingFor_iff.mp pends
    exact holds.assigned f trivial free (by rw [assigned]; rfl)
  · rw [(holds.loads l).1] at mem; cases mem

/-- A permit record that goes on: its state, its furnace and its entry stand, and it takes no weight while it is
pending. -/
theorem permit_tapLaw {s : State} {p p' : Permit} (h : TapLaw s) (held : s.tap.permit = some p)
    (same : p'.state = p.state ∧ p'.furnace = p.furnace ∧ p'.requestId = p.requestId)
    (weight : p'.weight = p.weight ∨ p.state = .granted) : TapLaw (setPermit (some p') s) := by
  have holds := tapLaw_iff.mp h
  obtain ⟨state, furnace, id⟩ := same
  have grants : ∀ g, grantedFor (setPermit (some p') s) g = grantedFor s g := fun g => by
    show (p'.state == PermitState.granted && p'.furnace == g) = _
    unfold grantedFor
    rw [held, state, furnace]
  have pends : ∀ g, pendingFor (setPermit (some p') s) g = pendingFor s g := fun g => by
    show (p'.state == PermitState.pending && p'.furnace == g) = _
    unfold pendingFor
    rw [held, state, furnace]
  refine tapLaw_iff.mpr ⟨holds.queue, ?_, ?_, fun on g => by rw [grants]; exact holds.tapping on g,
    fun g _ pending => holds.pending g trivial (pends g ▸ pending), fun g _ none => (by cases none), fun l => ?_⟩
  · rintro _ ⟨⟩
    rw [id, furnace]
    exact holds.entry p held
  · rintro _ ⟨⟩ pending
    rcases weight with kept | granted
    · rw [kept]
      exact holds.weight p held (state ▸ pending)
    · rw [state, granted] at pending; cases pending
  · exact absurd ((holds.loads l).2.symm.trans held) (by simp)

/-- A heat opened where no work rests, outside TAPPING. -/
theorem opened_tapLaw {s : State} {f : Furnace} {h : Heat} (law : TapLaw s) (empty : heatOf s f = none)
    (un : Unassigned f s) (idle : h.state ≠ .tapping) : TapLaw (openHeat f h s) := by
  refine law.unassigned un ⟨rfl, rfl, rfl, rfl⟩ rfl rfl (heatOf_setHeat_other h s (otherFurnace_ne f)) ?_
  rw [isTapping_none empty]
  refine (isTapping_setHeat f h s).trans ?_
  simpa using idle

theorem coveredState_idle {x : HeatState} (idle : x ≠ .tapping) : coveredState x ≠ .tapping := by
  cases x <;> simp_all [coveredState]

theorem TableMove.tapLaw {s t : State} (m : TableMove s t) (h : TapLaw s) (on : s.powered = true) : TapLaw t := by
  have holds := tapLaw_iff.mp h
  cases m with
  | @edit f x x' heat revised ready =>
    refine tapLaw_iff.mpr (holds.congr ⟨rfl, rfl, rfl, rfl⟩ rfl rfl (fun g => ?_) fun g _ => .inl ⟨trivial, fun r => ?_⟩)
    · rcases furnace_cases f g with rfl | rfl
      · rw [isTapping_setHeat, isTapping_of_heatOf heat]
        exact Bool.eq_iff_iff.mpr (by simpa using revised.tapping)
      · exact isTapping_of_heat (heatOf_setHeat_other _ s (otherFurnace_ne f))
    · rcases furnace_cases f g with rfl | rfl
      · unfold isTapReady at r ⊢
        rw [heat] at r
        rw [heatOf_setHeat_same]
        simpa using ready (by simpa using r)
      · rw [isTapReady_congr (heatOf_setHeat_other _ s (otherFurnace_ne f))]
        exact r
  | @leave u f x x' r heat revised posted =>
    have frame := posted.1
    have same : isTapping (setHeat f x' s) f = isTapping s f := by
      rw [isTapping_setHeat, isTapping_of_heatOf heat]
      exact Bool.eq_iff_iff.mpr (by simpa using revised.tapping)
    have put : TapHolds (fun g => True ∧ g ≠ f) (setHeat f x' s) :=
      holds.slot ⟨rfl, rfl, rfl, rfl⟩ rfl rfl (heatOf_setHeat_other x' s (otherFurnace_ne f)) same
    have left : TapHolds (· ≠ f) u := by
      rw [frame]
      exact put.congr ⟨rfl, rfl, rfl, rfl⟩ rfl rfl (fun _ => rfl) fun g need => .inl ⟨⟨trivial, need⟩, id⟩
    obtain ⟨law, -⟩ := left.endAssignment (by rw [frame]; exact on) r
    exact tapLaw_iff.mpr ((tapLaw_iff.mp law).congr ⟨rfl, rfl, rfl, rfl⟩ rfl rfl (fun _ => rfl) fun g _ => .inl ⟨trivial, id⟩)
  | @slotSide f x same =>
    have slot : ∀ g, heatOf (setFurnaceSlot f x s) g = heatOf s g := setFurnaceSlot_heatOf same
    exact tapLaw_iff.mpr (holds.congr ⟨rfl, rfl, rfl, rfl⟩ rfl rfl (fun g => isTapping_of_heat (slot g)) fun g _ =>
      .inl ⟨trivial, fun r => by rw [isTapReady_congr (slot g)]; exact r⟩)
  | tapSide queue permit nextId lastEnded =>
    exact tapLaw_iff.mpr (holds.congr ⟨queue, permit, nextId, lastEnded⟩ rfl rfl (fun _ => rfl) fun g _ => .inl ⟨trivial, id⟩)
  | assign oldest free chosen => exact assigned_tapLaw h on oldest free chosen
  | remove free => exact removed_tapLaw h free
  | append id waiting ladle room loaded => exact appended_tapLaw h id waiting ladle room loaded
  | pend assigned free => exact pending_tapLaw h assigned free
  | permit held same weight => exact permit_tapLaw h held same (weight.imp_right And.left)
  | refuse r remove held pending => exact (holds.refused on r remove held pending).1
  | grant held pending => exact granted_tapLaw h held pending
  | withdraw held granted => exact withdrawn_tapLaw h on held granted
  | complete clamped timeout held granted => exact tapFinished_tapLaw h on held granted
  | close reason heat idle => exact (closeHeat_tapLaw h on reason heat idle).1
  | @succeed f x heat idle =>
    obtain ⟨law, un⟩ := closeHeat_tapLaw h on .closed heat idle
    exact opened_tapLaw law (closeHeat_empty f x .closed s) un (coveredState_idle idle)
  | opened free opens => exact opened_tapLaw h free (h.unassigned_of_empty free) opens.state.1
  | @emptied f free =>
    refine h.unassigned (h.unassigned_of_empty free) ⟨rfl, rfl, rfl, rfl⟩ rfl rfl ?_ ?_
    · unfold heatOf
      rw [slotOf_setSlot_other _ _ (otherFurnace_ne f)]
    · rw [isTapping_none free, isTapping_none (heatOf_none_of_slot (.inl (slotOf_setSlot_same f .empty s)))]

/-! ### The step law -/

/-- The tap law over a change outside the heats and the tap. -/
theorem TapLaw.of_heats {s t : State} (h : TapLaw s) (heat : t.heat = s.heat) (tap : t.tap = s.tap)
    (powered : t.powered = s.powered) (load : loading t = loading s) : TapLaw t := by
  refine tapLaw_iff.mpr ((tapLaw_iff.mp h).congr (by rw [tap]; exact ⟨rfl, rfl, rfl, rfl⟩) powered load
    (fun g => isTapping_of_heat (heatOf_of_heat heat g)) fun g _ => .inl ⟨trivial, fun r => ?_⟩)
  rw [isTapReady_congr (heatOf_of_heat heat g)]
  exact r

theorem Move.tapLaw {reset : Option Circuit} {s t : State} (m : Move reset s t) (h : s.powered = true ∧ TapLaw s) :
    t.powered = true ∧ TapLaw t := by
  obtain ⟨on, law⟩ := h
  refine ⟨m.stands.powered.trans on, ?_⟩
  rcases m.heat with table | ⟨heat, tap⟩
  · exact table.tapLaw law on
  · exact law.of_heats heat tap m.stands.powered m.stands.loading

theorem Moves.tapLaw {reset : Option Circuit} {s t : State} (m : Moves reset s t) (h : s.powered = true ∧ TapLaw s) :
    t.powered = true ∧ TapLaw t := m.keep (fun _ _ move => move.tapLaw) h

/-- The tap law without queue and permit. -/
theorem tapLaw_of_reset {t : State} (tap : t.tap = Tap.reset) (idle : t.powered = true → ∀ f, isTapping t f = false) :
    TapLaw t := by
  have permit : t.tap.permit = none := by rw [tap]; rfl
  have queue : t.tap.queue = [] := by rw [tap]; rfl
  have un := unassigned_of_none permit (by rw [queue]; rintro _ ⟨⟩)
  refine tapLaw_iff.mpr ⟨?_, by rw [permit]; rintro _ ⟨⟩, by rw [permit]; rintro _ ⟨⟩, fun on f => ?_,
    fun f _ held => ?_, fun f _ free held => ?_, fun _ => ⟨queue, permit⟩⟩
  · rw [queueLaw_iff, tap]
    exact (queueLaw_iff State.reset).mp reset_tapLaw.1
  · rw [idle on f]
    unfold grantedFor
    rw [permit]
  · rw [(un f).1] at held; cases held
  · rw [(un f).2 free] at held; cases held

theorem warmHeat_idle_state (h : Heat) : (warmHeat h).state ≠ .tapping := by
  unfold warmHeat interruptTap
  cases e : h.state <;> simp [e]

theorem HeatsRevised.isTapping {s t : State} (r : HeatsRevised s t) (f : Furnace) : isTapping t f = isTapping s f := by
  rcases r.2 f with ⟨none, none'⟩ | ⟨x, y, was, is, revised⟩
  · rw [isTapping_none none, isTapping_none none']
  · rw [isTapping_of_heatOf was, isTapping_of_heatOf is]
    exact Bool.eq_iff_iff.mpr (by simpa using revised.tapping)

/-- While the settings are being loaded the queue is empty, so the heats fitted to them have no work resting on them. -/
theorem loadBegun_tapLaw {good : Bool} {s : State} (h : TapLaw s) (waiting : loading s = true) :
    TapLaw (loadBegun good s) := by
  have holds := tapLaw_iff.mp h
  obtain ⟨queue, permit⟩ := holds.loads waiting
  have un := unassigned_of_none permit (by rw [queue]; rintro _ ⟨⟩)
  have tap : (loadBegun good s).tap = s.tap := by rw [(loadBegun_only good s).frame]
  have powered : (loadBegun good s).powered = s.powered := by rw [(loadBegun_only good s).frame]
  refine tapLaw_iff.mpr ⟨?_, by rw [tap, permit]; rintro _ ⟨⟩, by rw [tap, permit]; rintro _ ⟨⟩, fun on f => ?_,
    fun f _ held => ?_, fun f _ _ held => ?_, fun l => ?_⟩
  · rw [queueLaw_iff, tap]
    exact holds.queue
  · rw [(loadBegun_heatsRevised good s).isTapping]
    unfold grantedFor
    rw [tap]
    exact holds.tapping (powered ▸ on) f
  · unfold pendingFor at held
    rw [tap, permit] at held
    cases held
  · obtain ⟨e, mem, -⟩ := assignedTo_isSome.mp held
    rw [tap, queue] at mem
    cases mem
  · rw [loadBegun_loading] at l; cases l

/-- A millisecond counts on in the permit's timers alone (R124, R129). -/
theorem ticked_tapLaw {s : State} (h : TapLaw s) : TapLaw (setPermit (s.tap.permit.map Permit.tick) s) := by
  cases held : s.tap.permit with
  | none => exact h.of_heats rfl (by rw [Option.map_none, ← held]; rfl) rfl rfl
  | some p => exact permit_tapLaw h held ⟨rfl, rfl, rfl⟩ (.inl rfl)

theorem StepKind.tapLaw {i : Option Instr} {s t : State} (k : StepKind s i t) (h : TapLaw s) : TapLaw t := by
  cases k with
  | cold l => exact tapLaw_of_reset rfl fun _ f => isTapping_none (cold_heatOf _ _ _ f)
  | warm l =>
    refine tapLaw_of_reset rfl fun _ f => ?_
    unfold isTapping
    rw [warm_heatOf]
    cases heatOf s f with
    | none => rfl
    | some x => simpa using warmHeat_idle_state x
  | loss => exact tapLaw_of_reset rfl fun on => (by cases on)
  | load on waiting ack first derived rest =>
    have began : (loadBegun (goodBlock ack s.sett.block) s).powered = true := by rw [(loadBegun_only _ s).frame]; exact on
    exact (rest.tapLaw (first.tapLaw ⟨began, loadBegun_tapLaw h waiting⟩)).2
  | period | onPhase =>
    unfold putPulse
    rw [(putAllotment_frame _ s).1]
    exact h.of_heats rfl rfl rfl rfl
  | ms =>
    rw [tickClock_shape]
    exact (ticked_tapLaw h).of_heats rfl rfl rfl rfl
  | dark =>
    rw [tickClock_shape]
    exact h.of_heats rfl rfl rfl rfl
  | buffered | same => exact h
  | moves on reset allowed moves => exact (moves.tapLaw ⟨on, h⟩).2

/-- Settles O51. -/
theorem stepKeepsTapLaw : Obligations.StepKeepsTapLaw :=
  step_keeps (P := TapLaw) (fun _ _ h => h.of_heats rfl rfl rfl rfl) fun _ _ _ k h => k.tapLaw h

end Sys2Proof.Machine
end


section
/-! The step law of the masses (R5, R13, R19, R133). -/

namespace Sys2Proof.Machine

/-! ### One heat -/

/-- The mass law of one heat, with its open tap while it is TAPPING (R4, R5). -/
def HeatMassed (h : Heat) : Prop := HeatMassLaw h ∧ (h.state = .tapping → h.openTap.isSome = true)

theorem HeatRevised.massed {cap : Nat} {h h' : Heat} (r : HeatRevised cap h h') (law : HeatMassed h) : HeatMassed h' :=
  ⟨r.mass law.1, fun tapping => by rw [r.openTap]; exact law.2 (r.tapping.mp tapping)⟩

/-- A heat that has left TAPPING, its masses as they were. -/
theorem HeatMassed.idle {h h' : Heat} (law : HeatMassed h) (idle : h'.state ≠ .tapping) (bath : h'.bathMass = h.bathMass)
    (charges : h'.charges = h.charges) (restated : h'.restateAdj = h.restateAdj) (tapped : tappedMass h' = tappedMass h) :
    HeatMassed h' := by
  refine ⟨?_, fun tapping => absurd tapping idle⟩
  obtain ⟨law, -⟩ := law
  unfold HeatMassLaw chargedMass at *
  rw [bath, charges, restated, tapped]
  exact law

/-- The weight of a completed tap leaves the bath (R13). -/
theorem completeHeat_massed {h : Heat} {mass : Nat} {clamped timeout : Bool} (law : HeatMassed h)
    (opened : h.openTap.isSome = true) (fits : mass ≤ h.bathMass) : HeatMassed (completeHeat mass clamped timeout h) := by
  obtain ⟨tap, taken⟩ := Option.isSome_iff_exists.mp opened
  refine ⟨?_, fun tapping => by cases tapping⟩
  have tapped : tappedMass (completeHeat mass clamped timeout h) = tappedMass h + mass := by
    unfold tappedMass completeHeat
    rw [taken]
    simp [finishedTap]
  obtain ⟨law, -⟩ := law
  unfold HeatMassLaw at *
  rw [tapped]
  show ((h.bathMass - mass : Nat) : Int) = (chargedMass h : Int) + h.restateAdj - _
  omega

/-- An interrupted tap has poured nothing (R24). -/
theorem warmHeat_massed {h : Heat} (law : HeatMassed h) : HeatMassed (warmHeat h) := by
  refine law.idle (warmHeat_idle_state h) (warmHeat_bath h) (warmHeat_charges h) ?_ ?_
  · unfold warmHeat
    split <;> rfl
  · unfold warmHeat
    split
    · unfold interruptTap tappedMass
      cases h.openTap <;> simp
    · rfl
    · rfl
    · rfl
    · rfl

/-- A successor holds the metal left as its one charge (R18). -/
theorem successorOf_massed (s : State) (f : Furnace) {h : Heat} (idle : h.state ≠ .tapping) :
    HeatMassed (successorOf s f h) := by
  refine ⟨?_, fun tapping => absurd tapping (coveredState_idle idle)⟩
  unfold HeatMassLaw chargedMass tappedMass successorOf
  simp

/-! ### The heats of a state -/

theorem massLawOf_iff {s : State} {f : Furnace} : MassLawOf s f ↔ ∀ h, heatOf s f = some h → HeatMassed h := Iff.rfl

theorem MassLawOf.congr {s t : State} {f : Furnace} (h : MassLawOf s f) (heat : heatOf t f = heatOf s f) : MassLawOf t f := by
  unfold MassLawOf
  rw [heat]
  exact h

theorem massLawOf_none {s : State} {f : Furnace} (none : heatOf s f = none) : MassLawOf s f := by
  unfold MassLawOf
  rw [none]
  rintro _ ⟨⟩

theorem massLawOf_some {s : State} {f : Furnace} {h : Heat} (heat : heatOf s f = some h) (law : HeatMassed h) : MassLawOf s f := by
  unfold MassLawOf
  rw [heat]
  rintro _ ⟨⟩
  exact law

/-- The heats and the permit over a change of one furnace: what the mass law asks of it. -/
structure MassMove (f : Furnace) (s t : State) : Prop where
  other : heatOf t (otherFurnace f) = heatOf s (otherFurnace f)
  own : MassLawOf t f
  pouring : isTapping s f = true → bathMassOf t f = bathMassOf s f
  permit : t.tap.permit = s.tap.permit ∨ t.tap.permit = none

theorem MassLaw.each {s : State} (h : MassLaw s) (f : Furnace) : MassLawOf s f := by
  obtain ⟨-, a, b, -⟩ := h
  cases f <;> assumption

/-- A permit that holds a weight is granted, and its heat TAPPING (R124, R133). -/
theorem TapLaw.tapping_of_weight {s : State} (h : TapLaw s) (on : s.powered = true) {p : Permit} (held : s.tap.permit = some p)
    {w : Weight} (weighed : p.weight = some w) : isTapping s p.furnace = true := by
  have holds := tapLaw_iff.mp h
  refine (holds.tapping on _).mpr (grantedFor_iff.mpr ⟨p, held, ?_, rfl⟩)
  cases state : p.state with
  | granted => rfl
  | pending =>
    rw [holds.weight p held state] at weighed
    cases weighed

/-- The mass law where the permit stands or has gone and a TAPPING heat keeps its bath. -/
theorem MassLaw.of_baths {s t : State} (h : MassLaw s) (on : s.powered = true) (law : TapLaw t)
    (masses : ∀ f, MassLawOf t f) (pouring : ∀ f, isTapping s f = true → bathMassOf t f = bathMassOf s f)
    (permit : t.tap.permit = s.tap.permit ∨ t.tap.permit = none) : MassLaw t := by
  refine ⟨law, masses .a, masses .b, fun p held w weighed => ?_⟩
  rcases permit with same | gone
  · rw [same] at held
    rw [pouring _ (h.1.tapping_of_weight on held weighed)]
    exact h.2.2.2 p held w weighed
  · rw [gone] at held; cases held

theorem MassMove.massLaw {f : Furnace} {s t : State} (m : MassMove f s t) (h : MassLaw s) (on : s.powered = true)
    (law : TapLaw t) : MassLaw t := by
  refine h.of_baths on law (fun g => ?_) (fun g tapping => ?_) m.permit
  · rcases furnace_cases f g with rfl | rfl
    · exact m.own
    · exact (h.each _).congr m.other
  · rcases furnace_cases f g with rfl | rfl
    · exact m.pouring tapping
    · exact bathMassOf_of_heatOf m.other

theorem MassLaw.of_heats {s t : State} (h : MassLaw s) (on : s.powered = true) (law : TapLaw t)
    (heats : ∀ f, heatOf t f = heatOf s f) (permit : t.tap.permit = s.tap.permit ∨ t.tap.permit = none) : MassLaw t :=
  h.of_baths on law (fun f => (h.each f).congr (heats f)) (fun f _ => bathMassOf_of_heatOf (heats f)) permit

/-! ### The moves -/

theorem endAssignment_permit (f : Furnace) (r : Reason) (s : State) :
    (endAssignment f r s).tap.permit = s.tap.permit ∨ (endAssignment f r s).tap.permit = none := by
  unfold endAssignment
  split
  · next p _ => exact .inr (refusePermit_tap p r false s).2.1
  · split
    · exact .inl rfl
    · split <;> exact .inl rfl

theorem MassMove.put {f : Furnace} {h h' : Heat} {cap : Nat} {s t : State} (heat : heatOf s f = some h)
    (law : MassLawOf s f) (revised : HeatRevised cap h h') (now : t.heat = (setHeat f h' s).heat)
    (permit : t.tap.permit = s.tap.permit ∨ t.tap.permit = none) : MassMove f s t := by
  have holds : heatOf t f = some h' := (heatOf_of_heat now f).trans (heatOf_setHeat_same f h' s)
  refine ⟨(heatOf_of_heat now _).trans (heatOf_setHeat_other h' s (otherFurnace_ne f)),
    massLawOf_some holds (revised.massed (law h heat)), fun tapping => ?_, permit⟩
  rw [isTapping_of_heatOf heat] at tapping
  unfold bathMassOf
  rw [holds, heat]
  exact revised.pouring (by simpa using tapping)

/-- A heat that was not TAPPING gives way to another, or to none. -/
theorem MassMove.idle {f : Furnace} {s t : State} (idle : isTapping s f = false)
    (other : heatOf t (otherFurnace f) = heatOf s (otherFurnace f)) (own : MassLawOf t f)
    (permit : t.tap.permit = s.tap.permit ∨ t.tap.permit = none) : MassMove f s t :=
  ⟨other, own, fun tapping => absurd (idle.symm.trans tapping) (by decide), permit⟩

theorem closeHeat_permit (f : Furnace) (h : Heat) (reason : CloseReason) (s : State) :
    (closeHeat f h reason s).tap.permit = s.tap.permit ∨ (closeHeat f h reason s).tap.permit = none := by
  rw [(closeHeat_tap f h reason s).permit]
  exact endAssignment_permit f .cancelled (writeSummary f h reason s)

/-- A completed tap (R13): the permit ends, its heat holds what is left, and no other heat is TAPPING. -/
theorem tapFinished_massLaw {s : State} {p : Permit} {mass : Nat} {clamped timeout : Bool} (h : MassLaw s)
    (on : s.powered = true) (held : s.tap.permit = some p) (granted : p.state = .granted)
    (weighed : mass = 0 ∨ ∃ w ∈ p.weight, w.mass = mass) : MassLaw (tapFinished p mass clamped timeout s) := by
  have law := tapFinished_tapLaw (mass := mass) (clamped := clamped) (timeout := timeout) h.1 on held granted
  have tapping : isTapping s p.furnace = true :=
    ((tapLaw_iff.mp h.1).tapping on _).mpr (grantedFor_iff.mpr ⟨p, held, granted, rfl⟩)
  refine ⟨law, ?_⟩
  have masses : ∀ f, MassLawOf (tapFinished p mass clamped timeout s) f := fun f => by
    have heats := tapFinished_heat p mass clamped timeout s
    obtain ⟨-, other, -⟩ := heatTakesTap_tap (f := p.furnace) (mass := mass) (clamped := clamped) (timeout := timeout) held granted
    rcases furnace_cases p.furnace f with rfl | rfl
    · cases e : heatOf s p.furnace with
      | none => rw [isTapping_none e] at tapping; cases tapping
      | some x =>
        by_cases empty : (completeHeat mass clamped timeout x).bathMass = 0
        · rw [heatTakesTap_emptied mass clamped timeout e empty] at heats
          exact massLawOf_none ((heatOf_of_heat heats _).trans (closeHeat_empty _ _ _ _))
        · rw [heatTakesTap_left mass clamped timeout e empty] at heats
          refine massLawOf_some ((heatOf_of_heat heats _).trans (heatOf_setHeat_same _ _ _)) ?_
          have massed : HeatMassed x := h.each p.furnace x e
          rw [isTapping_of_heatOf e] at tapping
          refine completeHeat_massed massed (massed.2 (by simpa using tapping)) ?_
          rcases weighed with rfl | ⟨w, mem, rfl⟩
          · exact Nat.zero_le _
          · have fits := h.2.2.2 p held w mem
            unfold bathMassOf at fits
            rw [e] at fits
            exact fits
    · exact (h.each _).congr ((heatOf_of_heat heats _).trans other)
  exact ⟨masses .a, masses .b, by rintro _ ⟨⟩⟩

theorem granted_massLaw {s : State} {p : Permit} (h : MassLaw s) (on : s.powered = true) (held : s.tap.permit = some p)
    (pending : p.state = .pending) : MassLaw (grantPermit p s) := by
  have law := granted_tapLaw h.1 held pending
  have holds := tapLaw_iff.mp h.1
  have noWeight := holds.weight p held pending
  have ready : isTapReady s p.furnace = true := holds.pending _ trivial (pendingFor_iff.mpr ⟨p, held, pending, rfl⟩)
  obtain ⟨permit, other, own⟩ : (grantPermit p s).tap.permit = some { p with
        state := .granted, confirm := none, grantedAt := some (now s), use := some 0 }
      ∧ heatOf (grantPermit p s) (otherFurnace p.furnace) = heatOf s (otherFurnace p.furnace)
      ∧ MassLawOf (grantPermit p s) p.furnace := by
    cases e : heatOf s p.furnace with
    | none => rw [isTapReady_none e] at ready; cases ready
    | some x =>
      have massed : HeatMassed x := h.each p.furnace x e
      rw [grantPermit_eq p x s e]
      refine ⟨rfl, heatOf_congr (by simp [grantedState]), massLawOf_some
        (h := { x with state := .tapping, openTap := some (newTap s x (ladleOf s p.requestId) p.requestId) }) ?_
        ⟨massed.1, fun _ => rfl⟩⟩
      exact heatOf_setHeat_same _ _ s
  have masses : ∀ f, MassLawOf (grantPermit p s) f := fun f => by
    rcases furnace_cases p.furnace f with rfl | rfl
    · exact own
    · exact (h.each _).congr other
  refine ⟨law, masses .a, masses .b, ?_⟩
  rw [permit]
  rintro _ ⟨⟩ w weighed
  rw [show p.weight = some w from weighed] at noWeight
  cases noWeight

/-- A withdrawn permit's heat goes on without its open tap (R131). -/
theorem heatWithdrawn_masses {s : State} {f : Furnace} (h : MassLaw s) (g : Furnace) : MassLawOf (heatWithdrawn f s) g := by
  unfold heatWithdrawn
  cases e : heatOf s f with
  | none =>
    rw [editHeat_none _ e]
    exact h.each g
  | some x =>
    rw [editHeat_some _ e]
    rcases furnace_cases f g with rfl | rfl
    · have massed : HeatMassed x := h.each _ x e
      exact massLawOf_some (heatOf_setHeat_same _ _ _) (massed.idle (by simp) rfl rfl rfl rfl)
    · exact (h.each _).congr (heatOf_setHeat_other _ s (otherFurnace_ne f))

theorem TableMove.massLaw {s t : State} (m : TableMove s t) (h : MassLaw s) (on : s.powered = true) : MassLaw t := by
  have law := m.tapLaw h.1 on
  cases m with
  | @edit f x x' heat revised ready => exact (MassMove.put heat (h.each f) revised rfl (.inl rfl)).massLaw h on law
  | @leave u f x x' r heat revised posted =>
    refine (MassMove.put heat (h.each f) revised ?_ ?_).massLaw h on law
    · rw [leaveReady_heat, posted.1]
    · have permit := endAssignment_permit f r u
      rw [show u.tap = s.tap by rw [posted.1]; rfl] at permit
      exact permit
  | @slotSide f x same => exact h.of_heats on law (setFurnaceSlot_heatOf same) (.inl rfl)
  | tapSide queue permit => exact h.of_heats on law (fun _ => rfl) (.inl permit)
  | assign | remove | append => exact h.of_heats on law (fun _ => rfl) (.inl rfl)
  | pend assigned free => exact ⟨law, h.2.1, h.2.2.1, by rintro _ ⟨⟩ w weighed; cases weighed⟩
  | permit held same weight =>
    refine ⟨law, h.2.1, h.2.2.1, ?_⟩
    rintro _ ⟨⟩ w weighed
    rw [same.2.1]
    rcases weight with kept | ⟨-, fits⟩
    · exact h.2.2.2 _ held w (kept ▸ weighed)
    · exact fits w weighed
  | @refuse p r remove held pending =>
    exact h.of_heats on law (heatOf_of_heat (refusePermit_heat p r remove s)) (.inr (refusePermit_tap p r remove s).2.1)
  | grant held pending => exact granted_massLaw h on held pending
  | @withdraw p held granted =>
    have masses : ∀ f, MassLawOf (permitWithdrawn p s) f := fun f => by
      refine MassLawOf.congr (s := heatWithdrawn p.furnace s) ?_ (heatOf_of_heat (permitWithdrawn_heat p s) f)
      exact heatWithdrawn_masses h f
    exact ⟨law, masses .a, masses .b, by rw [(permitWithdrawn_tap p s).2.1]; rintro _ ⟨⟩⟩
  | complete clamped timeout held granted weighed => exact tapFinished_massLaw h on held granted weighed
  | @close f x reason heat idle =>
    refine (MassMove.idle (f := f) ?_ (closeHeat_heatOf_other f x reason s) (massLawOf_none (closeHeat_empty f x reason s))
      (closeHeat_permit f x reason s)).massLaw h on law
    rw [isTapping_of_heatOf heat]
    simpa using idle
  | @succeed f x heat idle =>
    have notTapping : isTapping s f = false := by
      rw [isTapping_of_heatOf heat]
      simpa using idle
    refine (MassMove.idle (f := f) (t := succeeded f x s) notTapping ?_ ?_ (closeHeat_permit f x .closed s)).massLaw h on law
    · exact (heatOf_setHeat_other _ _ (otherFurnace_ne f)).trans (closeHeat_heatOf_other f x .closed s)
    · exact massLawOf_some (heatOf_setHeat_same f _ _) (successorOf_massed _ f idle)
  | @opened f x free opens =>
    exact (MassMove.idle (f := f) (isTapping_none free) (heatOf_setHeat_other _ s (otherFurnace_ne f))
      (massLawOf_some (heatOf_setHeat_same f x s) ⟨opens.mass, fun tapping => absurd tapping opens.state.1⟩)
      (.inl rfl)).massLaw h on law
  | @emptied f free =>
    refine (MassMove.idle (f := f) (t := setSlot f .empty s) (isTapping_none free) ?_ (massLawOf_none ?_)
      (.inl rfl)).massLaw h on law
    · unfold heatOf
      rw [slotOf_setSlot_other _ _ (otherFurnace_ne f)]
    · exact heatOf_none_of_slot (.inl (slotOf_setSlot_same f .empty s))

/-! ### The step law -/

theorem Move.massLaw {reset : Option Circuit} {s t : State} (m : Move reset s t) (h : s.powered = true ∧ MassLaw s) :
    t.powered = true ∧ MassLaw t := by
  obtain ⟨on, law⟩ := h
  refine ⟨m.stands.powered.trans on, ?_⟩
  rcases m.heat with table | ⟨heat, tap⟩
  · exact table.massLaw law on
  · exact law.of_heats on (law.1.of_heats heat tap m.stands.powered m.stands.loading) (heatOf_of_heat heat) (.inl (by rw [tap]))

theorem Moves.massLaw {reset : Option Circuit} {s t : State} (m : Moves reset s t) (h : s.powered = true ∧ MassLaw s) :
    t.powered = true ∧ MassLaw t := m.keep (fun _ _ move => move.massLaw) h

/-- The mass law without a permit. -/
theorem massLaw_of_none {t : State} (law : TapLaw t) (permit : t.tap.permit = none) (masses : ∀ f, MassLawOf t f) :
    MassLaw t := ⟨law, masses .a, masses .b, by rw [permit]; rintro _ ⟨⟩⟩

theorem HeatsRevised.masses {s t : State} (r : HeatsRevised s t) {f : Furnace} (h : MassLawOf s f) : MassLawOf t f := by
  rcases r.2 f with ⟨-, none⟩ | ⟨x, y, was, is, revised⟩
  · exact massLawOf_none none
  · exact massLawOf_some is (revised.massed (h x was))

/-- A millisecond, in which no heat changes and the permit's weight stands. -/
theorem ticked_massLaw {s t : State} (h : MassLaw s) (law : TapLaw t) (heat : t.heat = s.heat)
    (permit : t.tap.permit = s.tap.permit.map Permit.tick) : MassLaw t := by
  have masses : ∀ f, MassLawOf t f := fun f => (h.each f).congr (heatOf_of_heat heat f)
  refine ⟨law, masses .a, masses .b, fun p held w weighed => ?_⟩
  have held : s.tap.permit.map Permit.tick = some p := permit ▸ held
  obtain ⟨p', held', rfl⟩ := Option.map_eq_some_iff.mp held
  rw [bathMassOf_of_heatOf (heatOf_of_heat heat _)]
  exact h.2.2.2 p' held' w weighed

theorem StepKind.massLaw {i : Option Instr} {s t : State} (k : StepKind s i t) (h : MassLaw s) : MassLaw t := by
  have law := k.tapLaw h.1
  cases k with
  | cold l => exact massLaw_of_none law rfl fun f => massLawOf_none (cold_heatOf _ _ _ f)
  | warm l =>
    refine massLaw_of_none law rfl fun f => ?_
    have heat := warm_heatOf l s f
    cases e : heatOf s f with
    | none =>
      rw [e] at heat
      exact massLawOf_none heat
    | some x =>
      rw [e] at heat
      exact massLawOf_some heat (warmHeat_massed (h.each f x e))
  | loss => exact massLaw_of_none law rfl fun f => (h.each f).congr (loss_heatOf s f)
  | load on waiting ack first derived rest =>
    have frame := (loadBegun_only (goodBlock ack s.sett.block) s).frame
    have began : (loadBegun (goodBlock ack s.sett.block) s).powered = true := by rw [frame]; exact on
    have permit : (loadBegun (goodBlock ack s.sett.block) s).tap.permit = none := by
      rw [frame]
      exact ((tapLaw_iff.mp h.1).loads waiting).2
    have loaded := massLaw_of_none (loadBegun_tapLaw h.1 waiting) permit fun f =>
      (loadBegun_heatsRevised _ s).masses (h.each f)
    exact (rest.massLaw (first.massLaw ⟨began, loaded⟩)).2
  | period on | onPhase on =>
    unfold putPulse at law ⊢
    rw [(putAllotment_frame _ s).1] at law ⊢
    exact ⟨law, h.2.1, h.2.2.1, h.2.2.2⟩
  | ms on =>
    rw [tickClock_shape] at law ⊢
    exact ticked_massLaw h law rfl rfl
  | dark off =>
    rw [tickClock_shape] at law ⊢
    exact ⟨law, h.2.1, h.2.2.1, h.2.2.2⟩
  | buffered | same => exact h
  | moves on reset allowed moves => exact (moves.massLaw ⟨on, h⟩).2

/-- Settles O52. -/
theorem stepKeepsMassLaw : Obligations.StepKeepsMassLaw :=
  step_keeps (P := MassLaw)
    (fun _ _ h => ⟨h.1.of_heats rfl rfl rfl rfl, h.2.1, h.2.2.1, h.2.2.2⟩) fun _ _ _ k h => k.massLaw h

end Sys2Proof.Machine
end


section
/-! The allotment over the moves: the pair handed over, the pulse timers, and the records while the settings are being
loaded (R57, R58, R60, R63). -/

namespace Sys2Proof.Machine

variable {reset : Option Circuit}

/-! ### What a move makes of the records and the held pair -/

/-- Melt requests apart, the records and the held pair stand. -/
def SameOutputs (s t : State) : Prop :=
  (∀ f, t.allot.out.get f = { s.allot.out.get f with meltRequest := (t.allot.out.get f).meltRequest })
    ∧ t.stage.held = s.stage.held

theorem SameOutputs.of_allot {s t : State} (allot : t.allot.out = s.allot.out) (held : t.stage.held = s.stage.held) :
    SameOutputs s t := ⟨fun f => by rw [allot], held⟩

theorem takeTrip_held (mask : PerFurnace Bool) (s : State) : (takeTrip mask s).stage.held = s.stage.held :=
  (Stage.kick_held _).1

theorem tripCircuit_outputs (c : Circuit) (cause : TripCause) (s : State) :
    (tripCircuit c cause s).allot = s.allot ∧ (tripCircuit c cause s).stage.held = s.stage.held := by
  refine ⟨by rw [tripCircuit_shape], ?_⟩
  unfold tripCircuit
  dsimp only
  split
  · show (assertBreaker _).stage.held = _
    rw [assertBreaker_stage]
    exact takeTrip_held _ _
  · exact takeTrip_held _ _

theorem tripForLoop_outputs (c : Circuit) (s : State) :
    (tripForLoop c s).allot = s.allot ∧ (tripForLoop c s).stage.held = s.stage.held := by
  unfold tripForLoop
  split
  · exact ⟨rfl, rfl⟩
  · exact tripCircuit_outputs _ _ _

theorem enterLoopFail_outputs (cause : LoopCause) (s : State) :
    (enterLoopFail cause s).allot = s.allot ∧ (enterLoopFail cause s).stage.held = s.stage.held := by
  obtain ⟨allotA, heldA⟩ := tripForLoop_outputs .coilA (setLoop .loopFail cause s.prot.loop.standbyLatch s)
  obtain ⟨allotB, heldB⟩ := tripForLoop_outputs .coilB (tripForLoop .coilA (setLoop .loopFail cause s.prot.loop.standbyLatch s))
  obtain ⟨allotC, heldC⟩ := tripForLoop_outputs .cabinet
    (tripForLoop .coilB (tripForLoop .coilA (setLoop .loopFail cause s.prot.loop.standbyLatch s)))
  unfold enterLoopFail
  rw [assertBreaker_shape]
  exact ⟨allotC.trans (allotB.trans allotA), heldC.trans (heldB.trans heldA)⟩

/-- Only the computation changes a record but in its melt request, and only it hands the pair over. -/
theorem Move.outputs {s t : State} (m : Move reset s t) : t = allocate s ∨ SameOutputs s t := by
  cases m with
  | allots => exact .inl rfl
  | table m => exact .inr ⟨fun f => (m.only.records.2 f).1, by rw [m.stage]⟩
  | meltRequest f n =>
    refine .inr ⟨fun g => ?_, rfl⟩
    simp only [setMeltRequest_allot, PerFurnace.get_set]
    split
    · next e => rw [e]
    · rfl
  | kicks => exact .inr (.of_allot rfl (Stage.kick_held _).1)
  | tripTaken mask => exact .inr (.of_allot rfl (takeTrip_held mask s))
  | stage held law => exact .inr (.of_allot rfl held)
  | trips =>
    rw [assertBreaker_shape]
    exact .inr (.of_allot rfl rfl)
  | loopFail cause =>
    obtain ⟨allot, held⟩ := enterLoopFail_outputs cause s
    exact .inr (.of_allot (by rw [allot]) held)
  | posts | postsTo | port | leakCarried | clock | scan | pumps | settings | working | decks | stuck | breakerOpens
  | breakerCloses | breakerBack | resume | mode | shed | circuit | reset | pressure | loop =>
    exact .inr (.of_allot rfl rfl)

/-! ### The pair and the pulse rule -/

theorem SameOutputs.handed {s t : State} (h : SameOutputs s t) (law : PairHandedOver s) : PairHandedOver t := by
  obtain ⟨records, held⟩ := h
  unfold PairHandedOver at *
  have a := records .a
  have b := records .b
  rw [held, law]
  unfold pairOf PerFurnace.map
  simp only [PerFurnace.get] at a b
  rw [a, b]

theorem Move.handed {s t : State} (m : Move reset s t) (law : PairHandedOver s) : PairHandedOver t := by
  rcases m.outputs with rfl | same
  · exact allocate_handed s law
  · exact same.handed law

theorem Move.pulseRule {s t : State} (m : Move reset s t) (law : ∀ f, PulseRule (s.allot.out.get f)) (f : Furnace) :
    PulseRule (t.allot.out.get f) := by
  rcases m.outputs with rfl | ⟨records, -⟩
  · exact allocate_pulse s law f
  · rw [records f]
    exact law f

/-! ### The start of a pulse period -/

/-- An output in PULSE mode has kept its period, or has started one (R57, R58). -/
def PulseFollows (x y : AllotRec) : Prop :=
  y.mode = .pulse →
    (x.mode = .pulse ∧ y.duty = x.duty ∧ y.phase = x.phase ∧ y.period = x.period)
      ∨ (y.phase = some .on ∧ y.period = some 0 ∧ y.duty.isSome = true)

theorem PulseFollows.refl (x : AllotRec) : PulseFollows x x := fun pulse => .inl ⟨pulse, rfl, rfl, rfl⟩

theorem PulseFollows.trans {x y z : AllotRec} (h : PulseFollows x y) (g : PulseFollows y z) : PulseFollows x z := by
  intro pulse
  rcases g pulse with ⟨was, duty, phase, period⟩ | started
  · rw [duty, phase, period]
    exact h was
  · exact .inr started

theorem PulseFollows.entered {x y : AllotRec} (h : PulseFollows x y) : PulseEntered x y := fun pulse was => by
  rcases h pulse with kept | started
  · exact absurd kept.1 was
  · exact started

theorem PulseComputed.follows {x y : AllotRec} (h : PulseComputed x y) : PulseFollows x y := by
  obtain ⟨entered, kept⟩ := h
  intro pulse
  by_cases was : x.mode = .pulse
  · have same := kept pulse
    rw [if_pos was] at same
    exact .inl ⟨was, same⟩
  · exact .inr (entered pulse was)

theorem Moves.pulseFollows {s t : State} (m : Moves reset s t) (f : Furnace) :
    PulseFollows (s.allot.out.get f) (t.allot.out.get f) := by
  induction m with
  | refl => exact .refl _
  | tail _ m ih =>
    refine ih.trans ?_
    rcases m.outputs with rfl | ⟨records, -⟩
    · exact ((allocate_frame _).2.1.2 f).2.follows
    · rw [records f]
      exact fun pulse => .inl ⟨pulse, rfl, rfl, rfl⟩

/-! ### The allotment while the settings are being loaded -/

/-- The allotment stands at its reset values, with the budget of the defaults (R44, R63). -/
def AllotmentAtRest (s : State) : Prop := BudgetRule s ∧ s.allot.out = ⟨AllotRec.reset, AllotRec.reset⟩

/-- The budget is read from the settings and the shed state. -/
theorem BudgetRule.congr {s t : State} (h : BudgetRule s) (working : t.sett.working = s.sett.working)
    (shed : t.allot.shed = s.allot.shed) (ceiling : t.allot.ceiling = s.allot.ceiling)
    (budget : t.allot.budget = s.allot.budget) : BudgetRule t := by
  unfold BudgetRule supplyRating shedCeiling demandCeiling setting at *
  rw [working, shed, ceiling, budget]
  exact h

theorem AllotmentAtRest.congr {s t : State} (h : AllotmentAtRest s) (working : t.sett.working = s.sett.working)
    (allot : t.allot = s.allot) : AllotmentAtRest t :=
  ⟨h.1.congr working (by rw [allot]) (by rw [allot]) (by rw [allot]), by rw [allot]; exact h.2⟩

theorem RecordsStand.atRest {x y : Allotment} (h : RecordsStand x y) (rest : x.out = ⟨AllotRec.reset, AllotRec.reset⟩) :
    y.out = ⟨AllotRec.reset, AllotRec.reset⟩ := by
  have each : ∀ f, y.out.get f = AllotRec.reset := fun f => by
    obtain ⟨record, melt⟩ := h.2 f
    rw [rest, get_resetRecords] at record melt
    rw [record]
    rcases melt with e | e <;> rw [e] <;> rfl
  have a := each .a
  have b := each .b
  cases e : y.out with
  | mk p q =>
    rw [e] at a b
    exact congr (congrArg PerFurnace.mk a) b

theorem Move.atRest {s t : State} (m : Move reset s t) (waiting : loading s = true) (h : AllotmentAtRest s) :
    AllotmentAtRest t := by
  obtain ⟨budget, out⟩ := id h
  cases m with
  | table m =>
    have only := m.only
    have records := only.records
    exact ⟨budget.congr (by rw [only.frame]) (by rw [records.1]) (by rw [records.1]) (by rw [records.1]),
      records.atRest out⟩
  | settings working memory channel => exact h.congr working rfl
  | working _ _ _ loaded => exact absurd (loaded.symm.trans waiting) (by decide)
  | meltRequest _ _ loaded => exact absurd (loaded.symm.trans waiting) (by decide)
  | allots =>
    unfold allocate
    rw [if_pos waiting]
    exact h
  | shed active => exact ⟨setBudget_budget _, out⟩
  | trips =>
    rw [assertBreaker_shape]
    exact h.congr rfl rfl
  | loopFail cause =>
    refine h.congr ?_ (enterLoopFail_outputs cause s).1
    unfold enterLoopFail
    rw [assertBreaker_shape]
    show (tripForLoop _ (tripForLoop _ (tripForLoop _ _))).sett.working = _
    rw [tripForLoop_sett, tripForLoop_sett, tripForLoop_sett]
    rfl
  | posts | postsTo | port | leakCarried | clock | scan | pumps | decks | stuck | breakerOpens
  | breakerCloses | breakerBack | resume | mode | kicks | tripTaken | stage | circuit | reset | pressure | loop =>
    exact h.congr rfl rfl

theorem Moves.atRest {s t : State} (m : Moves reset s t) (waiting : loading s = true) (h : AllotmentAtRest s) :
    AllotmentAtRest t :=
  (m.keep (P := fun x => loading x = true ∧ AllotmentAtRest x)
    (fun _ _ move ⟨l, rest⟩ => ⟨move.stands.loading.trans l, move.atRest l rest⟩) ⟨waiting, h⟩).2

theorem allotmentCurrent_loading {s : State} (waiting : loading s = true) : AllotmentCurrent s ↔ AllotmentAtRest s := by
  unfold AllotmentCurrent
  rw [waiting, if_pos rfl]
  exact Iff.rfl

end Sys2Proof.Machine
end


section
/-! The allotment is current after every operation that ends a command: from its inputs, or computed again (R59). -/

namespace Sys2Proof.Machine

/-! ### What the computation reads -/

/-- What the allotment reads of a heat (R40, R45, R53). -/
def heatInputs (h : Heat) : HeatState × Option Nat × Nat × Nat := (h.state, h.estimate, h.holdTarget, h.classStamp)

/-- The inputs of the computation stand (R40, R44, R45, R48 to R53). -/
structure InputsStand (s t : State) : Prop where
  heats : ∀ f, (heatOf t f).map heatInputs = (heatOf s f).map heatInputs
  stopped : ∀ f, (t.heat.slots.get f).stopped = (s.heat.slots.get f).stopped
  shop : t.shop.state = s.shop.state
  link : t.stage.link = s.stage.link
  last : t.stage.last = s.stage.last
  circuits : ∀ c, (circuitOf t c).state = (circuitOf s c).state
  granted : ∀ f, grantedFor t f = grantedFor s f
  pending : ∀ f, pendingFor t f = pendingFor s f
  tilt : ∀ f, tiltOf t f = tiltOf s f
  working : t.sett.working = s.sett.working

/-- The records stand, a period that runs with the time it has counted apart. -/
structure RecordsTicked (x y : Allotment) : Prop where
  out : ∀ f, ∃ p, y.out.get f = { x.out.get f with period := p } ∧ ((x.out.get f).period = none → p = none)
  shed : y.shed = x.shed
  ceiling : y.ceiling = x.ceiling
  budget : y.budget = x.budget
  priority : y.priority = x.priority

theorem RecordsTicked.refl (x : Allotment) : RecordsTicked x x := ⟨fun f => ⟨_, rfl, id⟩, rfl, rfl, rfl, rfl⟩

theorem RecordsTicked.of_eq {x y : Allotment} (same : y = x) : RecordsTicked x y := same ▸ .refl x

section
variable {s t : State} (h : InputsStand s t)
include h

theorem InputsStand.setting (n : Nat) : setting t n = setting s n := by
  unfold Machine.setting
  rw [h.working]

theorem InputsStand.askingClass (f : Furnace) : askingClass t f = askingClass s f := by
  have heats := h.heats f
  unfold Machine.askingClass
  cases was : heatOf s f with
  | none =>
    rw [was, Option.map_none, Option.map_eq_none_iff] at heats
    rw [heats]
  | some x =>
    rw [was] at heats
    obtain ⟨y, is, same⟩ := Option.map_eq_some_iff.mp heats
    obtain ⟨state, estimate, -, -⟩ : y.state = x.state ∧ y.estimate = x.estimate ∧ y.holdTarget = x.holdTarget
      ∧ y.classStamp = x.classStamp := by simpa [heatInputs] using same
    rw [is]
    dsimp only
    rw [state, estimate]

theorem InputsStand.stampOf (f : Furnace) : stampOf t f = stampOf s f := by
  have heats := congrArg (Option.map fun x : HeatState × Option Nat × Nat × Nat => x.2.2.2) (h.heats f)
  rw [Option.map_map, Option.map_map] at heats
  unfold Machine.stampOf
  exact congrArg (·.getD 0) heats

theorem InputsStand.asked (f : Furnace) (melt : (t.allot.out.get f).meltRequest = (s.allot.out.get f).meltRequest) :
    asked t f = asked s f := by
  have heats := h.heats f
  unfold Machine.asked
  cases was : heatOf s f with
  | none =>
    rw [was, Option.map_none, Option.map_eq_none_iff] at heats
    rw [heats]
  | some x =>
    rw [was] at heats
    obtain ⟨y, is, same⟩ := Option.map_eq_some_iff.mp heats
    obtain ⟨state, estimate, target, -⟩ : y.state = x.state ∧ y.estimate = x.estimate ∧ y.holdTarget = x.holdTarget
      ∧ y.classStamp = x.classStamp := by simpa [heatInputs] using same
    rw [is]
    have hold : holdAsked t f y = holdAsked s f x := by
      unfold holdAsked bankTarget lossKw effPct holdGain outputMax
      simp only [h.setting, h.shop, estimate, target]
    dsimp only
    unfold tapCap
    rw [state, estimate, melt, hold, h.setting]

theorem InputsStand.boundsOn (f : Furnace) : boundsOn t f = boundsOn s f := by
  have tapping : (heatOf t f).any (fun h => h.state == .tapping) = (heatOf s f).any (fun h => h.state == .tapping) := by
    have heats := congrArg (·.any fun x : HeatState × Option Nat × Nat × Nat => x.1 == .tapping) (h.heats f)
    rw [Option.any_map, Option.any_map] at heats
    exact heats
  unfold Machine.boundsOn outputMax deratePct tapCap bankCap
  simp only [h.setting, h.circuits, h.last, h.link, h.tilt, h.granted, h.pending, h.shop, h.askingClass, h.stopped, tapping]

theorem InputsStand.limitedBy (f : Furnace) (melt : (t.allot.out.get f).meltRequest = (s.allot.out.get f).meltRequest)
    (cap grant available : Nat) : limitedBy t f cap grant available = limitedBy s f cap grant available := by
  unfold Machine.limitedBy minCont
  simp only [h.asked f melt, h.boundsOn, h.setting]

theorem InputsStand.outputRule {f : Furnace} {available : Nat}
    (ticked : ∃ p, t.allot.out.get f = { s.allot.out.get f with period := p } ∧ ((s.allot.out.get f).period = none → p = none))
    (rule : OutputRule s f available) : OutputRule t f available := by
  obtain ⟨p, record, stopped⟩ := ticked
  have melt : (t.allot.out.get f).meltRequest = (s.allot.out.get f).meltRequest := by rw [record]
  obtain ⟨request, cls, cap, grant, factor, cont, pulse, off, contOut, pulseOut, idle⟩ := rule
  unfold OutputRule
  dsimp only
  rw [h.asked f melt, h.askingClass, h.boundsOn, show minCont t f = minCont s f from h.setting _, h.limitedBy f melt, record]
  exact ⟨request, cls, cap, grant, factor, cont, pulse, off, contOut, pulseOut, fun away =>
    ⟨(idle away).1, (idle away).2.1, (idle away).2.2.1, stopped (idle away).2.2.2⟩⟩

/-- With the inputs as they were, records that were current are current (R59). -/
theorem InputsStand.current (r : RecordsTicked s.allot t.allot) (l : loading s = false) (l' : loading t = false)
    (current : AllotmentCurrent s) : AllotmentCurrent t := by
  obtain ⟨budget, rule⟩ := current
  rw [l, if_neg (by decide)] at rule
  refine ⟨budget.congr h.working r.shed r.ceiling r.budget, ?_⟩
  rw [l', if_neg (by decide)]
  obtain ⟨priority, first, second⟩ := rule
  have reserve : ∀ f, (t.allot.out.get f).reserve = (s.allot.out.get f).reserve := fun f => by
    obtain ⟨p, record, -⟩ := r.out f
    rw [record]
  unfold AllotmentRule PriorityRule
  dsimp only
  rw [r.priority, r.budget, reserve]
  simp only [h.askingClass, h.stampOf]
  exact ⟨priority, h.outputRule (r.out _) first, h.outputRule (r.out _) second⟩

end

/-! ### Operations after which the allotment is current -/

/-- Once the settings are loaded the allotment is current. -/
def Current (s : State) : Prop := loading s = false → AllotmentCurrent s

/-- Where neither an input nor a record has changed. -/
theorem Current.of_inputs {s t : State} (h : Current s) (inputs : InputsStand s t) (records : RecordsTicked s.allot t.allot)
    (load : loading t = loading s) : Current t := fun l =>
  inputs.current records (load.symm.trans l) l (h (load.symm.trans l))

/-- Where the parts of the state that the computation reads are the same. -/
theorem Current.of_same {s t : State} (h : Current s) (heat : t.heat = s.heat) (allot : t.allot = s.allot)
    (shop : t.shop.state = s.shop.state) (link : t.stage.link = s.stage.link) (last : t.stage.last = s.stage.last)
    (circuits : t.prot.circuits = s.prot.circuits) (permit : t.tap.permit = s.tap.permit)
    (tilt : t.tap.tilt = s.tap.tilt) (working : t.sett.working = s.sett.working) (load : loading t = loading s) :
    Current t := by
  refine h.of_inputs ⟨fun f => ?_, fun f => by rw [heat], shop, link, last, fun c => ?_, fun f => ?_, fun f => ?_,
    fun f => ?_, working⟩ (.of_eq allot) load
  · rw [heatOf_of_heat heat]
  · unfold circuitOf; rw [circuits]
  · unfold grantedFor; rw [permit]
  · unfold pendingFor; rw [permit]
  · unfold tiltOf; rw [tilt]

/-- Ports alone. -/
theorem Current.of_ports {s t : State} (h : Current s) (frame : t = { s with ports := t.ports }) : Current t := by
  rw [frame]
  exact h

theorem current_ite {c : Prop} [Decidable c] {t u : State} (yes : c → Current t) (no : ¬ c → Current u) :
    Current (if c then t else u) := by
  split
  · next h => exact yes h
  · next h => exact no h

theorem allocate_currentNow (s : State) : Current (allocate s) := fun l =>
  allocate_current s ((allocate_moves (reset := none) s).stands.loading.symm.trans l)

theorem coordinate_currentNow (s : State) : Current (coordinate s) := allocate_currentNow _

theorem recompute_currentNow (s : State) : Current (recompute s) := by
  unfold recompute
  split
  · next waiting => exact fun l => absurd (l.symm.trans waiting) (by decide)
  · exact coordinate_currentNow s

theorem settleHeat_currentNow (f : Furnace) (s : State) : Current (settleHeat f s) := by
  unfold settleHeat
  split
  · next waiting => exact fun l => absurd (l.symm.trans waiting) (by decide)
  · exact coordinate_currentNow _

theorem settleAll_currentNow (s : State) : Current (settleAll s) := by
  unfold settleAll
  split
  · next waiting => exact fun l => absurd (l.symm.trans waiting) (by decide)
  · exact coordinate_currentNow _

theorem Current.post {s : State} (h : Current s) (d : Detail) : Current (post d s) := h.of_ports rfl

theorem Current.setPort {s : State} (h : Current s) (q : Port) (x : PortRec) : Current (setPort q x s) := h.of_ports rfl

/-! ### A step of protection -/

/-- An operation on the circuits, the loop, the scanner and the breaker output: every input but the circuits stands. -/
structure CircuitsOnly (s t : State) : Prop where
  frame : t = { s with shop := t.shop, stage := t.stage, scan := t.scan, prot := t.prot, ports := t.ports }
  shop : t.shop.state = s.shop.state
  link : t.stage.link = s.stage.link
  last : t.stage.last = s.stage.last

theorem CircuitsOnly.trans {s t u : State} (h : CircuitsOnly s t) (g : CircuitsOnly t u) : CircuitsOnly s u :=
  ⟨by rw [g.frame, h.frame], g.shop.trans h.shop, g.link.trans h.link, g.last.trans h.last⟩

theorem ProtOnly.circuitsOnly {s t : State} (h : ProtOnly s t) : CircuitsOnly s t := by
  obtain ⟨frame, shop, handed, -⟩ := h
  exact ⟨by rw [frame], by rw [shop], handed.link, handed.last⟩

theorem CircuitsOnly.current {s t : State} (h : CircuitsOnly s t) (same : ∀ c, (circuitOf t c).state = (circuitOf s c).state)
    (was : Current s) : Current t := by
  have heat : t.heat = s.heat := by rw [h.frame]
  have tap : t.tap = s.tap := by rw [h.frame]
  refine was.of_inputs ⟨fun f => by rw [heatOf_of_heat heat], fun f => by rw [heat], h.shop, h.link, h.last, same,
    fun f => ?_, fun f => ?_, fun f => ?_, by rw [h.frame]⟩ (.of_eq (by rw [h.frame])) (by rw [h.frame]; rfl)
  · unfold grantedFor; rw [tap]
  · unfold pendingFor; rw [tap]
  · unfold tiltOf; rw [tap]

/-- A step of protection that changes the state of no circuit leaves the inputs; one that changes one is followed up. -/
theorem Current.protect {g : State → State} {s : State} (h : Current s) (only : CircuitsOnly s (g s)) :
    Current (protect g s) := by
  unfold Machine.protect settleNamed
  split
  · next a b =>
    refine only.current (fun c => ?_) h
    simp only [furnacesConcerned, Bool.or_eq_false_iff, decide_eq_false_iff_not, Classical.not_not] at a b
    cases c
    · exact a.1.symm
    · exact b.1.symm
    · exact a.2.symm
  · exact settleHeat_currentNow _ _
  · exact settleHeat_currentNow _ _
  · exact settleAll_currentNow _

end Sys2Proof.Machine
end


section
/-! The allotment is current after every request (R59, R142). -/

namespace Sys2Proof.Machine

/-! ### What leaves the inputs -/

/-- The permit with the same state and furnace. -/
theorem Current.permit {s : State} {p p' : Permit} (h : Current s) (held : s.tap.permit = some p)
    (state : p'.state = p.state) (furnace : p'.furnace = p.furnace) : Current (setPermit (some p') s) := by
  refine h.of_inputs ⟨fun _ => rfl, fun _ => rfl, rfl, rfl, rfl, fun _ => rfl, fun f => ?_, fun f => ?_, fun _ => rfl, rfl⟩
    (.refl _) rfl
  · simp only [grantedFor, setPermit_tap, held, state, furnace]
  · simp only [pendingFor, setPermit_tap, held, state, furnace]

/-- The settings manager, but for the working copy and the load. -/
theorem Current.manager {s : State} (h : Current s) (x : SettingsManager) (working : x.working = s.sett.working)
    (load : (x.memory == .loading) = loading s) : Current { s with sett := x } :=
  h.of_same rfl rfl rfl rfl rfl rfl rfl rfl working load

theorem Current.touchChannel {s : State} (h : Current s) (q : Port) : Current (touchChannel q s) :=
  current_ite (fun _ => h.manager _ rfl rfl) fun _ => h

theorem Current.takeChannel {s : State} (h : Current s) (q : Port) : Current (takeChannel q s) :=
  current_ite (fun _ => h.manager _ rfl rfl) fun _ => h

theorem Current.freeChannel {s : State} (h : Current s) : Current (freeChannel s) := h.manager _ rfl rfl

theorem Current.writeSettingValue {s : State} (h : Current s) (q : Port) (n value : Nat) :
    Current (writeSettingValue q n value s) :=
  current_ite (fun _ => h) fun _ => settleAll_currentNow _

theorem resetTaken_circuitsOnly (c : Circuit) (s : State) : CircuitsOnly s (resetTaken c s) := ⟨rfl, rfl, rfl, rfl⟩

/-! ### The requests by kind -/

variable {s : State} (q : Port) (body : List Byte) (h : Current s)
include h

theorem onDeck_current {g : Furnace → State → State × Reply} (each : ∀ f, Current (g f s).1) :
    Current (onDeck q g s).1 := by
  unfold onDeck
  split
  · exact each _
  · exact h

theorem openTaken_current (f : Furnace) (m : Material) (mass : Nat) : Current (openTaken f m mass s).1 := by
  unfold openTaken
  dsimp only
  split
  · exact h
  · exact settleHeat_currentNow _ _

theorem handleOpenHeat_current : Current (handleOpenHeat q body s).1 := by
  refine onDeck_current q h fun f => ?_
  split
  · split
    · exact openTaken_current h _ _ _
    · exact h
  · exact h

theorem chargeTaken_current (f : Furnace) (x : Heat) (m : Material) (mass : Nat) :
    Current (chargeTaken f x m mass s).1 := by
  unfold chargeTaken
  dsimp only
  split
  · exact h
  · exact settleHeat_currentNow _ _

theorem handleAddCharge_current : Current (handleAddCharge q body s).1 := by
  refine onDeck_current q h fun f => ?_
  split
  · exact h
  · split
    · exact h
    · split
      · exact h
      · split
        · exact h
        · exact chargeTaken_current h _ _ _ _

theorem handleSetMeltPower_current : Current (handleSetMeltPower q body s).1 := by
  refine onDeck_current q h fun f => ?_
  dsimp only
  split
  · exact h
  · exact recompute_currentNow _

theorem handleSetHoldTarget_current : Current (handleSetHoldTarget q body s).1 := by
  refine onDeck_current q h fun f => ?_
  dsimp only
  split
  · exact h
  · exact settleHeat_currentNow _ _

theorem handleSetChemistry_current : Current (handleSetChemistry q body s).1 := by
  refine onDeck_current q h fun f => ?_
  split
  · exact h
  · split
    · exact h
    · exact settleHeat_currentNow _ _

omit h in
theorem closeTaken_current (f : Furnace) (x : Heat) : Current (closeTaken f x s).1 := by
  unfold closeTaken
  dsimp only
  split
  · exact settleHeat_currentNow _ _
  · exact settleHeat_currentNow _ _

theorem handleCloseHeat_current : Current (handleCloseHeat q body s).1 := by
  refine onDeck_current q h fun f => ?_
  split
  · exact h
  · split
    · exact h
    · exact closeTaken_current _ _

omit h in
theorem restateUnknown_current (f : Furnace) (mass : Nat) : Current (restateUnknown f mass s).1 := by
  unfold restateUnknown
  dsimp only
  split
  · exact settleHeat_currentNow _ _
  · exact settleHeat_currentNow _ _

theorem handleRestate_current : Current (handleRestate q body s).1 := by
  refine onDeck_current q h fun f => ?_
  split
  · exact h
  · exact restateUnknown_current _ _
  · split
    · exact h
    · exact settleHeat_currentNow _ _

theorem handleFurnaceOn_current : Current (handleFurnaceOn q body s).1 :=
  onDeck_current q h fun _ => recompute_currentNow _

theorem handleTapOpen_current : Current (handleTapOpen q body s).1 := by
  refine onDeck_current q h fun f => ?_
  split
  · split
    · split
      · exact h
      · exact h
    · exact h
  · split
    · exact h.of_same rfl rfl rfl rfl rfl rfl rfl rfl rfl rfl
    · split
      · exact recompute_currentNow _
      · exact h

theorem handleTripReset_current : Current (handleTripReset q body s).1 := by
  unfold handleTripReset
  dsimp only
  split
  · exact h
  · split
    · exact h
    · split
      · exact h.protect (resetTaken_circuitsOnly _ s)
      · exact h

theorem handleResume_current : Current (handleResume q body s).1 := by
  unfold handleResume
  split
  · exact settleAll_currentNow _
  · exact h

theorem handleLinkRestart_current : Current (handleLinkRestart q body s).1 := by
  unfold handleLinkRestart
  split
  · exact recompute_currentNow _
  · exact h

theorem handlePumpReturn_current : Current (handlePumpReturn q body s).1 := by
  have returned : Current (protect returnToMain s) := h.protect (returnToMain_protOnly s).circuitsOnly
  unfold handlePumpReturn
  dsimp only
  split
  · split
    · exact returned
    · exact h
  · split
    · exact returned
    · exact h
  · exact h

omit h in
theorem wakeOnPostTap_current : Current (wakeOnPostTap s) :=
  current_ite (fun _ => settleAll_currentNow _) fun _ => recompute_currentNow _

theorem handlePostTap_current : Current (handlePostTap q body s).1 := by
  unfold handlePostTap
  dsimp only
  split
  · exact h
  · split
    · exact h
    · split
      · exact h
      · split
        · exact h
        · exact wakeOnPostTap_current

theorem handleCancelTap_current : Current (handleCancelTap q body s).1 := by
  unfold handleCancelTap
  dsimp only
  split
  · exact h
  · split
    · exact recompute_currentNow _
    · split
      · exact recompute_currentNow _
      · exact h

theorem weightTaken_current {p : Permit} (held : s.tap.permit = some p) (mass : Nat) :
    Current (weightTaken p mass s).1 := by
  unfold weightTaken
  dsimp only
  split
  · exact settleHeat_currentNow _ _
  · exact h.permit held rfl rfl

theorem handleTapWeight_current : Current (handleTapWeight q body s).1 := by
  unfold handleTapWeight
  dsimp only
  split
  · next p held =>
    split
    · split
      · exact weightTaken_current h held _
      · exact h
    · split
      · exact h
      · split
        · exact h
        · exact h
  · split
    · exact h
    · split
      · exact h
      · exact h

theorem handleBank_current : Current (handleBank q body s).1 := by
  unfold handleBank
  split
  · split
    · exact h
    · exact settleAll_currentNow _
  · exact h
  · exact h
  · exact h

theorem handleWake_current : Current (handleWake q body s).1 := by
  unfold handleWake
  split
  · exact settleAll_currentNow _
  · exact h
  · exact h
  · exact h

theorem handleReadSetting_current : Current (handleReadSetting q body s).1 := by
  unfold handleReadSetting
  dsimp only
  split
  · exact h.touchChannel q
  · exact h.touchChannel q

theorem handleWriteSetting_current : Current (handleWriteSetting q body s).1 := by
  have touched := h.touchChannel q
  unfold handleWriteSetting
  dsimp only
  split
  · exact touched
  · split
    · exact touched
    · split
      · exact touched
      · exact (touched.takeChannel q).writeSettingValue q _ _

theorem handleSaveSettings_current (loaded : loading s = false) : Current (handleSaveSettings q body s).1 := by
  have touched := h.touchChannel q
  unfold handleSaveSettings
  dsimp only
  split
  · exact touched
  · split
    · exact touched
    · have same : loading (takeChannel q (touchChannel q s)) = loading s := by
        unfold takeChannel touchChannel
        split <;> split <;> rfl
      exact (touched.takeChannel q).manager _ rfl (same.trans loaded).symm

theorem handleReleaseChannel_current : Current (handleReleaseChannel q body s).1 := by
  unfold handleReleaseChannel
  split
  · exact h.freeChannel
  · exact h

omit body in
theorem repostKind_current (k : NoticeKind) : Current (repostKind q k s) := by
  cases k with
  | freeze =>
    show Current (repostFreeze q s)
    unfold repostFreeze
    split
    · exact current_ite (fun _ => h.setPort _ _) fun _ => h
    · exact h
  | cooling => exact current_ite (fun _ => h) fun _ => h.setPort _ _
  | leakWarn =>
    show Current (repostLeak q s)
    unfold repostLeak
    split
    · exact h.of_same rfl rfl rfl rfl rfl rfl rfl rfl rfl rfl
    · exact h
  | unpermittedTilt =>
    show Current (repostTilt q s)
    unfold repostTilt
    split
    · exact h.of_same rfl rfl rfl rfl rfl rfl rfl rfl rfl rfl
    · exact h
  | breakerStuck => exact current_ite (fun _ => h.setPort _ _) fun _ => h
  | tapCall | permitResolved | permitWithdrawn | tapDone | tapLong | entryExpired | readyChanged
  | heatClosed | dipResult | dipFailed | pumpChangeover | link | shopState | deckOff | settings => exact h

omit body in
theorem repostKinds_current (kinds : List NoticeKind) : Current (kinds.foldl (fun t k => repostKind q k t) s) := by
  induction kinds generalizing s with
  | nil => exact h
  | cons k rest ih => exact ih (repostKind_current q h k)

omit body in
theorem ackTaken_current (kinds : List (NoticeKind × Nat)) : Current (ackTaken q kinds s).1 :=
  (repostKinds_current q (h.setPort q _) _).setPort q _

theorem handleAckNotices_current : Current (handleAckNotices q body s).1 := by
  unfold handleAckNotices
  split
  · exact h
  · split
    · exact h
    · exact ackTaken_current q h _

theorem handleReadLog_current : Current (handleReadLog q body s).1 := by
  unfold handleReadLog
  split
  · exact h
  · exact h

theorem handleQueryFurnace_current : Current (handleQueryFurnace q body s).1 := by
  unfold handleQueryFurnace
  split
  · exact h
  · exact h

theorem handle_current (k : RequestKind) (loaded : loading s = false) : Current (handle k q body s).1 := by
  cases k with
  | openHeat => exact handleOpenHeat_current q body h
  | addCharge => exact handleAddCharge_current q body h
  | setMeltPower => exact handleSetMeltPower_current q body h
  | setHoldTarget => exact handleSetHoldTarget_current q body h
  | setChemistry => exact handleSetChemistry_current q body h
  | closeHeat => exact handleCloseHeat_current q body h
  | restate => exact handleRestate_current q body h
  | furnaceOn => exact handleFurnaceOn_current q body h
  | tapOpen => exact handleTapOpen_current q body h
  | tripReset => exact handleTripReset_current q body h
  | resume => exact handleResume_current q body h
  | linkRestart => exact handleLinkRestart_current q body h
  | pumpReturn => exact handlePumpReturn_current q body h
  | postTap => exact handlePostTap_current q body h
  | cancelTap => exact handleCancelTap_current q body h
  | tapWeight => exact handleTapWeight_current q body h
  | bank => exact handleBank_current q body h
  | wake => exact handleWake_current q body h
  | readSetting => exact handleReadSetting_current q body h
  | writeSetting => exact handleWriteSetting_current q body h
  | saveSettings => exact handleSaveSettings_current q body h loaded
  | releaseChannel => exact handleReleaseChannel_current q body h
  | readLog => exact handleReadLog_current q body h
  | queryFurnace => exact handleQueryFurnace_current q body h
  | ackNotices => exact handleAckNotices_current q body h
  | setNoticeEnables => exact h.setPort q _
  | queryQueue | queryProtection | queryChannels | queryAllotment | queryShop | readNotices => exact h

/-! ### Taking a request -/

omit body in
theorem answerTo_current (fr : Frame) : Current (answerTo q fr s).1 := by
  unfold answerTo
  split
  · exact h
  · next loaded =>
    split
    · exact h
    · split
      · exact h
      · split
        · exact h
        · exact handle_current q _ h _ (Bool.eq_false_iff.mpr loaded)

omit body in
theorem take_current (fr : Frame) : Current (take q fr s) := (answerTo_current q h fr).setPort q _

omit body in
theorem arrive_current (fr : Frame) : Current (arrive q fr s) := by
  unfold arrive
  dsimp only
  split
  · exact take_current q (h.setPort q _) fr
  · split
    · exact (h.setPort q _).setPort q _
    · exact h.setPort q _

omit body in
theorem receiveFrame_current (fr : Frame) : Current (receiveFrame q fr s) := by
  rw [receiveFrame_arrive]
  exact arrive_current q h fr

omit body in
theorem answerGone_current : Current (answerGone q s) := by
  unfold answerGone
  dsimp only
  split
  · exact h
  · split
    · exact h.setPort q _
    · exact take_current q (h.setPort q _) _

end Sys2Proof.Machine
end


section
/-! The allotment is current after every event (R59). -/

namespace Sys2Proof.Machine

variable {s : State}

/-! ### Events that leave the inputs -/

/-- The scanner alone. -/
theorem Current.scan (h : Current s) (x : Scanner) : Current { s with scan := x } :=
  h.of_same rfl rfl rfl rfl rfl rfl rfl rfl rfl rfl

/-- The stage, but for the link and the last report. -/
theorem Current.stage (h : Current s) (x : Stage) (link : x.link = s.stage.link) (last : x.last = s.stage.last) :
    Current { s with stage := x } := h.of_same rfl rfl rfl link last rfl rfl rfl rfl rfl

theorem Stage.kick_link (x : Stage) : x.kick.link = x.link ∧ x.kick.last = x.last := by
  unfold Stage.kick
  split
  · split
    · exact ⟨rfl, rfl⟩
    · split <;> exact ⟨rfl, rfl⟩
  · exact ⟨rfl, rfl⟩

theorem Current.kick (h : Current s) : Current (kick s) :=
  h.stage _ (Stage.kick_link _).1 (Stage.kick_link _).2

theorem kick_stage_current (h : Current s) (x : Stage) (link : x.link = s.stage.link) (last : x.last = s.stage.last) :
    Current (Machine.kick { s with stage := x }) := (h.stage x link last).kick

theorem Current.takeTrip (h : Current s) (mask : PerFurnace Bool) : Current (takeTrip mask s) :=
  kick_stage_current h _ rfl rfl

/-- The shop, but for its state. -/
theorem Current.shopSide (h : Current s) (x : Shop) (state : x.state = s.shop.state) : Current { s with shop := x } :=
  h.of_same rfl rfl state rfl rfl rfl rfl rfl rfl rfl

theorem Current.assertBreaker (h : Current s) : Current (assertBreaker s) :=
  current_ite (fun _ => h.shopSide _ rfl) fun _ => h

theorem Current.lines (h : Current s) (x : Lines) : Current { s with lines := x } :=
  h.of_same rfl rfl rfl rfl rfl rfl rfl rfl rfl rfl

theorem Current.clock (h : Current s) (x : Clock) : Current { s with clock := x } :=
  h.of_same rfl rfl rfl rfl rfl rfl rfl rfl rfl rfl

theorem Current.failDip (h : Current s) (f : Furnace) (reason : DipFailure) (next : DipState) :
    Current (failDip f reason next s) := (h.scan _).post _

theorem Current.endDip (h : Current s) (f : Furnace) (reason : DipFailure) : Current (endDip f reason s) :=
  current_ite (fun _ => h.failDip f reason _) fun _ => h

/-! ### The breaker and the Deck Off lines -/

theorem breakerChanges_current (h : Current s) (closed : Bool) : Current (breakerChanges closed s) := by
  refine current_ite (fun _ => h) fun _ => current_ite (fun _ => settleAll_currentNow _) fun _ => ?_
  exact current_ite (fun _ => h.of_same rfl rfl rfl rfl rfl rfl rfl rfl rfl rfl) fun _ => settleAll_currentNow _

theorem deckPressed_current (h : Current s) (f : Furnace) : Current (deckPressed f s) :=
  current_ite (fun _ => h) fun _ => recompute_currentNow _

theorem deckHeld_current (h : Current s) (f : Furnace) : Current (deckHeld f s) := by
  refine current_ite (fun _ => Current.post ?_ _) fun _ => h
  have marked : Current (setDeckOff f { s.shop.decks.get f with held := true } s) := h.shopSide _ rfl
  exact current_ite (fun _ => marked.assertBreaker.takeTrip _) fun _ => marked

theorem stuckExpires_current (h : Current s) : Current (stuckExpires s) := by
  refine current_ite (fun _ => ?_) fun _ => h
  exact Current.post (d := .breakerStuck) (h.shopSide _ rfl)

/-! ### The scanner -/

theorem conversionEnds_current (h : Current s) (ch : Chan) (code : BitVec 12) : Current (conversionEnds ch code s) := by
  refine current_ite (fun _ => h.protect ?_) fun _ => h
  refine CircuitsOnly.trans ?_ (handUpdate_protOnly ch _).circuitsOnly
  exact ⟨rfl, rfl, rfl, rfl⟩

theorem channelGoesStale_current (h : Current s) (ch : Chan) : Current (channelGoesStale ch s) := by
  refine current_ite (fun _ => h.protect ?_) fun _ => h
  refine CircuitsOnly.trans ?_ (handUpdate_protOnly ch _).circuitsOnly
  exact ⟨rfl, rfl, rfl, rfl⟩

theorem handResult_current (h : Current s) (f : Furnace) (t samples : Nat) : Current (handResult f t samples s) := by
  unfold handResult
  split
  · exact settleHeat_currentNow _ _
  · exact h.post _

theorem openSample_current (h : Current s) (f : Furnace) (d : DipUnit) : Current (openSample f d s) :=
  current_ite (fun _ => (h.scan _).failDip f _ _) fun _ => h.scan _

theorem goodSample_current (h : Current s) (f : Furnace) (v : Nat) (d : DipUnit) : Current (goodSample f v d s) :=
  current_ite (fun _ => handResult_current (h.scan _) f _ _) fun _ => h.scan _

theorem sampleEnds_current (h : Current s) (f : Furnace) (code : BitVec 12) : Current (sampleEnds f code s) :=
  current_ite (fun _ => current_ite (fun _ => openSample_current ((h.scan _).scan _) f _)
    fun _ => goodSample_current ((h.scan _).scan _) f _ _) fun _ => h

theorem lanceDown_current (h : Current s) (f : Furnace) : Current (lanceDown f s) :=
  current_ite (fun _ => h) fun _ => current_ite (fun _ => h.scan _) fun _ => current_ite
    (fun _ => current_ite (fun _ => ((h.scan _).scan _).post _) fun _ => ((h.scan _).scan _).scan _) fun _ => h.scan _

theorem lanceUp_current (h : Current s) (f : Furnace) : Current (lanceUp f s) := by
  have lowered : Current (setLance f false s) := h.scan _
  unfold lanceUp
  dsimp only
  split
  · exact lowered
  · exact lowered.failDip f _ _
  · exact lowered.scan _

/-! ### Protection -/

theorem mainPumpChanges_current (h : Current s) (active : Bool) : Current (mainPumpChanges active s) :=
  current_ite (fun _ => (h.lines _).protect (enterChangeover_protOnly _ _).circuitsOnly) fun _ => h.lines _

theorem standbyChanges_current (h : Current s) (active : Bool) : Current (standbyChanges active s) :=
  current_ite (fun _ => (h.lines _).protect (enterLoopFail_protOnly _ _).circuitsOnly) fun _ => h.lines _

/-! ### Tilt and the tap timers -/

theorem tiltChanges_current (h : Current s) (f : Furnace) (home forward : Bool) :
    Current (tiltChanges f home forward s) := by
  unfold tiltChanges
  dsimp only
  split
  · next same =>
    rcases same with waiting | same
    · exact fun l => absurd (l.symm.trans waiting) (by decide)
    · refine h.of_inputs ⟨fun _ => rfl, fun _ => rfl, rfl, rfl, rfl, fun _ => rfl, fun _ => rfl, fun _ => rfl, fun g => ?_, rfl⟩
        (.refl _) rfl
      by_cases e : g = f
      · rw [e]
        exact same.symm
      · unfold tiltOf
        dsimp only
        rw [PerFurnace.get_set_other _ _ e]
  · exact settleHeat_currentNow _ _

theorem confirmExpires_current (h : Current s) : Current (confirmExpires s) := by
  unfold confirmExpires
  split
  · exact current_ite (fun _ => recompute_currentNow _) fun _ => h
  · exact h

theorem useExpires_current (h : Current s) : Current (useExpires s) := by
  unfold useExpires
  split
  · exact current_ite (fun _ => settleHeat_currentNow _ _) fun _ => h
  · exact h

theorem tapMaxExpires_current (h : Current s) : Current (tapMaxExpires s) := by
  unfold tapMaxExpires
  split
  · next p held =>
    refine current_ite (fun _ => ?_) fun _ => h
    have marked : Current (setPermit (some { p with longPosted := true }) s) := h.permit held rfl rfl
    exact marked.post _
  · exact h

theorem weightWaitExpires_current (h : Current s) : Current (weightWaitExpires s) := by
  unfold weightWaitExpires
  split
  · exact current_ite (fun _ => settleHeat_currentNow _ _) fun _ => h
  · exact h

/-! ### The stage -/

theorem receiveReport_current (h : Current s) (contents : Option (PerFurnace ReportOutput)) :
    Current (receiveReport contents s) := by
  refine current_ite (fun _ => h) fun _ => current_ite (fun _ => recompute_currentNow _) fun _ => ?_
  cases contents with
  | some out => exact recompute_currentNow _
  | none => exact h.stage _ rfl rfl

theorem receiveStageFrame_current (h : Current s) (kind : Byte) (body : List Byte) :
    Current (receiveStageFrame kind body s) := by
  have dropped : Current (setStageAssembly [] s) := h.stage _ rfl rfl
  rcases receiveStageFrame_cases kind body s with ⟨contents, e⟩ | e | e
  · rw [e]
    exact receiveReport_current dropped contents
  · rw [e]
    exact current_ite (fun _ => dropped) fun _ => recompute_currentNow _
  · rw [e]
    exact dropped

theorem setpointCompletes_current (h : Current s) : Current (setpointCompletes s) := by
  unfold setpointCompletes
  split
  · exact kick_stage_current h.kick _ rfl rfl
  · exact h

theorem tripFrameEnds_current (h : Current s) : Current (tripFrameEnds s) := by
  unfold tripFrameEnds
  split
  · exact kick_stage_current h _ rfl rfl
  · exact h

theorem abortedSetpointEnds_current (h : Current s) (gone : Bool) : Current (abortedSetpointEnds gone s) := by
  unfold abortedSetpointEnds
  split
  · exact current_ite (fun _ => kick_stage_current h _ rfl rfl) fun _ => h
  · exact h

/-! ### The settings memory -/

theorem endSave_current (h : Current s) (r : SaveResult) : Current (endSave r s) := by
  unfold endSave
  split
  · next saving =>
    have loaded : loading s = false := by simp [loading, saving]
    cases r with
    | saved =>
      refine Current.post ?_ _
      exact h.manager _ rfl loaded.symm
    | failed part =>
      refine Current.post ?_ _
      exact h.manager _ rfl loaded.symm
  · exact h

/-! ### The seconds -/

/-- An estimator second keeps the hold target and the class entry stamp. -/
theorem secondOf_kept (f : Furnace) (d : Nat) (x : Heat) :
    (secondOf s f d x).holdTarget = x.holdTarget ∧ (secondOf s f d x).classStamp = x.classStamp := by
  have advanced : ∀ (net : Int) (y : Heat), (advanceEstimate s net y).holdTarget = y.holdTarget
      ∧ (advanceEstimate s net y).classStamp = y.classStamp := fun net y => by
    unfold advanceEstimate
    split
    · exact ⟨rfl, rfl⟩
    · dsimp only
      split <;> exact ⟨rfl, rfl⟩
  unfold secondOf meltSecond
  dsimp only
  split
  · split
    · exact advanced _ _
    · exact ⟨rfl, rfl⟩
  · split
    · exact advanced _ _
    · exact ⟨rfl, rfl⟩

/-- A revision that changes neither the state nor the estimate keeps what the allotment reads. -/
theorem revised_inputs {x y : Heat} (kept : y.holdTarget = x.holdTarget ∧ y.classStamp = x.classStamp)
    (state : (restamp (now s) x (liquidEval s y)).state = x.state)
    (estimate : (restamp (now s) x (liquidEval s y)).estimate = x.estimate) :
    heatInputs (restamp (now s) x (liquidEval s y)) = heatInputs x := by
  have stamped : restamp (now s) x (liquidEval s y) = { liquidEval s y with
      classStamp := (restamp (now s) x (liquidEval s y)).classStamp } := by
    unfold restamp
    split <;> rfl
  rw [stamped] at state estimate
  have same : heatClass x = heatClass (liquidEval s y) := by
    unfold heatClass
    rw [show (liquidEval s y).state = x.state from state, show (liquidEval s y).estimate = x.estimate from estimate]
  have whole : restamp (now s) x (liquidEval s y) = liquidEval s y := if_pos same
  have judged := (liquidEval_state s y).1
  rw [whole]
  unfold heatInputs
  rw [show (liquidEval s y).state = x.state from state, show (liquidEval s y).estimate = x.estimate from estimate, judged]
  simp only [kept]

theorem closeSecond_heatOf (f g : Furnace) (s : State) : heatOf (closeSecond f s) g = heatOf s g := by
  refine heatOf_congr ?_
  simp only [closeSecond, stampFurnace, setFurnaceSlot_heat, PerFurnace.get_set]
  split
  · next e => simp [e]
  · rfl

/-- A second that hands nothing on leaves what the allotment reads (R33). -/
theorem secondUnmoved_current (h : Current s) {f : Furnace} {x : Heat} (heat : heatOf s f = some x) {d : Nat}
    (still : secondMoves (some x) (heatOf (closeSecond f (reviseHeat f (secondOf s f d) s)) f) = false) :
    Current (closeSecond f (reviseHeat f (secondOf s f d) s)) := by
  obtain ⟨only, revised⟩ := reviseHeat_exact (secondOf s f d) heat
  rw [closeSecond_heatOf, revised] at still
  simp only [secondMoves, Option.map_some, Bool.or_eq_false_iff, decide_eq_false_iff_not, ne_eq, Classical.not_not,
    Option.some.injEq] at still
  obtain ⟨⟨state, estimate⟩, -⟩ := still
  have inputs := revised_inputs (secondOf_kept (s := s) f d x) state.symm estimate.symm
  have quiet : reviseHeat f (secondOf s f d) s = { setHeat f (restamp (now s) x (liquidEval s (secondOf s f d x))) s with
      ports := (reviseHeat f (secondOf s f d) s).ports } := by
    unfold reviseHeat
    rw [heat]
    dsimp only
    unfold afterRevision
    rw [if_neg (fun left => left.2 (state.symm.trans left.1))]
    split <;> rfl
  refine h.of_inputs ⟨fun g => ?_, fun g => ?_, ?_, ?_, ?_, fun c => ?_, fun g => ?_, fun g => ?_, fun g => ?_, ?_⟩
    (.of_eq ?_) ?_
  · rw [closeSecond_heatOf]
    by_cases e : g = f
    · rw [e, revised, heat, Option.map_some, Option.map_some, inputs]
    · rw [quiet]
      exact congrArg _ (heatOf_setHeat_other _ s e)
  · rw [quiet]
    simp only [closeSecond, stampFurnace, setFurnaceSlot_heat, setHeat, setSlot, PerFurnace.get_set]
    split
    · next e => simp [e]
    · rfl
  all_goals rw [quiet]; rfl

theorem secondPasses_current (h : Current s) (f : Furnace) : Current (secondPasses f s) := by
  refine current_ite (fun _ => h) fun _ => ?_
  unfold estimatorSecond
  split
  · exact h.clock _
  · next x heat =>
    refine current_ite (fun _ => settleHeat_currentNow _ _) fun still => ?_
    rw [heat] at still
    exact secondUnmoved_current h heat (Bool.eq_false_iff.mpr still)

theorem readinessSecond_current (h : Current s) : Current (readinessSecond s) :=
  current_ite (fun _ => h.clock _) fun _ => coordinate_currentNow _

theorem entryLapses_current (h : Current s) (id : Nat) : Current (entryLapses id s) := by
  unfold entryLapses
  split
  · exact h
  · exact current_ite (fun _ => recompute_currentNow _) fun _ => h

end Sys2Proof.Machine
end


section
/-! Every step keeps the power law, and an output comes into PULSE mode only at the start of a period (R52 to R60). -/

namespace Sys2Proof.Machine

/-! ### The pulse timers -/

/-- A record as the pulse timer of an output leaves it, with MIN_CONT as its command in the ON phase (R57). -/
structure PulseTimed (least : Nat) (x y : AllotRec) : Prop where
  frame : y = { x with
    duty := y.duty, waitingDuty := y.waitingDuty, phase := y.phase, command := y.command, period := y.period }
  pulse : x.mode = .pulse
  command : y.command = if y.phase = some .on then least else 0
  waits : ∀ duty, x.waitingDuty = (if x.duty = some duty then none else some duty) →
    y.waitingDuty = (if y.duty = some duty then none else some duty)
  rule : PulseRule x → PulseRule y

theorem startPeriod_timed {x : AllotRec} (least : Nat) (pulse : x.mode = .pulse) : PulseTimed least x (x.startPeriod least) where
  frame := rfl
  pulse := pulse
  command := rfl
  waits := fun duty rule => by
    show none = if x.waitingDuty.or x.duty = some duty then none else some duty
    have stored : x.waitingDuty.or x.duty = some duty := by
      rw [rule]
      split
      · next same => exact same
      · rfl
    rw [if_pos stored]
  rule := fun ⟨timed, waits⟩ => by
    obtain ⟨⟨d, duty, range⟩, -, -⟩ := timed pulse
    refine ⟨fun _ => ⟨?_, rfl, rfl⟩, fun _ none' => by cases none'⟩
    show ∃ d ∈ x.waitingDuty.or x.duty, _
    cases waiting : x.waitingDuty with
    | none => exact ⟨d, duty, range⟩
    | some w => exact ⟨w, rfl, waits w waiting⟩

theorem endOnPhase_timed {x : AllotRec} (least : Nat) (pulse : x.mode = .pulse) : PulseTimed least x x.endOnPhase where
  frame := rfl
  pulse := pulse
  command := rfl
  waits := fun _ rule => rule
  rule := fun ⟨timed, waits⟩ => ⟨fun on => ⟨(timed on).1, rfl, (timed on).2.2⟩, waits⟩

theorem InputsStand.timedRule {s t : State} (h : InputsStand s t) {f : Furnace} {available : Nat}
    (timed : PulseTimed (minCont s f) (s.allot.out.get f) (t.allot.out.get f)) (rule : OutputRule s f available) :
    OutputRule t f available := by
  obtain ⟨frame, pulse, command, waits, -⟩ := timed
  have least : minCont t f = minCont s f := h.setting _
  have melt : (t.allot.out.get f).meltRequest = (s.allot.out.get f).meltRequest := by rw [frame]
  obtain ⟨request, cls, cap, grant, factor, cont, pulsed, -, -, pulseOut, -⟩ := rule
  obtain ⟨reserve, -, waiting⟩ := pulseOut pulse
  have kept := waits _ waiting
  have mode : (t.allot.out.get f).mode = .pulse := by rw [frame]; exact pulse
  unfold OutputRule
  dsimp only
  rw [mode, h.asked f melt, h.askingClass, h.boundsOn, least, h.limitedBy f melt]
  rw [pulse] at cont pulsed
  have granted : (t.allot.out.get f).grant = (s.allot.out.get f).grant := by rw [frame]
  have capped : (t.allot.out.get f).cap = (s.allot.out.get f).cap := by rw [frame]
  have reserved : (t.allot.out.get f).reserve = (s.allot.out.get f).reserve := by rw [frame]
  rw [granted, capped, reserved]
  have other : ∀ {m : Mode} {P : Prop}, m ≠ .pulse → .pulse = m → P := fun ne e => absurd e.symm ne
  refine ⟨?_, ?_, cap, grant, ?_, cont, pulsed, other (by decide), other (by decide),
    fun _ => ⟨reserve, command, kept⟩, fun off => absurd rfl off⟩
  · rw [frame]; exact request
  · rw [frame]; exact cls
  · rw [frame]; exact factor

theorem putPulse_out (f : Furnace) (x : AllotRec) (s : State) :
    (putPulse f x s).allot = { s.allot with out := s.allot.out.set f x } := by
  unfold putPulse
  rw [(putAllotment_frame _ s).1]

theorem putPulse_current {s : State} {f : Furnace} {x : AllotRec} (h : Current s)
    (timed : PulseTimed (minCont s f) (s.allot.out.get f) x) : Current (putPulse f x s) := by
  obtain ⟨shape, handed⟩ := putAllotment_frame { s.allot with out := s.allot.out.set f x } s
  have link : (putPulse f x s).stage.link = s.stage.link := by
    unfold putPulse
    rw [handed]
  have last : (putPulse f x s).stage.last = s.stage.last := by
    unfold putPulse
    rw [handed]
  have allot := putPulse_out f x s
  have frame : putPulse f x s = { s with allot := (putPulse f x s).allot, stage := (putPulse f x s).stage } := by
    rw [allot]
    exact shape
  generalize putPulse f x s = t at link last allot frame ⊢
  have inputs : InputsStand s t := by
    refine ⟨fun g => ?_, fun g => ?_, ?_, link, last, fun c => ?_, fun g => ?_, fun g => ?_, fun g => ?_, ?_⟩
    all_goals rw [frame]
    all_goals rfl
  have load : loading t = loading s := by rw [frame]; rfl
  intro l
  obtain ⟨budget, rule⟩ := h (load.symm.trans l)
  rw [load.symm.trans l, if_neg (by decide)] at rule
  refine ⟨budget.congr inputs.working (by rw [allot]) (by rw [allot]) (by rw [allot]), ?_⟩
  rw [l, if_neg (by decide)]
  obtain ⟨priority, first, second⟩ := rule
  have outputs : ∀ g available, OutputRule s g available → OutputRule t g available := fun g available rule => by
    by_cases e : g = f
    · rw [e] at rule ⊢
      exact inputs.timedRule (by rw [allot, PerFurnace.get_set_same]; exact timed) rule
    · refine inputs.outputRule ⟨_, ?_, id⟩ rule
      rw [allot, PerFurnace.get_set_other _ _ e]
  have reserve : ∀ g, (t.allot.out.get g).reserve = (s.allot.out.get g).reserve := fun g => by
    rw [allot]
    by_cases e : g = f
    · rw [e, PerFurnace.get_set_same, timed.frame]
    · rw [PerFurnace.get_set_other _ _ e]
  have chosen : t.allot.priority = s.allot.priority := by rw [allot]
  have spent : t.allot.budget = s.allot.budget := by rw [allot]
  unfold AllotmentRule PriorityRule
  dsimp only
  rw [chosen, spent, reserve]
  simp only [inputs.askingClass, inputs.stampOf]
  exact ⟨priority, outputs _ _ first, outputs _ _ second⟩

theorem periodStarts_current {s : State} (h : Current s) (f : Furnace) : Current (periodStarts f s) :=
  current_ite (fun pulse => putPulse_current h (startPeriod_timed _ pulse)) fun _ => h

theorem onPhaseEnds_current {s : State} (h : Current s) (f : Furnace) : Current (onPhaseEnds f s) :=
  current_ite (fun pulse => putPulse_current h (endOnPhase_timed _ pulse.1)) fun _ => h

theorem tickBlocks_current {s : State} (h : Current s) : Current (tickBlocks s) := by
  have permit : (tickBlocks s).tap.permit = s.tap.permit.map Permit.tick := rfl
  refine h.of_inputs ⟨fun _ => rfl, fun _ => rfl, rfl, rfl, rfl, fun c => ?_, fun f => ?_, fun f => ?_, fun _ => rfl, rfl⟩
    ⟨fun f => ⟨tickOpt (s.allot.out.get f).period, ?_, fun stopped => ?_⟩, rfl, rfl, rfl, rfl⟩ rfl
  · cases c <;> rfl
  · unfold grantedFor
    rw [permit]
    cases s.tap.permit <;> rfl
  · unfold pendingFor
    rw [permit]
    cases s.tap.permit <;> rfl
  · cases f <;> rfl
  · rw [stopped]
    rfl

/-! ### Every command -/

theorem live_current {g : State → State} {s t : State} (each : Current s → Current (g s)) (h : live g s = .next t)
    (c : Current s) : Current t := by
  cases on : s.powered with
  | true =>
    rw [live_powered g s on] at h
    cases h
    exact each c
  | false =>
    rw [live_unpowered g s on] at h
    cases h
    exact c

/-- While the settings are being loaded there is nothing to be current. -/
theorem Current.of_loading {s : State} (waiting : loading s = true) : Current s := fun l =>
  absurd (l.symm.trans waiting) (by decide)

theorem exec_current {i : Instr} {s t : State} (h : exec i s = .next t) : Current s → Current t := by
  cases i with
  | coldStart l => cases h; exact fun _ => .of_loading rfl
  | warmRestart l => cases h; exact fun _ => .of_loading rfl
  | mainSupplyLoss => exact live_current (fun _ => .of_loading rfl) h
  | settingsLoadEnd ack => exact live_current (fun c => current_ite (fun _ => settleAll_currentNow _) fun _ => c) h
  | saveEnd r => exact live_current (fun c => endSave_current c r) h
  | channelIdleExpiry => exact live_current (fun c => current_ite (fun _ => c.freeChannel) fun _ => c) h
  | requestFrameDiscarded frame =>
    refine live_current (fun c => ?_) h
    rw [discardFrame_shape]
    exact current_ite (fun _ => c.setPort _ _) fun _ => c
  | stationByteGap gathered =>
    refine live_current (fun c => ?_) h
    rw [gapAfter_shape]
    exact c.setPort _ _
  | stationBadLengthByte q len =>
    refine live_current (fun c => ?_) h
    rw [badLength_shape]
    exact current_ite (fun _ => c) fun _ => c.setPort _ _
  | answerSent q => exact live_current (answerGone_current q) h
  | attnGapEnd q => exact live_current (fun c => c.setPort q _) h
  | report dA sA dB sB => exact live_current (fun c => receiveStageFrame_current c _ _) h
  | unknownKindFrame frame => exact live_current (fun c => receiveStageFrame_current c _ _) h
  | stageCheckErrorFrame => exact live_current (fun c => c.stage _ rfl rfl) h
  | stageByteGap => exact live_current (fun c => c.stage _ rfl rfl) h
  | reportDeadlineExpiry => exact live_current (fun c => current_ite (fun _ => recompute_currentNow _) fun _ => c) h
  | refreshTimerExpiry => exact live_current (g := refreshExpires) (fun c => kick_stage_current c _ rfl rfl) h
  | setpointCompleted => exact live_current setpointCompletes_current h
  | tripFrameEnd => exact live_current tripFrameEnds_current h
  | abortedSetpointEnd gone => exact live_current (fun c => abortedSetpointEnds_current c gone) h
  | pulsePeriodStart f => exact live_current (fun c => periodStarts_current c f) h
  | pulseOffPhase f => exact live_current (fun c => onPhaseEnds_current c f) h
  | shedChange active => exact live_current (g := setShed active) (fun _ => recompute_currentNow _) h
  | estimatorSecond f => exact live_current (fun c => secondPasses_current c f) h
  | readinessSecond => exact live_current readinessSecond_current h
  | entryLapse id => exact live_current (fun c => entryLapses_current c id) h
  | mainBreakerClosedChange closed => exact live_current (fun c => breakerChanges_current c closed) h
  | deckOffPress f => exact live_current (fun c => deckPressed_current c f) h
  | deckOffRelease f => exact live_current (fun c => c.shopSide _ rfl) h
  | deckOffHold f => exact live_current (fun c => deckHeld_current c f) h
  | breakerStuckExpiry => exact live_current stuckExpires_current h
  | sweepUnit => exact live_current (fun c => current_ite (fun _ => c.scan _) fun _ => c) h
  | waterConversionEnd ch code => exact live_current (fun c => conversionEnds_current c ch code) h
  | channelStale ch => exact live_current (fun c => channelGoesStale_current c ch) h
  | dipSample f code => exact live_current (fun c => sampleEnds_current c f code) h
  | lanceContact f => exact live_current (fun c => lanceDown_current c f) h
  | lanceLift f => exact live_current (fun c => lanceUp_current c f) h
  | dipTimerExpiry f => exact live_current (fun c => c.endDip f _) h
  | watchTimerExpiry x => exact live_current (fun c => c.protect (watchExpires_protOnly x s).circuitsOnly) h
  | derateTimerExpiry x => exact live_current (fun c => c.protect (derateExpires_protOnly x s).circuitsOnly) h
  | recoveryTimerExpiry x => exact live_current (fun c => c.protect (recoveryExpires_protOnly x s).circuitsOnly) h
  | mainPumpRunChange active => exact live_current (fun c => mainPumpChanges_current c active) h
  | standbyRunChange active => exact live_current (fun c => standbyChanges_current c active) h
  | pressureTimerExpiry => exact live_current (fun c => c.protect (pressureExpires_protOnly s).circuitsOnly) h
  | settleTimerExpiry => exact live_current (fun c => c.protect (settleExpires_protOnly s).circuitsOnly) h
  | tiltChange f home forward => exact live_current (fun c => tiltChanges_current c f home forward) h
  | tapConfirmExpiry => exact live_current confirmExpires_current h
  | permitUseExpiry => exact live_current useExpires_current h
  | tapMaxExpiry => exact live_current tapMaxExpires_current h
  | weightWaitExpiry => exact live_current weightWaitExpires_current h
  | tripReset q | unknownRequestKind q | openHeat q | addCharge q | setMeltPower q | setHoldTarget q | setChemistry q
  | closeHeat q | restate q | furnaceOn q | tapOpen q | resume q | linkRestart q | pumpReturn q | postTap q | cancelTap q
  | tapWeight q | bank q | wake q | readSetting q | writeSetting q | saveSettings q | releaseChannel q | queryFurnace q
  | readLog q | queryQueue q | queryProtection q | queryChannels q | queryAllotment q | queryShop q | readNotices q
  | ackNotices q | setNoticeEnables q => exact live_current (fun c => receiveFrame_current q c _) h

/-- Every step is of one of the kinds, and keeps the allotment current. -/
theorem step_kind_current {s t : State} (h : step s = .next t) :
    ∃ q i, StepKind (s.withQueue q) i t ∧ (Current (s.withQueue q) → Current t) := by
  cases queue : s.pending with
  | cons c rest =>
    rw [step_cons c rest s queue] at h
    exact ⟨rest, _, exec_kind h, exec_current h⟩
  | nil =>
    rw [step_idle s queue] at h
    unfold idle at h
    split at h
    · exact ⟨s.pending, _, exec_kind h, exec_current h⟩
    · unfold tick at h
      split at h
      · next on =>
        cases h
        refine ⟨s.pending, none, .ms on, fun c => tickBlocks_current ?_⟩
        rw [tickClock_shape]
        exact (Current.kick c).clock _
      · next off =>
        cases h
        refine ⟨s.pending, none, .dark (Bool.eq_false_iff.mpr off), fun c => ?_⟩
        rw [tickClock_shape]
        exact Current.clock c _

/-! ### The rest of the power law -/

theorem reset_atRest {t : State} (working : t.sett.working = Config.settingDefaults) (allot : t.allot = Allotment.reset) :
    AllotmentAtRest t := by
  obtain ⟨⟨⟨budget, -⟩, -, -⟩, -⟩ := resetMeetsEveryLaw
  exact ⟨BudgetRule.congr (s := State.reset) budget working (by rw [allot]; rfl) (by rw [allot]; rfl) (by rw [allot]; rfl),
    by rw [allot]; rfl⟩

theorem atRest_noPulse {s : State} (h : AllotmentAtRest s) (f : Furnace) : (s.allot.out.get f).mode ≠ .pulse := by
  rw [h.2, get_resetRecords]
  decide

theorem StepKind.atRest {i : Option Instr} {s t : State} (k : StepKind s i t)
    (h : loading s = true → AllotmentAtRest s) (waiting : loading t = true) : AllotmentAtRest t := by
  cases k with
  | cold | warm | loss => exact reset_atRest rfl rfl
  | load on was ack first derived rest =>
    have ended := (first.trans rest).stands.loading.trans (loadBegun_loading _ s)
    exact absurd (ended.symm.trans waiting) (by decide)
  | period on pulse | onPhase on pulse =>
    unfold putPulse at waiting
    rw [(putAllotment_frame _ s).1] at waiting
    exact absurd pulse (atRest_noPulse (h waiting) _)
  | ms =>
    rw [tickClock_shape] at waiting ⊢
    obtain ⟨budget, out⟩ := h waiting
    refine ⟨budget, ?_⟩
    show (s.allot.out.map fun r => { r with period := tickOpt r.period }) = _
    rw [out]
    rfl
  | dark =>
    rw [tickClock_shape] at waiting ⊢
    exact h waiting
  | buffered | same => exact h waiting
  | moves on reset allowed moves =>
    have was := moves.stands.loading.symm.trans waiting
    exact moves.atRest was (h was)

theorem Moves.handedAndTimed {reset : Option Circuit} {s t : State} (m : Moves reset s t)
    (h : PairHandedOver s ∧ ∀ f, PulseRule (s.allot.out.get f)) :
    PairHandedOver t ∧ ∀ f, PulseRule (t.allot.out.get f) :=
  m.keep (P := fun x => PairHandedOver x ∧ ∀ f, PulseRule (x.allot.out.get f))
    (fun _ _ move ⟨handed, pulse⟩ => ⟨move.handed handed, move.pulseRule pulse⟩) h

theorem reset_mode (f : Furnace) : (Allotment.reset.out.get f).mode ≠ .pulse := by cases f <;> decide

theorem reset_noPulse (f : Furnace) : PulseRule (Allotment.reset.out.get f) := by
  refine ⟨fun pulse => absurd pulse (reset_mode f), ?_⟩
  cases f <;> exact fun _ none' => by cases none'

theorem putPulse_follows {s : State} {f : Furnace} {x : AllotRec} {least : Nat}
    (timed : PulseTimed least (s.allot.out.get f) x) (h : PairHandedOver s ∧ ∀ f, PulseRule (s.allot.out.get f)) :
    (PairHandedOver (putPulse f x s) ∧ ∀ g, PulseRule ((putPulse f x s).allot.out.get g))
      ∧ ∀ g, PulseEntered (s.allot.out.get g) ((putPulse f x s).allot.out.get g) := by
  refine ⟨⟨putAllotment_handed _ s h.1, fun g => ?_⟩, fun g => ?_⟩
  · rw [putPulse_out]
    by_cases e : g = f
    · rw [e, PerFurnace.get_set_same]
      exact timed.rule (h.2 f)
    · rw [PerFurnace.get_set_other _ _ e]
      exact h.2 g
  · rw [putPulse_out]
    by_cases e : g = f
    · rw [e]
      exact fun _ away => absurd timed.pulse away
    · rw [PerFurnace.get_set_other _ _ e]
      exact fun pulse away => absurd pulse away

theorem StepKind.pulses {i : Option Instr} {s t : State} (k : StepKind s i t)
    (h : PairHandedOver s ∧ ∀ f, PulseRule (s.allot.out.get f)) :
    (PairHandedOver t ∧ ∀ f, PulseRule (t.allot.out.get f))
      ∧ ∀ f, PulseEntered (s.allot.out.get f) (t.allot.out.get f) := by
  cases k with
  | cold | warm | loss =>
    refine ⟨⟨rfl, reset_noPulse⟩, fun f pulse => ?_⟩
    exact absurd pulse (reset_mode f)
  | load on was ack first derived rest =>
    have begun : ∀ {x : State}, LoadOnly s x → PairHandedOver x ∧ ∀ f, PulseRule (x.allot.out.get f) := fun only => by
      rw [only.frame]
      exact h
    have all := first.trans rest
    have allot : (loadBegun (goodBlock ack s.sett.block) s).allot = s.allot := by rw [(loadBegun_only _ s).frame]
    refine ⟨all.handedAndTimed (begun (loadBegun_only _ s)), fun f => ?_⟩
    rw [← allot]
    exact (all.pulseFollows f).entered
  | period on pulse => exact putPulse_follows (startPeriod_timed _ pulse) h
  | onPhase on pulse => exact putPulse_follows (endOnPhase_timed 0 pulse) h
  | ms =>
    rw [tickClock_shape]
    obtain ⟨handed, rule⟩ := h
    refine ⟨⟨?_, fun f => ?_⟩, fun f => ?_⟩
    · exact ((Stage.kick_held s.stage).1).trans handed
    · obtain ⟨timed, waits⟩ := rule f
      have timed' := fun pulse => And.intro (timed pulse).1
        (And.intro (timed pulse).2.1 ((tickOpt_isSome _).trans (timed pulse).2.2))
      cases f <;> exact ⟨timed', waits⟩
    · cases f <;> exact fun pulse away => absurd pulse away
  | dark =>
    rw [tickClock_shape]
    exact ⟨h, fun f pulse away => absurd pulse away⟩
  | buffered | same => exact ⟨h, fun f pulse away => absurd pulse away⟩
  | moves on reset allowed moves => exact ⟨moves.handedAndTimed h, fun f => (moves.pulseFollows f).entered⟩

theorem StepKind.powerLaw {i : Option Instr} {s t : State} (k : StepKind s i t) (kept : Current s → Current t)
    (h : PowerLaw s) : PowerLaw t ∧ ∀ f, PulseEntered (s.allot.out.get f) (t.allot.out.get f) := by
  obtain ⟨current, handed, pulse⟩ := h
  obtain ⟨⟨handed', pulse'⟩, entered⟩ := k.pulses ⟨handed, pulse⟩
  refine ⟨⟨?_, handed', pulse'⟩, entered⟩
  cases load : loading t with
  | true =>
    refine (allotmentCurrent_loading load).mpr (k.atRest (fun waiting => ?_) load)
    exact (allotmentCurrent_loading waiting).mp current
  | false => exact kept (fun _ => current) load

/-- Settles O49: the records follow their inputs because every operation that changes an input ends in the computation. -/
theorem stepKeepsPowerLaw : Obligations.StepKeepsPowerLaw := by
  intro s t h next
  obtain ⟨q, i, kind, kept⟩ := step_kind_current next
  exact kind.powerLaw kept h

end Sys2Proof.Machine
end


section
/-! The transmitter and the pulse timers (R57, R60, R76, R77, R79, R85). -/

namespace Sys2Proof.Machine

/-! ### What the transmitter begins (R77) -/

theorem Stage.kick_busy {x : Stage} (busy : x.transmitter ≠ .idle) : x.kick = x := by
  unfold Stage.kick
  split
  · next idle => exact absurd idle busy
  · rfl

theorem pendingTrip_any {x : Stage} (pending : x.pendingTrip ≠ noFurnace) : (x.pendingTrip.a || x.pendingTrip.b) = true := by
  cases e : x.pendingTrip with
  | mk a b =>
    rw [e] at pending
    cases a with
    | true => rfl
    | false =>
      cases b with
      | true => rfl
      | false => exact absurd rfl pending

theorem Stage.kick_trip {x : Stage} (idle : x.transmitter = .idle) (pending : x.pendingTrip ≠ noFurnace) :
    x.kick = { x with transmitter := .sendingTrip x.pendingTrip, pendingTrip := noFurnace } := by
  unfold Stage.kick
  rw [idle]
  dsimp only
  rw [if_pos (pendingTrip_any pending)]

theorem Stage.kick_setpoint {x : Stage} (idle : x.transmitter = .idle) (quiet : x.pendingTrip = noFurnace)
    (pending : x.pendingSetpoint = true) :
    x.kick = { x with
      transmitter := .sendingSetpoint
        { out := ⟨x.carried .a, x.carried .b⟩, upSinceBegun := x.link == .up, tripTaken := false }
      pendingSetpoint := false, refresh := 0 } := by
  unfold Stage.kick
  rw [idle, quiet]
  dsimp only
  rw [if_neg (by decide), if_pos pending]

theorem kick_busy {s : State} (busy : s.stage.transmitter ≠ .idle) : kick s = s := by
  unfold kick
  rw [Stage.kick_busy busy]

theorem setpointCompletes_sending {s : State} {fr : SetpointFrame} (sending : s.stage.transmitter = .sendingSetpoint fr) :
    setpointCompletes s = kick { s with stage := s.stage.completeSetpoint fr s.clock.ms } := by
  unfold setpointCompletes
  rw [kick_busy (by rw [sending]; exact nofun), sending]

theorem setpointCompletes_trip {s : State} {mask : PerFurnace Bool} (sending : s.stage.transmitter = .sendingTrip mask) :
    setpointCompletes s = s := by
  unfold setpointCompletes
  rw [kick_busy (by rw [sending]; exact nofun), sending]

theorem Stage.kick_sent (x : Stage) : x.kick.sent = x.sent := (Stage.kick_handed x).sent

/-- The enable lines read nothing that the beginning of a frame changes. -/
theorem kick_enable (s : State) (f : Furnace) : State.outputEnable (kick s) f = State.outputEnable s f := by
  unfold State.outputEnable
  show (s.stage.kick.link == _ && decide (0 < (s.stage.kick.held.get f).command) && !s.stage.kick.tripHold.get f && s.stage.kick.sent.get f) = _
  rw [(Stage.kick_link _).1, (Stage.kick_held _).1, (Stage.kick_held _).2, Stage.kick_sent]

/-- Settles O36. -/
theorem transmitterSendsItsFrames : Obligations.TransmitterSendsItsFrames := by
  intro gone s on
  have runs : ∀ g : State → State, live g s = .next (g s) := fun g => live_powered g s on
  dsimp only
  refine ⟨fun idle quiet => ?_, fun idle pending => ?_, fun busy => ?_, ?_⟩
  · refine (runs _).trans (congrArg _ ?_)
    unfold refreshExpires kick
    dsimp only
    rw [Stage.kick_setpoint (x := { s.stage with pendingSetpoint := true }) idle quiet rfl]
    rfl
  · refine (runs _).trans (congrArg _ ?_)
    unfold refreshExpires kick
    dsimp only
    rw [Stage.kick_trip (x := { s.stage with pendingSetpoint := true }) idle pending]
  · exact (runs _).trans (congrArg _ (kick_busy (s := { s with stage := { s.stage with pendingSetpoint := true } }) busy))
  · split
    · next fr sending =>
      refine ⟨⟨_, (runs _).trans (congrArg _ (setpointCompletes_sending sending)), ?_, fun f => ?_⟩, fun taken => ?_,
        fun clear => ?_, ?_⟩
      · rfl
      · rw [kick_enable]
        unfold State.outputEnable Stage.completeSetpoint
        dsimp only
        rw [PerFurnace.get_map]
        simp only [Bool.and_assoc]
      · refine (runs _).trans (congrArg _ ?_)
        unfold abortedSetpointEnds
        rw [sending]
        dsimp only
        rw [if_pos taken]
        rfl
      · refine (runs _).trans (congrArg _ ?_)
        unfold abortedSetpointEnds
        rw [sending]
        dsimp only
        rw [if_neg (by rw [clear]; decide)]
      · refine (runs _).trans (congrArg _ ?_)
        unfold tripFrameEnds
        rw [sending]
    · next mask sending =>
      refine ⟨?_, (runs _).trans (congrArg _ (setpointCompletes_trip sending)), ?_⟩
      · refine (runs _).trans (congrArg _ ?_)
        unfold tripFrameEnds
        rw [sending]
        rfl
      · refine (runs _).trans (congrArg _ ?_)
        unfold abortedSetpointEnds
        rw [sending]
    · next idle =>
      refine ⟨?_, ?_⟩
      · refine (runs _).trans (congrArg _ ?_)
        unfold tripFrameEnds
        rw [idle]
      · refine (runs _).trans (congrArg _ ?_)
        unfold abortedSetpointEnds
        rw [idle]

/-! ### The pulse timers -/

/-- An output whose record has no command is not enabled, once the pair has been handed over (R60, R85). -/
theorem outputEnable_of_noCommand {s : State} {f : Furnace} (handed : PairHandedOver s)
    (quiet : (s.allot.out.get f).command = 0) : State.outputEnable s f = false := by
  unfold State.outputEnable
  rw [handed]
  unfold pairOf
  rw [PerFurnace.get_map]
  simp [quiet]

theorem putPulse_leaves (f : Furnace) (x : AllotRec) (s : State) :
    putPulse f x s = { s with allot := { s.allot with out := s.allot.out.set f x }, stage := (putPulse f x s).stage }
      ∧ StageHanded s.stage (putPulse f x s).stage ∧ (PairHandedOver s → PairHandedOver (putPulse f x s)) :=
  ⟨(putAllotment_frame _ s).1, (putAllotment_frame _ s).2, putAllotment_handed _ s⟩

theorem startPeriod_record (x : AllotRec) (least : Nat) :
    x.startPeriod least = { x with
      duty := if x.waitingDuty.isSome then x.waitingDuty else x.duty
      waitingDuty := none, phase := some .on, command := least, period := some 0 } := by
  unfold AllotRec.startPeriod
  cases x.waitingDuty <;> rfl

/-- Settles O37. -/
theorem pulseTimerRunsThePhases : Obligations.PulseTimerRunsThePhases := by
  intro f s on
  have runs : ∀ g : State → State, live g s = .next (g s) := fun g => live_powered g s on
  refine ⟨fun pulse => ⟨⟨_, (runs _).trans (congrArg _ (if_pos pulse)), ?_⟩, fun phase => ⟨_,
    (runs _).trans (congrArg _ (if_pos ⟨pulse, phase⟩)), putPulse_leaves f _ s, fun law => ?_⟩⟩, fun other => ⟨?_, ?_⟩⟩
  · rw [← startPeriod_record]
    exact putPulse_leaves f _ s
  · refine outputEnable_of_noCommand ((putPulse_leaves f _ s).2.2 law.2.1) ?_
    rw [putPulse_out, PerFurnace.get_set_same]
    rfl
  · exact (runs _).trans (congrArg _ (if_neg other))
  · exact (runs _).trans (congrArg _ (if_neg fun both => other both.1))

end Sys2Proof.Machine
end


section
/-! Bytes and frames from the stage (R75, R80, R83, R162). -/

namespace Sys2Proof.Machine

/-! ### One byte -/

/-- A byte that leaves no whole frame is gathered. -/
theorem receiveStageByte_gathers {b : Byte} {s : State} {bytes : List Byte} (gathered : gatherStageByte s.stage.assembly b = bytes)
    (short : assembled bytes = false) : receiveStageByte b s = setStageAssembly bytes s := by
  unfold receiveStageByte
  dsimp only
  rw [gathered, short]
  exact if_neg (by decide)

theorem receiveStageByte_first {b : Byte} {s : State} (idle : s.stage.assembly = []) :
    receiveStageByte b s = setStageAssembly (if b = 0x5A then [b] else []) s := by
  refine receiveStageByte_gathers (by rw [idle]; rfl) ?_
  split <;> rfl

theorem stageLenCarried_iff (b : Byte) : stageLenCarried b = true ↔ 1 ≤ b.toNat ∧ b.toNat ≤ 16 := by
  simp [stageLenCarried]

theorem receiveStageByte_second {b : Byte} {s : State} (begun : s.stage.assembly = [0x5A]) :
    receiveStageByte b s = setStageAssembly (if 1 ≤ b.toNat ∧ b.toNat ≤ 16 then [0x5A, b] else []) s := by
  refine receiveStageByte_gathers ?_ ?_
  · rw [begun]
    show (if stageLenCarried b = true then _ else _) = _
    simp only [stageLenCarried_iff]
  · split
    · simp [assembled]
    · rfl

/-- Bytes among which no start byte comes are dropped. -/
theorem receiveStageBytes_noStart {bytes : List Byte} {s : State} (none' : ∀ x ∈ bytes, x ≠ 0x5A)
    (idle : s.stage.assembly = []) : receiveStageBytes bytes s = s := by
  induction bytes with
  | nil => rfl
  | cons b rest ih =>
    have first : receiveStageByte b s = s := by
      rw [receiveStageByte_first idle, if_neg (none' b (List.mem_cons_self ..))]
      exact setStageAssembly_same s idle
    show receiveStageBytes rest (receiveStageByte b s) = s
    rw [first]
    exact ih fun x mem => none' x (List.mem_cons_of_mem _ mem)

/-! ### One frame -/

theorem receiverClosed_of {s : State} (closed : loading s = true ∨ s.stage.link = .fault) :
    receiverClosed (setStageAssembly [] s) = true := by
  show (loading s || s.stage.link == .fault) = true
  rcases closed with l | l
  · rw [l]
    rfl
  · rw [l, Bool.or_comm]
    rfl

theorem statusOf_none {b : Byte} (high : 2 < b.toNat) : statusOf b = none := by
  have above : ∀ n : Byte, n.toNat ≤ 2 → b ≠ n := fun n low e => by
    rw [e] at high
    omega
  unfold statusOf
  rw [if_neg (above 0 (by decide)), if_neg (above 1 (by decide)), if_neg (above 2 (by decide))]

theorem reportContents_none {deliveredA deliveredB : BitVec 16} {statusA statusB : Byte}
    (out : 9999 < deliveredA.toNat ∨ 9999 < deliveredB.toNat ∨ 2 < statusA.toNat ∨ 2 < statusB.toNat) :
    reportContents deliveredA statusA deliveredB statusB = none := by
  unfold reportContents
  split
  · next a b =>
    refine if_neg fun within => ?_
    rcases out with high | high | high | high
    · exact absurd within.1 (by omega)
    · exact absurd within.2 (by omega)
    · rw [statusOf_none high] at a
      cases a
    · rw [statusOf_none high] at b
      cases b
  · rfl

/-- Settles O35. -/
theorem stageFramesDiscarded : Obligations.StageFramesDiscarded := by
  intro b frame bytes deliveredA statusA deliveredB statusB s on
  have runs : ∀ g : State → State, live g s = .next (g s) := fun g => live_powered g s on
  have report := exec_report deliveredA statusA deliveredB statusB s on
  refine ⟨receiveStageByte_first, receiveStageByte_second, receiveStageBytes_begun bytes s, fun whole wrong => ?_, ?_,
    fun _ fits => ?_, fun none' => ?_, runs _, runs _, fun closed => ⟨fun other _ => ?_, ?_⟩, fun loaded working calm out => ?_⟩
  · exact receiveStageBytes_discards bytes s whole ((stageCheckFails_iff bytes whole).mpr wrong)
  · exact (runs _).trans (congrArg _ (if_pos (by simp [reportBody, be2])))
  · exact (runs _).trans (congrArg _ (if_pos fits))
  · exact receiveStageBytes_noStart none' rfl
  · refine (runs _).trans (congrArg _ ?_)
    rw [receiveStageFrame_unknown _ _ _ other]
    exact if_pos (receiverClosed_of closed)
  · rw [report]
    exact congrArg _ (if_pos (receiverClosed_of closed))
  · have opened : receiverClosed (setStageAssembly [] s) = false :=
      receiverClosed_eq_false (s := setStageAssembly [] s) loaded working
    rw [report, reportContents_none out]
    unfold receiveReport
    rw [if_neg (by rw [opened]; decide), if_neg (by rw [show babbles (setStageAssembly [] s) = babbles s from rfl, calm]; decide)]
    rfl

end Sys2Proof.Machine
end


section
/-! The ports: bytes, gaps and the ends of answers (R141, R142, R150, R161). -/

namespace Sys2Proof.Machine

/-! ### The buffers stand while a request is handled -/

variable {reset : Option Circuit}

theorem setPort_buffer {s : State} {q : Port} {x : PortRec} (kept : x.buffer = (s.ports.get q).buffer) (r : Port) :
    ((setPort q x s).ports.get r).buffer = (s.ports.get r).buffer := by
  show ((s.ports.set q x).get r).buffer = _
  rw [PerPort.get_set]
  split
  · next e => rw [e, kept]
  · rfl

theorem setLoop_buffer (st : LoopState) (cause : LoopCause) (latch : Bool) (s : State) (q : Port) :
    ((setLoop st cause latch s).ports.get q).buffer = (s.ports.get q).buffer := post_buffer _ q _

theorem tripCircuit_buffer (c : Circuit) (cause : TripCause) (s : State) (q : Port) :
    ((tripCircuit c cause s).ports.get q).buffer = (s.ports.get q).buffer := by
  unfold tripCircuit
  dsimp only
  split
  · rw [assertBreaker_shape]
    exact post_buffer _ q _
  · exact post_buffer _ q _

theorem tripForLoop_buffer (c : Circuit) (s : State) (q : Port) :
    ((tripForLoop c s).ports.get q).buffer = (s.ports.get q).buffer := by
  unfold tripForLoop
  split
  · rfl
  · exact tripCircuit_buffer ..

/-- A buffer that is empty stays empty. -/
theorem Move.bufferEmpty {s t : State} (m : Move reset s t) {q : Port} (empty : (s.ports.get q).buffer = none) :
    (t.ports.get q).buffer = none := by
  cases m with
  | table m => rw [m.only.notices.2, empty]
  | posts d => rw [post_buffer, empty]
  | postsTo p d => exact (setPort_buffer (x := (s.ports.get p).post d) rfl q).trans empty
  | @port _ p x kept =>
    show ((s.ports.set p x).get q).buffer = none
    rw [PerPort.get_set]
    split
    · next e =>
      rw [e] at empty
      exact kept.buffer.elim (fun same => same.trans empty) id
    · exact empty
  | reset => exact (post_buffer _ q _).trans empty
  | trips =>
    rw [assertBreaker_shape]
    exact empty
  | allots =>
    rw [allocate_shape]
    exact empty
  | loop cause latch => exact (setLoop_buffer _ cause latch s q).trans empty
  | loopFail cause =>
    unfold enterLoopFail
    rw [assertBreaker_shape]
    show ((tripForLoop _ (tripForLoop _ (tripForLoop _ _))).ports.get q).buffer = none
    rw [tripForLoop_buffer, tripForLoop_buffer, tripForLoop_buffer, setLoop_buffer, empty]
  | leakCarried | clock | scan | pumps | settings | working | decks | stuck | breakerOpens | breakerCloses | breakerBack
  | resume | mode | kicks | tripTaken | stage | meltRequest | shed | circuit | pressure => exact empty

theorem answerTo_buffer {q : Port} {s : State} (fr : Frame) (empty : (s.ports.get q).buffer = none) :
    ((answerTo q fr s).1.ports.get q).buffer = none := by
  obtain ⟨reset, only, -⟩ := exists_resetsOnly q fr s
  exact (answerTo_moves (s := s) only).keep (P := fun t => (t.ports.get q).buffer = none)
    (fun _ _ move empty => move.bufferEmpty empty) empty

/-! ### One byte -/

/-- A byte that leaves no whole frame is gathered. -/
theorem receiveByte_gathers {q : Port} {b : Byte} {s : State} {bytes : List Byte}
    (gathered : gatherByte (s.ports.get q).assembly b = bytes) (short : assembled bytes = false) :
    receiveByte q b s = withAssembly q bytes s := by
  unfold receiveByte
  dsimp only
  rw [gathered, short]
  exact if_neg (by decide)

theorem receiveByte_first {q : Port} {b : Byte} {s : State} (idle : (s.ports.get q).assembly = []) :
    receiveByte q b s = withAssembly q (if b = 0xA5 then [b] else []) s := by
  refine receiveByte_gathers (by rw [idle]; rfl) ?_
  split <;> rfl

theorem lenCarried_iff (b : Byte) : lenCarried b = true ↔ 2 ≤ b.toNat ∧ b.toNat ≤ 50 := by simp [lenCarried]

theorem receiveByte_second {q : Port} {b : Byte} {s : State} (begun : (s.ports.get q).assembly = [0xA5]) :
    receiveByte q b s = withAssembly q (if 2 ≤ b.toNat ∧ b.toNat ≤ 50 then [0xA5, b] else []) s := by
  refine receiveByte_gathers ?_ ?_
  · rw [begun]
    show (if lenCarried b = true then _ else _) = _
    simp only [lenCarried_iff]
  · split
    · simp [assembled]
    · rfl

theorem receiveBytes_begun {q : Port} {bytes : List Byte} (s : State) (begun : frameBegun bytes = true) :
    receiveBytes q bytes (withAssembly q [] s) = withAssembly q bytes s := by
  match bytes, begun with
  | [start], begun =>
    simp only [frameBegun, beq_iff_eq] at begun
    subst begun
    show receiveByte q 0xA5 (withAssembly q [] s) = _
    rw [receiveByte_first (withAssembly_assembly q [] s), withAssembly_withAssembly]
    rfl
  | start :: len :: rest, begun =>
    simp only [frameBegun, Bool.and_eq_true, beq_iff_eq, decide_eq_true_eq] at begun
    obtain ⟨⟨rfl, fits⟩, size⟩ := begun
    exact (receiveByte_receives q).begun len rest s fits size

theorem receiveBytes_whole {q : Port} {bytes : List Byte} (s : State) (whole : wholeFrame bytes = true) :
    receiveBytes q bytes (withAssembly q [] s) = frameEnds q bytes s := by
  match bytes, whole with
  | start :: len :: rest, whole =>
    simp only [wholeFrame, Bool.and_eq_true, beq_iff_eq] at whole
    obtain ⟨⟨rfl, fits⟩, size⟩ := whole
    exact (receiveByte_receives q).completes len rest s fits size

theorem checkCorrect_iff (bytes : List Byte) : checkCorrect bytes = true
    ↔ bytes.drop (bytes.length - 2) = checkBytes ((bytes.drop 1).take (bytes.length - 3)) := by simp [checkCorrect]

theorem exec_request_bytes (k : RequestKind) (q : Port) (tag : Byte) {body : List Byte} {s : State}
    (on : s.powered = true) (fits : body.length ≤ 48) :
    exec (commandOf k q tag body) s = .next (receiveBytes q (requestFrame k tag body).bytes (dropAssembly q s)) := by
  rw [exec_commandOf]
  unfold request
  rw [live_powered _ _ on]
  exact congrArg _ (if_pos fits)

theorem exec_discarded {q : Port} {bytes : List Byte} {s : State} (on : s.powered = true) (whole : wholeFrame bytes = true) :
    exec (.requestFrameDiscarded ⟨q, bytes⟩) s
      = .next (if (!checkCorrect bytes || portFull q s) = true then dropAssembly q s else s) := by
  refine (live_powered _ s on).trans (congrArg _ ?_)
  obtain ⟨gathered, complete⟩ := gathered_wholeFrame bytes whole
  show discardFrame q bytes s = _
  rw [discardFrame_shape, gathered, complete, Bool.true_and]

theorem portFull_iff (q : Port) (s : State) :
    portFull q s = true ↔ (s.ports.get q).inHand.isSome = true ∧ (s.ports.get q).buffer.isSome = true := by simp [portFull]

/-! ### The end of an answer -/

/-- The port with its answer gone, before the buffered frame is taken (R141). -/
def answerFreed (q : Port) (s : State) : State :=
  setPort q { s.ports.get q with inHand := none, answer := none, buffer := none } s

theorem answerGone_idle {q : Port} {s : State} (idle : (s.ports.get q).inHand = none) : answerGone q s = s := by
  unfold answerGone
  dsimp only
  rw [idle]

theorem answerGone_empty {q : Port} {s : State} (busy : (s.ports.get q).inHand.isSome = true)
    (empty : (s.ports.get q).buffer = none) :
    answerGone q s = setPort q { s.ports.get q with inHand := none, answer := none } s := by
  obtain ⟨held, hand⟩ := Option.isSome_iff_exists.mp busy
  unfold answerGone
  dsimp only
  rw [hand, empty]

theorem answerGone_takes {q : Port} {s : State} {fr : Frame} (busy : (s.ports.get q).inHand.isSome = true)
    (waits : (s.ports.get q).buffer = some fr) : answerGone q s = take q fr (answerFreed q s) := by
  obtain ⟨held, hand⟩ := Option.isSome_iff_exists.mp busy
  unfold answerGone
  dsimp only
  rw [hand, waits]
  rfl

/-- The buffered frame is taken as it would be taken if it arrived then. -/
theorem take_eq_arrive {q : Port} {s : State} (fr : Frame) (idle : (s.ports.get q).assembly = []) :
    take q fr (answerFreed q s) = arrive q fr (answerFreed q s) := by
  have record : (answerFreed q s).ports.get q = { s.ports.get q with inHand := none, answer := none, buffer := none } :=
    ports_setPort_same q _ s
  have dropped : setPort q { (answerFreed q s).ports.get q with assembly := [] } (answerFreed q s) = answerFreed q s := by
    rw [record, ← idle]
    simp only [answerFreed, setPort, PerPort.set_set]
  unfold arrive
  dsimp only
  rw [dropped, record]

/-- Settles O6. -/
theorem portEventsActOnTheirPort : Obligations.PortEventsActOnTheirPort := by
  intro q len bytes s on
  have runs : ∀ g : State → State, live g s = .next (g s) := fun g => live_powered g s on
  have empty : ∀ x, withAssembly q x s = setPort q { s.ports.get q with assembly := x } s := fun _ => rfl
  refine ⟨fun k kind tag body fits => ⟨exec_request_bytes k q tag on fits, (runs _).trans (congrArg _ (if_pos fits))⟩,
    receiveByte_first, receiveByte_second, receiveBytes_begun s, fun whole wrong => ?_, fun whole bad => ?_,
    fun whole right room => ?_, fun _ => ?_, fun bad => ?_, ⟨_, runs _, rfl, ?_⟩, fun idle => ?_, fun busy none' => ?_,
    fun k tag body busy idle waits => ?_, fun kind tag body busy idle waits => ?_, fun fr waits busy => ?_⟩
  · refine (receiveBytes_whole s whole).trans (if_neg fun right => wrong ((checkCorrect_iff bytes).mp right))
  · rw [exec_discarded on whole, if_pos]
    · rfl
    · rw [Bool.or_eq_true, Bool.not_eq_true', portFull_iff]
      exact bad.imp (fun wrong => Bool.eq_false_iff.mpr fun right => wrong ((checkCorrect_iff bytes).mp right)) id
  · rw [exec_discarded on whole, if_neg]
    rw [Bool.or_eq_true, Bool.not_eq_true', portFull_iff]
    rintro (wrong | full)
    · rw [(checkCorrect_iff bytes).mpr right] at wrong
      cases wrong
    · exact room full
  · exact (runs _).trans (congrArg _ (gapAfter_shape q bytes s))
  · refine (runs _).trans (congrArg _ ((badLength_shape q len s).trans (if_neg fun fits => ?_)))
    have range := (lenCarried_iff len).mp fits
    omega
  · unfold State.attn endGap
    rw [ports_setPort_same]
    rfl
  · exact (runs _).trans (congrArg _ (answerGone_idle idle))
  · exact (runs _).trans (congrArg _ (answerGone_empty busy none'))
  · rw [exec_request_arrives k q tag body (by exact on)]
    refine (runs _).trans (congrArg _ ?_)
    rw [answerGone_takes busy waits, take_eq_arrive _ idle]
    rfl
  · rw [exec_unknown_arrives q kind tag body (by exact on)]
    refine (runs _).trans (congrArg _ ?_)
    rw [answerGone_takes busy waits, take_eq_arrive _ idle]
    rfl
  · refine ⟨_, (runs _).trans (congrArg _ (answerGone_takes busy waits)), ?_, ?_, ?_⟩
    · unfold take
      rw [ports_setPort_same]
    · unfold take
      rw [ports_setPort_same]
      exact answerTo_buffer fr (by unfold answerFreed; rw [ports_setPort_same])
    · unfold take
      rw [ports_setPort_same]
      rfl

end Sys2Proof.Machine
end


section
/-! The lance line and the dip timer: how a dip starts and ends (R92, R94, R98, R99, R101). -/

namespace Sys2Proof.Machine

/-! ### The lance level alone -/

theorem setLance_dip (f : Furnace) (level : Bool) (s : State) :
    (setLance f level s).scan.dips.get f = { s.scan.dips.get f with level := level } := PerFurnace.get_set_same _ _ _

theorem setDip_setLance (f : Furnace) (level : Bool) (d : DipUnit) (s : State) :
    setDip f d (setLance f level s) = setDip f d s := by
  simp only [setLance, setDip, PerFurnace.set_set]

/-- The level of a lance line decides nothing about the unit in progress. -/
theorem convertible_setLance (f : Furnace) (level : Bool) (s : State) (ch : Chan) :
    convertible (setLance f level s) ch = convertible s ch := by
  cases f <;> rfl

theorem dropPassed_setLance (f : Furnace) (level : Bool) (s : State) :
    (dropPassed (setLance f level s)).scan.plan = (dropPassed s).scan.plan := by
  show List.dropWhile _ s.scan.plan = List.dropWhile _ s.scan.plan
  simp only [convertible_setLance]

theorem dueNext_setLance {f : Furnace} {level : Bool} {s : State} {ch : Chan} {behind : List Chan}
    (h : DueNext s ch behind) : DueNext (setLance f level s) ch behind := by
  rw [dueNext_iff] at h ⊢
  unfold dueConversion at h ⊢
  rw [show convertible (setLance f level s) = convertible s from funext (convertible_setLance f level s)]
  exact h

/-! ### The lance line becomes active -/

theorem lanceDown_held {f : Furnace} {s : State} (level : (s.scan.dips.get f).level = true) : lanceDown f s = s :=
  if_pos level

/-- Before the settings load has ended, and while a dip is not IDLE, contact stores the level alone. -/
theorem lanceDown_level {f : Furnace} {s : State} (level : (s.scan.dips.get f).level = false)
    (none' : loading s = true ∨ (s.scan.dips.get f).state ≠ .idle) : lanceDown f s = setLance f true s := by
  unfold lanceDown
  dsimp only
  rw [level, if_neg (by decide)]
  split
  · rfl
  · next loaded => exact if_neg (none'.resolve_left loaded)

theorem lanceDown_idle {f : Furnace} {s : State} (level : (s.scan.dips.get f).level = false) (loaded : loading s = false)
    (idle : (s.scan.dips.get f).state = .idle) :
    lanceDown f s = if (chanOf s (dipChan f)).status = .off then dipOutOfService f (setLance f true s)
      else startDip f (setLance f true s) := by
  unfold lanceDown
  dsimp only
  rw [level, if_neg (by decide), loaded, if_neg (by decide), if_pos idle]

/-! ### The dip ends -/

theorem lanceUp_sampling {f : Furnace} {s : State} (sampling : (s.scan.dips.get f).state = .sampling) :
    lanceUp f s = failDip f .lifted .idle (setLance f false s) := by
  unfold lanceUp
  dsimp only
  rw [sampling]

theorem lanceUp_notSampling {f : Furnace} {s : State} (other : (s.scan.dips.get f).state ≠ .sampling) :
    lanceUp f s = setDip f { s.scan.dips.get f with level := false, state := .idle } s := by
  unfold lanceUp
  dsimp only
  generalize state : (s.scan.dips.get f).state = x at other
  cases x with
  | sampling => exact absurd rfl other
  | idle => exact congrArg (fun x => setDip f { s.scan.dips.get f with level := false, state := x } s) state
  | waitRelease =>
    show setDip f { (setLance f false s).scan.dips.get f with state := .idle } (setLance f false s) = _
    rw [setDip_setLance, setLance_dip]

/-- A dip that fails with the lance line just lowered or lifted. -/
theorem failDip_setLance (f : Furnace) (reason : DipFailure) (next : DipState) (level : Bool) (s : State) :
    failDip f reason next (setLance f level s)
      = post (.dipFailed f (heatNumber s f) reason (s.scan.dips.get f).samples)
          (setDip f { s.scan.dips.get f with level := level, state := next, timer := none, window := [] } s) := by
  unfold failDip
  dsimp only
  rw [setLance_dip, setDip_setLance]
  rfl

/-- Settles O45. -/
theorem lanceAndTimerEndADip : Obligations.LanceAndTimerEndADip := by
  intro f s on
  have runs : ∀ g : State → State, live g s = .next (g s) := fun g => live_powered g s on
  refine ⟨fun level => (runs _).trans (congrArg _ (lanceDown_held level)),
    fun level none' => (runs _).trans (congrArg _ (lanceDown_level level none')),
    fun level loaded idle => ⟨fun inService => ?_, fun off => (runs _).trans (congrArg _ ?_)⟩,
    fun sampling => ⟨(runs _).trans (congrArg _ ?_), (runs _).trans (congrArg _ (if_pos sampling))⟩,
    fun other => ⟨(runs _).trans (congrArg _ (lanceUp_notSampling other)), (runs _).trans (congrArg _ (if_neg other))⟩⟩
  · refine ⟨startDip f (setLance f true s), (runs _).trans (congrArg _ ?_), ?_, ?_,
      fun ch behind due => dueNext_startDip (dueNext_setLance due)⟩
    · rw [lanceDown_idle level loaded idle, if_neg inService]
    · unfold startDip setDip dropPassed setLance
      simp only [setDip, PerFurnace.set_set]
    · have same : (startDip f (setLance f true s)).scan.plan = (dropPassed s).scan.plan := dropPassed_setLance f true s
      rw [same]
      exact dropPassed_reached s
  · rw [lanceDown_idle level loaded idle, if_pos off]
    unfold dipOutOfService
    rw [setLance_dip, setDip_setLance]
    rfl
  · rw [lanceUp_sampling sampling, failDip_setLance]
    rfl

end Sys2Proof.Machine
end


section
/-! The deck's requests on its heat: what each handler gives in each of its cases (R3, R8, R14 to R17, R19, R20, R46), and
how a request runs to what its handler leaves. -/

namespace Sys2Proof.Machine

/-! ### A request and its handler -/

/-- A request kind that the two decks may make, with so many bytes in its body (R142, R143). -/
structure DeckKind (k : RequestKind) (n : Nat) : Prop where
  length : k.lengthOk n = true
  deck : ∀ q body, permitted k q body = isDeckPort q

section
variable {k : RequestKind} {q : Port} {f : Furnace} {tag : Byte} {body : List Byte} {s t : State} {reply : Reply}

/-- A request leaves what its handler leaves, with the answer on it. -/
theorem request_runs (r : Ready q s) (len : k.lengthOk body.length = true) (may : permitted k q body = true)
    (h : handle k q body (dropAssembly q s) = (t, reply)) :
    exec (commandOf k q tag body) s = .next (putAnswer q (requestFrame k tag body) reply t) := by
  rw [request_handled k q tag body s r len may, h]

theorem DeckKind.permitted {n : Nat} (kind : DeckKind k n) (deck : portFurnace q = some f) :
    permitted k q body = true := by
  rw [kind.deck]
  cases q with
  | a => rfl
  | b => rfl
  | p => cases deck

theorem DeckKind.runs {n : Nat} (kind : DeckKind k n) (r : Ready q s) (size : body.length = n)
    (deck : portFurnace q = some f) (h : handle k q body (dropAssembly q s) = (t, reply)) :
    exec (commandOf k q tag body) s = .next (putAnswer q (requestFrame k tag body) reply t) :=
  request_runs r (size ▸ kind.length) (kind.permitted deck) h

/-- A handler that leaves the state leaves the answer alone. -/
theorem DeckKind.unchanged {n : Nat} (kind : DeckKind k n) (r : Ready q s) (size : body.length = n)
    (deck : portFurnace q = some f) (h : handle k q body (dropAssembly q s) = (dropAssembly q s, reply)) :
    exec (commandOf k q tag body) s = .next (answered k q tag body reply s) :=
  request_unchanged k q tag body s r (size ▸ kind.length) (kind.permitted deck) reply h

/-- The frames of the follow-up, from the answered state. -/
theorem Coordinated.answered {kinds : List NoticeKind} (h : Coordinated kinds (dropAssembly q s) t) :
    Coordinated kinds (answered k q tag body reply s) (putAnswer q (requestFrame k tag body) reply t) := by
  have followed := h.answer q (requestFrame k tag body) reply
  rw [putAnswer_dropAssembly] at followed
  exact followed

theorem SettledFor.answered {kinds : List NoticeKind} {g : Furnace} (h : SettledFor kinds g (dropAssembly q s) t) :
    SettledFor kinds g (answered k q tag body reply s) (putAnswer q (requestFrame k tag body) reply t) := by
  have followed := h.answer q (requestFrame k tag body) reply
  rw [putAnswer_dropAssembly] at followed
  exact followed

theorem SettledAll.answered {kinds : List NoticeKind} (h : SettledAll kinds (dropAssembly q s) t) :
    SettledAll kinds (answered k q tag body reply s) (putAnswer q (requestFrame k tag body) reply t) := by
  have followed := h.answer q (requestFrame k tag body) reply
  rw [putAnswer_dropAssembly] at followed
  exact followed

end

/-! ### The codes of a body -/

theorem materialOf_isSome_iff (n : Nat) : (materialOf n).isSome = true ↔ 1 ≤ n ∧ n ≤ 4 := by
  match n with
  | 0 => simp [materialOf]
  | 1 | 2 | 3 | 4 => simp [materialOf]
  | n + 5 => simp [materialOf]

theorem materialOf_none {n : Nat} (out : ¬ (1 ≤ n ∧ n ≤ 4)) : materialOf n = none := by
  rw [← materialOf_isSome_iff] at out
  exact Option.not_isSome_iff_eq_none.mp out

theorem materialOf_some {n : Nat} (low : 1 ≤ n) (high : n ≤ 4) : ∃ m, materialOf n = some m :=
  Option.isSome_iff_exists.mp ((materialOf_isSome_iff n).mpr ⟨low, high⟩)

theorem chemistryOf_none {n : Nat} (out : 2 < n) : chemistryOf n = none := by
  match n with
  | n + 3 => rfl

theorem isTapping_iff (s : State) (f : Furnace) : isTapping s f = true ↔ ∃ h ∈ heatOf s f, h.state = .tapping := by
  unfold isTapping
  cases heatOf s f <;> simp

/-! ### The handlers' cases -/

section
variable {q : Port} {f : Furnace} {s : State} (deck : portFurnace q = some f) {body : List Byte}
include deck

theorem handleOpenHeat_wrongState (full : slotOf s f ≠ .empty) :
    handleOpenHeat q body s = (s, replyRefused .wrongState) := by
  unfold handleOpenHeat
  rw [onDeck_eq deck]
  cases slot : slotOf s f with
  | empty => exact absurd slot full
  | _ => rfl

theorem handleOpenHeat_badKind (empty : slotOf s f = .empty) (unknown : materialOf (field body 0 1) = none) :
    handleOpenHeat q body s = (s, replyRefused .badKind) := by
  unfold handleOpenHeat
  simp [onDeck_eq deck, empty, unknown, refuse]

theorem handleOpenHeat_taken (empty : slotOf s f = .empty) {m : Material} (known : materialOf (field body 0 1) = some m) :
    handleOpenHeat q body s = openTaken f m (field body 1 2) s := by
  unfold handleOpenHeat
  simp [onDeck_eq deck, empty, known]

theorem handleAddCharge_wrongState (closed : heatOf s f = none ∨ isTapping s f = true) :
    handleAddCharge q body s = (s, replyRefused .wrongState) := by
  unfold handleAddCharge
  rw [onDeck_eq deck]
  rcases closed with none' | tapping
  · rw [none']
    rfl
  · obtain ⟨h, heat, state⟩ := (isTapping_iff s f).mp tapping
    rw [heat]
    exact if_pos state

section
variable {h : Heat} (heat : heatOf s f = some h) (solid : h.state ≠ .tapping)
include heat solid

theorem handleAddCharge_badKind (unknown : materialOf (field body 0 1) = none) :
    handleAddCharge q body s = (s, replyRefused .badKind) := by
  unfold handleAddCharge
  simp [onDeck_eq deck, heat, solid, unknown, refuse]

theorem handleAddCharge_listFull {m : Material} (known : materialOf (field body 0 1) = some m)
    (full : 12 ≤ h.charges.length) : handleAddCharge q body s = (s, replyRefused .listFull) := by
  unfold handleAddCharge
  simp [onDeck_eq deck, heat, solid, known, refuse, Config.chargeMax, full]

theorem handleAddCharge_taken {m : Material} (known : materialOf (field body 0 1) = some m)
    (room : h.charges.length < 12) : handleAddCharge q body s = chargeTaken f h m (field body 1 2) s := by
  unfold handleAddCharge
  simp [onDeck_eq deck, heat, solid, known, Config.chargeMax, Nat.not_le.mpr room]

theorem handleCloseHeat_taken : handleCloseHeat q body s = closeTaken f h s := by
  unfold handleCloseHeat
  simp [onDeck_eq deck, heat, solid]

end

theorem handleSetMeltPower_wrongState (none' : heatOf s f = none) :
    handleSetMeltPower q body s = (s, replyRefused .wrongState) := by
  unfold handleSetMeltPower
  simp [onDeck_eq deck, none', refuse]

theorem handleSetMeltPower_taken {h : Heat} (heat : heatOf s f = some h) :
    handleSetMeltPower q body s
      = (recompute (setMeltRequest f (min (floor10 (field body 0 2)) (floor10 (outputMax s f))) s),
        replyTaken (min (floor10 (field body 0 2)) (floor10 (outputMax s f)) != field body 0 2)
          (if min (floor10 (field body 0 2)) (floor10 (outputMax s f)) = field body 0 2 then []
            else be2 (min (floor10 (field body 0 2)) (floor10 (outputMax s f))))) := by
  unfold handleSetMeltPower
  simp [onDeck_eq deck, heat]

theorem handleSetHoldTarget_wrongState (none' : heatOf s f = none) :
    handleSetHoldTarget q body s = (s, replyRefused .wrongState) := by
  unfold handleSetHoldTarget
  simp [onDeck_eq deck, none', refuse]

theorem handleSetChemistry_wrongState (none' : heatOf s f = none) :
    handleSetChemistry q body s = (s, replyRefused .wrongState) := by
  unfold handleSetChemistry
  simp [onDeck_eq deck, none', refuse]

theorem handleSetChemistry_badKind {h : Heat} (heat : heatOf s f = some h)
    (unknown : chemistryOf (field body 0 1) = none) :
    handleSetChemistry q body s = (s, replyRefused .badKind) := by
  unfold handleSetChemistry
  simp [onDeck_eq deck, heat, unknown, refuse]

theorem handleCloseHeat_wrongState (closed : heatOf s f = none ∨ isTapping s f = true) :
    handleCloseHeat q body s = (s, replyRefused .wrongState) := by
  unfold handleCloseHeat
  rw [onDeck_eq deck]
  rcases closed with none' | tapping
  · rw [none']
    rfl
  · obtain ⟨h, heat, state⟩ := (isTapping_iff s f).mp tapping
    rw [heat]
    exact if_pos state

theorem handleRestate_wrongState
    (unfit : slotOf s f = .empty ∨ ∃ h ∈ heatOf s f, h.state = .melting ∨ h.state = .tapping) :
    handleRestate q body s = (s, replyRefused .wrongState) := by
  unfold handleRestate
  rw [onDeck_eq deck]
  rcases unfit with empty | ⟨h, heat, state⟩
  · rw [empty]
    rfl
  · rw [heatOf_some heat]
    exact if_pos state

end

theorem openTaken_over {f : Furnace} {m : Material} {mass : Nat} {s : State} (large : capacity s f < raiseMass mass) :
    openTaken f m mass s = (s, replyRefused .overCapacity) := if_pos large

theorem chargeTaken_over {f : Furnace} {h : Heat} {m : Material} {mass : Nat} {s : State}
    (large : capacity s f < h.bathMass + raiseMass mass) :
    chargeTaken f h m mass s = (s, replyRefused .overCapacity) := if_pos large

/-- Settles O7: each refusal is one equation of its handler. -/
theorem heatRequestsRefused : Obligations.HeatRequestsRefused := by
  intro q tag body s ready f deck
  refine ⟨fun size => ?_, fun size => ?_, fun size => ?_, fun size closed => ?_⟩
  · have opens : DeckKind .openHeat 3 := ⟨rfl, fun _ _ => rfl⟩
    have charges : DeckKind .addCharge 3 := ⟨rfl, fun _ _ => rfl⟩
    refine ⟨fun full => opens.unchanged ready size deck (handleOpenHeat_wrongState deck full),
      fun empty out => opens.unchanged ready size deck (handleOpenHeat_badKind deck empty (materialOf_none out)),
      fun empty low high large => ?_,
      fun closed => charges.unchanged ready size deck (handleAddCharge_wrongState deck closed),
      fun h heat solid => ⟨fun out => charges.unchanged ready size deck
          (handleAddCharge_badKind deck heat solid (materialOf_none out)), fun low high full => ?_,
        fun low high room large => ?_⟩⟩
    · obtain ⟨m, known⟩ := materialOf_some low high
      exact opens.unchanged ready size deck ((handleOpenHeat_taken (s := dropAssembly q s) deck empty known).trans (openTaken_over large))
    · obtain ⟨m, known⟩ := materialOf_some low high
      exact charges.unchanged ready size deck (handleAddCharge_listFull deck heat solid known full)
    · obtain ⟨m, known⟩ := materialOf_some low high
      exact charges.unchanged ready size deck
        ((handleAddCharge_taken (s := dropAssembly q s) deck heat solid known room).trans (chargeTaken_over large))
  · have power : DeckKind .setMeltPower 2 := ⟨rfl, fun _ _ => rfl⟩
    have target : DeckKind .setHoldTarget 2 := ⟨rfl, fun _ _ => rfl⟩
    have restates : DeckKind .restate 2 := ⟨rfl, fun _ _ => rfl⟩
    exact ⟨fun none' => ⟨power.unchanged ready size deck (handleSetMeltPower_wrongState deck none'),
        target.unchanged ready size deck (handleSetHoldTarget_wrongState deck none')⟩,
      fun unfit => restates.unchanged ready size deck (handleRestate_wrongState deck unfit)⟩
  · have chemistry : DeckKind .setChemistry 1 := ⟨rfl, fun _ _ => rfl⟩
    refine ⟨fun none' => chemistry.unchanged ready size deck (handleSetChemistry_wrongState deck none'), fun some' out => ?_⟩
    obtain ⟨h, heat⟩ := Option.isSome_iff_exists.mp some'
    exact chemistry.unchanged ready size deck (handleSetChemistry_badKind deck heat (chemistryOf_none out))
  · have closes : DeckKind .closeHeat 0 := ⟨rfl, fun _ _ => rfl⟩
    exact closes.unchanged ready size deck (handleCloseHeat_wrongState (body := body) deck closed)

end Sys2Proof.Machine
end


section
/-! SHED, FURNACE-ON and SET-MELT-POWER (R44, R46, R61, R63): a change of an input with the allotment computed again, and
what a second computation on the same inputs leaves. -/

namespace Sys2Proof.Machine

/-! ### Two computations on the same inputs -/

/-- The priority output follows from the classes and the stamps (R53). -/
theorem PriorityRule.agree {s t : State} (inputs : InputsStand s t) (hs : PriorityRule s) (ht : PriorityRule t) :
    t.allot.priority = s.allot.priority := by
  unfold PriorityRule at hs ht
  simp only [inputs.askingClass, inputs.stampOf] at ht
  generalize s.allot.priority = p at *
  generalize t.allot.priority = r at *
  rcases furnace_cases p r with same | other
  · exact same
  · rw [other, otherFurnace_other] at ht
    cases p with
    | a =>
      simp only [otherFurnace, reduceCtorEq, and_false, or_false, true_and, and_true] at hs ht
      omega
    | b =>
      simp only [otherFurnace, reduceCtorEq, and_false, or_false, true_and, and_true] at hs ht
      omega

/-- An output's grant, mode, reserve and command follow from its inputs, its request and what is available, and in PULSE
mode from the phase, which stands (R54, R57, R58). -/
theorem OutputRule.agree {s t : State} {f : Furnace} {available : Nat} (inputs : InputsStand s t)
    (same : asked t f = asked s f) (hs : OutputRule s f available) (ht : OutputRule t f available)
    (pulse : PulseComputed (s.allot.out.get f) (t.allot.out.get f)) :
    (t.allot.out.get f).command = (s.allot.out.get f).command
      ∧ (t.allot.out.get f).reserve = (s.allot.out.get f).reserve := by
  have least : minCont t f = minCont s f := inputs.setting _
  unfold OutputRule at hs ht
  dsimp only at hs ht
  rw [least, inputs.boundsOn, same] at ht
  obtain ⟨-, -, capS, grantS, -, contS, pulseS, offS, contOutS, pulseOutS, -⟩ := hs
  obtain ⟨-, -, capT, grantT, -, contT, pulseT, offT, contOutT, pulseOutT, -⟩ := ht
  have grant : (t.allot.out.get f).grant = (s.allot.out.get f).grant := by rw [grantT, grantS, capT, capS]
  rw [grant] at contT pulseT contOutT
  have cont : (t.allot.out.get f).mode = .cont ↔ (s.allot.out.get f).mode = .cont := contT.trans contS.symm
  have pulses : (t.allot.out.get f).mode = .pulse ↔ (s.allot.out.get f).mode = .pulse := pulseT.trans pulseS.symm
  cases mode : (t.allot.out.get f).mode with
  | cont =>
    obtain ⟨reserveT, commandT⟩ := contOutT mode
    obtain ⟨reserveS, commandS⟩ := contOutS (cont.mp mode)
    exact ⟨commandT.trans commandS.symm, reserveT.trans reserveS.symm⟩
  | pulse =>
    have was := pulses.mp mode
    obtain ⟨reserveT, commandT, -⟩ := pulseOutT mode
    obtain ⟨reserveS, commandS, -⟩ := pulseOutS was
    obtain ⟨-, stands⟩ := pulse
    have kept := stands mode
    rw [if_pos was] at kept
    obtain ⟨-, phase, -⟩ := kept
    exact ⟨by rw [commandT, commandS, phase], reserveT.trans reserveS.symm⟩
  | off =>
    have was : (s.allot.out.get f).mode = .off := by
      cases old : (s.allot.out.get f).mode with
      | off => rfl
      | cont =>
        rw [cont.mpr old] at mode
        cases mode
      | pulse =>
        rw [pulses.mpr old] at mode
        cases mode
    exact ⟨(offT mode).2.trans (offS was).2.symm, (offT mode).1.trans (offS was).1.symm⟩

/-- On the same inputs and requests a second computation gives the same commands. -/
theorem AllotmentCurrent.commands {s t : State} (hs : AllotmentCurrent s) (ht : AllotmentCurrent t)
    (loaded : loading s = false) (loadedT : loading t = false) (inputs : InputsStand s t)
    (shed : t.allot.shed = s.allot.shed) (pulse : ∀ f, PulseComputed (s.allot.out.get f) (t.allot.out.get f))
    (same : ∀ f, asked t f = asked s f) (f : Furnace) :
    (t.allot.out.get f).command = (s.allot.out.get f).command := by
  obtain ⟨⟨ceilingS, budgetS⟩, ruleS⟩ := hs
  obtain ⟨⟨ceilingT, budgetT⟩, ruleT⟩ := ht
  rw [if_neg (by rw [loaded]; decide)] at ruleS
  rw [if_neg (by rw [loadedT]; decide)] at ruleT
  obtain ⟨priorityS, firstS, secondS⟩ := ruleS
  obtain ⟨priorityT, firstT, secondT⟩ := ruleT
  have budget : t.allot.budget = s.allot.budget := by
    rw [budgetT, budgetS, ceilingT, ceilingS, shed]
    unfold supplyRating shedCeiling demandCeiling
    simp only [inputs.setting]
  rw [priorityS.agree inputs priorityT, budget] at firstT secondT
  obtain ⟨command, reserve⟩ := firstS.agree inputs (same _) firstT (pulse _)
  rw [reserve] at secondT
  rcases furnace_cases s.allot.priority f with priority | other
  · rw [priority]
    exact command
  · rw [other]
    exact (secondS.agree inputs (same _) secondT (pulse _)).1

/-- The follow-up of a change leaves what the computation reads. -/
theorem Coordinated.inputs {kinds : List NoticeKind} {s t : State} (h : Coordinated kinds s t) : InputsStand s t := by
  obtain ⟨frame, -, handed, tap, -⟩ := h
  have heat : t.heat = s.heat := by rw [frame]
  have prot : t.prot = s.prot := by rw [frame]
  exact {
    heats := fun f => by rw [show heatOf t f = heatOf s f by unfold heatOf slotOf; rw [heat]]
    stopped := fun f => by rw [heat]
    shop := by rw [frame]
    link := handed.link
    last := handed.last
    circuits := fun c => by unfold circuitOf; rw [prot]
    granted := fun f => by unfold grantedFor; rw [tap.permit]
    pending := fun f => by unfold pendingFor; rw [tap.permit]
    tilt := fun f => by unfold tiltOf; rw [tap.tilt]
    working := by rw [frame] }

/-- A heat of class HOLD asks without regard to the melt request (R45). -/
theorem asked_of_hold {s : State} {f : Furnace} {h : Heat} (heat : heatOf s f = some h) (hold : heatClass h = .hold)
    (x : Allotment) : asked { s with allot := x } f = asked s f := by
  have heat' : heatOf { s with allot := x } f = some h := heat
  unfold heatClass at hold
  unfold asked
  rw [heat, heat']
  dsimp only
  cases state : h.state with
  | melting =>
    rw [state] at hold
    cases hold
  | superheat =>
    rw [state] at hold
    cases estimate : h.estimate with
    | none => rfl
    | some e =>
      rw [estimate] at hold
      cases hold
  | holding => rfl
  | tapReady => rfl
  | tapping => rfl

/-! ### SHED and FURNACE-ON -/

/-- The follow-up with the budget set anew is that of the change of SHED: the budget is computed again. -/
theorem setShed_coordinated {active : Bool} {s : State} (loaded : loading s = false) :
    Coordinated [] { s with allot := { s.allot with shed := active } } (setShed active s) :=
  recompute_coordinated (setBudget { s with allot := { s.allot with shed := active } }) loaded

theorem Coordinated.budget {kinds : List NoticeKind} {s t : State} (h : Coordinated kinds s t) :
    t.allot.ceiling = (if s.allot.shed = true then shedCeiling s else demandCeiling s)
      ∧ t.allot.budget = min (supplyRating s) t.allot.ceiling / 10 * 10 := by
  have inputs := h.inputs
  obtain ⟨-, ⟨shed, -⟩, -, -, -, -, -, ⟨ceiling, budget⟩, -⟩ := h
  rw [shed] at ceiling
  unfold shedCeiling demandCeiling supplyRating at *
  simp only [inputs.setting] at ceiling budget
  exact ⟨ceiling, budget⟩

theorem handleFurnaceOn_deck {q : Port} {f : Furnace} {s : State} {body : List Byte} (deck : portFurnace q = some f) :
    handleFurnaceOn q body s = (recompute (setStopped f false s), replyDone []) := onDeck_eq deck _ s

/-- Settles O14. -/
theorem shedAndFurnaceOnRecompute : Obligations.ShedAndFurnaceOnRecompute := by
  intro q tag body active s on
  have runs : exec (.shedChange active) s = .next (setShed active s) := live_powered (setShed active) s on
  refine ⟨fun loaded => ?_, fun loads => runs.trans (congrArg _ (recompute_loading _ loads)), fun ready size f deck => ?_⟩
  · have frame := setShed_coordinated (active := active) loaded
    obtain ⟨ceiling, budget⟩ := frame.budget
    exact ⟨_, runs, frame, ceiling, by rw [budget, ceiling]; rfl⟩
  · have kind : DeckKind .furnaceOn 0 := ⟨rfl, fun _ _ => rfl⟩
    have ⟨_, loaded, _⟩ := ready
    have frame : Coordinated [] (dropAssembly q (setStopped f false s)) _ :=
      recompute_coordinated (setStopped f false (dropAssembly q s)) loaded
    exact ⟨_, kind.runs ready size deck (handleFurnaceOn_deck (body := body) deck), frame.answered⟩

/-! ### SET-MELT-POWER -/

theorem setMeltRequest_record (f g : Furnace) (n : Nat) (s : State) :
    ∃ m, (setMeltRequest f n s).allot.out.get g = { s.allot.out.get g with meltRequest := m } := by
  rw [setMeltRequest_allot]
  dsimp only
  rw [PerFurnace.get_set]
  split
  · next e => exact ⟨n, by rw [e]⟩
  · exact ⟨_, rfl⟩

theorem setMeltRequest_inputs (f : Furnace) (n : Nat) (s : State) : InputsStand s (setMeltRequest f n s) :=
  ⟨fun _ => rfl, fun _ => rfl, rfl, rfl, rfl, fun _ => rfl, fun _ => rfl, fun _ => rfl, fun _ => rfl, rfl⟩

/-- A change of its melt request leaves what a furnace of class HOLD asks, and what the other asks (R45, R46). -/
theorem asked_setMeltRequest {f : Furnace} {h : Heat} {s : State} (heat : heatOf s f = some h)
    (hold : heatClass h = .hold) (n : Nat) (g : Furnace) : asked (setMeltRequest f n s) g = asked s g := by
  by_cases e : g = f
  · rw [e]
    exact asked_of_hold heat hold _
  · refine (setMeltRequest_inputs f n s).asked g ?_
    rw [setMeltRequest_allot]
    dsimp only
    rw [PerFurnace.get_set_other _ _ e]

/-- A change of one furnace's melt request leaves the commands where that furnace is of class HOLD (R45, R46). -/
theorem setMeltRequest_command {f : Furnace} {h : Heat} {n : Nat} {s t : State} (heat : heatOf s f = some h)
    (hold : heatClass h = .hold) (law : PowerLaw s) (loaded : loading s = false)
    (followed : Coordinated [] (setMeltRequest f n s) t) (g : Furnace) :
    (t.allot.out.get g).command = (s.allot.out.get g).command := by
  have loadedT : loading t = false := followed.loading.trans loaded
  have ⟨heats, stopped, shop, link, last, circuits, granted, pending, tilt, working⟩ := followed.inputs
  have melts : ∀ x, (t.allot.out.get x).meltRequest = ((setMeltRequest f n s).allot.out.get x).meltRequest := by
    obtain ⟨-, ⟨-, records⟩, -⟩ := followed
    exact fun x => (records x).1
  have same : ∀ x, asked t x = asked s x := fun x =>
    (followed.inputs.asked x (melts x)).trans (asked_setMeltRequest heat hold n x)
  obtain ⟨current, -⟩ := law
  obtain ⟨-, ⟨shed, records⟩, -, -, -, -, -, currentT⟩ := followed
  refine current.commands currentT loaded loadedT
    ⟨heats, stopped, shop, link, last, circuits, granted, pending, tilt, working⟩ shed (fun x => ?_) same g
  obtain ⟨-, pulse⟩ := records x
  obtain ⟨m, record⟩ := setMeltRequest_record f x n s
  rw [record] at pulse
  exact pulse

/-- Settles O10. -/
theorem setMeltPowerStoresRequest : Obligations.SetMeltPowerStoresRequest := by
  intro q tag body s ready size f deck
  have kind : DeckKind .setMeltPower 2 := ⟨rfl, fun _ _ => rfl⟩
  have ⟨_, loaded, _⟩ := ready
  refine ⟨fun none' => kind.unchanged ready size deck (handleSetMeltPower_wrongState deck none'), fun h heat => ?_⟩
  have taken := handleSetMeltPower_taken (s := dropAssembly q s) (body := body) deck heat
  have frame : Coordinated []
      (dropAssembly q (setMeltRequest f (min (floor10 (field body 0 2)) (floor10 (outputMax s f))) s)) _ :=
    recompute_coordinated (setMeltRequest f (min (floor10 (field body 0 2)) (floor10 (outputMax s f))) (dropAssembly q s))
      loaded
  have heats : ∀ x, Coordinated [] (dropAssembly q (setMeltRequest f x s)) (recompute (setMeltRequest f x (dropAssembly q s)))
      → (recompute (setMeltRequest f x (dropAssembly q s))).heat = s.heat := fun x followed => by rw [followed.1]; rfl
  refine ⟨_, kind.runs ready size deck taken, frame.answered, ?_, ?_, fun hold law => ?_⟩
  · obtain ⟨-, ⟨-, records⟩, -⟩ := frame
    exact (records f).1.trans (congrArg AllotRec.meltRequest (PerFurnace.get_set_same _ f _))
  · exact congrArg (fun x => (x.slots.get f).stopped) (heats _ frame)
  · exact setMeltRequest_command (s := dropAssembly q s) heat hold law loaded frame f

end Sys2Proof.Machine
end


section
/-! Every command answers with a next state (R63, log 7), and what an empty queue does (log 1). -/

namespace Sys2Proof.Machine

/-! ### Every command answers -/

/-- But for the two resets a command acts on the powered part alone. -/
theorem exec_live (c : Instr) :
    (∃ l, c = .coldStart l) ∨ (∃ l, c = .warmRestart l) 
      ∨ ∃ g, (∀ s, exec c s = live g s) ∧ (∀ l, c ≠ .coldStart l) ∧ ∀ l, c ≠ .warmRestart l := by
  cases c with
  | coldStart l => exact .inl ⟨l, rfl⟩
  | warmRestart l => exact .inr (.inl ⟨l, rfl⟩)
  | _ => exact .inr (.inr ⟨_, fun _ => rfl, nofun, nofun⟩)

theorem putPulse_pending (f : Furnace) (x : AllotRec) (s : State) : (putPulse f x s).pending = s.pending := by
  unfold putPulse putAllotment
  split <;> simp

theorem tickClock_pending (s : State) : (tickClock s).pending = s.pending := by rw [tickClock_shape]

theorem loadBegun_pending (good : Bool) (s : State) : (loadBegun good s).pending = s.pending := by
  rw [(loadBegun_only good s).frame]

/-- No kind of step reads or writes the queue. -/
theorem StepKind.pending {i : Option Instr} {s t : State} (k : StepKind s i t) : t.pending = s.pending := by
  cases k with
  | load on waiting ack first derived rest =>
    exact rest.stands.pending.trans (first.stands.pending.trans (loadBegun_pending _ s))
  | moves on reset allowed moves => exact moves.stands.pending
  | period | onPhase => exact putPulse_pending _ _ s
  | dark | ms => exact tickClock_pending _
  | cold | warm | loss | buffered | same => rfl

/-- Settles O3. -/
theorem everyCommandAnswersNext : Obligations.EveryCommandAnswersNext := by
  intro c s
  rcases exec_live c with ⟨l, rfl⟩ | ⟨l, rfl⟩ | ⟨g, acts, cold, warm⟩
  · exact ⟨_, rfl, (StepKind.cold l).pending, fun _ => rfl⟩
  · exact ⟨_, rfl, (StepKind.warm l).pending, fun _ => rfl⟩
  · cases on : s.powered with
    | true =>
      have runs := (acts s).trans (live_powered g s on)
      exact ⟨_, runs, (exec_kind runs).pending, fun off => by cases off⟩
    | false =>
      have runs := (acts s).trans (live_unpowered g s on)
      refine ⟨s, runs, rfl, fun _ => ?_⟩
      split
      · next l => exact absurd rfl (cold l)
      · next l => exact absurd rfl (warm l)
      · rfl

end Sys2Proof.Machine
end


section
/-! Time on an empty queue: what is owed, and one millisecond (log 1). -/

namespace Sys2Proof.Machine

/-! ### One millisecond -/

theorem tickClock_counted (s : State) :
    tickClock s = { s with clock := clockCounted (s.powered && !loading s) s.clock } := by
  unfold tickClock clockCounted
  dsimp only
  by_cases late : 999 ≤ s.clock.subMs
  · rw [if_pos late, if_neg (by omega)]
    rfl
  · rw [if_neg late, if_pos (by omega)]

theorem tickStage_kick (x : Stage) : tickStage x.kick
    = { x.kick with deadline := counted x.deadline, refresh := min 500 (x.kick.refresh + 1) } := by
  rw [← (Stage.kick_handed x).deadline]
  rfl

theorem tick_counted {s : State} (on : s.powered = true) : Counted s (tick s) := by
  have clock : clockCounted (s.powered && !loading s) s.clock = clockCounted (!loading s) s.clock := by
    rw [on, Bool.true_and]
  unfold tick Counted
  rw [if_pos on, tickClock_counted]
  exact State.eq_of_fields rfl rfl clock rfl rfl rfl rfl (tickStage_kick s.stage) rfl rfl rfl rfl rfl

theorem tick_dark {s : State} (off : s.powered = false) : tick s = { s with clock := clockCounted false s.clock } := by
  unfold tick
  rw [off, if_neg (by decide), tickClock_counted, off]
  rfl

/-! ### What is owed -/

theorem exists_port {P : Port → Prop} : (∃ q, P q) ↔ P .a ∨ P .b ∨ P .p :=
  ⟨fun ⟨q, h⟩ => by cases q <;> simp [h], by rintro (h | h | h) <;> exact ⟨_, h⟩⟩

theorem exists_furnace {P : Furnace → Prop} : (∃ f, P f) ↔ P .a ∨ P .b :=
  ⟨fun ⟨f, h⟩ => by cases f <;> simp [h], by rintro (h | h) <;> exact ⟨_, h⟩⟩

theorem exists_circuit {P : Circuit → Prop} : (∃ c, P c) ↔ P .coilA ∨ P .coilB ∨ P .cabinet :=
  ⟨fun ⟨c, h⟩ => by cases c <;> simp [h], by rintro (h | h | h) <;> exact ⟨_, h⟩⟩

theorem reached_iff (t : Option Nat) (limit : Nat) : reached t limit = true ↔ CountedTo limit t := by
  cases t <;> simp [reached, CountedTo]

theorem mem_owedIf (b : Bool) (c d : Instr) : c ∈ owedIf b d ↔ c = d ∧ b = true := by
  cases b <;> simp [owedIf]

/-- A command is owed as its condition has it. -/
theorem mem_owedIf_of {s : State} {b : Bool} {d : Instr} (due : b = true ↔ OwedWhen s d) (c : Instr) :
    c ∈ owedIf b d ↔ c = d ∧ OwedWhen s c := by
  rw [mem_owedIf, due]
  constructor <;> rintro ⟨rfl, owes⟩ <;> exact ⟨rfl, owes⟩

theorem mem_owedLink (s : State) (c : Instr) :
    c ∈ owedLink s ↔ (c = .refreshTimerExpiry ∨ c = .reportDeadlineExpiry ∨ (∃ q, c = .attnGapEnd q) ∨ c = .channelIdleExpiry)
      ∧ OwedWhen s c := by
  have refresh : (decide (Config.refreshMs ≤ s.stage.refresh) && !s.stage.pendingSetpoint) = true
      ↔ OwedWhen s .refreshTimerExpiry := by
    rw [Bool.and_eq_true, decide_eq_true_iff, Bool.not_eq_true']
    rfl
  have report : (s.stage.link == .up && reached s.stage.deadline Config.reportDeadlineMs) = true
      ↔ OwedWhen s .reportDeadlineExpiry := by simp [OwedWhen, reached_iff, Config.reportDeadlineMs]
  have gap : ∀ q, reached (s.ports.get q).gap Config.gapMs = true ↔ OwedWhen s (.attnGapEnd q) := fun q => reached_iff _ _
  have idle : (s.sett.owner.isSome && reached s.sett.idle Config.channelIdleMs) = true ↔ OwedWhen s .channelIdleExpiry := by
    simp [OwedWhen, reached_iff, Config.channelIdleMs, Option.isSome_iff_ne_none]
  unfold owedLink
  simp only [List.mem_append, mem_owedIf_of refresh, mem_owedIf_of report, mem_owedIf_of idle,
    show c ∈ owedIf (reached s.ports.a.gap Config.gapMs) (.attnGapEnd .a) ↔ _ from mem_owedIf_of (gap .a) c,
    show c ∈ owedIf (reached s.ports.b.gap Config.gapMs) (.attnGapEnd .b) ↔ _ from mem_owedIf_of (gap .b) c,
    show c ∈ owedIf (reached s.ports.p.gap Config.gapMs) (.attnGapEnd .p) ↔ _ from mem_owedIf_of (gap .p) c,
    ← or_and_right, or_assoc, exists_port]

theorem mem_owedStale {s : State} {p : Chan → Bool} (due : ∀ ch, p ch = true ↔ OwedWhen s (.channelStale ch)) (c : Instr) :
    c ∈ (allChans.filter p).map Instr.channelStale ↔ (∃ ch, c = .channelStale ch) ∧ OwedWhen s c := by
  have every : ∀ ch : Chan, ch ∈ allChans := fun ch => by cases ch <;> decide
  rw [List.mem_map]
  constructor
  · rintro ⟨ch, passes, rfl⟩
    exact ⟨⟨ch, rfl⟩, (due ch).mp (List.mem_filter.mp passes).2⟩
  · rintro ⟨⟨ch, rfl⟩, owes⟩
    exact ⟨ch, List.mem_filter.mpr ⟨every ch, (due ch).mpr owes⟩, rfl⟩

theorem mem_owedScan (s : State) (c : Instr) :
    c ∈ owedScan s ↔ (c = .sweepUnit ∨ (∃ ch, c = .channelStale ch) ∨ ∃ f, c = .dipTimerExpiry f) ∧ OwedWhen s c := by
  have sweep : (s.scan.running && reached s.scan.sweepTimer Config.sweepMs) = true ↔ OwedWhen s .sweepUnit := by
    rw [Bool.and_eq_true, reached_iff]
    rfl
  have dip : ∀ f, ((s.scan.dips.get f).state == .sampling && reached (s.scan.dips.get f).timer Config.dipMs) = true
      ↔ OwedWhen s (.dipTimerExpiry f) := fun f => by
    rw [Bool.and_eq_true, reached_iff, beq_iff_eq]
    rfl
  have dipA := mem_owedIf_of (dip .a) c
  have dipB := mem_owedIf_of (dip .b) c
  unfold owedScan
  rw [List.mem_append, List.mem_append, List.mem_append, mem_owedIf_of sweep, mem_owedStale (s := s)]
  · simp only [PerFurnace.get] at dipA dipB
    simp only [dipA, dipB, ← or_and_right, or_assoc, exists_furnace]
  · intro ch
    unfold OwedWhen
    rw [Bool.and_eq_true, Bool.and_eq_true, Bool.or_eq_true, beq_iff_eq, beq_iff_eq, and_assoc]
    refine and_congr_right fun _ => and_congr_right fun _ => ?_
    cases (chanOf s ch).updatedAt with
    | none => simp
    | some t => exact decide_eq_true_iff.trans (by simp [Config.staleMs])

theorem mem_owedCircuit (s : State) (x : Circuit) (c : Instr) :
    c ∈ owedCircuit s x ↔ (c = .watchTimerExpiry x ∨ c = .derateTimerExpiry x ∨ c = .recoveryTimerExpiry x)
      ∧ OwedWhen s c := by
  have watch : ((circuitOf s x).state == .watch && (circuitOf s x).watch.due (watchTime s)) = true
      ↔ OwedWhen s (.watchTimerExpiry x) := by
    rw [Bool.and_eq_true, due_iff, beq_iff_eq]
    rfl
  have derate : ((circuitOf s x).state == .derate && (circuitOf s x).derate.due (derateTime s)) = true
      ↔ OwedWhen s (.derateTimerExpiry x) := by
    rw [Bool.and_eq_true, due_iff, beq_iff_eq]
    rfl
  have recovery : ((circuitOf s x).state == .derate && (circuitOf s x).recovery.due (recoverTime s)) = true
      ↔ OwedWhen s (.recoveryTimerExpiry x) := by
    rw [Bool.and_eq_true, due_iff, beq_iff_eq]
    rfl
  unfold owedCircuit
  dsimp only
  rw [List.mem_append, List.mem_append, mem_owedIf_of watch, mem_owedIf_of derate, mem_owedIf_of recovery]
  simp only [← or_and_right, or_assoc]

/-- The commands of a circuit's timers. -/
def IsCircuitTimer (c : Instr) : Prop :=
  ∃ x, c = .watchTimerExpiry x ∨ c = .derateTimerExpiry x ∨ c = .recoveryTimerExpiry x

theorem mem_owedProtection (s : State) (c : Instr) :
    c ∈ owedProtection s ↔ (IsCircuitTimer c ∨ c = .pressureTimerExpiry ∨ c = .settleTimerExpiry) ∧ OwedWhen s c := by
  have pressure : ((s.prot.loop.state == some .main || s.prot.loop.state == some .standby)
      && reached s.prot.loop.pressure Config.pressureMs) = true ↔ OwedWhen s .pressureTimerExpiry := by
    rw [Bool.and_eq_true, Bool.or_eq_true, reached_iff, beq_iff_eq, beq_iff_eq]
    rfl
  have settle : (inChangeover s && reached s.prot.loop.settle (standbySettle s * 1000)) = true
      ↔ OwedWhen s .settleTimerExpiry := by
    unfold inChangeover
    rw [Bool.and_eq_true, reached_iff, beq_iff_eq]
    rfl
  unfold owedProtection IsCircuitTimer
  simp only [List.mem_append, mem_owedCircuit, mem_owedIf_of pressure, mem_owedIf_of settle, ← or_and_right, or_assoc,
    exists_circuit]

theorem mem_owedDeck (s : State) (f : Furnace) (c : Instr) : c ∈ owedDeck s f ↔ c = .deckOffHold f ∧ OwedWhen s c := by
  refine mem_owedIf_of ?_ c
  rw [Bool.and_eq_true, Bool.and_eq_true, Bool.not_eq_true', reached_iff, and_assoc]
  rfl

theorem mem_owedShop (s : State) (c : Instr) :
    c ∈ owedShop s ↔ ((∃ f, c = .deckOffHold f) ∨ c = .breakerStuckExpiry) ∧ OwedWhen s c := by
  have stuck : (s.lines.breakerClosed && reached s.shop.stuckTimer Config.stuckMs) = true ↔ OwedWhen s .breakerStuckExpiry := by
    rw [Bool.and_eq_true, reached_iff]
    rfl
  unfold owedShop
  simp only [List.mem_append, mem_owedDeck, mem_owedIf_of stuck, ← or_and_right, exists_furnace]

theorem mem_owedPermit (s : State) (c : Instr) :
    c ∈ owedPermit s ↔ (c = .tapConfirmExpiry ∨ c = .permitUseExpiry ∨ c = .tapMaxExpiry ∨ c = .weightWaitExpiry)
      ∧ OwedWhen s c := by
  unfold owedPermit
  cases held : s.tap.permit with
  | none =>
    refine ⟨fun owes => absurd owes List.not_mem_nil, fun ⟨kind, owes⟩ => ?_⟩
    rcases kind with rfl | rfl | rfl | rfl <;> simp [OwedWhen, held] at owes
  | some p =>
    have confirm : (p.state == .pending && reached p.confirm (tapConfirmTime s * 1000)) = true
        ↔ OwedWhen s .tapConfirmExpiry := by simp [OwedWhen, held, reached_iff]
    have use : (p.state == .granted && p.forwardAt.isNone && reached p.use (permitUseTime s * 1000)) = true
        ↔ OwedWhen s .permitUseExpiry := by simp [OwedWhen, held, reached_iff, and_assoc]
    have tap : (p.state == .granted && !p.longPosted && reached p.tap (tapMaxTime s * 1000)) = true
        ↔ OwedWhen s .tapMaxExpiry := by simp [OwedWhen, held, reached_iff, and_assoc]
    have weight : (p.state == .granted && reached p.weightWait (weightWaitTime s * 1000)) = true
        ↔ OwedWhen s .weightWaitExpiry := by simp [OwedWhen, held, reached_iff]
    simp only [List.mem_append, mem_owedIf_of confirm, mem_owedIf_of use, mem_owedIf_of tap, mem_owedIf_of weight,
      ← or_and_right, or_assoc]

theorem lapsed_iff (e : Entry) (second : Nat) : e.lapsed second = true ↔ ∃ d ∈ e.deadline, e.postedAt + d ≤ second := by
  unfold Entry.lapsed
  cases e.deadline <;> simp

theorem permitOfEntry_isNone_iff (s : State) (id : Nat) :
    (permitOfEntry s id).isNone = true ↔ ∀ p ∈ s.tap.permit, p.requestId ≠ id := by
  unfold permitOfEntry
  cases s.tap.permit <;> simp

theorem mem_owedLapses (s : State) (c : Instr) : c ∈ owedLapses s ↔ (∃ id, c = .entryLapse id) ∧ OwedWhen s c := by
  unfold owedLapses
  rw [List.mem_map]
  constructor
  · rintro ⟨e, passes, rfl⟩
    obtain ⟨queued, passes⟩ := List.mem_filter.mp passes
    rw [Bool.and_eq_true, lapsed_iff, permitOfEntry_isNone_iff] at passes
    exact ⟨⟨e.id, rfl⟩, passes.2, e, queued, rfl, passes.1⟩
  · rintro ⟨⟨id, rfl⟩, free, e, queued, rfl, late⟩
    refine ⟨e, List.mem_filter.mpr ⟨queued, ?_⟩, rfl⟩
    rw [Bool.and_eq_true, lapsed_iff, permitOfEntry_isNone_iff]
    exact ⟨late, free⟩

theorem mem_owedPulse (s : State) (f : Furnace) (c : Instr) :
    c ∈ owedPulse s f ↔ (c = .pulsePeriodStart f ∨ c = .pulseOffPhase f) ∧ OwedWhen s c := by
  have period : ((s.allot.out.get f).mode == .pulse && reached (s.allot.out.get f).period Config.pulsePeriodMs) = true
      ↔ OwedWhen s (.pulsePeriodStart f) := by
    rw [Bool.and_eq_true, reached_iff, beq_iff_eq]
    rfl
  have onPhase : ((s.allot.out.get f).mode == .pulse && (s.allot.out.get f).phase == some .on
      && reached (s.allot.out.get f).period ((s.allot.out.get f).duty.getD 10 * 1000)) = true
      ↔ OwedWhen s (.pulseOffPhase f) := by
    rw [Bool.and_eq_true, Bool.and_eq_true, reached_iff, beq_iff_eq, beq_iff_eq, and_assoc]
    rfl
  unfold owedPulse
  dsimp only
  rw [List.mem_append, mem_owedIf_of period, mem_owedIf_of onPhase, or_and_right]

theorem mem_owedSeconds (s : State) (c : Instr) :
    c ∈ owedSeconds s ↔ ((∃ f, c = .estimatorSecond f) ∨ c = .readinessSecond) ∧ OwedWhen s c := by
  have a : s.clock.estDue.a = true ↔ OwedWhen s (.estimatorSecond .a) := Iff.rfl
  have b : s.clock.estDue.b = true ↔ OwedWhen s (.estimatorSecond .b) := Iff.rfl
  have ready : s.clock.readyDue = true ↔ OwedWhen s .readinessSecond := Iff.rfl
  unfold owedSeconds
  simp only [List.mem_append, mem_owedIf_of a, mem_owedIf_of b, mem_owedIf_of ready, ← or_and_right, exists_furnace]

/-- Settles O2. -/
theorem emptyQueueTakesTime : Obligations.EmptyQueueTakesTime := by
  intro s empty
  refine ⟨?_, fun c => ?_⟩
  · rw [step_idle s empty]
    unfold idle
    cases owed s with
    | cons c rest => rfl
    | nil => exact ⟨_, rfl, tick_counted, tick_dark⟩
  · unfold owed
    cases on : s.powered with
    | false => simp
    | true =>
      rw [if_pos rfl]
      simp only [List.mem_append, mem_owedLink, mem_owedScan, mem_owedProtection, mem_owedShop, mem_owedPermit,
        mem_owedLapses, mem_owedPulse, mem_owedSeconds, ← or_and_right, true_and]
      refine and_iff_right_of_imp fun owes => ?_
      cases c with
      | pulsePeriodStart f | pulseOffPhase f => cases f <;> simp
      | _ => simp [OwedWhen, IsCircuitTimer] at owes ⊢

end Sys2Proof.Machine
end


section
/-! What a step of protection has left stands through its follow-up (R109); the timers of a circuit (R106 to R108). -/

namespace Sys2Proof.Machine

/-! ### What stands through the follow-up -/

theorem ProtFrame.trips {s t : State} (h : ProtFrame s t) : TripsTaken s t := by
  obtain ⟨-, -, -, -, -, -, -, -, -, -, -, -, trips, -⟩ := h
  exact trips

section
variable {s u t : State} (f : FollowedUp u t)
include f

theorem FollowedUp.circuit (c : Circuit) : circuitOf t c = circuitOf u c := by
  unfold circuitOf
  rw [f.1]

theorem FollowedUp.loop : t.prot.loop = u.prot.loop := by rw [f.1]

theorem FollowedUp.noticed {d : Detail} (h : Noticed d u) (out : d.kind ∉ settleKinds) : Noticed d t := by
  obtain ⟨-, -, -, noted⟩ := f
  exact h.keep noted out

theorem FollowedUp.cooling (h : Noticed (coolingDetail u) u) : Noticed (coolingDetail t) t := by
  have same : coolingDetail t = coolingDetail u := by
    unfold coolingDetail
    rw [f.1]
  rw [same]
  exact f.noticed h (by simp [coolingDetail, Detail.kind, settleKinds, followKinds, matchKinds, refusalKinds])

theorem FollowedUp.leakNoticed (h : LeakNoticed s u) : LeakNoticed s t := by
  obtain ⟨prot, -, -, noted⟩ := f
  exact h.keep (by unfold leakWarned; rw [prot]) (by rw [prot]) noted (by decide)

theorem FollowedUp.breaker (h : BreakerAsserted s u) : BreakerAsserted s t := by
  obtain ⟨-, trip, timer, -⟩ := f
  unfold BreakerAsserted
  rw [trip, timer]
  exact h

theorem FollowedUp.moved {c : Circuit} {g : CircuitRec → CircuitRec} (h : CircuitMoved c g s u) : CircuitMoved c g s t := by
  obtain ⟨circuits, loop, leak, cooled⟩ := h
  exact ⟨by rw [f.1, circuits], by rw [f.1, loop], f.leakNoticed leak, f.cooling cooled⟩

theorem FollowedUp.tripped {c : Circuit} {cause : TripCause} (trips : TripsTaken s t) (was : (circuitOf s c).state ≠ .trip)
    (h : CircuitTripped c cause s u) : CircuitTripped c cause s t := by
  obtain ⟨trip, why, latch, halted, -, breaker, cooled⟩ := h
  unfold CircuitTripped
  dsimp only
  rw [f.circuit c]
  refine ⟨trip, why, latch, halted, fun off g named => ?_, fun cab => f.breaker (breaker cab), f.cooling cooled⟩
  exact trips off c g named ((f.circuit c).symm ▸ trip) fun tripped => absurd tripped was

theorem FollowedUp.judged {c : Circuit} (trips : TripsTaken s t) (h : CircuitJudged c s u) : CircuitJudged c s t := by
  obtain ⟨hard, soft, leak, others, loop, entered, normal, trip, latched, hardTrip, warns, noticed, init, inNormal, inWatch,
    inDerate⟩ := h
  unfold CircuitJudged
  dsimp only
  rw [f.circuit c, f.loop]
  refine ⟨hard, soft, leak, fun other apart => (f.circuit other).trans (others other apart), loop,
    fun changed => ⟨(entered changed).1, f.cooling (entered changed).2⟩, normal, trip,
    fun inInit latch => f.tripped trips (by rw [inInit]; decide) (latched inInit latch),
    fun cause found was fresh => f.tripped trips was (hardTrip cause found was fresh), fun g named was is => ?_,
    f.leakNoticed noticed, init, inNormal, inWatch, fun none' state => ?_⟩
  · obtain ⟨v, read, told⟩ := warns g named was is
    exact ⟨v, read, f.noticed told (by simp [Detail.kind, settleKinds, followKinds, matchKinds, refusalKinds])⟩
  · obtain ⟨overdue, stays⟩ := inDerate none' state
    exact ⟨fun isSoft runs late => f.tripped trips (by rw [state]; decide) (overdue isSoft runs late), stays⟩

end

/-- A step of protection that leaves the states of the circuits has nothing to follow up. -/
theorem protect_quiet {g : State → State} {s : State} (same : ∀ c, (circuitOf (g s) c).state = (circuitOf s c).state) :
    protect g s = g s := by
  have none' : furnacesConcerned s (g s) = ⟨false, false⟩ := by
    simp [furnacesConcerned, same]
  unfold protect
  rw [none']
  rfl

theorem protect_idle {g : State → State} {s : State} (same : g s = s) : protect g s = s :=
  (protect_quiet fun c => by rw [same]).trans same

/-! ### The timers of a circuit -/

/-- Settles O46. -/
theorem circuitTimersMoveTheCircuit : Obligations.CircuitTimersMoveTheCircuit := by
  intro c s on
  have runs : ∀ g : State → State, live g s = .next (g s) := fun g => live_powered g s on
  have stands : ∀ g : State → State, g s = s → live (protect g) s = .next s := fun g same =>
    (runs _).trans (congrArg _ (protect_idle same))
  refine ⟨fun state timer => ⟨_, runs _, protect_frame _ s (watchExpires_protOnly c s),
      (protect_followed _ s).moved (watchExpires_expired state timer)⟩, fun idle => stands _ (if_neg idle),
    fun state timer => ?_, fun idle => stands _ (if_neg idle),
    fun state timer => ⟨_, runs _, protect_frame _ s (recoveryExpires_protOnly c s),
      (protect_followed _ s).moved (recoveryExpires_expired state timer)⟩, fun idle => stands _ (if_neg idle)⟩
  have frame := protect_frame _ s (derateExpires_protOnly c s)
  have followed := protect_followed (derateExpires c) s
  obtain ⟨moved, tripped⟩ := derateExpires_expired state timer
  exact ⟨_, runs _, frame, followed.moved moved, followed.tripped frame.trips (by rw [state]; decide) tripped⟩

end Sys2Proof.Machine
end


section
/-! Evaluations and expiries of the circuits while the loop stands (R104 to R108, R113): which notices they post, and that a
timer neither runs in CHANGEOVER nor stays held in STANDBY. -/

namespace Sys2Proof.Machine

/-! ### Rules of a timer -/

/-- What the operations of a circuit keep of its timers while the loop stands: of the watch and the recovery timer, and of
the derate timer, which R107 holds also outside CHANGEOVER. -/
structure TimerRule (changing : Bool) (timer derate : Timer → Prop) : Prop where
  start : ∀ s, inChangeover s = changing → timer (startTimer s) ∧ derate (startTimer s)
  runsOn : ∀ s t, inChangeover s = changing → derate t → derate (runOn s t)
  stop : ∀ t, (timer t → timer t.stop) ∧ (derate t → derate t.stop)
  hold : ∀ t, derate t → derate { t with mode := .held }

/-- The timers of a record meet a rule. -/
structure TimersMeet (timer derate : Timer → Prop) (r : CircuitRec) : Prop where
  watch : timer r.watch
  derate : derate r.derate
  recovery : timer r.recovery

theorem TimersMeet.stopTimers {changing : Bool} {timer derate : Timer → Prop} (rule : TimerRule changing timer derate)
    {r : CircuitRec} (h : TimersMeet timer derate r) : TimersMeet timer derate r.stopTimers :=
  ⟨(rule.stop _).1 h.watch, (rule.stop _).2 h.derate, (rule.stop _).1 h.recovery⟩

/-- In CHANGEOVER no timer runs (R113). -/
theorem notRunning_rule : TimerRule true (fun t => t.mode ≠ .running) (fun t => t.mode ≠ .running) where
  start s changing := by simp [startTimer, changing]
  runsOn s t changing _ := by simp [runOn, changing]
  stop t := by simp
  hold t _ := by simp

/-- Out of CHANGEOVER neither the watch nor the recovery timer is held (R113). -/
theorem notHeld_rule : TimerRule false (fun t => t.mode ≠ .held) (fun _ => True) where
  start s changing := by simp [startTimer, changing]
  runsOn s t changing _ := trivial
  stop t := by simp
  hold t _ := trivial

/-! ### The circuits moved, the loop standing -/

/-- Circuits have moved and the loop stands: COOLING and LEAK_WARN at most are posted, and every rule of the timers is
kept. -/
structure CircuitsMoved (s t : State) : Prop where
  loop : t.prot.loop = s.prot.loop
  noted : PortsNoted [.cooling, .leakWarn] s t
  timers : ∀ timer derate, TimerRule (inChangeover s) timer derate →
    (∀ c, TimersMeet timer derate (circuitOf s c)) → ∀ c, TimersMeet timer derate (circuitOf t c)

theorem CircuitsMoved.refl (s : State) : CircuitsMoved s s := ⟨rfl, .refl _ s, fun _ _ _ h => h⟩

theorem CircuitsMoved.changeover {s t : State} (h : CircuitsMoved s t) : inChangeover t = inChangeover s := by
  unfold inChangeover
  rw [h.loop]

theorem CircuitsMoved.trans {s t u : State} (h : CircuitsMoved s t) (g : CircuitsMoved t u) : CircuitsMoved s u :=
  ⟨g.loop.trans h.loop, h.noted.trans g.noted, fun timer derate rule meets =>
    g.timers timer derate (h.changeover ▸ rule) (h.timers timer derate rule meets)⟩

theorem circuitsMoved_ite {p : Prop} [Decidable p] {s t u : State} (yes : p → CircuitsMoved s t)
    (no : ¬ p → CircuitsMoved s u) : CircuitsMoved s (if p then t else u) := by
  split
  · next h => exact yes h
  · next h => exact no h

/-- One circuit moved to a record whose timers keep the rules. -/
theorem OneMoved.circuits {c : Circuit} {r : CircuitRec} {s t : State} (moved : OneMoved c r s t)
    (keeps : ∀ timer derate, TimerRule (inChangeover s) timer derate →
      TimersMeet timer derate (circuitOf s c) → TimersMeet timer derate r) : CircuitsMoved s t := by
  obtain ⟨record, others, loop, -, noted⟩ := moved
  refine ⟨loop, noted.mono (by simp), fun timer derate rule meets d => ?_⟩
  by_cases e : d = c
  · rw [e, record]
    exact keeps timer derate rule (meets c)
  · rw [others d e]
    exact meets d

theorem leakNoticeAt_leakNoted (q : Port) (old cond : PerFurnace Bool) (s : State) :
    PortsNoted [.leakWarn] s (leakNoticeAt q old cond s) := by
  unfold leakNoticeAt
  dsimp only
  split
  · split
    · exact .of_eq rfl
    · refine PortsNoted.trans (t := { s with prot := { s.prot with leakCarried := _ } }) (.of_eq rfl) ?_
      exact postTo_noted_of (by simp [leakDetail, Detail.kind])
  · exact .of_eq rfl

theorem formConditions_circuits (c : Circuit) (s : State) : CircuitsMoved s (formConditions c s) := by
  refine ⟨(formConditions_protOnly c s).2.2, ?_, fun timer derate _ meets d => ?_⟩
  · have record : ∀ r, PortsNoted [.leakWarn] s (setCircuitRec c r s) := fun r => .of_eq rfl
    refine PortsNoted.mono (kinds := [.leakWarn]) ?_ (by simp)
    exact (((record _).trans (leakNoticeAt_leakNoted .a _ _ _)).trans (leakNoticeAt_leakNoted .b _ _ _)).trans
      (leakNoticeAt_leakNoted .p _ _ _)
  · by_cases e : d = c
    · rw [e, formConditions_circuit]
      exact ⟨(meets c).watch, (meets c).derate, (meets c).recovery⟩
    · rw [formConditions_other s e]
      exact meets d

theorem enterNormal_circuits (c : Circuit) (s : State) : CircuitsMoved s (enterNormal c s) :=
  (enterState_moved c _ s).circuits fun _ _ rule h =>
    ⟨(h.stopTimers rule).watch, (h.stopTimers rule).derate, (h.stopTimers rule).recovery⟩

theorem enterWatch_circuits (c : Circuit) (s : State) : CircuitsMoved s (enterWatch c s) :=
  (enterState_moved c _ s).circuits fun _ _ rule h => ⟨(rule.start s rfl).1, h.derate, h.recovery⟩

theorem enterDerate_circuits (c : Circuit) (s : State) : CircuitsMoved s (enterDerate c s) :=
  (enterState_moved c _ s).circuits fun _ _ rule h =>
    ⟨(h.stopTimers rule).watch, (rule.start s rfl).2, (h.stopTimers rule).recovery⟩

theorem tripCircuit_circuits (c : Circuit) (cause : TripCause) (s : State) : CircuitsMoved s (tripCircuit c cause s) :=
  (tripCircuit_moved c cause s).circuits fun _ _ rule h =>
    ⟨(h.stopTimers rule).watch, (h.stopTimers rule).derate, (h.stopTimers rule).recovery⟩

theorem softReturns_circuits (c : Circuit) (s : State) : CircuitsMoved s (softReturns c s) :=
  circuitsMoved_ite (fun _ => tripCircuit_circuits c _ s) fun _ =>
    (setCircuitRec_moved c _ s).circuits fun _ _ rule h =>
      ⟨h.watch, rule.runsOn s _ rfl h.derate, (rule.stop _).1 h.recovery⟩

/-- A circuit without a standing HARD condition, or tripped by it. -/
theorem hardCause_circuits {c : Circuit} {s t : State} (softly : CircuitsMoved s t) :
    CircuitsMoved s (match hardCause s c with
      | some cause => tripCircuit c cause s
      | none => t) := by
  split
  · exact tripCircuit_circuits c _ s
  · exact softly

theorem advanceCircuit_circuits (c : Circuit) (s : State) : CircuitsMoved s (advanceCircuit c s) := by
  have same := CircuitsMoved.refl s
  have clears : CircuitsMoved s (setCircuitRec c { circuitOf s c with
      recovery := startTimer s, derate := { (circuitOf s c).derate with mode := .held } } s) :=
    (setCircuitRec_moved c _ s).circuits fun _ _ rule h =>
      ⟨h.watch, rule.hold _ h.derate, (rule.start s rfl).1⟩
  unfold advanceCircuit
  dsimp only
  split
  · exact same
  · refine circuitsMoved_ite (fun _ => tripCircuit_circuits c _ s) fun _ => hardCause_circuits ?_
    exact circuitsMoved_ite
      (fun _ => circuitsMoved_ite (fun _ => enterWatch_circuits c s) fun _ => enterNormal_circuits c s) fun _ => same
  · exact hardCause_circuits (circuitsMoved_ite (fun _ => enterWatch_circuits c s) fun _ => same)
  · exact hardCause_circuits (circuitsMoved_ite (fun _ => same) fun _ => enterNormal_circuits c s)
  · exact hardCause_circuits (circuitsMoved_ite (fun _ => clears) fun _ =>
      circuitsMoved_ite (fun _ => softReturns_circuits c s) fun _ => same)

theorem evalCircuit_circuits (c : Circuit) (s : State) : CircuitsMoved s (evalCircuit c s) :=
  circuitsMoved_ite (fun _ => .refl s) fun _ => (formConditions_circuits c s).trans (advanceCircuit_circuits c _)

theorem evalCircuits_circuits (s : State) : CircuitsMoved s (evalCircuits s) :=
  ((evalCircuit_circuits .coilA s).trans (evalCircuit_circuits .coilB _)).trans (evalCircuit_circuits .cabinet _)

theorem expireOverdue_circuits (c : Circuit) (s : State) : CircuitsMoved s (expireOverdue c s) :=
  have formed := formConditions_circuits c s
  circuitsMoved_ite
    (fun _ => circuitsMoved_ite (fun _ => formed.trans (enterDerate_circuits c _)) fun _ => .refl s) fun _ =>
  circuitsMoved_ite
    (fun _ => circuitsMoved_ite (fun _ => formed.trans (tripCircuit_circuits c _ _)) fun _ => .refl s) fun _ =>
  circuitsMoved_ite
    (fun _ => circuitsMoved_ite (fun _ => formed.trans (enterNormal_circuits c _)) fun _ => .refl s) fun _ => .refl s

theorem expireAllOverdue_circuits (s : State) : CircuitsMoved s (expireAllOverdue s) :=
  ((expireOverdue_circuits .coilA s).trans (expireOverdue_circuits .coilB _)).trans (expireOverdue_circuits .cabinet _)

end Sys2Proof.Machine
end


section
/-! What moves the loop: the pump lines, the pressure timer and the settle timer (R112 to R115). -/

namespace Sys2Proof.Machine

/-! ### The loop changed, and the circuits evaluated -/

theorem setLoop_noticed (st : LoopState) (cause : LoopCause) (latch : Bool) (s : State) :
    Noticed (.pumpChangeover st cause latch) (setLoop st cause latch s) := post_noticed _ _

theorem mapCircuits_noticed {d : Detail} {g : CircuitRec → CircuitRec} {s : State} (h : Noticed d s) :
    Noticed d (mapCircuits g s) := h

/-- PUMP_CHANGEOVER stands while circuits move. -/
theorem CircuitsMoved.pump {s t : State} (h : CircuitsMoved s t) {st : LoopState} {cause : LoopCause} {latch : Bool}
    (told : Noticed (.pumpChangeover st cause latch) s) : Noticed (.pumpChangeover st cause latch) t :=
  told.keep h.noted (by simp [Detail.kind])

theorem FollowedUp.pump {u t : State} (h : FollowedUp u t) {st : LoopState} {cause : LoopCause} {latch : Bool}
    (told : Noticed (.pumpChangeover st cause latch) u) : Noticed (.pumpChangeover st cause latch) t :=
  h.noticed told (by simp [Detail.kind, settleKinds, followKinds, matchKinds, refusalKinds])

theorem enterChangeover_loopChanged {cause : LoopCause} {s t : State} (followed : FollowedUp (enterChangeover cause s) t) :
    LoopChangedOver cause s t := by
  have moved := evalCircuits_circuits (mapCircuits CircuitRec.holdTimers (setLoop .changeover cause true s))
  have loop := followed.loop.trans moved.loop
  refine ⟨loop, congrArg LoopRec.standbyLatch loop, followed.pump (moved.pump (setLoop_noticed _ _ _ s)), fun c => ?_,
    _, enterChangeover_judged cause s, followed⟩
  rw [followed.circuit]
  obtain ⟨watch, derate, recovery⟩ := moved.timers _ _ notRunning_rule (fun d => by
    rw [circuitOf_mapCircuits]
    exact ⟨hold_notRunning _, hold_notRunning _, hold_notRunning _⟩) c
  exact ⟨watch, derate, recovery⟩

theorem release_notHeld (t : Timer) : t.release.mode ≠ .held := by
  unfold Timer.release
  split
  · simp
  · next other => exact other

/-- The timers run on in STANDBY: neither the watch nor the recovery timer of a circuit is held (R113). -/
theorem enterStandby_moved (s : State) :
    (enterStandby s).prot.loop
        = { state := some .standby, standbyLatch := s.prot.loop.standbyLatch, settle := none, pressure := none,
            cause := .settled, changedAt := s.clock.shopSeconds }
      ∧ Noticed (.pumpChangeover .standby .settled s.prot.loop.standbyLatch) (enterStandby s)
      ∧ ∀ c, (circuitOf (enterStandby s) c).watch.mode ≠ .held ∧ (circuitOf (enterStandby s) c).recovery.mode ≠ .held := by
  have moved : CircuitsMoved (mapCircuits CircuitRec.releaseTimers
      (setLoop .standby .settled s.prot.loop.standbyLatch s)) (enterStandby s) :=
    (evalCircuits_circuits _).trans (expireAllOverdue_circuits _)
  refine ⟨moved.loop, moved.pump (setLoop_noticed _ _ _ s), fun c => ?_⟩
  obtain ⟨watch, -, recovery⟩ := moved.timers _ _ notHeld_rule (fun d => by
    rw [circuitOf_mapCircuits]
    exact ⟨release_notHeld _, trivial, release_notHeld _⟩) c
  exact ⟨watch, recovery⟩

/-! ### LOOP_FAIL -/

/-- The breaker output stands, or has been asserted (R73). -/
def BreakerMayAssert (s t : State) : Prop :=
  t.lines = s.lines ∧ (t.shop = s.shop
    ∨ s.lines.breakerClosed = true ∧ s.shop.breakerTrip = false
      ∧ t.shop = { s.shop with breakerTrip := true, stuckTimer := some 0 })

theorem BreakerMayAssert.trans {s t u : State} (h : BreakerMayAssert s t) (g : BreakerMayAssert t u) :
    BreakerMayAssert s u := by
  obtain ⟨lines, shop⟩ := h
  obtain ⟨lines', shop'⟩ := g
  refine ⟨lines'.trans lines, ?_⟩
  rw [lines] at shop'
  rcases shop with same | ⟨closed, was, asserted⟩
  · rw [same] at shop'
    exact shop'
  · rcases shop' with same | ⟨-, was', -⟩
    · exact .inr ⟨closed, was, same.trans asserted⟩
    · rw [asserted] at was'
      cases was'

theorem assertBreaker_may (s : State) : BreakerMayAssert s (assertBreaker s) := by
  unfold assertBreaker
  split
  · next h => exact ⟨rfl, .inr ⟨h.1, h.2, rfl⟩⟩
  · exact ⟨rfl, .inl rfl⟩

theorem tripForLoop_may (c : Circuit) (s : State) : BreakerMayAssert s (tripForLoop c s) := by
  unfold tripForLoop tripCircuit
  dsimp only
  split
  · exact ⟨rfl, .inl rfl⟩
  · split
    · exact BreakerMayAssert.trans (t := takeTrip _ (setCircuitRec _ _ s)) ⟨rfl, .inl rfl⟩ (assertBreaker_may _)
    · exact ⟨rfl, .inl rfl⟩

/-- Whatever was asserted before, an assertion at the end asserts the output (R73). -/
theorem BreakerMayAssert.asserted {s t : State} (h : BreakerMayAssert s t) : BreakerAsserted s (assertBreaker t) := by
  intro closed
  obtain ⟨lines, shop⟩ := h
  unfold assertBreaker
  rw [lines, closed]
  rcases shop with same | ⟨-, was, asserted⟩
  · rw [same]
    split
    · exact ⟨rfl, fun _ => rfl⟩
    · next on =>
      have asserted : s.shop.breakerTrip = true := by simpa using on
      rw [same]
      exact ⟨asserted, fun off => by rw [asserted] at off; cases off⟩
  · rw [asserted, if_neg (by simp), asserted]
    exact ⟨rfl, fun _ => rfl⟩

/-- A circuit in TRIP stands; another is tripped for the loop. -/
theorem tripForLoop_moved (c : Circuit) (s : State) : tripForLoop c s = s ∧ (circuitOf s c).state = .trip
    ∨ (circuitOf s c).state ≠ .trip ∧ OneMoved c { (circuitOf s c).stopTimers with
        state := .trip, cause := some .loop, enteredAt := now s, latch := true } s (tripForLoop c s) := by
  unfold tripForLoop
  split
  · next trip => exact .inl ⟨rfl, trip⟩
  · next other => exact .inr ⟨other, tripCircuit_moved c .loop s⟩

/-- What tripping circuits for the loop gives and leaves, circuit by circuit (R114). -/
structure LoopTripped (s t : State) : Prop where
  loop : t.prot.loop = s.prot.loop
  carried : t.prot.leakCarried = s.prot.leakCarried
  noted : PortsNoted [.cooling] s t
  circuits : ∀ c, circuitOf t c = circuitOf s c ∨ (circuitOf s c).state ≠ .trip
    ∧ circuitOf t c = { (circuitOf s c).stopTimers with
        state := .trip, cause := some .loop, enteredAt := (circuitOf t c).enteredAt, latch := true }

theorem tripForLoop_tripped (c : Circuit) (s : State) : LoopTripped s (tripForLoop c s) := by
  rcases tripForLoop_moved c s with ⟨same, -⟩ | ⟨was, record, others, loop, carried, noted⟩
  · rw [same]
    exact ⟨rfl, rfl, .refl _ s, fun _ => .inl rfl⟩
  · refine ⟨loop, carried, noted, fun d => ?_⟩
    by_cases e : d = c
    · rw [e]
      exact .inr ⟨was, by rw [record]⟩
    · exact .inl (others d e)

theorem LoopTripped.trans {s t u : State} (h : LoopTripped s t) (g : LoopTripped t u) : LoopTripped s u := by
  refine ⟨g.loop.trans h.loop, g.carried.trans h.carried, h.noted.trans g.noted, fun c => ?_⟩
  rcases h.circuits c with same | ⟨was, record⟩
  · have next := g.circuits c
    rw [same] at next
    exact next
  · rcases g.circuits c with same | ⟨is, -⟩
    · rw [same]
      exact .inr ⟨was, record⟩
    · exact absurd (by rw [record]) is

theorem enterLoopFail_loopFailed {cause : LoopCause} {s t : State} (followed : FollowedUp (enterLoopFail cause s) t)
    (trips : TripsTaken s t) : LoopFailed cause s t := by
  have tripped := ((tripForLoop_tripped .coilA (setLoop .loopFail cause s.prot.loop.standbyLatch s)).trans
    (tripForLoop_tripped .coilB _)).trans (tripForLoop_tripped .cabinet _)
  have asserts : BreakerMayAssert s _ := (BreakerMayAssert.trans
    (t := setLoop .loopFail cause s.prot.loop.standbyLatch s) ⟨rfl, .inl rfl⟩ (tripForLoop_may .coilA _)).trans
      ((tripForLoop_may .coilB _).trans (tripForLoop_may .cabinet _))
  have prot : (enterLoopFail cause s).prot = _ := assertBreaker_prot (tripForLoop .cabinet (tripForLoop .coilB
    (tripForLoop .coilA (setLoop .loopFail cause s.prot.loop.standbyLatch s))))
  have trip : ∀ c, (circuitOf t c).state = .trip := fun c => by
    rw [followed.circuit, enterLoopFail_tripped]
  have record : ∀ c, circuitOf t c = circuitOf s c ∨ (circuitOf s c).state ≠ .trip
      ∧ circuitOf t c = { (circuitOf s c).stopTimers with
          state := .trip, cause := some .loop, enteredAt := (circuitOf t c).enteredAt, latch := true } := fun c => by
    rw [followed.circuit, enterLoopFail_circuit]
    exact tripped.circuits c
  refine ⟨?_, ?_, fun c => ?_, fun c => ⟨trip c, fun was => ?_⟩, fun ⟨off, down⟩ f => ?_, followed.breaker asserts.asserted,
    followed.pump ?_⟩
  · rw [followed.loop, prot, tripped.loop]
    rfl
  · rw [followed.1, prot, tripped.carried]
    rfl
  · rcases record c with same | ⟨-, moved⟩
    · rw [same]
    · rw [moved]
      rfl
  · rcases record c with same | ⟨-, moved⟩
    · exact absurd (same ▸ trip c) was
    · rw [moved]
      exact ⟨rfl, rfl, rfl, rfl, rfl⟩
  · exact trips off .cabinet f (by cases f <;> rfl) (trip _) (down .cabinet f (by cases f <;> rfl))
  · have told := (setLoop_noticed .loopFail cause s.prot.loop.standbyLatch s).keep tripped.noted (by simp [Detail.kind])
    exact told.keep (.of_eq (kinds := []) (by unfold enterLoopFail; rw [assertBreaker_shape])) (by simp)

/-! ### The judgement at the end of the settle timer -/

theorem settleExpires_judged {s t : State} (moving : s.prot.loop.state = some .changeover)
    (timed : s.prot.loop.settle.isSome = true) (followed : FollowedUp (settleExpires s) t) (trips : TripsTaken s t) :
    SettleJudged s t := by
  have judges : settleExpires s = if s.lines.standbyRun = true ∧ pressureGood s = true then enterStandby s
      else enterLoopFail .settleFail s := if_pos ⟨by simp [inChangeover, moving], timed⟩
  rw [judges] at followed
  refine ⟨fun good => ?_, fun bad => ?_⟩
  · rw [if_pos good] at followed
    obtain ⟨loop, told, timers⟩ := enterStandby_moved s
    obtain ⟨u, circuits, expired⟩ := enterStandby_judged s
    refine ⟨followed.loop.trans loop, followed.pump told, fun c => ?_, u, _, circuits, expired, followed⟩
    rw [followed.circuit]
    exact timers c
  · rw [if_neg bad] at followed
    exact enterLoopFail_loopFailed followed trips

/-- Settles O47. -/
theorem loopFollowsPumpsAndPressure : Obligations.LoopFollowsPumpsAndPressure := by
  intro active s on
  have runs : ∀ g : State → State, live g s = .next (g s) := fun g => live_powered g s on
  refine ⟨fun stops => ?_, fun stays => (runs _).trans (congrArg _ (if_neg stays)), fun stops => ?_,
    fun stays => (runs _).trans (congrArg _ (if_neg stays)), fun timed main => ?_, fun timed standby => ?_,
    fun idle => (runs _).trans (congrArg _ (protect_idle ?_)), fun moving timed => ?_,
    fun still => (runs _).trans (congrArg _ (protect_idle (if_neg fun h => still ?_)))⟩
  · refine ⟨_, (runs _).trans (congrArg _ (if_pos stops)), protect_frame _ _ (enterChangeover_protOnly _ _),
      enterChangeover_loopChanged (protect_followed _ _)⟩
  · have frame := protect_frame _ { s with lines := { s.lines with standbyRun := active } }
      (enterLoopFail_protOnly .standbyStop _)
    exact ⟨_, (runs _).trans (congrArg _ (if_pos stops)), frame,
      enterLoopFail_loopFailed (protect_followed _ _) frame.trips⟩
  · have frame := protect_frame _ s (pressureExpires_protOnly s)
    have followed := protect_followed pressureExpires s
    have enters : pressureExpires s = enterChangeover .pressure s := by
      unfold pressureExpires
      rw [timed, main]
      rfl
    rw [enters] at followed
    exact ⟨_, runs _, frame, enterChangeover_loopChanged followed⟩
  · have frame := protect_frame _ s (pressureExpires_protOnly s)
    have followed := protect_followed pressureExpires s
    have enters : pressureExpires s = enterLoopFail .pressure s := by
      unfold pressureExpires
      rw [timed, standby]
      rfl
    rw [enters] at followed
    exact ⟨_, runs _, frame, enterLoopFail_loopFailed followed frame.trips⟩
  · unfold pressureExpires
    rcases idle with none' | ⟨main, standby⟩
    · rw [none']
      rfl
    · split
      · split
        · next h => exact absurd h main
        · next h => exact absurd h standby
        · rfl
      · rfl
  · have frame := protect_frame _ s (settleExpires_protOnly s)
    exact ⟨_, runs _, frame, settleExpires_judged moving timed (protect_followed settleExpires s) frame.trips⟩
  · simpa [inChangeover] using h.1

end Sys2Proof.Machine
end


section
/-! The shop follows the breaker line, and the Deck Off lines (R66, R71 to R73). -/

namespace Sys2Proof.Machine

/-! ### A notice of the follow-up posted before it -/

/-- Kinds that the follow-up may post itself are none beside them. -/
theorem Settled.absorb {kinds : List NoticeKind} {s t : State} (sub : ∀ k ∈ kinds, k ∈ followKinds) (h : Settled kinds s t) :
    Settled [] s t := by
  have within : ∀ k ∈ kinds ++ followKinds, k ∈ [] ++ followKinds := fun k hk =>
    (List.mem_append.mp hk).elim (sub k) id
  have wide : ∀ k ∈ kinds ++ settleKinds, k ∈ [] ++ settleKinds := fun k hk =>
    (List.mem_append.mp hk).elim (fun own => List.mem_append_left refusalKinds (sub k own)) id
  obtain ⟨frame, heat, slots, shop, allot, stage, tap, assigned, noted, told, quiet⟩ := h
  refine ⟨frame, heat, slots, shop, allot, stage, tap, assigned, noted.mono wide, fun p held pending gone => ?_,
    fun same => (quiet same).mono within⟩
  obtain ⟨r, number, kept, which | ⟨closed, -⟩, posted⟩ := told p held pending gone
  · exact ⟨r, number, kept, .inl which, posted⟩
  · exact absurd (sub _ closed) (by decide)

theorem SettledAll.absorb {kinds : List NoticeKind} {s t : State} (sub : ∀ k ∈ kinds, k ∈ followKinds)
    (h : SettledAll kinds s t) : SettledAll [] s t := by
  obtain ⟨settled, rest⟩ := h
  exact ⟨settled.absorb sub, rest⟩

theorem post_settledAll {d : Detail} {s : State} (own : d.kind ∈ followKinds) (loaded : loading s = false) :
    SettledAll [] s (settleAll (post d s)) :=
  ((post_only s (List.mem_singleton.mpr rfl)).settledAll (settleAll_settledAll (post d s) loaded) (post_matchKept d s)
    (settleAll_served (post d s) loaded)).absorb (by simpa using own)

/-- Also while the settings are being loaded, when nothing is evaluated. -/
theorem post_settled {d : Detail} {s : State} (own : d.kind ∈ followKinds) : Settled [] s (settleAll (post d s)) := by
  cases l : loading s with
  | false => exact (post_settledAll own l).1
  | true =>
    rw [settleAll_loading (post d s) l]
    have posted : Evaluated [d.kind] s (post d s) := (post_only s (List.mem_singleton.mpr rfl)).evaluated
    exact (posted.mono (by simpa using own)).settled (Settled.refl [] _)

theorem settleAll_settled (s : State) : Settled [] s (settleAll s) := by
  cases l : loading s with
  | false => exact (settleAll_settledAll s l).1
  | true =>
    rw [settleAll_loading _ l]
    exact Settled.refl [] s

/-- A deck that is not BANKED keeps its shop state and the SHOP_STATE posted last (R70). -/
theorem settleAll_unbanked {s : State} (other : s.shop.state ≠ .banked) :
    (settleAll s).shop = s.shop ∧ PortsNoted ([.readyChanged] ++ refusalKinds ++ matchKinds) s (settleAll s) := by
  unfold settleAll
  split
  · exact ⟨rfl, .refl _ s⟩
  · obtain ⟨⟨-, -, -, -, -, noted, -⟩, shop, -⟩ := evalHeats_run s
    have awake : floorWake (evalHeats s) = evalHeats s := if_neg fun h => other (shop ▸ h.1)
    obtain ⟨frame, -, -, -, -, after, -⟩ := coordinate_frame (evalHeats s)
    rw [awake]
    refine ⟨by rw [frame, shop], PortsNoted.trans (noted.mono fun k hk => ?_) (after.mono fun k hk => ?_)⟩
    · exact List.mem_append_left _ hk
    · exact List.mem_append_right _ hk

theorem settleAll_shopNoticed {s : State} (other : s.shop.state ≠ .banked) {st : ShopState} {r : HoldReasons}
    {cause : ShopCause} (told : Noticed (.shopState st r cause) s) : Noticed (.shopState st r cause) (settleAll s) :=
  told.keep (settleAll_unbanked other).2 (by simp [Detail.kind, refusalKinds, matchKinds])

/-- Without the deck in RUN no heat is TAP_READY (R11). -/
theorem EvaluatedNow.notReady {f : Furnace} {s : State} (h : EvaluatedNow f s) (off : s.shop.state ≠ .run) :
    isTapReady s f = false := by
  obtain ⟨ready, -⟩ := h
  unfold isTapReady
  cases heat : heatOf s f with
  | none => rfl
  | some x =>
    refine Bool.eq_false_iff.mpr fun is => ?_
    have cond := (ready x heat).1 (beq_iff_eq.mp is)
    unfold readyCond at cond
    simp [off] at cond

/-! ### The breaker line -/

/-- The shop with the breaker open. -/
def shopOpened (s : State) : State :=
  { s with
    lines := { s.lines with breakerClosed := false }
    shop := { s.shop with state := .supplyOff, breakerTrip := false, stuckTimer := none, stuck := false } }

theorem breakerOpens_off {s : State} (off : s.shop.state = .supplyOff) : breakerOpens s = shopOpened s := by
  unfold breakerOpens shopOpened
  rw [if_pos off, ← off]

theorem breakerOpens_on {s : State} (on : s.shop.state ≠ .supplyOff) :
    breakerOpens s = settleAll (post (.shopState .supplyOff s.shop.reasons .breakerOpen) (shopOpened s)) := if_neg on

/-- The shop with the breaker closed; a standing cause of BREAKER_TRIP asserts it at once (R66, R73). -/
def shopEnergised (s : State) : State :=
  let asserts := standingCause s && !s.shop.breakerTrip
  { s with
    lines := { s.lines with breakerClosed := true }
    shop :=
      { s.shop with
        state := if s.shop.state = .supplyOff then (if anyReason s.shop.reasons || loading s then .held else .run)
          else s.shop.state
        breakerTrip := s.shop.breakerTrip || asserts
        stuckTimer := if asserts then some 0 else s.shop.stuckTimer } }

theorem assertBreaker_if (b : Bool) (s : State) (closed : s.lines.breakerClosed = true) :
    (if b then assertBreaker s else s) = { s with shop :=
      { s.shop with
        breakerTrip := s.shop.breakerTrip || (b && !s.shop.breakerTrip)
        stuckTimer := if b && !s.shop.breakerTrip then some 0 else s.shop.stuckTimer } } := by
  have same : { s with shop := s.shop } = s := rfl
  cases b with
  | false => simp
  | true =>
    unfold assertBreaker
    cases trip : s.shop.breakerTrip with
    | false => simp [closed]
    | true =>
      rw [if_pos rfl, if_neg (by simp)]
      simp only [Bool.not_true, Bool.and_false, Bool.or_false, Bool.false_eq_true, if_false]
      rw [← trip]

theorem breakerCloses_on {s : State} (on : s.shop.state ≠ .supplyOff) :
    breakerCloses s = settleAll (shopEnergised s) := by
  unfold breakerCloses shopEnergised
  dsimp only
  rw [if_neg on, if_neg on, assertBreaker_if _ _ rfl]

theorem breakerCloses_off {s : State} (off : s.shop.state = .supplyOff) :
    breakerCloses s
      = settleAll (post (.shopState (shopEnergised s).shop.state s.shop.reasons .breakerClosed) (shopEnergised s)) := by
  unfold breakerCloses shopEnergised
  dsimp only
  rw [if_pos off, if_pos off, assertBreaker_if _ _ rfl]
  rfl

theorem standingCause_eq (s : State) : standingCause s
    = decide (s.prot.circuits.cabinet.state = .trip ∨ s.prot.loop.state = some .loopFail) := by
  rw [Bool.eq_iff_iff]
  simp [standingCause]

/-- Settles O40. -/
theorem shopFollowsTheBreaker : Obligations.ShopFollowsTheBreaker := by
  intro closed s on opened held standing asserts energised
  have runs : ∀ g : State → State, live g s = .next (g s) := fun g => live_powered g s on
  have own : ∀ st r cause, (Detail.shopState st r cause).kind ∈ followKinds := fun _ _ _ => by
    simp [Detail.kind, followKinds]
  have energises : shopEnergised s = energised := by
    unfold shopEnergised
    rw [standingCause_eq]
  refine ⟨fun same => (runs _).trans (congrArg _ (if_pos same)), fun was opens => ?_, fun was closes => ?_⟩
  · subst opens
    have changes : breakerChanges false s = breakerOpens s := by
      unfold breakerChanges
      rw [was]
      rfl
    refine ⟨_, (runs _).trans (congrArg _ changes), ?_⟩
    by_cases off : s.shop.state = .supplyOff
    · rw [breakerOpens_off off]
      exact ⟨Settled.refl [] _, fun other => absurd off other, fun other => absurd off other⟩
    · rw [breakerOpens_on off]
      refine ⟨post_settled (own _ _ _), fun _ => settleAll_shopNoticed (by simp [shopOpened]) (post_noticed _ _),
        fun _ loaded => ?_⟩
      have settled := post_settledAll (s := opened) (own .supplyOff s.shop.reasons .breakerOpen) loaded
      have ⟨_, a, b, _⟩ := settled
      have shop := (settleAll_unbanked (s := post (.shopState .supplyOff s.shop.reasons .breakerOpen) (shopOpened s))
        (by simp [shopOpened])).1
      have off' : (settleAll (post (.shopState .supplyOff s.shop.reasons .breakerOpen) (shopOpened s))).shop.state ≠ .run := by
        rw [shop]
        simp [shopOpened]
      exact ⟨settled, a.notReady off', b.notReady off'⟩
  · subst closes
    have changes : breakerChanges true s = breakerCloses s := by
      unfold breakerChanges
      rw [was]
      rfl
    refine ⟨_, (runs _).trans (congrArg _ changes), ?_⟩
    rw [← energises]
    by_cases off : s.shop.state = .supplyOff
    · rw [breakerCloses_off off]
      refine ⟨post_settled (own _ _ _), fun loaded => post_settledAll (own _ _ _) loaded,
        fun _ => settleAll_shopNoticed ?_ (post_noticed _ _)⟩
      show (shopEnergised s).shop.state ≠ .banked
      unfold shopEnergised
      dsimp only
      rw [if_pos off]
      split <;> decide
    · rw [breakerCloses_on off]
      exact ⟨settleAll_settled _, fun loaded => settleAll_settledAll _ loaded, fun other => absurd other off⟩

end Sys2Proof.Machine
end


section
/-! The Deck Off lines (R71 to R73). -/

namespace Sys2Proof.Machine

/-! ### A trip of both outputs -/

/-- A trip taken by the stage: an idle transmitter begins it, a busy one keeps it pending (R77, R78). -/
theorem takeTrip_both (s : State) :
    (∀ g, (takeTrip ⟨true, true⟩ s).stage.tripHold.get g
        = (s.stage.tripHold.get g || (s.stage.held.get g).mode != .off))
      ∧ (s.stage.transmitter = .idle → (takeTrip ⟨true, true⟩ s).stage.transmitter = .sendingTrip ⟨true, true⟩)
      ∧ (s.stage.transmitter ≠ .idle → (takeTrip ⟨true, true⟩ s).stage.pendingTrip = ⟨true, true⟩) := by
  have pending : (s.stage.takeTrip ⟨true, true⟩).pendingTrip = ⟨true, true⟩ := by simp [Stage.takeTrip]
  refine ⟨fun g => ?_, fun idle => ?_, fun busy => ?_⟩
  · show (s.stage.takeTrip ⟨true, true⟩).kick.tripHold.get g = _
    rw [(Stage.kick_held _).2]
    cases g <;> simp [Stage.takeTrip, PerFurnace.get]
  · have still : (s.stage.takeTrip ⟨true, true⟩).transmitter = .idle := by simp [Stage.takeTrip, idle, Transmitter.markTrip]
    show (s.stage.takeTrip ⟨true, true⟩).kick.transmitter = _
    rw [Stage.kick_trip still (by rw [pending]; decide), pending]
  · have still : (s.stage.takeTrip ⟨true, true⟩).transmitter ≠ .idle := by
      show s.stage.transmitter.markTrip ≠ .idle
      cases wire : s.stage.transmitter with
      | idle => exact absurd wire busy
      | _ => simp [Transmitter.markTrip]
    show (s.stage.takeTrip ⟨true, true⟩).kick.pendingTrip = _
    rw [Stage.kick_busy still, pending]

theorem takeTrip_handed (mask : PerFurnace Bool) (s : State) : StageHanded s.stage (takeTrip mask s).stage :=
  StageHanded.trans (y := s.stage.takeTrip mask) rfl (Stage.kick_handed _)

theorem takeTrip_only (mask : PerFurnace Bool) (s : State) :
    takeTrip mask s = { s with stage := (takeTrip mask s).stage } := rfl

/-! ### The press -/

theorem setDeckOff_same (f : Furnace) (d : DeckOff) (s : State) :
    setDeckOff f d s = { s with shop := { s.shop with decks := s.shop.decks.set f d } } := rfl

/-- The deck monitor and the STOPPED flag of a press (R71). -/
def deckStopped (f : Furnace) (s : State) : State :=
  setDeckOff f { level := true, timer := some 0, held := false }
    (setFurnaceSlot f { s.heat.slots.get f with stopped := (s.heat.slots.get f).stopped || s.lines.breakerClosed } s)

theorem deckPressed_idle {f : Furnace} {s : State} (level : (s.shop.decks.get f).level = true) : deckPressed f s = s :=
  if_pos level

theorem deckPressed_new {f : Furnace} {s : State} (level : (s.shop.decks.get f).level = false) :
    deckPressed f s = recompute (post (.deckOff f false) (deckStopped f s)) := by
  unfold deckPressed deckStopped
  dsimp only
  rw [level, if_neg (by decide)]
  cases closed : s.lines.breakerClosed with
  | true =>
    rw [Bool.or_true]
    rfl
  | false =>
    have same : setFurnaceSlot f { s.heat.slots.get f with stopped := (s.heat.slots.get f).stopped } s = s := by
      show { s with heat := { s.heat with slots := s.heat.slots.set f (s.heat.slots.get f) } } = s
      rw [PerFurnace.set_get]
    rw [Bool.or_false, same]
    rfl

/-! ### The hold -/

/-- The monitor of a deck held, and BREAKER_TRIP asserted while the breaker is closed (R72). -/
def deckTripped (f : Furnace) (s : State) : State :=
  let asserts := s.lines.breakerClosed && !s.shop.breakerTrip
  { s with shop :=
    { s.shop with
      decks := s.shop.decks.set f { s.shop.decks.get f with held := true }
      breakerTrip := s.shop.breakerTrip || asserts
      stuckTimer := if asserts then some 0 else s.shop.stuckTimer } }

theorem deckHeld_idle {f : Furnace} {s : State}
    (idle : (s.shop.decks.get f).level = false ∨ (s.shop.decks.get f).held = true) : deckHeld f s = s := by
  refine if_neg fun h => ?_
  obtain ⟨level, -, held⟩ := h
  rcases idle with off | on
  · rw [off] at level
    cases level
  · rw [on] at held
    cases held

theorem deckHeld_runs {f : Furnace} {s : State} (level : (s.shop.decks.get f).level = true)
    (timed : (s.shop.decks.get f).timer.isSome = true) (held : (s.shop.decks.get f).held = false) :
    deckHeld f s = post (.deckOff f true)
      (if s.lines.breakerClosed then takeTrip ⟨true, true⟩ (deckTripped f s) else deckTripped f s) := by
  have asserts := assertBreaker_if s.lines.breakerClosed (setDeckOff f { s.shop.decks.get f with held := true } s)
  unfold deckHeld deckTripped
  dsimp only
  rw [if_pos ⟨level, timed, held⟩]
  cases closed : s.lines.breakerClosed with
  | true =>
    rw [closed] at asserts
    have tripped := asserts closed
    rw [if_pos rfl] at tripped
    rw [if_pos rfl, if_pos rfl, tripped]
    rfl
  | false => simp [setDeckOff]

/-- Settles O41. -/
theorem deckOffStopsAndTrips : Obligations.DeckOffStopsAndTrips := by
  intro f s on d closed deckIs stopped asserts
  have runs : ∀ g : State → State, live g s = .next (g s) := fun g => live_powered g s on
  refine ⟨fun level => ?_, fun level => (runs _).trans (congrArg _ (deckPressed_idle level)), runs _,
    fun level timed held => ?_, fun idle => (runs _).trans (congrArg _ (deckHeld_idle idle)), fun timed closed => ?_,
    fun none' => (runs _).trans (congrArg _ (if_neg fun h => by rw [none'] at h; cases h.1))⟩
  · refine ⟨_, (runs _).trans (congrArg _ (deckPressed_new level)),
      (post_noticed _ _).keep (recompute_noted _) (by simp [Detail.kind, matchKinds]), fun loaded => ?_, fun loads => ?_⟩
    · exact Coordinated.after_notices (x := post (.deckOff f false) (deckStopped f s)) rfl (post_noted _ _)
        (recompute_coordinated _ loaded)
    · rw [recompute_loading (post (.deckOff f false) (deckStopped f s)) loads]
      exact ⟨rfl, post_noted (.deckOff f false) (deckStopped f s)⟩
  · refine ⟨_, (runs _).trans (congrArg _ (deckHeld_runs level timed held)), post_noticed _ _, ?_, ?_, fun open' => ?_,
      fun shut => ?_⟩
    · refine PortsNoted.trans (t := if s.lines.breakerClosed then takeTrip ⟨true, true⟩ (deckTripped f s) else deckTripped f s)
        (.of_eq ?_) (post_noted _ _)
      split <;> rfl
    · split
      · rfl
      · rfl
    · rw [if_neg (by rw [show s.lines.breakerClosed = false from open']; decide)]
      rfl
    · rw [if_pos shut]
      obtain ⟨hold, idle, busy⟩ := takeTrip_both (deckTripped f s)
      refine ⟨takeTrip_handed _ (deckTripped f s), hold, idle, busy, fun law g => ?_⟩
      exact takeTrip_enable (s := deckTripped f s) (OffDrawsNothing.of_powerLaw law) (by cases g <;> rfl)
  · exact ⟨_, (runs _).trans (congrArg _ (if_pos ⟨timed, closed⟩)), post_noticed _ _,
      post_noted .breakerStuck { s with shop := { s.shop with stuckTimer := none, stuck := true } }, rfl⟩

end Sys2Proof.Machine
end


section
/-! The scanner's conversions and stale channels, handed to their readers (R89, R90, R92, R104, R112). -/

namespace Sys2Proof.Machine

/-! ### An update handed on, followed up -/

theorem FollowedUp.pressure {s u t : State} (f : FollowedUp u t) (h : PressureJudged s u) : PressureJudged s t := by
  unfold PressureJudged
  rw [f.1]
  exact h

theorem FollowedUp.handed {ch : Chan} {s u t : State} (f : FollowedUp u t) (trips : TripsTaken s t)
    (h : HandedToReader ch s u) : HandedToReader ch s t := by
  obtain ⟨judged, pressure⟩ := h
  exact ⟨fun loaded c reads => f.judged trips (judged loaded c reads), fun is => f.pressure (pressure is)⟩

/-- An update of a channel handed to its reader, and what follows from the circuits it changes. -/
theorem handUpdate_followed (ch : Chan) (s : State) :
    ProtFrame s (protect (handUpdate ch) s) ∧ HandedToReader ch s (protect (handUpdate ch) s) := by
  have frame := protect_frame _ s (handUpdate_protOnly ch s)
  exact ⟨frame, (protect_followed _ s).handed frame.trips (handUpdate_reader ch s)⟩

/-! ### Conversions -/

/-- A code in the trusted range scaled, in the integers as the spec has it (R89). -/
theorem scaleCode_eq (ch : Chan) (k : Nat) :
    scaleCode ch k = min (((k : Int) - 683) * (chanSpan ch : Int) / 2730).toNat (chanSpan ch) := by
  unfold scaleCode
  rcases Nat.le_total 683 k with above | below
  · have cast : ((k : Int) - 683) * (chanSpan ch : Int) / 2730 = (((k - 683) * chanSpan ch / 2730 : Nat) : Int) := by
      rw [Int.natCast_ediv, Int.natCast_mul, Int.natCast_sub above]
      rfl
    rw [cast, Int.toNat_natCast]
  · have low : ((k : Int) - 683) * (chanSpan ch : Int) ≤ 0 :=
      Int.mul_nonpos_of_nonpos_of_nonneg (by omega) (by omega)
    have none' : (((k : Int) - 683) * (chanSpan ch : Int) / 2730).toNat = 0 := Int.toNat_eq_zero.mpr (by omega)
    rw [none', Nat.sub_eq_zero_of_le below]
    simp

/-- The scanner's record with a water conversion written in. -/
def waterConverted (ch : Chan) (code : BitVec 12) (s : State) : State :=
  setChannel ch (convertWater ch code.toNat s.clock.ms (chanOf s ch)) (noteConversion ch s)

theorem conversionEnds_due {ch : Chan} {code : BitVec 12} {s : State} {behind : List Chan} (runs : s.scan.running = true)
    (water : ch.isWater = true) (due : DueNext s ch behind) :
    conversionEnds ch code s = protect (handUpdate ch) (waterConverted ch code s) := by
  rw [dueNext_iff] at due
  unfold conversionEnds
  rw [if_pos ⟨runs, water, due.1⟩]
  rfl

theorem conversionEnds_idle {ch : Chan} {code : BitVec 12} {s : State}
    (idle : s.scan.running = false ∨ ch.isWater = false ∨ ∀ behind, ¬ DueNext s ch behind) : conversionEnds ch code s = s := by
  refine if_neg fun h => ?_
  obtain ⟨runs, water, due⟩ := h
  rcases idle with stopped | dry | never
  · rw [stopped] at runs
    cases runs
  · rw [dry] at water
    cases water
  · exact never _ ((dueNext_iff s ch _).mpr ⟨due, rfl⟩)

theorem unitAfter_eq (count : Nat) : unitAfter count = if count < 10 then count + 1 else 1 := by
  unfold unitAfter
  split <;> split <;> omega

theorem unitBegins_running {s : State} (runs : s.scan.running = true) :
    unitBegins s = beginUnit (if s.scan.unitCount < 10 then s.scan.unitCount + 1 else 1) s := by
  unfold unitBegins
  rw [if_pos runs, unitAfter_eq]

/-- Settles O42. -/
theorem scannerConvertsItsChannels : Obligations.ScannerConvertsItsChannels := by
  intro ch code s on count k span raw converted burst ordinary plan
  have runs : ∀ g : State → State, live g s = .next (g s) := fun g => live_powered g s on
  refine ⟨fun running => (runs _).trans (congrArg _ (unitBegins_running running)),
    fun stopped => (runs _).trans (congrArg _ (if_neg (by rw [stopped]; decide))),
    fun behind running water due => ?_, fun idle => (runs _).trans (congrArg _ (conversionEnds_idle idle)),
    fun water fresh => ?_, fun old => (runs _).trans (congrArg _ (if_neg fun h => ?_))⟩
  · have record : convertWater ch code.toNat s.clock.ms (chanOf s ch) = converted := by
      unfold convertWater
      rw [scaleCode_eq]
    obtain ⟨frame, -, pressure⟩ := handUpdate_followed ch (waterConverted ch code s)
    have state : waterConverted ch code s = { s with scan :=
        { s.scan with
          chans := s.scan.chans.set ch converted
          plan := behind
          lastOrdinary := if ordinaryChans.contains ch then some ch else s.scan.lastOrdinary } } := by
      rw [← record, ← ((dueNext_iff s ch behind).mp due).2]
      rfl
    rw [state] at frame pressure
    refine ⟨_, (runs _).trans (congrArg _ (conversionEnds_due running water due)), ?_, ?_⟩
    · rw [state]
      exact frame
    · rw [state]
      exact pressure
  · obtain ⟨frame, handed⟩ := handUpdate_followed ch (setChannel ch { chanOf s ch with status := .stale } s)
    exact ⟨_, (runs _).trans (congrArg _ (if_pos ⟨water, fresh⟩)), frame, handed⟩
  · have others : (chanOf s ch).status ≠ .valid ∧ (chanOf s ch).status ≠ .broken := by
      rcases old with e | e <;> rw [e] <;> decide
    exact h.2.elim others.1 others.2

/-- Settles O43. -/
theorem readingsJudgeTheirCircuit : Obligations.ReadingsJudgeTheirCircuit := by
  intro ch code s on loaded running behind due c reads
  have water : ch.isWater = true := by
    cases ch with
    | loopPress | dipA | dipB => cases reads
    | _ => rfl
  obtain ⟨frame, judged, -⟩ := handUpdate_followed ch (waterConverted ch code s)
  have scan : (protect (handUpdate ch) (waterConverted ch code s)).scan = (waterConverted ch code s).scan := by rw [frame.1]
  refine ⟨_, (live_powered _ s on).trans (congrArg _ (conversionEnds_due running water due)), ?_⟩
  rw [scan]
  exact ⟨frame, judged loaded c reads⟩

end Sys2Proof.Machine
end


section
/-! The readiness evaluation of every second, and the lapse of an entry (R11, R122, R136). -/

namespace Sys2Proof.Machine

/-! ### Both furnaces' readiness, A's first -/

/-- What the run of A leaves, the run of B leaves too, and READY_CHANGED is told of both (log 10). -/
theorem ReadyRun.posted_both {s x t : State} (a : ReadyRun .a s x) (b : ReadyRun .b x t) : ReadyPosted s t := by
  obtain ⟨aOnly, -, aTold, -⟩ := a
  obtain ⟨bOnly, -, bTold, bPorts⟩ := b
  have postsA : readyPosting .a s t = readyPosting .a s x := readyPosting_congr rfl bOnly.other
  have postsB : readyPosting .b s t = readyPosting .b x t := readyPosting_congr aOnly.other.symm rfl
  rintro (_ | _) d posts
  · rw [postsA] at posts
    obtain ⟨kind, pourLine, deck⟩ := readyPosting_kind posts
    have out : d.kind ∉ refusalKinds := by rw [kind]; decide
    refine ⟨?_, fun last => ?_⟩
    · rcases bPorts .a with stands | ⟨is | is, -⟩
      · exact stands.notice out (aTold d posts _ deck)
      · cases is
      · cases is
    · rcases bPorts .p with stands | ⟨-, other⟩
      · exact stands.notice out (aTold d posts _ pourLine)
      · rcases last with is | none'
        · cases is
        · exact absurd (postsB.symm.trans none') other
  · rw [postsB] at posts
    obtain ⟨-, pourLine, deck⟩ := readyPosting_kind posts
    exact ⟨bTold d posts _ deck, fun _ => bTold d posts _ pourLine⟩

theorem ReadyRun.class_both {s x t : State} (a : ReadyRun .a s x) (b : ReadyRun .b x t) :
    ClassKept .a s t ∧ ClassKept .b s t := by
  obtain ⟨aOnly, aKept, -⟩ := a
  obtain ⟨bOnly, bKept, -⟩ := b
  have other : heatOf x .b = heatOf s .b := aOnly.other
  refine ⟨aKept.congr bOnly.other, ?_⟩
  unfold ClassKept at *
  rw [← other]
  exact bKept

/-- The readiness of both furnaces evaluated. -/
def evalReadiness (s : State) : State := evalReady .b (evalReady .a s)

theorem ReadinessCurrent.congr {f : Furnace} {s t : State} (h : ReadinessCurrent f s) (inputs : SameInputs s t)
    (slot : t.heat.slots.get f = s.heat.slots.get f) : ReadinessCurrent f t := by
  have heat : heatOf t f = heatOf s f := heatOf_congr (by rw [slot])
  intro x held
  rw [heat] at held
  rw [readyCond_congr f inputs (HeatMoved.refl 0 x)]
  exact h x held

theorem evalReadiness_current (s : State) :
    ReadinessCurrent .a (evalReadiness s) ∧ ReadinessCurrent .b (evalReadiness s) := by
  obtain ⟨bOnly, -⟩ := evalReady_run .b (evalReady .a s)
  exact ⟨(evalReady_current .a s).1.congr bOnly.inputs bOnly.2.2, (evalReady_current .b _).1⟩

/-- Readiness moves no heat into SUPERHEAT or out of it (R11). -/
theorem evalReady_superheat (f g : Furnace) {s : State} {h h' : Heat} (was : heatOf s g = some h)
    (is : heatOf (evalReady f s) g = some h') : h.state = .superheat ↔ h'.state = .superheat := by
  rcases evalReady_cases f s with ⟨same, -⟩ | ⟨x, heat, dest, moves, only⟩
  · rw [same, was] at is
    cases is
    rfl
  · have after : heatOf (evalReady f s) g = heatOf (setHeat f { x with state := dest } s) g :=
      heatOf_congr (by rw [only.heat]; rfl)
    rw [after] at is
    by_cases e : g = f
    · rw [e, heatOf_setHeat_same] at is
      rw [e, heat] at was
      cases was
      cases is
      rcases moves with ⟨state, to', -⟩ | ⟨state, to', -⟩ <;> simp [state, to']
    · rw [heatOf_setHeat_other _ _ e, was] at is
      cases is
      rfl

theorem evalReadiness_superheat {f : Furnace} {s : State} {h h' : Heat} (was : heatOf s f = some h)
    (is : heatOf (evalReadiness s) f = some h') : h.state = .superheat ↔ h'.state = .superheat := by
  obtain ⟨⟨⟨-, -, slots, -⟩, -⟩, -⟩ := evalReady_run .a s
  obtain ⟨mid, heat⟩ : ∃ x, heatOf (evalReady .a s) f = some x := by
    have slot := (slots f).2
    rw [show (s.heat.slots.get f).slot = .heat h from heatOf_some was] at slot
    obtain ⟨x, same, -⟩ := slot
    exact ⟨x, heatOf_of_slot same⟩
  exact (evalReady_superheat .a f was heat).trans (evalReady_superheat .b f heat is)

/-- The readiness evaluation followed up; no floor cause is looked for (R11). -/
theorem evalReadiness_followed {s : State} (loaded : loading s = false) :
    Settled [] s (coordinate (evalReadiness s)) ∧ AllotmentCurrent (coordinate (evalReadiness s))
      ∧ TiltNoticed s (coordinate (evalReadiness s)) ∧ (coordinate (evalReadiness s)).shop = s.shop := by
  obtain ⟨⟨aRun, aShop, -⟩, -⟩ := evalReady_run .a s
  obtain ⟨⟨bRun, bShop, -⟩, -⟩ := evalReady_run .b (evalReady .a s)
  have run : Evaluated [.readyChanged] s (evalReadiness s) := aRun.trans bRun
  have followed := coordinate_coordinated (evalReadiness s) (by rw [run.loading, loaded])
  have shop : (coordinate (evalReadiness s)).shop = s.shop := by
    rw [followed.1]
    exact bShop.trans aShop
  have settled := followed.settled
  obtain ⟨-, -, -, -, -, -, tilt, current⟩ := followed
  exact ⟨(run.mono (by decide)).settled settled, current, run.tiltNoticed tilt, shop⟩

/-! ### The lapse of an entry -/

theorem entryLapses_stands {id : Nat} {s : State} {e : Entry} (found : entryOf s id = some e)
    (stays : (∃ p ∈ s.tap.permit, p.requestId = id) ∨ e.deadline = none) : entryLapses id s = s := by
  unfold entryLapses
  rw [found]
  refine if_neg fun h => ?_
  obtain ⟨timed, free⟩ := h
  rcases stays with ⟨p, held, same⟩ | none'
  · exact (permitOfEntry_isNone_iff s id).mp free p held same
  · rw [none'] at timed
    cases timed

theorem entryLapses_expires {id : Nat} {s : State} {e : Entry} (found : entryOf s id = some e)
    (free : ∀ p ∈ s.tap.permit, p.requestId ≠ id) (timed : e.deadline.isSome = true) :
    entryLapses id s
      = recompute (post (.entryExpired id e.ladle) (askMatching { s with tap := entryRemoved id s })) := by
  unfold entryLapses
  rw [found]
  dsimp only
  rw [if_pos ⟨timed, (permitOfEntry_isNone_iff s id).mpr free⟩]
  unfold expireEntry
  rw [removeEntry_eq, entryOf_id found]

/-- Settles O39. -/
theorem secondsJudgeReadinessAndDeadlines : Obligations.SecondsJudgeReadinessAndDeadlines := by
  intro id s on
  have runs : ∀ g : State → State, live g s = .next (g s) := fun g => live_powered g s on
  refine ⟨⟨_, runs _, fun loads => if_pos loads, fun loaded => ?_⟩, fun absent => (runs _).trans (congrArg _ ?_),
    fun e found => ⟨fun stays => (runs _).trans (congrArg _ (entryLapses_stands found stays)), fun free timed loaded => ?_⟩⟩
  · intro u
    have second : readinessSecond s = coordinate (evalReadiness u) := if_neg (by rw [loaded]; decide)
    have served : MatchingFollows u (readinessSecond s) := (readinessSecond_served s loaded).congr rfl rfl
    rw [second] at served ⊢
    obtain ⟨settled, current, tilt, shop⟩ := evalReadiness_followed (s := u) loaded
    have a := evalReady_run .a u
    have b := evalReady_run .b (evalReady .a u)
    obtain ⟨classA, classB⟩ := a.class_both b
    obtain ⟨readyA, readyB⟩ := evalReadiness_current u
    have heats := coordinate_heatOf (evalReadiness u)
    obtain ⟨frame, -, -, tap, -, noted, -⟩ := coordinate_frame (evalReadiness u)
    have inputs : SameInputs (evalReadiness u) (coordinate (evalReadiness u)) := by
      refine ⟨?_, ?_, ?_, ?_, tap.tilt⟩ <;> rw [frame]
    have slots : (coordinate (evalReadiness u)).heat = (evalReadiness u).heat := by rw [frame]
    refine ⟨settled, shop, readyA.congr inputs (by rw [slots]), readyB.congr inputs (by rw [slots]), current, tilt,
      (a.posted_both b).keep noted (by decide) heats, classA.congr (heats .a), classB.congr (heats .b), served,
      fun f h was h' is => ?_⟩
    rw [heats] at is
    exact evalReadiness_superheat (s := u) was is
  · unfold entryLapses
    rw [absent]
  · obtain ⟨followed, matched, told⟩ := recompute_asked_post (d := .entryExpired id e.ladle)
      (s := { s with tap := entryRemoved id s }) loaded (by simp [Detail.kind, matchKinds])
    exact ⟨_, (runs _).trans (congrArg _ (entryLapses_expires found free timed)), followed, told, matched⟩

end Sys2Proof.Machine
end


section
/-! TRIP-RESET and PUMP-RETURN (R111, R115): a step of protection on request, with its answer. -/

namespace Sys2Proof.Machine

/-! ### No frame of protection reads the answer -/

section
variable (q : Port) (fr : Frame) (r : Reply) {s t : State}

theorem LeakNoticed.answer (h : LeakNoticed s t) : LeakNoticed (putAnswer q fr r s) (putAnswer q fr r t) := by
  intro other
  obtain ⟨carries, told⟩ := h other
  refine ⟨carries, fun f carried new => ?_⟩
  rw [putAnswer_notices]
  exact told f carried new

theorem CircuitTripped.answer {c : Circuit} {cause : TripCause} (h : CircuitTripped c cause s t) :
    CircuitTripped c cause (putAnswer q fr r s) (putAnswer q fr r t) := by
  obtain ⟨trip, why, latch, halted, enables, breaker, cooled⟩ := h
  exact ⟨trip, why, latch, halted, enables, breaker, cooled.answer q fr r⟩

theorem CircuitJudged.answer {c : Circuit} (h : CircuitJudged c s t) :
    CircuitJudged c (putAnswer q fr r s) (putAnswer q fr r t) := by
  obtain ⟨hard, soft, leak, others, loop, entered, normal, trip, latched, hardTrip, warns, noticed, init, inNormal, inWatch,
    inDerate⟩ := h
  refine ⟨hard, soft, leak, others, loop, fun changed => ⟨(entered changed).1, (entered changed).2.answer q fr r⟩, normal,
    trip, fun inInit latch => (latched inInit latch).answer q fr r,
    fun cause found was fresh => (hardTrip cause found was fresh).answer q fr r, fun f named was is => ?_,
    noticed.answer q fr r, init, inNormal, inWatch, fun none' state => ?_⟩
  · obtain ⟨v, read, told⟩ := warns f named was is
    exact ⟨v, read, told.answer q fr r⟩
  · obtain ⟨overdue, stays⟩ := inDerate none' state
    exact ⟨fun isSoft runs late => (overdue isSoft runs late).answer q fr r, stays⟩

theorem ProtOnly.answer (h : ProtOnly s t) : ProtOnly (putAnswer q fr r s) (putAnswer q fr r t) := by
  obtain ⟨frame, shop, handed, held, noted, enables, trips, stays⟩ := h
  refine ⟨?_, shop, handed, held, noted.answer q fr r, enables, trips, stays⟩
  rw [frame]
  rfl

theorem CircuitsJudged.answer (h : CircuitsJudged s t) : CircuitsJudged (putAnswer q fr r s) (putAnswer q fr r t) := by
  obtain ⟨waits, runs⟩ := h
  refine ⟨waits, fun loaded => ?_⟩
  obtain ⟨a, b, onlyA, judgedA, onlyB, judgedB, onlyC, judgedC⟩ := runs loaded
  exact ⟨putAnswer q fr r a, putAnswer q fr r b, onlyA.answer q fr r, judgedA.answer q fr r, onlyB.answer q fr r,
    judgedB.answer q fr r, onlyC.answer q fr r, judgedC.answer q fr r⟩

theorem FollowedUp.answer (h : FollowedUp s t) : FollowedUp (putAnswer q fr r s) (putAnswer q fr r t) := by
  obtain ⟨prot, trip, timer, noted⟩ := h
  exact ⟨prot, trip, timer, noted.answer q fr r⟩

theorem LoopReturned.answer (h : LoopReturned s t) : LoopReturned (putAnswer q fr r s) (putAnswer q fr r t) := by
  obtain ⟨loop, start, told, u, circuits, followed⟩ := h
  exact ⟨loop, start, told.answer q fr r, putAnswer q fr r u, circuits.answer q fr r, followed.answer q fr r⟩

theorem ProtFrame.answer (h : ProtFrame s t) : ProtFrame (putAnswer q fr r s) (putAnswer q fr r t) := by
  obtain ⟨frame, heat, slots, handed, allot, tap, assigned, noted, reasons, strap, decks, shop, trips, stands, stays, concerned,
    matched, told⟩ := h
  refine ⟨?_, heat, slots, handed, allot, tap, assigned.answer q fr r, noted.answer q fr r, reasons, strap, decks, shop, trips,
    fun same => ?_, stays, fun loaded f c names changed => ?_, matched.answer q fr r, told.answer q fr r⟩
  · rw [frame]
    rfl
  · obtain ⟨a, b, posted⟩ := stands same
    exact ⟨a.answer q fr r, b.answer q fr r, posted.answer q fr r⟩
  · obtain ⟨now', current, tilt, floor⟩ := concerned loaded f c names changed
    exact ⟨now'.answer q fr r, current.answer q fr r, tilt.answer q fr r, floor.answer q fr r⟩

end

/-! ### PUMP-RETURN -/

theorem returnToMain_returned {s t : State} (followed : FollowedUp (returnToMain s) t) : LoopReturned s t := by
  have moved := evalCircuits_circuits (setLoop .main .pumpReturn false s)
  have loop := followed.loop.trans moved.loop
  exact ⟨loop, congrArg LoopRec.standbyLatch loop, followed.pump (moved.pump (setLoop_noticed _ _ _ s)), _,
    returnToMain_judged s, followed⟩

section
variable {q : Port} {body : List Byte} {s : State}

theorem handlePumpReturn_taken
    (fit : s.prot.loop.state = some .standby ∧ s.lines.mainPumpRun = true
      ∨ s.prot.loop.state = some .loopFail ∧ s.lines.mainPumpRun = true ∧ pressureGood s = true) :
    handlePumpReturn q body s = (protect returnToMain s, replyDone []) := by
  unfold handlePumpReturn
  rcases fit with ⟨state, main⟩ | ⟨state, main, good⟩
  · simp [state, main]
  · simp [state, main, good]

theorem handlePumpReturn_conditions
    (unfit : s.prot.loop.state = some .standby ∧ s.lines.mainPumpRun = false
      ∨ s.prot.loop.state = some .loopFail ∧ ¬ (s.lines.mainPumpRun = true ∧ pressureGood s = true)) :
    handlePumpReturn q body s = (s, replyConditions false false false s.lines.mainPumpRun (pressureGood s)) := by
  unfold handlePumpReturn
  rcases unfit with ⟨state, main⟩ | ⟨state, bad⟩
  · simp [state, main]
  · rw [state]
    refine if_neg fun h => bad ?_
    simpa using h

theorem handlePumpReturn_wrongState (standby : s.prot.loop.state ≠ some .standby)
    (fail : s.prot.loop.state ≠ some .loopFail) : handlePumpReturn q body s = (s, replyRefused .wrongState) := by
  unfold handlePumpReturn
  dsimp only
  split
  · next h => exact absurd h standby
  · next h => exact absurd h fail
  · rfl

end

theorem deck_of_ne {q : Port} (deck : q ≠ .p) : ∃ f, portFurnace q = some f := by
  cases q with
  | a => exact ⟨_, rfl⟩
  | b => exact ⟨_, rfl⟩
  | p => exact absurd rfl deck

/-- Settles O24. -/
theorem pumpReturnNeedsTheMainPump : Obligations.PumpReturnNeedsTheMainPump := by
  intro q tag body s ready size deck main good st
  obtain ⟨f, port⟩ := deck_of_ne deck
  have kind : DeckKind .pumpReturn 0 := ⟨rfl, fun _ _ => rfl⟩
  refine ⟨fun fit => ?_, fun unfit => kind.unchanged ready size port (handlePumpReturn_conditions (q := q) (body := body) unfit),
    fun standby fail => kind.unchanged ready size port (handlePumpReturn_wrongState (q := q) (body := body) standby fail)⟩
  have frame := (protect_frame returnToMain (dropAssembly q s) (returnToMain_protOnly _)).answer q
    (requestFrame .pumpReturn tag body) (replyDone [])
  have returned := (returnToMain_returned (protect_followed returnToMain (dropAssembly q s))).answer q
    (requestFrame .pumpReturn tag body) (replyDone [])
  rw [putAnswer_dropAssembly] at frame returned
  exact ⟨_, kind.runs ready size port (handlePumpReturn_taken (q := q) (body := body) fit), frame, returned⟩

/-! ### TRIP-RESET -/

/-- The record of a circuit reset (R111). -/
def circuitReset (c : Circuit) (s : State) : State :=
  setCircuitRec c
    { timersHalted (circuitOf s c) with
      state := .normal, cause := none, latch := false, enteredAt := s.clock.shopSeconds } s

theorem resetTaken_eq (c : Circuit) (s : State) :
    resetTaken c s = post (coolingDetail (circuitReset c s)) (circuitReset c s) := by
  have record : setCircuitRec c
      { (circuitOf (setCircuitRec c { circuitOf s c with latch := false, cause := none } s) c).stopTimers with
        state := .normal, enteredAt := s.clock.shopSeconds }
      (setCircuitRec c { circuitOf s c with latch := false, cause := none } s) = circuitReset c s := by
    rw [circuitOf_setCircuitRec_same]
    simp only [setCircuitRec, PerCircuit.set_set]
    rfl
  unfold resetTaken enterNormal enterState
  dsimp only
  exact congrArg (fun x => post (coolingDetail x) x) record

/-- The furnaces that a circuit cools follow its reset. -/
theorem protect_resetTaken {c : Circuit} {s : State} (trip : (circuitOf s c).state = .trip) :
    protect (resetTaken c) s
      = settleNamed (circuitMask c) (post (coolingDetail (circuitReset c s)) (circuitReset c s)) := by
  have here : (circuitOf (resetTaken c s) c).state = .normal := by
    rw [resetTaken_eq]
    exact congrArg CircuitRec.state (circuitOf_setCircuitRec_same c _ s)
  have others : ∀ d, d ≠ c → circuitOf (resetTaken c s) d = circuitOf s d := fun d => resetTaken_other s
  have mask : furnacesConcerned s (resetTaken c s) = circuitMask c := by
    unfold furnacesConcerned
    cases c with
    | coilA => simp [circuitMask, here, trip, others .coilB, others .cabinet]
    | coilB => simp [circuitMask, here, trip, others .coilA, others .cabinet]
    | cabinet => simp [circuitMask, here, trip, others .coilA, others .coilB]
  unfold protect
  rw [mask, resetTaken_eq]

theorem coolingDetail_congr {s t : State} (prot : t.prot = s.prot) : coolingDetail t = coolingDetail s := by
  unfold coolingDetail
  rw [prot]

/-- COOLING stands through the follow-up (R116). -/
theorem settleNamed_cooled (m : PerFurnace Bool) (s : State) :
    Noticed (coolingDetail (settleNamed m (post (coolingDetail s) s))) (settleNamed m (post (coolingDetail s) s)) := by
  obtain ⟨settled, -⟩ := settleNamed_run m (post (coolingDetail s) s)
  have same : coolingDetail (settleNamed m (post (coolingDetail s) s)) = coolingDetail s :=
    coolingDetail_congr settled.prot
  obtain ⟨-, -, -, -, -, -, -, -, noted, -⟩ := settled
  rw [same]
  exact (post_noticed (coolingDetail s) s).keep noted
    (by simp [coolingDetail, Detail.kind, settleKinds, followKinds, matchKinds, refusalKinds])

/-- A notice of another kind posted before the follow-up of one heat. -/
theorem post_settledFor {d : Detail} {f : Furnace} {s : State} (loaded : loading s = false) :
    SettledFor [d.kind] f s (settleHeat f (post d s)) :=
  (post_only s (List.mem_singleton.mpr rfl)).settledFor (settleHeat_settledFor f (post d s) loaded) (post_matchKept d s)
    (settleHeat_served f (post d s) loaded)

theorem post_settledAll_other {d : Detail} {s : State} (loaded : loading s = false) :
    SettledAll [d.kind] s (settleAll (post d s)) :=
  (post_only s (List.mem_singleton.mpr rfl)).settledAll (settleAll_settledAll (post d s) loaded) (post_matchKept d s)
    (settleAll_served (post d s) loaded)

section
variable {q : Port} {body : List Byte} {s : State}

theorem circuitNamed_none {n : Nat} (out : 2 < n) : circuitNamed n = none := by
  match n with
  | n + 3 => rfl

variable {c : Circuit} (named : circuitNamed (field body 0 1) = some c)
include named

theorem permitted_tripReset (deck : q ≠ .p) (notB : ¬ (q = .a ∧ c = .coilB)) (notA : ¬ (q = .b ∧ c = .coilA)) :
    permitted .tripReset q body = true := by
  show mayReset q (field body 0 1) = true
  unfold mayReset
  rw [named]
  cases q with
  | a => cases c <;> simp_all
  | b => cases c <;> simp_all
  | p => exact absurd rfl deck

theorem handleTripReset_wrongState (other : (circuitOf s c).state ≠ .trip) :
    handleTripReset q body s = (s, replyRefused .wrongState) := by
  unfold handleTripReset
  simp [named, other, refuse]

variable (trip : (circuitOf s c).state = .trip)
include trip

theorem handleTripReset_taken
    (clear : allValid s c = true ∧ (hardCause s c).isSome = false ∧ softCond s c = false
      ∧ decide (s.prot.loop.state = some .loopFail) = false) :
    handleTripReset q body s = (protect (resetTaken c) s, replyDone []) := by
  obtain ⟨valid, hard, soft, loop⟩ := clear
  unfold handleTripReset
  simp_all

theorem handleTripReset_conditions
    (unclear : ¬ (allValid s c = true ∧ (hardCause s c).isSome = false ∧ softCond s c = false
      ∧ decide (s.prot.loop.state = some .loopFail) = false)) :
    handleTripReset q body s = (s, replyConditions (hardCause s c).isSome (softCond s c)
      (decide (s.prot.loop.state = some .loopFail)) false false) := by
  have same : (s.prot.loop.state == some .loopFail) = decide (s.prot.loop.state = some .loopFail) := by
    rw [Bool.eq_iff_iff]
    simp
  unfold handleTripReset
  rw [named]
  dsimp only
  rw [same, if_neg (by simp [trip]), if_neg unclear]

end

/-- Settles O21. -/
theorem tripResetNeedsClearReadings : Obligations.TripResetNeedsClearReadings := by
  intro q tag body s ready size deck
  have len : RequestKind.tripReset.lengthOk body.length = true := by
    rw [size]
    rfl
  have ⟨_, loaded, _⟩ := ready
  refine ⟨fun out => ?_, fun c named notB notA => ?_⟩
  · have none' := circuitNamed_none out
    refine request_unchanged .tripReset q tag body s ready len ?_ _ ?_
    · show mayReset q (field body 0 1) = true
      unfold mayReset
      rw [none']
      cases q with
      | p => exact absurd rfl deck
      | _ => rfl
    · show handleTripReset q body _ = _
      unfold handleTripReset
      rw [none']
      rfl
  · intro hard soft failed clear reset u
    have may := permitted_tripReset named deck notB notA
    have unchanged := request_unchanged .tripReset q tag body s ready len may
    refine ⟨fun other => unchanged _ (handleTripReset_wrongState (q := q) (s := dropAssembly q s) named other),
      fun trip unclear => unchanged _ (handleTripReset_conditions (q := q) (s := dropAssembly q s) named trip unclear),
      fun trip cleared => ?_⟩
    have taken := handleTripReset_taken (q := q) (s := dropAssembly q s) named trip cleared
    rw [protect_resetTaken (s := dropAssembly q s) trip] at taken
    have start : circuitReset c (dropAssembly q s) = dropAssembly q (circuitReset c s) := rfl
    rw [start] at taken
    refine ⟨_, request_runs ready len may taken, fun cabinet => ?_, fun f coil => ?_, ?_⟩
    · subst cabinet
      exact (post_settledAll_other (s := dropAssembly q (circuitReset .cabinet s)) loaded).answered
    · subst coil
      cases f with
      | a => exact (post_settledFor (f := .a) (s := dropAssembly q (circuitReset .coilA s)) loaded).answered
      | b => exact (post_settledFor (f := .b) (s := dropAssembly q (circuitReset .coilB s)) loaded).answered
    · exact (settleNamed_cooled (circuitMask c) (dropAssembly q (circuitReset c s))).answer _ _ _

end Sys2Proof.Machine
end


section
/-! RESUME, BANK and WAKE (R67 to R70). -/

namespace Sys2Proof.Machine

/-! ### The shop through the follow-up -/

/-- The follow-up leaves the shop and its notice, or the floor cause wakes a banked deck (R70). -/
theorem settleAll_shop (s : State) :
    (settleAll s).shop = s.shop ∧ PortsNoted ([.readyChanged] ++ refusalKinds ++ matchKinds) s (settleAll s)
      ∨ s.shop.state = .banked ∧ (settleAll s).shop.state = .run := by
  by_cases banked : s.shop.state = .banked
  · unfold settleAll
    split
    · exact .inl ⟨rfl, .refl _ s⟩
    · obtain ⟨⟨-, -, -, -, -, noted, -⟩, shop, -⟩ := evalHeats_run s
      obtain ⟨frame, -, -, -, -, after, -⟩ := coordinate_frame (floorWake (evalHeats s))
      unfold floorWake at frame after ⊢
      split at frame
      · next wakes =>
        rw [if_pos wakes, frame]
        obtain ⟨-, woken, -⟩ := evalHeats_run (setShop .run .floor (evalHeats s))
        refine .inr ⟨banked, ?_⟩
        show (evalHeats (setShop .run .floor (evalHeats s))).shop.state = .run
        rw [woken]
        rfl
      · next sleeps =>
        rw [if_neg sleeps] at after
        rw [if_neg sleeps, frame]
        exact .inl ⟨shop, PortsNoted.trans (noted.mono fun k hk => List.mem_append_left _ hk)
          (after.mono fun k hk => List.mem_append_right _ hk)⟩
  · exact .inl (settleAll_unbanked banked)

/-! ### The handlers -/

section
variable (q : Port) (body : List Byte) {s : State}

theorem handleResume_held (held : s.shop.state = .held) :
    handleResume q body s
      = (settleAll (setShop .run .resume { s with shop := { s.shop with reasons := noReasons } }),
        replyDone (be1 (holdReasonsCode s.shop.reasons))) := if_pos held

theorem handleResume_wrongState (other : s.shop.state ≠ .held) :
    handleResume q body s = (s, replyRefused .wrongState) := if_neg other

theorem handleBank_run (run : s.shop.state = .run) (free : s.tap.permit = none) :
    handleBank q body s = (settleAll (setShop .banked .bank s), replyDone []) := by
  unfold handleBank
  simp [run, free]

theorem handleBank_permit (run : s.shop.state = .run) (held : s.tap.permit.isSome = true) :
    handleBank q body s = (s, replyRefused .wrongState) := by
  unfold handleBank
  simp [run, held, refuse]

theorem handleBank_banked (banked : s.shop.state = .banked) : handleBank q body s = (s, replyDone []) := by
  unfold handleBank
  rw [banked]

theorem handleBank_off (off : s.shop.state = .held ∨ s.shop.state = .supplyOff) :
    handleBank q body s = (s, replyRefused .wrongState) := by
  unfold handleBank
  rcases off with state | state <;> rw [state] <;> rfl

theorem handleWake_banked (banked : s.shop.state = .banked) :
    handleWake q body s = (settleAll (setShop .run .wake s), replyDone []) := by
  unfold handleWake
  rw [banked]

theorem handleWake_run (run : s.shop.state = .run) : handleWake q body s = (s, replyDone []) := by
  unfold handleWake
  rw [run]

theorem handleWake_off (off : s.shop.state = .held ∨ s.shop.state = .supplyOff) :
    handleWake q body s = (s, replyRefused .wrongState) := by
  unfold handleWake
  rcases off with state | state <;> rw [state] <;> rfl

end

/-- A change of the shop state that is not to BANKED stands, and SHOP_STATE with it. -/
theorem setShop_followed {st : ShopState} {cause : ShopCause} {s : State} (awake : st ≠ .banked) :
    (settleAll (setShop st cause s)).shop.state = st
      ∧ Noticed (.shopState st s.shop.reasons cause) (settleAll (setShop st cause s)) := by
  have other : (setShop st cause s).shop.state ≠ .banked := awake
  exact ⟨congrArg Shop.state (settleAll_unbanked other).1, settleAll_shopNoticed other (post_noticed _ _)⟩

/-- The notice of the change belongs to the follow-up. -/
theorem setShop_settledAll (st : ShopState) (cause : ShopCause) {s : State} (loaded : loading s = false) :
    SettledAll [] { s with shop := { s.shop with state := st } } (settleAll (setShop st cause s)) :=
  post_settledAll (s := { s with shop := { s.shop with state := st } }) (by simp [Detail.kind, followKinds]) loaded

/-- A deck just banked: its notice stands with the state, or the floor cause tells of its own (R68, R70). -/
theorem bank_followed {s : State} (loaded : loading s = false) :
    ((settleAll (setShop .banked .bank s)).shop.state = .banked →
        Noticed (.shopState .banked s.shop.reasons .bank) (settleAll (setShop .banked .bank s)))
      ∧ ((settleAll (setShop .banked .bank s)).shop.state = .run →
        Noticed (.shopState .run s.shop.reasons .floor) (settleAll (setShop .banked .bank s))) := by
  obtain ⟨⟨-, -, -, woken, -⟩, -, -, -, -, floor, -⟩ := setShop_settledAll .banked .bank loaded
  refine ⟨fun banked => ?_, fun run => ?_⟩
  · rcases settleAll_shop (setShop .banked .bank s) with ⟨-, noted⟩ | ⟨-, is⟩
    · exact Noticed.keep (post_noticed _ _) noted (by simp [Detail.kind, refusalKinds, matchKinds])
    · rw [is] at banked
      cases banked
  · rcases woken with same | ⟨-, reached, -⟩
    · rw [same] at run
      cases run
    · exact (floor rfl reached).2

/-- Settles O22. -/
theorem shopRequestsChangeTheShop : Obligations.ShopRequestsChangeTheShop := by
  intro q tag body s ready size inState wrong
  have ⟨_, loaded, _⟩ := ready
  have resume : DeckKind .resume 0 := ⟨rfl, fun _ _ => rfl⟩
  have lenBank : RequestKind.bank.lengthOk body.length = true := by rw [size]; rfl
  have lenWake : RequestKind.wake.lengthOk body.length = true := by rw [size]; rfl
  have bank := request_unchanged .bank q tag body s ready lenBank rfl
  have wake := request_unchanged .wake q tag body s ready lenWake rfl
  refine ⟨fun deck held => ?_, fun deck other => ?_, fun pourLine => ?_, fun run free => ?_,
    fun run held => bank _ (handleBank_permit q body (s := dropAssembly q s) run held),
    fun banked => bank _ (handleBank_banked q body (s := dropAssembly q s) banked),
    fun off => ⟨bank _ (handleBank_off q body (s := dropAssembly q s) off),
      wake _ (handleWake_off q body (s := dropAssembly q s) off)⟩, fun banked => ?_,
    fun run => wake _ (handleWake_run q body (s := dropAssembly q s) run)⟩
  · obtain ⟨f, port⟩ := deck_of_ne deck
    have followed := setShop_followed (st := .run) (cause := .resume)
      (s := dropAssembly q { s with shop := { s.shop with reasons := noReasons } }) (by decide)
    have settled := setShop_settledAll .run .resume
      (s := dropAssembly q { s with shop := { s.shop with reasons := noReasons } }) loaded
    exact ⟨_, resume.runs ready size port (handleResume_held q body (s := dropAssembly q s) held),
      SettledAll.answered (s := inState .run noReasons s) settled, followed.1, followed.2.answer _ _ _⟩
  · obtain ⟨f, port⟩ := deck_of_ne deck
    exact resume.unchanged ready size port (handleResume_wrongState q body (s := dropAssembly q s) other)
  · subst pourLine
    exact request_notPermitted .resume .p tag body s ready (size ▸ resume.length) rfl
  · obtain ⟨banked, woken⟩ := bank_followed (s := dropAssembly q s) loaded
    exact ⟨_, request_runs ready lenBank rfl (handleBank_run q body (s := dropAssembly q s) run free),
      SettledAll.answered (s := inState .banked s.shop.reasons s) (setShop_settledAll .banked .bank loaded),
      fun is => (banked is).answer _ _ _, fun is => (woken is).answer _ _ _⟩
  · have followed := setShop_followed (st := .run) (cause := .wake) (s := dropAssembly q s) (by decide)
    exact ⟨_, request_runs ready lenWake rfl (handleWake_banked q body (s := dropAssembly q s) banked),
      SettledAll.answered (s := inState .run s.shop.reasons s) (setShop_settledAll .run .wake loaded), followed.1,
      followed.2.answer _ _ _⟩

end Sys2Proof.Machine
end


section
/-! A REPORT taken, and the link leaving for FAULT or LOST (R80 to R87, R126). -/

namespace Sys2Proof.Machine

/-! ### The follow-up from a stage with its frame marked -/

/-- Notices posted and a pair or a transmitter record handed on, and then a follow-up. -/
theorem Coordinated.after_stage {kinds : List NoticeKind} {s x t : State}
    (only : x = { s with stage := x.stage, ports := x.ports }) (handed : StageHanded s.stage x.stage)
    (noted : PortsNoted kinds s x) (g : Coordinated [] x t) : Coordinated kinds s t := by
  obtain ⟨frame, computed, stage, tap, assigned, ports, tilt, current⟩ := g
  have sameTap : x.tap = s.tap := by rw [only]
  have sameAllot : x.allot = s.allot := by rw [only]
  refine ⟨by rw [frame, only], sameAllot ▸ computed, handed.trans stage, sameTap ▸ tap, fun e he f hf => ?_,
    (noted.mono fun k hk => List.mem_append_left _ hk).trans (ports.mono fun k hk => ?_),
    tilt.of_tap (by rw [sameTap]) (by rw [sameTap]), current⟩
  · exact (assigned e he f hf).imp_left fun kept => by rw [← sameTap]; exact kept
  · exact List.mem_append_right _ (by simpa using hk)

/-! ### The grant of a pending permit (R126) -/

theorem grantIfPending_none {s : State} (calm : ∀ p ∈ s.tap.permit, p.state ≠ .pending) : grantIfPending s = s := by
  unfold grantIfPending
  split
  · next p held => exact if_neg (calm p held)
  · rfl

theorem grantIfPending_pending {p : Permit} {s : State} (held : s.tap.permit = some p) (pending : p.state = .pending) :
    grantIfPending s = grantPermit p s := by
  unfold grantIfPending
  rw [held]
  exact if_pos pending

theorem confirmTap_unmet {out : PerFurnace ReportOutput} {s : State}
    (unmet : ∀ p ∈ s.tap.permit, p.state = .pending → tapCap s + 50 < (out.get p.furnace).delivered) :
    confirmTap out s = s := by
  unfold confirmTap
  split
  · next p held => exact if_neg fun ⟨pending, low⟩ => absurd (unmet p held pending) (by omega)
  · rfl

theorem confirmTap_met {p : Permit} {out : PerFurnace ReportOutput} {s : State} (held : s.tap.permit = some p)
    (pending : p.state = .pending) (low : (out.get p.furnace).delivered ≤ tapCap s + 50) :
    confirmTap out s = grantPermit p s := by
  unfold confirmTap
  rw [held]
  exact if_pos ⟨pending, low⟩

/-- The notice of a grant. -/
def grantNotice (p : Permit) (h : Heat) (s : State) : Detail :=
  .permitResolved none p.furnace h.number p.requestId (ladleOf s p.requestId)

/-- The notices of the link stand through a grant, and the follow-up begins where the grant ended. -/
theorem grant_followed {p : Permit} {h : Heat} {u x : State} (loaded : loading u = false)
    (e : heatOf u p.furnace = some h) (only : x = { u with stage := x.stage, ports := x.ports })
    (handed : StageHanded u.stage x.stage) (noted : PortsNoted [.link] u x) :
    Coordinated [.link, .permitResolved] (grantedState p h u) (recompute (grantPermit p x))
      ∧ Noticed (grantNotice p h u) (recompute (grantPermit p x)) := by
  have open' : heatOf x p.furnace = some h := by rw [only]; exact e
  have notice : grantNotice p h x = grantNotice p h u := by rw [only]; rfl
  have loaded' : loading x = false := by rw [only]; exact loaded
  have granted : grantPermit p x = post (grantNotice p h u) (grantedState p h x) := by
    rw [← notice]
    exact grantPermit_eq p h x open'
  rw [granted]
  refine ⟨Coordinated.after_stage (x := post (grantNotice p h u) (grantedState p h x)) ?_ handed ?_
    (recompute_coordinated _ loaded'), (post_noticed _ _).keep (recompute_noted _)
      (by simp [grantNotice, Detail.kind, matchKinds])⟩
  · rw [only]
    rfl
  · have before : PortsNoted [.link] (grantedState p h u) (grantedState p h x) := noted
    exact (before.mono (by simp)).trans (post_noted_of (by simp [grantNotice, Detail.kind]))

/-! ### A REPORT taken (R81) -/

/-- The REPORT's records: the last report, the link UP and the delivered powers. -/
def reportedState (out : PerFurnace ReportOutput) (s : State) : State :=
  { s with
    stage := { s.stage with link := .up, deadline := some 0, last := some { out := out, takenAt := s.clock.ms } }
    heat :=
      { s.heat with slots :=
        ⟨{ s.heat.slots.a with reported := some out.a.delivered },
          { s.heat.slots.b with reported := some out.b.delivered }⟩ } }

/-- The state that the confirmation test of a REPORT reads. -/
def reportNoted (out : PerFurnace ReportOutput) (s : State) : State :=
  if s.stage.link = .up then reportedState out s else post (.link .up .report) (reportedState out s)

theorem takeReport_eq (out : PerFurnace ReportOutput) (s : State) :
    takeReport out s = recompute (confirmTap out (reportNoted out s)) := by
  unfold takeReport reportNoted reportedState
  by_cases up : s.stage.link = .up
  · simp only [if_pos up]
    rw [← up]
    rfl
  · simp only [if_neg up]
    rfl

theorem reportNoted_only (out : PerFurnace ReportOutput) (s : State) :
    reportNoted out s
      = { reportedState out s with stage := (reportNoted out s).stage, ports := (reportNoted out s).ports } := by
  unfold reportNoted
  split <;> rfl

theorem reportNoted_noted (out : PerFurnace ReportOutput) (s : State) :
    PortsNoted [.link] (reportedState out s) (reportNoted out s) := by
  unfold reportNoted
  split
  · exact .refl _ _
  · exact post_noted _ _

theorem reportNoted_noticed (out : PerFurnace ReportOutput) {s : State} (down : s.stage.link ≠ .up) :
    Noticed (.link .up .report) (reportNoted out s) := by
  unfold reportNoted
  rw [if_neg down]
  exact post_noticed _ _

/-- The frame counted for babble (R83). -/
def heardFrame (s : State) : State :=
  { s with stage := { s.stage with babble := babbleAfter s.stage.babble s.clock.ms } }

/-- An open receiver takes a valid REPORT that does not babble (R80, R83). -/
theorem receiveReport_taken {out : PerFurnace ReportOutput} {s : State} (opened : receiverClosed s = false)
    (calm : babbles s = false) : receiveReport (some out) s = takeReport out (heardFrame s) := by
  unfold receiveReport
  rw [opened, calm]
  rfl

theorem confirmTap_noted (out : PerFurnace ReportOutput) (s : State) :
    PortsNoted [.permitResolved] s (confirmTap out s) := by
  unfold confirmTap
  split
  · split
    · unfold grantPermit editHeat
      dsimp only
      split <;> exact post_noted_of (by simp [Detail.kind])
    · exact .refl _ s
  · exact .refl _ s

/-- A REPORT that brings the link UP tells it (R86). -/
theorem takeReport_noticed (out : PerFurnace ReportOutput) {s : State} (down : s.stage.link ≠ .up) :
    Noticed (.link .up .report) (takeReport out s) := by
  rw [takeReport_eq]
  exact ((reportNoted_noticed out down).keep (confirmTap_noted out _) (by simp [Detail.kind])).keep
    (recompute_noted _) (by simp [Detail.kind, matchKinds])

theorem reportNoted_handed (out : PerFurnace ReportOutput) (s : State) :
    StageHanded (reportedState out s).stage (reportNoted out s).stage := by
  unfold reportNoted
  split <;> exact .refl _

theorem reportNoted_loading (out : PerFurnace ReportOutput) (s : State) :
    loading (reportNoted out s) = loading s := by
  rw [reportNoted_only]
  rfl

theorem reportNoted_permit (out : PerFurnace ReportOutput) (s : State) :
    (reportNoted out s).tap.permit = s.tap.permit := by
  rw [reportNoted_only]
  rfl

theorem reportNoted_tapCap (out : PerFurnace ReportOutput) (s : State) : tapCap (reportNoted out s) = tapCap s := by
  rw [reportNoted_only]
  rfl

theorem heatOf_reportedState (out : PerFurnace ReportOutput) (s : State) (f : Furnace) :
    heatOf (reportedState out s) f = heatOf s f := by
  cases f <;> rfl

/-- A REPORT that confirms no pending permit. -/
theorem takeReport_unmet {out : PerFurnace ReportOutput} {s : State} (loaded : loading s = false)
    (unmet : ∀ p ∈ s.tap.permit, p.state = .pending → tapCap s + 50 < (out.get p.furnace).delivered) :
    Coordinated [.link] (reportedState out s) (takeReport out s) := by
  rw [takeReport_eq, confirmTap_unmet (by rw [reportNoted_permit, reportNoted_tapCap]; exact unmet)]
  exact Coordinated.after_stage (reportNoted_only out s) (reportNoted_handed out s) (reportNoted_noted out s)
    (recompute_coordinated _ ((reportNoted_loading out s).trans loaded))

/-- A REPORT that confirms the pending permit grants it (R87, R126). -/
theorem takeReport_met {out : PerFurnace ReportOutput} {s : State} {p : Permit} {h : Heat} (loaded : loading s = false)
    (held : s.tap.permit = some p) (open' : heatOf s p.furnace = some h) (pending : p.state = .pending)
    (low : (out.get p.furnace).delivered ≤ tapCap s + 50) :
    Coordinated [.link, .permitResolved] (grantedState p h (reportedState out s)) (takeReport out s)
      ∧ Noticed (grantNotice p h s) (takeReport out s) := by
  rw [takeReport_eq, confirmTap_met ((reportNoted_permit out s).trans held) pending
    (by rw [reportNoted_tapCap]; exact low)]
  exact grant_followed (u := reportedState out s) loaded ((heatOf_reportedState out s _).trans open')
    (reportNoted_only out s) (reportNoted_handed out s) (reportNoted_noted out s)

/-- Settles O33: the records of the REPORT, its notice, and the grant where the confirmation test is met. -/
theorem reportTakenInFull : Obligations.ReportTakenInFull := by
  intro deliveredA statusA deliveredB statusB s on loaded working calm rangeA rangeB ra knownA rb knownB out u
  have opened : receiverClosed (setStageAssembly [] s) = false :=
    receiverClosed_eq_false (s := setStageAssembly [] s) loaded working
  have report := exec_report deliveredA statusA deliveredB statusB s on
  rw [reportContents_valid rangeA rangeB knownA knownB, receiveReport_taken opened calm] at report
  let heard := heardFrame (setStageAssembly [] s)
  have state : reportedState out heard = u := rfl
  have unmet := takeReport_unmet (out := out) (s := heard) loaded
  have met := fun p h held open' pending low =>
    takeReport_met (out := out) (s := heard) (p := p) (h := h) loaded held open' pending low
  have notice : ∀ p h, grantNotice p h heard
      = .permitResolved none p.furnace h.number p.requestId (ladleOf s p.requestId) := fun _ _ => rfl
  simp only [notice] at met
  rw [state] at unmet met
  refine ⟨_, report, takeReport_noticed out (s := heard), unmet, fun p held h open' pending low => ?_⟩
  exact met p h held open' pending low

end Sys2Proof.Machine
end


section
/-! The link leaves for FAULT or for LOST (R82, R83, R86, R126). -/

namespace Sys2Proof.Machine

/-! ### The departure, whatever its cause -/

theorem outputEnable_of_link {s : State} (left : s.stage.link ≠ .up) (f : Furnace) : s.outputEnable f = false := by
  simp [State.outputEnable, left]

theorem grantIfPending_stage (s : State) : (grantIfPending s).stage = s.stage := by
  unfold grantIfPending
  split
  · split
    · exact grantPermit_stage _ s
    · rfl
  · rfl

theorem grantIfPending_noted (s : State) : PortsNoted [.permitResolved] s (grantIfPending s) := by
  unfold grantIfPending
  split
  · split
    · unfold grantPermit editHeat
      dsimp only
      split <;> exact post_noted_of (by simp [Detail.kind])
    · exact .refl _ s
  · exact .refl _ s

/-- The state after a departure: a permit pending when the link was UP is granted, and the follow-up. -/
def departed (wasUp : Bool) (x : State) : State := recompute (if wasUp then grantIfPending x else x)

theorem departed_link (wasUp : Bool) (x : State) : (departed wasUp x).stage.link = x.stage.link := by
  unfold departed
  rw [(recompute_stageHanded _).link]
  cases wasUp
  · rfl
  · exact congrArg Stage.link (grantIfPending_stage x)

theorem departed_noticed {d : Detail} (wasUp : Bool) {x : State} (told : Noticed d x) (kind : d.kind = .link) :
    Noticed d (departed wasUp x) := by
  unfold departed
  cases wasUp
  · exact told.keep (recompute_noted x) (by simp [kind, matchKinds])
  · exact (told.keep (grantIfPending_noted x) (by simp [kind])).keep (recompute_noted _) (by simp [kind, matchKinds])

/-- From the state with the departure written in, `u`, its notice posted and its frame marked, `x`. -/
theorem departed_linkLeft {s u x : State} (loaded : loading u = false)
    (only : x = { u with stage := x.stage, ports := x.ports }) (handed : StageHanded u.stage x.stage)
    (noted : PortsNoted [.link] u x) (heat : u.heat = s.heat) (tap : u.tap = s.tap) (left : u.stage.link ≠ .up) :
    LinkLeft u s (departed (s.stage.link == .up) x) := by
  have permit : x.tap.permit = s.tap.permit := by rw [only, ← tap]
  have followed : Coordinated [.link] u (recompute x) :=
    Coordinated.after_stage only handed noted (recompute_coordinated x (by rw [only]; exact loaded))
  refine ⟨fun calm => ?_, fun p held h open' up pending => ?_, fun f => outputEnable_of_link ?_ f⟩
  · unfold departed
    by_cases up : s.stage.link = .up
    · have still : ∀ p ∈ s.tap.permit, p.state ≠ .pending := calm.resolve_left fun down => down up
      rw [if_pos (by simp [up]), grantIfPending_none (by rw [permit]; exact still)]
      exact followed
    · rw [if_neg (by simp [up])]
      exact followed
  · have same : heatOf u p.furnace = some h := (heatOf_congr (by rw [heat])).trans open'
    have notice : grantNotice p h u
        = .permitResolved none p.furnace h.number p.requestId (ladleOf s p.requestId) := by
      unfold grantNotice ladleOf entryOf
      rw [tap]
    have granted := grant_followed loaded same only handed noted
    rw [notice] at granted
    unfold departed
    rw [if_pos (by simp [up]), grantIfPending_pending (permit.trans held) pending]
    exact granted
  · rw [departed_link, handed.link]
    exact left

/-! ### FAULT and LOST -/

/-- The link in FAULT (R83). -/
def faultState (s : State) : State :=
  { s with stage :=
    { s.stage with
      link := .fault, deadline := none, babble := [], sent := if s.stage.link = .up then noFurnace else s.stage.sent } }

/-- FAULT with its notice, and a frame on the wire marked where the link was UP (R76, R86). -/
def faultNoted (cause : LinkCause) (s : State) : State :=
  let transmitter := if s.stage.link = .up then s.stage.transmitter.linkLeft else s.stage.transmitter
  post (.link .fault cause) { faultState s with stage := { (faultState s).stage with transmitter := transmitter } }

theorem enterFault_eq (cause : LinkCause) (s : State) :
    enterFault cause s = departed (s.stage.link == .up) (faultNoted cause s) := by
  unfold enterFault departed faultNoted faultState
  by_cases up : s.stage.link = .up
  · simp only [up, beq_self_eq_true, if_true]
    rfl
  · have down : (s.stage.link == .up) = false := by simp [up]
    simp only [down, if_neg up]
    rfl

theorem enterFault_noticed (cause : LinkCause) (s : State) : Noticed (.link .fault cause) (enterFault cause s) := by
  rw [enterFault_eq]
  exact departed_noticed _ (post_noticed _ _) rfl

theorem enterFault_linkLeft (cause : LinkCause) {s : State} (loaded : loading s = false) :
    LinkLeft (faultState s) s (enterFault cause s) := by
  rw [enterFault_eq]
  exact departed_linkLeft loaded rfl rfl (post_noted _ _) rfl rfl (by simp [faultState])

/-- The link in LOST (R82). -/
def lostState (s : State) : State :=
  { s with stage := { s.stage with link := .lost, deadline := none, sent := noFurnace } }

/-- LOST with its notice, and a frame on the wire marked (R76, R86). -/
def lostNoted (s : State) : State :=
  post (.link .lost .timeout)
    { lostState s with stage := { (lostState s).stage with transmitter := s.stage.transmitter.linkLeft } }

theorem deadlineExpires_up {s : State} (up : s.stage.link = .up) (set : s.stage.deadline.isSome = true) :
    deadlineExpires s = departed (s.stage.link == .up) (lostNoted s) := by
  unfold deadlineExpires departed
  rw [if_pos ⟨up, set⟩, if_pos (by simp [up])]
  rfl

theorem deadlineExpires_off {s : State} (off : s.stage.link ≠ .up) : deadlineExpires s = s := if_neg fun ⟨up, _⟩ => off up

theorem receiveUnknownKind_opened {s : State} (opened : receiverClosed s = false) :
    receiveUnknownKind s = enterFault .unknownKind s := by
  unfold receiveUnknownKind
  rw [opened]
  rfl

theorem receiveReport_babbles {contents : Option (PerFurnace ReportOutput)} {s : State}
    (opened : receiverClosed s = false) (babble : babbles s = true) :
    receiveReport contents s = enterFault .babble s := by
  unfold receiveReport
  rw [opened, babble]
  rfl

/-- Settles O34: each departure is written in, told and followed up; only in UP does the deadline count. -/
theorem linkLeavesForFaultOrLost : Obligations.LinkLeavesForFaultOrLost := by
  intro frame deliveredA statusA deliveredB statusB s on loaded sent fault lost
  have opened : s.stage.link ≠ .fault → receiverClosed (setStageAssembly [] s) = false := fun working =>
    receiverClosed_eq_false (s := setStageAssembly [] s) loaded working
  have runs : ∀ g : State → State, live g s = .next (g s) := fun g => live_powered g s on
  have left := fun cause => enterFault_linkLeft cause (s := setStageAssembly [] s) loaded
  refine ⟨fun working other fits => ⟨enterFault .unknownKind (setStageAssembly [] s), ?_, enterFault_noticed _ _,
      left .unknownKind⟩,
    fun working babble => ⟨enterFault .babble (setStageAssembly [] s), ?_, enterFault_noticed _ _, left .babble⟩,
    fun up set => ⟨departed (s.stage.link == .up) (lostNoted s), ?_, departed_noticed _ (post_noticed _ _) rfl,
      departed_linkLeft (u := lostState s) loaded rfl rfl (post_noted _ _) rfl rfl (by simp [lostState])⟩,
    fun off => (runs _).trans (congrArg _ (deadlineExpires_off off))⟩
  · refine (runs _).trans (congrArg _ ?_)
    rw [receiveStageFrame_unknown _ _ _ other, receiveUnknownKind_opened (opened working)]
  · rw [exec_report _ _ _ _ s on, receiveReport_babbles (opened working) babble]
  · exact (runs _).trans (congrArg _ (deadlineExpires_up up set))

end Sys2Proof.Machine
end


section
/-! POST-TAP (R121, R70). -/

namespace Sys2Proof.Machine

/-! ### The id taken, and the values brought into range -/

/-- Of at most eight entries and the last ended permit none has the id that a new entry takes. -/
theorem takeId_fresh {s : State} (room : s.tap.queue.length < 8) :
    takeId s ∉ queueIds s ∧ s.tap.lastEnded ≠ some (takeId s) := by
  have count : (s.tap.queue.map Entry.id ++ s.tap.lastEnded.toList).length ≤ 9 := by
    cases s.tap.lastEnded <;> simp <;> omega
  have fresh : takeId s ∉ s.tap.queue.map Entry.id ++ s.tap.lastEnded.toList := by
    unfold takeId
    rw [freeId_firstFree, idAfter_wraps]
    exact firstFree_fresh count fun i j less bound => wrapAfter_distinct less (by omega)
  rw [List.mem_append, not_or, Option.mem_toList] at fresh
  exact fresh

theorem idAfter_eq (n : Nat) : idAfter n = if n < 255 then n + 1 else 1 := by
  unfold idAfter
  split <;> split <;> omega

theorem preferenceNamed_none {n : Nat} (out : 2 < n) : preferenceNamed n = none := by
  match n with
  | n + 3 => rfl

theorem preferenceNamed_some {n : Nat} (known : n ≤ 2) : ∃ pref, preferenceNamed n = some pref := by
  match n with
  | 0 | 1 | 2 => exact ⟨_, rfl⟩

/-- Nothing of a request was changed: every value stored is the one sent. -/
theorem entryClamped_iff (s : State) (pref : Preference) (body : List Byte) :
    entryClamped (newEntry s pref body) body = false
      ↔ clampTo 100 3000 (field body 1 2) = field body 1 2
        ∧ clampWindow (field body 3 2) (field body 5 2) = (field body 3 2, field body 5 2)
        ∧ (body.length = 10 → (if body.length = 10 then some (clampTo 60 3600 (field body 8 2)) else none)
            = some (field body 8 2)) := by
  have window : clampWindow (field body 3 2) (field body 5 2) = (field body 3 2, field body 5 2)
      ↔ (clampWindow (field body 3 2) (field body 5 2)).1 = field body 3 2
        ∧ (clampWindow (field body 3 2) (field body 5 2)).2 = field body 5 2 := Prod.ext_iff
  rw [window]
  unfold entryClamped newEntry
  by_cases ten : body.length = 10 <;> simp [ten, and_assoc]

/-! ### The handler's cases -/

section
variable (q : Port) {body : List Byte} {s : State}

theorem handlePostTap_badKind (wrong : field body 0 1 < 1 ∨ 63 < field body 0 1 ∨ 2 < field body 7 1) :
    handlePostTap q body s = (s, replyRefused .badKind) := by
  unfold handlePostTap
  dsimp only
  split
  · rfl
  · next pref known =>
    have ladle : field body 0 1 < 1 ∨ 63 < field body 0 1 := by
      rcases wrong with low | high | out
      · exact .inl low
      · exact .inr high
      · rw [preferenceNamed_none out] at known
        cases known
    exact if_pos ladle

variable (low : 1 ≤ field body 0 1) (high : field body 0 1 ≤ 63) {pref : Preference}
  (known : preferenceNamed (field body 7 1) = some pref)
include low high known

theorem handlePostTap_duplicate (other : ∃ e ∈ s.tap.queue, e.ladle = field body 0 1) :
    handlePostTap q body s = (s, replyRefused .duplicateLadle) := by
  have found : s.tap.queue.any (fun e => e.ladle == field body 0 1) = true := by simpa using other
  unfold handlePostTap
  simp only [known, found, if_true]
  exact if_neg (by omega)

variable (single : ∀ e ∈ s.tap.queue, e.ladle ≠ field body 0 1)
include single

theorem handlePostTap_full (full : 8 ≤ s.tap.queue.length) :
    handlePostTap q body s = (s, replyRefused .queueFull) := by
  have absent : ¬ s.tap.queue.any (fun e => e.ladle == field body 0 1) = true := by simpa using single
  unfold handlePostTap
  simp only [known]
  rw [if_neg (by omega), if_neg absent]
  exact if_pos full

theorem handlePostTap_taken (room : s.tap.queue.length < 8) :
    handlePostTap q body s
      = (wakeOnPostTap (appendEntry (newEntry s pref body) s),
        replyTaken (entryClamped (newEntry s pref body) body) (storedBytes (newEntry s pref body))) := by
  have absent : ¬ s.tap.queue.any (fun e => e.ladle == field body 0 1) = true := by simpa using single
  unfold handlePostTap
  simp only [known]
  rw [if_neg (by omega), if_neg absent]
  exact if_neg (Nat.not_le.mpr room)

end

/-! ### What follows the entry -/

/-- The Tap Coordinator with a new entry. -/
def entryAppended (e : Entry) (s : State) : Tap :=
  { s.tap with queue := s.tap.queue ++ [e], nextId := if e.id < 255 then e.id + 1 else 1 }

theorem appendEntry_eq (e : Entry) (s : State) :
    appendEntry e s = askMatching { s with tap := entryAppended e s } := by
  unfold appendEntry entryAppended
  rw [idAfter_eq]

theorem wakeOnPostTap_sleeps {s : State} (sleeps : ¬ (s.shop.state = .banked ∧ wakeOnPost s = true)) :
    wakeOnPostTap s = recompute s := if_neg sleeps

theorem wakeOnPostTap_wakes {s : State} (banked : s.shop.state = .banked) (wakes : wakeOnPost s = true) :
    wakeOnPostTap s = settleAll (setShop .run .postTap s) := if_pos ⟨banked, wakes⟩

/-- Matching runs on the new entry whether or not it wakes the deck (R122). -/
theorem wakeOnPostTap_matched {s : State} (loaded : loading s = false) (due : s.tap.matchDue = true) :
    Matched (wakeOnPostTap s) := by
  by_cases wakes : s.shop.state = .banked ∧ wakeOnPost s = true
  · rw [wakeOnPostTap_wakes wakes.1 wakes.2]
    exact (settleAll_served (setShop .run .postTap s) loaded).1 due
  · rw [wakeOnPostTap_sleeps wakes]
    exact recompute_matched loaded due

theorem settleAll_woken {s : State} (e : Entry) (loaded : loading s = false) :
    SettledAll [] { s with tap := entryAppended e s, shop := { s.shop with state := .run } }
      (settleAll (setShop .run .postTap (appendEntry e s))) := by
  rw [appendEntry_eq]
  exact setShop_settledAll .run .postTap (s := askMatching { s with tap := entryAppended e s }) loaded

/-- Settles O16: the entry is appended with a request to match, and the follow-up is that of the queue's change or, where
it wakes the deck, that of the shop's. -/
theorem postTapAppendsEntry : Obligations.PostTapAppendsEntry := by
  intro q tag body s ready port size ladle bring low high window wanted deadline id refused
  subst port
  have ⟨_, loaded, _⟩ := ready
  have len : RequestKind.postTap.lengthOk body.length = true := by rcases size with n | n <;> rw [n] <;> rfl
  have unchanged := request_unchanged .postTap .p tag body s ready len rfl
  refine ⟨fun wrong => unchanged _ (handlePostTap_badKind .p (s := dropAssembly .p s) wrong),
    fun least most known dup => ?_, fun least most known single full => ?_, fun least most single room pref known => ?_⟩
  · obtain ⟨pref, named⟩ := preferenceNamed_some known
    exact unchanged _ (handlePostTap_duplicate .p (s := dropAssembly .p s) least most named dup)
  · obtain ⟨pref, named⟩ := preferenceNamed_some known
    exact unchanged _ (handlePostTap_full .p (s := dropAssembly .p s) least most named single full)
  · intro e same u
    obtain ⟨fresh, ended⟩ := takeId_fresh room
    have unclamped : entryClamped (newEntry s pref body) body = false ↔ same := entryClamped_iff s pref body
    have reply : replyTaken (entryClamped (newEntry s pref body) body) (storedBytes (newEntry s pref body))
        = { outcome := if same then .done else .doneClamped, reason := none,
            body := be1 id ++ be2 wanted ++ be2 window.1 ++ be2 window.2 ++ opt4 deadline } := by
      unfold replyTaken
      congr 1
      by_cases kept : same
      · rw [if_pos kept, unclamped.mpr kept]
        rfl
      · rw [if_neg kept, eq_true_of_ne_false (mt unclamped.mp kept)]
        rfl
    have taken : handlePostTap .p body (dropAssembly .p s)
        = (wakeOnPostTap (appendEntry (newEntry s pref body) (dropAssembly .p s)),
          replyTaken (entryClamped (newEntry s pref body) body) (storedBytes (newEntry s pref body))) :=
      handlePostTap_taken .p (s := dropAssembly .p s) least most known single room
    rw [reply] at taken
    refine ⟨_, request_runs ready len rfl taken, fresh, ended, (wakeOnPostTap_matched (s := appendEntry (newEntry s pref body) (dropAssembly .p s)) loaded rfl).answer _ _ _,
      fun sleeps => ?_, fun banked wakes => ⟨?_, ?_⟩⟩
    · rw [wakeOnPostTap_sleeps (s := appendEntry (newEntry s pref body) (dropAssembly .p s)) sleeps, appendEntry_eq]
      exact Coordinated.answered (s := { s with tap := entryAppended (newEntry s pref body) s }) 
        (recompute_asked (s := { dropAssembly .p s with tap := entryAppended (newEntry s pref body) s }) loaded).1
    · rw [wakeOnPostTap_wakes (s := appendEntry (newEntry s pref body) (dropAssembly .p s)) banked wakes]
      exact SettledAll.answered
        (s := { s with tap := entryAppended (newEntry s pref body) s, shop := { s.shop with state := .run } })
        (settleAll_woken (s := dropAssembly .p s) _ loaded)
    · rw [wakeOnPostTap_wakes (s := appendEntry (newEntry s pref body) (dropAssembly .p s)) banked wakes]
      exact (setShop_followed (s := appendEntry (newEntry s pref body) (dropAssembly .p s)) (by decide)).2.answer _ _ _

end Sys2Proof.Machine
end


section
/-! A tap completed, and TAP-WEIGHT (R13, R133, R134). -/

namespace Sys2Proof.Machine

/-! ### The completion -/

section
variable {p : Permit} {h : Heat} {s : State} (mass : Nat) (clamped timeout : Bool)

/-- The state with a completion written into the heat table: the heat poured, or closed where no metal is left (R13). -/
def pouredState (p : Permit) (h : Heat) (mass : Nat) (clamped timeout : Bool) (s : State) : State :=
  let done := pouredHeat mass clamped timeout h
  if done.bathMass = 0 then
    closedState p.furnace (summaryAs p.furnace done .emptied 0 s) .empty s.heat.nextNumber s
  else setHeat p.furnace done s

/-- The Tap Coordinator's part of a completion (R134). -/
def tapEndedWith (p : Permit) (x : State) : State :=
  { x with tap :=
    { x.tap with
      queue := x.tap.queue.filter (fun e => e.id != p.requestId), permit := none, lastEnded := some p.requestId } }

/-- A heat closed under a granted permit leaves the queue's work as it is. -/
theorem closeHeat_tap_granted {f : Furnace} {h : Heat} {reason : CloseReason} (held : s.tap.permit = some p)
    (granted : p.state = .granted) (cold : h.state ≠ .tapReady) : (closeHeat f h reason s).tap = s.tap := by
  unfold closeHeat
  dsimp only
  rw [endAssignment_granted (s := writeSummary f h reason s) held granted, if_neg cold]
  simp only [setSlot_tap, post_tap, setMeltRequest_tap]
  rw [(endDip_closed f _).1]
  rfl

theorem summaryOf_setHeat_emptied (f : Furnace) (x h : Heat) (s : State) :
    summaryOf (setHeat f x s) f h .emptied = summaryAs f h .emptied 0 s := rfl

theorem closedState_setHeat (f : Furnace) (h : Heat) (x : Summary) (slot : Slot) (n : Nat) (s : State) :
    closedState f x slot n (setHeat f h s) = closedState f x slot n s := by
  unfold closedState
  simp [setHeat, setSlot, setFurnaceSlot]

include mass clamped timeout

/-- The heat's part of a completion under a granted permit, with its notices (R13). -/
theorem heatTakesTap_poured (e : heatOf s p.furnace = some h) (held : s.tap.permit = some p) (granted : p.state = .granted) :
    heatTakesTap p.furnace mass clamped timeout s
        = { pouredState p h mass clamped timeout s with
            ports := (heatTakesTap p.furnace mass clamped timeout s).ports }
      ∧ PortsNoted closeKinds s (heatTakesTap p.furnace mass clamped timeout s)
      ∧ (h.bathMass - mass = 0 →
          ClosingPosted p.furnace h.number .emptied s (heatTakesTap p.furnace mass clamped timeout s)) := by
  have done : completeHeat mass clamped timeout h = pouredHeat mass clamped timeout h := rfl
  have left : (pouredHeat mass clamped timeout h).bathMass = h.bathMass - mass := rfl
  by_cases empty : (pouredHeat mass clamped timeout h).bathMass = 0
  · rw [heatTakesTap_emptied mass clamped timeout e empty, done]
    unfold pouredState
    rw [if_pos empty]
    obtain ⟨⟨only, -, told⟩, posted, -⟩ := closeHeat_only p.furnace (pouredHeat mass clamped timeout h) .emptied
      (setHeat p.furnace (pouredHeat mass clamped timeout h) s)
    have tap := closeHeat_tap_granted (f := p.furnace) (h := pouredHeat mass clamped timeout h) (reason := .emptied)
      (s := setHeat p.furnace (pouredHeat mass clamped timeout h) s) held granted (by simp [pouredHeat])
    rw [summaryOf_setHeat_emptied, closedState_setHeat] at only told
    refine ⟨only.trans ?_, told.2.1 (by rw [tap]; rfl), fun _ => posted ?_⟩
    · rw [tap]
      rfl
    · unfold heatNumber
      rw [heatOf_setHeat_same]
      rfl
  · rw [heatTakesTap_left mass clamped timeout e empty, done]
    unfold pouredState
    rw [if_neg empty]
    exact ⟨rfl, .refl _ _, fun none' => absurd (left.trans none') empty⟩

theorem completedState_eq : completedState p h mass clamped timeout s
    = tapEndedWith p (pouredState p h mass clamped timeout s) := rfl

theorem tapFinished_eq : tapFinished p mass clamped timeout s
    = askMatching (tapEndedWith p (heatTakesTap p.furnace mass clamped timeout s)) := rfl

theorem pouredState_ports : (pouredState p h mass clamped timeout s).ports = s.ports := by
  unfold pouredState
  dsimp only
  split <;> rfl

theorem pouredState_loading : loading (pouredState p h mass clamped timeout s) = loading s := by
  unfold pouredState
  dsimp only
  split <;> rfl

/-- The completion before its notice: the state the statements name, with the request to match. -/
theorem tapFinished_completed (e : heatOf s p.furnace = some h) (held : s.tap.permit = some p)
    (granted : p.state = .granted) :
    tapFinished p mass clamped timeout s
        = { askMatching (completedState p h mass clamped timeout s) with
            ports := (tapFinished p mass clamped timeout s).ports }
      ∧ PortsNoted closeKinds (completedState p h mass clamped timeout s) (tapFinished p mass clamped timeout s)
      ∧ (h.bathMass - mass = 0 → ClosingPosted p.furnace h.number .emptied s (tapFinished p mass clamped timeout s)) := by
  obtain ⟨only, noted, posted⟩ := heatTakesTap_poured mass clamped timeout e held granted
  have ports := pouredState_ports (p := p) (h := h) (s := s) mass clamped timeout
  rw [tapFinished_eq, completedState_eq]
  generalize heatTakesTap p.furnace mass clamped timeout s = x at *
  generalize pouredState p h mass clamped timeout s = y at *
  refine ⟨?_, fun q => ?_, posted⟩
  · rw [only]
    rfl
  · have now := noted q
    rw [← ports] at now
    exact now

theorem bathMassOf_completedState :
    bathMassOf (completedState p h mass clamped timeout s) p.furnace = h.bathMass - mass := by
  have heat : heatOf (completedState p h mass clamped timeout s) p.furnace
      = heatOf (pouredState p h mass clamped timeout s) p.furnace := rfl
  unfold bathMassOf
  rw [heat]
  unfold pouredState
  by_cases empty : (pouredHeat mass clamped timeout h).bathMass = 0
  · have none' : h.bathMass - mass = 0 := empty
    rw [if_pos empty, none']
    unfold heatOf slotOf closedState
    simp
  · rw [if_neg empty, heatOf_setHeat_same]
    rfl

end

theorem heatNumber_of {f : Furnace} {h : Heat} {s : State} (e : heatOf s f = some h) : heatNumber s f = h.number := by
  unfold heatNumber
  rw [e]
  rfl

/-- A change that asks for matching, with its notices, followed up for one heat. -/
theorem asked_settledFor {kinds : List NoticeKind} {f : Furnace} {u x : State} (loaded : loading u = false)
    (only : x = { askMatching u with ports := x.ports }) (noted : PortsNoted kinds u x) :
    SettledFor kinds f u (settleHeat f x) ∧ Matched (settleHeat f x) := by
  have due : x.tap.matchDue = true := by rw [only]; rfl
  have tap : x.tap = (askMatching u).tap := by rw [only]
  have loaded' : loading x = false := by rw [only]; exact loaded
  have told : TapOnly kinds u x := by
    refine ⟨only.trans (by rw [tap]; rfl), ?_, Told.of_noted noted (by rw [tap]; rfl)⟩
    rw [tap]
    exact (askMatching_only kinds u).2.1
  exact ⟨told.settledFor (settleHeat_settledFor f x loaded') (MatchKept.of_due due) (settleHeat_served f x loaded'),
    (settleHeat_served f x loaded').1 due⟩

/-- A tap that completes under its granted permit (R134). -/
theorem completeTap_completed {p : Permit} {h : Heat} {s : State} (mass : Nat) (clamped timeout : Bool)
    (e : heatOf s p.furnace = some h) (held : s.tap.permit = some p) (granted : p.state = .granted)
    (loaded : loading s = false) :
    TapCompleted p h mass clamped timeout s (completedState p h mass clamped timeout s)
      (completeTap p mass clamped timeout s) := by
  obtain ⟨only, noted, posted⟩ := tapFinished_completed mass clamped timeout e held granted
  have bath := bathMassOf_completedState (p := p) (h := h) (s := s) mass clamped timeout
  have same : bathMassOf (tapFinished p mass clamped timeout s) p.furnace = h.bathMass - mass := by
    rw [only]
    exact bath
  rw [completeTap_eq, heatNumber_of e, same]
  have loaded' : loading (completedState p h mass clamped timeout s) = false :=
    (pouredState_loading mass clamped timeout).trans loaded
  obtain ⟨settled, matched⟩ := asked_settledFor (f := p.furnace) (kinds := [.heatClosed, .dipFailed, .tapDone])
    (u := completedState p h mass clamped timeout s)
    (x := post (tapDoneOf p h mass clamped timeout s) (tapFinished p mass clamped timeout s)) loaded'
    (by rw [only]; rfl)
    ((noted.mono (by simp [closeKinds])).trans (post_noted_of (by simp [tapDoneOf, Detail.kind])))
  refine TapCompleted.of_settled settled matched (settleHeat_noted _ _) (post_noticed _ _) fun empty => ?_
  obtain ⟨closed, dip⟩ := posted empty
  exact ⟨closed.keep (post_noted _ _) (by simp [tapDoneOf, Detail.kind]),
    fun sampling => (dip sampling).keep (post_noted _ _) (by simp [tapDoneOf, Detail.kind])⟩

end Sys2Proof.Machine
end


section
/-! TAP-WEIGHT (R133). -/

namespace Sys2Proof.Machine

/-! ### What evaluations leave of a heat -/

/-- Evaluations change the state and the class stamp of an open heat only. -/
theorem Settled.heat_some {kinds : List NoticeKind} {s t : State} {f : Furnace} {h : Heat} (g : Settled kinds s t)
    (e : heatOf s f = some h) : ∃ h', heatOf t f = some h' ∧ HeatMoved s.clock.shopSeconds h h' := by
  obtain ⟨-, -, slots, -⟩ := g
  obtain ⟨-, moved⟩ := slots f
  have slot : (s.heat.slots.get f).slot = .heat h := heatOf_some e
  rw [slot] at moved
  obtain ⟨h', now, moved⟩ := moved
  exact ⟨h', heatOf_of_slot now, moved⟩

theorem Settled.heat_none {kinds : List NoticeKind} {s t : State} {f : Furnace} (g : Settled kinds s t)
    (e : heatOf s f = none) : heatOf t f = none := by
  obtain ⟨-, -, slots, -⟩ := g
  obtain ⟨-, moved⟩ := slots f
  have no := heatOf_none_iff.mp e
  cases slot : (s.heat.slots.get f).slot with
  | heat h => exact absurd slot (no h)
  | empty | unknown =>
    rw [slot] at moved
    exact heatOf_none_of moved (by simp)

theorem Settled.bathMass {kinds : List NoticeKind} {s t : State} (g : Settled kinds s t) (f : Furnace) :
    bathMassOf t f = bathMassOf s f := by
  unfold bathMassOf
  cases e : heatOf s f with
  | none => rw [g.heat_none e]
  | some h =>
    obtain ⟨h', e', moved, -⟩ := g.heat_some e
    rw [e', moved]
    rfl

theorem TapCompleted.bathMass {p : Permit} {h : Heat} {mass : Nat} {clamped timeout : Bool} {s t : State}
    (done : TapCompleted p h mass clamped timeout s (completedState p h mass clamped timeout s) t) :
    bathMassOf t p.furnace = h.bathMass - mass := by
  obtain ⟨⟨settled, -⟩, -⟩ := done
  rw [settled.bathMass, bathMassOf_completedState]

/-! ### The completion does not read the permit's other fields nor the channel -/

section
variable (p : Permit) (h : Heat) (mass : Nat) (clamped timeout : Bool) (s : State)

theorem completedState_setPermit (x : Option Permit) :
    completedState p h mass clamped timeout (setPermit x s) = completedState p h mass clamped timeout s := by
  rw [completedState_eq, completedState_eq]
  unfold pouredState
  dsimp only
  split <;> rfl

theorem completedState_dropAssembly (q : Port) :
    completedState p h mass clamped timeout (dropAssembly q s)
      = dropAssembly q (completedState p h mass clamped timeout s) := by
  rw [completedState_eq, completedState_eq]
  unfold pouredState
  dsimp only
  split <;> rfl

end

theorem TapCompleted.answered {k : RequestKind} {q : Port} {tag : Byte} {body : List Byte} {reply : Reply} {p : Permit}
    {h : Heat} {mass : Nat} {clamped timeout : Bool} {s u t : State}
    (done : TapCompleted p h mass clamped timeout s (dropAssembly q u) t) :
    TapCompleted p h mass clamped timeout s (Machine.answered k q tag body reply u)
      (putAnswer q (requestFrame k tag body) reply t) := by
  obtain ⟨settled, matched, told, closed⟩ := done
  refine ⟨settled.answered, matched.answer _ _ _, told.answer _ _ _, fun empty => ?_⟩
  obtain ⟨posted, dip⟩ := closed empty
  exact ⟨posted.answer _ _ _, fun sampling => (dip sampling).answer _ _ _⟩

/-! ### The handler's cases -/

section
variable (q : Port) {body : List Byte} {s : State}

theorem handleTapWeight_early {p : Permit} (held : s.tap.permit = some p) (granted : p.state = .granted)
    (mine : p.requestId = field body 0 1) (early : p.forwardAt = none) :
    handleTapWeight q body s = (s, replyRefused .wrongState) := by
  unfold handleTapWeight
  simp [held, granted, mine, early, refuse]

theorem handleTapWeight_pours {p : Permit} (held : s.tap.permit = some p) (granted : p.state = .granted)
    (mine : p.requestId = field body 0 1) (pours : p.forwardAt.isSome = true) :
    handleTapWeight q body s = weightTaken p (field body 1 2) s := by
  unfold handleTapWeight
  simp [held, granted, mine, pours]

/-- Without a granted permit of this id the answer follows from the last ended permit and the queue. -/
theorem handleTapWeight_other (other : ∀ p ∈ s.tap.permit, p.state ≠ .granted ∨ p.requestId ≠ field body 0 1) :
    handleTapWeight q body s
      = if s.tap.lastEnded = some (field body 0 1) then refuse .tooLate s
        else if (entryOf s (field body 0 1)).isSome then refuse .wrongState s else refuse .noSuchEntry s := by
  unfold handleTapWeight
  cases held : s.tap.permit with
  | none => rfl
  | some p => exact if_neg fun ⟨granted, mine⟩ => (other p held).elim (· granted) (· mine)

end

section
variable {p : Permit} {h : Heat} {s : State} {sent : Nat} (open' : heatOf s p.furnace = some h)

/-- The permit with a weight stored, at most the bath (R133). -/
def weighed (p : Permit) (h : Heat) (sent : Nat) : Permit :=
  { p with weight := some { mass := min sent h.bathMass, clamped := decide (h.bathMass < sent) } }

include open'

theorem bathMassOf_of : bathMassOf s p.furnace = h.bathMass := by
  unfold bathMassOf
  rw [open']
  rfl

theorem weightTaken_away (away : tiltOf s p.furnace ≠ .home) :
    weightTaken p sent s
      = (setPermit (some (weighed p h sent)) s,
        replyTaken (decide (h.bathMass < sent)) (if decide (h.bathMass < sent) then be2 (min sent h.bathMass) else [])) := by
  unfold weightTaken
  rw [bathMassOf_of open']
  exact if_neg away

theorem weightTaken_home (home : tiltOf s p.furnace = .home) (granted : p.state = .granted) (loaded : loading s = false) :
    ∃ t, weightTaken p sent s
        = (t, replyTaken (decide (h.bathMass < sent))
            ((if decide (h.bathMass < sent) then be2 (min sent h.bathMass) else [])
              ++ be2 (h.bathMass - min sent h.bathMass)))
      ∧ TapCompleted (weighed p h sent) h (min sent h.bathMass) (decide (h.bathMass < sent)) false s
          (completedState (weighed p h sent) h (min sent h.bathMass) (decide (h.bathMass < sent)) false s) t := by
  have done := completeTap_completed (p := weighed p h sent) (h := h) (s := setPermit (some (weighed p h sent)) s)
    (min sent h.bathMass) (decide (h.bathMass < sent)) false open' rfl granted loaded
  have bath := done.bathMass
  rw [completedState_setPermit] at done
  refine ⟨_, ?_, done⟩
  unfold weightTaken
  rw [bathMassOf_of open', if_pos home, ← bath]
  rfl

end

/-- Settles O18. -/
theorem tapWeightStoresOrCompletes : Obligations.TapWeightStoresOrCompletes := by
  intro q tag body s ready port size id sent refused
  subst port
  have ⟨_, loaded, _⟩ := ready
  have len : RequestKind.tapWeight.lengthOk body.length = true := by rw [size]; rfl
  have unchanged := request_unchanged .tapWeight .p tag body s ready len rfl
  refine ⟨fun p held granted mine early => ?_, fun other => ⟨fun ended => ?_, fun last present => ?_, fun last absent => ?_⟩,
    fun p held granted mine pours h open' => ?_⟩
  · exact unchanged _ (handleTapWeight_early .p (s := dropAssembly .p s) held granted mine early)
  · exact unchanged _ ((handleTapWeight_other .p (s := dropAssembly .p s) other).trans (if_pos ended))
  · exact unchanged _ ((handleTapWeight_other .p (s := dropAssembly .p s) other).trans
      ((if_neg last).trans (if_pos present)))
  · exact unchanged _ ((handleTapWeight_other .p (s := dropAssembly .p s) other).trans
      ((if_neg last).trans (if_neg (by rw [show entryOf (dropAssembly .p s) id = none from absent]; decide))))
  · intro mass clamped stored kept
    have pouring := handleTapWeight_pours .p (s := dropAssembly .p s) held granted mine pours
    refine ⟨fun away => ?_, fun home => ?_⟩
    · exact request_setsTap .tapWeight .p tag body s ready len rfl _ _
        (pouring.trans (weightTaken_away (s := dropAssembly .p s) open' away))
    · obtain ⟨t, taken, done⟩ := weightTaken_home (s := dropAssembly .p s) (sent := sent) open' home granted loaded
      rw [completedState_dropAssembly] at done
      exact ⟨_, request_runs ready len rfl (pouring.trans taken), done.answered⟩

end Sys2Proof.Machine
end


section
/-! The four timers of the permit (R126, R127, R131, R132, R134, R136). -/

namespace Sys2Proof.Machine

/-! ### A permit ended and its entry returned -/

/-- A permit dropped with what ended it kept for the deck, and its entry returned (R127, R128, R131, R136). -/
def permitDropped (p : Permit) (r : Reason) (s : State) : State :=
  returnEntry p.requestId (askMatching (setKept p.furnace (some r) (setPermit none s)))

theorem permitDropped_ended (p : Permit) (r : Reason) (s : State) :
    permitDropped p r s
        = { askMatching { s with tap := tapEnded p r s } with ports := (permitDropped p r s).ports }
      ∧ PortsNoted [.entryExpired] s (permitDropped p r s) ∧ ReturnPosted p.requestId s (permitDropped p r s) := by
  obtain ⟨-, -, -, -, noted, posted⟩ :=
    returnEntry_spec p.requestId (askMatching (setKept p.furnace (some r) (setPermit none s)))
  refine ⟨?_, noted, posted⟩
  unfold permitDropped returnEntry tapEnded entriesReturned
  have entry : entryOf (askMatching (setKept p.furnace (some r) (setPermit none s))) p.requestId
      = s.tap.queue.find? (fun e => e.id == p.requestId) := rfl
  rw [entry]
  cases found : s.tap.queue.find? (fun e => e.id == p.requestId) with
  | none => rfl
  | some e =>
    have same : e.id = p.requestId := by simpa using List.find?_some found
    dsimp only
    rw [show now (askMatching (setKept p.furnace (some r) (setPermit none s))) = s.clock.shopSeconds from rfl, ← same]
    split <;> rfl

/-- Where the permit stands through the evaluations of one heat, nothing is told of a refusal (R127). -/
theorem settleHeat_unrefused {f : Furnace} {s : State} (loaded : loading s = false) (free : s.tap.permit = none) :
    PortsNoted followKinds s (settleHeat f s) := by
  obtain ⟨⟨-, -, -, -, -, -, ⟨-, -, -, kept⟩, -, -, -, quiet⟩, -⟩ := settleHeat_settledFor f s loaded
  refine quiet ?_
  rcases kept with ⟨same, -⟩ | ⟨p, held, -⟩
  · exact same
  · rw [free] at held
    cases held

/-! ### The confirm timer -/

theorem confirmExpires_pending {p : Permit} {s : State} (held : s.tap.permit = some p) (pending : p.state = .pending)
    (runs : p.confirm.isSome = true) :
    confirmExpires s = recompute (refusePermit p .stageNoConfirm false s) := by
  unfold confirmExpires
  rw [held]
  exact if_pos ⟨pending, runs⟩

theorem refusePermit_dropped (p : Permit) (r : Reason) (s : State) :
    refusePermit p r false s
      = permitDropped p r
          (post (.permitResolved (some r) p.furnace (heatNumber s p.furnace) p.requestId (ladleOf s p.requestId)) s) :=
  rfl

theorem confirmExpires_expired {p : Permit} {h : Heat} {s : State} (loaded : loading s = false)
    (held : s.tap.permit = some p) (open' : heatOf s p.furnace = some h) (pending : p.state = .pending)
    (runs : p.confirm.isSome = true) : ConfirmExpired p h s (confirmExpires s) := by
  rw [confirmExpires_pending held pending runs, refusePermit_dropped, heatNumber_of open']
  let told : Detail := .permitResolved (some .stageNoConfirm) p.furnace h.number p.requestId (ladleOf s p.requestId)
  have kind : told.kind = .permitResolved := by simp [told, Detail.kind]
  have notice := post_noticed told s
  have before := post_noted told s
  obtain ⟨only, noted, posted⟩ := permitDropped_ended p .stageNoConfirm (post told s)
  generalize permitDropped p .stageNoConfirm (post told s) = x at *
  have due : x.tap.matchDue = true := by rw [only]; rfl
  have loaded' : loading x = false := by rw [only]; exact loaded
  have followed := recompute_noted x
  refine ⟨Coordinated.of_asked (Coordinated.after_notices (x := x) ?_ ?_ (recompute_coordinated x loaded')),
    recompute_matched loaded' due, ?_, ?_⟩
  · exact only
  · exact (PortsNoted.mono (kinds := [told.kind]) before (by simp [kind])).trans (noted.mono (by simp))
  · exact (notice.keep noted (by simp [kind])).keep followed (by simp [kind, matchKinds])
  · exact fun e he late => (posted e he late).keep followed (by simp [Detail.kind, matchKinds])

/-! ### The use timer -/

theorem useExpires_waiting {p : Permit} {s : State} (held : s.tap.permit = some p) (granted : p.state = .granted)
    (runs : p.use.isSome = true) (early : p.forwardAt = none) : useExpires s = withdrawPermit p s := by
  unfold useExpires
  rw [held]
  exact if_pos ⟨granted, runs, early⟩

theorem withdrawPermit_dropped {p : Permit} {h : Heat} {s : State} (open' : heatOf s p.furnace = some h) :
    withdrawPermit p s
      = settleHeat p.furnace
          (permitDropped p .withdrawn
            (post (.permitWithdrawn p.furnace h.number p.requestId (ladleOf s p.requestId))
              (setHeat p.furnace { h with state := .holding, openTap := none } s))) := by
  unfold withdrawPermit
  rw [editHeat_some _ open', heatNumber_of open']
  rfl

/-- The withdrawal of a granted permit (R131). -/
theorem withdrawPermit_withdrawn {p : Permit} {h : Heat} {s : State} (loaded : loading s = false)
    (open' : heatOf s p.furnace = some h) : UseExpired p h s (withdrawPermit p s) := by
  rw [withdrawPermit_dropped open']
  let y := setHeat p.furnace { h with state := .holding, openTap := none } s
  let told : Detail := .permitWithdrawn p.furnace h.number p.requestId (ladleOf s p.requestId)
  have kind : told.kind = .permitWithdrawn := by simp [told, Detail.kind]
  have notice := post_noticed told y
  have before := post_noted told y
  obtain ⟨only, noted, posted⟩ := permitDropped_ended p .withdrawn (post told y)
  generalize permitDropped p .withdrawn (post told y) = x at *
  have loaded' : loading x = false := by rw [only]; exact loaded
  have free : x.tap.permit = none := by rw [only]; rfl
  have quiet := settleHeat_unrefused (f := p.furnace) loaded' free
  obtain ⟨settled, matched⟩ := asked_settledFor (f := p.furnace) (kinds := [.permitWithdrawn, .entryExpired])
    (u := setHeat p.furnace { h with state := .holding, openTap := none } { s with tap := tapEnded p .withdrawn s })
    (x := x) loaded only
    ((PortsNoted.mono (kinds := [told.kind]) before (by simp [kind])).trans (noted.mono (by simp)))
  refine ⟨settled, matched, ?_, fun e he late => (posted e he late).keep quiet
    (by simp [Detail.kind, followKinds, matchKinds])⟩
  exact (notice.keep noted (by simp [kind])).keep quiet (by simp [kind, followKinds, matchKinds])

/-! ### The tap timer and the weight timer -/

theorem tapMaxExpires_long {p : Permit} {h : Heat} {s : State} {forward : Nat} (held : s.tap.permit = some p)
    (open' : heatOf s p.furnace = some h) (at' : p.forwardAt = some forward) (granted : p.state = .granted)
    (runs : p.tap.isSome = true) (unposted : p.longPosted = false) : TapMaxExpired p h forward s (tapMaxExpires s) := by
  have posts : tapMaxExpires s = post (.tapLong p.furnace h.number p.requestId (s.clock.shopSeconds - forward))
      (setPermit (some { p with longPosted := true }) s) := by
    unfold tapMaxExpires
    rw [held]
    dsimp only
    rw [if_pos ⟨granted, runs, unposted⟩, heatNumber_of open', at']
    rfl
  rw [posts]
  exact ⟨rfl, PortsNoted.trans (t := setPermit (some { p with longPosted := true }) s) (.of_eq rfl) (post_noted _ _),
    post_noticed _ _⟩

theorem weightWaitExpires_waiting {p : Permit} {s : State} (held : s.tap.permit = some p) (granted : p.state = .granted)
    (runs : p.weightWait.isSome = true) : weightWaitExpires s = completeTap p 0 false true s := by
  unfold weightWaitExpires
  rw [held]
  exact if_pos ⟨granted, runs⟩

/-- Settles O19. -/
theorem tapTimersEndThePermit : Obligations.TapTimersEndThePermit := by
  intro s on loaded
  have runs : ∀ g : State → State, live g s = .next (g s) := fun g => live_powered g s on
  refine ⟨fun free => ?_, fun p held h open' => ⟨fun pending timer => ?_, fun granted timer early => ?_,
    fun forward at' granted timer unposted => ?_, fun granted timer => ?_⟩⟩
  · have still : confirmExpires s = s ∧ useExpires s = s ∧ tapMaxExpires s = s ∧ weightWaitExpires s = s := by
      unfold confirmExpires useExpires tapMaxExpires weightWaitExpires
      rw [free]
      exact ⟨rfl, rfl, rfl, rfl⟩
    obtain ⟨confirm, use, tap, weight⟩ := still
    exact ⟨(runs _).trans (congrArg _ confirm), (runs _).trans (congrArg _ use), (runs _).trans (congrArg _ tap),
      (runs _).trans (congrArg _ weight)⟩
  · exact ⟨_, runs _, confirmExpires_expired loaded held open' pending timer⟩
  · refine ⟨_, runs _, ?_⟩
    rw [useExpires_waiting held granted timer early]
    exact withdrawPermit_withdrawn loaded open'
  · exact ⟨_, runs _, tapMaxExpires_long held open' at' granted timer unposted⟩
  · refine ⟨_, runs _, ?_⟩
    rw [weightWaitExpires_waiting held granted timer]
    exact completeTap_completed 0 false true open' held granted loaded

end Sys2Proof.Machine
end


section
/-! The follow-up of a step is stable: made a second time it changes nothing (R10, R11, R59, R70, R122, R130). -/

namespace Sys2Proof.Machine

/-! ### The allotment computation -/

/-- A second computation on the same inputs. -/
theorem computed_again (s : State) (st : Stage) (handed : StageHanded s.stage st) :
    computed { s with allot := computed s, stage := st } = computed s := by
  have claim : ∀ f, claimOf { s with allot := computed s, stage := st } f = claimOf s f :=
    fun f => claimOf_congr f s (computed s) st (computed_computed s) handed
  have priority : priorityOutput { s with allot := computed s, stage := st } = priorityOutput s := rfl
  have budget : budgetW { s with allot := computed s, stage := st } = budgetW s := rfl
  have ne := otherFurnace_ne (priorityOutput s)
  have first : (computed s).out.get (priorityOutput s)
      = (s.allot.out.get (priorityOutput s)).update (claimOf s (priorityOutput s)) (budgetW s) := by
    rw [computed_eq]
    exact (PerFurnace.get_set_other _ _ ne.symm).trans (PerFurnace.get_set_same _ _ _)
  have second : (computed s).out.get (otherFurnace (priorityOutput s))
      = (s.allot.out.get (otherFurnace (priorityOutput s))).update (claimOf s (otherFurnace (priorityOutput s)))
          (budgetW s - ((computed s).out.get (priorityOutput s)).reserve) := by
    rw [first, computed_eq]
    exact PerFurnace.get_set_same _ _ _
  have firstAgain : ((computed s).out.get (priorityOutput s)).update (claimOf s (priorityOutput s)) (budgetW s)
      = (computed s).out.get (priorityOutput s) := by rw [first, AllotRec.update_update]
  have secondAgain : ((computed s).out.get (otherFurnace (priorityOutput s))).update
        (claimOf s (otherFurnace (priorityOutput s)))
        (budgetW s - ((computed s).out.get (priorityOutput s)).reserve)
      = (computed s).out.get (otherFurnace (priorityOutput s)) := by
    rw [second, AllotRec.update_update]
  conv => lhs; rw [computed_eq]
  rw [priority, budget, claim, claim]
  show { computed s with
      out := ((computed s).out.set (priorityOutput s) (((computed s).out.get (priorityOutput s)).update
          (claimOf s (priorityOutput s)) (budgetW s))).set (otherFurnace (priorityOutput s))
        (((computed s).out.get (otherFurnace (priorityOutput s))).update
          (claimOf s (otherFurnace (priorityOutput s)))
          (budgetW s - (((computed s).out.get (priorityOutput s)).update
            (claimOf s (priorityOutput s)) (budgetW s)).reserve)), .. } = computed s
  rw [firstAgain, secondAgain, PerFurnace.set_get, PerFurnace.set_get]

theorem allocate_again (s : State) : allocate (allocate s) = allocate s := by
  cases loaded : loading s with
  | true => 
    have still : allocate s = s := if_pos loaded
    rw [still, still]
  | false =>
    obtain ⟨frame, handed⟩ := putAllotment_frame (computed s) s
    have run : allocate s = { s with allot := computed s, stage := (putAllotment (computed s) s).stage } := by
      unfold allocate
      rw [if_neg (by rw [loaded]; decide)]
      exact frame
    rw [run]
    unfold allocate
    rw [if_neg (by show ¬ loading s = true; rw [loaded]; decide), computed_again s _ handed]
    exact if_pos rfl

/-! ### The tilt evaluation -/

/-- UNPERMITTED_TILT stands as it has been evaluated: the conditions are on record, and each port's notice carries one
that stands, with its detail (R130). -/
structure TiltStands (s : State) : Prop where
  conditions : s.tap.unpermitted = ⟨unpermittedCond s .a, unpermittedCond s .b⟩
  carried : ∀ q, ∀ d ∈ s.tap.tiltCarried.get q, d = tiltDetail s d.furnace ∧ unpermittedCond s d.furnace = true

theorem TiltNoticed.stands {s t : State} (h : TiltNoticed s t) : TiltStands t := by
  obtain ⟨conditions, ports⟩ := h
  have same : ∀ f, t.tap.unpermitted.get f = unpermittedCond t f := fun f => by
    rw [Bool.eq_iff_iff, conditions f, unpermittedCond_iff]
  refine ⟨PerFurnace.ext_get fun f => ?_, fun q d held => ?_⟩
  · rw [same]
    cases f <;> rfl
  · obtain ⟨detail, stands, -⟩ := (ports q).2 d held
    exact ⟨detail, (unpermittedCond_iff t d.furnace).mpr stands⟩

theorem carriedNext_same {cond : PerFurnace Bool} {carried : Option Furnace} (stands : ∀ f ∈ carried, cond.get f = true) :
    carriedNext cond cond carried = carried := by
  unfold carriedNext
  simp only [Bool.and_not_self, Bool.false_eq_true, if_false]
  cases carried with
  | none => rfl
  | some f => exact if_pos (stands f rfl)

theorem tiltNoticeAt_stands {s : State} (h : TiltStands s) (q : Port) :
    tiltNoticeAt q s.tap.unpermitted ⟨unpermittedCond s .a, unpermittedCond s .b⟩ s = s := by
  have get : ∀ f, (⟨unpermittedCond s .a, unpermittedCond s .b⟩ : PerFurnace Bool).get f = unpermittedCond s f :=
    fun f => by cases f <;> rfl
  have next : carriedNext s.tap.unpermitted ⟨unpermittedCond s .a, unpermittedCond s .b⟩
      ((s.tap.tiltCarried.get q).map TiltDetail.furnace) = (s.tap.tiltCarried.get q).map TiltDetail.furnace := by
    rw [h.conditions]
    refine carriedNext_same fun f held => ?_
    obtain ⟨d, carried, rfl⟩ := Option.map_eq_some_iff.mp held
    rw [get]
    exact (h.carried q d carried).2
  have after : ((s.tap.tiltCarried.get q).map TiltDetail.furnace).map (tiltDetail s) = s.tap.tiltCarried.get q := by
    cases held : s.tap.tiltCarried.get q with
    | none => rfl
    | some d => exact congrArg some (h.carried q d held).1.symm
  unfold tiltNoticeAt
  dsimp only
  rw [next, after, PerPort.set_get]
  cases held : s.tap.tiltCarried.get q with
  | none => rfl
  | some d =>
    have was : s.tap.unpermitted.get d.furnace = true := by
      rw [h.conditions, get]
      exact (h.carried q d held).2
    exact if_pos ⟨rfl, was⟩

theorem evalTilt_stands {s : State} (h : TiltStands s) : evalTilt s = s := by
  have recorded : ({ s with tap := { s.tap with
      unpermitted := ⟨unpermittedCond s .a, unpermittedCond s .b⟩ } } : State) = s := by rw [← h.conditions]
  unfold evalTilt
  dsimp only
  rw [recorded, tiltNoticeAt_stands h, tiltNoticeAt_stands h, tiltNoticeAt_stands h]

/-! ### The evaluations of a heat and the floor cause -/

theorem setHeat_self {f : Furnace} {h : Heat} {s : State} (e : heatOf s f = some h) : setHeat f h s = s := by
  have slot : (s.heat.slots.get f).slot = .heat h := heatOf_some e
  unfold setHeat setSlot setFurnaceSlot
  rw [← slot, PerFurnace.set_get]

theorem liquidEval_of_current {f : Furnace} {h : Heat} {s : State} (current : LiquidCurrent f s) (e : heatOf s f = some h) :
    liquidEval s h = h := by
  unfold liquidEval
  cases estimate : h.estimate with
  | none => rfl
  | some x =>
    obtain ⟨hot, holds⟩ := current h e x estimate
    cases state : h.state with
    | melting => rfl
    | tapping => rfl
    | superheat => exact if_neg (Nat.not_le.mpr (hot state))
    | holding => exact if_neg (Nat.not_lt.mpr (holds (.inl state)))
    | tapReady => exact if_neg (Nat.not_lt.mpr (holds (.inr state)))

theorem evalLiquid_current {f : Furnace} {s : State} (current : LiquidCurrent f s) : evalLiquid f s = s := by
  unfold evalLiquid reviseHeat
  cases e : heatOf s f with
  | none => rfl
  | some h =>
    have same : restamp (now s) h (liquidEval s (id h)) = h := by
      rw [id_eq, liquidEval_of_current current e]
      exact if_pos rfl
    dsimp only
    rw [same, setHeat_self e]
    unfold afterRevision
    simp

theorem evalReady_ready {f : Furnace} {s : State} (current : ReadinessCurrent f s) : evalReady f s = s := by
  unfold evalReady
  cases e : heatOf s f with
  | none => rfl
  | some h =>
    obtain ⟨ready, holds⟩ := current h e
    dsimp only
    have stays : ¬ (h.state = .holding ∧ readyCond s f h = true) := fun ⟨state, cond⟩ => by
      rw [holds state] at cond
      cases cond
    have remains : ¬ (h.state = .tapReady ∧ readyCond s f h = false) := fun ⟨state, cond⟩ => by
      rw [ready state] at cond
      cases cond
    rw [if_neg stays, if_neg remains]

theorem evalHeat_current {f : Furnace} {s : State} (current : EvaluatedNow f s) : evalHeat f s = s := by
  obtain ⟨ready, liquid⟩ := current
  unfold evalHeat
  rw [evalLiquid_current liquid, evalReady_ready ready]

theorem floorWake_followed {kinds : List NoticeKind} {s t : State} (settled : Settled kinds s t) (floor : FloorFollows s t) :
    floorWake t = t := by
  have sett := settled.sett
  obtain ⟨-, -, slots, woken, -⟩ := settled
  unfold floorWake
  refine if_neg fun ⟨banked, wakes, low⟩ => ?_
  have reached : FloorReached s := ((floorReached_iff t).mpr ⟨wakes, low⟩).of_evaluated sett slots
  rcases woken with same | ⟨-, -, run⟩
  · rw [(floor (same ▸ banked) reached).1] at banked
    cases banked
  · rw [run] at banked
    cases banked

/-! ### The whole follow-up -/

theorem matchIfDue_done (s : State) : (matchIfDue s).tap.matchDue = false := by
  unfold matchIfDue
  split
  · unfold runMatching
    split
    · rfl
    · split
      · rfl
      · split <;> rfl
  · next due => exact Bool.eq_false_iff.mpr due

theorem coordinate_done (s : State) : (coordinate s).tap.matchDue = false := by
  have allot : (coordinate s).tap = (evalTilt (matchIfDue s)).tap := by
    unfold coordinate
    rw [(allocate_frame _).1]
  obtain ⟨-, tilt, -⟩ := evalTilt_spec (matchIfDue s)
  rw [allot, tilt]
  exact matchIfDue_done s

theorem coordinate_again (s : State) : coordinate (coordinate s) = coordinate s := by
  obtain ⟨-, -, -, -, -, -, tilt, -⟩ := coordinate_frame s
  have matched : matchIfDue (coordinate s) = coordinate s := if_neg (by rw [coordinate_done]; decide)
  show allocate (evalTilt (matchIfDue (coordinate s))) = coordinate s
  rw [matched, evalTilt_stands tilt.stands]
  exact allocate_again _

/-- Following up one heat a second time changes nothing. -/
theorem settleHeat_again {f : Furnace} {s : State} (loaded : loading s = false) :
    settleHeat f (settleHeat f s) = settleHeat f s := by
  obtain ⟨settled, evaluated, -, -, floor, -⟩ := settleHeat_settledFor f s loaded
  have still : loading (settleHeat f s) = false := by
    unfold loading
    rw [settled.sett]
    exact loaded
  have run : settleHeat f s = coordinate (floorWake (evalHeat f s)) := if_neg (by rw [loaded]; decide)
  have again : settleHeat f (settleHeat f s) = coordinate (floorWake (evalHeat f (settleHeat f s))) :=
    if_neg (by rw [still]; decide)
  rw [again, evalHeat_current evaluated, floorWake_followed settled floor, run, coordinate_again]

end Sys2Proof.Machine
end


section
/-! A change of tilt (R13, R129 to R134). -/

namespace Sys2Proof.Machine

/-! ### What a granted permit sees of the tilt -/

section
variable {f : Furnace} {t : Tilt} {p : Permit} {s : State}

theorem permitSeesTilt_unheld (free : grantedFor s f = false) : permitSeesTilt f t s = s := by
  unfold grantedFor at free
  unfold permitSeesTilt
  cases held : s.tap.permit with
  | none => rfl
  | some p =>
    rw [held] at free
    exact if_neg fun ⟨granted, mine⟩ => by simp [granted, mine] at free

variable (held : s.tap.permit = some p) (granted : p.state = .granted) (mine : p.furnace = f)
include held granted mine

theorem permitSeesTilt_poured (tipped : t = .forward ∨ t = .invalid) (early : p.forwardAt = none) :
    permitSeesTilt f t s = startPour p s := by
  unfold permitSeesTilt
  rw [held]
  rcases tipped with rfl | rfl <;> simp [granted, mine, early]

theorem permitSeesTilt_again (tipped : t = .forward ∨ t = .invalid) (pours : p.forwardAt.isSome = true) :
    permitSeesTilt f t s = setPermit (some { p with weightWait := none }) s := by
  unfold permitSeesTilt
  rw [held]
  have early : p.forwardAt.isNone = false := by rw [← Option.not_isSome, pours]; rfl
  rcases tipped with rfl | rfl <;> simp only [granted, mine, early, and_self, if_true] <;> rfl

theorem permitSeesTilt_back (back : t = .back) :
    permitSeesTilt f t s = setPermit (some { p with weightWait := none }) s := by
  subst back
  unfold permitSeesTilt
  rw [held]
  exact if_pos ⟨granted, mine⟩

theorem permitSeesTilt_still (home : t = .home) (early : p.forwardAt = none) : permitSeesTilt f t s = s := by
  subst home
  unfold permitSeesTilt
  rw [held]
  simp [early]

theorem permitSeesTilt_home (home : t = .home) (pours : p.forwardAt.isSome = true) :
    permitSeesTilt f t s = comeHome p s := by
  subst home
  unfold permitSeesTilt
  rw [held]
  simp [granted, mine, pours]

end

/-! ### The pour and the return -/

section
variable {p : Permit} {h : Heat} {s : State} (open' : heatOf s p.furnace = some h)
include open'

theorem startPour_eq :
    startPour p s
      = setHeat p.furnace
          { h with openTap := h.openTap.map fun x =>
              { x with forwardAt := some s.clock.shopSeconds, estimateAtForward := h.estimate } }
          (setPermit (some { p with forwardAt := some s.clock.shopSeconds, use := none, tap := some 0 }) s) :=
  editHeat_some (s := setPermit _ s) _ open'

/-- The heat with its return HOME recorded (R132). -/
def returnedHeat (second : Nat) (h : Heat) : Heat :=
  { h with openTap := h.openTap.map fun x => { x with homeAt := some second } }

/-- The permit with its return HOME recorded (R132). -/
def returnedPermit (second : Nat) (p : Permit) : Permit := { p with homeAt := some second }

/-- The return HOME written in. -/
def returnedHome (p : Permit) (h : Heat) (s : State) : State :=
  setHeat p.furnace (returnedHeat s.clock.shopSeconds h) (setPermit (some (returnedPermit s.clock.shopSeconds p)) s)

theorem returnedHome_eq :
    editHeat p.furnace (returnedHeat s.clock.shopSeconds) (setPermit (some (returnedPermit s.clock.shopSeconds p)) s)
      = returnedHome p h s :=
  editHeat_some (s := setPermit (some (returnedPermit s.clock.shopSeconds p)) s) _ open'

theorem comeHome_unweighed (unweighed : p.weight = none) :
    comeHome p s
      = setHeat p.furnace (returnedHeat s.clock.shopSeconds h)
          (setPermit (some { returnedPermit s.clock.shopSeconds p with weightWait := some 0 }) s) := by
  have recorded := returnedHome_eq open'
  unfold comeHome
  dsimp only
  split
  · next w weighed =>
    rw [unweighed] at weighed
    cases weighed
  · exact congrArg (setPermit (some { returnedPermit s.clock.shopSeconds p with weightWait := some 0 })) recorded

theorem comeHome_weighed {w : Weight} (weighed : p.weight = some w) :
    comeHome p s
      = completeTap (returnedPermit s.clock.shopSeconds p) w.mass w.clamped false (returnedHome p h s) := by
  have recorded := returnedHome_eq open'
  unfold comeHome
  dsimp only
  split
  · next x found =>
    obtain rfl : w = x := Option.some.inj (weighed.symm.trans found)
    exact congrArg (completeTap (returnedPermit s.clock.shopSeconds p) w.mass w.clamped false) recorded
  · next none' =>
    rw [weighed] at none'
    cases none'

end

theorem setHeat_setHeat (f : Furnace) (x y : Heat) (s : State) : setHeat f x (setHeat f y s) = setHeat f x s := by
  unfold setHeat setSlot setFurnaceSlot
  simp

/-- A completion writes over the heat and the permit that it completes. -/
theorem completedState_returned (p : Permit) (h x : Heat) (y : Option Permit) (mass : Nat) (clamped timeout : Bool) (s : State) :
    completedState p h mass clamped timeout (setHeat p.furnace x (setPermit y s))
      = completedState p h mass clamped timeout s := by
  rw [← completedState_setPermit p h mass clamped timeout s y, completedState_eq, completedState_eq]
  unfold pouredState
  dsimp only
  rw [closedState_setHeat, setHeat_setHeat]
  rfl

theorem tapFinished_loading (p : Permit) (mass : Nat) (clamped timeout : Bool) (s : State) :
    loading (tapFinished p mass clamped timeout s) = loading s := by
  have stands := (heatTakesTap_tableOnly p.furnace mass clamped timeout s).stands.loading
  rw [tapFinished_eq]
  generalize heatTakesTap p.furnace mass clamped timeout s = x at stands
  exact stands

/-- The follow-up of a completion is the follow-up of its heat: a further one changes nothing. -/
theorem completeTap_followed (p : Permit) (mass : Nat) (clamped timeout : Bool) {s : State} (loaded : loading s = false) :
    settleHeat p.furnace (completeTap p mass clamped timeout s) = completeTap p mass clamped timeout s := by
  have loaded' := (tapFinished_loading p mass clamped timeout s).trans loaded
  rw [completeTap_eq]
  generalize tapFinished p mass clamped timeout s = x at loaded'
  exact settleHeat_again (s := post _ x) loaded'

/-- The tap that a return HOME completes with its weight (R132, R134). -/
theorem comeHome_completed {p : Permit} {h : Heat} {w : Weight} {s : State} (loaded : loading s = false)
    (open' : heatOf s p.furnace = some h) (granted : p.state = .granted) (weighed : p.weight = some w) :
    TapCompleted p h w.mass w.clamped false s
      (completedState (returnedPermit s.clock.shopSeconds p) (returnedHeat s.clock.shopSeconds h) w.mass w.clamped false s)
      (settleHeat p.furnace (comeHome p s)) := by
  have done := completeTap_completed (p := returnedPermit s.clock.shopSeconds p) (h := returnedHeat s.clock.shopSeconds h)
    (s := returnedHome p h s) w.mass w.clamped false (heatOf_setHeat_same _ _ _) rfl granted loaded
  have written : completedState (returnedPermit s.clock.shopSeconds p) (returnedHeat s.clock.shopSeconds h) w.mass w.clamped
      false (returnedHome p h s)
      = completedState (returnedPermit s.clock.shopSeconds p) (returnedHeat s.clock.shopSeconds h) w.mass w.clamped
          false s := completedState_returned (returnedPermit s.clock.shopSeconds p) _ _ _ _ _ _ s
  have still := completeTap_followed (returnedPermit s.clock.shopSeconds p) w.mass w.clamped false
    (s := returnedHome p h s) loaded
  rw [written] at done
  rw [comeHome_weighed open' weighed]
  show TapCompleted p h w.mass w.clamped false s _
    (settleHeat (returnedPermit s.clock.shopSeconds p).furnace _)
  rw [still]
  exact done

/-! ### The change of tilt -/

/-- The tilt of a furnace on record. -/
def tiltRecorded (f : Furnace) (home forward : Bool) (s : State) : State :=
  { s with tap := { s.tap with tilt := s.tap.tilt.set f { known := true, home := home, forward := forward } } }

theorem tiltOf_tiltRecorded (f : Furnace) (home forward : Bool) (s : State) :
    tiltOf (tiltRecorded f home forward s) f
      = (if home && !forward then .home else if forward && !home then .forward else if home then .invalid else .back) := by
  unfold tiltOf tiltRecorded
  rw [PerFurnace.get_set_same]
  cases home <;> cases forward <;> rfl

theorem tiltChanges_followed {f : Furnace} {home forward : Bool} {s : State} (loaded : loading s = false)
    (changed : tiltOf (tiltRecorded f home forward s) f ≠ tiltOf s f) :
    tiltChanges f home forward s
      = settleHeat f (permitSeesTilt f (tiltOf (tiltRecorded f home forward s) f) (tiltRecorded f home forward s)) := by
  unfold tiltChanges
  exact if_neg fun same => same.elim (fun l => by rw [loaded] at l; cases l) (fun e => changed e.symm)

/-- Settles O20: what the permit sees of the tilt is written in, and the heat followed up. -/
theorem tiltChangeSupervisesThePour : Obligations.TiltChangeSupervisesThePour := by
  intro f home forward s on u second inTap withPermit
  have runs : ∀ g : State → State, live g s = .next (g s) := fun g => live_powered g s on
  refine ⟨tiltOf_tiltRecorded f home forward s, fun same => ?_, fun loaded changed =>
    ⟨fun free => ?_, fun p held h open' granted mine => ?_⟩⟩
  · exact (runs _).trans (congrArg _ (if_pos (same.imp_right Eq.symm)))
  · refine ⟨_, runs _, ?_⟩
    rw [tiltChanges_followed loaded changed, permitSeesTilt_unheld (s := tiltRecorded f home forward s) free]
    exact settleHeat_settledFor f u loaded
  · subst mine
    have seen : tiltChanges p.furnace home forward s
        = settleHeat p.furnace (permitSeesTilt p.furnace (tiltOf u p.furnace) u) := tiltChanges_followed loaded changed
    have settled := fun x l => settleHeat_settledFor p.furnace x l
    refine ⟨_, runs _, fun tipped early => ?_, fun tipped pours => ?_, fun back => ?_, fun still early => ?_,
      fun back pours => ?_⟩
    · rw [seen, permitSeesTilt_poured (s := u) held granted rfl tipped early, startPour_eq (s := u) open']
      exact settled _ loaded
    · rw [seen, permitSeesTilt_again (s := u) held granted rfl tipped pours]
      exact settled _ loaded
    · rw [seen, permitSeesTilt_back (s := u) held granted rfl back]
      exact settled _ loaded
    · rw [seen, permitSeesTilt_still (s := u) held granted rfl still early]
      exact settled _ loaded
    · rw [seen, permitSeesTilt_home (s := u) held granted rfl back pours]
      intro returned
      cases weight : p.weight with
      | none =>
        dsimp only
        rw [comeHome_unweighed (s := u) open' weight, ← weight]
        exact settled _ loaded
      | some w => exact comeHome_completed (s := u) loaded open' granted weight

end Sys2Proof.Machine
end


section
/-! R10 run a second time changes nothing: a revision followed up is the revised heat followed up (R7, R10, R11, R32). -/

namespace Sys2Proof.Machine

/-! ### The end of a heat's work reads of the heats the number alone, and of the clock the shop second -/

/-- The heat table and the clock replaced. -/
def withHeats (x : HeatTable) (c : Clock) (s : State) : State := { s with heat := x, clock := c }

theorem returnEntry_withHeats {x : HeatTable} {c : Clock} {s : State} (id : Nat)
    (second : c.shopSeconds = s.clock.shopSeconds) :
    returnEntry id (withHeats x c s) = withHeats x c (returnEntry id s) := by
  unfold returnEntry
  have entry : entryOf (withHeats x c s) id = entryOf s id := rfl
  rw [entry]
  cases entryOf s id with
  | none => rfl
  | some e =>
    dsimp only
    rw [show now (withHeats x c s) = now s from second]
    split <;> rfl

theorem endAssignment_withHeats {f : Furnace} {x : HeatTable} {c : Clock} {s : State} (r : Reason)
    (second : c.shopSeconds = s.clock.shopSeconds)
    (number : heatNumber (withHeats x c s) f = heatNumber s f) :
    endAssignment f r (withHeats x c s) = withHeats x c (endAssignment f r s) := by
  unfold endAssignment
  rw [show pendingPermit (withHeats x c s) f = pendingPermit s f from rfl]
  cases pending : pendingPermit s f with
  | none =>
    rw [show (withHeats x c s).tap.permit = s.tap.permit from rfl,
      show assignedTo (withHeats x c s) f = assignedTo s f from rfl]
    dsimp only
    split
    · rfl
    · split <;> rfl
  | some p =>
    have mine : p.furnace = f := by
      unfold pendingPermit at pending
      split at pending
      · split at pending
        · next is =>
          cases pending
          exact is.2
        · cases pending
      · cases pending
    unfold refusePermit
    dsimp only
    rw [mine, number, if_neg Bool.false_ne_true, if_neg Bool.false_ne_true]
    exact returnEntry_withHeats (s := askMatching (setKept f (some r) (setPermit none
      (post (.permitResolved (some r) f (heatNumber s f) p.requestId (ladleOf s p.requestId)) s)))) p.requestId second

theorem afterRevision_withHeats {f : Furnace} {x : HeatTable} {c : Clock} {s : State} (old new : Heat)
    (second : c.shopSeconds = s.clock.shopSeconds)
    (number : heatNumber (withHeats x c s) f = heatNumber s f) :
    afterRevision f old new (withHeats x c s) = withHeats x c (afterRevision f old new s) := by
  have told : (if new.freeze && !old.freeze then post (.freeze f new.number) (withHeats x c s) else withHeats x c s)
      = withHeats x c (if new.freeze && !old.freeze then post (.freeze f new.number) s else s) := by
    split <;> rfl
  unfold afterRevision
  dsimp only
  rw [told]
  have same : c.shopSeconds = (if new.freeze && !old.freeze then post (.freeze f new.number) s else s).clock.shopSeconds
      ∧ heatNumber (withHeats x c (if new.freeze && !old.freeze then post (.freeze f new.number) s else s)) f
        = heatNumber (if new.freeze && !old.freeze then post (.freeze f new.number) s else s) f := by
    split
    · exact ⟨second, number⟩
    · exact ⟨second, number⟩
  generalize (if new.freeze && !old.freeze then post (.freeze f new.number) s else s) = y at same
  split
  · unfold leaveReady
    rw [endAssignment_withHeats _ same.1 same.2]
    rfl
  · rfl

theorem afterRevision_heat (f : Furnace) (old new : Heat) (s : State) :
    (afterRevision f old new s).heat = s.heat ∧ (afterRevision f old new s).clock = s.clock := by
  have only := (afterRevision_only f old new s).1
  exact ⟨only.heat, by rw [only.1]⟩

/-- A revision's effects are the same whichever heat of the number is in the slot. -/
theorem afterRevision_setHeat {f : Furnace} {x y : Heat} (old new : Heat) (s : State) (number : x.number = y.number) :
    afterRevision f old new (setHeat f x s) = setHeat f x (afterRevision f old new (setHeat f y s)) := by
  have numbers : heatNumber (withHeats (setHeat f x s).heat s.clock (setHeat f y s)) f
      = heatNumber (setHeat f y s) f := by
    have own : heatNumber (withHeats (setHeat f x s).heat s.clock (setHeat f y s)) f = heatNumber (setHeat f x s) f := rfl
    rw [own, heatNumber_of (heatOf_setHeat_same f x s), heatNumber_of (heatOf_setHeat_same f y s), number]
  have both : setHeat f x s = withHeats (setHeat f x s).heat s.clock (setHeat f y s) := rfl
  have again : ∀ z : State, z.heat = (setHeat f y s).heat → z.clock = s.clock →
      setHeat f x z = withHeats (setHeat f x s).heat s.clock z := fun z heat clock => by
    unfold setHeat setSlot setFurnaceSlot at heat ⊢
    unfold withHeats
    rw [← clock, heat]
    simp
  obtain ⟨heat, clock⟩ := afterRevision_heat f old new (setHeat f y s)
  rw [again _ heat clock, ← afterRevision_withHeats old new (by rfl) numbers]
  exact congrArg _ both

/-! ### R10 a second time -/

theorem evalLiquid_again (f : Furnace) (s : State) : evalLiquid f (evalLiquid f s) = evalLiquid f s :=
  evalLiquid_current (reviseHeat_liquid f id s)

/-- The follow-up of a heat on which R10 has just run. -/
theorem settleHeat_evalLiquid {f : Furnace} {s : State} (loaded : loading s = false) :
    settleHeat f (evalLiquid f s) = settleHeat f s := by
  have loaded' : loading (evalLiquid f s) = false := (evalLiquid_only f s).1.1.loading.trans loaded
  unfold settleHeat
  rw [if_neg (by rw [loaded']; decide), if_neg (by rw [loaded]; decide)]
  unfold evalHeat
  rw [evalLiquid_again]

/-- R10 reads of the state the settings and the shop state. -/
theorem liquidEval_congr {s t : State} (sett : t.sett = s.sett) (shop : t.shop = s.shop) (h : Heat) :
    liquidEval t h = liquidEval s h := by
  have target : targetInForce t h = targetInForce s h := by
    unfold targetInForce bankTarget setting
    rw [sett, shop]
  have band : returnBand t = returnBand s := by
    unfold returnBand setting
    rw [sett]
  unfold liquidEval
  rw [target, band]

/-- A heat as a revision leaves it before R10 (R7). -/
def revised (g : Heat → Heat) (h : Heat) (s : State) : Heat := restamp (now s) h (g h)

theorem restamp_eq (second : Nat) (old h : Heat) :
    restamp second old h = { h with classStamp := (restamp second old h).classStamp } := by
  unfold restamp
  split <;> rfl

/-- R10 does not read the class stamp. -/
theorem liquidEval_stamp (s : State) (h : Heat) (stamp : Nat) :
    liquidEval s { h with classStamp := stamp } = { liquidEval s h with classStamp := stamp } := by
  have target : targetInForce s { h with classStamp := stamp } = targetInForce s h := rfl
  unfold liquidEval
  rw [target]
  generalize targetInForce s h = wanted
  cases h
  dsimp only
  split
  · rfl
  · split
    · split <;> rfl
    · split <;> rfl
    · split <;> rfl
    · rfl
    · rfl

/-- The class stamp set on the way to R10 is the one set after it, where R10 does not bring the class back. -/
theorem restamp_liquid {s : State} {old h : Heat} (second : Nat)
    (back : heatClass h = heatClass old ∨ liquidEval s h = h) :
    restamp second (restamp second old h) (liquidEval s (restamp second old h))
      = restamp second old (liquidEval s h) := by
  have same : (liquidEval s h).classStamp = h.classStamp := by
    obtain ⟨e, -⟩ := liquidEval_state s h
    rw [e]
  by_cases cls : heatClass old = heatClass h
  · have kept : restamp second old h = h := if_pos cls
    rw [kept]
    unfold restamp
    rw [cls]
  · have still : liquidEval s h = h := back.resolve_left (Ne.symm cls)
    have stamped : restamp second old h = { h with classStamp := second } := if_neg cls
    rw [stamped, liquidEval_stamp, still, stamped]
    exact if_pos rfl

/-- The effects of a revision in two steps, of which the second is R10's. -/
theorem afterRevision_steps {f : Furnace} {old mid new : Heat} {s : State} (number : new.number = mid.number)
    (freeze : new.freeze = mid.freeze) (first : mid.state = .tapReady → old.state = .tapReady)
    (second : new.state = .tapReady → mid.state = .tapReady) :
    afterRevision f mid new (afterRevision f old mid s) = afterRevision f old new s := by
  have quiet : (new.freeze && !mid.freeze) = false := by rw [freeze, Bool.and_not_self]
  unfold afterRevision
  dsimp only
  rw [quiet, number, freeze]
  generalize (if mid.freeze && !old.freeze then post (.freeze f mid.number) s else s) = y
  by_cases ready : mid.state = .tapReady
  · simp [ready, first ready]
  · have cold : new.state ≠ .tapReady := fun is => ready (second is)
    simp [ready, cold]

/-- A revision is the revised heat with its effects, and then R10. -/
theorem reviseHeat_eq {f : Furnace} {h : Heat} {s : State} (g : Heat → Heat) (e : heatOf s f = some h)
    (reaches : (g h).state = .tapReady → h.state = .tapReady)
    (back : heatClass (g h) = heatClass h ∨ liquidEval s (g h) = g h) :
    reviseHeat f g s = evalLiquid f (afterRevision f h (revised g h s) (setHeat f (revised g h s) s)) := by
  have only := (afterRevision_only f h (revised g h s) (setHeat f (revised g h s) s)).1
  have heat : heatOf (afterRevision f h (revised g h s) (setHeat f (revised g h s) s)) f = some (revised g h s) := by
    rw [heatOf_congr (s := setHeat f (revised g h s) s) (by rw [only.heat])]
    exact heatOf_setHeat_same _ _ _
  have clock : now (afterRevision f h (revised g h s) (setHeat f (revised g h s) s)) = now s := by
    unfold now
    rw [only.1]
    rfl
  have evaluated := liquidEval_congr (s := s) (t := afterRevision f h (revised g h s) (setHeat f (revised g h s) s))
    (by rw [only.1]; rfl) (by rw [only.shop]; rfl)
  have final : restamp (now s) (revised g h s) (liquidEval s (revised g h s))
      = restamp (now s) h (liquidEval s (g h)) := restamp_liquid (now s) back
  obtain ⟨moved, -⟩ := liquidEval_state s (g h)
  have field := restamp_eq (now s) h (liquidEval s (g h))
  have field' := restamp_eq (now s) h (g h)
  unfold evalLiquid
  conv => rhs; unfold reviseHeat
  rw [heat]
  dsimp only [id]
  rw [clock, evaluated, final]
  have number : (restamp (now s) h (liquidEval s (g h))).number = (revised g h s).number := by
    unfold revised
    rw [field, field', moved]
  rw [← afterRevision_setHeat h (revised g h s) s number, afterRevision_steps number]
  · unfold reviseHeat
    rw [e]
  · unfold revised
    rw [field, field', moved]
  · unfold revised
    rw [restamp_state]
    exact reaches
  · unfold revised
    rw [restamp_state, restamp_state]
    exact liquidEval_tapReady s (g h)

/-- A revision followed up is the revised heat, with its effects, followed up. -/
theorem settleHeat_reviseHeat {f : Furnace} {h : Heat} {s : State} (g : Heat → Heat) (e : heatOf s f = some h)
    (loaded : loading s = false) (reaches : (g h).state = .tapReady → h.state = .tapReady)
    (back : heatClass (g h) = heatClass h ∨ liquidEval s (g h) = g h) :
    settleHeat f (reviseHeat f g s)
      = settleHeat f (afterRevision f h (revised g h s) (setHeat f (revised g h s) s)) := by
  rw [reviseHeat_eq g e reaches back]
  exact settleHeat_evalLiquid ((afterRevision_only f h (revised g h s) (setHeat f (revised g h s) s)).1.loading.trans loaded)

/-- A revision of a heat within its state, its class and its FREEZE. -/
theorem settleHeat_edited {f : Furnace} {h : Heat} {s : State} (g : Heat → Heat) (e : heatOf s f = some h)
    (loaded : loading s = false) (state : (g h).state = h.state) (cls : heatClass (g h) = heatClass h)
    (freeze : (g h).freeze = h.freeze) :
    settleHeat f (reviseHeat f g s) = settleHeat f (setHeat f (g h) s) := by
  have same : revised g h s = g h := if_pos cls.symm
  have quiet : ∀ x, afterRevision f h (g h) x = x := fun x => by
    unfold afterRevision
    rw [state, freeze]
    simp
  rw [settleHeat_reviseHeat g e loaded (fun is => state ▸ is) (.inl cls), same, quiet]

end Sys2Proof.Machine
end


section
/-! The end of a heat's work in the queue, through the follow-up (R17, R122, R123, R127, R128). -/

namespace Sys2Proof.Machine

/-! ### A kept resolution that no assignment removes -/

theorem TakesEntry.ready {s : State} {e : Entry} {f : Furnace} (takes : TakesEntry s e f) : isTapReady s f = true := by
  obtain ⟨⟨h, heat, ready, -⟩, -⟩ := takes
  unfold isTapReady
  rw [Option.mem_def.mp heat]
  simpa using ready

/-- Matching removes the kept resolutions of no furnace that is not TAP_READY. -/
theorem matchIfDue_kept {f : Furnace} {s : State} (cold : isTapReady s f = false) :
    (matchIfDue s).tap.kept.get f = s.tap.kept.get f := by
  unfold matchIfDue
  split
  · unfold runMatching
    split
    · rfl
    · split
      · rfl
      · next e _ =>
        split
        · next g chosen =>
          have ready := (chooseFurnace_takes chosen).ready
          have other : f ≠ g := fun same => by
            have warm : isTapReady s f = true := same ▸ ready
            rw [cold] at warm
            cases warm
          exact PerFurnace.get_set_other _ _ other
        · rfl
  · rfl

theorem coordinate_kept {f : Furnace} {s : State} (cold : isTapReady s f = false) :
    (coordinate s).tap.kept.get f = s.tap.kept.get f := by
  obtain ⟨-, tilt, -⟩ := evalTilt_spec (matchIfDue s)
  have tap : (coordinate s).tap = (evalTilt (matchIfDue s)).tap := by
    unfold coordinate
    rw [(allocate_frame _).1]
  rw [tap, tilt]
  exact matchIfDue_kept cold

/-- Without a permit the follow-up removes the kept resolution of no furnace that it leaves outside TAP_READY. -/
theorem settleHeat_kept {f : Furnace} {s : State} (loaded : loading s = false) (free : s.tap.permit = none)
    (cold : isTapReady (settleHeat f s) f = false) : (settleHeat f s).tap.kept.get f = s.tap.kept.get f := by
  have run : settleHeat f s = coordinate (floorWake (evalHeat f s)) := if_neg (by rw [loaded]; decide)
  obtain ⟨⟨evaluated, -⟩, -⟩ := evalHeat_run f s
  obtain ⟨-, -, -, -, tapEval, -⟩ := evaluated
  obtain ⟨⟨-, -, -, -, tapWake, -⟩, -⟩ := floorWake_spec (evalHeat f s)
  have kept : ∀ {n : Nat} {x y : Tap}, TapRefused n x y → x.permit = none →
      y.permit = none ∧ y.kept.get f = x.kept.get f := fun refused none' => by
    obtain ⟨-, -, ⟨permit, -, kept⟩ | ⟨p, held, -⟩⟩ := refused
    · exact ⟨permit.trans none', kept f⟩
    · rw [none'] at held
      cases held
  obtain ⟨freeEval, keptEval⟩ := kept tapEval free
  obtain ⟨-, keptWake⟩ := kept tapWake freeEval
  have heat : heatOf (coordinate (floorWake (evalHeat f s))) f = heatOf (floorWake (evalHeat f s)) f := by
    rw [(coordinate_frame _).1]
    rfl
  rw [run] at cold ⊢
  rw [isTapReady_congr heat] at cold
  rw [coordinate_kept cold, keptWake, keptEval]

/-! ### The work ended -/

/-- The work of the queue tied to the heat of a furnace has ended, before the follow-up (R17, R127). -/
structure WorkGone (f : Furnace) (r : Reason) (s x : State) : Prop where
  refused : ∀ p ∈ s.tap.permit, p.state = .pending → p.furnace = f →
    x.tap.permit = none ∧ x.tap.kept.get f = some r ∧ RefusalPosted p r (heatNumber s f) s x
  unassigned : TapLaw s → s.tap.permit = none → assignedTo x f = none

theorem assignedTo_none_iff {s : State} {f : Furnace} :
    assignedTo s f = none ↔ ∀ e ∈ s.tap.queue, e.assigned ≠ some f := by
  unfold assignedTo
  rw [List.find?_eq_none]
  simp

/-- The follow-up keeps the end of the work, and matching runs on what it leaves. -/
theorem WorkGone.ended {f : Furnace} {r : Reason} {s x : State} (gone : WorkGone f r s x) (kept : MatchKept s x)
    (loaded : loading x = false) (cold : isTapReady (settleHeat f x) f = false) : WorkEnded f r s (settleHeat f x) := by
  obtain ⟨settled, -⟩ := settleHeat_settledFor f x loaded
  have served := (settleHeat_served f x loaded).1
  obtain ⟨-, -, -, -, -, -, ⟨-, -, -, permits⟩, assigned, -⟩ := settled
  refine ⟨fun p held pending mine => ?_, fun law free => ?_⟩
  · obtain ⟨ended, resolution, posted⟩ := gone.refused p held pending mine
    have still : (settleHeat f x).tap.permit = none := by
      rcases permits with ⟨same, -⟩ | ⟨p', held', -⟩
      · exact same.trans ended
      · rw [ended] at held'
        cases held'
    refine ⟨still, (settleHeat_kept loaded ended cold).trans resolution,
      posted.keep (settleHeat_unrefused loaded ended) (by simp [refusalKinds, followKinds, matchKinds]),
      served (kept.2 (.inr (.inr ⟨by rw [Option.mem_def.mp held]; rfl, ended⟩)))⟩
  · have none' := assignedTo_none_iff.mp (gone.unassigned law free)
    refine ⟨assignedTo_none_iff.mpr fun e mem is => ?_, fun had => ?_⟩
    · rcases assigned e mem f is with ⟨stood, -⟩ | ⟨x, -, -, -, takes, -⟩
      · exact none' e stood is
      · rw [takes.ready] at cold
        cases cold
    · obtain ⟨e, mem, is⟩ := assignedTo_isSome.mp had
      exact served (kept.2 (.inr (.inl ⟨e, mem, by rw [is]; rfl, fun inside => none' e inside is⟩)))

/-- A closing ends the work of its heat (R17). -/
theorem closeHeat_gone {f : Furnace} {h : Heat} {s : State} (reason : CloseReason) (on : s.powered = true)
    (heat : heatOf s f = some h) (idle : h.state ≠ .tapping) : WorkGone f .cancelled s (closeHeat f h reason s) := by
  obtain ⟨⟨-, refused, -⟩, -, cancelled⟩ := closeHeat_only f h reason s
  refine ⟨cancelled, fun law free => (closeHeat_tapLaw law on reason heat idle).2.2 ?_⟩
  obtain ⟨-, -, ⟨permit, -⟩ | ⟨p, held, -⟩⟩ := refused
  · exact permit.trans free
  · have held : s.tap.permit = some p := held
    rw [free] at held
    cases held

end Sys2Proof.Machine
end


section
/-! OPEN-HEAT and CLOSE-HEAT (R8, R17, R18, R21, R47, R99). -/

namespace Sys2Proof.Machine

/-! ### A heat opened (R8) -/

theorem stampFurnace_openHeat (f : Furnace) (h : Heat) (s : State) :
    stampFurnace f (openHeat f h s) = openedState f h s := by
  unfold stampFurnace openHeat openedState setHeat setSlot setFurnaceSlot
  simp [now]

theorem raised_ne (mass : Nat) : (raiseMass mass != mass) = decide (mass < 50) := by
  unfold raiseMass
  rw [Bool.eq_iff_iff, bne_iff_ne, decide_eq_true_iff]
  omega

theorem openTaken_opens {f : Furnace} {m : Material} {mass : Nat} {s : State} (fits : raiseMass mass ≤ capacity s f) :
    openTaken f m mass s
      = (settleHeat f (openedState f (freshHeat s f .melting m (raiseMass mass) (raiseMass mass * meltEnergy s m)) s),
        { outcome := takenAs (decide (mass < 50)), reason := none,
          body := be2 (takeNumber f s) ++ be2 (raiseMass mass) }) := by
  unfold openTaken
  dsimp only
  rw [if_neg (Nat.not_lt.mpr fits), stampFurnace_openHeat, raised_ne]
  rfl

/-- Settles O8: the opened heat is written in and followed up. -/
theorem openHeatOpens : Obligations.OpenHeatOpens := by
  intro q tag body s ready f deck m known size empty mass energy h fits
  have ⟨_, loaded, _⟩ := ready
  have kind : DeckKind .openHeat 3 := ⟨rfl, fun _ _ => rfl⟩
  have taken := handleOpenHeat_taken (s := dropAssembly q s) (body := body) deck empty known
  rw [openTaken_opens (s := dropAssembly q s) fits] at taken
  exact ⟨_, kind.runs ready size deck taken, SettledFor.answered (s := openedState f h s)
    (settleHeat_settledFor f (openedState f h (dropAssembly q s)) loaded)⟩

/-! ### A heat closed (R17) -/

/-- The request to match, read from a state with the change of the heats written in. -/
theorem MatchKept.written {s u x : State} (h : MatchKept s x) (tap : u.tap = s.tap)
    (ready : ∀ f, isTapReady x f = isTapReady u f) : MatchKept u x := by
  refine ⟨by rw [tap]; exact h.1, fun event => h.2 ?_⟩
  rcases event with ⟨f, changed⟩ | event
  · exact absurd (ready f) changed
  · rw [tap] at event
    exact .inr event

theorem TapOnly.isTapReady {kinds : List NoticeKind} {s t : State} (h : TapOnly kinds s t) (f : Furnace) :
    Machine.isTapReady t f = Machine.isTapReady s f := isTapReady_congr (heatOf_congr (by rw [h.heat]))

/-- A heat whose analysis is not approved is not TAP_READY once evaluated (R11). -/
theorem EvaluatedNow.unapproved {f : Furnace} {s : State} (evaluated : EvaluatedNow f s)
    (pending : ∀ h ∈ heatOf s f, h.chemistry ≠ .approved) : isTapReady s f = false := by
  unfold isTapReady
  cases heat : heatOf s f with
  | none => rfl
  | some h =>
    refine Bool.eq_false_iff.mpr fun ready => ?_
    have cond := (evaluated.1 h heat).1 (by simpa using ready)
    unfold readyCond at cond
    simp [pending h heat] at cond

section
variable {f : Furnace} {h : Heat} {s : State} {reason : CloseReason} (heat : heatOf s f = some h)
  (loaded : loading s = false)
include heat loaded

/-- A closing followed up, on an empty slot. -/
theorem closeHeat_settled :
    SettledFor closeKinds f (closedState f (summaryOf s f h reason) .empty s.heat.nextNumber s)
      (settleHeat f (closeHeat f h reason s)) := by
  obtain ⟨only, -⟩ := closeHeat_only f h reason s
  have loaded' := (closeHeat_loading f h reason s).trans loaded
  exact only.settledFor (settleHeat_settledFor f _ loaded')
    ((closeHeat_matchKept reason heat).written rfl fun g => only.isTapReady g) (settleHeat_served f _ loaded')

omit heat in
theorem closeHeat_cold : isTapReady (settleHeat f (closeHeat f h reason s)) f = false := by
  have loaded' := (closeHeat_loading f h reason s).trans loaded
  obtain ⟨settled, -⟩ := settleHeat_settledFor f (closeHeat f h reason s) loaded'
  exact isTapReady_none (settled.heat_none (closeHeat_empty f h reason s))

end

section
variable {f : Furnace} {h : Heat} {s : State}

/-- The successor of a closed heat (R18), from the state before the closing. -/
def successorAs (f : Furnace) (h : Heat) (s : State) : Heat :=
  let left := if h.state = .melting then h.remaining else 0
  { h with
    number := takeNumber f
      { s with heat := { s.heat with log := appendLog (summaryAs f h .closed h.bathMass s) s.heat.log } }
    state := if h.state = .tapReady then .holding else h.state
    charges := [{ material := .heel, mass := h.bathMass, addedAt := s.clock.shopSeconds }]
    totalMelt := left, remaining := left, restateAdj := 0, taps := [], openTap := none, chemistry := .pending
    delivered := 0, useful := 0, classStamp := s.clock.shopSeconds, openedAt := s.clock.shopSeconds }

theorem coveredState_eq (state : HeatState) : coveredState state = if state = .tapReady then .holding else state := by
  cases state <;> rfl

theorem now_closeHeat (reason : CloseReason) : now (closeHeat f h reason s) = now s := by
  unfold now
  rw [(closeHeat_only f h reason s).1.1]
  rfl

theorem takeNumber_closed :
    takeNumber f (closeHeat f h .closed s)
      = takeNumber f
          { s with heat := { s.heat with log := appendLog (summaryAs f h .closed h.bathMass s) s.heat.log } } := by
  have table := closeHeat_heat f h .closed s
  have summary : summaryOf s f h .closed = summaryAs f h .closed h.bathMass s := summaryOf_as s f h .closed
  unfold takeNumber usedNumbers
  rw [closeHeat_heatOf_other, table, summary]
  rfl

theorem successorOf_closed : successorOf (closeHeat f h .closed s) f h = successorAs f h s := by
  unfold successorOf successorAs
  rw [takeNumber_closed, now_closeHeat, coveredState_eq]
  by_cases melts : h.state = .melting
  · simp only [melts, if_true]
    rfl
  · simp only [melts, if_false]
    rfl

variable (heat : heatOf s f = some h) (loaded : loading s = false) (on : s.powered = true) (idle : h.state ≠ .tapping)

/-- The closed heat's place taken by its successor. -/
def succeededState (f : Furnace) (h : Heat) (s : State) : State :=
  closedState f (summaryAs f h .closed h.bathMass s) (.heat (successorAs f h s)) (numberAfter (successorAs f h s).number) s

theorem succeeded_only :
    TapOnly closeKinds (succeededState f h s) (succeeded f h s) := by
  obtain ⟨⟨only, refused, told⟩, -, cancelled⟩ := closeHeat_only f h .closed s
  have next := successorOf_closed (f := f) (h := h) (s := s)
  unfold succeeded
  rw [next]
  refine ⟨?_, refused, ?_⟩
  · have table : (openHeat f (successorAs f h s) (closeHeat f h .closed s)).heat = (succeededState f h s).heat := by
      unfold openHeat setHeat setSlot setFurnaceSlot succeededState closedState
      simp only [closeHeat_heat]
      unfold closedState
      simp [summaryOf_as]
    have rest := congrArg (fun x : State => { x with heat := (succeededState f h s).heat }) only
    calc openHeat f (successorAs f h s) (closeHeat f h .closed s)
        = { closeHeat f h .closed s with heat := (openHeat f (successorAs f h s) (closeHeat f h .closed s)).heat } := rfl
      _ = _ := by
        rw [table]
        exact rest
  · refine Told.closed (s := closedState f (summaryOf s f h .closed) .empty s.heat.nextNumber s) (told.further rfl (.of_eq rfl))
      (by decide) rfl rfl rfl fun p held pending => ?_
    by_cases mine : p.furnace = f
    · rw [mine]
      exact .inl (cancelled p held pending mine).2.1
    · obtain away | away := furnace_cases f p.furnace
      · exact absurd away mine
      · refine .inr ?_
        unfold heatNumber heatOf slotOf succeededState closedState
        rw [away]
        simp

theorem succeeded_cold : isTapReady (succeeded f h s) f = false := by
  have own : isTapReady (succeeded f h s) f
      = ((successorOf (closeHeat f h .closed s) f h).state == .tapReady) := by
    unfold isTapReady succeeded
    rw [show heatOf (openHeat f _ _) f = some _ from heatOf_setHeat_same f _ _]
  rw [own, successorOf_closed]
  unfold successorAs
  cases h.state <;> rfl

include heat in
theorem succeeded_matchKept : MatchKept s (succeeded f h s) := by
  refine (closeHeat_matchKept .closed heat).trans (MatchKept.of_same rfl fun g => ?_)
  rcases furnace_cases f g with same | other
  · rw [same, succeeded_cold, isTapReady_none (closeHeat_empty f h .closed s)]
  · rw [other]
    exact isTapReady_congr (heatOf_setHeat_other _ _ (otherFurnace_ne f))

include loaded in
theorem succeeded_loading : loading (succeeded f h s) = false := (closeHeat_loading f h .closed s).trans loaded

include heat loaded in
/-- A closing with its successor followed up. -/
theorem succeeded_settled : SettledFor closeKinds f (succeededState f h s) (settleHeat f (succeeded f h s)) := by
  have only := succeeded_only (f := f) (h := h) (s := s)
  exact only.settledFor (settleHeat_settledFor f _ (succeeded_loading loaded))
    ((succeeded_matchKept heat).written rfl fun g => only.isTapReady g) (settleHeat_served f _ (succeeded_loading loaded))

include loaded in
theorem succeeded_followed_cold : isTapReady (settleHeat f (succeeded f h s)) f = false := by
  obtain ⟨settled, evaluated, -⟩ := settleHeat_settledFor f (succeeded f h s) (succeeded_loading loaded)
  refine evaluated.unapproved fun x found => ?_
  obtain ⟨h', now', moved, -⟩ := settled.heat_some
    (show heatOf (succeeded f h s) f = some (successorOf (closeHeat f h .closed s) f h) from heatOf_setHeat_same f _ _)
  obtain rfl : h' = x := Option.some.inj (now'.symm.trans found)
  rw [moved, successorOf_closed]
  simp [successorAs]

theorem closeTaken_empty (bare : h.bathMass = 0) :
    closeTaken f h s = (settleHeat f (closeHeat f h .closed s), replyDone (be2 h.number ++ be2 0)) := if_pos bare

include loaded in
theorem closeTaken_succeeded (left : 0 < h.bathMass) :
    closeTaken f h s
      = (settleHeat f (succeeded f h s), replyDone (be2 h.number ++ be2 (successorAs f h s).number)) := by
  have followed := settleHeat_evalLiquid (f := f) (succeeded_loading (f := f) (h := h) loaded)
  have number := congrArg Heat.number (successorOf_closed (f := f) (h := h) (s := s))
  unfold closeTaken
  dsimp only
  rw [if_neg (Nat.ne_of_gt left), ← followed, ← number]
  rfl

end

/-! ### CLOSE-HEAT -/

theorem WorkEnded.answer {f : Furnace} {r : Reason} {s t : State} (h : WorkEnded f r s t) (q : Port) (fr : Frame)
    (reply : Reply) : WorkEnded f r s (putAnswer q fr reply t) := by
  obtain ⟨refused, unassigned⟩ := h
  refine ⟨fun p held pending mine => ?_, fun law free => ?_⟩
  · obtain ⟨gone, kept, ⟨told, returned⟩, matched⟩ := refused p held pending mine
    exact ⟨gone, kept, ⟨told.answer q fr reply, fun e found late => (returned e found late).answer q fr reply⟩,
      matched.answer q fr reply⟩
  · obtain ⟨none', matched⟩ := unassigned law free
    exact ⟨none', fun had => (matched had).answer q fr reply⟩

theorem ClosingPosted.keep {kinds : List NoticeKind} {f : Furnace} {n : Nat} {r : CloseReason} {s x t : State}
    (h : ClosingPosted f n r s x) (noted : PortsNoted kinds x t) (out : ∀ k ∈ closeKinds, k ∉ kinds) :
    ClosingPosted f n r s t :=
  ⟨h.1.keep noted (out _ (by simp [Detail.kind, closeKinds])),
    fun sampling => (h.2 sampling).keep noted (out _ (by simp [Detail.kind, closeKinds]))⟩

theorem ClosingPosted.answer {f : Furnace} {n : Nat} {r : CloseReason} {s t : State} (h : ClosingPosted f n r s t)
    (q : Port) (fr : Frame) (reply : Reply) : ClosingPosted f n r s (putAnswer q fr reply t) :=
  ⟨h.1.answer q fr reply, fun sampling => (h.2 sampling).answer q fr reply⟩

/-- A closing's notices and the end of its work stay through the follow-up of what the closing left. -/
theorem closing_followed {f : Furnace} {h : Heat} {reason : CloseReason} {s x : State} (heat : heatOf s f = some h)
    (on : s.powered = true) (idle : h.state ≠ .tapping) (loaded : loading x = false)
    (tap : x.tap = (closeHeat f h reason s).tap) (ports : x.ports = (closeHeat f h reason s).ports)
    (kept : MatchKept s x) (cold : isTapReady (settleHeat f x) f = false) :
    ClosingPosted f h.number reason s (settleHeat f x) ∧ WorkEnded f .cancelled s (settleHeat f x)
      ∧ MatchingFollows s (settleHeat f x) := by
  obtain ⟨-, posted, -⟩ := closeHeat_only f h reason s
  have gone := closeHeat_gone reason on heat idle
  have noted : PortsNoted [] (closeHeat f h reason s) x := .of_eq ports
  have left : WorkGone f .cancelled s x := by
    refine ⟨fun p held pending mine => ?_, fun law free => ?_⟩
    · obtain ⟨ended, resolution, told⟩ := gone.refused p held pending mine
      exact ⟨tap ▸ ended, tap ▸ resolution, told.keep noted (by simp)⟩
    · have none' := gone.unassigned law free
      unfold assignedTo at none' ⊢
      rw [tap]
      exact none'
  exact ⟨((posted (heatNumber_of heat)).keep noted (by simp)).keep (settleHeat_noted f x) (by decide),
    left.ended kept loaded cold, (kept.served (settleHeat_served f x loaded)).2⟩

/-- Settles O12: the closing and, on a bath above 0, its successor are written in and followed up once. -/
theorem closeHeatClosesAndSucceeds : Obligations.CloseHeatClosesAndSucceeds := by
  intro q tag body s ready size f deck h heat idle log number left next
  have ⟨on, loaded, _⟩ := ready
  have kind : DeckKind .closeHeat 0 := ⟨rfl, fun _ _ => rfl⟩
  have taken := handleCloseHeat_taken (s := dropAssembly q s) (body := body) deck heat idle
  by_cases bare : h.bathMass = 0
  · have settled := closeHeat_settled (s := dropAssembly q s) (reason := .closed) heat loaded
    rw [summaryOf_as, if_pos rfl, bare] at settled
    obtain ⟨posted, ended, follows⟩ := closing_followed (s := dropAssembly q s) (x := closeHeat f h .closed (dropAssembly q s))
      heat on idle ((closeHeat_loading f h .closed _).trans loaded) rfl rfl (closeHeat_matchKept .closed heat)
      (closeHeat_cold (s := dropAssembly q s) loaded)
    rw [closeTaken_empty bare] at taken
    exact ⟨_, kind.runs ready size deck taken, fun _ => SettledFor.answered
        (s := closedState f (summaryAs f h .closed 0 s) .empty s.heat.nextNumber s) settled,
      fun more => absurd bare (Nat.ne_of_gt more), posted.answer _ _ _, ended.answer _ _ _,
      closeHeat_cold (s := dropAssembly q s) loaded, follows⟩
  · have settled := succeeded_settled (s := dropAssembly q s) (h := h) heat loaded
    obtain ⟨posted, ended, follows⟩ := closing_followed (s := dropAssembly q s) (x := succeeded f h (dropAssembly q s))
      (reason := .closed) heat on idle (succeeded_loading loaded) rfl rfl (succeeded_matchKept heat)
      (succeeded_followed_cold (s := dropAssembly q s) loaded)
    rw [closeTaken_succeeded (s := dropAssembly q s) loaded (Nat.pos_of_ne_zero bare)] at taken
    exact ⟨_, kind.runs ready size deck taken, fun none' => absurd none' bare,
      fun _ => SettledFor.answered (s := succeededState f h s) settled, posted.answer _ _ _, ended.answer _ _ _,
      succeeded_followed_cold (s := dropAssembly q s) loaded, follows⟩

end Sys2Proof.Machine
end


section
/-! RESTATE (R19, R20). -/

namespace Sys2Proof.Machine

section
variable {q : Port} {f : Furnace} {s : State} (deck : portFurnace q = some f) {body : List Byte}
include deck

theorem handleRestate_unknown (unknown : slotOf s f = .unknown) :
    handleRestate q body s = restateUnknown f (field body 0 2) s := by
  unfold handleRestate
  rw [onDeck_eq deck, unknown]

theorem handleRestate_liquid {h : Heat} (heat : heatOf s f = some h) (liquid : h.state ≠ .melting)
    (idle : h.state ≠ .tapping) : handleRestate q body s = restateLiquid f h (field body 0 2) s := by
  unfold handleRestate
  rw [onDeck_eq deck, heatOf_some heat]
  exact if_neg fun out => out.elim liquid idle

end

section
variable {f : Furnace} {sent : Nat} {s : State}

/-- What an answer tells of a mass that was brought into range. -/
def clampedBytes (mass sent : Nat) : List Byte := if mass = sent then [] else be2 mass

theorem restateUnknown_empty (none' : min sent (capacity s f) = 0) :
    restateUnknown f sent s
      = (settleHeat f (setSlot f .empty s),
        { outcome := takenAs (min sent (capacity s f) != sent), reason := none,
          body := clampedBytes (min sent (capacity s f)) sent ++ be2 0 }) := if_pos none'

theorem restateUnknown_opened (some' : 0 < min sent (capacity s f)) :
    restateUnknown f sent s
      = (settleHeat f (openedState f (freshHeat s f .superheat .heel (min sent (capacity s f)) 0) s),
        { outcome := takenAs (min sent (capacity s f) != sent), reason := none,
          body := clampedBytes (min sent (capacity s f)) sent ++ be2 (takeNumber f s) }) := by
  rw [← stampFurnace_openHeat]
  exact if_neg (Nat.ne_of_gt some')

theorem restateLiquid_corrected {h : Heat} (some' : 0 < min sent (capacity s f)) :
    restateLiquid f h sent s
      = (settleHeat f (setHeat f (restateHeat (min sent (capacity s f)) h) s),
        { outcome := takenAs (min sent (capacity s f) != sent), reason := none,
          body := be2 (min sent (capacity s f)) }) := by
  unfold restateLiquid
  dsimp only
  rw [if_neg (Nat.ne_of_gt some')]
  rfl

theorem restateLiquid_lost {h : Heat} (none' : min sent (capacity s f) = 0) :
    restateLiquid f h sent s
      = (settleHeat f (closeHeat f h .lost s),
        { outcome := takenAs (min sent (capacity s f) != sent), reason := none, body := be2 0 }) := by
  unfold restateLiquid
  dsimp only
  rw [if_pos none', none']
  rfl

end

/-- Settles O13: the slot declared, the bath corrected or the heat closed, each followed up once. -/
theorem restateDeclaresOrCorrects : Obligations.RestateDeclaresOrCorrects := by
  intro q tag body s ready size f deck sent mass outcome clamped opened
  have ⟨on, loaded, _⟩ := ready
  have kind : DeckKind .restate 2 := ⟨rfl, fun _ _ => rfl⟩
  refine ⟨fun unknown none' => ?_, fun unknown some' => ?_, fun h heat liquid idle => ⟨fun some' => ?_, fun none' => ?_⟩⟩
  · have taken := (handleRestate_unknown (s := dropAssembly q s) (body := body) deck unknown).trans
      (restateUnknown_empty (s := dropAssembly q s) none')
    exact ⟨_, kind.runs ready size deck taken, SettledFor.answered (s := setSlot f .empty s)
      (settleHeat_settledFor f _ loaded)⟩
  · have taken := (handleRestate_unknown (s := dropAssembly q s) (body := body) deck unknown).trans
      (restateUnknown_opened (s := dropAssembly q s) some')
    exact ⟨_, kind.runs ready size deck taken, SettledFor.answered (s := openedState f opened s)
      (settleHeat_settledFor f (openedState f opened (dropAssembly q s)) loaded)⟩
  · have taken := (handleRestate_liquid (s := dropAssembly q s) (body := body) deck heat liquid idle).trans
      (restateLiquid_corrected (s := dropAssembly q s) some')
    exact ⟨_, kind.runs ready size deck taken, SettledFor.answered (s := setHeat f (restateHeat mass h) s)
      (settleHeat_settledFor f _ loaded)⟩
  · have taken := (handleRestate_liquid (s := dropAssembly q s) (body := body) deck heat liquid idle).trans
      (restateLiquid_lost (s := dropAssembly q s) none')
    have settled := closeHeat_settled (s := dropAssembly q s) (reason := .lost) heat loaded
    rw [summaryOf_as, if_neg (by decide)] at settled
    obtain ⟨posted, ended, follows⟩ := closing_followed (s := dropAssembly q s) (x := closeHeat f h .lost (dropAssembly q s))
      heat on idle ((closeHeat_loading f h .lost _).trans loaded) rfl rfl (closeHeat_matchKept .lost heat)
      (closeHeat_cold (s := dropAssembly q s) loaded)
    exact ⟨_, kind.runs ready size deck taken, SettledFor.answered
      (s := closedState f (summaryAs f h .lost 0 s) .empty s.heat.nextNumber s) settled, posted.answer _ _ _,
      ended.answer _ _ _, follows⟩

end Sys2Proof.Machine
end


section
/-! ADD-CHARGE (R14, R32, R35, R36). -/

namespace Sys2Proof.Machine

/-! ### The charged heat -/

/-- The heat that a charge leaves, before R10, with its class stamp (R7, R14, R35, R36). -/
def chargedAs (s : State) (m : Material) (mass : Nat) (h : Heat) : Heat :=
  let energy := mass * meltEnergy s m
  let total := min (h.totalMelt + energy) 4294967295
  let step := (h.bathMass + mass) * cp s
  let base : Heat :=
    { h with
      charges := h.charges ++ [{ material := m, mass := mass, addedAt := s.clock.shopSeconds }]
      bathMass := h.bathMass + mass, totalMelt := total, chemistry := .pending }
  let melting : Nat → Heat := fun left =>
    { base with
      state := .melting, remaining := min total left, estimate := none, accumulator := 0, freeze := false
      classStamp := if heatClass h = .melt then h.classStamp else s.clock.shopSeconds }
  match h.state, h.estimate with
  | .melting, _ => { base with remaining := min total (h.remaining + energy), accumulator := 0 }
  | _, none => melting energy
  | _, some e =>
    let credit := (((e : Int) - (liquidus s : Int)) * (h.bathMass : Int) * (cp s : Int) + h.accumulator).toNat
    let left := credit - energy * 1000
    let estimate := liquidus s + left / step
    if energy * 1000 ≤ credit then
      { base with
        state := if h.state = .tapReady then .holding else h.state
        remaining := 0, estimate := some estimate
        accumulator := ((left - left / step * step : Nat) : Int)
        freeze := decide (estimate ≤ liquidus s + freezeMargin s) }
    else melting ((energy * 1000 - credit + 999) / 1000)

theorem kilojoules (energy : Nat) : (energy * 1000 + 999) / 1000 = energy := by omega

/-- What a charge leaves is stamped with the second where it takes the heat from HOLD to MELT (R7). -/
theorem revised_chargeHeat (s : State) (m : Material) (mass : Nat) (h : Heat) (idle : h.state ≠ .tapping) :
    revised (chargeHeat s m mass) h s = chargedAs s m mass h := by
  have second : now s = s.clock.shopSeconds := rfl
  have cap : ∀ n, capU32 n = min n 4294967295 := fun _ => rfl
  unfold revised chargedAs chargeHeat creditOf
  obtain ⟨number, state, charges, totalMelt, remaining, restateAdj, taps, openTap, bath, estimate, accumulator, lastDip,
    holdTarget, chemistry, freeze, uncertain, delivered, useful, stamp, openedAt⟩ := h
  cases estimate with
  | none =>
    cases state with
    | tapping => exact absurd rfl idle
    | melting => exact if_pos rfl
    | superheat | holding | tapReady => simp [restamp, heatClass, kilojoules, second, cap]
  | some e =>
    by_cases covered : mass * meltEnergy s m * 1000
        ≤ (((e : Int) - (liquidus s : Int)) * (bath : Int) * (cp s : Int) + accumulator).toNat
    · cases state with
      | tapping => exact absurd rfl idle
      | melting => exact if_pos rfl
      | superheat | holding | tapReady =>
        simp [covered, restamp, heatClass, coveredState, evalFreeze, freezeOf, second, cap]
    · cases state with
      | tapping => exact absurd rfl idle
      | melting => exact if_pos rfl
      | superheat | holding | tapReady => simp [covered, restamp, heatClass, second, cap]

section
variable {s : State} {m : Material} {mass : Nat} {h : Heat}

theorem chargedAs_fields :
    (chargedAs s m mass h).number = h.number ∧ (chargedAs s m mass h).chemistry = .pending
      ∧ (chargedAs s m mass h).bathMass = h.bathMass + mass := by
  unfold chargedAs
  dsimp only
  split
  · exact ⟨rfl, rfl, rfl⟩
  · exact ⟨rfl, rfl, rfl⟩
  · split <;> exact ⟨rfl, rfl, rfl⟩

theorem chargeHeat_state (idle : h.state ≠ .tapping) :
    (chargeHeat s m mass h).state = (chargedAs s m mass h).state := by
  rw [← revised_chargeHeat s m mass h idle]
  exact (restamp_state _ _ _).symm

theorem chargedAs_idle (idle : h.state ≠ .tapping) :
    (chargedAs s m mass h).state ≠ .tapReady ∧ (chargedAs s m mass h).state ≠ .tapping := by
  rw [← chargeHeat_state idle]
  refine ⟨chargeHeat_notReady s m mass h, ?_⟩
  unfold chargeHeat evalFreeze
  dsimp only
  cases state : h.state <;> simp_all [coveredState] <;> split <;> simp

omit s m mass in
theorem liquidEval_melting {s : State} (melts : h.state = .melting) : liquidEval s h = h := by
  unfold liquidEval
  rw [melts]
  cases h.estimate <;> rfl

/-- A charge takes the class of the heat over, or leaves it MELTING, where R10 has no say. -/
theorem chargeHeat_class (t : State) (idle : h.state ≠ .tapping) :
    heatClass (chargeHeat s m mass h) = heatClass h ∨ liquidEval t (chargeHeat s m mass h) = chargeHeat s m mass h := by
  by_cases melts : (chargeHeat s m mass h).state = .melting
  · exact .inr (liquidEval_melting melts)
  · refine .inl ?_
    unfold chargeHeat at melts ⊢
    dsimp only at melts ⊢
    by_cases was : h.state = .melting
    · exact absurd was (by simpa [was] using melts)
    · rw [if_neg was] at melts ⊢
      by_cases covered : h.estimate.isSome = true ∧ mass * meltEnergy s m * 1000 ≤ creditOf s h
      · rw [if_pos covered]
        unfold heatClass evalFreeze
        cases state : h.state <;> simp [coveredState, covered.1]
      · rw [if_neg covered] at melts
        exact absurd rfl melts

end

/-! ### The effects of a revision -/

/-- FREEZE newly set is told (R32). -/
def freezeTold (f : Furnace) (old new : Heat) (s : State) : State :=
  if new.freeze && !old.freeze then post (.freeze f new.number) s else s

theorem freezeTold_only (f : Furnace) (old new : Heat) (s : State) :
    freezeTold f old new s = { s with ports := (freezeTold f old new s).ports } := by
  unfold freezeTold
  split <;> rfl

theorem freezeTold_noted (f : Furnace) (old new : Heat) (s : State) :
    PortsNoted [.freeze] s (freezeTold f old new s) := by
  unfold freezeTold
  split
  · exact post_noted _ s
  · exact .refl _ s

/-- A revised heat that has left TAP_READY ends its work (R11). -/
theorem afterRevision_leaves {f : Furnace} {old new : Heat} {s : State} (ready : old.state = .tapReady)
    (cold : new.state ≠ .tapReady) :
    afterRevision f old new s = leaveReady f .notReady (freezeTold f old new s) := if_pos ⟨ready, cold⟩

theorem afterRevision_freeze {f : Furnace} {old new : Heat} {s : State} (sets : new.freeze = true)
    (clear : old.freeze = false) : Noticed (.freeze f new.number) (afterRevision f old new s) := by
  have told : Noticed (.freeze f new.number) (freezeTold f old new s) := by
    unfold freezeTold
    rw [if_pos (by rw [sets, clear]; rfl)]
    exact post_noticed _ s
  unfold afterRevision
  dsimp only
  split
  · exact told.keep (leaveReady_only f _).2.2.1 (by simp [Detail.kind, refusalKinds])
  · exact told

/-! ### What follows a charge -/

/-- The READY_CHANGED that a covered charge of a TAP_READY heat posts (log 14). -/
def chargeTold (f : Furnace) (h : Heat) (left : HeatState) (s : State) : State :=
  if h.state = .tapReady ∧ left = .holding then post (.readyChanged f h.number .holding) s else s

theorem chargeTold_only (f : Furnace) (h : Heat) (left : HeatState) (s : State) :
    chargeTold f h left s = { s with ports := (chargeTold f h left s).ports }
      ∧ PortsNoted [.readyChanged] s (chargeTold f h left s) := by
  unfold chargeTold
  split
  · exact ⟨rfl, post_noted _ _⟩
  · exact ⟨rfl, .refl _ s⟩

/-- The charged heat with what it has told, before the follow-up. -/
def chargeWritten (f : Furnace) (m : Material) (mass : Nat) (h : Heat) (s : State) : State :=
  afterRevision f h (chargedAs s m mass h)
    (setHeat f (chargedAs s m mass h) (chargeTold f h (chargedAs s m mass h).state s))

section
variable {f : Furnace} {m : Material} {mass : Nat} {h : Heat} {s : State} (heat : heatOf s f = some h)
  (idle : h.state ≠ .tapping) (loaded : loading s = false)
include heat idle

include loaded in
theorem chargeTaken_eq (fits : h.bathMass + raiseMass mass ≤ capacity s f) :
    chargeTaken f h m mass s
      = (settleHeat f (chargeWritten f m (raiseMass mass) h s),
        { outcome := takenAs (decide (mass < 50)), reason := none,
          body := be2 (raiseMass mass)
            ++ be2 (bathMassOf (settleHeat f (chargeWritten f m (raiseMass mass) h s)) f)
            ++ stateByte (settleHeat f (chargeWritten f m (raiseMass mass) h s)) f }) := by
  have told : chargeTold f h (chargedAs s m (raiseMass mass) h).state s
      = if h.state = .tapReady ∧ (chargeHeat s m (raiseMass mass) h).state = .holding then
          post (.readyChanged f h.number .holding) s else s := by
    rw [chargeHeat_state idle]
    rfl
  obtain ⟨only, -⟩ := chargeTold_only f h (chargedAs s m (raiseMass mass) h).state s
  have open' : heatOf (chargeTold f h (chargedAs s m (raiseMass mass) h).state s) f = some h := by
    rw [only]
    exact heat
  have still : loading (chargeTold f h (chargedAs s m (raiseMass mass) h).state s) = false := by
    rw [only]
    exact loaded
  have second : revised (chargeHeat s m (raiseMass mass)) h (chargeTold f h (chargedAs s m (raiseMass mass) h).state s)
      = chargedAs s m (raiseMass mass) h := by
    have clock : now (chargeTold f h (chargedAs s m (raiseMass mass) h).state s) = now s := by
      unfold now
      rw [only]
    unfold revised
    rw [clock]
    exact revised_chargeHeat s m (raiseMass mass) h idle
  have followed := settleHeat_reviseHeat (chargeHeat s m (raiseMass mass)) open' still
    (fun is => absurd is (chargeHeat_notReady s m _ h)) (chargeHeat_class _ idle)
  rw [second] at followed
  unfold chargeTaken
  dsimp only
  rw [if_neg (Nat.not_lt.mpr fits), ← told, followed, raised_ne]
  rfl

omit heat idle in
theorem chargeWritten_only :
    TapOnly [.freeze, .readyChanged] (setHeat f (chargedAs s m mass h) s) (chargeWritten f m mass h s) := by
  obtain ⟨only, noted⟩ := chargeTold_only f h (chargedAs s m mass h).state s
  have told : TapOnly [.readyChanged] (setHeat f (chargedAs s m mass h) s)
      (setHeat f (chargedAs s m mass h) (chargeTold f h (chargedAs s m mass h).state s)) := by
    have tap : (chargeTold f h (chargedAs s m mass h).state s).tap = s.tap := by rw [only]
    refine ⟨?_, ?_, Told.of_noted noted (congrArg Tap.permit tap)⟩
    · rw [only]
      rfl
    · show TapRefused s.clock.shopSeconds s.tap (chargeTold f h (chargedAs s m mass h).state s).tap
      rw [tap]
      exact TapRefused.refl _ _
  exact (told.mono (by simp)).trans ((afterRevision_only f h _ _).1.mono (by simp))

omit heat idle in
theorem heatOf_chargeWritten : heatOf (chargeWritten f m mass h s) f = some (chargedAs s m mass h) := by
  rw [heatOf_congr (s := setHeat f (chargedAs s m mass h) s) (by rw [chargeWritten_only.heat])]
  exact heatOf_setHeat_same _ _ _

include loaded in
omit heat idle in
theorem chargeWritten_loading : loading (chargeWritten f m mass h s) = false :=
  (chargeWritten_only (f := f) (m := m) (mass := mass) (h := h) (s := s)).loading.trans loaded

/-- A TAP_READY heat that a charge takes out of TAP_READY asks for matching, and no other changes its readiness. -/
theorem chargeWritten_matchKept :
    MatchKept s (chargeWritten f m mass h s)
      ∧ MatchKept (setHeat f (chargedAs s m mass h) s) (chargeWritten f m mass h s) := by
  obtain ⟨cold, -⟩ := chargedAs_idle (s := s) (m := m) (mass := mass) idle
  obtain ⟨only, -⟩ := chargeTold_only f h (chargedAs s m mass h).state s
  obtain ⟨after, left⟩ := afterRevision_matchKept f h (chargedAs s m mass h)
    (setHeat f (chargedAs s m mass h) (chargeTold f h (chargedAs s m mass h).state s))
  by_cases ready : h.state = .tapReady
  · exact ⟨MatchKept.of_due (left ready cold), MatchKept.of_due (left ready cold)⟩
  · have put := setHeat_matchKept heat (h' := chargedAs s m mass h) ⟨fun is => absurd is cold, fun is => absurd is ready⟩
    have told : MatchKept (setHeat f (chargedAs s m mass h) s) (chargeWritten f m mass h s) :=
      after.written (by rw [only]; rfl) fun g => chargeWritten_only.isTapReady g
    exact ⟨put.trans told, told⟩

/-- The charge followed up. -/
theorem chargeWritten_settled (loaded : loading s = false) :
    SettledFor [.freeze, .readyChanged] f (setHeat f (chargedAs s m mass h) s)
      (settleHeat f (chargeWritten f m mass h s)) :=
  chargeWritten_only.settledFor (settleHeat_settledFor f _ (chargeWritten_loading loaded))
    (chargeWritten_matchKept heat idle).2 (settleHeat_served f _ (chargeWritten_loading loaded))

omit heat idle in
theorem charge_cold (loaded : loading s = false) : isTapReady (settleHeat f (chargeWritten f m mass h s)) f = false := by
  obtain ⟨settled, evaluated, -⟩ := settleHeat_settledFor f (chargeWritten f m mass h s) (chargeWritten_loading loaded)
  refine evaluated.unapproved fun x found => ?_
  obtain ⟨h', now', moved, -⟩ := settled.heat_some heatOf_chargeWritten
  obtain rfl : h' = x := Option.some.inj (now'.symm.trans found)
  obtain ⟨-, chemistry, -⟩ := chargedAs_fields (s := s) (m := m) (mass := mass) (h := h)
  rw [moved]
  show (chargedAs s m mass h).chemistry ≠ .approved
  rw [chemistry]
  decide

/-- The work of a TAP_READY heat ends at a charge (R11, R14, R127). -/
theorem chargeWritten_gone (on : s.powered = true) (ready : h.state = .tapReady) :
    WorkGone f .notReady s (chargeWritten f m mass h s) := by
  obtain ⟨cold, notTapping⟩ := chargedAs_idle (s := s) (m := m) (mass := mass) idle
  obtain ⟨number, -⟩ := chargedAs_fields (s := s) (m := m) (mass := mass) (h := h)
  obtain ⟨told, -⟩ := chargeTold_only f h (chargedAs s m mass h).state s
  have freeze := freezeTold_only f h (chargedAs s m mass h)
    (setHeat f (chargedAs s m mass h) (chargeTold f h (chargedAs s m mass h).state s))
  unfold chargeWritten
  rw [afterRevision_leaves ready cold]
  generalize freezeTold f h (chargedAs s m mass h)
    (setHeat f (chargedAs s m mass h) (chargeTold f h (chargedAs s m mass h).state s)) = x at *
  have tap : x.tap = s.tap := by
    rw [freeze, told]
    rfl
  have clock : x.clock = s.clock := by
    rw [freeze, told]
    rfl
  have table : x.heat = (setHeat f (chargedAs s m mass h) s).heat := by
    rw [freeze, told]
    rfl
  have numbers : heatNumber x f = heatNumber s f := by
    have own : heatOf x f = some (chargedAs s m mass h) := (heatOf_of_heat table f).trans (heatOf_setHeat_same _ _ _)
    rw [heatNumber_of own, heatNumber_of heat, number]
  obtain ⟨-, refused⟩ := endAssignment_only f .notReady x [] (.inl rfl)
  refine ⟨fun p held pending mine => ?_, fun law free => ?_⟩
  · obtain ⟨gone, kept, posted⟩ := refused p (by rw [tap]; exact held) pending mine
    rw [numbers] at posted
    exact ⟨gone, kept, posted.congr (by rw [tap]) clock⟩
  · have holds : TapHolds (· ≠ f) x := by
      refine (law.but f).congr ⟨by rw [tap], by rw [tap], by rw [tap], by rw [tap]⟩ ?_ ?_ (fun g => ?_) fun g need =>
        .inl ⟨need, fun warm => ?_⟩
      · rw [freeze, told]
        rfl
      · rw [freeze, told]
        rfl
      · rcases furnace_cases f g with same | other
        · rw [same, isTapping_of_heat (heatOf_of_heat table f), isTapping_setHeat, isTapping_of_heatOf heat]
          exact (beq_false_of_ne notTapping).trans (beq_false_of_ne idle).symm
        · rw [other, isTapping_of_heat (heatOf_of_heat table _)]
          exact isTapping_of_heat (heatOf_setHeat_other _ _ (otherFurnace_ne f))
      · obtain rfl : g = otherFurnace f := (furnace_cases f g).resolve_left need
        rw [isTapReady_congr (heatOf_of_heat table _), isTapReady_congr (heatOf_setHeat_other _ _ (otherFurnace_ne f))]
        exact warm
    have on' : x.powered = true := by
      rw [freeze, told]
      exact on
    obtain ⟨-, -, unassigned⟩ := holds.endAssignment on' .notReady
    refine unassigned ?_
    obtain ⟨⟨-, ⟨-, -, ⟨permit, -⟩ | ⟨p, held, -⟩⟩, -⟩, -⟩ := endAssignment_only f .notReady x [] (.inl rfl)
    · rw [permit, tap]
      exact free
    · rw [tap, free] at held
      cases held

omit heat idle in
/-- FREEZE newly set by a charge is told (R32). -/
theorem chargeWritten_freeze (sets : (chargedAs s m mass h).freeze = true) (clear : h.freeze = false) :
    Noticed (.freeze f h.number) (chargeWritten f m mass h s) := by
  obtain ⟨number, -⟩ := chargedAs_fields (s := s) (m := m) (mass := mass) (h := h)
  have told := afterRevision_freeze (f := f) (s := setHeat f (chargedAs s m mass h)
    (chargeTold f h (chargedAs s m mass h).state s)) sets clear
  rw [number] at told
  exact told

omit heat idle in
theorem chargeWritten_told (ready : h.state = .tapReady) (covered : (chargedAs s m mass h).state = .holding) :
    Noticed (.readyChanged f h.number .holding) (chargeWritten f m mass h s) := by
  have posts : chargeTold f h (chargedAs s m mass h).state s = post (.readyChanged f h.number .holding) s :=
    if_pos ⟨ready, covered⟩
  have told : Noticed (.readyChanged f h.number .holding)
      (setHeat f (chargedAs s m mass h) (chargeTold f h (chargedAs s m mass h).state s)) := by
    rw [posts]
    exact post_noticed (.readyChanged f h.number .holding) s
  unfold chargeWritten
  exact told.keep (afterRevision_only f h _ _).1.2.2.1 (by simp [Detail.kind, refusalKinds])

end

/-! ### The notices of the follow-up -/

theorem readyPosting_cold {f : Furnace} {s t : State} (was : isTapReady s f = false) (is : isTapReady t f = false) :
    readyPosting f s t = none := by
  unfold isTapReady at was is
  unfold readyPosting
  cases before : heatOf s f with
  | none => rfl
  | some h =>
    cases after : heatOf t f with
    | none => rfl
    | some h' =>
      rw [before] at was
      rw [after] at is
      have cold : h.state ≠ .tapReady := by simpa using was
      have cold' : h'.state ≠ .tapReady := by simpa using is
      simp [cold, cold']

/-- A heat that is not TAP_READY before the follow-up or after it, and a shop that stands: no READY_CHANGED is posted. -/
theorem settleHeat_unready {f : Furnace} {s : State} (loaded : loading s = false) (was : isTapReady s f = false)
    (is : isTapReady (settleHeat f s) f = false) (same : (settleHeat f s).shop = s.shop) :
    PortsNoted (refusalKinds ++ matchKinds) s (settleHeat f s) := by
  have run : settleHeat f s = coordinate (floorWake (evalHeat f s)) := if_neg (by rw [loaded]; decide)
  obtain ⟨⟨-, shop, -⟩, -, -, noted⟩ := evalHeat_run f s
  obtain ⟨-, wakes⟩ := floorWake_spec (evalHeat f s)
  obtain ⟨frame, -, -, -, -, matched, -⟩ := coordinate_frame (floorWake (evalHeat f s))
  have still : floorWake (evalHeat f s) = evalHeat f s := by
    refine wakes.resolve_right fun ⟨changed, _⟩ => changed ?_
    rw [run, frame] at same
    exact same.trans shop.symm
  rw [still] at run frame matched
  rw [run] at is ⊢
  have heat : heatOf (coordinate (evalHeat f s)) f = heatOf (evalHeat f s) f := heatOf_congr (by rw [frame])
  rw [isTapReady_congr heat] at is
  have quiet : PortsNoted refusalKinds s (evalHeat f s) := fun q =>
    (noted q).resolve_right fun changed => changed.2 (readyPosting_cold was is)
  exact (quiet.mono fun k hk => List.mem_append_left _ hk).trans (matched.mono fun k hk => List.mem_append_right _ hk)

theorem charge_bathMass {f : Furnace} {m : Material} {mass : Nat} {h : Heat} {s : State} (heat : heatOf s f = some h)
    (idle : h.state ≠ .tapping) (loaded : loading s = false) :
    bathMassOf (settleHeat f (chargeWritten f m mass h s)) f = h.bathMass + mass := by
  obtain ⟨settled, -⟩ := chargeWritten_settled (m := m) (mass := mass) heat idle loaded
  obtain ⟨-, -, bath⟩ := chargedAs_fields (s := s) (m := m) (mass := mass) (h := h)
  rw [settled.bathMass]
  unfold bathMassOf
  rw [heatOf_setHeat_same]
  exact bath

/-- Kinds that the follow-up posts of its own need no mention. -/
theorem Settled.absorbSome {kinds more : List NoticeKind} {s t : State} (sub : ∀ k ∈ kinds, k ∈ more ++ followKinds)
    (h : Settled kinds s t) : Settled more s t := by
  have within : ∀ k ∈ kinds ++ followKinds, k ∈ more ++ followKinds := fun k hk =>
    (List.mem_append.mp hk).elim (sub k) fun own => List.mem_append_right _ own
  have wide : ∀ k ∈ kinds ++ settleKinds, k ∈ more ++ settleKinds := fun k hk => by
    rcases List.mem_append.mp hk with own | own
    · exact (List.mem_append.mp (sub k own)).elim (List.mem_append_left _)
        fun follows => List.mem_append_right _ (List.mem_append_left _ follows)
    · exact List.mem_append_right _ own
  obtain ⟨frame, heat, slots, shop, allot, stage, tap, assigned, noted, told, quiet⟩ := h
  refine ⟨frame, heat, slots, shop, allot, stage, tap, assigned, noted.mono wide, fun p held pending gone => ?_,
    fun same => (quiet same).mono within⟩
  obtain ⟨r, number, kept, which | ⟨closed, is⟩, posted⟩ := told p held pending gone
  · exact ⟨r, number, kept, .inl which, posted⟩
  · refine ⟨r, number, kept, .inr ⟨(List.mem_append.mp (sub _ closed)).resolve_right (by decide), is⟩, posted⟩

theorem SettledFor.absorbSome {kinds more : List NoticeKind} {f : Furnace} {s t : State}
    (sub : ∀ k ∈ kinds, k ∈ more ++ followKinds) (h : SettledFor kinds f s t) : SettledFor more f s t := by
  obtain ⟨settled, rest⟩ := h
  exact ⟨settled.absorbSome sub, rest⟩

/-- Settles O9: the charge is written in with its effects and followed up; a heat whose analysis is to come is not
TAP_READY. -/
theorem addChargeSettlesByCredit : Obligations.AddChargeSettlesByCredit := by
  intro q tag body s ready f deck h heat m known size idle room mass energy total step base melting charged fits
  have ⟨on, loaded, _⟩ := ready
  have kind : DeckKind .addCharge 3 := ⟨rfl, fun _ _ => rfl⟩
  have taken := (handleAddCharge_taken (s := dropAssembly q s) (body := body) deck heat idle known room).trans
    (chargeTaken_eq (s := dropAssembly q s) heat idle loaded fits)
  have settled := chargeWritten_settled (s := dropAssembly q s) (m := m) (mass := mass) heat idle loaded
  have cold := charge_cold (f := f) (s := dropAssembly q s) (m := m) (mass := mass) (h := h) loaded
  have posted := chargeWritten_matchKept (s := dropAssembly q s) (m := m) (mass := mass) heat idle
  have follows := chargeTaken_served (s := dropAssembly q s) m (field body 1 2) heat loaded
  have left := chargeWritten_loading (f := f) (s := dropAssembly q s) (m := m) (mass := mass) (h := h) loaded
  have quiet := settleHeat_noted f (chargeWritten f m mass h (dropAssembly q s))
  have bath := charge_bathMass (s := dropAssembly q s) (m := m) (mass := mass) heat idle loaded
  rw [chargeTaken_eq (s := dropAssembly q s) heat idle loaded fits] at follows
  have raised : raiseMass (field body 1 2) = mass := rfl
  rw [raised] at taken follows
  rw [bath] at taken
  refine ⟨_, kind.runs ready size deck taken, ?_, cold, fun was covered stands => ?_, fun sets clear => ?_, fun was => ?_,
    follows⟩
  · exact SettledFor.answered (s := setHeat f charged s) (settled.absorbSome (by simp [followKinds]))
  · have told := chargeWritten_told (f := f) (s := dropAssembly q s) (m := m) (mass := mass) was covered
    have before := (chargeWritten_only (f := f) (m := m) (mass := mass) (h := h) (s := dropAssembly q s))
    have was' : isTapReady (chargeWritten f m mass h (dropAssembly q s)) f = false := by
      rw [before.isTapReady]
      unfold isTapReady
      rw [heatOf_setHeat_same]
      exact (by simpa using (chargedAs_idle (s := dropAssembly q s) (m := m) (mass := mass) idle).1)
    exact (told.keep (settleHeat_unready left was' cold (stands.trans before.shop.symm))
      (by simp [Detail.kind, refusalKinds, matchKinds])).answer _ _ _
  · exact ((chargeWritten_freeze (s := dropAssembly q s) sets clear).keep quiet
      (by simp [Detail.kind, settleKinds, followKinds, refusalKinds, matchKinds])).answer _ _ _
  · exact ((chargeWritten_gone (s := dropAssembly q s) heat idle on was).ended posted.1 left cold).answer _ _ _

end Sys2Proof.Machine
end


section
/-! The estimator second (R25 to R33, R122). -/

namespace Sys2Proof.Machine

/-! ### The arithmetic of a second -/

section

variable {s : State} {f : Furnace} {h : Heat}

/-- The division of R30 with the clamps of R31 and the FREEZE of R32. -/
theorem advanced_freeze {e : Nat} (net : Int) (estimate : h.estimate = some e) (mass : ¬ h.bathMass < 100) :
    evalFreeze s (advanceEstimate s net h) = dividedFrom s e (h.accumulator + net * 1000) h := by
  unfold advanceEstimate dividedFrom evalFreeze clampEstimate stepOf
  rw [estimate]
  dsimp only
  rw [if_neg mass]
  generalize (e : Int) + (h.accumulator + net * 1000).tdiv ((h.bathMass : Int) * (cp s : Int)) = raw
  by_cases low : raw < (liquidus s : Int)
  · simp [low, freezeOf]
  · by_cases high : 1700 < raw
    · simp [low, high, freezeOf]
    · simp [low, high, freezeOf]

/-- A light heat keeps its estimate (R30), which FREEZE is judged from. -/
theorem advanced_light (net : Int) (mass : h.bathMass < 100) :
    evalFreeze s (advanceEstimate s net h) = evalFreeze s h := by
  unfold advanceEstimate
  split
  · rfl
  · rw [if_pos mass]

/-- The heat after an estimator second, before R10 (R27 to R32). -/
def afterSecond (s : State) (f : Furnace) (d : Nat) (h : Heat) : Heat :=
  let useful := d * effPct s f / 100
  let net : Int := (useful : Int) - (lossKw s f : Int)
  let left : Int := (h.remaining : Int) - net
  let totals : Heat :=
    { h with delivered := min (h.delivered + d) 4294967295, useful := min (h.useful + useful) 4294967295 }
  let crossed : Heat := { totals with remaining := 0, state := .superheat }
  match h.state, h.estimate with
  | .melting, _ =>
    if left ≤ 0 then
      if h.bathMass < 100 then
        { crossed with estimate := some (liquidus s), accumulator := -left * 1000, freeze := true }
      else dividedFrom s (liquidus s) (-left * 1000) crossed
    else { totals with remaining := min h.totalMelt left.toNat, estimate := none, accumulator := 0 }
  | _, some e => if h.bathMass < 100 then totals else dividedFrom s e (h.accumulator + net * 1000) totals
  | _, none => totals

theorem meltSecond_eq (net : Int) (d : Nat) :
    meltSecond s net (addEnergy s f d h) =
      (let left : Int := (h.remaining : Int) - net
      let totals := addEnergy s f d h
      let crossed : Heat := { totals with remaining := 0, state := .superheat }
      if left ≤ 0 then
        if h.bathMass < 100 then
          { crossed with estimate := some (liquidus s), accumulator := -left * 1000, freeze := true }
        else dividedFrom s (liquidus s) (-left * 1000) crossed
      else { totals with remaining := min h.totalMelt left.toNat, estimate := none, accumulator := 0 }) := by
  have sum : (net - (h.remaining : Int)) * 1000 = -((h.remaining : Int) - net) * 1000 := by omega
  unfold meltSecond
  dsimp only
  rw [show (addEnergy s f d h).remaining = h.remaining from rfl]
  by_cases crosses : (h.remaining : Int) ≤ net
  · rw [if_pos crosses, if_pos (by omega : (h.remaining : Int) - net ≤ 0), sum]
    by_cases mass : h.bathMass < 100
    · rw [if_pos mass]
      refine (advanced_light 0 (by exact mass)).trans ?_
      simp [evalFreeze, freezeOf]
    · rw [if_neg mass]
      refine (advanced_freeze (e := liquidus s) 0 (by rfl) (by exact mass)).trans ?_
      rw [Int.zero_mul, Int.add_zero]
      rfl
  · rw [if_neg crosses, if_neg (by omega : ¬ (h.remaining : Int) - net ≤ 0)]
    rfl

theorem secondOf_eq (d : Nat) : secondOf s f d h = afterSecond s f d h := by
  have melt := meltSecond_eq (s := s) (f := f) (h := h) (netEnergy s f d) d
  have idle : ∀ e, h.estimate = e → h.state ≠ .melting → secondOf s f d h =
      (match e with
      | some e => if h.bathMass < 100 then addEnergy s f d h
          else dividedFrom s e (h.accumulator + netEnergy s f d * 1000) (addEnergy s f d h)
      | none => addEnergy s f d h) := fun e is cold => by
    unfold secondOf
    rw [if_neg (show (addEnergy s f d h).state ≠ .melting from cold)]
    cases e with
    | none => exact if_neg (by simp [addEnergy, is])
    | some e =>
      by_cases mass : h.bathMass < 100
      · simp [mass, addEnergy]
      · dsimp only
        rw [if_neg mass, if_pos ⟨by simp [addEnergy, is], mass⟩]
        exact advanced_freeze (h := addEnergy s f d h) (netEnergy s f d) is mass
  unfold afterSecond
  dsimp only
  split
  · next state =>
    unfold secondOf
    rw [if_pos (show (addEnergy s f d h).state = .melting from state)]
    exact melt
  · next e estimate cold => exact idle _ estimate cold
  · next estimate cold => exact idle _ estimate cold

/-! ### The class of a heat over a second -/

theorem dividedFrom_fields (e : Nat) (sum : Int) :
    (dividedFrom s e sum h).state = h.state ∧ (dividedFrom s e sum h).estimate.isSome = true
      ∧ (dividedFrom s e sum h).number = h.number := by
  exact ⟨rfl, rfl, rfl⟩

/-- A second moves MELTING to SUPERHEAT alone, and the class with an estimate stays MELT (R7, R29). -/
theorem afterSecond_state (d : Nat) :
    (afterSecond s f d h).state = h.state
      ∨ h.state = .melting ∧ (afterSecond s f d h).state = .superheat ∧ (afterSecond s f d h).estimate.isSome = true := by
  unfold afterSecond
  dsimp only
  split
  · next state =>
    split
    · refine .inr ⟨state, ?_⟩
      split
      · exact ⟨rfl, rfl⟩
      · exact ⟨rfl, rfl⟩
    · exact .inl rfl
  · split
    · exact .inl rfl
    · exact .inl rfl
  · exact .inl rfl

theorem afterSecond_estimate (d : Nat) (cold : h.state ≠ .melting) :
    (afterSecond s f d h).estimate.isSome = h.estimate.isSome := by
  unfold afterSecond
  dsimp only
  split
  · next state => exact absurd state cold
  · next estimate _ =>
    split
    · rfl
    · rw [estimate]
      rfl
  · rfl

theorem afterSecond_number (d : Nat) : (afterSecond s f d h).number = h.number := by
  unfold afterSecond
  dsimp only
  split
  · split
    · split
      · rfl
      · rfl
    · rfl
  · split
    · rfl
    · rfl
  · rfl

theorem afterSecond_class (d : Nat) : heatClass (afterSecond s f d h) = heatClass h := by
  rcases afterSecond_state (s := s) (f := f) (h := h) d with state | ⟨was, state, estimate⟩
  · unfold heatClass
    rw [state]
    cases is : h.state with
    | superheat => rw [afterSecond_estimate d (by rw [is]; decide)]
    | melting | holding | tapReady | tapping => rfl
  · unfold heatClass
    rw [state, was]
    exact if_pos estimate

end

/-! ### The stamp and the reported power -/

section

variable {f : Furnace} {s : State}

/-- The state with the second's stamp, its report taken (R25, R26). -/
theorem closeSecond_eq : closeSecond f s =
    { s with
      clock := { s.clock with estDue := s.clock.estDue.set f false }
      heat := { s.heat with
        slots := s.heat.slots.set f { s.heat.slots.get f with reported := none, stamp := s.clock.shopSeconds } } } := by
  unfold closeSecond stampFurnace
  simp [setFurnaceSlot, now]

/-- Closing a second and revising the heat are the same in either order. -/
theorem closeSecond_reviseHeat (g : Heat → Heat) (h : Heat) (heat : heatOf s f = some h) :
    closeSecond f (reviseHeat f g s) = reviseHeat f g (closeSecond f s) := by
  have closed : heatOf (closeSecond f s) f = some h := (closeSecond_heatOf f f s).trans heat
  have second : now (closeSecond f s) = now s := by rw [closeSecond_eq]; rfl
  have evaluated := liquidEval_congr (s := s) (t := closeSecond f s) (by rw [closeSecond_eq]) (by rw [closeSecond_eq])
  unfold reviseHeat
  rw [heat, closed]
  dsimp only
  rw [second, evaluated]
  generalize restamp (now s) h (liquidEval s (g h)) = new
  have placed : setHeat f new (closeSecond f s) = withHeats (setHeat f new (closeSecond f s)).heat
      (closeSecond f s).clock (setHeat f new s) := by
    rw [closeSecond_eq]
    rfl
  rw [placed, afterRevision_withHeats h new (by rw [closeSecond_eq]; rfl)]
  · obtain ⟨same, clock⟩ := afterRevision_heat f h new (setHeat f new s)
    rw [closeSecond_eq, closeSecond_eq, same, clock]
    unfold withHeats setHeat setSlot setFurnaceSlot
    simp
  · rw [← placed, heatNumber_of (heatOf_setHeat_same f new _), heatNumber_of (heatOf_setHeat_same f new s)]


/-! ### A second that hands something on, and one that does not (R33) -/

/-- The step of a second on the state in which it has been stamped. -/
theorem estimatorSecond_some {h : Heat} (heat : heatOf s f = some h) :
    estimatorSecond f s =
      (let s1 := reviseHeat f (secondOf s f (deliveredPower s f)) (closeSecond f s)
      if secondMoves (some h) (heatOf s1 f) then settleHeat f s1 else s1) := by
  unfold estimatorSecond
  rw [heat]
  dsimp only
  rw [closeSecond_reviseHeat _ h heat]

theorem secondMoves_false {old new : Heat} :
    secondMoves (some old) (some new) = false
      ↔ new.state = old.state ∧ new.estimate = old.estimate ∧ new.freeze = old.freeze := by
  simp only [secondMoves, Option.map_some, Bool.or_eq_false_iff, decide_eq_false_iff_not, ne_eq, Classical.not_not,
    Option.some.injEq, and_assoc]
  exact ⟨fun ⟨a, b, c⟩ => ⟨a.symm, b.symm, c.symm⟩, fun ⟨a, b, c⟩ => ⟨a.symm, b.symm, c.symm⟩⟩

/-- R10 leaves a heat of the same state, estimate and hold target as one on which it has run. -/
theorem liquidEval_quiet {old new : Heat} (heat : heatOf s f = some old) (current : LiquidCurrent f s)
    (state : new.state = old.state) (estimate : new.estimate = old.estimate) (hold : new.holdTarget = old.holdTarget) :
    liquidEval s new = new := by
  have target : targetInForce s new = targetInForce s old := by
    unfold targetInForce
    rw [hold]
  have put : heatOf (setHeat f new s) f = some new := heatOf_setHeat_same f new s
  have moved := liquidEval_of_current (f := f) (s := setHeat f new s) (h := new) (fun x found e has => by
    obtain rfl : new = x := Option.some.inj (put.symm.trans found)
    obtain ⟨below, above⟩ := current old heat e (estimate ▸ has)
    rw [state]
    have same : targetInForce (setHeat f new s) new = targetInForce s old := target
    rw [same]
    exact ⟨below, above⟩) put
  exact (liquidEval_congr (s := s) (t := setHeat f new s) rfl rfl new).symm.trans moved

/-- A heat that R10 leaves in its state, with the estimate and the hold target of another, shows that one current. -/
theorem liquidCurrent_of_eval {old new : Heat} (heat : heatOf s f = some old)
    (state : new.state = old.state) (estimate : new.estimate = old.estimate) (hold : new.holdTarget = old.holdTarget)
    (stays : (liquidEval s new).state = new.state) : LiquidCurrent f s := by
  have target : targetInForce s new = targetInForce s old := by
    unfold targetInForce
    rw [hold]
  intro x found e has
  obtain rfl : old = x := Option.some.inj (heat.symm.trans found)
  have e' : new.estimate = some e := estimate.trans has
  unfold liquidEval at stays
  rw [e', target] at stays
  dsimp only at stays
  rw [← state]
  refine ⟨fun is => ?_, fun is => ?_⟩
  · rw [is] at stays
    refine Classical.byContradiction fun reached => ?_
    simp [Nat.not_lt.mp reached, is] at stays
  · refine Classical.byContradiction fun short => ?_
    rcases is with is | is
    · simp [is, Nat.not_le.mp short] at stays
    · simp [is, Nat.not_le.mp short] at stays

theorem closeSecond_heat {h : Heat} (heat : heatOf s f = some h) : heatOf (closeSecond f s) f = some h :=
  (closeSecond_heatOf f f s).trans heat

theorem liquidEval_closeSecond (h : Heat) : liquidEval (closeSecond f s) h = liquidEval s h :=
  liquidEval_congr (by rw [closeSecond_eq]) (by rw [closeSecond_eq]) h

theorem afterSecond_hold (d : Nat) (h : Heat) : (afterSecond s f d h).holdTarget = h.holdTarget := by
  rw [← secondOf_eq]
  exact (secondOf_kept f d h).1

theorem revised_second {t : State} (d : Nat) (h : Heat) : revised (secondOf s f d) h t = afterSecond s f d h := by
  unfold revised
  rw [secondOf_eq]
  exact if_pos (afterSecond_class d).symm

/-- The second of a heat that it moves not (R33). -/
theorem estimatorSecond_quiet {h : Heat} (heat : heatOf s f = some h) (current : LiquidCurrent f s)
    (state : (afterSecond s f (deliveredPower s f) h).state = h.state)
    (estimate : (afterSecond s f (deliveredPower s f) h).estimate = h.estimate)
    (freeze : (afterSecond s f (deliveredPower s f) h).freeze = h.freeze) :
    estimatorSecond f s = setHeat f (afterSecond s f (deliveredPower s f) h) (closeSecond f s) := by
  have stays := liquidEval_quiet heat current state estimate (afterSecond_hold _ h)
  have still : reviseHeat f (secondOf s f (deliveredPower s f)) (closeSecond f s)
      = setHeat f (afterSecond s f (deliveredPower s f) h) (closeSecond f s) := by
    unfold reviseHeat
    rw [closeSecond_heat heat]
    dsimp only
    rw [secondOf_eq, liquidEval_closeSecond, stays]
    rw [show restamp (now (closeSecond f s)) h (afterSecond s f (deliveredPower s f) h) = _ from
      if_pos (afterSecond_class _).symm]
    unfold afterRevision
    rw [state, freeze]
    simp
  rw [estimatorSecond_some heat, still]
  dsimp only
  rw [heatOf_setHeat_same, secondMoves_false.mpr ⟨state, estimate, freeze⟩]
  rfl

/-- The second of a heat that it moves is followed up (R33). -/
theorem estimatorSecond_moved {h : Heat} (heat : heatOf s f = some h) (loaded : loading s = false)
    (moves : ¬ ((afterSecond s f (deliveredPower s f) h).state = h.state
      ∧ (afterSecond s f (deliveredPower s f) h).estimate = h.estimate
      ∧ (afterSecond s f (deliveredPower s f) h).freeze = h.freeze ∧ LiquidCurrent f s)) :
    estimatorSecond f s =
      settleHeat f (afterRevision f h (afterSecond s f (deliveredPower s f) h)
        (setHeat f (afterSecond s f (deliveredPower s f) h) (closeSecond f s))) := by
  have closed := closeSecond_heat heat
  have loaded' : loading (closeSecond f s) = false := loaded
  obtain ⟨-, revised⟩ := reviseHeat_exact (secondOf s f (deliveredPower s f)) closed
  have state' := afterSecond_state (s := s) (f := f) (h := h) (deliveredPower s f)
  have hold := afterSecond_hold (f := f) (s := s) (deliveredPower s f) h
  have cls := afterSecond_class (s := s) (f := f) (h := h) (deliveredPower s f)
  have eq := secondOf_eq (s := s) (f := f) (h := h) (deliveredPower s f)
  have same := revised_second (f := f) (s := s) (t := closeSecond f s) (deliveredPower s f) h
  rw [eq, liquidEval_closeSecond] at revised
  rw [estimatorSecond_some heat]
  dsimp only
  rw [if_pos, settleHeat_reviseHeat _ closed loaded' (by
    rw [eq]
    rintro ready
    rcases state' with is | ⟨-, is, -⟩
    · exact is ▸ ready
    · rw [is] at ready
      cases ready) (.inl (by rw [eq]; exact cls)), same]
  rw [revised]
  generalize afterSecond s f (deliveredPower s f) h = after at *
  refine Classical.byContradiction fun still => ?_
  obtain ⟨state, estimate, freeze⟩ := secondMoves_false.mp (Bool.eq_false_iff.mpr still)
  obtain ⟨moved, reaches⟩ := liquidEval_state s after
  have fields := restamp_eq (now (closeSecond f s)) h (liquidEval s after)
  rw [restamp_state] at state
  rw [fields, moved] at estimate freeze
  rcases state' with is | ⟨was, is, -⟩
  · exact moves ⟨is, estimate, freeze, liquidCurrent_of_eval heat is estimate hold (state.trans is.symm)⟩
  · rw [state.trans was] at reaches
    unfold StateMoved at reaches
    rw [is] at reaches
    simp at reaches

theorem estimatorSecond_none (none : heatOf s f = none) :
    estimatorSecond f s = { s with clock := { s.clock with estDue := s.clock.estDue.set f false } } := by
  unfold estimatorSecond
  rw [none]

/-- The state of a moved second, followed up, from the heat as the second leaves it. -/
theorem secondMoved_settled {h : Heat} (heat : heatOf s f = some h) (loaded : loading s = false) (d : Nat) :
    SettledFor [.freeze] f (setHeat f (afterSecond s f d h) (closeSecond f s))
      (settleHeat f (afterRevision f h (afterSecond s f d h) (setHeat f (afterSecond s f d h) (closeSecond f s)))) := by
  have only := (afterRevision_only f h (afterSecond s f d h) (setHeat f (afterSecond s f d h) (closeSecond f s))).1
  have kept := (afterRevision_matchKept f h (afterSecond s f d h) (setHeat f (afterSecond s f d h) (closeSecond f s))).1
  have loaded' := only.loading.trans (show loading (setHeat f (afterSecond s f d h) (closeSecond f s)) = false from loaded)
  exact only.settledFor (settleHeat_settledFor f _ loaded') kept (settleHeat_served f _ loaded')

end

/-- Settles O38: a second is stamped and accounted; where it moves the heat it is followed up. -/
theorem estimatorSecondAccounts : Obligations.EstimatorSecondAccounts := by
  intro f s on loaded taken
  have runs : exec (.estimatorSecond f) s = .next (estimatorSecond f s) :=
    (live_powered (secondPasses f) s on).trans (congrArg _ (if_neg (by rw [loaded]; decide)))
  refine ⟨fun none => runs.trans (congrArg _ (estimatorSecond_none none)), fun h heat => ?_⟩
  intro x d useful net left totals crossed after slot u quiet
  have after_eq : after = afterSecond s f (deliveredPower s f) h := rfl
  have u_eq : u = setHeat f (afterSecond s f (deliveredPower s f) h) (closeSecond f s) := by
    rw [closeSecond_eq, ← after_eq]
    unfold setHeat setSlot setFurnaceSlot
    simp [u, slot, taken, x]
  have heat' : heatOf s f = some h := heat
  refine ⟨_, runs, fun ⟨state, estimate, freeze, current⟩ => ?_, fun moves => ?_, fun sets clear => ?_⟩
  · rw [u_eq]
    exact estimatorSecond_quiet heat current state estimate freeze
  · rw [u_eq, estimatorSecond_moved heat loaded moves]
    exact secondMoved_settled heat loaded _
  · have moves : ¬ quiet := fun ⟨_, _, freeze, _⟩ => by
      rw [sets, clear] at freeze
      cases freeze
    have told := afterRevision_freeze (f := f) (s := setHeat f after (closeSecond f s)) sets clear
    rw [after_eq, afterSecond_number] at told
    rw [estimatorSecond_moved heat loaded moves]
    exact told.keep (settleHeat_noted f _)
      (by simp [Detail.kind, settleKinds, followKinds, matchKinds, refusalKinds])

end Sys2Proof.Machine
end


section
/-! SET-HOLD-TARGET and SET-CHEMISTRY (R15, R16, R40). -/

namespace Sys2Proof.Machine

section

variable {q : Port} {f : Furnace} {s : State} {h : Heat} {body : List Byte}

theorem handleSetHoldTarget_taken (deck : portFurnace q = some f) (heat : heatOf s f = some h) {stored : Nat}
    (clamped : stored = clampTo (liquidus s + 50) 1600 (field body 0 2)) :
    handleSetHoldTarget q body s =
      (settleHeat f (reviseHeat f (fun h => { h with holdTarget := stored }) s),
        replyTaken (stored != field body 0 2) (if stored = field body 0 2 then [] else be2 stored)) := by
  unfold handleSetHoldTarget
  rw [onDeck_eq deck, heat, clamped]

theorem handleSetChemistry_taken (deck : portFurnace q = some f) (heat : heatOf s f = some h) {c : Chemistry}
    (known : chemistryOf (field body 0 1) = some c) :
    handleSetChemistry q body s = (settleHeat f (setHeat f { h with chemistry := c } s), replyDone []) := by
  unfold handleSetChemistry
  rw [onDeck_eq deck, heat, known]
  dsimp only
  rw [editHeat_some _ heat]

/-! ### The second that follows -/

theorem Settled.loading {kinds : List NoticeKind} {t : State} (g : Settled kinds s t) : loading t = loading s := by
  unfold Machine.loading
  rw [g.1]

/-- An estimator second keeps the heat in its slot with its hold target. -/
theorem estimatorSecond_heat (heat : heatOf s f = some h) (loaded : loading s = false) :
    loading (estimatorSecond f s) = false
      ∧ ∃ h', heatOf (estimatorSecond f s) f = some h' ∧ h'.holdTarget = h.holdTarget := by
  have put : heatOf (setHeat f (afterSecond s f (deliveredPower s f) h) (closeSecond f s)) f
      = some (afterSecond s f (deliveredPower s f) h) := heatOf_setHeat_same f _ _
  have hold := afterSecond_hold (f := f) (s := s) (deliveredPower s f) h
  by_cases quiet : (afterSecond s f (deliveredPower s f) h).state = h.state
      ∧ (afterSecond s f (deliveredPower s f) h).estimate = h.estimate
      ∧ (afterSecond s f (deliveredPower s f) h).freeze = h.freeze ∧ LiquidCurrent f s
  · obtain ⟨state, estimate, freeze, current⟩ := quiet
    rw [estimatorSecond_quiet heat current state estimate freeze]
    exact ⟨loaded, _, put, hold⟩
  · obtain ⟨settled, -⟩ := secondMoved_settled heat loaded (deliveredPower s f)
    rw [estimatorSecond_moved heat loaded quiet]
    obtain ⟨h', found, moved, -⟩ := settled.heat_some put
    refine ⟨settled.loading.trans loaded, h', found, ?_⟩
    rw [moved]
    exact hold

/-- The second after a request keeps the allotment current and the hold target. -/
theorem second_follows (on : s.powered = true) (loaded : loading s = false) (current : AllotmentCurrent s)
    (heat : heatOf s f = some h) :
    ∃ u, exec (.estimatorSecond f) s = .next u ∧ AllotmentCurrent u ∧ ∀ h' ∈ heatOf u f, h'.holdTarget = h.holdTarget := by
  have runs : exec (.estimatorSecond f) s = .next (estimatorSecond f s) :=
    (live_powered (secondPasses f) s on).trans (congrArg _ (if_neg (by rw [loaded]; decide)))
  obtain ⟨loaded', h', found, hold⟩ := estimatorSecond_heat heat loaded
  refine ⟨_, runs, exec_current runs (fun _ => current) loaded', fun x mem => ?_⟩
  obtain rfl : h' = x := Option.some.inj (found.symm.trans mem)
  exact hold

end

/-- Settles O11: each value is stored and followed up; a second later the allotment follows the target still. -/
theorem targetAndChemistryStored : Obligations.TargetAndChemistryStored := by
  intro q tag body s ready f deck h heat
  have ⟨on, loaded, _⟩ := ready
  have open' : heatOf (dropAssembly q s) f = some h := heat
  refine ⟨fun size => ?_, fun size c known => ?_⟩
  · intro sent stored
    have kind : DeckKind .setHoldTarget 2 := ⟨rfl, fun _ _ => rfl⟩
    have clamped : stored = clampTo (liquidus (dropAssembly q s) + 50) 1600 (field body 0 2) := by
      show (if sent < liquidus s + 50 ∧ ¬ 1600 < sent then liquidus s + 50 else if 1600 < sent then 1600 else sent)
        = if 1600 < sent then 1600 else if sent < liquidus s + 50 then liquidus s + 50 else sent
      by_cases high : 1600 < sent
      · simp [high]
      · simp [high]
    have taken := handleSetHoldTarget_taken (s := dropAssembly q s) (body := body) deck open' clamped
    rw [settleHeat_edited _ open' loaded rfl rfl rfl] at taken
    have settled : SettledFor [] f (answered .setHoldTarget q tag body
        { outcome := takenAs (stored != sent), reason := none, body := if stored = sent then [] else be2 stored }
        (setHeat f { h with holdTarget := stored } s)) _ :=
      SettledFor.answered (s := setHeat f { h with holdTarget := stored } s)
        (settleHeat_settledFor f (setHeat f { h with holdTarget := stored } (dropAssembly q s)) loaded)
    refine ⟨_, kind.runs ready size deck taken, settled, ?_⟩
    obtain ⟨frame, -, current, -⟩ := settled
    obtain ⟨h', found, moved, -⟩ := frame.heat_some (f := f) (h := { h with holdTarget := stored })
      (heatOf_setHeat_same f _ s)
    have hold : h'.holdTarget = stored := by rw [moved]
    have follows := second_follows (frame.powered.trans on) (frame.loading.trans loaded) current found
    rw [hold] at follows
    exact follows
  · have kind : DeckKind .setChemistry 1 := ⟨rfl, fun _ _ => rfl⟩
    have taken := handleSetChemistry_taken (s := dropAssembly q s) (body := body) deck open' known
    exact ⟨_, kind.runs ready size deck taken, SettledFor.answered (s := setHeat f { h with chemistry := c } s)
      (settleHeat_settledFor f (setHeat f { h with chemistry := c } (dropAssembly q s)) loaded)⟩

end Sys2Proof.Machine
end


section
/-! A dip sample: the plateau test and the result's application (R38, R39, R95 to R97). -/

namespace Sys2Proof.Machine

/-! ### The plateau -/

theorem foldl_max_le_iff (l : List Nat) (a n : Nat) : l.foldl max a ≤ n ↔ a ≤ n ∧ ∀ x ∈ l, x ≤ n := by
  induction l generalizing a with
  | nil => simp
  | cons x rest ih => rw [List.foldl_cons, ih, Nat.max_le, List.forall_mem_cons, and_assoc]

theorem le_foldl_min_iff (l : List Nat) (a n : Nat) : n ≤ l.foldl min a ↔ n ≤ a ∧ ∀ x ∈ l, n ≤ x := by
  induction l generalizing a with
  | nil => simp
  | cons x rest ih => rw [List.foldl_cons, ih, Nat.le_min, List.forall_mem_cons, and_assoc]

theorem highest_le_iff (l : List Nat) (n : Nat) : highest l ≤ n ↔ ∀ x ∈ l, x ≤ n := by
  simp [highest, foldl_max_le_iff]

theorem le_lowest_iff {l : List Nat} (some' : l ≠ []) (n : Nat) : n ≤ lowest l ↔ ∀ x ∈ l, n ≤ x := by
  cases l with
  | nil => exact absurd rfl some'
  | cons x rest => simp [lowest, le_foldl_min_iff]

/-- The plateau of R96 as the pairs of its values have it. -/
theorem plateau_iff (w : List Nat) : plateau w = true ↔ w.length = 20 ∧ ∀ x ∈ w, ∀ y ∈ w, x ≤ y + 4 := by
  unfold plateau
  rw [Bool.and_eq_true, beq_iff_eq, decide_eq_true_iff]
  refine and_congr_right fun full => ?_
  have some' : w ≠ [] := fun none' => by
    rw [none'] at full
    cases full
  calc highest w - lowest w ≤ 4 ↔ highest w ≤ lowest w + 4 := by omega
    _ ↔ ∀ x ∈ w, x - 4 ≤ lowest w := by
      rw [highest_le_iff]
      exact forall₂_congr fun x _ => by omega
    _ ↔ ∀ x ∈ w, ∀ y ∈ w, x ≤ y + 4 :=
      forall₂_congr fun x _ => (le_lowest_iff some' _).trans (forall₂_congr fun y _ => by omega)

/-! ### The heat that a result is applied to -/

section

variable {s : State} {f : Furnace} {h : Heat}

/-- The heat that a dip result leaves, R10 run and its class stamp set (R7, R10, R32, R38, R39). -/
def dippedAs (s : State) (t : Nat) (h : Heat) : Heat :=
  let dipped : Heat := { h with lastDip := some { temp := t, second := s.clock.shopSeconds } }
  let estimate := if t < liquidus s then liquidus s else if 1700 < t then 1700 else t
  let target := if s.shop.state = .banked then bankTarget s else h.holdTarget
  let state : HeatState :=
    match h.state with
    | .melting | .superheat => if target ≤ estimate then .holding else .superheat
    | .holding | .tapReady => if estimate + returnBand s < target then .superheat else h.state
    | .tapping => .tapping
  if h.state = .melting ∧ t < liquidus s then dipped
  else
    { dipped with
      state := state
      remaining := if h.state = .melting then 0 else h.remaining
      estimate := some estimate, accumulator := 0
      freeze := decide (estimate ≤ liquidus s + freezeMargin s)
      classStamp :=
        if heatClass h = (if state = .superheat then .melt else .hold) then h.classStamp
        else s.clock.shopSeconds }

theorem clampEstimate_dip (t : Nat) :
    (clampEstimate s t 0).1 = if t < liquidus s then liquidus s else if 1700 < t then 1700 else t := by
  unfold clampEstimate
  by_cases low : t < liquidus s
  · rw [if_pos low, if_pos (by omega)]
  · rw [if_neg low, if_neg (by omega)]
    by_cases high : 1700 < t
    · rw [if_pos high, if_pos (by omega)]
    · rw [if_neg high, if_neg (by omega)]
      rfl

/-- The class of a heat with an estimate, of a state that is not MELTING (R45). -/
theorem heatClass_liquid (cold : h.state ≠ .melting) (estimate : h.estimate.isSome = true) :
    heatClass h = if h.state = .superheat then .melt else .hold := by
  unfold heatClass
  cases state : h.state with
  | melting => exact absurd state cold
  | superheat => simp [estimate]
  | holding | tapReady | tapping => rfl

/-- R10 on a heat that has just taken a dip result. -/
theorem liquidEval_dipped {e : Nat} (estimate : h.estimate = some e) (cold : h.state ≠ .melting) :
    liquidEval s h = { h with state :=
      match h.state with
      | .melting | .superheat => if targetInForce s h ≤ e then .holding else .superheat
      | .holding | .tapReady => if e + returnBand s < targetInForce s h then .superheat else h.state
      | .tapping => .tapping } := by
  unfold liquidEval
  generalize targetInForce s h = target
  obtain ⟨number, state, charges, totalMelt, remaining, restateAdj, taps, openTap, bathMass, estimate', accumulator,
    lastDip, holdTarget, chemistry, freeze, massUncertain, delivered, useful, classStamp, openedAt⟩ := h
  obtain rfl : estimate' = some e := estimate
  cases state with
  | melting => exact absurd rfl cold
  | tapping => rfl
  | superheat | holding | tapReady =>
    dsimp only
    split <;> rfl

/-- A result applied to a heat, but to a MELTING one below LIQUIDUS. -/
theorem applyDip_some {t : Nat} (applies : ¬ (h.state = .melting ∧ t < liquidus s)) :
    applyDip s t h =
      { h with
        state := if h.state = .melting then .superheat else h.state
        remaining := if h.state = .melting then 0 else h.remaining
        lastDip := some { temp := t, second := s.clock.shopSeconds }
        estimate := some (if t < liquidus s then liquidus s else if 1700 < t then 1700 else t)
        accumulator := 0
        freeze := decide ((if t < liquidus s then liquidus s else if 1700 < t then 1700 else t)
          ≤ liquidus s + freezeMargin s) } := by
  unfold applyDip takeDip
  rw [clampEstimate_dip]
  by_cases melting : h.state = .melting
  · rw [if_pos melting, if_pos (Nat.not_lt.mp fun low => applies ⟨melting, low⟩), if_pos melting, if_pos melting]
    rfl
  · rw [if_neg melting, if_neg melting, if_neg melting]
    rfl

theorem restamp_stamp (second : Nat) (old new : Heat) :
    restamp second old new =
      { new with classStamp := if heatClass old = heatClass new then new.classStamp else second } := by
  unfold restamp
  split <;> rfl

/-- The revised heat of a dip result (R7, R10, R38, R39). -/
theorem revised_applyDip (t : Nat) :
    restamp (now s) h (liquidEval s (applyDip s t h)) = dippedAs s t h := by
  by_cases melts : h.state = .melting ∧ t < liquidus s
  · have put : applyDip s t h = { h with lastDip := some { temp := t, second := now s } } := by
      unfold applyDip
      rw [if_pos melts.1, if_neg (by omega)]
    unfold dippedAs
    dsimp only
    rw [if_pos melts, put, liquidEval_melting (by exact melts.1)]
    exact if_pos rfl
  · have put := applyDip_some melts
    unfold dippedAs
    dsimp only
    rw [if_neg melts]
    generalize (if t < liquidus s then liquidus s else if 1700 < t then 1700 else t) = e at put ⊢
    have estimate : (applyDip s t h).estimate = some e := by rw [put]
    have cold : (applyDip s t h).state ≠ .melting := by
      rw [put]
      dsimp only
      split
      · decide
      · next other => exact other
    have target : targetInForce s (applyDip s t h) = if s.shop.state = .banked then bankTarget s else h.holdTarget := by
      rw [put]
      rfl
    have moved := liquidEval_dipped (s := s) estimate cold
    rw [target] at moved
    generalize (if s.shop.state = .banked then bankTarget s else h.holdTarget) = wanted at moved ⊢
    rw [put] at moved ⊢
    rw [moved, restamp_stamp]
    clear moved put target cold estimate
    generalize heatClass h = old
    obtain ⟨number, state, charges, totalMelt, remaining, restateAdj, taps, openTap, bathMass, estimate, accumulator,
      lastDip, holdTarget, chemistry, freeze, massUncertain, delivered, useful, classStamp, openedAt⟩ := h
    cases state with
    | melting | superheat =>
      by_cases reached : wanted ≤ e
      · simp [heatClass, reached, now]
      · simp [heatClass, reached, now]
    | holding | tapReady =>
      by_cases fallen : e + returnBand s < wanted
      · simp [heatClass, fallen, now]
      · simp [heatClass, fallen, now]
    | tapping => simp [heatClass, now]

/-! ### The result handed on -/

theorem handResult_some {t samples : Nat} (heat : heatOf s f = some h) :
    handResult f t samples s =
      settleHeat f (post (.dipResult f h.number t samples s.clock.shopSeconds)
        (afterRevision f h (dippedAs s t h) (setHeat f (dippedAs s t h) s))) := by
  have revised : reviseHeat f (applyDip s t) s
      = afterRevision f h (dippedAs s t h) (setHeat f (dippedAs s t h) s) := by
    unfold reviseHeat
    rw [heat]
    dsimp only
    rw [revised_applyDip]
  unfold handResult
  rw [heat]
  dsimp only
  rw [revised]
  rfl

theorem dippedAs_number (t : Nat) : (dippedAs s t h).number = h.number := by
  unfold dippedAs
  dsimp only
  split <;> rfl

/-- The result followed up, from the heat that it leaves (R97, R122). -/
theorem handResult_settled {t samples : Nat} (heat : heatOf s f = some h) (loaded : loading s = false) :
    SettledFor [.freeze, .dipResult] f (setHeat f (dippedAs s t h) s) (handResult f t samples s) := by
  have only := (afterRevision_only f h (dippedAs s t h) (setHeat f (dippedAs s t h) s)).1
  have kept := (afterRevision_matchKept f h (dippedAs s t h) (setHeat f (dippedAs s t h) s)).1
  rw [handResult_some heat]
  generalize afterRevision f h (dippedAs s t h) (setHeat f (dippedAs s t h) s) = x at only kept
  have posted : TapOnly [.dipResult] x (post (.dipResult f h.number t samples s.clock.shopSeconds) x) := post_only x (by simp [Detail.kind])
  have loaded' : loading (post (.dipResult f h.number t samples s.clock.shopSeconds) x) = false :=
    posted.loading.trans (only.loading.trans loaded)
  exact ((only.mono (by simp)).trans (posted.mono (by simp))).settledFor (settleHeat_settledFor f _ loaded')
    (kept.trans (post_matchKept _ x)) (settleHeat_served f _ loaded')

theorem handResult_told {t samples : Nat} (heat : heatOf s f = some h) :
    Noticed (.dipResult f h.number t samples s.clock.shopSeconds) (handResult f t samples s)
      ∧ ((dippedAs s t h).freeze = true → h.freeze = false → Noticed (.freeze f h.number) (handResult f t samples s)) := by
  have told := afterRevision_freeze (f := f) (old := h) (new := dippedAs s t h) (s := setHeat f (dippedAs s t h) s)
  rw [dippedAs_number] at told
  rw [handResult_some heat]
  generalize afterRevision f h (dippedAs s t h) (setHeat f (dippedAs s t h) s) = x at told
  have quiet := settleHeat_noted f (post (.dipResult f h.number t samples s.clock.shopSeconds) x)
  refine ⟨(post_noticed _ x).keep quiet
    (by simp [Detail.kind, settleKinds, followKinds, matchKinds, refusalKinds]), fun sets clear => ?_⟩
  exact ((told sets clear).keep (post_noted _ x) (by simp [Detail.kind])).keep quiet
    (by simp [Detail.kind, settleKinds, followKinds, matchKinds, refusalKinds])

end

/-! ### The sample -/

section

variable {f : Furnace} {s : State} {code : BitVec 12} {behind : List Chan}

/-- The state with a sample taken in the scanner (R92, R95). -/
def sampledState (f : Furnace) (behind : List Chan) (x : ChannelRec) (y : DipUnit) (s : State) : State :=
  { s with scan :=
    { s.scan with plan := behind, chans := s.scan.chans.set (dipChan f) x, dips := s.scan.dips.set f y } }

theorem sampleEnds_due (running : s.scan.running = true) (due : DueNext s (dipChan f) behind) :
    sampleEnds f code s = takeSample f code.toNat (noteConversion (dipChan f) s) :=
  if_pos ⟨running, ((dueNext_iff s _ _).mp due).1⟩

theorem sampleEnds_idle (idle : s.scan.running = false ∨ ∀ behind, ¬ DueNext s (dipChan f) behind) :
    sampleEnds f code s = s := by
  refine if_neg fun ⟨running, due⟩ => ?_
  rcases idle with stopped | never
  · rw [stopped] at running
    cases running
  · exact never _ ((dueNext_iff s _ _).mpr ⟨due, rfl⟩)

/-- The record and the unit of a sample, written into the scanner. -/
theorem setDip_sampled (due : DueNext s (dipChan f) behind) (x : ChannelRec) (y : DipUnit) :
    setDip f y (setChannel (dipChan f) x (noteConversion (dipChan f) s)) = sampledState f behind x y s := by
  rw [← ((dueNext_iff s _ _).mp due).2]
  cases f <;> rfl

/-- A dip that fails on the sample just written. -/
theorem failDip_setDip (reason : DipFailure) (next : DipState) (d : DipUnit) (s : State) :
    failDip f reason next (setDip f d s) =
      post (.dipFailed f (heatNumber s f) reason d.samples)
        (setDip f { d with state := next, timer := none, window := [] } s) := by
  have own : (setDip f d s).scan.dips.get f = d := PerFurnace.get_set_same _ _ _
  have twice : ∀ y, setDip f y (setDip f d s) = setDip f y s := fun y => by simp [setDip]
  unfold failDip
  dsimp only
  rw [own, twice]
  rfl

theorem takeSample_open {k : Nat} (due : DueNext s (dipChan f) behind) (open' : 4072 ≤ k) :
    takeSample f k (noteConversion (dipChan f) s) =
      (let d := s.scan.dips.get f
      let count := if d.samples < 4 then d.openCount + 1 else d.openCount
      let emptied : DipUnit := { d with samples := d.samples + 1, openCount := count, window := [] }
      let broken : ChannelRec := { chanOf s (dipChan f) with status := .broken, updatedAt := some s.clock.ms }
      if d.samples = 3 ∧ count = 4 then
        post (.dipFailed f (heatNumber s f) .openTip 4)
          (sampledState f behind broken { emptied with state := .waitRelease, timer := none } s)
      else sampledState f behind broken emptied s) := by
  unfold takeSample
  dsimp only
  rw [if_pos open']
  unfold openSample
  dsimp only
  rw [failDip_setDip, setDip_sampled due, setDip_sampled due]
  by_cases tip : (s.scan.dips.get f).samples = 3 ∧ (if (s.scan.dips.get f).samples < 4 then
      (s.scan.dips.get f).openCount + 1 else (s.scan.dips.get f).openCount) = 4
  · obtain ⟨third, count⟩ := tip
    have fourth : (s.scan.dips.get f).samples + 1 = 4 := congrArg (· + 1) third
    refine (if_pos ⟨fourth, count⟩).trans (Eq.trans ?_ (if_pos ⟨third, count⟩).symm)
    rw [← fourth]
    rfl
  · refine (if_neg fun other => tip ⟨Nat.succ.inj other.1, other.2⟩).trans (Eq.trans ?_ (if_neg tip).symm)
    rfl

theorem takeSample_value {k : Nat} (due : DueNext s (dipChan f) behind) (value : k < 4072) :
    takeSample f k (noteConversion (dipChan f) s) =
      (let d := s.scan.dips.get f
      let v := k * 1800 / 4095
      let window := (d.window ++ [v]).drop (d.window.length + 1 - 20)
      let grown : DipUnit := { d with samples := d.samples + 1, window := window }
      let good : ChannelRec := { status := .valid, value := some v, updatedAt := some s.clock.ms }
      if plateau window then
        handResult f (window.sum / 20) (d.samples + 1)
          (sampledState f behind good { grown with state := .waitRelease, timer := none } s)
      else sampledState f behind good grown s) := by
  unfold takeSample
  dsimp only
  rw [if_neg (by omega)]
  unfold goodSample
  dsimp only
  rw [setDip_sampled due, setDip_sampled due]
  rw [List.length_append, List.length_singleton]
  rfl

end

/-- Settles O44: a sample that is due is written in; an OPEN one may end the dip, and one that finds the plateau hands its
result to the heat. -/
theorem dipSampleFindsThePlateau : Obligations.DipSampleFindsThePlateau := by
  intro f code s on loaded
  have runs : exec (.dipSample f code) s = .next (sampleEnds f code s) := live_powered _ s on
  refine ⟨fun idle => runs.trans (congrArg _ (sampleEnds_idle idle)), fun behind running due => ?_⟩
  intro k d r scanned count emptied broken v window grown good found t after
  rw [sampleEnds_due running due] at runs
  refine ⟨fun open' => ?_, fun value => ?_⟩
  · have taken := takeSample_open due open'
    refine ⟨fun goes => runs.trans (congrArg _ (taken.trans (if_neg goes))), fun third fourth => ?_⟩
    exact runs.trans (congrArg _ (taken.trans (if_pos ⟨third, fourth⟩)))
  · have taken := takeSample_value due value
    have result (is : found) : exec (.dipSample f code) s = .next (handResult f t (d.samples + 1) after) :=
      runs.trans (congrArg _ (taken.trans (if_pos ((plateau_iff window).mpr is))))
    refine ⟨fun rises => runs.trans (congrArg _ (taken.trans (if_neg fun is => rises ((plateau_iff window).mp is)))),
      fun is none' => (result is).trans (congrArg _ ?_), fun is h heat => ?_⟩
    · have none'' : heatOf after f = none := none'
      unfold handResult
      rw [none'']
    · have heat' : heatOf after f = some h := heat
      have loaded' : loading after = false := loaded
      intro dipped estimate target state applied
      have same : dippedAs after t h = applied := rfl
      have settled := handResult_settled (t := t) (samples := d.samples + 1) heat' loaded'
      obtain ⟨told, freezes⟩ := handResult_told (t := t) (samples := d.samples + 1) heat'
      have follows := handResult_served f t (d.samples + 1) after loaded'
      rw [same] at settled freezes
      refine ⟨_, result is, settled, told (deckPort f) ?_, follows.congr rfl rfl, freezes⟩
      simp [Detail.addressedTo]

end Sys2Proof.Machine
end


section
/-! ACK-NOTICES: the kinds cleared, and the level kinds posted again (R110, R130, R146, R148). -/

namespace Sys2Proof.Machine

/-! ### The kinds named -/

theorem NoticeKind.ofCode_some {n : Nat} {k : NoticeKind} (h : NoticeKind.ofCode n = some k) : k.code = n := by
  unfold NoticeKind.ofCode at h
  split at h <;> cases h <;> rfl

theorem NoticeKind.ofCode_none_iff (n : Nat) : NoticeKind.ofCode n = none ↔ n < 1 ∨ 20 < n := by
  refine ⟨fun absent => ?_, fun out => ?_⟩
  · have each : ∀ m < 21, 1 ≤ m → NoticeKind.ofCode m ≠ none := by decide
    rcases Nat.lt_or_ge n 1 with low | low
    · exact .inl low
    · exact .inr (Nat.lt_of_not_le fun high => each n (Nat.lt_succ_of_le high) low absent)
  · unfold NoticeKind.ofCode
    split
    case h_21 => rfl
    all_goals omega

/-- The pairs of a body with their codes read. -/
def namedKinds (pairs : List (Nat × Nat)) : Option (List (NoticeKind × Nat)) :=
  pairs.mapM fun p => (NoticeKind.ofCode p.1).map fun k => (k, p.2)

theorem namedKinds_none_iff (pairs : List (Nat × Nat)) : namedKinds pairs = none ↔ ∃ x ∈ pairs, x.1 < 1 ∨ 20 < x.1 := by
  induction pairs with
  | nil => simp [namedKinds]
  | cons x rest ih =>
    unfold namedKinds at ih ⊢
    rw [List.mapM_cons]
    rcases known : NoticeKind.ofCode x.1 with _ | k
    · have out := (NoticeKind.ofCode_none_iff x.1).mp known
      exact ⟨fun _ => ⟨x, List.mem_cons_self, out⟩, fun _ => rfl⟩
    · have inside : ¬ (x.1 < 1 ∨ 20 < x.1) := fun out => by
        rw [(NoticeKind.ofCode_none_iff x.1).mpr out] at known
        cases known
      simp only [List.mem_cons, exists_eq_or_imp, inside, false_or, ← ih]
      cases rest.mapM fun p => (NoticeKind.ofCode p.1).map fun k => (k, p.2) <;> simp

theorem namedKinds_some {pairs : List (Nat × Nat)} {kinds : List (NoticeKind × Nat)} (h : namedKinds pairs = some kinds) :
    kinds.map (fun x => (x.1.code, x.2)) = pairs := by
  induction pairs generalizing kinds with
  | nil =>
    cases h
    rfl
  | cons x rest ih =>
    unfold namedKinds at ih h
    rw [List.mapM_cons] at h
    rcases known : NoticeKind.ofCode x.1 with _ | k
    · simp [known] at h
    · rcases others : rest.mapM fun p => (NoticeKind.ofCode p.1).map fun k => (k, p.2) with _ | l
      · simp [known, others] at h
      · simp only [known, others, Option.map_some, Option.bind_eq_bind, Option.bind_some, Option.pure_def,
          Option.some.injEq] at h
        rw [← h, List.map_cons, ih others, NoticeKind.ofCode_some known]

/-! ### The clearing -/

theorem pendingSerial_some {r : PortRec} {k : NoticeKind} {present : Nat} (h : pendingSerial r k = some present) :
    ∃ n ∈ r.notices, n.detail.kind = k ∧ n.serial = present := by
  unfold pendingSerial at h
  obtain ⟨n, found, serial⟩ := Option.map_eq_some_iff.mp h
  exact ⟨n, List.mem_of_find?_eq_some found, by simpa using List.find?_some found, serial⟩

theorem mem_clear (r : PortRec) (k : NoticeKind) (n : Notice) :
    n ∈ (r.clear k).notices ↔ n ∈ r.notices ∧ n.detail.kind ≠ k := by
  unfold PortRec.clear
  simp

/-- A naming of a notice: its kind, with its serial or 0. -/
def Names (p : NoticeKind × Nat) (n : Notice) : Prop := p.1 = n.detail.kind ∧ (p.2 = 0 ∨ p.2 = n.serial)

/-- What the clearing leaves: the entries of the kinds that it has not cleared; each kind cleared once, for an entry named. -/
structure ClearedBy (kinds : List (NoticeKind × Nat)) (r left : PortRec) (gone : List NoticeKind) : Prop where
  frame : left = { r with notices := left.notices }
  left : ∀ n, n ∈ left.notices ↔ n ∈ r.notices ∧ n.detail.kind ∉ gone
  once : gone.Nodup
  named : ∀ k ∈ gone, ∃ n ∈ r.notices, n.detail.kind = k ∧ ∃ p ∈ kinds, Names p n
  few : gone.length ≤ kinds.length

theorem ClearedBy.skip {p : NoticeKind × Nat} {rest : List (NoticeKind × Nat)} {r left : PortRec} {gone : List NoticeKind}
    (h : ClearedBy rest r left gone) : ClearedBy (p :: rest) r left gone := by
  refine ⟨h.frame, h.left, h.once, fun k mem => ?_, Nat.le_succ_of_le h.few⟩
  obtain ⟨n, stands, kind, x, named, names⟩ := h.named k mem
  exact ⟨n, stands, kind, x, List.mem_cons_of_mem _ named, names⟩

theorem ClearedBy.clear {k : NoticeKind} {serial : Nat} {rest : List (NoticeKind × Nat)} {r left : PortRec}
    {gone : List NoticeKind} {n : Notice} (stands : n ∈ r.notices) (names : Names (k, serial) n)
    (h : ClearedBy rest (r.clear k) left gone) : ClearedBy ((k, serial) :: rest) r left (k :: gone) := by
  have fresh : k ∉ gone := fun mem => by
    obtain ⟨m, stands, kind, -⟩ := h.named k mem
    exact ((mem_clear r k m).mp stands).2 kind
  refine ⟨h.frame.trans rfl, fun m => ?_, List.nodup_cons.mpr ⟨fresh, h.once⟩, fun j mem => ?_, Nat.succ_le_succ h.few⟩
  · rw [h.left, mem_clear, List.mem_cons, not_or, and_assoc]
  · rcases List.mem_cons.mp mem with e | mem
    · exact ⟨n, stands, by rw [e]; exact names.1.symm, _, List.mem_cons_self, names⟩
    · obtain ⟨m, stands, kind, x, named, names⟩ := h.named j mem
      exact ⟨m, ((mem_clear r k m).mp stands).1, kind, x, List.mem_cons_of_mem _ named, names⟩

theorem clearKinds_clearedBy (kinds : List (NoticeKind × Nat)) (r : PortRec) :
    ClearedBy kinds r (clearKinds r kinds).1 (clearKinds r kinds).2.2 := by
  induction kinds generalizing r with
  | nil => exact ⟨rfl, fun n => by simp [clearKinds], List.nodup_nil, fun k mem => absurd mem List.not_mem_nil, Nat.le_refl _⟩
  | cons x rest ih =>
    obtain ⟨k, serial⟩ := x
    unfold clearKinds
    split
    · exact (ih r).skip
    · next present found =>
      obtain ⟨n, stands, kind, is⟩ := pendingSerial_some found
      split
      · next clears => exact (ih (r.clear k)).clear stands ⟨kind.symm, by rw [is]; exact clears⟩
      · exact (ih r).skip

/-- In a record with one entry a kind, a notice named is cleared. -/
theorem clearKinds_named (kinds : List (NoticeKind × Nat)) (r : PortRec)
    (one : (r.notices.map fun n => n.detail.kind).Nodup) {n : Notice} (stands : n ∈ r.notices)
    (named : ∃ p ∈ kinds, Names p n) : n.detail.kind ∈ (clearKinds r kinds).2.2 := by
  induction kinds generalizing r with
  | nil =>
    obtain ⟨p, mem, -⟩ := named
    exact absurd mem List.not_mem_nil
  | cons x rest ih =>
    obtain ⟨k, serial⟩ := x
    obtain ⟨p, mem, names⟩ := named
    unfold clearKinds
    split
    · next absent =>
      refine ih r one stands ⟨p, (List.mem_cons.mp mem).resolve_left fun e => ?_, names⟩
      subst e
      unfold pendingSerial at absent
      have no := List.find?_eq_none.mp (Option.map_eq_none_iff.mp absent) n stands
      exact no (by simpa using names.1.symm)
    · next present found =>
      obtain ⟨m, stands', kind, is⟩ := pendingSerial_some found
      split
      · by_cases own : n.detail.kind = k
        · exact List.mem_cons.mpr (.inl own)
        · refine List.mem_cons_of_mem _ (ih (r.clear k) ?_ ((mem_clear r k n).mpr ⟨stands, own⟩)
            ⟨p, (List.mem_cons.mp mem).resolve_left fun e => own ?_, names⟩)
          · exact (List.Sublist.map _ List.filter_sublist).nodup one
          · subst e
            exact names.1.symm
      · next stays =>
        refine ih r one stands ⟨p, (List.mem_cons.mp mem).resolve_left fun e => stays ?_, names⟩
        subst e
        have same : m = n := one_entry_a_kind one m stands' n stands (kind.trans names.1)
        rw [← is, same]
        exact names.2

end Sys2Proof.Machine
end


section
/-! ACK-NOTICES: the level kinds posted again (R32, R73, R110, R116, R130, R146, R148). -/

namespace Sys2Proof.Machine

/-! ### What a level kind posted again carries -/

/-- The notice of a level kind posted again at a port, where its condition holds (R146). -/
def repostDetail (q : Port) (k : NoticeKind) (s : State) : Option Detail :=
  match k with
  | .freeze => ((portFurnace q).bind (heatOf s)).bind fun h =>
      if h.freeze then some (.freeze (if q = .b then .b else .a) h.number) else none
  | .cooling =>
    if s.prot.circuits.coilA.state = .normal ∧ s.prot.circuits.coilB.state = .normal
        ∧ s.prot.circuits.cabinet.state = .normal then none
    else some (coolingDetail s)
  | .leakWarn => (otherStanding (leakStands s) (s.prot.leakCarried.get q)).map (leakDetail s)
  | .unpermittedTilt =>
    (otherStanding s.tap.unpermitted ((s.tap.tiltCarried.get q).map TiltDetail.furnace)).map fun f =>
      .unpermittedTilt (tiltDetail s f)
  | .breakerStuck => if s.shop.stuck then some .breakerStuck else none
  | _ => none

/-- What LEAK_WARN and UNPERMITTED_TILT then carry at the port (R110, R130). -/
def carrying (q : Port) (d : Detail) (s : State) : State :=
  match d with
  | .leakWarn f _ => { s with prot := { s.prot with leakCarried := s.prot.leakCarried.set q (some f) } }
  | .unpermittedTilt x => { s with tap := { s.tap with tiltCarried := s.tap.tiltCarried.set q (some x) } }
  | _ => s

/-- A port carries what a notice says. -/
def Carries (q : Port) (d : Detail) (s : State) : Prop :=
  match d with
  | .leakWarn f _ => s.prot.leakCarried.get q = some f
  | .unpermittedTilt x => s.tap.tiltCarried.get q = some x
  | _ => True

theorem repostDetail_kind {q : Port} {k : NoticeKind} {s : State} {d : Detail} (h : repostDetail q k s = some d) :
    d.kind = k := by
  unfold repostDetail at h
  split at h
  · obtain ⟨x, -, posted⟩ := Option.bind_eq_some_iff.mp h
    split at posted
    · cases posted
      rfl
    · cases posted
  · split at h
    · cases h
    · cases h
      rfl
  · obtain ⟨f, -, posted⟩ := Option.map_eq_some_iff.mp h
    rw [← posted]
    rfl
  · obtain ⟨f, -, posted⟩ := Option.map_eq_some_iff.mp h
    rw [← posted]
    rfl
  · split at h
    · cases h
      rfl
    · cases h
  · cases h

theorem repostKind_eq (q : Port) (k : NoticeKind) (s : State) :
    repostKind q k s =
      match repostDetail q k s with
      | some d => postTo q d (carrying q d s)
      | none => s := by
  cases k with
  | freeze =>
    show repostFreeze q s = _
    unfold repostFreeze repostDetail
    cases (portFurnace q).bind (heatOf s) with
    | none => rfl
    | some h =>
      dsimp only [Option.bind_some]
      cases h.freeze <;> rfl
  | cooling =>
    show repostCooling q s = _
    unfold repostCooling repostDetail
    dsimp only
    split <;> rfl
  | leakWarn =>
    show repostLeak q s = _
    unfold repostLeak repostDetail
    dsimp only
    cases otherStanding (leakStands s) (s.prot.leakCarried.get q) <;> rfl
  | unpermittedTilt =>
    show repostTilt q s = _
    unfold repostTilt repostDetail
    dsimp only
    cases otherStanding s.tap.unpermitted ((s.tap.tiltCarried.get q).map TiltDetail.furnace) <;> rfl
  | breakerStuck =>
    show repostStuck q s = _
    unfold repostStuck repostDetail
    dsimp only
    cases s.shop.stuck <;> rfl
  | _ => rfl

/-- A posting at a port leaves what another kind's would read. -/
theorem repostDetail_posted {q : Port} {d : Detail} {k : NoticeKind} {s : State} (other : k ≠ d.kind) :
    repostDetail q k (postTo q d (carrying q d s)) = repostDetail q k s := by
  cases d with
  | leakWarn f v =>
    cases k with
    | leakWarn => exact absurd rfl other
    | _ => rfl
  | unpermittedTilt x =>
    cases k with
    | unpermittedTilt => exact absurd rfl other
    | _ => rfl
  | _ => rfl

/-! ### The postings in turn -/

theorem repeat_succ' (k n : Nat) : Nat.repeat nextSerialAfter k (nextSerialAfter n) = Nat.repeat nextSerialAfter (k + 1) n := by
  induction k with
  | zero => rfl
  | succ k ih => exact congrArg nextSerialAfter ih

/-- The level kinds of a list posted again at a port, each at most once. -/
structure Reposted (q : Port) (kinds : List NoticeKind) (s t : State) : Prop where
  frame : t = { s with
    ports := t.ports, prot := { s.prot with leakCarried := t.prot.leakCarried }
    tap := { s.tap with tiltCarried := t.tap.tiltCarried } }
  others : ∀ p, p ≠ q → t.ports.get p = s.ports.get p ∧ t.prot.leakCarried.get p = s.prot.leakCarried.get p
    ∧ t.tap.tiltCarried.get p = s.tap.tiltCarried.get p
  leak : .leakWarn ∉ kinds → t.prot.leakCarried.get q = s.prot.leakCarried.get q
  tilt : .unpermittedTilt ∉ kinds → t.tap.tiltCarried.get q = s.tap.tiltCarried.get q
  stays : ∀ n ∈ (s.ports.get q).notices, n.detail.kind ∉ kinds → n ∈ (t.ports.get q).notices
  posted : ∀ k ∈ kinds, ∀ d, repostDetail q k s = some d → ∃ m ∈ (t.ports.get q).notices, m.detail = d
  only : ∀ m ∈ (t.ports.get q).notices, m ∈ (s.ports.get q).notices
    ∨ m.detail.kind ∈ kinds ∧ repostDetail q m.detail.kind s = some m.detail ∧ Carries q m.detail t
      ∧ ∃ k < kinds.length, m.serial = Nat.repeat nextSerialAfter k (s.ports.get q).nextSerial

theorem Reposted.refl (q : Port) (s : State) : Reposted q [] s s :=
  ⟨rfl, fun _ _ => ⟨rfl, rfl, rfl⟩, fun _ => rfl, fun _ => rfl, fun _ h _ => h, fun _ h => absurd h List.not_mem_nil,
    fun _ h => .inl h⟩

/-- Where the first kind's condition does not hold, nothing is posted for it. -/
theorem Reposted.skip {q : Port} {k : NoticeKind} {rest : List NoticeKind} {s t : State} (h : Reposted q rest s t)
    (none' : repostDetail q k s = none) : Reposted q (k :: rest) s t := by
  obtain ⟨frame, others, leak, tilt, stays, posted, only⟩ := h
  refine ⟨frame, others, fun out => leak fun mem => out (List.mem_cons_of_mem _ mem),
    fun out => tilt fun mem => out (List.mem_cons_of_mem _ mem),
    fun n stands out => stays n stands fun mem => out (List.mem_cons_of_mem _ mem), fun j mem d is => ?_, fun m mem => ?_⟩
  · rcases List.mem_cons.mp mem with e | mem
    · rw [e, none'] at is
      cases is
    · exact posted j mem d is
  · rcases only m mem with old | ⟨listed, is, carried, j, few, serial⟩
    · exact .inl old
    · exact .inr ⟨List.mem_cons_of_mem _ listed, is, carried, j, Nat.lt_succ_of_lt few, serial⟩

theorem postTo_carrying_port (q : Port) (d : Detail) (s : State) :
    (postTo q d (carrying q d s)).ports.get q = (s.ports.get q).post d := by
  unfold postTo setPort carrying
  rw [PerPort.get_set_same]
  cases d <;> rfl

theorem postTo_carrying_other {p q : Port} (d : Detail) (s : State) (other : p ≠ q) :
    (postTo q d (carrying q d s)).ports.get p = s.ports.get p
      ∧ (postTo q d (carrying q d s)).prot.leakCarried.get p = s.prot.leakCarried.get p
      ∧ (postTo q d (carrying q d s)).tap.tiltCarried.get p = s.tap.tiltCarried.get p := by
  unfold postTo setPort carrying
  rw [PerPort.get_set_other _ _ other]
  cases d with
  | leakWarn f v => exact ⟨rfl, PerPort.get_set_other _ _ other, rfl⟩
  | unpermittedTilt x => exact ⟨rfl, rfl, PerPort.get_set_other _ _ other⟩
  | _ => exact ⟨rfl, rfl, rfl⟩

theorem carries_carrying (q : Port) (d : Detail) (s : State) : Carries q d (postTo q d (carrying q d s)) := by
  cases d with
  | leakWarn f v => exact PerPort.get_set_same _ _ _
  | unpermittedTilt x => exact PerPort.get_set_same _ _ _
  | _ => trivial

/-- What a port carries, it carries on while the kind is not posted again. -/
theorem Carries.kept {q : Port} {d : Detail} {rest : List NoticeKind} {s t : State} (h : Carries q d s)
    (g : Reposted q rest s t) (once : d.kind ∉ rest) : Carries q d t := by
  cases d with
  | leakWarn f v => exact (g.leak once).trans h
  | unpermittedTilt x => exact (g.tilt once).trans h
  | _ => trivial

/-- A port carries its leak and its tilt on, but for a posting of that kind. -/
theorem carrying_kept (q : Port) (d : Detail) (s : State) :
    (d.kind ≠ .leakWarn → (postTo q d (carrying q d s)).prot.leakCarried.get q = s.prot.leakCarried.get q)
      ∧ (d.kind ≠ .unpermittedTilt → (postTo q d (carrying q d s)).tap.tiltCarried.get q = s.tap.tiltCarried.get q) := by
  cases d with
  | leakWarn f v => exact ⟨fun other => absurd rfl other, fun _ => rfl⟩
  | unpermittedTilt x => exact ⟨fun _ => rfl, fun other => absurd rfl other⟩
  | _ => exact ⟨fun _ => rfl, fun _ => rfl⟩

theorem carrying_frame (q : Port) (d : Detail) (s : State) :
    postTo q d (carrying q d s) = { s with
      ports := (postTo q d (carrying q d s)).ports
      prot := { s.prot with leakCarried := (postTo q d (carrying q d s)).prot.leakCarried }
      tap := { s.tap with tiltCarried := (postTo q d (carrying q d s)).tap.tiltCarried } } := by
  cases d <;> rfl

theorem mem_post (r : PortRec) (d : Detail) (n : Notice) :
    n ∈ (r.post d).notices ↔ n ∈ r.notices ∧ n.detail.kind ≠ d.kind ∨ n = { detail := d, serial := r.nextSerial } := by
  unfold PortRec.post
  simp

/-- Where it holds, its notice is posted first. -/
theorem Reposted.post {q : Port} {d : Detail} {rest : List NoticeKind} {s t : State} (once : d.kind ∉ rest)
    (is : repostDetail q d.kind s = some d) (h : Reposted q rest (postTo q d (carrying q d s)) t) :
    Reposted q (d.kind :: rest) s t := by
  have port := postTo_carrying_port q d s
  have here := carries_carrying q d s
  have elsewhere := fun p other => postTo_carrying_other (p := p) (q := q) d s other
  obtain ⟨leakKept, tiltKept⟩ := carrying_kept q d s
  have whole := carrying_frame q d s
  have carried := here.kept h once
  have reads := fun k other => repostDetail_posted (q := q) (d := d) (k := k) (s := s) other
  obtain ⟨frame, others, leak, tilt, stays, posted, only⟩ := h
  rw [port] at stays only
  refine ⟨?_, fun p other => ?_, fun out => ?_, fun out => ?_, fun n stands out => ?_, fun k mem e told => ?_,
    fun m mem => ?_⟩
  · rw [frame, whole]
  · obtain ⟨a, b, c⟩ := others p other
    obtain ⟨a', b', c'⟩ := elsewhere p other
    exact ⟨a.trans a', b.trans b', c.trans c'⟩
  · rw [List.mem_cons, not_or] at out
    exact (leak out.2).trans (leakKept (Ne.symm out.1))
  · rw [List.mem_cons, not_or] at out
    exact (tilt out.2).trans (tiltKept (Ne.symm out.1))
  · rw [List.mem_cons, not_or] at out
    exact stays n ((mem_post _ d n).mpr (.inl ⟨stands, out.1⟩)) out.2
  · rcases List.mem_cons.mp mem with own | mem
    · rw [own, is] at told
      cases told
      exact ⟨_, stays _ ((mem_post _ d _).mpr (.inr rfl)) once, rfl⟩
    · exact posted k mem e ((reads k fun same => once (same ▸ mem)).trans told)
  · rcases only m mem with old | ⟨listed, told, carries, j, few, serial⟩
    · rcases (mem_post _ d m).mp old with ⟨old, -⟩ | new
      · exact .inl old
      · rw [new]
        exact .inr ⟨List.mem_cons_self, is, carried, 0, Nat.succ_pos _, rfl⟩
    · refine .inr ⟨List.mem_cons_of_mem _ listed, (reads _ fun same => once (same ▸ listed)).symm.trans told, carries,
        j + 1, Nat.succ_lt_succ few, ?_⟩
      rw [serial]
      exact repeat_succ' _ _

theorem foldl_reposted (q : Port) (kinds : List NoticeKind) (once : kinds.Nodup) (s : State) :
    Reposted q kinds s (kinds.foldl (fun t k => repostKind q k t) s) := by
  induction kinds generalizing s with
  | nil => exact .refl q s
  | cons k rest ih =>
    obtain ⟨fresh, alone⟩ := List.nodup_cons.mp once
    rw [List.foldl_cons, repostKind_eq]
    cases is : repostDetail q k s with
    | none => exact (ih alone s).skip is
    | some d =>
      have kind := repostDetail_kind is
      subst kind
      exact (ih alone _).post fresh is

end Sys2Proof.Machine
end


section
/-! ACK-NOTICES (R110, R130, R146, R148, R150). -/

namespace Sys2Proof.Machine

/-! ### What stands when it is posted again -/

theorem otherStanding_some {cond : PerFurnace Bool} {carried : Option Furnace} {f : Furnace}
    (h : otherStanding cond carried = some f) :
    cond.get f = true ∧ (cond.get (otherFurnace f) = true → carried ≠ some f) := by
  obtain ⟨a, b⟩ := cond
  unfold otherStanding at h
  cases a <;> cases b
  · cases h
  · cases h
    exact ⟨rfl, fun both => absurd both (by decide)⟩
  · cases h
    exact ⟨rfl, fun both => absurd both (by decide)⟩
  · cases carried with
    | none =>
      cases h
      exact ⟨rfl, fun _ => by decide⟩
    | some g =>
      cases h
      cases g <;> exact ⟨rfl, fun _ => by decide⟩

theorem otherStanding_of {cond : PerFurnace Bool} {f : Furnace} (stands : cond.get f = true) (carried : Option Furnace) :
    ∃ g, otherStanding cond carried = some g := by
  obtain ⟨a, b⟩ := cond
  cases f with
  | a =>
    obtain rfl : a = true := stands
    cases b <;> exact ⟨_, rfl⟩
  | b =>
    obtain rfl : b = true := stands
    cases a <;> exact ⟨_, rfl⟩

/-- A level notice whose condition holds at a port, with what it carries there (R32, R73, R110, R116, R130, R146). -/
def StandsAt (q : Port) (s : State) : Detail → Prop := fun d =>
  let leak : Furnace → Bool := fun f => (circuitOf s (coilOf f)).leakWarning
  match d with
  | .freeze f number => portFurnace q = some f ∧ ∃ h ∈ heatOf s f, h.freeze = true ∧ h.number = number
  | .cooling states causes =>
    (∃ c, (circuitOf s c).state ≠ .normal)
      ∧ ∀ c, states.get c = (circuitOf s c).state
        ∧ causes.get c = if (circuitOf s c).state = .trip then (circuitOf s c).cause else none
  | .leakWarn f value =>
    leak f = true ∧ (leak (otherFurnace f) = true → s.prot.leakCarried.get q ≠ some f)
      ∧ value = ((chanOf s (if f = .a then .leakA else .leakB)).value).getD 0
  | .unpermittedTilt d =>
    s.tap.unpermitted.get d.furnace = true
      ∧ (s.tap.unpermitted.get (otherFurnace d.furnace) = true →
          ∀ x ∈ s.tap.tiltCarried.get q, x.furnace ≠ d.furnace)
      ∧ d = { furnace := d.furnace, tilt := tiltOf s d.furnace, permitHeld := grantedFor s d.furnace }
  | .breakerStuck => s.shop.stuck = true
  | _ => False

/-- A level kind whose condition holds at a port (R146). -/
def LevelHolds (q : Port) (s : State) : NoticeKind → Prop := fun k =>
  match k with
  | .freeze => ∃ f ∈ portFurnace q, ∃ h ∈ heatOf s f, h.freeze = true
  | .cooling => ∃ c, (circuitOf s c).state ≠ .normal
  | .leakWarn => ∃ f, (circuitOf s (coilOf f)).leakWarning = true
  | .unpermittedTilt => ∃ f, s.tap.unpermitted.get f = true
  | .breakerStuck => s.shop.stuck = true
  | _ => False

theorem circuits_normal_iff (s : State) :
    (s.prot.circuits.coilA.state = .normal ∧ s.prot.circuits.coilB.state = .normal
        ∧ s.prot.circuits.cabinet.state = .normal) ↔ ∀ c, (circuitOf s c).state = .normal := by
  refine ⟨fun ⟨a, b, c⟩ x => ?_, fun all => ⟨all .coilA, all .coilB, all .cabinet⟩⟩
  cases x
  · exact a
  · exact b
  · exact c

theorem deckOf_port {q : Port} {f : Furnace} (deck : portFurnace q = some f) : (if q = .b then .b else .a) = f := by
  cases q <;> cases deck <;> rfl

theorem leakStands_get (s : State) (f : Furnace) : (leakStands s).get f = (circuitOf s (coilOf f)).leakWarning := by
  cases f <;> rfl

theorem repostDetail_stands {q : Port} {k : NoticeKind} {s : State} {d : Detail} (h : repostDetail q k s = some d) :
    StandsAt q s d := by
  unfold repostDetail at h
  split at h
  · obtain ⟨x, heat, posted⟩ := Option.bind_eq_some_iff.mp h
    obtain ⟨f, deck, heat⟩ := Option.bind_eq_some_iff.mp heat
    split at posted
    · next flag =>
      cases posted
      rw [deckOf_port deck]
      exact ⟨deck, x, heat, flag, rfl⟩
    · cases posted
  · split at h
    · cases h
    · next some' =>
      cases h
      rw [circuits_normal_iff, Classical.not_forall] at some'
      refine ⟨some', fun c => ?_⟩
      cases c <;> exact ⟨rfl, rfl⟩
  · obtain ⟨f, standing, posted⟩ := Option.map_eq_some_iff.mp h
    obtain ⟨own, both⟩ := otherStanding_some standing
    rw [leakStands_get] at own both
    rw [← posted]
    refine ⟨own, both, ?_⟩
    cases f <;> rfl
  · obtain ⟨f, standing, posted⟩ := Option.map_eq_some_iff.mp h
    obtain ⟨own, both⟩ := otherStanding_some standing
    rw [← posted]
    exact ⟨own, fun other x carried is => both other (by rw [show s.tap.tiltCarried.get q = some x from carried]; exact congrArg some is),
      rfl⟩
  · split at h
    · next stuck =>
      cases h
      exact stuck
    · cases h
  · cases h

theorem repostDetail_of_level {q : Port} {k : NoticeKind} {s : State} (h : LevelHolds q s k) :
    ∃ d, repostDetail q k s = some d := by
  unfold repostDetail
  cases k with
  | freeze =>
    obtain ⟨f, deck, x, heat, flag⟩ := h
    rw [show portFurnace q = some f from deck, Option.bind_some, show heatOf s f = some x from heat, Option.bind_some,
      if_pos flag]
    exact ⟨_, rfl⟩
  | cooling =>
    obtain ⟨c, other⟩ := h
    exact ⟨_, if_neg fun all => other ((circuits_normal_iff s).mp all c)⟩
  | leakWarn =>
    obtain ⟨f, stands⟩ := h
    obtain ⟨g, is⟩ := otherStanding_of ((leakStands_get s f).trans stands) (s.prot.leakCarried.get q)
    exact ⟨_, by rw [is]; rfl⟩
  | unpermittedTilt =>
    obtain ⟨f, stands⟩ := h
    obtain ⟨g, is⟩ := otherStanding_of stands ((s.tap.tiltCarried.get q).map TiltDetail.furnace)
    exact ⟨_, by rw [is]; rfl⟩
  | breakerStuck => exact ⟨_, if_pos h⟩
  | _ => exact h.elim

/-! ### The request -/

section

variable {q : Port} {body : List Byte} {s : State} {kinds : List (NoticeKind × Nat)}

theorem handleAckNotices_badKind (out : ∃ x ∈ ackPairs body, x.1 < 1 ∨ 20 < x.1) :
    handleAckNotices q body s = (s, replyRefused .badKind) := by
  unfold handleAckNotices
  rw [show ackNamed body = none from (namedKinds_none_iff _).mpr out]
  rfl

theorem ackNamed_some (inside : ∀ x ∈ ackPairs body, 1 ≤ x.1 ∧ x.1 ≤ 20) : ∃ kinds, ackNamed body = some kinds := by
  refine Option.ne_none_iff_exists'.mp fun none' => ?_
  obtain ⟨x, mem, out⟩ := (namedKinds_none_iff _).mp none'
  have := inside x mem
  omega

theorem handleAckNotices_busy (known : ackNamed body = some kinds) (gap : (s.ports.get q).gap.isSome = true) :
    handleAckNotices q body s = (s, replyRetry .busy) := by
  unfold handleAckNotices
  rw [known]
  exact if_pos gap

theorem handleAckNotices_taken (known : ackNamed body = some kinds) (gap : (s.ports.get q).gap = none) :
    handleAckNotices q body s = ackTaken q kinds s := by
  unfold handleAckNotices
  rw [known]
  exact if_neg (by rw [gap]; decide)

/-- A naming as the pairs of the body have it. -/
theorem any_named_iff (n : Notice) :
    ((kinds.map fun x => (x.1.code, x.2)).any fun x => x.1 == n.detail.kind.code && (x.2 == 0 || x.2 == n.serial)) = true
      ↔ ∃ p ∈ kinds, Names p n := by
  simp only [List.any_map, List.any_eq_true, Function.comp_apply, Bool.and_eq_true, Bool.or_eq_true, beq_iff_eq]
  refine exists_congr fun p => and_congr_right fun _ => and_congr_left fun _ => ⟨NoticeKind.code_inj, fun e => by rw [e]⟩

/-- The record that the clearing leaves, put back. -/
def clearedState (q : Port) (kinds : List (NoticeKind × Nat)) (s : State) : State :=
  setPort q (clearKinds (s.ports.get q) kinds).1 s

/-- The level kinds cleared, posted again. -/
def repostedState (q : Port) (kinds : List (NoticeKind × Nat)) (s : State) : State :=
  (clearKinds (s.ports.get q) kinds).2.2.foldl (fun t k => repostKind q k t) (clearedState q kinds s)

theorem repostedState_reposted :
    Reposted q (clearKinds (s.ports.get q) kinds).2.2 (clearedState q kinds s) (repostedState q kinds s) :=
  foldl_reposted q _ (clearKinds_clearedBy kinds _).once _

theorem clearedState_port : (clearedState q kinds s).ports.get q = (clearKinds (s.ports.get q) kinds).1 :=
  PerPort.get_set_same _ _ _

/-- A kind that is posted again has been named with a serial that stood. -/
theorem cleared_of_mem {k : NoticeKind} (mem : k ∈ (clearKinds (s.ports.get q) kinds).2.2) :
    ((s.ports.get q).notices.any fun n => n.detail.kind == k
      && (kinds.map fun x => (x.1.code, x.2)).any fun x =>
        x.1 == n.detail.kind.code && (x.2 == 0 || x.2 == n.serial)) = true := by
  obtain ⟨n, stands, kind, named⟩ := (clearKinds_clearedBy kinds _).named k mem
  refine List.any_eq_true.mpr ⟨n, stands, ?_⟩
  rw [Bool.and_eq_true, beq_iff_eq]
  exact ⟨kind, (any_named_iff n).mpr named⟩

/-- What becomes of an entry that stood: one not named stays; one named is gone, and a level kind that holds is posted. -/
theorem repostedState_entry (one : ((s.ports.get q).notices.map fun n => n.detail.kind).Nodup) {n : Notice}
    (stands : n ∈ (s.ports.get q).notices) :
    (¬ (∃ p ∈ kinds, Names p n) → n ∈ ((repostedState q kinds s).ports.get q).notices)
      ∧ ((∃ p ∈ kinds, Names p n) →
        (LevelHolds q s n.detail.kind →
          ∃ m ∈ ((repostedState q kinds s).ports.get q).notices, m.detail.kind = n.detail.kind)
        ∧ ∀ m ∈ ((repostedState q kinds s).ports.get q).notices, m.detail.kind = n.detail.kind →
          StandsAt q s m.detail ∧ Carries q m.detail (repostedState q kinds s)
            ∧ ∃ k < kinds.length, m.serial = Nat.repeat nextSerialAfter k (s.ports.get q).nextSerial) := by
  have cleared := clearKinds_clearedBy kinds (s.ports.get q)
  have posted := repostedState_reposted (q := q) (kinds := kinds) (s := s)
  refine ⟨fun unnamed => ?_, fun named => ⟨fun holds => ?_, fun m mem kind => ?_⟩⟩
  · have stays : n.detail.kind ∉ (clearKinds (s.ports.get q) kinds).2.2 := fun mem => by
      obtain ⟨m, stands', kind, names⟩ := cleared.named _ mem
      obtain rfl : m = n := one_entry_a_kind one m stands' n stands kind
      exact unnamed names
    refine posted.stays n ?_ stays
    rw [clearedState_port]
    exact (cleared.left n).mpr ⟨stands, stays⟩
  · obtain ⟨d, is⟩ := repostDetail_of_level (q := q) (k := n.detail.kind) (s := clearedState q kinds s) holds
    obtain ⟨m, mem, detail⟩ := posted.posted _ (clearKinds_named kinds _ one stands named) d is
    exact ⟨m, mem, by rw [detail]; exact repostDetail_kind is⟩
  · have gone := clearKinds_named kinds _ one stands named
    rcases posted.only m mem with old | ⟨-, is, carries, k, few, serial⟩
    · rw [clearedState_port] at old
      exact absurd (kind ▸ gone) ((cleared.left m).mp old).2
    · refine ⟨repostDetail_stands (s := clearedState q kinds s) is, carries, k, Nat.lt_of_lt_of_le few cleared.few, ?_⟩
      rw [serial, clearedState_port, cleared.frame]

theorem ackTaken_eq :
    ackTaken q kinds s =
      (setPort q { (repostedState q kinds s).ports.get q with gap := some 0 } (repostedState q kinds s),
        replyDone (kindBytes ((repostedState q kinds s).ports.get q) (clearKinds (s.ports.get q) kinds).2.1
          ++ kindBytes ((repostedState q kinds s).ports.get q) (clearKinds (s.ports.get q) kinds).2.2)) := rfl

/-- The port's record with the gap, the request and its answer on it. -/
theorem putAnswer_gap_port (fr : Frame) (r : Reply) (t : State) :
    (putAnswer q fr r (setPort q { t.ports.get q with gap := some 0 } t)).ports.get q =
      { t.ports.get q with gap := some 0, inHand := some fr, answer := some r } := by
  unfold putAnswer setPort
  simp

theorem putAnswer_gap_other (fr : Frame) (r : Reply) (t : State) {p : Port} (other : p ≠ q) :
    (putAnswer q fr r (setPort q { t.ports.get q with gap := some 0 } t)).ports.get p = t.ports.get p := by
  unfold putAnswer setPort
  simp [PerPort.get_set_other _ _ other]

end

/-- Settles O28: the entries named are cleared, the level kinds among them that hold are posted again, and the gap
starts. -/
theorem ackNoticesClearsWhatWasSeen : Obligations.AckNoticesClearsWhatWasSeen := by
  intro q tag body s ready triples least most pairs named cleared leak stands levelHolds
  have fits : RequestKind.ackNotices.lengthOk body.length = true := by
    simp [RequestKind.lengthOk, triples, least, most]
  have may : permitted .ackNotices q body = true := rfl
  refine ⟨fun out => ?_, fun inside gap => ?_, fun inside gap => ?_⟩
  · exact request_unchanged .ackNotices q tag body s ready fits may _ (handleAckNotices_badKind out)
  · obtain ⟨kinds, known⟩ := ackNamed_some inside
    refine request_unchanged .ackNotices q tag body s ready fits may _ (handleAckNotices_busy known ?_)
    exact (congrArg (fun r : PortRec => r.gap.isSome) (PerPort.get_set_same _ _ _)).trans gap
  · obtain ⟨kinds, known⟩ := ackNamed_some inside
    have pairs_eq : kinds.map (fun x => (x.1.code, x.2)) = pairs := namedKinds_some known
    have port : (dropAssembly q s).ports.get q = { s.ports.get q with assembly := [] } := PerPort.get_set_same _ _ _
    have notices : ((dropAssembly q s).ports.get q).notices = (s.ports.get q).notices := by rw [port]
    have serial : ((dropAssembly q s).ports.get q).nextSerial = (s.ports.get q).nextSerial := by rw [port]
    have taken := (handleAckNotices_taken known (congrArg PortRec.gap port |>.trans gap)).trans
      (ackTaken_eq (q := q) (s := dropAssembly q s))
    obtain ⟨frame, others, leakKept, tiltKept, -, -, -⟩ := repostedState_reposted (q := q) (kinds := kinds) (s := dropAssembly q s)
    have names : ∀ n, named n = true ↔ ∃ p ∈ kinds, Names p n := fun n => by
      rw [← any_named_iff, pairs_eq]
    have clears : ∀ k, cleared k = false → k ∉ (clearKinds ((dropAssembly q s).ports.get q) kinds).2.2 := fun k out mem => by
      have is := cleared_of_mem mem
      rw [notices, pairs_eq] at is
      exact Bool.false_ne_true (out.symm.trans is)
    have entry := fun n one stands => repostedState_entry (q := q) (kinds := kinds) (s := dropAssembly q s) (n := n) one stands
    have lists := clearKinds_lists kinds ((dropAssembly q s).ports.get q)
    rw [notices] at entry lists
    rw [pairs_eq] at lists
    rw [serial] at entry
    rw [kindBytes_listed, kindBytes_listed] at taken
    have run := request_runs (k := .ackNotices) (tag := tag) ready fits may taken
    generalize (clearKinds ((dropAssembly q s).ports.get q) kinds).2.1 = kept at *
    generalize (clearKinds ((dropAssembly q s).ports.get q) kinds).2.2 = gone at *
    generalize repostedState q kinds (dropAssembly q s) = r at *
    have own := putAnswer_gap_port (q := q) (requestFrame .ackNotices tag body) (replyDone
      (kindsListed (r.ports.get q).notices (kept.map NoticeKind.code)
        ++ kindsListed (r.ports.get q).notices (gone.map NoticeKind.code))) r
    have away := fun p other => putAnswer_gap_other (q := q) (requestFrame .ackNotices tag body) (replyDone
      (kindsListed (r.ports.get q).notices (kept.map NoticeKind.code)
        ++ kindsListed (r.ports.get q).notices (gone.map NoticeKind.code))) r (p := p) other
    refine ⟨_, run, ?_, fun p other => ?_, fun out => ?_, fun out => ?_, ?_, ?_, ?_, ?_, fun law => ?_, fun law n mem => ?_⟩
    · exact congrArg (fun x : State => { x with ports := (putAnswer q (requestFrame .ackNotices tag body) (replyDone
        (kindsListed (r.ports.get q).notices (kept.map NoticeKind.code)
          ++ kindsListed (r.ports.get q).notices (gone.map NoticeKind.code)))
        (setPort q { r.ports.get q with gap := some 0 } r)).ports }) frame
    · obtain ⟨ports, leak, tilt⟩ := others p other
      have before : (clearedState q kinds (dropAssembly q s)).ports.get p = s.ports.get p :=
        (PerPort.get_set_other _ _ other).trans (PerPort.get_set_other _ _ other)
      exact ⟨(away p other).trans (ports.trans before), leak, tilt⟩
    · exact leakKept (clears _ out)
    · exact tiltKept (clears _ out)
    · rw [own]
    · unfold State.attn
      rw [own]
      rfl
    · rw [own]
      exact ⟨_, rfl, rfl, rfl⟩
    · rw [own]
    · obtain ⟨one, -⟩ := law
      obtain ⟨left, went⟩ := lists one
      unfold Answers
      rw [own, ← left, ← went]
      rfl
    · obtain ⟨one, -⟩ := law
      obtain ⟨stays, again⟩ := entry n one mem
      rw [own]
      refine ⟨fun unnamed => stays fun is => ?_, fun is => ?_⟩
      · rw [(names n).mpr is] at unnamed
        cases unnamed
      · obtain ⟨posts, only⟩ := again ((names n).mp is)
        have few : kinds.length = pairs.length := by rw [← pairs_eq, List.length_map]
        rw [few] at only
        exact ⟨posts, only⟩

end Sys2Proof.Machine
end


section
/-! The end of the settings load: the heats fitted to the settings and caught up (R37, R157). -/

namespace Sys2Proof.Machine

/-! ### One heat -/

/-- A heat fitted to the settings as loaded (R157). -/
def fittedAs (s : State) (h : Heat) : Heat :=
  broughtTo s (if 100 ≤ h.bathMass ∧ h.bathMass * cp s ≤ h.accumulator.natAbs then 0 else h.accumulator) h

/-- A fitted heat after its catch-up, before R10 (R37). -/
def caughtAs (s : State) (f : Furnace) (gap : Nat) (h : Heat) : Heat :=
  let fit := fittedAs s h
  let lost := lossKw s f * gap
  match h.state, fit.estimate with
  | .melting, _ => { fit with remaining := min h.totalMelt (h.remaining + lost) }
  | _, some e => if h.bathMass < 100 then fit else dividedFrom s e (fit.accumulator - (lost : Int) * 1000) fit
  | _, none => fit

section

variable {s : State} {f : Furnace} {h : Heat}

theorem step_le_iff (mass heat : Nat) (acc : Int) :
    (mass : Int) * (heat : Int) ≤ (acc.natAbs : Int) ↔ mass * heat ≤ acc.natAbs := by
  rw [← Int.natCast_mul]
  exact Int.ofNat_le

/-- Without an estimate the accumulator and the hold target are fitted alone. -/
theorem fitHeat_none (none' : h.estimate = none) : fitHeat s h = fittedAs s h := by
  unfold fitHeat fittedAs broughtTo stepOf
  by_cases big : 100 ≤ h.bathMass ∧ h.bathMass * cp s ≤ h.accumulator.natAbs
  · have same := big
    rw [← step_le_iff] at same
    simp only [none', if_pos big, if_pos same, Option.isSome_none, Option.map_none, Option.any_none, Nat.max_comm]
    simp
  · have same := big
    rw [← step_le_iff] at same
    simp only [none', if_neg big, if_neg same, Option.isSome_none, Option.map_none, Option.any_none, Nat.max_comm]
    simp

/-- An estimate below LIQUIDUS is set to it, with an accumulator of 0. -/
theorem fitHeat_below {e : Nat} (some' : h.estimate = some e) (low : e < liquidus s) : fitHeat s h = fittedAs s h := by
  unfold fitHeat fittedAs broughtTo stepOf
  simp only [some', low, if_true]
  split
  · simp [evalFreeze, freezeOf, low, Nat.le_of_lt low, Nat.max_comm]
  · simp [evalFreeze, freezeOf, low, Nat.le_of_lt low, Nat.max_comm]

theorem fitHeat_above {e : Nat} (some' : h.estimate = some e) (low : ¬ e < liquidus s) : fitHeat s h = fittedAs s h := by
  unfold fitHeat fittedAs broughtTo stepOf
  by_cases big : 100 ≤ h.bathMass ∧ h.bathMass * cp s ≤ h.accumulator.natAbs
  · have same := big
    rw [← step_le_iff] at same
    simp only [some', if_pos big, if_pos same, if_neg low]
    simp [evalFreeze, freezeOf, low, some', Nat.not_lt.mp low, Nat.max_comm]
  · have same := big
    rw [← step_le_iff] at same
    simp only [some', if_neg big, if_neg same, if_neg low]
    simp [evalFreeze, freezeOf, low, some', Nat.not_lt.mp low, Nat.max_comm]

theorem fitHeat_eq : fitHeat s h = fittedAs s h := by
  cases estimate : h.estimate with
  | none => exact fitHeat_none estimate
  | some e =>
    by_cases low : e < liquidus s
    · exact fitHeat_below estimate low
    · exact fitHeat_above estimate low

theorem fittedAs_fields :
    (fittedAs s h).state = h.state ∧ (fittedAs s h).estimate.isSome = h.estimate.isSome
      ∧ (fittedAs s h).number = h.number := by
  refine ⟨rfl, ?_, rfl⟩
  unfold fittedAs broughtTo
  rw [Option.isSome_map]

theorem catchUpHeat_eq (gap : Nat) : catchUpHeat s f gap (fittedAs s h) = caughtAs s f gap h := by
  have state : (fittedAs s h).state = h.state := rfl
  have mass : (fittedAs s h).bathMass = h.bathMass := rfl
  unfold caughtAs
  dsimp only
  split
  · next melts =>
    unfold catchUpHeat
    exact if_pos melts
  · next e estimate cold =>
    unfold catchUpHeat
    rw [if_neg (by rw [state]; exact cold), mass]
    by_cases light : h.bathMass < 100
    · rw [if_pos light, if_neg fun both => both.2 light]
    · rw [if_neg light, if_pos ⟨by rw [estimate]; rfl, light⟩, advanced_freeze (h := fittedAs s h) _ estimate light]
      congr 1
      omega
  · next estimate cold =>
    unfold catchUpHeat
    rw [if_neg (by rw [state]; exact cold), if_neg fun both => by rw [estimate] at both; cases both.1]

theorem dividedFrom_kept (e : Nat) (sum : Int) :
    (dividedFrom s e sum h).state = h.state ∧ (dividedFrom s e sum h).estimate.isSome = true
      ∧ (dividedFrom s e sum h).number = h.number := ⟨rfl, rfl, rfl⟩

theorem caughtAs_fields (gap : Nat) :
    (caughtAs s f gap h).state = h.state ∧ (caughtAs s f gap h).estimate.isSome = h.estimate.isSome
      ∧ (caughtAs s f gap h).number = h.number := by
  obtain ⟨state, estimate, number⟩ := fittedAs_fields (s := s) (h := h)
  unfold caughtAs
  dsimp only
  split
  · exact ⟨state, estimate, number⟩
  · next e is _ =>
    split
    · exact ⟨state, estimate, number⟩
    · obtain ⟨a, b, c⟩ := dividedFrom_kept (s := s) (h := fittedAs s h) e
        ((fittedAs s h).accumulator - (lossKw s f * gap : Nat) * 1000)
      exact ⟨a.trans state, b.trans (by rw [← estimate, is]; rfl), c.trans number⟩
  · exact ⟨state, estimate, number⟩

theorem heatClass_congr {x y : Heat} (state : x.state = y.state) (estimate : x.estimate.isSome = y.estimate.isSome) :
    heatClass x = heatClass y := by
  unfold heatClass
  rw [state, estimate]

/-- The fit and the catch-up leave the class, so R10 alone can move it. -/
theorem caughtAs_class (gap : Nat) : heatClass (caughtAs s f gap h) = heatClass (fittedAs s h) := by
  obtain ⟨state, estimate, -⟩ := caughtAs_fields (s := s) (f := f) (h := h) gap
  obtain ⟨state', estimate', -⟩ := fittedAs_fields (s := s) (h := h)
  exact heatClass_congr (state.trans state'.symm) (estimate.trans estimate'.symm)

/-- The settings alone are read. -/
theorem fitted_congr {t : State} (working : t.sett.working = s.sett.working) : fittedAs t h = fittedAs s h := by
  unfold fittedAs broughtTo cp liquidus freezeMargin setting
  rw [working]

theorem caught_congr {t : State} (working : t.sett.working = s.sett.working) (gap : Nat) :
    caughtAs t f gap h = caughtAs s f gap h := by
  unfold caughtAs
  rw [fitted_congr working]
  unfold dividedFrom lossKw cp liquidus freezeMargin setting
  rw [working]

end

/-! ### The slots -/

section

variable {s : State} {f : Furnace}

theorem editHeat_slot_other {g : Furnace} (edit : Heat → Heat) (other : g ≠ f) :
    (editHeat f edit s).heat.slots.get g = s.heat.slots.get g := by
  unfold editHeat
  split
  · exact PerFurnace.get_set_other _ _ other
  · rfl

theorem editHeat_slot {h : Heat} (edit : Heat → Heat) (heat : heatOf s f = some h) :
    (editHeat f edit s).heat.slots.get f = { s.heat.slots.get f with slot := .heat (edit h) } := by
  rw [editHeat_some edit heat]
  exact PerFurnace.get_set_same _ _ _

theorem catchUp_slot_other {g : Furnace} (other : g ≠ f) : (catchUp f s).heat.slots.get g = s.heat.slots.get g := by
  unfold catchUp
  split
  · rfl
  · exact (PerFurnace.get_set_other _ _ other).trans (PerFurnace.get_set_other _ _ other)

theorem catchUp_slot {h : Heat} (heat : heatOf s f = some h) :
    (catchUp f s).heat.slots.get f =
        { s.heat.slots.get f with
          slot := .heat (restamp (now s) h
            (liquidEval s (catchUpHeat s f (now s - (s.heat.slots.get f).stamp) h)))
          stamp := now s }
      ∧ (catchUp f s).clock.estDue.get f = false := by
  unfold catchUp
  rw [heat]
  dsimp only
  refine ⟨?_, PerFurnace.get_set_same _ _ _⟩
  refine (PerFurnace.get_set_same _ _ _).trans ?_
  unfold setHeat setSlot setFurnaceSlot
  simp only [PerFurnace.get_set_same]
  rfl

theorem catchUp_none (none' : heatOf s f = none) : catchUp f s = s := by
  unfold catchUp
  rw [none']

theorem editHeat_frame (edit : Heat → Heat) :
    editHeat f edit s = { s with heat := { s.heat with slots := (editHeat f edit s).heat.slots } } := by
  unfold editHeat
  split <;> rfl

theorem catchUp_frame :
    catchUp f s = { s with
      clock := { s.clock with estDue := (catchUp f s).clock.estDue }
      heat := { s.heat with slots := (catchUp f s).heat.slots } } := by
  unfold catchUp
  split <;> rfl

theorem catchUp_estDue_other {g : Furnace} (other : g ≠ f) : (catchUp f s).clock.estDue.get g = s.clock.estDue.get g := by
  unfold catchUp
  split
  · rfl
  · exact PerFurnace.get_set_other _ _ other

end

end Sys2Proof.Machine
end


section
/-! The end of the settings load: what the blocks start from (R65, R91, R93, R101, R119, R157). -/

namespace Sys2Proof.Machine

section

variable {good : Bool} {s : State}

/-! ### The state with the heats caught up -/

/-- The working copy as the load leaves it (R157). -/
def loadedWorking (good : Bool) (s : State) : List Nat :=
  raiseCapacities (bathMasses s) (if good then loadValues s.sett.block.values (bathMasses s) else Config.settingDefaults)

/-- The SETTINGS notice of the load (R157). -/
def loadedNotice (good : Bool) (s : State) : Detail :=
  .settings (if good then .loaded else .defaults) none 0 0
    (if good then clampedCount s.sett.block.values (loadValues s.sett.block.values (bathMasses s)) else 0)

/-- The hold reasons completed as the load ends (R65). -/
def loadedReasons (good : Bool) (s : State) : HoldReasons :=
  { s.shop.reasons with
    settingsDefault := !good
    afterLoss := !s.shop.reasons.coldStart && decide (valueIn (loadedWorking good s) 52 ≠ 1) }

/-- The shop state derived as the load ends (R65). -/
def loadedShopState (good : Bool) (s : State) : ShopState :=
  if s.lines.breakerClosed then (if anyReason (loadedReasons good s) then .held else .run) else .supplyOff

theorem fillWorking_eq : fillWorking good s = post (loadedNotice good s) (setWorking (loadedWorking good s) s) := by
  cases good <;> rfl

/-- The state with the working copy filled and the heats fitted to it. -/
def loadFitted (good : Bool) (s : State) : State :=
  editHeat .b (fitHeat (fillWorking good s)) (editHeat .a (fitHeat (fillWorking good s)) (fillWorking good s))

/-- The state with the reasons completed. -/
def loadCompleted (good : Bool) (s : State) : State := completeReasons good (memoryIdle (loadFitted good s))

theorem loadBegun_eq : loadBegun good s = catchUp .b (catchUp .a (loadCompleted good s)) := rfl

theorem loadFitted_frame :
    loadFitted good s = { fillWorking good s with heat := { s.heat with slots := (loadFitted good s).heat.slots } } := by
  have first := editHeat_frame (f := .a) (s := fillWorking good s) (fitHeat (fillWorking good s))
  have second := editHeat_frame (f := .b) (s := editHeat .a (fitHeat (fillWorking good s)) (fillWorking good s))
    (fitHeat (fillWorking good s))
  have heat := fillWorking_heat good s
  unfold loadFitted
  generalize editHeat .b (fitHeat (fillWorking good s)) (editHeat .a (fitHeat (fillWorking good s)) (fillWorking good s)) = y
    at second
  generalize editHeat .a (fitHeat (fillWorking good s)) (fillWorking good s) = x at first second
  rw [second, first, heat]

theorem afterLossAuto_not (s : State) : (!afterLossAuto s) = decide (valueIn s.sett.working 52 ≠ 1) := by
  unfold afterLossAuto
  rw [show setting s 52 = valueIn s.sett.working 52 from rfl]
  by_cases auto : valueIn s.sett.working 52 = 1
  · simp [auto]
  · simp [auto]

theorem loadCompleted_frame :
    loadCompleted good s = { s with
      heat := { s.heat with slots := (loadFitted good s).heat.slots }
      shop := { s.shop with reasons := loadedReasons good s, state := loadedShopState good s }
      ports := (loadCompleted good s).ports
      sett := { s.sett with memory := .idle, working := loadedWorking good s } } := by
  have frame := loadFitted_frame (good := good) (s := s)
  rw [fillWorking_eq] at frame
  unfold loadCompleted
  generalize loadFitted good s = x at frame
  unfold completeReasons
  rw [afterLossAuto_not, frame]
  rfl

theorem loadBegun_frame :
    loadBegun good s = { s with
      clock := { s.clock with estDue := (loadBegun good s).clock.estDue }
      heat := { s.heat with slots := (loadBegun good s).heat.slots }
      shop := { s.shop with reasons := loadedReasons good s, state := loadedShopState good s }
      ports := (loadCompleted good s).ports
      sett := { s.sett with memory := .idle, working := loadedWorking good s } } := by
  have begun := loadCompleted_frame (good := good) (s := s)
  have first := catchUp_frame (f := .a) (s := loadCompleted good s)
  have second := catchUp_frame (f := .b) (s := catchUp .a (loadCompleted good s))
  rw [loadBegun_eq]
  generalize catchUp .b (catchUp .a (loadCompleted good s)) = y at second
  generalize catchUp .a (loadCompleted good s) = x at first second
  generalize loadCompleted good s = w at begun first
  rw [second, first, begun]

/-! ### The heats -/

section

variable {f : Furnace} {h : Heat}

theorem loadFitted_slot (heat : heatOf s f = some h) :
    (loadFitted good s).heat.slots.get f = { s.heat.slots.get f with slot := .heat (fittedAs (fillWorking good s) h) } := by
  have same : (fillWorking good s).heat.slots.get f = s.heat.slots.get f := by rw [fillWorking_heat]
  have here : heatOf (fillWorking good s) f = some h := (heatOf_congr (by rw [same])).trans heat
  unfold loadFitted
  cases f with
  | a => rw [editHeat_slot_other _ (by decide), editHeat_slot _ here, same, fitHeat_eq]
  | b =>
    have kept := editHeat_slot_other (f := .a) (g := .b) (s := fillWorking good s) (fitHeat (fillWorking good s)) (by decide)
    have there := (heatOf_congr (congrArg FurnaceSlot.slot kept)).trans here
    rw [editHeat_slot _ there, kept, same, fitHeat_eq]

theorem loadFitted_none (none' : heatOf s f = none) : (loadFitted good s).heat.slots.get f = s.heat.slots.get f := by
  have same : (fillWorking good s).heat.slots.get f = s.heat.slots.get f := by rw [fillWorking_heat]
  have here : heatOf (fillWorking good s) f = none := (heatOf_congr (by rw [same])).trans none'
  unfold loadFitted
  cases f with
  | a => rw [editHeat_slot_other _ (by decide), editHeat_none _ here, same]
  | b =>
    have kept := editHeat_slot_other (f := .a) (g := .b) (s := fillWorking good s) (fitHeat (fillWorking good s)) (by decide)
    have there := (heatOf_congr (congrArg FurnaceSlot.slot kept)).trans here
    rw [editHeat_none _ there, kept, same]

/-- One heat caught up, from a state with the settings as loaded (R37). -/
theorem catchUp_moved {x : State} (working : x.sett.working = (fillWorking good s).sett.working)
    (second : x.clock.shopSeconds = s.clock.shopSeconds)
    (slot : x.heat.slots.get f = { s.heat.slots.get f with slot := .heat (fittedAs (fillWorking good s) h) }) :
    (catchUp f x).clock.estDue.get f = false
      ∧ ∃ new, (catchUp f x).heat.slots.get f
          = { s.heat.slots.get f with slot := .heat new, stamp := s.clock.shopSeconds }
        ∧ HeatMoved s.clock.shopSeconds
            (caughtAs (fillWorking good s) f (s.clock.shopSeconds - (s.heat.slots.get f).stamp) h) new
        ∧ (new.state = .tapReady → h.state = .tapReady) := by
  have heat : heatOf x f = some (fittedAs (fillWorking good s) h) := by
    unfold heatOf slotOf
    rw [slot]
  obtain ⟨caught, due⟩ := catchUp_slot heat
  have gap : now x - (x.heat.slots.get f).stamp = s.clock.shopSeconds - (s.heat.slots.get f).stamp := by
    rw [slot, show now x = x.clock.shopSeconds from rfl, second]
  have moved := restamp_moved x (fittedAs x h)
    (caughtAs x f (s.clock.shopSeconds - (s.heat.slots.get f).stamp) h) (caughtAs_class _)
  rw [gap, ← fitted_congr (s := fillWorking good s) (t := x) working, catchUpHeat_eq, slot,
    show now x = x.clock.shopSeconds from rfl, second] at caught
  rw [caught_congr working, fitted_congr working] at moved caught
  rw [show now x = x.clock.shopSeconds from rfl, second] at moved
  refine ⟨due, _, caught, moved, fun ready => ?_⟩
  rw [restamp_state] at ready
  exact (caughtAs_fields _).1.symm.trans (liquidEval_tapReady _ _ ready)

theorem loadCompleted_slots : (loadCompleted good s).heat.slots.get f = (loadFitted good s).heat.slots.get f := by
  rw [loadCompleted_frame]

/-- An open heat at the end of the load: fitted, caught up, and evaluated by R10. -/
theorem loadBegun_slot (heat : heatOf s f = some h) :
    (loadBegun good s).clock.estDue.get f = false
      ∧ ∃ new, (loadBegun good s).heat.slots.get f
          = { s.heat.slots.get f with slot := .heat new, stamp := s.clock.shopSeconds }
        ∧ HeatMoved s.clock.shopSeconds
            (caughtAs (fillWorking good s) f (s.clock.shopSeconds - (s.heat.slots.get f).stamp) h) new
        ∧ (new.state = .tapReady → h.state = .tapReady) := by
  have slot := loadCompleted_slots.trans (loadFitted_slot (good := good) heat)
  have working : (loadCompleted good s).sett.working = (fillWorking good s).sett.working := by
    rw [loadCompleted_frame, fillWorking_eq]
    rfl
  have second : (loadCompleted good s).clock.shopSeconds = s.clock.shopSeconds := by rw [loadCompleted_frame]
  rw [loadBegun_eq]
  cases f with
  | a =>
    rw [catchUp_slot_other (by decide), catchUp_estDue_other (by decide)]
    exact catchUp_moved working second slot
  | b =>
    have first := catchUp_frame (f := .a) (s := loadCompleted good s)
    have other := catchUp_slot_other (f := .a) (g := .b) (s := loadCompleted good s) (by decide)
    refine catchUp_moved ?_ ?_ (other.trans slot)
    · rw [first]
      exact working
    · rw [first]
      exact second

theorem loadBegun_none (none' : heatOf s f = none) : (loadBegun good s).heat.slots.get f = s.heat.slots.get f := by
  have slot := loadCompleted_slots.trans (loadFitted_none (good := good) none')
  have closed : heatOf (loadCompleted good s) f = none := (heatOf_congr (by rw [slot])).trans none'
  rw [loadBegun_eq]
  cases f with
  | a => rw [catchUp_slot_other (by decide), catchUp_none closed, slot]
  | b =>
    have other := catchUp_slot_other (f := .a) (g := .b) (s := loadCompleted good s) (by decide)
    have closed' : heatOf (catchUp .a (loadCompleted good s)) .b = none := (heatOf_congr (by rw [other])).trans closed
    rw [catchUp_none closed', other, slot]

end

/-! ### The notices before the blocks start -/

theorem catchUp_ports (f : Furnace) (s : State) : (catchUp f s).ports = s.ports := by rw [catchUp_frame]

theorem completeReasons_told (good : Bool) (s : State) :
    Noticed (.shopState (completeReasons good s).shop.state (completeReasons good s).shop.reasons .reset)
      (completeReasons good s) := post_noticed _ _

theorem completeReasons_noted (good : Bool) (s : State) : PortsNoted [.shopState] s (completeReasons good s) :=
  PortsNoted.trans (.of_eq rfl) (post_noted _ _)

theorem loadBegun_told :
    Noticed (loadedNotice good s) (loadBegun good s)
      ∧ Noticed (.shopState (loadedShopState good s) (loadedReasons good s) .reset) (loadBegun good s) := by
  have ports : (loadBegun good s).ports = (loadCompleted good s).ports := by
    rw [loadBegun_eq, catchUp_ports, catchUp_ports]
  have fitted : Noticed (loadedNotice good s) (memoryIdle (loadFitted good s)) := by
    unfold Noticed
    show ∀ q, _ → ∃ n ∈ ((loadFitted good s).ports.get q).notices, _
    rw [loadFitted_frame, fillWorking_eq]
    exact post_noticed _ _
  have shop : (loadCompleted good s).shop
      = { s.shop with reasons := loadedReasons good s, state := loadedShopState good s } := by rw [loadCompleted_frame]
  have completed := completeReasons_told good (memoryIdle (loadFitted good s))
  rw [show completeReasons good (memoryIdle (loadFitted good s)) = loadCompleted good s from rfl, shop] at completed
  unfold Noticed
  rw [ports]
  exact ⟨fitted.keep (completeReasons_noted good _) (by simp [loadedNotice, Detail.kind]), completed⟩

/-! ### FREEZE -/

/-- A notice stands where another of its kind goes to other ports. -/
theorem Noticed.post_elsewhere {d e : Detail} {s : State} (h : Noticed d s)
    (apart : ∀ q, d.addressedTo q = true → e.addressedTo q = false) : Noticed d (post e s) := fun q goes => by
  obtain ⟨n, stands, is⟩ := h q goes
  refine ⟨n, ?_, is⟩
  unfold post
  rw [PerPort.get_mapPort, apart q goes]
  exact stands

theorem postFreeze_noted (f : Furnace) (s : State) :
    postFreeze f s = { s with ports := (postFreeze f s).ports } ∧ PortsNoted [.freeze] s (postFreeze f s) := by
  unfold postFreeze
  split
  · split
    · exact ⟨rfl, post_noted _ _⟩
    · exact ⟨rfl, .refl _ s⟩
  · exact ⟨rfl, .refl _ s⟩

theorem postFreeze_told {f : Furnace} {h : Heat} {s : State} (heat : heatOf s f = some h) (flag : h.freeze = true) :
    Noticed (.freeze f h.number) (postFreeze f s) := by
  unfold postFreeze
  rw [heat]
  dsimp only
  rw [if_pos flag]
  exact post_noticed _ _

theorem deckPort_inj {f g : Furnace} (same : deckPort g = deckPort f) : g = f := by
  cases f with
  | a =>
    cases g with
    | a => rfl
    | b => cases same
  | b =>
    cases g with
    | a => cases same
    | b => rfl

/-- What goes to one deck goes not to the other. -/
theorem otherDeck {f g : Furnace} {q : Port} (goes : (q == deckPort f) = true) (other : g ≠ f) :
    (q == deckPort g) = false :=
  beq_false_of_ne fun there => other (deckPort_inj (there.symm.trans (eq_of_beq goes)))

/-- The FREEZE of one deck stands while that of the other is posted. -/
theorem Noticed.postFreeze_other {f g : Furnace} {n : Nat} {s : State} (h : Noticed (.freeze f n) s) (other : g ≠ f) :
    Noticed (.freeze f n) (postFreeze g s) := by
  unfold postFreeze
  split
  · split
    · exact h.post_elsewhere fun q goes => otherDeck goes other
    · exact h
  · exact h

/-- The FREEZE notices of the load (R42). -/
def loadFrozen (good : Bool) (s : State) : State := postFreeze .b (postFreeze .a (loadBegun good s))

theorem loadFrozen_frame :
    loadFrozen good s = { loadBegun good s with ports := (loadFrozen good s).ports }
      ∧ PortsNoted [.freeze] (loadBegun good s) (loadFrozen good s) := by
  obtain ⟨first, noted⟩ := postFreeze_noted .a (loadBegun good s)
  obtain ⟨second, noted'⟩ := postFreeze_noted .b (postFreeze .a (loadBegun good s))
  refine ⟨?_, noted.trans noted'⟩
  unfold loadFrozen
  generalize postFreeze .b (postFreeze .a (loadBegun good s)) = y at second
  generalize postFreeze .a (loadBegun good s) = x at first second
  rw [second, first]

theorem loadFrozen_told {f : Furnace} {h : Heat} (heat : heatOf (loadBegun good s) f = some h) (flag : h.freeze = true) :
    Noticed (.freeze f h.number) (loadFrozen good s) := by
  unfold loadFrozen
  cases f with
  | a => exact (postFreeze_told heat flag).postFreeze_other (by decide)
  | b =>
    obtain ⟨first, -⟩ := postFreeze_noted .a (loadBegun good s)
    exact postFreeze_told ((heatOf_congr (by rw [first])).trans heat) flag

end

end Sys2Proof.Machine
end


section
/-! The end of the settings load: the blocks started (R65, R93, R101, R119, R122, R139, R157). -/

namespace Sys2Proof.Machine

/-! ### The scanner -/

theorem get_mapChan {α β : Type} (x : PerChan α) (g : Chan → α → β) (ch : Chan) :
    (x.mapChan g).get ch = g ch (x.get ch) := by cases ch <;> rfl

theorem startScanner_frame (s : State) : startScanner s = { s with scan := (startScanner s).scan } := rfl

theorem startScanner_chan (s : State) (ch : Chan) :
    chanOf (startScanner s) ch = if inService s ch then chanOf s ch else flagRecord false := get_mapChan _ _ _

theorem startScanner_dip (s : State) (f : Furnace) :
    ((startScanner s).scan.dips.get f).state = if (s.scan.dips.get f).level then .waitRelease else .idle := by
  have own : (startScanner s).scan.dips.get f = setDipFromLevel (s.scan.dips.get f) := PerFurnace.get_map _ _ _
  rw [own]
  rfl

/-! ### The circuits -/

/-- A latched circuit trips at its first evaluation (R119). -/
theorem evalCircuits_latched {s : State} (loaded : loading s = false) (init : ∀ c, (circuitOf s c).state = .init)
    {c : Circuit} (latch : (circuitOf s c).latch = true) :
    (circuitOf (evalCircuits s) c).state = .trip ∧ (circuitOf (evalCircuits s) c).cause = some .latch := by
  obtain ⟨a, b, first, judgedA, second, judgedB, third, judgedC⟩ := (evalCircuits_judged s).2 loaded
  obtain ⟨-, -, -, othersA, -, -, -, -, tripsA, -⟩ := judgedA
  obtain ⟨-, -, -, othersB, -, -, -, -, tripsB, -⟩ := judgedB
  obtain ⟨-, -, -, -, -, -, -, -, tripsC, -⟩ := judgedC
  obtain ⟨-, -, -, -, -, -, -, keptB⟩ := second
  obtain ⟨-, -, -, -, -, -, -, keptC⟩ := third
  cases c with
  | coilA =>
    obtain ⟨trip, cause, -⟩ := tripsA (init _) latch
    obtain ⟨trip', cause'⟩ := keptB .coilA trip
    obtain ⟨trip'', cause''⟩ := keptC .coilA trip'
    exact ⟨trip'', (cause''.trans cause').trans cause⟩
  | coilB =>
    have same := othersA .coilB (by decide)
    rw [same] at tripsB
    obtain ⟨trip, cause, -⟩ := tripsB (init _) latch
    obtain ⟨trip', cause'⟩ := keptC .coilB trip
    exact ⟨trip', cause'.trans cause⟩
  | cabinet =>
    have same := (othersB .cabinet (by decide)).trans (othersA .cabinet (by decide))
    rw [same] at tripsC
    obtain ⟨trip, cause, -⟩ := tripsC (init _) latch
    exact ⟨trip, cause⟩

/-! ### The loop -/

theorem derivedLoop_ne_fail (s : State) : derivedLoop s ≠ .loopFail := by
  unfold derivedLoop
  split
  · decide
  · split <;> decide

/-- The loop derived: its state, its latch, and the notice that tells them (R119). -/
theorem deriveLoop_derived (s : State) :
    (deriveLoop s).prot.loop.state = some (derivedLoop s)
      ∧ ((deriveLoop s).prot.loop.standbyLatch = true ↔ derivedLoop s ≠ .main)
      ∧ Noticed (.pumpChangeover (derivedLoop s) .reset (deriveLoop s).prot.loop.standbyLatch) (deriveLoop s) := by
  have fails := derivedLoop_ne_fail s
  unfold deriveLoop
  cases derived : derivedLoop s with
  | changeover =>
    have moved := evalCircuits_circuits (mapCircuits CircuitRec.holdTimers (setLoop .changeover .reset true s))
    dsimp only
    unfold enterChangeover
    rw [moved.loop]
    exact ⟨rfl, by simp [mapCircuits, setLoop], moved.pump (setLoop_noticed _ _ _ s)⟩
  | standby =>
    have moved := evalCircuits_circuits (setLoop .standby .reset true s)
    dsimp only
    rw [moved.loop]
    exact ⟨rfl, by simp [setLoop], moved.pump (setLoop_noticed _ _ _ s)⟩
  | main =>
    have moved := evalCircuits_circuits (setLoop .main .reset false s)
    dsimp only
    rw [moved.loop]
    exact ⟨rfl, by simp [setLoop], moved.pump (setLoop_noticed _ _ _ s)⟩
  | loopFail => exact absurd derived fails

theorem deriveLoop_protOnly (s : State) : ProtOnly s (deriveLoop s) := by
  unfold deriveLoop
  split
  · exact enterChangeover_protOnly _ s
  · exact (setLoop_protOnly _ _ _ s).trans (evalCircuits_protOnly _)
  · exact (setLoop_protOnly _ _ _ s).trans (evalCircuits_protOnly _)

/-! ### The blocks in turn -/

section

variable {good : Bool} {s : State}

/-- The state before the follow-up: the scanner started, the circuits evaluated, the loop derived. -/
def loadStarted (good : Bool) (s : State) : State := deriveLoop (evalCircuits (startScanner (loadFrozen good s)))

theorem finishLoad_eq : finishLoad good s = settleAll (loadStarted good s) := rfl

theorem loadStarted_only : ProtOnly (startScanner (loadFrozen good s)) (loadStarted good s) :=
  (evalCircuits_protOnly _).trans (deriveLoop_protOnly _)

/-- What the blocks start from. -/
theorem loadScanned_frame :
    startScanner (loadFrozen good s) = { s with
      clock := { s.clock with estDue := (loadBegun good s).clock.estDue }
      heat := { s.heat with slots := (loadBegun good s).heat.slots }
      shop := { s.shop with reasons := loadedReasons good s, state := loadedShopState good s }
      ports := (loadFrozen good s).ports
      sett := { s.sett with memory := .idle, working := loadedWorking good s }
      scan := (startScanner (loadFrozen good s)).scan } := by
  obtain ⟨frozen, -⟩ := loadFrozen_frame (good := good) (s := s)
  have begun := loadBegun_frame (good := good) (s := s)
  rw [startScanner_frame]
  generalize (startScanner (loadFrozen good s)).scan = scan
  generalize loadFrozen good s = y at frozen
  generalize loadBegun good s = x at frozen begun
  rw [frozen, begun]

/-- What the follow-up starts from. -/
theorem loadStarted_frame :
    loadStarted good s = { s with
      clock := { s.clock with estDue := (loadBegun good s).clock.estDue }
      heat := { s.heat with slots := (loadBegun good s).heat.slots }
      shop := (loadStarted good s).shop, stage := (loadStarted good s).stage, prot := (loadStarted good s).prot
      ports := (loadStarted good s).ports
      sett := { s.sett with memory := .idle, working := loadedWorking good s }
      scan := (startScanner (loadFrozen good s)).scan } := by
  obtain ⟨frame, -⟩ := loadStarted_only (good := good) (s := s)
  have scanned := loadScanned_frame (good := good) (s := s)
  generalize loadStarted good s = y at frame
  generalize loadBegun good s = z at scanned
  generalize startScanner (loadFrozen good s) = x at frame scanned
  rw [frame, scanned]

theorem loadStarted_shop :
    (loadStarted good s).shop.reasons = loadedReasons good s
      ∧ (loadStarted good s).shop.state = loadedShopState good s := by
  obtain ⟨-, shop, -⟩ := loadStarted_only (good := good) (s := s)
  rw [shop, loadScanned_frame]
  exact ⟨rfl, rfl⟩

theorem loadedShopState_unbanked : loadedShopState good s ≠ .banked := by
  unfold loadedShopState
  split
  · split <;> decide
  · decide

theorem loadStarted_unbanked : (loadStarted good s).shop.state ≠ .banked := by
  rw [loadStarted_shop.2]
  exact loadedShopState_unbanked

theorem loadStarted_loading : loading (loadStarted good s) = false := by
  unfold loading
  rw [loadStarted_frame]
  rfl

/-- A notice of the load stands through the start of the blocks and the follow-up. -/
theorem Noticed.loadEnded {d : Detail} (h : Noticed d (loadFrozen good s)) (out : d.kind ∉ circuitKinds)
    (quiet : d.kind ∉ [.readyChanged] ++ refusalKinds ++ matchKinds) : Noticed d (finishLoad good s) := by
  obtain ⟨-, -, -, -, noted, -⟩ := loadStarted_only (good := good) (s := s)
  have scanned : Noticed d (startScanner (loadFrozen good s)) := h
  exact (scanned.keep noted out).keep (settleAll_unbanked loadStarted_unbanked).2 quiet

theorem finishLoad_shop : (finishLoad good s).shop = (loadStarted good s).shop :=
  (settleAll_unbanked loadStarted_unbanked).1

theorem finishLoad_settled : SettledAll [] (loadStarted good s) (finishLoad good s) :=
  settleAll_settledAll _ loadStarted_loading

theorem finishLoad_frame :
    finishLoad good s = { s with
      clock := { s.clock with estDue := (loadBegun good s).clock.estDue }
      heat := { s.heat with slots := (finishLoad good s).heat.slots }
      allot := (finishLoad good s).allot, shop := (finishLoad good s).shop, stage := (finishLoad good s).stage
      tap := (finishLoad good s).tap, ports := (finishLoad good s).ports
      prot := (loadStarted good s).prot
      sett := { s.sett with memory := .idle, working := loadedWorking good s }
      scan := (startScanner (loadFrozen good s)).scan } := by
  obtain ⟨⟨frame, heat, -⟩, -⟩ := finishLoad_settled (good := good) (s := s)
  have started := loadStarted_frame (good := good) (s := s)
  generalize finishLoad good s = t at frame heat
  generalize (startScanner (loadFrozen good s)).scan = scan at started
  generalize loadBegun good s = z at started
  generalize loadStarted good s = y at frame heat started
  rw [frame, heat, started]

end

end Sys2Proof.Machine
end


section
/-! The end of the settings load (R37, R42, R65, R93, R101, R119, R122, R139, R157). -/

namespace Sys2Proof.Machine

section

variable {good : Bool} {s : State}

/-! ### The heats -/

theorem loadStarted_slots (f : Furnace) :
    (loadStarted good s).heat.slots.get f = (loadBegun good s).heat.slots.get f := by
  rw [loadStarted_frame]

theorem SlotEvaluated.of_none {second : Nat} {x y : FurnaceSlot} (h : SlotEvaluated second x y)
    (none' : ∀ z, x.slot ≠ .heat z) : y = x := by
  obtain ⟨frame, slot⟩ := h
  split at slot
  · next z is => exact absurd is (none' z)
  · rw [frame, slot]

theorem finishLoad_none {f : Furnace} (none' : heatOf s f = none) :
    (finishLoad good s).heat.slots.get f = s.heat.slots.get f := by
  obtain ⟨⟨-, -, slots, -⟩, -⟩ := finishLoad_settled (good := good) (s := s)
  have begun := (loadStarted_slots (good := good) f).trans (loadBegun_none none')
  refine (SlotEvaluated.of_none (slots f) fun z is => ?_).trans begun
  rw [begun] at is
  unfold heatOf slotOf at none'
  rw [is] at none'
  cases none'

/-- An open heat at the end of the load, followed up. -/
theorem finishLoad_heat {f : Furnace} {h : Heat} (heat : heatOf s f = some h) :
    SlotEvaluated s.clock.shopSeconds
        { s.heat.slots.get f with
          slot := .heat (caughtAs (fillWorking good s) f (s.clock.shopSeconds - (s.heat.slots.get f).stamp) h)
          stamp := s.clock.shopSeconds } ((finishLoad good s).heat.slots.get f)
      ∧ (finishLoad good s).clock.estDue.get f = false
      ∧ ((caughtAs (fillWorking good s) f (s.clock.shopSeconds - (s.heat.slots.get f).stamp) h).freeze = true →
          Noticed (.freeze f h.number) (finishLoad good s)) := by
  obtain ⟨⟨-, -, slots, -⟩, -⟩ := finishLoad_settled (good := good) (s := s)
  obtain ⟨due, new, slot, moved, -⟩ := loadBegun_slot (good := good) heat
  have second : (loadStarted good s).clock.shopSeconds = s.clock.shopSeconds := by rw [loadStarted_frame]
  have after := slots f
  rw [loadStarted_slots, second, slot] at after
  refine ⟨SlotEvaluated.trans ⟨rfl, new, rfl, moved⟩ after, ?_, fun flag => ?_⟩
  · rw [finishLoad_frame]
    exact due
  · have found : heatOf (loadBegun good s) f = some new := by
      unfold heatOf slotOf
      rw [slot]
    have told : new.freeze = true := by rw [moved.1]; exact flag
    have number : new.number = h.number := by
      rw [moved.1]
      exact (caughtAs_fields _).2.2
    have frozen := loadFrozen_told found told
    rw [number] at frozen
    exact frozen.loadEnded (by simp [Detail.kind, circuitKinds]) (by simp [Detail.kind, refusalKinds, matchKinds])

/-- No heat becomes TAP_READY before the follow-up. -/
theorem loadStarted_ready {f : Furnace} (cold : isTapReady s f = false) : isTapReady (loadStarted good s) f = false := by
  unfold isTapReady at cold ⊢
  cases heat : heatOf s f with
  | none =>
    have begun := (loadStarted_slots (good := good) f).trans (loadBegun_none heat)
    rw [(heatOf_congr (by rw [begun])).trans heat]
  | some h =>
    obtain ⟨-, new, slot, -, reaches⟩ := loadBegun_slot (good := good) heat
    have found : heatOf (loadStarted good s) f = some new := by
      unfold heatOf slotOf
      rw [loadStarted_slots, slot]
    rw [heat] at cold
    rw [found]
    refine beq_eq_false_iff_ne.mpr fun ready => ?_
    exact beq_eq_false_iff_ne.mp cold (reaches ready)

/-! ### The loop -/

theorem loadStarted_loop :
    (loadStarted good s).prot.loop.state = some
        (if s.prot.loop.standbyLatch = true ∧ s.lines.standbyRun = true then .standby
          else if s.lines.mainPumpRun = true then .main else .changeover)
      ∧ ((loadStarted good s).prot.loop.standbyLatch = true ↔ (loadStarted good s).prot.loop.state ≠ some .main)
      ∧ Noticed (.pumpChangeover ((loadStarted good s).prot.loop.state.getD .main) .reset
          (loadStarted good s).prot.loop.standbyLatch) (loadStarted good s) := by
  obtain ⟨state, latch, told⟩ := deriveLoop_derived (evalCircuits (startScanner (loadFrozen good s)))
  have loop := (evalCircuits_circuits (startScanner (loadFrozen good s))).loop
  obtain ⟨frame, -⟩ := evalCircuits_protOnly (startScanner (loadFrozen good s))
  have derived : derivedLoop (evalCircuits (startScanner (loadFrozen good s)))
      = (if s.prot.loop.standbyLatch = true ∧ s.lines.standbyRun = true then .standby
          else if s.lines.mainPumpRun = true then .main else .changeover) := by
    unfold derivedLoop
    rw [loop, frame, loadScanned_frame]
  have same : deriveLoop (evalCircuits (startScanner (loadFrozen good s))) = loadStarted good s := rfl
  rw [same] at state latch told
  refine ⟨state.trans (congrArg some derived), ?_, ?_⟩
  · rw [latch, state]
    simp
  · rw [state]
    exact told

/-- A latched circuit has tripped (R119). -/
theorem loadStarted_latched (law : ProtectionLaw s) (waiting : loading s = true) {c : Circuit}
    (latch : (circuitOf s c).latch = true) :
    (circuitOf (loadStarted good s) c).state = .trip ∧ (circuitOf (loadStarted good s) c).cause = some .latch := by
  obtain ⟨-, -, -, -, -, -, -, init⟩ := law
  obtain ⟨initA, initB, initC⟩ := init waiting
  have prot : (startScanner (loadFrozen good s)).prot = s.prot := by rw [loadScanned_frame]
  have same : ∀ d, circuitOf (startScanner (loadFrozen good s)) d = circuitOf s d := fun d => by
    unfold circuitOf
    rw [prot]
  have loaded : loading (startScanner (loadFrozen good s)) = false := by
    unfold loading
    rw [loadScanned_frame]
    rfl
  have every : ∀ d, (circuitOf (startScanner (loadFrozen good s)) d).state = .init := fun d => by
    rw [same]
    cases d
    · exact initA
    · exact initB
    · exact initC
  obtain ⟨trip, cause⟩ := evalCircuits_latched loaded every (c := c) (by rw [same]; exact latch)
  obtain ⟨-, -, -, -, -, -, -, kept⟩ := deriveLoop_protOnly (evalCircuits (startScanner (loadFrozen good s)))
  obtain ⟨trip', cause'⟩ := kept c trip
  exact ⟨trip', cause'.trans cause⟩

/-! ### The scanner -/

theorem finishLoad_scan : (finishLoad good s).scan = (startScanner (loadFrozen good s)).scan := by rw [finishLoad_frame]

theorem loadFrozen_scan : (loadFrozen good s).scan = s.scan := by
  obtain ⟨frame, -⟩ := loadFrozen_frame (good := good) (s := s)
  rw [frame, loadBegun_frame]

theorem finishLoad_off {ch : Chan} (out : valueIn (loadedWorking good s) (55 + chanNumber ch) ≠ 1) :
    (chanOf (finishLoad good s) ch).status = .off := by
  have flag : inService (loadFrozen good s) ch = false := by
    obtain ⟨frame, -⟩ := loadFrozen_frame (good := good) (s := s)
    unfold inService setting
    rw [frame, loadBegun_frame]
    exact beq_eq_false_iff_ne.mpr out
  have own := startScanner_chan (loadFrozen good s) ch
  unfold chanOf at own ⊢
  rw [finishLoad_scan, own, flag]
  rfl

end

/-- A memory that the load has ended with: good where it was read whole, whole written, and its check correct (R157). -/
theorem goodBlock_eq (acknowledged : Bool) (b : StoredBlock) :
    goodBlock acknowledged b
      = (acknowledged && !b.partWritten && decide (b.check = crc16 (settingsBytes b.values))) := by
  rfl

/-- Settles O32: the end of the settings load fits and catches up the heats, and starts every block. -/
theorem settingsLoadEndStartsTheBlocks : Obligations.SettingsLoadEndStartsTheBlocks := by
  intro acknowledged s on good baths loaded working filled second
  have runs : ∀ g : State → State, live g s = .next (g s) := fun g => live_powered g s on
  refine ⟨fun idle => (runs _).trans (congrArg _ (if_neg (by rw [idle]; decide))), fun waiting law => ?_⟩
  have ends : exec (.settingsLoadEnd acknowledged) s = .next (finishLoad good s) := by
    refine (runs _).trans (congrArg _ ((if_pos waiting).trans ?_))
    rw [goodBlock_eq]
  have frame := finishLoad_frame (good := good) (s := s)
  have shop := finishLoad_shop (good := good) (s := s)
  obtain ⟨reasons, state⟩ := loadStarted_shop (good := good) (s := s)
  obtain ⟨told, shopTold⟩ := loadBegun_told (good := good) (s := s)
  obtain ⟨-, frozen⟩ := loadFrozen_frame (good := good) (s := s)
  obtain ⟨loop, latch, pump⟩ := loadStarted_loop (good := good) (s := s)
  obtain ⟨settled, evalA, evalB, current, tilt, -, matches', -⟩ := finishLoad_settled (good := good) (s := s)
  have heats := fun f h heat => finishLoad_heat (good := good) (s := s) (f := f) (h := h) heat
  have caught : ∀ f gap h, caughtAs (fillWorking good s) f gap h = caughtAs filled f gap h := fun f gap h =>
    caught_congr (by rw [fillWorking_eq]; rfl) gap
  have prot : (finishLoad good s).prot = (loadStarted good s).prot := by rw [frame]
  have reasons' : (finishLoad good s).shop.reasons = loadedReasons good s := (congrArg Shop.reasons shop).trans reasons
  have state' : (finishLoad good s).shop.state = loadedShopState good s := (congrArg Shop.state shop).trans state
  refine ⟨_, ends, by rw [frame]; rfl, ?_, reasons', ?_, ?_, ?_, ?_, ?_, fun f => ?_, fun ch _ out => finishLoad_off out,
    fun c held => ?_, ?_, ?_, ?_, fun f none' => finishLoad_none none', fun f h heat => ?_, evalA, evalB, current, ?_,
    fun ⟨f, was, is⟩ => matches' (.inl ⟨f, ?_⟩), by rw [frame], by rw [frame], by rw [frame], by rw [frame], by rw [frame]⟩
  · exact (told.keep frozen (by simp [loadedNotice, Detail.kind])).loadEnded (by simp [loadedNotice, Detail.kind, circuitKinds])
      (by simp [loadedNotice, Detail.kind, refusalKinds, matchKinds])
  · rw [state', reasons']
    rfl
  · rw [state', reasons']
    exact (shopTold.keep frozen (by simp [Detail.kind])).loadEnded (by simp [Detail.kind, circuitKinds])
      (by simp [Detail.kind, refusalKinds, matchKinds])
  · rw [finishLoad_scan]
    rfl
  · rw [finishLoad_scan]
    rfl
  · rw [finishLoad_scan]
    rfl
  · rw [finishLoad_scan, startScanner_dip, loadFrozen_scan]
  · have tripped := loadStarted_latched (good := good) law waiting held
    unfold circuitOf at tripped ⊢
    rw [prot]
    exact tripped
  · rw [prot]
    exact loop
  · unfold State.standbyStart
    rw [prot]
    exact latch
  · rw [prot]
    exact pump.keep (settleAll_unbanked loadStarted_unbanked).2 (by simp [Detail.kind, refusalKinds, matchKinds])
  · have ends := heats f h heat
    rw [caught] at ends
    exact ends
  · have tap : (loadStarted good s).tap = s.tap := by rw [loadStarted_frame]
    unfold TiltNoticed at tilt ⊢
    rw [tap] at tilt
    exact tilt
  · rw [is, loadStarted_ready was]
    decide

end Sys2Proof.Machine
end


section
/-! What takes a settings write up does not read the answer to it (R91, R93, R117, R137, R154). -/

namespace Sys2Proof.Machine

section

variable (q : Port) (fr : Frame) (r : Reply) {s t : State}

/-! ### The scanner -/

theorem PressureJudged.answer (h : PressureJudged s t) : PressureJudged (putAnswer q fr r s) (putAnswer q fr r t) := h

theorem HandedToReader.answer {ch : Chan} (h : HandedToReader ch s t) :
    HandedToReader ch (putAnswer q fr r s) (putAnswer q fr r t) := by
  obtain ⟨circuit, pressure⟩ := h
  exact ⟨fun loaded c reads => (circuit loaded c reads).answer q fr r, pressure⟩

theorem SweepRestarted.answer (h : SweepRestarted s t) : SweepRestarted (putAnswer q fr r s) (putAnswer q fr r t) := by
  obtain ⟨frame, noted, told⟩ := h
  refine ⟨?_, noted.answer q fr r, fun f sampling => (told f sampling).answer q fr r⟩
  rw [frame]
  rfl

theorem FlagsTakenUp.answer {old new : List Nat} (h : FlagsTakenUp old new s t) :
    FlagsTakenUp old new (putAnswer q fr r s) (putAnswer q fr r t) := by
  obtain ⟨none', each⟩ := h
  refine ⟨fun same => by rw [none' same], fun ch mem changed => ?_⟩
  obtain ⟨u, only, handed, unread, restarted⟩ := each ch mem changed
  refine ⟨putAnswer q fr r u, only.answer q fr r, handed.answer q fr r, fun reader => ?_, restarted.answer q fr r⟩
  obtain ⟨prot, still⟩ := unread reader
  refine ⟨?_, fun other => ?_⟩
  · rw [prot]
    rfl
  · rw [still other]
    rfl

/-! ### Protection -/

theorem CircuitMoved.answer {c : Circuit} {g : CircuitRec → CircuitRec} (h : CircuitMoved c g s t) :
    CircuitMoved c g (putAnswer q fr r s) (putAnswer q fr r t) := by
  obtain ⟨circuits, loop, leak, cooled⟩ := h
  exact ⟨circuits, loop, leak.answer q fr r, cooled.answer q fr r⟩

theorem OverdueExpired.answer {c : Circuit} (h : OverdueExpired c s t) :
    OverdueExpired c (putAnswer q fr r s) (putAnswer q fr r t) := by
  obtain ⟨watch, derate, recovery, none'⟩ := h
  refine ⟨fun runs => ?_, fun runs => ?_, fun runs first => ?_, fun a b c => by rw [none' a b c]⟩
  · obtain ⟨only, expired⟩ := watch runs
    exact ⟨only.answer q fr r, CircuitMoved.answer q fr r expired⟩
  · obtain ⟨only, moved, tripped⟩ := derate runs
    exact ⟨only.answer q fr r, moved.answer q fr r, tripped.answer q fr r⟩
  · obtain ⟨only, expired⟩ := recovery runs first
    exact ⟨only.answer q fr r, CircuitMoved.answer q fr r expired⟩

theorem CircuitTakenUp.answer {old new : List Nat} {c : Circuit} (h : CircuitTakenUp old new c s t) :
    CircuitTakenUp old new c (putAnswer q fr r s) (putAnswer q fr r t) := by
  obtain ⟨takes, none'⟩ := h
  refine ⟨fun uses => ?_, fun unused => by rw [none' unused]⟩
  obtain ⟨u, only, judged, expired⟩ := takes uses
  exact ⟨putAnswer q fr r u, only.answer q fr r, judged.answer q fr r, expired.answer q fr r⟩

theorem AllOverdueExpired.answer (h : AllOverdueExpired s t) :
    AllOverdueExpired (putAnswer q fr r s) (putAnswer q fr r t) := by
  obtain ⟨a, b, first, second, third⟩ := h
  exact ⟨putAnswer q fr r a, putAnswer q fr r b, first.answer q fr r, second.answer q fr r, third.answer q fr r⟩

theorem LoopFailed.answer {cause : LoopCause} (h : LoopFailed cause s t) :
    LoopFailed cause (putAnswer q fr r s) (putAnswer q fr r t) := by
  obtain ⟨loop, carried, warns, trips, enables, breaker, told⟩ := h
  exact ⟨loop, carried, warns, trips, enables, breaker, told.answer q fr r⟩

theorem SettleJudged.answer (h : SettleJudged s t) : SettleJudged (putAnswer q fr r s) (putAnswer q fr r t) := by
  obtain ⟨stands, fails⟩ := h
  refine ⟨fun good => ?_, fun bad => (fails bad).answer q fr r⟩
  obtain ⟨loop, told, timers, u, v, judged, expired, followed⟩ := stands good
  exact ⟨loop, told.answer q fr r, timers, putAnswer q fr r u, putAnswer q fr r v, judged.answer q fr r,
    expired.answer q fr r, followed.answer q fr r⟩

theorem LoopTakenUp.answer {old new : List Nat} (h : LoopTakenUp old new s t) :
    LoopTakenUp old new (putAnswer q fr r s) (putAnswer q fr r t) := by
  obtain ⟨pressure, settles, none'⟩ := h
  refine ⟨fun changed => ?_, fun expires other => ?_, fun same still => by rw [none' same still]⟩
  · obtain ⟨frame, judged⟩ := pressure changed
    refine ⟨?_, judged⟩
    rw [frame]
    rfl
  · obtain ⟨only, judged⟩ := settles expires other
    exact ⟨only.answer q fr r, judged.answer q fr r⟩

theorem ProtectionTakenUp.answer {old new : List Nat} (h : ProtectionTakenUp old new s t) :
    ProtectionTakenUp old new (putAnswer q fr r s) (putAnswer q fr r t) := by
  obtain ⟨a, b, c, first, second, third, loop⟩ := h
  exact ⟨putAnswer q fr r a, putAnswer q fr r b, putAnswer q fr r c, first.answer q fr r, second.answer q fr r,
    third.answer q fr r, loop.answer q fr r⟩

/-! ### The permit's timers -/

theorem ReturnPosted.answer {id : Nat} (h : ReturnPosted id s t) :
    ReturnPosted id (putAnswer q fr r s) (putAnswer q fr r t) := fun e mem late => (h e mem late).answer q fr r

theorem ConfirmExpired.answer {p : Permit} {h : Heat} (g : ConfirmExpired p h s t) :
    ConfirmExpired p h (putAnswer q fr r s) (putAnswer q fr r t) := by
  obtain ⟨settled, matched, told, posted⟩ := g
  exact ⟨settled.answer q fr r, matched.answer q fr r, told.answer q fr r, ReturnPosted.answer q fr r posted⟩

theorem UseExpired.answer {p : Permit} {h : Heat} (g : UseExpired p h s t) :
    UseExpired p h (putAnswer q fr r s) (putAnswer q fr r t) := by
  obtain ⟨settled, matched, told, posted⟩ := g
  exact ⟨settled.answer q fr r, matched.answer q fr r, told.answer q fr r, ReturnPosted.answer q fr r posted⟩

theorem TapMaxExpired.answer {p : Permit} {h : Heat} {forward : Nat} (g : TapMaxExpired p h forward s t) :
    TapMaxExpired p h forward (putAnswer q fr r s) (putAnswer q fr r t) := by
  obtain ⟨frame, noted, told⟩ := g
  refine ⟨?_, noted.answer q fr r, told.answer q fr r⟩
  rw [frame]
  rfl

theorem WeightWaitExpired.answer {p : Permit} {h : Heat} (g : WeightWaitExpired p h s t) :
    WeightWaitExpired p h (putAnswer q fr r s) (putAnswer q fr r t) := by
  obtain ⟨settled, matched, told, closed⟩ := g
  have done : completedState p h 0 false true (putAnswer q fr r s) = putAnswer q fr r (completedState p h 0 false true s) := by
    unfold completedState
    dsimp only
    split <;> rfl
  refine ⟨?_, matched.answer q fr r, told.answer q fr r, fun empty => (closed empty).answer q fr r⟩
  rw [done]
  exact settled.answer q fr r

theorem TapTimersTakenUp.answer {old new : List Nat} (h : TapTimersTakenUp old new s t) :
    TapTimersTakenUp old new (putAnswer q fr r s) (putAnswer q fr r t) := by
  obtain ⟨expires, none'⟩ := h
  refine ⟨fun p held x open' => ?_, fun still => by rw [none' still]⟩
  obtain ⟨confirm, use, long, weight⟩ := expires p held x open'
  exact ⟨fun a b => (confirm a b).answer q fr r, fun a b c => (use a b c).answer q fr r,
    fun forward at' a b c => (long forward at' a b c).answer q fr r, fun a b => (weight a b).answer q fr r⟩

end

end Sys2Proof.Machine
end


section
/-! A settings write taken up by the blocks (R91, R93, R117, R137). -/

namespace Sys2Proof.Machine

/-! ### The settings that a write can change -/

section

variable {w : List Nat} {bath : PerFurnace Nat} {n value : Nat}

/-- A write stores its value, brought into the setting's range (R153). -/
theorem valueIn_writeWorking_same (size : w.length = 65) (low : 1 ≤ n) (high : n ≤ 65) :
    valueIn (writeWorking w bath n value) n = fitSetting w bath false n value := by
  have others : ∀ m ∈ dependents.filter (fun m => m != n), 1 ≤ m ∧ n ≠ m := fun m mem => by
    obtain ⟨member, other⟩ := List.mem_filter.mp mem
    obtain ⟨within, -⟩ := dependents_settings m member
    exact ⟨(mem_settingNumbers.mp within).1, fun e => by simp [e] at other⟩
  show valueIn (List.foldl (refitValue bath) _ _) _ = _
  rw [refitValues_other low _ _ others, valueIn_putValue_same _ low (by omega)]

/-- A setting outside the dependents changes by its own write alone. -/
theorem writeWorking_changed {k : Nat} (low : 1 ≤ n) (klow : 1 ≤ k) (own : k ∉ dependents)
    (changed : SettingChanged w (writeWorking w bath n value) k) : k = n := by
  refine Classical.byContradiction fun other => ?_
  have others : ∀ m ∈ dependents.filter (fun m => m != n), 1 ≤ m ∧ k ≠ m := fun m mem => by
    obtain ⟨member, -⟩ := List.mem_filter.mp mem
    obtain ⟨within, -⟩ := dependents_settings m member
    exact ⟨(mem_settingNumbers.mp within).1, fun e => own (e ▸ member)⟩
  refine changed ?_
  show _ = valueIn (List.foldl (refitValue bath) _ _) _
  rw [refitValues_other klow _ _ others, valueIn_putValue_other _ low klow other]

/-- Of the settings outside the dependents at most one has changed. -/
def OneChanged (old new : List Nat) : Prop :=
  ∀ j k, 1 ≤ j → 1 ≤ k → j ∉ dependents → k ∉ dependents → SettingChanged old new j → SettingChanged old new k → j = k

theorem writeWorking_oneChanged (low : 1 ≤ n) : OneChanged w (writeWorking w bath n value) :=
  fun _ _ jlow klow jown kown jchanged kchanged =>
    (writeWorking_changed low jlow jown jchanged).trans (writeWorking_changed low klow kown kchanged).symm

end

theorem anyChanged_one (old new : List Nat) (n : Nat) : anyChanged old new [n] = true ↔ SettingChanged old new n := by
  simp [anyChanged, SettingChanged]

/-! ### The scanner -/

section

variable {old new : List Nat} {s : State}

theorem mem_changedFlags {ch : Chan} :
    ch ∈ allChans.filter (fun ch => valueIn old (55 + chanNumber ch) != valueIn new (55 + chanNumber ch))
      ↔ SettingChanged old new (55 + chanNumber ch) := by
  have all : ch ∈ allChans := by cases ch <;> decide
  simp [List.mem_filter, all, SettingChanged]

theorem allChans_chanNumber (ch : Chan) : allChans[chanNumber ch]? = some ch := by cases ch <;> rfl

theorem chanNumber_inj {c d : Chan} (h : chanNumber c = chanNumber d) : c = d :=
  Option.some.inj ((allChans_chanNumber c).symm.trans (h ▸ allChans_chanNumber d))

theorem allChans_single (p : Chan → Bool) (ch : Chan) (only : ∀ d, p d = true ↔ d = ch) : allChans.filter p = [ch] := by
  have same : p = fun d => d == ch := by
    funext d
    rw [Bool.eq_iff_iff, only, beq_iff_eq]
  rw [same]
  cases ch <;> decide

theorem changedFlags_one (one : OneChanged old new) {ch : Chan} (changed : SettingChanged old new (55 + chanNumber ch)) :
    allChans.filter (fun ch => valueIn old (55 + chanNumber ch) != valueIn new (55 + chanNumber ch)) = [ch] := by
  refine allChans_single _ ch fun d => ⟨fun is => ?_, fun e => ?_⟩
  · have moved : SettingChanged old new (55 + chanNumber d) := by simpa [SettingChanged] using is
    have outside : ∀ c, 55 + chanNumber c ∉ dependents := fun c => by cases c <;> decide
    have same := one _ _ (by omega) (by omega) (outside d) (outside ch) moved changed
    exact chanNumber_inj (by omega)
  · rw [e]
    simpa [SettingChanged] using changed

/-- A dip ended, as a scan with its unit ended and a DIP_FAILED for one that was SAMPLING (R99). -/
theorem endDip_ended (f : Furnace) (reason : DipFailure) (s : State) :
    endDip f reason s = { s with
        scan := { s.scan with dips := s.scan.dips.set f (dipEnded (s.scan.dips.get f)) }
        ports := (endDip f reason s).ports }
      ∧ PortsNoted [.dipFailed] s (endDip f reason s)
      ∧ ((s.scan.dips.get f).state = .sampling →
          Noticed (.dipFailed f (heatNumber s f) reason (s.scan.dips.get f).samples) (endDip f reason s)) := by
  unfold endDip dipEnded
  by_cases sampling : (s.scan.dips.get f).state = .sampling
  · rw [if_pos sampling, if_pos sampling]
    exact ⟨rfl, PortsNoted.trans (.of_eq rfl) (post_noted _ _), fun _ => post_noticed _ _⟩
  · rw [if_neg sampling, if_neg sampling, PerFurnace.set_get]
    exact ⟨rfl, .refl _ s, fun is => absurd is sampling⟩

/-- DIP_FAILED of one deck stands while the dip of the other ends. -/
theorem Noticed.endDip_other {f g : Furnace} {n samples : Nat} {why reason : DipFailure} {s : State}
    (h : Noticed (.dipFailed f n why samples) s) (other : g ≠ f) : Noticed (.dipFailed f n why samples) (endDip g reason s) := by
  unfold endDip
  split
  · exact Noticed.post_elsewhere (s := setDip g _ s) h fun q goes => otherDeck goes other
  · exact h

/-- A sweep restarted reaches channel 0 first, and no dip channel in its first unit (R92, R93). -/
theorem restartSweep_frame (s : State) :
    restartSweep s = { s with scan := { s.scan with
      running := true, unitCount := 1, lastOrdinary := none, sweepTimer := some 0
      plan :=
        [Chan.coilAOut, .coilBOut, .cabOut, .loopPress].filter (inService s)
          ++ (ordinaryChans.find? (inService s)).toList } } := by
  have plan : ∀ l : List Chan, l ++ (if (1 : Nat) = 10 then [Chan.dipA, Chan.dipB] else []) = l := fun l =>
    List.append_nil l
  unfold restartSweep beginUnit unitPlan
  rw [plan]
  rfl

/-- The sweep restarted, with the dips that were SAMPLING ended (R93, R99). -/
theorem endDipsForRestart_restarted (s : State) : SweepRestarted s (endDipsForRestart (restartSweep s)) := by
  obtain ⟨frameA, notedA, toldA⟩ := endDip_ended .a .scanRestart (restartSweep s)
  obtain ⟨frameB, notedB, toldB⟩ := endDip_ended .b .scanRestart (endDip .a .scanRestart (restartSweep s))
  have scanB : (endDip .a .scanRestart (restartSweep s)).scan.dips.get .b = s.scan.dips.get .b := by
    rw [frameA]
    rfl
  have numberB : heatNumber (endDip .a .scanRestart (restartSweep s)) .b = heatNumber s .b := by
    rw [frameA]
    rfl
  refine ⟨?_, ?_, fun f sampling => ?_⟩
  · unfold endDipsForRestart
    generalize endDip .b .scanRestart (endDip .a .scanRestart (restartSweep s)) = y at frameB
    generalize endDip .a .scanRestart (restartSweep s) = x at frameA frameB
    rw [frameB, frameA, restartSweep_frame]
    rfl
  · exact PortsNoted.trans (PortsNoted.trans (.of_eq rfl) notedA) notedB
  · cases f with
    | a => exact (toldA sampling).endDip_other (by decide)
    | b =>
      rw [scanB, numberB] at toldB
      exact toldB sampling

theorem scannerTakesUp_takenUp (one : OneChanged old new) (working : s.sett.working = new) :
    FlagsTakenUp old new s (scannerTakesUp old new s) := by
  refine ⟨fun none' => ?_, fun ch _ changed => ?_⟩
  · have empty : allChans.filter (fun ch => valueIn old (55 + chanNumber ch) != valueIn new (55 + chanNumber ch)) = [] :=
      List.filter_eq_nil_iff.mpr fun ch mem is => none' ch mem (mem_changedFlags.mp (List.mem_filter.mpr ⟨mem, is⟩))
    unfold scannerTakesUp
    rw [empty]
    rfl
  · have flag : flagRecord (inService s ch)
        = { status := if valueIn new (55 + chanNumber ch) = 1 then .stale else .off, value := none, updatedAt := none } := by
      have own : inService s ch = (valueIn new (55 + chanNumber ch) == 1) := by rw [← working]; rfl
      unfold flagRecord
      rw [own]
      by_cases on : valueIn new (55 + chanNumber ch) = 1
      · simp [on]
      · simp [on]
    have takes : scannerTakesUp old new s
        = endDipsForRestart (restartSweep (handUpdate ch (setChannel ch (flagRecord (inService s ch)) s))) := by
      unfold scannerTakesUp
      rw [changedFlags_one one changed]
      rfl
    rw [takes, flag]
    refine ⟨_, handUpdate_protOnly ch _, handUpdate_reader ch _, fun unread => ?_, endDipsForRestart_restarted _⟩
    unfold handUpdate
    rw [unread]
    dsimp only
    refine ⟨?_, fun other => if_neg other⟩
    split <;> rfl

end

end Sys2Proof.Machine
end


section
/-! A settings write taken up by the loop, the permit's timers and the heats (R15, R41, R47, R117, R137). -/

namespace Sys2Proof.Machine

section

variable {old new : List Nat} {s : State}

/-! ### The loop -/

theorem settleExpires_still (still : ¬ (inChangeover s = true ∧ s.prot.loop.settle.isSome = true)) : settleExpires s = s :=
  if_neg still

theorem loopTakesUp_takenUp (one : OneChanged old new) : LoopTakenUp old new s (loopTakesUp old new s) := by
  have apart : SettingChanged old new 43 → ¬ SettingChanged old new 47 := fun a b => by
    have := one 43 47 (by decide) (by decide) (by decide) (by decide) a b
    omega
  have pressure : SettingChanged old new 43 → loopTakesUp old new s = judgePressure s := fun changed => by
    unfold loopTakesUp
    dsimp only
    rw [if_pos ((anyChanged_one _ _ _).mpr changed), if_neg fun both => apart changed ((anyChanged_one _ _ _).mp both.1)]
  have settle : ¬ SettingChanged old new 43 → loopTakesUp old new s
      = if anyChanged old new [47] ∧ standbySettle s * 1000 ≤ s.prot.loop.settle.getD 0 then settleExpires s else s :=
    fun same => by
      unfold loopTakesUp
      dsimp only
      rw [if_neg fun is => same ((anyChanged_one _ _ _).mp is)]
  refine ⟨fun changed => ?_, fun ⟨changed, moving, n, runs, late⟩ other => ?_, fun other still => ?_⟩
  · rw [pressure changed]
    exact ⟨rfl, judgePressure_judged s⟩
  · have limit : standbySettle s * 1000 ≤ s.prot.loop.settle.getD 0 := by
      rw [show s.prot.loop.settle = some n from runs]
      exact late
    rw [settle other, if_pos ⟨(anyChanged_one _ _ _).mpr changed, limit⟩]
    obtain ⟨-, -, -, -, -, -, trips, -⟩ := settleExpires_protOnly s
    refine ⟨settleExpires_protOnly s, settleExpires_judged (by simpa [inChangeover] using moving) ?_ ⟨rfl, rfl, rfl, .refl _ _⟩ trips⟩
    rw [show s.prot.loop.settle = some n from runs]
    rfl
  · rw [settle other]
    split
    · next takes =>
      obtain ⟨changed, late⟩ := takes
      refine settleExpires_still fun ⟨moving, runs⟩ => ?_
      obtain ⟨n, is⟩ := Option.isSome_iff_exists.mp runs
      rw [is] at late
      exact still ⟨(anyChanged_one _ _ _).mp changed, moving, n, is, late⟩
    · rfl

/-! ### The circuits -/

theorem circuitTakesUp_protOnly (old new : List Nat) (c : Circuit) (s : State) :
    ProtOnly s (circuitTakesUp old new c s) := by
  have uses : circuitTakesUp old new c s
      = if anyChanged old new (circuitSettings c) then expireOverdue c (evalCircuit c s) else s := by
    unfold circuitTakesUp circuitSettings
    cases c <;> rfl
  rw [uses]
  split
  · exact (evalCircuit_protOnly c s).trans (expireOverdue_protOnly c _)
  · exact ProtOnly.refl s

theorem circuitTakesUp_loading (old new : List Nat) (c : Circuit) (s : State) :
    loading (circuitTakesUp old new c s) = loading s := (circuitTakesUp_protOnly old new c s).loading

theorem loopTakesUp_protOnly (old new : List Nat) (s : State) : ProtOnly s (loopTakesUp old new s) := by
  have judged : ProtOnly s (if anyChanged old new [43] then judgePressure s else s) := by
    split
    · exact judgePressure_protOnly s
    · exact ProtOnly.refl s
  unfold loopTakesUp
  dsimp only
  generalize (if anyChanged old new [43] then judgePressure s else s) = x at judged
  split
  · exact judged.trans (settleExpires_protOnly _)
  · exact judged

theorem protectionTakesUp_protOnly (old new : List Nat) (s : State) : ProtOnly s (protectionTakesUp old new s) :=
  (((circuitTakesUp_protOnly old new .coilA s).trans (circuitTakesUp_protOnly old new .coilB _)).trans
    (circuitTakesUp_protOnly old new .cabinet _)).trans (loopTakesUp_protOnly old new _)

theorem protectionTakesUp_takenUp (one : OneChanged old new) (loaded : loading s = false) :
    ProtectionTakenUp old new s (protectionTakesUp old new s) := by
  have first := circuitTakesUp_loading old new .coilA s
  have second := circuitTakesUp_loading old new .coilB (circuitTakesUp old new .coilA s)
  exact ⟨_, _, _, circuitTakesUp_takenUp old new .coilA s loaded,
    circuitTakesUp_takenUp old new .coilB _ (first.trans loaded),
    circuitTakesUp_takenUp old new .cabinet _ (second.trans (first.trans loaded)), loopTakesUp_takenUp one⟩

/-! ### The permit's timers -/

theorem overdue_iff (timer : Option Nat) (limit : Nat) : overdue timer limit = true ↔ CountedTo (limit * 1000) timer := by
  unfold overdue CountedTo
  cases timer <;> simp

/-- The timer of the permit that a setting limits, taken up: an overdue one expires (R137). -/
def timerTakesUp (new : List Nat) (n : Nat) (p : Permit) (s : State) : State :=
  match n with
  | 48 => if overdue p.use (valueIn new 48) then useExpires s else s
  | 49 => if overdue p.confirm (valueIn new 49) then confirmExpires s else s
  | 50 => if overdue p.tap (valueIn new 50) then tapMaxExpires s else s
  | 51 => if overdue p.weightWait (valueIn new 51) then weightWaitExpires s else s
  | _ => s

theorem CountedTo.isSome {limit : Nat} {t : Option Nat} (h : CountedTo limit t) : t.isSome = true := by
  obtain ⟨n, is, -⟩ := h
  rw [Option.mem_def.mp is]
  rfl

/-- A timer that does not expire for what the permit is in leaves everything (R131, R132). -/
theorem timerTakesUp_still {p : Permit} {n : Nat} (held : s.tap.permit = some p)
    (confirm : n = 49 → CountedTo (valueIn new 49 * 1000) p.confirm → p.state ≠ .pending)
    (use : n = 48 → CountedTo (valueIn new 48 * 1000) p.use → p.state = .granted → p.forwardAt ≠ none)
    (long : n = 50 → CountedTo (valueIn new 50 * 1000) p.tap → p.state = .granted → p.longPosted ≠ false)
    (weight : n = 51 → CountedTo (valueIn new 51 * 1000) p.weightWait → p.state ≠ .granted) :
    timerTakesUp new n p s = s := by
  unfold timerTakesUp
  split
  · split
    · next late =>
      unfold useExpires
      rw [held]
      exact if_neg fun ⟨granted, _, early⟩ => use rfl ((overdue_iff _ _).mp late) granted early
    · rfl
  · split
    · next late =>
      unfold confirmExpires
      rw [held]
      exact if_neg fun ⟨pending, _⟩ => confirm rfl ((overdue_iff _ _).mp late) pending
    · rfl
  · split
    · next late =>
      unfold tapMaxExpires
      rw [held]
      exact if_neg fun ⟨granted, _, unposted⟩ => long rfl ((overdue_iff _ _).mp late) granted unposted
    · rfl
  · split
    · next late =>
      unfold weightWaitExpires
      rw [held]
      exact if_neg fun ⟨granted, _⟩ => weight rfl ((overdue_iff _ _).mp late) granted
    · rfl
  · rfl

/-- The limits of the permit's timers are read from the settings (R137). -/
theorem tapTakesUp_takenUp (one : OneChanged old new) (working : s.sett.working = new) (loaded : loading s = false) :
    TapTimersTakenUp old new s (tapTakesUp old new s) := by
  have setting_eq : ∀ n, setting s n = valueIn new n := fun n => by rw [← working]; rfl
  have limits : tapConfirmTime s = valueIn new 49 ∧ permitUseTime s = valueIn new 48 ∧ tapMaxTime s = valueIn new 50
      ∧ weightWaitTime s = valueIn new 51 := by
    rw [← working]
    exact ⟨rfl, rfl, rfl, rfl⟩
  obtain ⟨confirmLimit, useLimit, tapLimit, weightLimit⟩ := limits
  have takes : ∀ p, s.tap.permit = some p → ∀ n ∈ [48, 49, 50, 51], SettingChanged old new n →
      tapTakesUp old new s = timerTakesUp new n p s := fun p held n mem changed => by
    have only : ∀ k ∈ [48, 49, 50, 51], anyChanged old new [k] = decide (k = n) := fun k memk => by
      rw [Bool.eq_iff_iff, anyChanged_one, decide_eq_true_iff]
      have outside : ∀ m ∈ [48, 49, 50, 51], 1 ≤ m ∧ m ∉ dependents := by decide
      exact ⟨fun also => one k n (outside k memk).1 (outside n mem).1 (outside k memk).2 (outside n mem).2 also changed,
        fun e => e ▸ changed⟩
    unfold tapTakesUp timerTakesUp
    rw [held]
    dsimp only
    rw [only 49 (by decide), only 48 (by decide), only 50 (by decide), only 51 (by decide), confirmLimit, useLimit,
      tapLimit, weightLimit]
    simp only [List.mem_cons, List.not_mem_nil, or_false] at mem
    rcases mem with rfl | rfl | rfl | rfl <;> simp
  refine ⟨fun p held h open' => ⟨fun pending ⟨changed, late⟩ => ?_, fun granted early ⟨changed, late⟩ => ?_,
    fun forward at' granted unposted ⟨changed, late⟩ => ?_, fun granted ⟨changed, late⟩ => ?_⟩, fun still => ?_⟩
  · rw [takes p held 49 (by decide) changed, timerTakesUp, if_pos ((overdue_iff _ _).mpr late)]
    exact confirmExpires_expired loaded held open' pending late.isSome
  · rw [takes p held 48 (by decide) changed, timerTakesUp, if_pos ((overdue_iff _ _).mpr late),
      useExpires_waiting held granted late.isSome early]
    exact withdrawPermit_withdrawn loaded open'
  · rw [takes p held 50 (by decide) changed, timerTakesUp, if_pos ((overdue_iff _ _).mpr late)]
    exact tapMaxExpires_long held open' at' granted late.isSome unposted
  · rw [takes p held 51 (by decide) changed, timerTakesUp, if_pos ((overdue_iff _ _).mpr late),
      weightWaitExpires_waiting held granted late.isSome]
    exact completeTap_completed 0 false true open' held granted loaded
  · cases held : s.tap.permit with
    | none =>
      unfold tapTakesUp
      rw [held]
    | some p =>
      obtain ⟨confirm, use, long, weight⟩ := still p held
      by_cases some' : ∃ n ∈ [48, 49, 50, 51], SettingChanged old new n
      · obtain ⟨n, mem, changed⟩ := some'
        rw [takes p held n mem changed]
        exact timerTakesUp_still held (fun e late pending => confirm ⟨pending, e ▸ changed, late⟩)
          (fun e late granted early => use ⟨granted, early, e ▸ changed, late⟩)
          (fun e late granted unposted => long ⟨granted, unposted, e ▸ changed, late⟩)
          (fun e late granted => weight ⟨granted, e ▸ changed, late⟩)
      · have same : ∀ n ∈ [48, 49, 50, 51], anyChanged old new [n] = false := fun n mem => by
          rw [Bool.eq_false_iff, Ne, anyChanged_one]
          exact fun changed => some' ⟨n, mem, changed⟩
        unfold tapTakesUp
        rw [held, same 48 (by decide), same 49 (by decide), same 50 (by decide), same 51 (by decide)]
        simp

end

end Sys2Proof.Machine
end


section
/-! A settings write taken up by the heats and the melt requests (R15, R32, R41, R47, R154). -/

namespace Sys2Proof.Machine

/-! ### One heat -/

section

variable {s : State} {f : Furnace} {h : Heat} {oldCp : Nat}

/-- The accumulator of a heat, scaled from the old CP to the one of the state (R15). -/
def scaledFrom (oldCp : Nat) (s : State) (h : Heat) : Int :=
  if cp s = oldCp then h.accumulator else (h.accumulator * (cp s : Int)).tdiv (oldCp : Int)

/-- A heat as a write of the settings leaves it, before R10 (R15, R41). -/
def refittedAs (oldCp : Nat) (s : State) (h : Heat) : Heat := broughtTo s (scaledFrom oldCp s h) h

/-- The heat with its accumulator scaled, as the refit begins. -/
theorem refitHeat_scaled :
    (if oldCp = cp s then h else { h with accumulator := scaleAccumulator h.accumulator oldCp (cp s) })
      = { h with accumulator := scaledFrom oldCp s h } := by
  unfold scaledFrom scaleAccumulator
  by_cases same : oldCp = cp s
  · rw [if_pos same, if_pos same.symm]
  · rw [if_neg same, if_neg (Ne.symm same)]

theorem refitHeat_eq : refitHeat s oldCp h = refittedAs oldCp s h := by
  unfold refitHeat refittedAs broughtTo
  rw [refitHeat_scaled]
  generalize scaledFrom oldCp s h = acc
  cases estimate : h.estimate with
  | none => simp [estimate, Nat.max_comm]
  | some e =>
    by_cases low : e < liquidus s
    · simp [evalFreeze, freezeOf, low, Nat.le_of_lt low, Nat.max_comm]
    · simp [evalFreeze, freezeOf, low, estimate, Nat.not_lt.mp low, Nat.max_comm]

theorem refittedAs_class : heatClass (refittedAs oldCp s h) = heatClass h :=
  heatClass_congr rfl Option.isSome_map

/-- The settings alone are read. -/
theorem refittedAs_congr {t : State} (sett : t.sett = s.sett) : refittedAs oldCp t = refittedAs oldCp s := by
  unfold refittedAs scaledFrom broughtTo cp liquidus freezeMargin setting
  rw [sett]

end

/-! ### A revision that leaves the class -/

section

variable {s t : State} {f : Furnace} {g : Heat → Heat}

/-- The evaluation that follows a revision, from the state with the revised heat in it. -/
theorem reviseHeat_edited (cls : ∀ h, heatClass (g h) = heatClass h) :
    HeatOnly [.freeze] f (editHeat f g s) (reviseHeat f g s) := by
  cases heat : heatOf s f with
  | none =>
    rw [reviseHeat_none g heat, editHeat_none g heat]
    exact .refl _ _ _
  | some h =>
    rw [editHeat_some g heat]
    exact reviseHeat_only g heat (cls h)

/-- What one deck's evaluation gives stands beside a revision of the other's heat. -/
theorem HeatOnly.editHeat_other {kinds : List NoticeKind} (only : HeatOnly kinds (otherFurnace f) s t)
    (number : ∀ h, (g h).number = h.number) : Evaluated kinds (editHeat f g s) (editHeat f g t) := by
  have same : t.heat.slots.get f = s.heat.slots.get f := by cases f <;> exact only.2.2
  have there : heatOf t f = heatOf s f := heatOf_congr (by rw [same])
  cases heat : heatOf s f with
  | none =>
    rw [editHeat_none g heat, editHeat_none g (there.trans heat)]
    exact only.1
  | some h =>
    rw [editHeat_some g heat, editHeat_some g (there.trans heat)]
    obtain ⟨⟨frame, slotsOnly, slots, -, refused, noted, still, told⟩, shop, -⟩ := only
    have clock : t.clock = s.clock := by rw [frame]
    have numbers : ∀ k, heatNumber (setHeat f (g h) s) k = heatNumber s k := fun k => by
      by_cases own : k = f
      · rw [own, heatNumber_of (heatOf_setHeat_same f (g h) s), heatNumber_of heat, number]
      · unfold heatNumber
        rw [heatOf_congr (t := setHeat f (g h) s) (s := s) (by exact congrArg _ (PerFurnace.get_set_other _ _ own))]
    refine ⟨?_, ?_, fun k => ?_, .inl shop, refused, noted, still, fun p held pending gone => ?_⟩
    · have replaced : ∀ x : HeatTable, { t with heat := x }
          = { setHeat f (g h) s with heat := x, shop := t.shop, tap := t.tap, ports := t.ports } := fun x => by
        rw [frame]
        rfl
      exact replaced _
    · have replaced : ∀ x, { t.heat with slots := x } = { s.heat with slots := x } := fun x => by rw [slotsOnly]
      exact replaced _
    · by_cases own : k = f
      · rw [own]
        have put : ∀ x : State, (setHeat f (g h) x).heat.slots.get f = { x.heat.slots.get f with slot := .heat (g h) } :=
          fun x => PerFurnace.get_set_same _ _ _
        rw [put, put, same]
        exact SlotEvaluated.refl _ _
      · have put : ∀ x : State, (setHeat f (g h) x).heat.slots.get k = x.heat.slots.get k :=
          fun x => PerFurnace.get_set_other _ _ own
        rw [put, put]
        exact slots k
    · obtain ⟨r, n, kept, which, posted⟩ := told p held pending gone
      exact ⟨r, n, kept, which.imp (fun c => ⟨c.1, c.2.trans (numbers _).symm⟩) id, posted⟩

theorem reviseHeat_freeze {h : Heat} (heat : heatOf s f = some h) (sets : (g h).freeze = true) (clear : h.freeze = false) :
    Noticed (.freeze f (g h).number) (reviseHeat f g s) := by
  have kept : ∀ x : Heat, (restamp (now s) h (liquidEval s x)).freeze = x.freeze
      ∧ (restamp (now s) h (liquidEval s x)).number = x.number := fun x => by
    obtain ⟨frame, -⟩ := liquidEval_state s x
    rw [restamp_eq, frame]
    exact ⟨rfl, rfl⟩
  unfold reviseHeat
  rw [heat]
  dsimp only
  rw [← (kept (g h)).2]
  exact afterRevision_freeze ((kept (g h)).1.trans sets) clear

/-- FREEZE of one deck stands while the heat of the other is revised. -/
theorem Noticed.reviseHeat_other {k : Furnace} {n : Nat} (told : Noticed (.freeze k n) s) (other : f ≠ k) :
    Noticed (.freeze k n) (reviseHeat f g s) := by
  unfold reviseHeat
  split
  · exact told
  · next h heat =>
    dsimp only
    generalize restamp (now s) h (liquidEval s (g h)) = new
    have posted : Noticed (.freeze k n) (freezeTold f h new (setHeat f new s)) := by
      unfold freezeTold
      split
      · exact Noticed.post_elsewhere (s := setHeat f new s) told fun q goes => otherDeck goes other
      · exact told
    unfold afterRevision
    dsimp only
    split
    · exact posted.keep (leaveReady_only f _).2.2.1 (by simp [Detail.kind, refusalKinds])
    · exact posted

end

end Sys2Proof.Machine
end


section
/-! A settings write taken up: the working copy, the melt requests and the heats (R15, R41, R47, R154). -/

namespace Sys2Proof.Machine

section

variable {q : Port} {n : Nat} {new : List Nat} {s : State}

/-- The SETTINGS notice of a write (R154). -/
def writtenNotice (q : Port) (n : Nat) (new : List Nat) (s : State) : Detail :=
  .settings .written (some q) n (valueIn new n) (changedDependents s.sett.working new n).length

/-- The working copy written and told, and the melt requests lowered to it (R47). -/
def writeLowered (q : Port) (n : Nat) (new : List Nat) (s : State) : State :=
  lowerMeltRequest .b (lowerMeltRequest .a (post (writtenNotice q n new s) (setWorking new s)))

/-- The revision of every heat by a write (R15, R41). -/
def writeRefit (new : List Nat) (s : State) : Heat → Heat := refittedAs (valueIn s.sett.working 19) (setWorking new s)

/-- The state with both heats fitted to the write and evaluated. -/
def writeRevised (q : Port) (n : Nat) (new : List Nat) (s : State) : State :=
  reviseHeat .b (writeRefit new s) (reviseHeat .a (writeRefit new s) (writeLowered q n new s))

/-- The state that a write's evaluations begin from (R15, R41, R47). -/
abbrev writeFitted (new : List Nat) (s : State) : State := refittedState (valueIn s.sett.working 19) (setWorking new s)

theorem takeUpWrite_eq :
    takeUpWrite q n new s = settleAll (askMatching (tapTakesUp s.sett.working new
      (protectionTakesUp s.sett.working new (scannerTakesUp s.sett.working new (writeRevised q n new s))))) := by
  have refit : refitHeat (writeLowered q n new s) (valueIn s.sett.working 19) = writeRefit new s := by
    funext h
    exact refitHeat_eq.trans (congrFun (refittedAs_congr rfl) h)
  unfold writeRevised
  rw [← refit]
  rfl

theorem writeRefit_class (h : Heat) : heatClass (writeRefit new s h) = heatClass h := refittedAs_class

theorem writeFitted_slot (f : Furnace) :
    (writeFitted new s).heat.slots.get f
      = match heatOf s f with
        | some h => { s.heat.slots.get f with slot := .heat (writeRefit new s h) }
        | none => s.heat.slots.get f := by
  cases f <;> rfl

theorem heatOf_writeFitted (f : Furnace) : heatOf (writeFitted new s) f = (heatOf s f).map (writeRefit new s) := by
  have slot := writeFitted_slot (new := new) (s := s) f
  cases heat : heatOf s f with
  | none =>
    rw [heat] at slot
    exact (heatOf_congr (congrArg FurnaceSlot.slot slot)).trans heat
  | some h =>
    rw [heat] at slot
    unfold heatOf slotOf
    rw [slot]
    rfl

/-- The slot of a deck after the revision of both heats. -/
theorem editHeats_slot (g : Heat → Heat) (f : Furnace) :
    (editHeat .b g (editHeat .a g s)).heat.slots.get f
      = match heatOf s f with
        | some h => { s.heat.slots.get f with slot := .heat (g h) }
        | none => s.heat.slots.get f := by
  have own : ∀ x : State, (editHeat f g x).heat.slots.get f
      = match heatOf x f with
        | some h => { x.heat.slots.get f with slot := .heat (g h) }
        | none => x.heat.slots.get f := fun x => by
    cases heat : heatOf x f with
    | none => rw [editHeat_none g heat]
    | some h => exact editHeat_slot g heat
  cases f with
  | a => exact (editHeat_slot_other g (by decide)).trans (own s)
  | b =>
    have kept := editHeat_slot_other (f := .a) (g := .b) (s := s) g (by decide)
    rw [own, heatOf_congr (congrArg FurnaceSlot.slot kept), kept]

/-- The fitted state, with the write told. -/
theorem writeEdited_eq :
    editHeat .b (writeRefit new s) (editHeat .a (writeRefit new s) (writeLowered q n new s))
      = { writeFitted new s with ports := (post (writtenNotice q n new s) s).ports } := by
  have first := editHeat_frame (f := .a) (s := writeLowered q n new s) (writeRefit new s)
  have second := editHeat_frame (f := .b) (s := editHeat .a (writeRefit new s) (writeLowered q n new s)) (writeRefit new s)
  have slots : (editHeat .b (writeRefit new s) (editHeat .a (writeRefit new s) (writeLowered q n new s))).heat.slots
      = (writeFitted new s).heat.slots := by
    have each : ∀ f, (editHeat .b (writeRefit new s) (editHeat .a (writeRefit new s) (writeLowered q n new s))).heat.slots.get f
        = (writeFitted new s).heat.slots.get f := fun f => by
      rw [editHeats_slot, writeFitted_slot]
      rfl
    have ext : ∀ x y : PerFurnace FurnaceSlot, x.a = y.a → x.b = y.b → x = y := fun ⟨_, _⟩ ⟨_, _⟩ a b => by
      cases a
      cases b
      rfl
    exact ext _ _ (each .a) (each .b)
  rw [slots] at second
  generalize editHeat .b (writeRefit new s) (editHeat .a (writeRefit new s) (writeLowered q n new s)) = y at second
  generalize editHeat .a (writeRefit new s) (writeLowered q n new s) = x at first second
  rw [second, first]
  rfl

theorem writeRevised_evaluated :
    Evaluated [.freeze] { writeFitted new s with ports := (post (writtenNotice q n new s) s).ports }
      (writeRevised q n new s) ∧ (writeRevised q n new s).shop = s.shop := by
  have first := reviseHeat_edited (f := .a) (s := writeLowered q n new s) (g := writeRefit new s) writeRefit_class
  have second := reviseHeat_edited (f := .b) (s := reviseHeat .a (writeRefit new s) (writeLowered q n new s))
    (g := writeRefit new s) writeRefit_class
  have beside := HeatOnly.editHeat_other (f := .b) (g := writeRefit new s) first fun _ => rfl
  rw [writeEdited_eq] at beside
  refine ⟨beside.trans second.1, ?_⟩
  rw [show (writeRevised q n new s).shop = _ from second.2.1, editHeat_shop, first.2.1, editHeat_shop]
  rfl

theorem writeRevised_settled : Settled [.settings, .freeze] (writeFitted new s) (writeRevised q n new s) := by
  have told : PortsNoted [.settings] (writeFitted new s)
      { writeFitted new s with ports := (post (writtenNotice q n new s) s).ports } := post_noted (writtenNotice q n new s) s
  have noted : TapOnly [.settings] (writeFitted new s)
      { writeFitted new s with ports := (post (writtenNotice q n new s) s).ports } :=
    ⟨rfl, TapRefused.refl _ _, Told.of_noted told rfl⟩
  refine Evaluated.settled (Evaluated.trans (noted.evaluated.mono ?_) (writeRevised_evaluated.1.mono ?_) ?_) (Settled.refl [] _)
  · decide
  · decide
  · decide

theorem writeRevised_told : Noticed (writtenNotice q n new s) (writeRevised q n new s) :=
  Noticed.keep (s := { writeFitted new s with ports := (post (writtenNotice q n new s) s).ports })
    (post_noticed (writtenNotice q n new s) s) writeRevised_evaluated.1.2.2.2.2.2.1
    (by simp [writtenNotice, Detail.kind, refusalKinds])

/-- A heat that the write brings to FREEZE is told (R32, R41). -/
theorem writeRevised_freeze {f : Furnace} {h h' : Heat} (heat : heatOf s f = some h)
    (fitted : heatOf (writeFitted new s) f = some h') (clear : h.freeze = false) (sets : h'.freeze = true) :
    Noticed (.freeze f h.number) (writeRevised q n new s) := by
  rw [heatOf_writeFitted, heat] at fitted
  cases fitted
  have here : heatOf (writeLowered q n new s) f = some h := heat
  unfold writeRevised
  cases f with
  | a => exact Noticed.reviseHeat_other (reviseHeat_freeze here sets clear) (by decide)
  | b =>
    have first := reviseHeat_edited (f := .a) (s := writeLowered q n new s) (g := writeRefit new s) writeRefit_class
    refine reviseHeat_freeze (g := writeRefit new s) ?_ sets clear
    have kept := editHeat_slot_other (f := .a) (g := .b) (s := writeLowered q n new s) (writeRefit new s) (by decide)
    exact first.other.trans ((heatOf_congr (congrArg FurnaceSlot.slot kept)).trans here)

end

end Sys2Proof.Machine
end


section
/-! What follows the heats where a settings write is taken up: the frame, and the notices that can be posted (R154). -/

namespace Sys2Proof.Machine

/-- The notice kinds that the blocks can post after the heats have taken a write up. -/
def laterKinds : List NoticeKind := settleKinds ++ circuitKinds ++ closeKinds ++ [.permitWithdrawn, .tapLong, .tapDone]

/-- What a block leaves as it was while it takes a write up, beside its own work. -/
structure TakesUp (s t : State) : Prop where
  sett : t.sett = s.sett
  powered : t.powered = s.powered
  clock : t.clock = s.clock
  lines : t.lines = s.lines
  link : t.stage.link = s.stage.link
  noted : PortsNoted laterKinds s t

namespace TakesUp

variable {s t u : State}

theorem refl (s : State) : TakesUp s s := ⟨rfl, rfl, rfl, rfl, rfl, .refl _ s⟩

theorem trans (h : TakesUp s t) (g : TakesUp t u) : TakesUp s u :=
  ⟨g.sett.trans h.sett, g.powered.trans h.powered, g.clock.trans h.clock, g.lines.trans h.lines, g.link.trans h.link,
    h.noted.trans g.noted⟩

theorem loading (h : TakesUp s t) : Machine.loading t = Machine.loading s := by
  unfold Machine.loading
  rw [h.sett]

/-- A step on the queue and the notices alone. -/
theorem of_tap {kinds : List NoticeKind} (h : t = { s with tap := t.tap, ports := t.ports }) (noted : PortsNoted kinds s t)
    (sub : ∀ k ∈ kinds, k ∈ laterKinds) : TakesUp s t :=
  ⟨by rw [h], by rw [h], by rw [h], by rw [h], by rw [h], noted.mono sub⟩

theorem post (d : Detail) (s : State) (within : d.kind ∈ laterKinds) : TakesUp s (Machine.post d s) :=
  ⟨rfl, rfl, rfl, rfl, rfl, post_noted_of within⟩

theorem of_settled {kinds : List NoticeKind} (h : Settled kinds s t) (sub : ∀ k ∈ kinds, k ∈ laterKinds) : TakesUp s t := by
  obtain ⟨frame, -, -, -, -, handed, -, -, noted, -⟩ := h
  refine ⟨by rw [frame], by rw [frame], by rw [frame], by rw [frame], by rw [handed], noted.mono fun k mem => ?_⟩
  rcases List.mem_append.mp mem with mine | followed
  · exact sub k mine
  · exact List.mem_append_left _ (List.mem_append_left _ (List.mem_append_left _ followed))

theorem of_protOnly (h : ProtOnly s t) : TakesUp s t := by
  obtain ⟨frame, -, handed, -, noted, -⟩ := h
  exact ⟨by rw [frame], by rw [frame], by rw [frame], by rw [frame], by rw [handed], noted.mono (by decide)⟩

end TakesUp

/-! ### The follow-ups -/

theorem recompute_takesUp (s : State) : TakesUp s (recompute s) := by
  cases loads : loading s with
  | true =>
    rw [recompute_loading s loads]
    exact .refl s
  | false => exact .of_settled (recompute_coordinated s loads).settled (by simp)

theorem settleHeat_takesUp (f : Furnace) (s : State) : TakesUp s (settleHeat f s) := by
  cases loads : loading s with
  | true =>
    rw [settleHeat_loading f s loads]
    exact .refl s
  | false => exact .of_settled (settleHeat_settledFor f s loads).1 (by simp)

theorem settleAll_takesUp (s : State) : TakesUp s (settleAll s) := by
  cases loads : loading s with
  | true =>
    rw [settleAll_loading s loads]
    exact .refl s
  | false => exact .of_settled (settleAll_settledAll s loads).1 (by simp)

theorem editHeat_takesUp (f : Furnace) (g : Heat → Heat) (s : State) : TakesUp s (editHeat f g s) := by
  unfold editHeat
  split
  · exact ⟨rfl, rfl, rfl, rfl, rfl, .of_eq rfl⟩
  · exact .refl s

/-! ### The scanner -/

theorem SweepRestarted.takesUp {s t : State} (h : SweepRestarted s t) : TakesUp s t := by
  obtain ⟨frame, noted, -⟩ := h
  exact ⟨by rw [frame], by rw [frame], by rw [frame], by rw [frame], by rw [frame], noted.mono (by decide)⟩

theorem FlagsTakenUp.takesUp {old new : List Nat} {s t : State} (h : FlagsTakenUp old new s t) : TakesUp s t := by
  obtain ⟨none', each⟩ := h
  by_cases some' : ∃ ch ∈ allChans, SettingChanged old new (55 + chanNumber ch)
  · obtain ⟨ch, mem, changed⟩ := some'
    obtain ⟨u, only, -, -, restarted⟩ := each ch mem changed
    have rest := (TakesUp.of_protOnly only).trans restarted.takesUp
    exact ⟨rest.sett, rest.powered, rest.clock, rest.lines, rest.link, rest.noted⟩
  · rw [none' fun ch mem changed => some' ⟨ch, mem, changed⟩]
    exact .refl s

/-! ### The permit's timers -/

theorem permitDropped_takesUp (p : Permit) (r : Reason) (s : State) : TakesUp s (permitDropped p r s) := by
  obtain ⟨frame, noted, -⟩ := permitDropped_ended p r s
  refine .of_tap (frame.trans ?_) noted (by decide)
  have tap : (permitDropped p r s).tap = (askMatching { s with tap := tapEnded p r s }).tap := by rw [frame]
  rw [tap]
  rfl

theorem confirmExpires_takesUp (s : State) : TakesUp s (confirmExpires s) := by
  unfold confirmExpires
  split
  · next p held =>
    split
    · rw [refusePermit_dropped]
      exact ((TakesUp.post _ s (by simp [Detail.kind, laterKinds, settleKinds, refusalKinds])).trans
        (permitDropped_takesUp p _ _)).trans (recompute_takesUp _)
    · exact .refl s
  · exact .refl s

theorem withdrawPermit_takesUp (p : Permit) (s : State) : TakesUp s (withdrawPermit p s) :=
  (((editHeat_takesUp p.furnace _ s).trans (TakesUp.post _ _ (by simp [Detail.kind, laterKinds]))).trans
    (permitDropped_takesUp p .withdrawn _)).trans (settleHeat_takesUp p.furnace _)

theorem useExpires_takesUp (s : State) : TakesUp s (useExpires s) := by
  unfold useExpires
  split
  · split
    · exact withdrawPermit_takesUp _ s
    · exact .refl s
  · exact .refl s

theorem tapMaxExpires_takesUp (s : State) : TakesUp s (tapMaxExpires s) := by
  unfold tapMaxExpires
  split
  · split
    · refine TakesUp.trans ?_ (TakesUp.post _ _ ?_)
      · exact ⟨rfl, rfl, rfl, rfl, rfl, .of_eq rfl⟩
      · simp [Detail.kind, laterKinds]
    · exact .refl s
  · exact .refl s

theorem closeHeat_takesUp (f : Furnace) (h : Heat) (reason : CloseReason) (s : State) :
    TakesUp s (closeHeat f h reason s) := by
  obtain ⟨only, -⟩ := closeHeat_only f h reason s
  obtain ⟨frame, -, noted, -⟩ := only
  exact TakesUp.trans (t := closedState f (summaryOf s f h reason) .empty s.heat.nextNumber s)
    ⟨rfl, rfl, rfl, rfl, rfl, .of_eq rfl⟩ (.of_tap frame noted (by decide))

theorem heatTakesTap_takesUp (f : Furnace) (mass : Nat) (clamped timeout : Bool) (s : State) :
    TakesUp s (heatTakesTap f mass clamped timeout s) := by
  unfold heatTakesTap
  split
  · exact .refl s
  · next h heat =>
    have put : TakesUp s (setHeat f (completeHeat mass clamped timeout h) s) := ⟨rfl, rfl, rfl, rfl, rfl, .of_eq rfl⟩
    dsimp only
    split
    · exact put.trans (closeHeat_takesUp _ _ _ _)
    · exact put

theorem completeTap_takesUp (p : Permit) (mass : Nat) (clamped timeout : Bool) (s : State) :
    TakesUp s (completeTap p mass clamped timeout s) := by
  rw [completeTap_eq, tapFinished_eq]
  have ended : ∀ x, TakesUp x (askMatching (tapEndedWith p x)) := fun x => ⟨rfl, rfl, rfl, rfl, rfl, .of_eq rfl⟩
  exact (((heatTakesTap_takesUp p.furnace mass clamped timeout s).trans (ended _)).trans
    (TakesUp.post _ _ (by simp [Detail.kind, laterKinds]))).trans (settleHeat_takesUp _ _)

theorem weightWaitExpires_takesUp (s : State) : TakesUp s (weightWaitExpires s) := by
  unfold weightWaitExpires
  split
  · split
    · exact completeTap_takesUp _ 0 false true s
    · exact .refl s
  · exact .refl s

theorem tapTakesUp_takesUp (old new : List Nat) (s : State) : TakesUp s (tapTakesUp old new s) := by
  unfold tapTakesUp
  split
  · exact .refl s
  · split
    · exact confirmExpires_takesUp s
    · split
      · exact useExpires_takesUp s
      · split
        · exact tapMaxExpires_takesUp s
        · split
          · exact weightWaitExpires_takesUp s
          · exact .refl s

end Sys2Proof.Machine
end


section
/-! A settings write taken up by every block (R154). -/

namespace Sys2Proof.Machine

/-- A change that asks for matching and that both heats read, followed up. -/
theorem asked_settledAll {s : State} (loaded : loading s = false) :
    SettledAll [] s (settleAll (askMatching s)) ∧ Matched (settleAll (askMatching s)) :=
  ⟨(askMatching_only [] s).settledAll (settleAll_settledAll (askMatching s) loaded) (askMatching_matchKept s)
    (settleAll_served (askMatching s) loaded), (settleAll_served (askMatching s) loaded).1 rfl⟩

section

variable {q : Port} {n : Nat} {new : List Nat} {s : State}

/-- What the blocks after the heats leave as it was. -/
theorem takeUpWrite_takesUp (one : OneChanged s.sett.working new) :
    TakesUp (writeRevised q n new s) (takeUpWrite q n new s) := by
  have working : (writeRevised q n new s).sett.working = new := by rw [writeRevised_settled.sett]; rfl
  have asked : ∀ x, TakesUp x (askMatching x) := fun x => ⟨rfl, rfl, rfl, rfl, rfl, .of_eq rfl⟩
  rw [takeUpWrite_eq]
  exact ((((scannerTakesUp_takenUp one working).takesUp.trans
    (TakesUp.of_protOnly (protectionTakesUp_protOnly _ _ _))).trans (tapTakesUp_takesUp _ _ _)).trans (asked _)).trans
    (settleAll_takesUp _)

/-- Every block takes the write up (R154). -/
theorem takeUpWrite_takenUp (one : OneChanged s.sett.working new) (loaded : loading s = false) :
    WriteTakenUp s.sett.working (setWorking new s) (takeUpWrite q n new s)
      ∧ EvaluatedNow .a (takeUpWrite q n new s) ∧ EvaluatedNow .b (takeUpWrite q n new s)
      ∧ AllotmentCurrent (takeUpWrite q n new s) := by
  have later := takeUpWrite_takesUp (q := q) (n := n) one
  have fitted := writeRevised_settled (q := q) (n := n) (new := new) (s := s)
  have shop := (writeRevised_evaluated (q := q) (n := n) (new := new) (s := s)).2
  have freezes := @writeRevised_freeze q n new s
  have working : (writeRevised q n new s).sett.working = new := by rw [fitted.sett]; rfl
  have loadedU : loading (writeRevised q n new s) = false := fitted.loading.trans loaded
  rw [takeUpWrite_eq] at later ⊢
  generalize writeRevised q n new s = u at *
  have flags := scannerTakesUp_takenUp one working
  have loadedV := flags.takesUp.loading.trans loadedU
  have workingV : (scannerTakesUp s.sett.working new u).sett.working = new := by rw [flags.takesUp.sett, working]
  have protection := protectionTakesUp_takenUp one loadedV
  have kept := TakesUp.of_protOnly (protectionTakesUp_protOnly s.sett.working new (scannerTakesUp s.sett.working new u))
  have loadedW := kept.loading.trans loadedV
  have timers := tapTakesUp_takenUp one (by rw [kept.sett, workingV]) loadedW
  have loadedX := (tapTakesUp_takesUp s.sett.working new _).loading.trans loadedW
  obtain ⟨settled, matched⟩ := asked_settledAll loadedX
  obtain ⟨-, evaluatedA, evaluatedB, current, -⟩ := id settled
  refine ⟨⟨u, _, _, _, fitted, shop, flags, protection, timers, settled, matched, fun f h heat h' fitted' clear sets => ?_⟩,
    evaluatedA, evaluatedB, current⟩
  exact (freezes heat fitted' clear sets).keep later.noted (by simp [Detail.kind]; decide)

theorem takeUpWrite_told (one : OneChanged s.sett.working new) :
    Noticed (writtenNotice q n new s) (takeUpWrite q n new s) :=
  writeRevised_told.keep (takeUpWrite_takesUp one).noted (by simp [writtenNotice, Detail.kind]; decide)

/-- What a write leaves as it was. -/
theorem takeUpWrite_frame (one : OneChanged s.sett.working new) :
    (takeUpWrite q n new s).sett = { s.sett with working := new } ∧ (takeUpWrite q n new s).powered = s.powered
      ∧ (takeUpWrite q n new s).clock = s.clock ∧ (takeUpWrite q n new s).lines = s.lines
      ∧ (takeUpWrite q n new s).stage.link = s.stage.link := by
  have later := takeUpWrite_takesUp (q := q) (n := n) one
  have fitted := writeRevised_settled (q := q) (n := n) (new := new) (s := s)
  have handed := fitted.2.2.2.2.2.1
  refine ⟨later.sett.trans fitted.sett, later.powered.trans fitted.powered, later.clock.trans fitted.clock,
    later.lines.trans fitted.lines, later.link.trans ?_⟩
  rw [handed]
  rfl

end

end Sys2Proof.Machine
end


section
/-! WRITE-SETTING (R153, R154, R155). -/

namespace Sys2Proof.Machine

/-! ### The answer to a write -/

/-- What takes a write up does not read the answer to it. -/
theorem WriteTakenUp.answer {old : List Nat} {s t : State} (h : WriteTakenUp old s t) (q : Port) (fr : Frame) (r : Reply) :
    WriteTakenUp old (putAnswer q fr r s) (putAnswer q fr r t) := by
  obtain ⟨u, v, w, x, fitted, shop, flags, protection, timers, settled, matched, told⟩ := h
  have refit : refittedState (valueIn old 19) (putAnswer q fr r s) = putAnswer q fr r (refittedState (valueIn old 19) s) :=
    rfl
  refine ⟨putAnswer q fr r u, putAnswer q fr r v, putAnswer q fr r w, putAnswer q fr r x, ?_, shop,
    flags.answer q fr r, protection.answer q fr r, timers.answer q fr r, settled.answer q fr r, matched.answer q fr r,
    fun f h heat h' fitted' clear sets => (told f h heat h' fitted' clear sets).answer q fr r⟩
  rw [refit]
  exact fitted.answer q fr r

/-! ### The handler -/

section

variable {q : Port} {body : List Byte} {s : State}

theorem handleWriteSetting_named
    (named : 1 ≤ field body 0 1 ∧ field body 0 1 ≤ 65 ∧ (52 ≤ field body 0 1 → field body 1 2 ≤ 1)) :
    handleWriteSetting q body s
      = if s.sett.memory = .saving then (touchChannel q s, replyRetry .saving)
        else if heldByOther q s then (touchChannel q s, replyRetry .channelHeld)
        else writeTaken q (field body 0 1) (field body 1 2) (touchChannel q s) := by
  obtain ⟨low, high, code⟩ := named
  have accepted : acceptsValue (field body 0 1) (field body 1 2) = true := by
    unfold acceptsValue
    rw [Bool.or_eq_true, decide_eq_true_eq, decide_eq_true_eq]
    omega
  unfold handleWriteSetting
  dsimp only
  rw [if_neg]
  simp [isSetting, low, high, accepted]

theorem handleWriteSetting_unnamed
    (unnamed : ¬ (1 ≤ field body 0 1 ∧ field body 0 1 ≤ 65 ∧ (52 ≤ field body 0 1 → field body 1 2 ≤ 1))) :
    handleWriteSetting q body s = (touchChannel q s, replyRefused .badKind) := by
  unfold handleWriteSetting
  dsimp only
  rw [if_pos]
  simp only [isSetting, acceptsValue, Bool.and_eq_false_iff, Bool.or_eq_false_iff, decide_eq_false_iff_not]
  omega

/-- The settings manager as a request leaves it that writes (R155). -/
def channelTaken (q : Port) (s : State) : State := { s with sett := { s.sett with owner := some q, idle := some 0 } }

/-- A write taken by the port that holds the channel or takes it (R153, R155). -/
theorem writeTaken_channel {n value : Nat} (mine : s.sett.owner = none ∨ s.sett.owner = some q) :
    writeTaken q n value (touchChannel q s)
      = (writeSettingValue q n value (channelTaken q s), (writeTaken q n value s).2) := by
  have taken := takeChannel_touchChannel mine
  have masses : (touchChannel q s).sett.working = s.sett.working ∧ bathMasses (touchChannel q s) = bathMasses s := by
    unfold touchChannel
    split <;> exact ⟨rfl, rfl⟩
  unfold writeTaken
  dsimp only
  rw [taken, masses.1, masses.2]
  rfl

/-- The answer to a write, by what it stores (R153). -/
theorem writeTaken_reply {n value stored : Nat}
    (stores : valueIn (writeWorking s.sett.working (bathMasses s) n value) n = stored) :
    (writeTaken q n value s).2
      = { outcome := takenAs (stored != value), reason := none
          body := (if stored = value then [] else be2 stored)
            ++ changedBytes s.sett.working (writeWorking s.sett.working (bathMasses s) n value) n } := by
  rw [← stores]
  rfl

/-- A write that changes the working copy, taken up and answered. -/
theorem writeSetting_takenUp {tag : Byte} {n : Nat} {new : List Nat} (reply : Reply)
    (one : OneChanged s.sett.working new) (loaded : loading s = false) :
    let t := putAnswer q (requestFrame .writeSetting tag body) reply (takeUpWrite q n new (channelTaken q (dropAssembly q s)))
    WriteTakenUp s.sett.working
        (answered .writeSetting q tag body reply
          { s with sett := { s.sett with owner := some q, idle := some 0, working := new } }) t
      ∧ t.sett = { s.sett with owner := some q, idle := some 0, working := new }
      ∧ (t.ports.get q).answer = some reply
      ∧ (t.ports.get q).inHand = some (requestFrame .writeSetting tag body)
      ∧ Noticed (.settings .written (some q) n (valueIn new n) (changedDependents s.sett.working new n).length) t
      ∧ EvaluatedNow .a t ∧ EvaluatedNow .b t ∧ AllotmentCurrent t
      ∧ t.powered = s.powered ∧ t.clock = s.clock ∧ t.lines = s.lines ∧ t.stage.link = s.stage.link := by
  have loaded' : loading (channelTaken q (dropAssembly q s)) = false := loaded
  obtain ⟨taken, evaluatedA, evaluatedB, current⟩ := takeUpWrite_takenUp (q := q) (n := n)
    (s := channelTaken q (dropAssembly q s)) one loaded'
  obtain ⟨sett, powered, clock, lines, link⟩ := takeUpWrite_frame (q := q) (n := n)
    (s := channelTaken q (dropAssembly q s)) one
  have told := takeUpWrite_told (q := q) (n := n) (s := channelTaken q (dropAssembly q s)) one
  have answeredState := putAnswer_dropAssembly q (requestFrame .writeSetting tag body) reply
    { s with sett := { s.sett with owner := some q, idle := some 0, working := new } }
  have here : ∀ x : State, (putAnswer q (requestFrame .writeSetting tag body) reply x).ports.get q
      = { x.ports.get q with inHand := some (requestFrame .writeSetting tag body), answer := some reply } :=
    fun x => PerPort.get_set_same _ _ _
  refine ⟨?_, sett, ?_, ?_, told.answer q _ reply, evaluatedA, evaluatedB, current, powered, clock, lines, link⟩
  · unfold answered
    rw [← answeredState]
    exact taken.answer q _ reply
  · rw [here]
  · rw [here]

end

/-- Settles O26. -/
theorem writeSettingStoresInRange : Obligations.WriteSettingStoresInRange := by
  intro q tag body s ready three size
  have long : RequestKind.lengthOk .writeSetting body.length = true := by simp [RequestKind.lengthOk, three]
  refine ⟨fun unnamed => ?_, fun named saving => ?_, fun named quiet held other => ?_, fun named quiet mine => ?_⟩
  · refine request_leaves .writeSetting q tag body s ready long rfl ?_
    refine (handleWriteSetting_unnamed (s := dropAssembly q s) unnamed).trans ?_
    rw [touchChannel_dropAssembly]
    rfl
  · refine request_leaves .writeSetting q tag body s ready long rfl ?_
    refine (handleWriteSetting_named (s := dropAssembly q s) named).trans ?_
    rw [if_pos (show (dropAssembly q s).sett.memory = .saving from saving), touchChannel_dropAssembly]
    rfl
  · refine request_leaves .writeSetting q tag body s ready long rfl ?_
    refine (handleWriteSetting_named (s := dropAssembly q s) named).trans ?_
    rw [if_neg (show (dropAssembly q s).sett.memory ≠ .saving from quiet),
      if_pos (show heldByOther q (dropAssembly q s) = true from heldByOther_eq_true held other),
      touchChannel_dropAssembly, touchChannel_other other]
  · have stored := valueIn_writeWorking_same (bath := bathMasses s) (value := field body 1 2) size
      named.1 named.2.1
    have mine' : (dropAssembly q s).sett.owner = none ∨ (dropAssembly q s).sett.owner = some q := mine
    have handled : handle .writeSetting q body (dropAssembly q s)
        = (writeSettingValue q (field body 0 1) (field body 1 2) (channelTaken q (dropAssembly q s)),
          (writeTaken q (field body 0 1) (field body 1 2) s).2) := by
      refine (handleWriteSetting_named (s := dropAssembly q s) named).trans ?_
      rw [if_neg (show (dropAssembly q s).sett.memory ≠ .saving from quiet),
        if_neg (show ¬ heldByOther q (dropAssembly q s) = true by rw [heldByOther_eq_false mine']; decide),
        writeTaken_channel mine']
      rfl
    have replies := writeTaken_reply (q := q) stored
    refine ⟨stored, fun same => ?_, fun changed => ⟨_, request_runs (t := takeUpWrite q (field body 0 1)
      (writeWorking s.sett.working (bathMasses s) (field body 0 1) (field body 1 2))
      (channelTaken q (dropAssembly q s))) ready long rfl (handled.trans (Prod.ext (if_neg changed) replies)), ?_⟩⟩
    · refine request_leaves .writeSetting q tag body s ready long rfl (handled.trans (Prod.ext ?_ replies))
      exact if_pos same
    · have done := writeSetting_takenUp (q := q) (s := s) (tag := tag) (body := body) (n := field body 0 1)
        (writeTaken q (field body 0 1) (field body 1 2) s).2
        (writeWorking_oneChanged (w := s.sett.working) (bath := bathMasses s)
          (value := field body 1 2) named.1) ready.2.1
      dsimp only at done
      rw [stored, replies] at done
      exact done

end Sys2Proof.Machine
end
